-- ==== Sys2Proof/Word.lean ====
section
/-! DEFINITION. Word types of the OZ-9640, lane masks, and sparse tables in one canonical form. -/

namespace Sys2Proof

/-- A vector register of one lane, or a parcel. -/
abbrev Word := BitVec 32
/-- A register pair, or a 64-bit control register (R5). -/
abbrev Dword := BitVec 64
abbrev Byte := BitVec 8
/-- A lane mask: bit L is lane L. -/
abbrev Mask := BitVec 32

/-- A table from natural-number keys to `w`-bit values. A key that is not listed reads 0. -/
abbrev Sparse (w : Nat) := List (Nat × BitVec w)

/-- The canonical form of a sparse table: keys strictly rising, and no listed value is 0. -/
abbrev Sparse.wf {w : Nat} (m : Sparse w) : Prop :=
  m.Pairwise (fun p q => p.1 < q.1) ∧ ∀ p ∈ m, p.2 ≠ 0

end Sys2Proof
end

