-- ==== Sys2Proof/Syntax.lean ====
section
/-! DEFINITION. The operations and events of the OZ-9640: one constructor of `Instr` per row of spec/opcode_table.json. -/

namespace Sys2Proof

/-- Element types (R121), in the order of their codes 0x0 to 0xF. -/
inductive Ty where
  | i32 | n32 | i16 | n16 | i8 | n8 | i64 | n64 | f32 | f16 | bf16 | e4m3 | e5m2 | q8 | q4 | b32
  deriving DecidableEq, Repr

/-- Index operands, codes 0x40 to 0x4C (R62). -/
inductive IndexReg where
  | lane | grp | wg | clu | die | ngrp | nwg | nclu | ndie | core | pos | active | ctx
  deriving DecidableEq, Repr

/-- A source operand (R123). -/
inductive Operand where
  /-- `v`k, codes 0x00 to 0x3F; in a pair position the even register of the pair -/
  | reg (k : BitVec 6)
  /-- an index operand, codes 0x40 to 0x4C -/
  | idx (i : IndexReg)
  /-- a small immediate, codes 0x60 to 0x7F: the two's-complement value of the 5 bits -/
  | imm (v : BitVec 5)
  /-- code 0xF0: a 32-bit literal -/
  | lit32 (v : Word)
  /-- code 0xF1: a 64-bit literal -/
  | lit64 (v : Dword)
  deriving DecidableEq, Repr

/-- Rounding modes (R128), in the order of their codes. -/
inductive Rnd where
  | rne | rtz | rdn | rup | rna | sr
  deriving DecidableEq, Repr

/-- Order of a prefix parcel (R129). -/
inductive Order where
  | relaxed | acquire | release | acqRel
  deriving DecidableEq, Repr

/-- Scope of a prefix parcel (R129, R300). -/
inductive Scope where
  | group | workgroup | cluster | die | package | system
  deriving DecidableEq, Repr

/-- Space of a prefix parcel (R129, R227). -/
inductive Space where
  | generic | priv | dieStore
  deriving DecidableEq, Repr

/-- Policy of a prefix parcel (R129, R283). -/
inductive Policy where
  | normal | streaming | keep | noAllocate
  deriving DecidableEq, Repr

/-- A prefix parcel (R129). -/
structure Prefix where
  order : Order
  scope : Scope
  space : Space
  policy : Policy
  notag : Bool
  deriving DecidableEq, Repr

/-- The fields of an operation: its prefix parcel, if it has one, and the fields of its two parcels (R119).
A field that the operation's form marks unused holds code 0x00, which is `reg 0` (R124). -/
structure Fields where
  pre : Option Prefix
  ty : Ty
  dest : BitVec 6
  a : Operand
  b : Operand
  c : Operand
  mod : BitVec 5
  rnd : Rnd
  spec : BitVec 8
  deriving DecidableEq, Repr

/-- What an uncorrectable error strikes (R296, R297). -/
inductive ErrorSite where
  /-- a 32-byte granule of memory, by its number in the module's physical space of the model -/
  | granule (n : Nat)
  /-- register `reg` of lane `lane` of the group in slot `slot` of core `core` -/
  | register (core slot lane reg : Nat)
  /-- register `reg` of the access slice of the group in slot `slot` of core `core` -/
  | sliceRegister (core slot reg : Nat)
  deriving DecidableEq, Repr

/-- One step of the machine. The first 137 constructors are the operations of a leaf (R136 to R147); the others
are the events of the other agents. An event's arguments name what it acts on; a group is named by its physical
core and its group slot, a VF by its number, a region by the address of its RCB. -/
inductive Instr where
  -- class 0x1, integer and logic
  | add (f : Fields) | sub (f : Fields) | mul (f : Fields) | mulhi (f : Fields) | mad (f : Fields)
  | div (f : Fields) | rem (f : Fields) | min (f : Fields) | max (f : Fields) | abs (f : Fields)
  | neg (f : Fields) | adds (f : Fields) | subs (f : Fields) | and (f : Fields) | or (f : Fields)
  | xor (f : Fields) | not (f : Fields) | andn (f : Fields) | shl (f : Fields) | shr (f : Fields)
  | rotl (f : Fields) | popc (f : Fields) | clz (f : Fields) | ctz (f : Fields) | brev (f : Fields)
  | bfx (f : Fields) | bfi (f : Fields) | cmp (f : Fields) | pick (f : Fields) | mov (f : Fields)
  -- class 0x2, float
  | fAdd (f : Fields) | fSub (f : Fields) | fMul (f : Fields) | fma (f : Fields) | fDiv (f : Fields)
  | sqrt (f : Fields) | fMin (f : Fields) | fMax (f : Fields) | fAbs (f : Fields) | fNeg (f : Fields)
  | fCmp (f : Fields) | fclass (f : Fields) | rcp (f : Fields) | rsqrt (f : Fields) | exp2 (f : Fields)
  | log2 (f : Fields) | sin (f : Fields) | cos (f : Fields) | tanh (f : Fields)
  -- class 0x3, conversion and packing
  | cvt (f : Fields) | cvtPk (f : Fields) | bpick (f : Fields)
  -- class 0x4, lane operations
  | xchLane (f : Fields) | xchRot (f : Fields) | xchPair (f : Fields) | xchSeg (f : Fields)
  | voteAll (f : Fields) | voteAny (f : Fields) | voteUni (f : Fields) | ballot (f : Fields)
  | elect (f : Fields) | first (f : Fields) | lredAdd (f : Fields) | lredMin (f : Fields) | lredMax (f : Fields)
  -- class 0x5, local loads and stores
  | ld (f : Fields) | st (f : Fields) | ldX4 (f : Fields) | stX4 (f : Fields)
  -- class 0x6, queues and async copies
  | qfeed (f : Fields) | qpop (f : Fields) | qstate (f : Fields) | cpAsync (f : Fields)
  | twaitAny (f : Fields) | twaitAll (f : Fields) | tfirst (f : Fields)
  -- class 0x7, synchronisation
  | bind (f : Fields) | unbind (f : Fields) | acqX (f : Fields) | acqS (f : Fields) | rel (f : Fields)
  | fence (f : Fields) | wsig (f : Fields) | barInit (f : Fields) | barArrive (f : Fields) | barWait (f : Fields)
  | barExpect (f : Fields) | barLink (f : Fields) | dbarInit (f : Fields) | dbarArrive (f : Fields)
  | dbarWait (f : Fields)
  -- class 0x8, atomics and reductions
  | atomAdd (f : Fields) | atomMin (f : Fields) | atomMax (f : Fields) | atomAnd (f : Fields) | atomOr (f : Fields)
  | atomXor (f : Fields) | atomXchg (f : Fields) | atomCas (f : Fields) | redAdd (f : Fields) | redMin (f : Fields)
  | redMax (f : Fields) | redAnd (f : Fields) | redOr (f : Fields) | redXor (f : Fields)
  -- class 0x9, matrix
  | mres (f : Fields) | mrel (f : Fields) | obres (f : Fields) | obrel (f : Fields) | tld (f : Fields)
  | tst (f : Fields) | tclr (f : Fields) | mfenceOp (f : Fields) | mlaunch (f : Fields) | mwait (f : Fields)
  | mstate (f : Fields)
  -- class 0xA, control
  | quit (f : Fields) | quitIf (f : Fields) | next (f : Fields) | nextIf (f : Fields) | ret (f : Fields)
  | retIf (f : Fields) | exit (f : Fields) | exitIf (f : Fields) | spawn (f : Fields) | launch (f : Fields)
  | yield (f : Fields)
  -- class 0xB, system
  | ctlGet (f : Fields) | ctlSet (f : Fields) | trap (f : Fields) | halt (f : Fields) | nop (f : Fields)
  | probe (f : Fields) | prof (f : Fields)
  -- class 0xC, memory tags and debug
  | stag (f : Fields) | ltag (f : Fields) | brk (f : Fields)
  -- events of groups
  | selectRun (core slot : Nat)
  | demotion (core slot : Nat)
  | demotionEnd (core slot : Nat)
  | groupEnd (core slot : Nat)
  | barrierTimeLimit (core slot : Nat)
  | peerAbsent (core slot : Nat)
  -- events of copies, feeds, engines, latches and the fabric
  /-- chunk `chunk` of the copy with identity `copy` -/
  | chunkLand (copy chunk : Nat)
  /-- entry `entry` (by identity) of the group's queues -/
  | feedComplete (core slot entry : Nat)
  | tileEntryRemove (core slot queue : Nat)
  /-- the next chunk of the tile transfer with identity `xfer` -/
  | tileTransferChunk (xfer : Nat)
  | matrixCommit (engine : Nat)
  /-- the next chunk of the epilogue store of the operation with identity `op` -/
  | epilogueStoreChunk (op : Nat)
  /-- the latch whose word lies at physical address `latch` -/
  | latchGrant (latch : Nat)
  /-- the write posted to another die with identity `write` -/
  | acknowledge (write : Nat)
  -- events of the arbiter and the scheduler; a region is named by its VF, and by the address of its RCB with the number of its context from
  -- bit 56 on
  | walk (vf parent : Nat)
  | depsRecheck (vf rcb : Nat)
  | admitRegion (vf rcb : Nat)
  | placeWorkgroup (vf rcb : Nat)
  | quantumEnd (vf rcb : Nat)
  | agedPriority (vf rcb : Nat)
  | preempt (wg : Nat)
  | restore (wg : Nat)
  | regionComplete (vf rcb : Nat)
  | regionEnd (vf rcb : Nat)
  -- events of the tier engine
  | pageMoveComplete (move : Nat)
  /-- the guest physical 64 KiB page `page` of VF `vf`: down to the capacity tier, or up -/
  | tierMove (vf page : Nat) (up : Bool)
  -- events of the hypervisor and the host
  | partitionEnable (p : Nat)
  | partitionDisable (p : Nat)
  | partitionStop (p : Nat)
  | vfStop (vf : Nat)
  | vfResume (vf : Nat)
  | groupResume (vf core slot : Nat)
  | groupKill (vf core slot : Nat)
  /-- a write of `value` to vf.logc, vf.logb or vf.logn, by its offset in the VF block -/
  | logProgram (vf off : Nat) (value : Dword)
  | guestSwitch (vf incoming : Nat)
  | invalidatePageS1 (vf page : Nat)
  | invalidateAllS1 (vf : Nat)
  | invalidatePageS2 (vf page : Nat)
  | invalidateVf (vf : Nat)
  | invalidationComplete (vf : Nat)
  | dieOffline (die : Nat)
  | dieOnline (die : Nat)
  | diePagesMoved (die : Nat)
  | dieDrained (die : Nat)
  /-- a write of `value` at PF BAR0 offset `off`; `viaVf` when it comes through the VF's own BAR0 -/
  | registerWrite (viaVf : Bool) (off : Nat) (value : Dword)
  -- events of the hub
  /-- the next start-up stage, and after the last one a new reset; `bad` is the mask of what fails its test in that stage, and `ok` says
  that the sequence can go on -/
  | reset (ok : Bool) (bad : Nat)
  /-- sensed power or temperature exceed the envelope: the new core and matrix clock in MHz -/
  | clockLower (coreMHz : Nat)
  | uncorrectableError (site : ErrorSite)
  | correctedError
  | linkRetrain (link : Nat)
  | keyRollover (link : Nat)
  | retireMessage (link : Nat)
  | retireReceive (link : Nat)
  /-- a flit or frame received on `link` under key slot `slot`; `intact` when its integrity check succeeds -/
  | flitReceive (link : Nat) (slot : Bool) (intact : Bool)
  -- SPDM requests through the PF's mailbox (none) or a VF's (some v)
  | getVersion (via : Option Nat)
  | getCapabilities (via : Option Nat)
  | negotiateAlgorithms (via : Option Nat)
  | getDigests (via : Option Nat)
  | getCertificate (via : Option Nat)
  | challenge (via : Option Nat)
  | getMeasurements (via : Option Nat)
  | keyExchange (via : Option Nat)
  | finish (via : Option Nat)
  | heartbeat (via : Option Nat)
  | keyUpdate (via : Option Nat)
  | endSession (via : Option Nat)
  | unsupportedRequest (via : Option Nat)
  -- events of the observation facilities
  | debugEnable (vf : Nat)
  | recordEnable (vf : Nat)
  | playEnable (vf : Nat) (on : Bool)
  | samplerEnable (vf : Nat)
  | tagSamplingEnable (vf : Nat)
  | checkpointRestore (vf ck : Nat)
  | debugPark (vf core slot : Nat)
  | debugResume (vf core slot : Nat)
  | debugEndDemotion (vf core slot : Nat)
  | debugKill (vf core slot : Nat)
  | samplePeriodic (vf : Nat)
  | checkpoint (vf : Nat)
  | clockRestore
  /-- software writes `value` to vf.logr (`replay` false) or vf.rplr (`replay` true) -/
  | logReadIndexWrite (vf : Nat) (replay : Bool) (value : Word)
  /-- the host's posted write of bytes at a virtual address of the VF's current context -/
  | hostPostedWrite (vf addr : Nat) (bytes : List Byte)
  deriving DecidableEq, Repr

end Sys2Proof
end

