-- ==== Sys2Proof/Machine/OpcodeMap.lean ====
section
/-! DEFINITION. The opcode map (R136 to R147): for every operation its class, its opcode, the role of each operand
field, and the values its other fields may take. The decoder, the encoder and `WellFormed` read this one table. -/

namespace Sys2Proof

/-- The role of an operand field (R135, with the exceptions that the class tables name). -/
inductive Role where
  /-- unused: must hold 0x00 (R124) -/
  | none
  /-- a value of the operation's type: a pair for `i64`, `n64` (R125, R135) -/
  | val
  /-- an untyped 32-bit role: offset, count, index, tag, condition, selector (R126) -/
  | word
  /-- a pair: an address or a tag mask (R125) -/
  | pair
  /-- a result marked "single" by the class table -/
  | single
  /-- four registers from a code that is a multiple of 4 (R140) -/
  | quad
  /-- a value read as the source type that `spec` names (R138) -/
  | src
  /-- a value as wide as the control register that `spec` names (R134) -/
  | ctl
  deriving DecidableEq, Repr

/-- The roles of dest, a, b and c. -/
structure Roles where
  dest : Role
  a : Role
  b : Role
  c : Role
  deriving DecidableEq, Repr

/-- Which rounding codes are legal (R128). -/
inductive RndRule where
  | none
  /-- marked "rnd": codes 0 to 4 -/
  | std
  /-- marked "rnd" for type 8 only -/
  | stdF32
  /-- by the pair of types (R216) -/
  | cvt
  deriving DecidableEq, Repr

/-- Which values of `mod` are legal. -/
inductive ModRule where
  | zero
  | upTo (n : Nat)
  /-- mod[11] `.sat` where R216 makes it legal -/
  | cvt
  /-- 1, 2 or 3 (R142) -/
  | fence
  deriving DecidableEq, Repr

/-- Which values of `spec` are legal. -/
inductive SpecRule where
  | zero | any
  | cvt | cvtPk
  | queue | qfeed
  | copy
  | nibble
  | ctl
  deriving DecidableEq, Repr

/-- Which prefixes are legal (R130). -/
inductive PreRule where
  | none | load | store | atom | feed | copy | sync | signal | tileLoad | tileStore | probe | stag | ltag
  deriving DecidableEq, Repr

/-- A row of the opcode map. -/
structure Row where
  cls : Nat
  opc : Nat
  ctor : Fields → Instr
  roles : Roles
  types : List Ty
  rnd : RndRule := .none
  mod : ModRule := .zero
  spec : SpecRule := .zero
  pre : PreRule := .none

/-- An operation whose mnemonic carries no type has type field 0x0 (R122). -/
def untyped : List Ty := [.i32]
def intTys : List Ty := [.i32, .n32, .i16, .n16, .i8, .n8, .i64, .n64]
def logicTys : List Ty := intTys ++ [.b32]
def floatTys : List Ty := [.f32, .f16, .bf16]
/-- Destination types of `cvt` (R216). -/
def cvtDsts : List Ty := [.i32, .n32, .i16, .n16, .i8, .n8, .f32, .f16, .bf16, .e4m3, .e5m2]

/-- Class 0x1, integer and logic (R136). -/
def integerRows : List Row := [
  { cls := 1, opc := 0x0, ctor := .add, roles := ⟨.val, .val, .val, .none⟩, types := intTys },
  { cls := 1, opc := 0x1, ctor := .sub, roles := ⟨.val, .val, .val, .none⟩, types := intTys },
  { cls := 1, opc := 0x2, ctor := .mul, roles := ⟨.val, .val, .val, .none⟩, types := intTys },
  { cls := 1, opc := 0x3, ctor := .mulhi, roles := ⟨.val, .val, .val, .none⟩, types := [.i32, .n32] },
  { cls := 1, opc := 0x4, ctor := .mad, roles := ⟨.val, .val, .val, .val⟩, types := intTys },
  { cls := 1, opc := 0x5, ctor := .div, roles := ⟨.val, .val, .val, .none⟩, types := [.i32, .n32, .i64, .n64] },
  { cls := 1, opc := 0x6, ctor := .rem, roles := ⟨.val, .val, .val, .none⟩, types := [.i32, .n32, .i64, .n64] },
  { cls := 1, opc := 0x7, ctor := .min, roles := ⟨.val, .val, .val, .none⟩, types := intTys },
  { cls := 1, opc := 0x8, ctor := .max, roles := ⟨.val, .val, .val, .none⟩, types := intTys },
  { cls := 1, opc := 0x9, ctor := .abs, roles := ⟨.val, .val, .none, .none⟩, types := [.i32, .i16, .i8, .i64] },
  { cls := 1, opc := 0xa, ctor := .neg, roles := ⟨.val, .val, .none, .none⟩, types := [.i32, .i16, .i8, .i64] },
  { cls := 1, opc := 0xb, ctor := .adds, roles := ⟨.val, .val, .val, .none⟩, types := intTys },
  { cls := 1, opc := 0xc, ctor := .subs, roles := ⟨.val, .val, .val, .none⟩, types := intTys },
  { cls := 1, opc := 0x10, ctor := .and, roles := ⟨.val, .val, .val, .none⟩, types := logicTys },
  { cls := 1, opc := 0x11, ctor := .or, roles := ⟨.val, .val, .val, .none⟩, types := logicTys },
  { cls := 1, opc := 0x12, ctor := .xor, roles := ⟨.val, .val, .val, .none⟩, types := logicTys },
  { cls := 1, opc := 0x13, ctor := .not, roles := ⟨.val, .val, .none, .none⟩, types := logicTys },
  { cls := 1, opc := 0x14, ctor := .andn, roles := ⟨.val, .val, .val, .none⟩, types := logicTys },
  { cls := 1, opc := 0x18, ctor := .shl, roles := ⟨.val, .val, .word, .none⟩, types := intTys },
  { cls := 1, opc := 0x19, ctor := .shr, roles := ⟨.val, .val, .word, .none⟩, types := intTys },
  { cls := 1, opc := 0x1a, ctor := .rotl, roles := ⟨.val, .val, .val, .none⟩, types := [.i32, .n32] },
  { cls := 1, opc := 0x20, ctor := .popc, roles := ⟨.word, .val, .none, .none⟩, types := [.n32, .n64] },
  { cls := 1, opc := 0x21, ctor := .clz, roles := ⟨.word, .val, .none, .none⟩, types := [.n32, .n64] },
  { cls := 1, opc := 0x22, ctor := .ctz, roles := ⟨.word, .val, .none, .none⟩, types := [.n32, .n64] },
  { cls := 1, opc := 0x23, ctor := .brev, roles := ⟨.val, .val, .none, .none⟩, types := [.n32, .n64] },
  { cls := 1, opc := 0x24, ctor := .bfx, roles := ⟨.val, .val, .word, .word⟩, types := [.i32, .n32] },
  { cls := 1, opc := 0x25, ctor := .bfi, roles := ⟨.val, .val, .word, .word⟩, types := [.n32] },
  { cls := 1, opc := 0x28, ctor := .cmp, roles := ⟨.single, .val, .val, .none⟩, types := intTys, mod := (.upTo 5) },
  { cls := 1, opc := 0x29, ctor := .pick, roles := ⟨.val, .word, .val, .val⟩, types := logicTys },
  { cls := 1, opc := 0x2a, ctor := .mov, roles := ⟨.val, .val, .none, .none⟩, types := logicTys }]

/-- Class 0x2, float (R137). -/
def floatRows : List Row := [
  { cls := 2, opc := 0x0, ctor := .fAdd, roles := ⟨.val, .val, .val, .none⟩, types := floatTys, rnd := .std },
  { cls := 2, opc := 0x1, ctor := .fSub, roles := ⟨.val, .val, .val, .none⟩, types := floatTys, rnd := .std },
  { cls := 2, opc := 0x2, ctor := .fMul, roles := ⟨.val, .val, .val, .none⟩, types := floatTys, rnd := .std },
  { cls := 2, opc := 0x3, ctor := .fma, roles := ⟨.val, .val, .val, .val⟩, types := floatTys, rnd := .std },
  { cls := 2, opc := 0x4, ctor := .fDiv, roles := ⟨.val, .val, .val, .none⟩, types := [.f32], rnd := .std },
  { cls := 2, opc := 0x5, ctor := .sqrt, roles := ⟨.val, .val, .none, .none⟩, types := [.f32], rnd := .std },
  { cls := 2, opc := 0x6, ctor := .fMin, roles := ⟨.val, .val, .val, .none⟩, types := floatTys },
  { cls := 2, opc := 0x7, ctor := .fMax, roles := ⟨.val, .val, .val, .none⟩, types := floatTys },
  { cls := 2, opc := 0x8, ctor := .fAbs, roles := ⟨.val, .val, .none, .none⟩, types := floatTys },
  { cls := 2, opc := 0x9, ctor := .fNeg, roles := ⟨.val, .val, .none, .none⟩, types := floatTys },
  { cls := 2, opc := 0xa, ctor := .fCmp, roles := ⟨.val, .val, .val, .none⟩, types := floatTys, mod := (.upTo 7) },
  { cls := 2, opc := 0xb, ctor := .fclass, roles := ⟨.val, .val, .none, .none⟩, types := floatTys },
  { cls := 2, opc := 0x10, ctor := .rcp, roles := ⟨.val, .val, .none, .none⟩, types := [.f32, .f16] },
  { cls := 2, opc := 0x11, ctor := .rsqrt, roles := ⟨.val, .val, .none, .none⟩, types := [.f32, .f16] },
  { cls := 2, opc := 0x12, ctor := .exp2, roles := ⟨.val, .val, .none, .none⟩, types := [.f32, .f16] },
  { cls := 2, opc := 0x13, ctor := .log2, roles := ⟨.val, .val, .none, .none⟩, types := [.f32, .f16] },
  { cls := 2, opc := 0x14, ctor := .sin, roles := ⟨.val, .val, .none, .none⟩, types := [.f32] },
  { cls := 2, opc := 0x15, ctor := .cos, roles := ⟨.val, .val, .none, .none⟩, types := [.f32] },
  { cls := 2, opc := 0x16, ctor := .tanh, roles := ⟨.val, .val, .none, .none⟩, types := [.f32, .f16] }]

/-- Class 0x3, conversion and packing (R138). That a small immediate may stand in operand c of `cvt.pk` is the model's choice (log entry 101). -/
def convertRows : List Row := [
  { cls := 3, opc := 0x0, ctor := .cvt, roles := ⟨.word, .src, .none, .none⟩, types := cvtDsts, rnd := .cvt, mod := .cvt, spec := .cvt },
  { cls := 3, opc := 0x1, ctor := .cvtPk, roles := ⟨.word, .src, .src, .word⟩, types := [.i16, .n16, .i8, .n8, .f16, .bf16, .e4m3, .e5m2], rnd := .cvt, mod := .cvt, spec := .cvtPk },
  { cls := 3, opc := 0x2, ctor := .bpick, roles := ⟨.word, .word, .word, .word⟩, types := [.b32] }]

/-- Class 0x4, lane operations (R139). -/
def laneRows : List Row := [
  { cls := 4, opc := 0x0, ctor := .xchLane, roles := ⟨.val, .val, .word, .none⟩, types := [.i32, .n32, .i64, .n64, .f32, .b32] },
  { cls := 4, opc := 0x1, ctor := .xchRot, roles := ⟨.val, .val, .word, .none⟩, types := [.i32, .n32, .i64, .n64, .f32, .b32] },
  { cls := 4, opc := 0x2, ctor := .xchPair, roles := ⟨.val, .val, .word, .none⟩, types := [.i32, .n32, .i64, .n64, .f32, .b32] },
  { cls := 4, opc := 0x3, ctor := .xchSeg, roles := ⟨.val, .val, .word, .none⟩, types := [.i32, .n32, .i64, .n64, .f32, .b32] },
  { cls := 4, opc := 0x8, ctor := .voteAll, roles := ⟨.word, .word, .none, .none⟩, types := untyped },
  { cls := 4, opc := 0x9, ctor := .voteAny, roles := ⟨.word, .word, .none, .none⟩, types := untyped },
  { cls := 4, opc := 0xa, ctor := .voteUni, roles := ⟨.word, .word, .none, .none⟩, types := untyped },
  { cls := 4, opc := 0xb, ctor := .ballot, roles := ⟨.word, .word, .none, .none⟩, types := untyped },
  { cls := 4, opc := 0xc, ctor := .elect, roles := ⟨.word, .none, .none, .none⟩, types := untyped },
  { cls := 4, opc := 0xd, ctor := .first, roles := ⟨.val, .val, .none, .none⟩, types := [.i32, .n32, .i64, .n64, .f32, .b32] },
  { cls := 4, opc := 0x10, ctor := .lredAdd, roles := ⟨.val, .val, .none, .none⟩, types := [.i32, .n32, .f32], rnd := .stdF32 },
  { cls := 4, opc := 0x11, ctor := .lredMin, roles := ⟨.val, .val, .none, .none⟩, types := [.i32, .n32, .f32] },
  { cls := 4, opc := 0x12, ctor := .lredMax, roles := ⟨.val, .val, .none, .none⟩, types := [.i32, .n32, .f32] }]

/-- Class 0x5, local loads and stores (R140). -/
def loadStoreRows : List Row := [
  { cls := 5, opc := 0x0, ctor := .ld, roles := ⟨.val, .pair, .word, .none⟩, types := logicTys, pre := .load },
  { cls := 5, opc := 0x1, ctor := .st, roles := ⟨.pair, .word, .val, .none⟩, types := logicTys, pre := .store },
  { cls := 5, opc := 0x2, ctor := .ldX4, roles := ⟨.quad, .pair, .word, .none⟩, types := [.b32], pre := .load },
  { cls := 5, opc := 0x3, ctor := .stX4, roles := ⟨.pair, .word, .quad, .none⟩, types := [.b32], pre := .store }]

/-- Class 0x6, queues and async copies (R141). -/
def queueRows : List Row := [
  { cls := 6, opc := 0x0, ctor := .qfeed, roles := ⟨.none, .pair, .word, .none⟩, types := untyped, mod := (.upTo 1), spec := .qfeed, pre := .feed },
  { cls := 6, opc := 0x1, ctor := .qpop, roles := ⟨.word, .none, .none, .none⟩, types := untyped, spec := .queue },
  { cls := 6, opc := 0x2, ctor := .qstate, roles := ⟨.word, .none, .none, .none⟩, types := untyped, spec := .queue },
  { cls := 6, opc := 0x8, ctor := .cpAsync, roles := ⟨.pair, .pair, .word, .word⟩, types := untyped, mod := (.upTo 2), spec := .copy, pre := .copy },
  { cls := 6, opc := 0x9, ctor := .twaitAny, roles := ⟨.none, .pair, .none, .none⟩, types := untyped },
  { cls := 6, opc := 0xa, ctor := .twaitAll, roles := ⟨.none, .pair, .none, .none⟩, types := untyped },
  { cls := 6, opc := 0xb, ctor := .tfirst, roles := ⟨.word, .pair, .none, .none⟩, types := untyped }]

/-- Class 0x7, synchronisation (R142). -/
def syncRows : List Row := [
  { cls := 7, opc := 0x0, ctor := .bind, roles := ⟨.pair, .word, .pair, .none⟩, types := untyped, pre := .sync },
  { cls := 7, opc := 0x1, ctor := .unbind, roles := ⟨.pair, .none, .none, .none⟩, types := untyped, pre := .sync },
  { cls := 7, opc := 0x2, ctor := .acqX, roles := ⟨.pair, .none, .none, .none⟩, types := untyped, pre := .sync },
  { cls := 7, opc := 0x3, ctor := .acqS, roles := ⟨.pair, .none, .none, .none⟩, types := untyped, pre := .sync },
  { cls := 7, opc := 0x4, ctor := .rel, roles := ⟨.pair, .none, .none, .none⟩, types := untyped, pre := .sync },
  { cls := 7, opc := 0x8, ctor := .fence, roles := ⟨.none, .none, .none, .none⟩, types := untyped, mod := .fence, pre := .sync },
  { cls := 7, opc := 0x9, ctor := .wsig, roles := ⟨.pair, .word, .pair, .word⟩, types := untyped, pre := .signal },
  { cls := 7, opc := 0x10, ctor := .barInit, roles := ⟨.pair, .word, .none, .none⟩, types := untyped },
  { cls := 7, opc := 0x11, ctor := .barArrive, roles := ⟨.pair, .word, .none, .none⟩, types := untyped },
  { cls := 7, opc := 0x12, ctor := .barWait, roles := ⟨.pair, .word, .none, .none⟩, types := untyped },
  { cls := 7, opc := 0x13, ctor := .barExpect, roles := ⟨.pair, .word, .none, .none⟩, types := untyped },
  { cls := 7, opc := 0x14, ctor := .barLink, roles := ⟨.pair, .word, .none, .none⟩, types := untyped },
  { cls := 7, opc := 0x18, ctor := .dbarInit, roles := ⟨.pair, .word, .none, .none⟩, types := untyped },
  { cls := 7, opc := 0x19, ctor := .dbarArrive, roles := ⟨.pair, .word, .none, .none⟩, types := untyped },
  { cls := 7, opc := 0x1a, ctor := .dbarWait, roles := ⟨.pair, .word, .none, .none⟩, types := untyped }]

/-- Class 0x8, atomics and reductions (R143). -/
def atomicRows : List Row := [
  { cls := 8, opc := 0x0, ctor := .atomAdd, roles := ⟨.val, .pair, .word, .val⟩, types := [.i32, .n32, .i64, .n64, .f32], rnd := .stdF32, pre := .atom },
  { cls := 8, opc := 0x1, ctor := .atomMin, roles := ⟨.val, .pair, .word, .val⟩, types := [.i32, .n32, .i64, .n64], pre := .atom },
  { cls := 8, opc := 0x2, ctor := .atomMax, roles := ⟨.val, .pair, .word, .val⟩, types := [.i32, .n32, .i64, .n64], pre := .atom },
  { cls := 8, opc := 0x3, ctor := .atomAnd, roles := ⟨.val, .pair, .word, .val⟩, types := [.n32, .n64], pre := .atom },
  { cls := 8, opc := 0x4, ctor := .atomOr, roles := ⟨.val, .pair, .word, .val⟩, types := [.n32, .n64], pre := .atom },
  { cls := 8, opc := 0x5, ctor := .atomXor, roles := ⟨.val, .pair, .word, .val⟩, types := [.n32, .n64], pre := .atom },
  { cls := 8, opc := 0x6, ctor := .atomXchg, roles := ⟨.val, .pair, .word, .val⟩, types := [.i32, .n32, .i64, .n64, .f32, .b32], pre := .atom },
  { cls := 8, opc := 0x7, ctor := .atomCas, roles := ⟨.val, .pair, .val, .val⟩, types := [.i32, .n32, .i64, .n64, .b32], pre := .atom },
  { cls := 8, opc := 0x10, ctor := .redAdd, roles := ⟨.pair, .word, .val, .none⟩, types := [.i32, .n32, .i64, .n64, .f32], rnd := .stdF32, pre := .store },
  { cls := 8, opc := 0x11, ctor := .redMin, roles := ⟨.pair, .word, .val, .none⟩, types := [.i32, .n32, .i64, .n64], pre := .store },
  { cls := 8, opc := 0x12, ctor := .redMax, roles := ⟨.pair, .word, .val, .none⟩, types := [.i32, .n32, .i64, .n64], pre := .store },
  { cls := 8, opc := 0x13, ctor := .redAnd, roles := ⟨.pair, .word, .val, .none⟩, types := [.n32, .n64], pre := .store },
  { cls := 8, opc := 0x14, ctor := .redOr, roles := ⟨.pair, .word, .val, .none⟩, types := [.n32, .n64], pre := .store },
  { cls := 8, opc := 0x15, ctor := .redXor, roles := ⟨.pair, .word, .val, .none⟩, types := [.n32, .n64], pre := .store }]

/-- Class 0x9, matrix (R144). -/
def matrixRows : List Row := [
  { cls := 9, opc := 0x0, ctor := .mres, roles := ⟨.word, .word, .none, .none⟩, types := untyped },
  { cls := 9, opc := 0x1, ctor := .mrel, roles := ⟨.none, .none, .none, .none⟩, types := untyped },
  { cls := 9, opc := 0x2, ctor := .obres, roles := ⟨.none, .pair, .word, .word⟩, types := untyped, spec := .nibble },
  { cls := 9, opc := 0x3, ctor := .obrel, roles := ⟨.none, .none, .none, .none⟩, types := untyped, spec := .nibble },
  { cls := 9, opc := 0x4, ctor := .tld, roles := ⟨.none, .pair, .word, .none⟩, types := untyped, spec := .nibble, pre := .tileLoad },
  { cls := 9, opc := 0x5, ctor := .tst, roles := ⟨.none, .pair, .word, .none⟩, types := untyped, spec := .nibble, pre := .tileStore },
  { cls := 9, opc := 0x6, ctor := .tclr, roles := ⟨.none, .none, .none, .none⟩, types := untyped, spec := .nibble },
  { cls := 9, opc := 0x8, ctor := .mfenceOp, roles := ⟨.none, .none, .none, .none⟩, types := untyped },
  { cls := 9, opc := 0x9, ctor := .mlaunch, roles := ⟨.none, .pair, .none, .none⟩, types := untyped },
  { cls := 9, opc := 0xa, ctor := .mwait, roles := ⟨.none, .word, .word, .none⟩, types := untyped },
  { cls := 9, opc := 0xb, ctor := .mstate, roles := ⟨.word, .none, .none, .none⟩, types := untyped }]

/-- Class 0xa, control (R145). -/
def controlRows : List Row := [
  { cls := 10, opc := 0x0, ctor := .quit, roles := ⟨.none, .none, .none, .none⟩, types := untyped, spec := .any },
  { cls := 10, opc := 0x1, ctor := .quitIf, roles := ⟨.none, .word, .none, .none⟩, types := untyped, spec := .any },
  { cls := 10, opc := 0x2, ctor := .next, roles := ⟨.none, .none, .none, .none⟩, types := untyped, spec := .any },
  { cls := 10, opc := 0x3, ctor := .nextIf, roles := ⟨.none, .word, .none, .none⟩, types := untyped, spec := .any },
  { cls := 10, opc := 0x4, ctor := .ret, roles := ⟨.none, .none, .none, .none⟩, types := untyped },
  { cls := 10, opc := 0x5, ctor := .retIf, roles := ⟨.none, .word, .none, .none⟩, types := untyped },
  { cls := 10, opc := 0x6, ctor := .exit, roles := ⟨.none, .none, .none, .none⟩, types := untyped },
  { cls := 10, opc := 0x7, ctor := .exitIf, roles := ⟨.none, .word, .none, .none⟩, types := untyped },
  { cls := 10, opc := 0x10, ctor := .spawn, roles := ⟨.word, .word, .word, .word⟩, types := untyped },
  { cls := 10, opc := 0x11, ctor := .launch, roles := ⟨.none, .pair, .none, .none⟩, types := untyped },
  { cls := 10, opc := 0x12, ctor := .yield, roles := ⟨.none, .none, .none, .none⟩, types := untyped }]

/-- Class 0xb, system (R146). -/
def systemRows : List Row := [
  { cls := 11, opc := 0x0, ctor := .ctlGet, roles := ⟨.ctl, .none, .none, .none⟩, types := untyped, spec := .ctl },
  { cls := 11, opc := 0x1, ctor := .ctlSet, roles := ⟨.none, .ctl, .none, .none⟩, types := untyped, spec := .ctl },
  { cls := 11, opc := 0x2, ctor := .trap, roles := ⟨.none, .word, .none, .none⟩, types := untyped },
  { cls := 11, opc := 0x3, ctor := .halt, roles := ⟨.none, .none, .none, .none⟩, types := untyped },
  { cls := 11, opc := 0x4, ctor := .nop, roles := ⟨.none, .none, .none, .none⟩, types := untyped },
  { cls := 11, opc := 0x8, ctor := .probe, roles := ⟨.word, .pair, .none, .none⟩, types := untyped, pre := .probe },
  { cls := 11, opc := 0x9, ctor := .prof, roles := ⟨.none, .word, .none, .none⟩, types := untyped }]

/-- Class 0xc, memory tags and debug (R147). -/
def tagRows : List Row := [
  { cls := 12, opc := 0x0, ctor := .stag, roles := ⟨.pair, .word, .word, .none⟩, types := untyped, pre := .stag },
  { cls := 12, opc := 0x1, ctor := .ltag, roles := ⟨.word, .pair, .none, .none⟩, types := untyped, pre := .ltag },
  { cls := 12, opc := 0x8, ctor := .brk, roles := ⟨.none, .none, .none, .none⟩, types := untyped }]

/-- The opcode map. -/
def opcodeRows : List Row :=
  integerRows ++ floatRows ++ convertRows ++ laneRows ++ loadStoreRows ++ queueRows ++ syncRows ++ atomicRows ++
    matrixRows ++ controlRows ++ systemRows ++ tagRows

/-- The row of a class and an opcode. -/
def findRow (cls opc : Nat) : Option Row :=
  opcodeRows.find? (fun r => r.cls == cls && r.opc == opc)

/-- Class, opcode and fields of an operation; `none` for an event. -/
def Instr.code : Instr → Option (Nat × Nat × Fields)
  | .add f => some (1, 0x0, f)
  | .sub f => some (1, 0x1, f)
  | .mul f => some (1, 0x2, f)
  | .mulhi f => some (1, 0x3, f)
  | .mad f => some (1, 0x4, f)
  | .div f => some (1, 0x5, f)
  | .rem f => some (1, 0x6, f)
  | .min f => some (1, 0x7, f)
  | .max f => some (1, 0x8, f)
  | .abs f => some (1, 0x9, f)
  | .neg f => some (1, 0xa, f)
  | .adds f => some (1, 0xb, f)
  | .subs f => some (1, 0xc, f)
  | .and f => some (1, 0x10, f)
  | .or f => some (1, 0x11, f)
  | .xor f => some (1, 0x12, f)
  | .not f => some (1, 0x13, f)
  | .andn f => some (1, 0x14, f)
  | .shl f => some (1, 0x18, f)
  | .shr f => some (1, 0x19, f)
  | .rotl f => some (1, 0x1a, f)
  | .popc f => some (1, 0x20, f)
  | .clz f => some (1, 0x21, f)
  | .ctz f => some (1, 0x22, f)
  | .brev f => some (1, 0x23, f)
  | .bfx f => some (1, 0x24, f)
  | .bfi f => some (1, 0x25, f)
  | .cmp f => some (1, 0x28, f)
  | .pick f => some (1, 0x29, f)
  | .mov f => some (1, 0x2a, f)
  | .fAdd f => some (2, 0x0, f)
  | .fSub f => some (2, 0x1, f)
  | .fMul f => some (2, 0x2, f)
  | .fma f => some (2, 0x3, f)
  | .fDiv f => some (2, 0x4, f)
  | .sqrt f => some (2, 0x5, f)
  | .fMin f => some (2, 0x6, f)
  | .fMax f => some (2, 0x7, f)
  | .fAbs f => some (2, 0x8, f)
  | .fNeg f => some (2, 0x9, f)
  | .fCmp f => some (2, 0xa, f)
  | .fclass f => some (2, 0xb, f)
  | .rcp f => some (2, 0x10, f)
  | .rsqrt f => some (2, 0x11, f)
  | .exp2 f => some (2, 0x12, f)
  | .log2 f => some (2, 0x13, f)
  | .sin f => some (2, 0x14, f)
  | .cos f => some (2, 0x15, f)
  | .tanh f => some (2, 0x16, f)
  | .cvt f => some (3, 0x0, f)
  | .cvtPk f => some (3, 0x1, f)
  | .bpick f => some (3, 0x2, f)
  | .xchLane f => some (4, 0x0, f)
  | .xchRot f => some (4, 0x1, f)
  | .xchPair f => some (4, 0x2, f)
  | .xchSeg f => some (4, 0x3, f)
  | .voteAll f => some (4, 0x8, f)
  | .voteAny f => some (4, 0x9, f)
  | .voteUni f => some (4, 0xa, f)
  | .ballot f => some (4, 0xb, f)
  | .elect f => some (4, 0xc, f)
  | .first f => some (4, 0xd, f)
  | .lredAdd f => some (4, 0x10, f)
  | .lredMin f => some (4, 0x11, f)
  | .lredMax f => some (4, 0x12, f)
  | .ld f => some (5, 0x0, f)
  | .st f => some (5, 0x1, f)
  | .ldX4 f => some (5, 0x2, f)
  | .stX4 f => some (5, 0x3, f)
  | .qfeed f => some (6, 0x0, f)
  | .qpop f => some (6, 0x1, f)
  | .qstate f => some (6, 0x2, f)
  | .cpAsync f => some (6, 0x8, f)
  | .twaitAny f => some (6, 0x9, f)
  | .twaitAll f => some (6, 0xa, f)
  | .tfirst f => some (6, 0xb, f)
  | .bind f => some (7, 0x0, f)
  | .unbind f => some (7, 0x1, f)
  | .acqX f => some (7, 0x2, f)
  | .acqS f => some (7, 0x3, f)
  | .rel f => some (7, 0x4, f)
  | .fence f => some (7, 0x8, f)
  | .wsig f => some (7, 0x9, f)
  | .barInit f => some (7, 0x10, f)
  | .barArrive f => some (7, 0x11, f)
  | .barWait f => some (7, 0x12, f)
  | .barExpect f => some (7, 0x13, f)
  | .barLink f => some (7, 0x14, f)
  | .dbarInit f => some (7, 0x18, f)
  | .dbarArrive f => some (7, 0x19, f)
  | .dbarWait f => some (7, 0x1a, f)
  | .atomAdd f => some (8, 0x0, f)
  | .atomMin f => some (8, 0x1, f)
  | .atomMax f => some (8, 0x2, f)
  | .atomAnd f => some (8, 0x3, f)
  | .atomOr f => some (8, 0x4, f)
  | .atomXor f => some (8, 0x5, f)
  | .atomXchg f => some (8, 0x6, f)
  | .atomCas f => some (8, 0x7, f)
  | .redAdd f => some (8, 0x10, f)
  | .redMin f => some (8, 0x11, f)
  | .redMax f => some (8, 0x12, f)
  | .redAnd f => some (8, 0x13, f)
  | .redOr f => some (8, 0x14, f)
  | .redXor f => some (8, 0x15, f)
  | .mres f => some (9, 0x0, f)
  | .mrel f => some (9, 0x1, f)
  | .obres f => some (9, 0x2, f)
  | .obrel f => some (9, 0x3, f)
  | .tld f => some (9, 0x4, f)
  | .tst f => some (9, 0x5, f)
  | .tclr f => some (9, 0x6, f)
  | .mfenceOp f => some (9, 0x8, f)
  | .mlaunch f => some (9, 0x9, f)
  | .mwait f => some (9, 0xa, f)
  | .mstate f => some (9, 0xb, f)
  | .quit f => some (10, 0x0, f)
  | .quitIf f => some (10, 0x1, f)
  | .next f => some (10, 0x2, f)
  | .nextIf f => some (10, 0x3, f)
  | .ret f => some (10, 0x4, f)
  | .retIf f => some (10, 0x5, f)
  | .exit f => some (10, 0x6, f)
  | .exitIf f => some (10, 0x7, f)
  | .spawn f => some (10, 0x10, f)
  | .launch f => some (10, 0x11, f)
  | .yield f => some (10, 0x12, f)
  | .ctlGet f => some (11, 0x0, f)
  | .ctlSet f => some (11, 0x1, f)
  | .trap f => some (11, 0x2, f)
  | .halt f => some (11, 0x3, f)
  | .nop f => some (11, 0x4, f)
  | .probe f => some (11, 0x8, f)
  | .prof f => some (11, 0x9, f)
  | .stag f => some (12, 0x0, f)
  | .ltag f => some (12, 0x1, f)
  | .brk f => some (12, 0x8, f)
  | _ => none

/-- Bits of one element (R121). -/
def Ty.bits : Ty → Nat
  | .i32 | .n32 | .f32 | .b32 => 32
  | .i16 | .n16 | .f16 | .bf16 => 16
  | .i8 | .n8 | .e4m3 | .e5m2 | .q8 => 8
  | .i64 | .n64 => 64
  | .q4 => 4

/-- Elements of one value: per register, or 1 for a pair (R121, R158). -/
def Ty.elems (t : Ty) : Nat :=
  if t.bits = 64 then 1 else 32 / t.bits

/-- The type is carried in a register pair. -/
def Ty.wide (t : Ty) : Bool := t.bits == 64

/-- Signed integer types. -/
def Ty.signed : Ty → Bool
  | .i32 | .i16 | .i8 | .i64 => true
  | _ => false

/-- Integer types 0 to 7. -/
def Ty.isInt (t : Ty) : Bool := intTys.contains t

def Ty.code : Ty → Nat
  | .i32 => 0 | .n32 => 1 | .i16 => 2 | .n16 => 3 | .i8 => 4 | .n8 => 5 | .i64 => 6 | .n64 => 7
  | .f32 => 8 | .f16 => 9 | .bf16 => 10 | .e4m3 => 11 | .e5m2 => 12 | .q8 => 13 | .q4 => 14 | .b32 => 15

/-- The type of a 4-bit code (R121). -/
def Ty.ofCode : Nat → Ty
  | 0 => .i32 | 1 => .n32 | 2 => .i16 | 3 => .n16 | 4 => .i8 | 5 => .n8 | 6 => .i64 | 7 => .n64
  | 8 => .f32 | 9 => .f16 | 10 => .bf16 | 11 => .e4m3 | 12 => .e5m2 | 13 => .q8 | 14 => .q4 | _ => .b32

/-- Control register numbers that exist, and whether the register is 64 bits wide (R134). -/
def ctlWide? (n : Nat) : Option Bool :=
  if n ∈ [0, 1, 2, 4, 5] then some false
  else if n ∈ [3, 6, 7, 8] then some true
  else if 0x10 ≤ n ∧ n < 0x30 then some true
  else none

/-- Whether a field of this role is a pair position (R125). -/
def Role.isPair (r : Role) (f : Fields) : Bool :=
  match r with
  | .pair => true
  | .val => f.ty.wide
  | .ctl => ctlWide? f.spec.toNat == some true
  | _ => false

/-- The source type that `spec[3:0]` names (R138). -/
def Fields.srcTy (f : Fields) : Ty := Ty.ofCode (f.spec.toNat % 16)

/-- The type in which a value position is read (R135, R138). -/
def Role.ty (r : Role) (f : Fields) : Ty :=
  match r with
  | .src => f.srcTy
  | _ => f.ty

/-- Types in whose value positions a small immediate is an illegal encoding (R126). -/
def Ty.noImm (t : Ty) : Bool := [Ty.e4m3, .e5m2, .q8, .q4].contains t

/-- A source operand is legal in a field of this role (R123 to R127, R140). -/
def Role.okSrc (r : Role) (f : Fields) (o : Operand) : Bool :=
  match r, o with
  | .none, .reg k => k == 0
  | .none, _ => false
  | .quad, .reg k => k.toNat % 4 == 0
  | .quad, _ => false
  | _, .reg k => !(r.isPair f) || k.toNat % 2 == 0
  | _, .idx _ => true
  | .val, .imm _ | .src, .imm _ => !(r.ty f).noImm
  | _, .imm _ => true
  | _, .lit32 _ => true
  | _, .lit64 _ => r.isPair f

/-- The dest register code is legal in a field of this role. -/
def Role.okDest (r : Role) (f : Fields) : Bool :=
  match r with
  | .none => f.dest == 0
  | .quad => f.dest.toNat % 4 == 0
  | _ => !(r.isPair f) || f.dest.toNat % 2 == 0

/-- The legal (destination, source) pairs of R216: whether rounding codes 1 to 4 are legal, whether SR is, whether
`.sat` is. -/
def cvtRule (d s : Ty) : Option (Bool × Bool × Bool) :=
  let ints : List Ty := [.i32, .n32, .i16, .n16, .i8, .n8]
  match d with
  | .i32 | .n32 =>
    if ints.contains s then some (false, false, true)
    else if [Ty.f32, .f16, .bf16].contains s then some (true, false, false) else none
  | .i16 | .n16 | .i8 | .n8 =>
    if [Ty.i32, .n32].contains s then some (false, false, true)
    else if s = .f32 then some (true, false, false) else none
  | .f32 =>
    if (ints ++ [Ty.f16, .bf16, .e4m3, .e5m2]).contains s then some (true, false, false) else none
  | .f16 =>
    if [Ty.i32, .n32].contains s then some (true, false, true)
    else if [Ty.f32, .bf16, .e4m3, .e5m2].contains s then some (true, true, true) else none
  | .bf16 =>
    if [Ty.i32, .n32].contains s then some (true, false, true)
    else if [Ty.f32, .f16, .e4m3, .e5m2].contains s then some (true, true, true) else none
  | .e4m3 => if [Ty.f32, .f16, .bf16, .e5m2].contains s then some (true, true, true) else none
  | .e5m2 => if [Ty.f32, .f16, .bf16, .e4m3].contains s then some (true, true, true) else none
  | _ => none

/-- The legal pairs of `cvt.pk`: those of R216 with a 32-bit, `f16` or `bf16` source (R223). -/
def cvtPkRule (d s : Ty) : Option (Bool × Bool × Bool) :=
  if [Ty.i32, .n32, .f32, .f16, .bf16].contains s then cvtRule d s else none

def RndRule.ok (r : RndRule) (f : Fields) (pk : Bool) : Bool :=
  match r with
  | RndRule.none => f.rnd == .rne
  | .std => f.rnd != .sr
  | .stdF32 => f.rnd == .rne || (f.ty == .f32 && f.rnd != .sr)
  | .cvt =>
    match (if pk then cvtPkRule f.ty f.srcTy else cvtRule f.ty f.srcTy) with
    | some (rnd, sr, _) => f.rnd == .rne || (f.rnd == .sr && sr) || (f.rnd != .sr && rnd)
    | Option.none => false

def ModRule.ok (r : ModRule) (f : Fields) (pk : Bool) : Bool :=
  match r with
  | .zero => f.mod == 0
  | .upTo n => f.mod.toNat ≤ n
  | .fence => 1 ≤ f.mod.toNat && f.mod.toNat ≤ 3
  | .cvt =>
    match (if pk then cvtPkRule f.ty f.srcTy else cvtRule f.ty f.srcTy) with
    | some (_, _, sat) => f.mod == 0 || (f.mod == 1 && sat)
    | none => false

def SpecRule.ok (r : SpecRule) (f : Fields) : Bool :=
  let n := f.spec.toNat
  match r with
  | .zero => n == 0
  | .any => true
  | .cvt => n < 128 && n / 16 < f.srcTy.elems
  | .cvtPk => n < 64 && n / 16 < (if f.ty.bits == 16 then 1 else 2)
  | .queue => n < 8
  | .qfeed => n % 16 < 8 && (n < 16 || f.mod == 1)
  | .copy => n == 0 || f.mod != 0
  | .nibble => n < 16
  | .ctl => (ctlWide? n).isSome

/-- A prefix is legal before the operation (R130); that notag needs c.mdef.ovr is checked when the operation is
fetched, against its group. -/
def PreRule.ok (r : PreRule) : Option Prefix → Bool
  | .none => true
  | .some p =>
    let ro := p.order == .relaxed || p.order == .acquire
    let wo := p.order == .relaxed || p.order == .release
    let sync := p.order == .relaxed && p.policy == .normal && !p.notag
    match r with
    | .none => false
    | .load => ro
    | .store => wo
    | .atom => true
    | .feed | .tileLoad | .probe => ro && p.space == .generic
    | .ltag => ro && p.space != .priv
    | .copy => p.space == .generic
    | .tileStore => wo && p.space == .generic
    | .stag => wo && p.space != .priv
    | .sync => sync && p.space == .generic
    | .signal => sync && p.space != .priv

/-- Reasons why parcels are no operation (R44, R120 to R148). -/
inductive DecodeError where
  /-- the parcels end before the operation does -/
  | truncated
  /-- class 0x0 where an operation starts: a structure fault (R120) -/
  | nodeHeader
  | reservedClass
  | unknownOpcode
  | badType
  | badOperand
  | badDest
  | badRnd
  | badMod
  | badSpec
  | badPre
  deriving DecidableEq, Repr

/-- The field checks of a row, in one order; the first that fails names the reason. -/
def Row.check (r : Row) (f : Fields) : Option DecodeError :=
  let pk := r.spec == .cvtPk
  if !r.types.contains f.ty then some .badType
  else if !r.roles.dest.okDest f then some .badDest
  else if !(r.roles.a.okSrc f f.a && r.roles.b.okSrc f f.b && r.roles.c.okSrc f f.c) then some .badOperand
  else if !r.rnd.ok f pk then some .badRnd
  else if !r.mod.ok f pk then some .badMod
  else if !r.spec.ok f then some .badSpec
  else if !r.pre.ok f.pre then some .badPre
  else none

end Sys2Proof
end

