-- ==== Sys2Proof/WellFormed.lean ====
section
/-! DEFINITION. Well-formed instructions: an operation whose fields the opcode map allows (R119 to R148). An event carries
no encoding; every event is well formed. -/

namespace Sys2Proof

/-- The reason why an instruction has no legal encoding, or none. -/
def Instr.formError (i : Instr) : Option DecodeError :=
  match i.code with
  | none => none
  | some (cls, opc, f) =>
    match findRow cls opc with
    | none => some .unknownOpcode
    | some r => r.check f

/-- The instruction is well formed. -/
abbrev Instr.WellFormed (i : Instr) : Prop := i.formError = none

/-- The instruction is an operation of a leaf, not an event. -/
def Instr.isOp (i : Instr) : Bool := i.code.isSome

end Sys2Proof
end

