-- ==== Sys2Proof/Decode.lean ====
section
/-! DEFINITION. The decoder from parcels to operations, total and rejecting by name (R119 to R148), and the encoder. -/

namespace Sys2Proof

/-- The index operand of an operand code (R62). -/
def IndexReg.ofCode (c : BitVec 8) : Option IndexReg :=
  match c.toNat with
  | 0x40 => some .lane | 0x41 => some .grp | 0x42 => some .wg | 0x43 => some .clu | 0x44 => some .die
  | 0x45 => some .ngrp | 0x46 => some .nwg | 0x47 => some .nclu | 0x48 => some .ndie | 0x49 => some .core
  | 0x4A => some .pos | 0x4B => some .active | 0x4C => some .ctx
  | _ => none

def IndexReg.code : IndexReg → BitVec 8
  | .lane => 0x40 | .grp => 0x41 | .wg => 0x42 | .clu => 0x43 | .die => 0x44
  | .ngrp => 0x45 | .nwg => 0x46 | .nclu => 0x47 | .ndie => 0x48 | .core => 0x49
  | .pos => 0x4A | .active => 0x4B | .ctx => 0x4C

/-- The operand of a code (R123), with the literal parcels that follow it taken from `ws` (R127). -/
def decodeOperand (c : BitVec 8) (ws : List Word) : Except DecodeError (Operand × List Word) :=
  if c.extractLsb' 6 2 = 0#2 then .ok (.reg (c.extractLsb' 0 6), ws)
  else if c.extractLsb' 5 3 = 3#3 then .ok (.imm (c.extractLsb' 0 5), ws)
  else if c = 0xF0#8 then
    match ws with
    | w :: rest => .ok (.lit32 w, rest)
    | [] => .error .truncated
  else if c = 0xF1#8 then
    match ws with
    | lo :: hi :: rest => .ok (.lit64 (hi ++ lo), rest)
    | _ => .error .truncated
  else
    match IndexReg.ofCode c with
    | some i => .ok (.idx i, ws)
    | none => .error .badOperand

/-- The code of an operand (R123). -/
def Operand.code : Operand → BitVec 8
  | .reg k => 0#2 ++ k
  | .idx i => i.code
  | .imm v => 3#3 ++ v
  | .lit32 _ => 0xF0
  | .lit64 _ => 0xF1

/-- The literal parcels of an operand, low word first (R127). -/
def Operand.literals : Operand → List Word
  | .lit32 v => [v]
  | .lit64 v => [v.extractLsb' 0 32, v.extractLsb' 32 32]
  | _ => []

/-- The rounding mode of a code; 6 and 7 are illegal everywhere (R128). -/
def Rnd.ofCode (c : BitVec 3) : Option Rnd :=
  match c.toNat with
  | 0 => some .rne | 1 => some .rtz | 2 => some .rdn | 3 => some .rup | 4 => some .rna | 5 => some .sr
  | _ => none

def Rnd.code : Rnd → BitVec 3
  | .rne => 0 | .rtz => 1 | .rdn => 2 | .rup => 3 | .rna => 4 | .sr => 5

def Order.ofCode (c : BitVec 2) : Order :=
  match c.toNat with
  | 0 => .relaxed | 1 => .acquire | 2 => .release | _ => .acqRel

def Order.code : Order → BitVec 2
  | .relaxed => 0 | .acquire => 1 | .release => 2 | .acqRel => 3

def Scope.ofCode (c : BitVec 3) : Option Scope :=
  match c.toNat with
  | 0 => some .group | 1 => some .workgroup | 2 => some .cluster | 3 => some .die | 4 => some .package
  | 5 => some .system
  | _ => none

def Scope.code : Scope → BitVec 3
  | .group => 0 | .workgroup => 1 | .cluster => 2 | .die => 3 | .package => 4 | .system => 5

def Space.ofCode (c : BitVec 3) : Option Space :=
  match c.toNat with
  | 0 => some .generic | 1 => some .priv | 2 => some .dieStore
  | _ => none

def Space.code : Space → BitVec 3
  | .generic => 0 | .priv => 1 | .dieStore => 2

def Policy.ofCode (c : BitVec 3) : Option Policy :=
  match c.toNat with
  | 0 => some .normal | 1 => some .streaming | 2 => some .keep | 3 => some .noAllocate
  | _ => none

def Policy.code : Policy → BitVec 3
  | .normal => 0 | .streaming => 1 | .keep => 2 | .noAllocate => 3

/-- The prefix parcel `w` (R129), or none where a field or a reserved bit is illegal. -/
def Prefix.ofParcel (w : Word) : Option Prefix :=
  if w.extractLsb' 0 16 ≠ 0#16 then none
  else
    match Scope.ofCode (w.extractLsb' 23 3), Space.ofCode (w.extractLsb' 20 3), Policy.ofCode (w.extractLsb' 17 3) with
    | some sc, some sp, some po =>
      some { order := Order.ofCode (w.extractLsb' 26 2), scope := sc, space := sp, policy := po,
             notag := w.extractLsb' 16 1 == 1#1 }
    | _, _, _ => none

/-- The parcel of a prefix (R129). -/
def Prefix.parcel (p : Prefix) : Word :=
  14#4 ++ p.order.code ++ p.scope.code ++ p.space.code ++ p.policy.code ++ BitVec.ofBool p.notag ++ 0#16

/-- The class field of a parcel (R119). -/
def parcelClass (w : Word) : Nat := (w.extractLsb' 28 4).toNat

/-- The fields of the parcels `p0` and `p1`, their literals taken from `ws`. -/
def decodeFields (pre : Option Prefix) (p0 p1 : Word) (ws : List Word) :
    Except DecodeError (Fields × List Word) :=
  if p0.extractLsb' 14 2 ≠ 0#2 then .error .badDest
  else
    match Rnd.ofCode (p1.extractLsb' 8 3) with
    | none => .error .badRnd
    | some rnd =>
      match decodeOperand (p0.extractLsb' 0 8) ws with
      | .error e => .error e
      | .ok (a, ws1) =>
        match decodeOperand (p1.extractLsb' 24 8) ws1 with
        | .error e => .error e
        | .ok (b, ws2) =>
          match decodeOperand (p1.extractLsb' 16 8) ws2 with
          | .error e => .error e
          | .ok (c, ws3) =>
            .ok ({ pre := pre, ty := Ty.ofCode (p0.extractLsb' 16 4).toNat, dest := p0.extractLsb' 8 6, a := a, b := b,
                   c := c, mod := p1.extractLsb' 11 5, rnd := rnd, spec := p1.extractLsb' 0 8 }, ws3)

/-- The operation that starts at `p0`, behind the prefix `pre` if it has one. -/
def decodeBody (pre : Option Prefix) (p0 : Word) (rest : List Word) : Except DecodeError (Instr × List Word) :=
  match findRow (parcelClass p0) (p0.extractLsb' 20 8).toNat with
  | none => .error (if parcelClass p0 = 13 ∨ parcelClass p0 = 15 then .reservedClass else .unknownOpcode)
  | some r =>
    match rest with
    | [] => .error .truncated
    | p1 :: ws =>
      match decodeFields pre p0 p1 ws with
      | .error e => .error e
      | .ok (f, ws') =>
        match r.check f with
        | some e => .error e
        | none => .ok (r.ctor f, ws')

/-- The operation at the head of a list of parcels and the parcels behind it. A node header where an operation starts is
a structure fault; every other rejection is an illegal encoding (R120, R150). A prefix before a header, before another
prefix or at the end is illegal (R130). -/
def decode (ws : List Word) : Except DecodeError (Instr × List Word) :=
  match ws with
  | [] => .error .truncated
  | p0 :: rest =>
    if parcelClass p0 = 0 then .error .nodeHeader
    else if parcelClass p0 = 14 then
      match Prefix.ofParcel p0, rest with
      | some p, q0 :: rest' =>
        if parcelClass q0 = 0 ∨ parcelClass q0 = 14 then .error .badPre else decodeBody (some p) q0 rest'
      | _, _ => .error .badPre
    else decodeBody none p0 rest

/-- The parcels of an operation with class `cls` and opcode `opc` (R119, R127, R129). -/
def encodeFields (cls opc : Nat) (f : Fields) : List Word :=
  (match f.pre with | some p => [p.parcel] | none => []) ++
  [BitVec.ofNat 4 cls ++ BitVec.ofNat 8 opc ++ BitVec.ofNat 4 f.ty.code ++ 0#2 ++ f.dest ++ f.a.code,
   f.b.code ++ f.c.code ++ f.mod ++ f.rnd.code ++ f.spec] ++
  f.a.literals ++ f.b.literals ++ f.c.literals

/-- The parcels of an instruction. An event has none. -/
def encode (i : Instr) : List Word :=
  match i.code with
  | some (cls, opc, f) => encodeFields cls opc f
  | none => []

/-- The longest operation: a prefix, two parcels and three 64-bit literals. -/
def longestOp : Nat := 9

/-- The parcels of an instruction whose bits are `w`, bit 0 the least significant bit of the first parcel; the bits
at and above `nbits` are 0. -/
def tableParcels (nbits w : Nat) : List Word :=
  let v := w % 2 ^ nbits
  (List.range (max longestOp ((nbits + 31) / 32))).map (fun k => BitVec.ofNat 32 (v / 2 ^ (32 * k)))

/-- The instruction that the decoder reads from those parcels. -/
def decodeTableWord (nbits w : Nat) : Option Instr :=
  match decode (tableParcels nbits w) with
  | .ok (i, _) => some i
  | .error _ => none

end Sys2Proof
end

