-- ==== Sys2Proof/Config.lean ====
section
/-! DEFINITION. What is fixed for a module and what the spec leaves open: the free values, opaque constants with no body. -/

namespace Sys2Proof

/-- The parts built from the design (R26). -/
inductive Part where
  | oz9640 | oz9620 | oz9604
  deriving DecidableEq, Repr

/-- The approximations of R212. -/
inductive ApproxOp where
  | rcp | rsqrt | exp2 | log2 | sin | cos | tanh
  deriving DecidableEq, Repr

/-- The SPDM requests of R424. -/
inductive SpdmKind where
  | getVersion | getCapabilities | negotiateAlgorithms | getDigests | getCertificate | challenge | getMeasurements
  | keyExchange | finish | heartbeat | keyUpdate | endSession | unsupported
  deriving DecidableEq, Repr

namespace Config

/-- The `n`-th free 32-bit value (R9; log entry 5). `State.fresh` counts the values taken. -/
opaque freeWord : Nat → Word
/-- The `n`-th free byte (R9; log entry 5). -/
opaque freeByte : Nat → Byte
/-- The `n`-th free choice between two outcomes that the spec allows (R292; log entry 6). -/
opaque freeBit : Nat → Bool
/-- The choice of an access between the old entry and the new one of a page whose tables have changed, by the count of free values and the access's
own number (R292; log entry 6). -/
opaque freeOld : Nat → Nat → Bool
/-- The part's own `f32` approximation of each operation (R212: a given input always gives the same bits on a given
part). The meanings use it only inside the bound of R213 (log entry 7). -/
opaque approxF32 : ApproxOp → Word → Word
/-- The bytes that start-up measures into register `k`, from 0 to 7 (R418, R423; log entry 8). -/
opaque firmware : Nat → List Byte
/-- The OS image measured at the `n`-th enabling of partition `p` (R423; log entry 8). -/
opaque osImage : Nat → Nat → List Byte
/-- The bytes of the `n`-th SPDM response (R424 names the requests, not the payloads; log entry 9). -/
opaque spdmPayload : SpdmKind → Nat → List Byte

/-- Physical layout of device memory (log entry 10): tower `t` starts at `t * 2^35`. -/
def towerBytes : Nat := 2 ^ 35
/-- Channel `k` of a tower starts `k * 2^31` bytes into it (1,024 frames of 2 MiB, R412; log entry 10). -/
def channelBytes : Nat := 2 ^ 31
/-- CXL memory starts above the eight towers (log entry 10). -/
def cxlBase : Nat := 2 ^ 38
/-- CXL memory of a part with CXL ports: the 8 TiB that R24 allows; that all of it is installed is the model's choice (log entry 91). -/
def cxlBytes : Nat := 2 ^ 43
/-- Local store slices stand at `sliceBase + core * 2^20` in the model's physical space (log entry 10). -/
def sliceBase : Nat := 2 ^ 60
/-- The allowance of partition `p` on die `d`'s store stands at `dieStoreBase + d * 2^28 + p * 2^23` in the model's physical space (log entry
10). -/
def dieStoreBase : Nat := 2 ^ 61

/-- Bytes of a core's local store slice (R15). -/
def sliceBytes : Nat := 786432
/-- Nominal clocks in MHz (R16). -/
def coreMHz : Nat := 3000
def hubMHz : Nat := 2000

/-- The reading of `c.caps` (R27, R28). -/
def caps : Part → Word
  | .oz9640 => 0x01FFFF00#32
  | .oz9620 => 0x11330700#32
  | .oz9604 => 0x21F0FF00#32

end Config
end Sys2Proof
end

