-- ==== Sys2Proof/Machine/State.lean ====
section
/-! DEFINITION. The state of the OZ-9640 as plain data, the reasons a step can stop, and the state after reset. -/

namespace Sys2Proof.Machine

/-- Memory: (physical address, byte) pairs in the canonical form of `Sparse.wf`. A byte that is not listed reads 0
(log entry 4). The physical space of the model is laid out in `Config` (log entry 10). -/
abbrev Memory := Sparse 8

/-- The canonical form of a memory. -/
abbrev Memory.wf (m : Memory) : Prop := Sparse.wf m

/-- Fault and trap classes (R379). -/
inductive FaultClass where
  | illegalEncoding | badStructure | unitAbsent | operandExtent | translation | tagMismatch | watchpoint | poison
  | barrierTimeLimit | callHandle | frameOverflow | numericTrap | peerAbsent | peerGone | launch | softwareTrap
  | halt | breakpoint
  deriving DecidableEq, Repr

/-- A failed check: its class, the address it records, and whether stage two failed (R291, R383). -/
structure FaultInfo where
  cls : FaultClass
  addr : Dword
  stage2 : Bool
  deriving DecidableEq, Repr

/-- A group that took a recorded fault: its start count, and whether it stood in an episode then, so that its resume services the fault inside that
episode (R390). -/
structure Taker where
  start : Nat
  nested : Bool
  deriving DecidableEq, Repr

/-- A lane's life (R65, R389, R394). -/
inductive Life where
  | live | retired
  /-- returned from the handler of an episode, waiting for its end (R389) -/
  | returned
  deriving DecidableEq, Repr

/-- One lane of a group, or the single lane of an access slice. -/
structure Lane where
  /-- `v0` to `v63` by number; a register not listed holds 0 (R32, R72) -/
  regs : Sparse 32
  /-- registers that an uncorrectable error poisoned (R297) -/
  bad : Sparse 1
  life : Life
  /-- the position word (R46) -/
  pos : Word
  /-- the current function index (R47) -/
  func : BitVec 16
  /-- private offset of frame 1 during an episode; 0 outside (R387) -/
  frameBase : Nat
  /-- it stands at the start of its function, and the code that would tell its first operation could not be read when it was put there (R33) -/
  atStart : Bool
  deriving DecidableEq, Repr

/-- An entry of a queue (R235, R236). -/
structure QEntry where
  id : Nat
  queue : Nat
  /-- `some t` for a tile entry into tile t, `none` for a register entry -/
  tile : Option (BitVec 4)
  addr : Dword
  count : Nat
  pos : Word
  func : BitVec 16
  acquire : Bool
  notag : Bool
  /-- the 128 bytes of the entry, by offset -/
  bytes : Sparse 8
  /-- the level that its bytes came from: 4 tower, 5 CXL (R441) -/
  level : Nat
  complete : Bool
  fault : Option FaultInfo
  /-- its fault has been taken by a `qpop`: whether inside an episode (R237, R390) -/
  delivered : Option Bool
  deriving DecidableEq, Repr

/-- The access slice of a group (R284 to R287). -/
structure AccessSlice where
  lane : Lane
  ended : Bool
  /-- the fault that stopped it, and whether a `qpop` has taken it, and inside an episode (R287, R390) -/
  stopped : Option FaultInfo
  taken : Option Bool
  deriving DecidableEq, Repr

/-- Why a group is parked (R65, R189, R385, R430). -/
inductive ParkReason where
  | fault | halt | debug
  deriving DecidableEq, Repr

/-- Units that an operation's lanes, or a node's, are not tested by again, once: those that hit them (R427, R432, R437). -/
structure Skip where
  units : List Nat
  mask : Mask
  pos : Word
  func : BitVec 16
  /-- the frame base of the lanes, which tells an episode from what it interrupts -/
  base : Nat
  deriving DecidableEq, Repr

/-- Which limit the cycles of an unretired wait count against (R117, R317). -/
inductive WaitKind where
  | barrier | dieBarrier | peer
  /-- a wait that is no blocking wait of R230: for room, or of a release -/
  | slot
  /-- an `mwait` whose transfers have run, and that waits for its operations (R368) -/
  | ops
  /-- an acquire that stands in its latch's queue (R251) -/
  | latch
  | other
  /-- an acquire that has been granted and has not yet retired (R251, R392) -/
  | granted
  deriving DecidableEq, Repr

/-- What a write does beside its bytes: the 64 KiB guest page of device memory that it logs, the table entries that it touches, and the leaves that it
marks dirty (R290, R413). -/
structure Note where
  gpage : Option Nat
  path : List Nat
  leaves : List Nat
  deriving DecidableEq, Repr

/-- A write whose page has been noted already. -/
def Note.noted : Note := { gpage := none, path := [], leaves := [] }

/-- A blocking wait that has reached retirement unsatisfied, with its counted cycles (R117, R378). -/
structure Wait where
  kind : WaitKind
  cycles : Nat
  /-- the address that a limit fault records -/
  addr : Dword
  /-- the limit has passed with the condition still unmet: a later completion does not satisfy the wait (R117) -/
  expired : Bool
  /-- the phase for which a barrier wait waits (R117, R261) -/
  phase : Nat := 0
  /-- of an acquire: its position, its function and its lanes, which a grant's entry in the replay log names, and what the grant does beside the latch
  word's bytes (R251, R290, R413, R443) -/
  pos : Word := 0
  func : BitVec 16 := 0
  mask : Mask := 0
  note : Note := { gpage := none, path := [], leaves := [] }
  deriving DecidableEq, Repr

/-- A wait that a save has squashed: the counted cycles go on when the lanes perform it again (R378). -/
structure KeptWait where
  mask : Mask
  pos : Word
  func : BitVec 16
  wait : Wait
  deriving DecidableEq, Repr

/-- A trap-handler episode (R386 to R389). -/
structure Episode where
  mask : Mask
  depth : Nat
  /-- the handler's function index, the function of its depth 0 (R47) -/
  handler : Nat
  /-- the lanes that stood at the start of their function, its first operation not known yet (R33) -/
  starting : Mask
  /-- caused by a fault, not by a trap (R389, act 1) -/
  isFault : Bool
  deriving DecidableEq, Repr

/-- A latch that a group holds (R249). -/
structure Hold where
  /-- physical address of the latch word -/
  pa : Nat
  va : Dword
  excl : Bool
  count : Nat
  /-- what a write of the word does beside its bytes (R290, R413) -/
  note : Note
  deriving DecidableEq, Repr

/-- A loop of a group: the depth, the function and the parcel of its header. -/
structure LoopId where
  depth : Nat
  func : Nat
  parcel : Nat
  deriving DecidableEq, Repr

/-- An iteration in progress of the spin detector: its loop, the lanes that have one history in it, whether it is quiet so far, the granules that
it loaded, the lanes of the runs in which its own have stood, and whether none has come yet (R86, R87). -/
structure Iteration where
  loop : LoopId
  mask : Mask
  quiet : Bool
  granules : List Nat
  ran : Mask
  fresh : Bool
  deriving DecidableEq, Repr

/-- A demotion: its lanes, the granules that it watches, when it began, and what has happened since then: the group has retired a run of other lanes;
another lane was eligible at a run boundary (R87, R88). -/
structure Demotion where
  lanes : Mask
  watched : List Nat
  began : Nat
  otherRan : Bool
  otherEligible : Bool
  deriving DecidableEq, Repr

/-- How far a group's reads of some bytes have come: none of its later reads there returns what was overwritten before `upTo` (R305). -/
structure ReadMark where
  pa : Nat
  len : Nat
  upTo : Nat
  deriving DecidableEq, Repr

/-- A group (R66). -/
structure Group where
  core : Nat
  slot : Nat
  /-- identity of its workgroup -/
  wg : Nat
  /-- `%grp` (R64) -/
  grp : Nat
  /-- start count of the owner tag (R398) -/
  start : Nat
  /-- the function at depth 0: the region's entry, or the function that its `spawn` named (R47, R91) -/
  root : Nat
  lanes : List Lane
  /-- the lanes of the dispatched run that are still in it; 0 at a run boundary (R66, R77) -/
  run : Mask
  mdef : Word
  flags : Word
  /-- flags that asynchronous operations raised, and the core cycle in which they came (R187) -/
  lateFlags : Word
  lateAt : Nat
  spinOff : Bool
  spinCount : Nat
  demotions : Nat
  trapCtl : Dword
  sample : Dword
  acks : Nat
  /-- the detector's iterations in progress, the lane set of the last iteration, and the granules of one that has brought the count to 64 (R87) -/
  iters : List Iteration
  lastLanes : Mask
  watched : List Nat
  demos : List Demotion
  park : Option ParkReason
  wait : Option Wait
  /-- the waits that saves have squashed, one for each lane set (R378) -/
  kept : List KeptWait
  /-- when the group last synchronised, as `State.fresh` counts, and how far its reads have come since (R305, R310) -/
  syncAt : Nat
  readMarks : List ReadMark
  holds : List Hold
  /-- arrived lanes by physical address of a live barrier (R258) -/
  arrived : List (Nat × Mask)
  episode : Option Episode
  /-- the farthest level that the operation in issue has reached (R441) -/
  level : Nat
  /-- watch units not checked at the next performance of an operation (R427, R437) -/
  skips : List Skip
  /-- breakpoint units not tested at the next retried Enter of a node (R432) -/
  breakSkips : List Skip
  /-- the tagged operation of the dispatched run, by its parcel (R440) -/
  tagged : Option Nat
  acc : Option AccessSlice
  /-- the entries of the eight queues, oldest first (R235) -/
  feeds : List QEntry
  lastDispatch : Nat
  yielded : Bool
  /-- it has issued (R317, R37) -/
  issued : Bool
  /-- the `rel` or `unbind` in issue has taken its shadow copies, which it owes to their homes: its position and its function (R272, R273) -/
  merged : Option (Word × BitVec 16)
  /-- killed lanes whose implicit arrival is still to come (R94, R311) -/
  owed : Mask
  deriving DecidableEq, Repr

/-- A copy in flight (R240, R375). -/
structure Copy where
  id : Nat
  core : Nat
  slot : Nat
  start : Nat
  dest : Dword
  src : Dword
  bytes : Nat
  tag : Nat
  /-- offset in the allocation of the barrier linked at the cp.async -/
  linked : Option Nat
  /-- 0 plain, 1 .tr8, 2 .tr16 -/
  mode : Nat
  row : BitVec 8
  /-- lowest chunk not landed; bit i of `done`: chunk next + i has landed -/
  next : Nat
  done : Dword
  /-- chunks read and not yet written, with the bytes read (R308, R374) -/
  read : List (Nat × Sparse 8)
  /-- its source reads are acquires (R301) -/
  acquire : Bool
  pos : Word
  func : BitVec 16
  fault : Option FaultInfo
  /-- the groups that took the fault (R243, R358, R368) -/
  delivered : List Taker
  notag : Bool
  /-- cycles counted while the copy waits for an absent peer (R317) -/
  absent : Option Nat
  deriving DecidableEq, Repr

/-- A live workgroup barrier (R257, R258); its fields lie in memory. -/
structure Barrier where
  pa : Nat
  off : Nat
  /-- members: group slot and lane mask -/
  members : List (Nat × Mask)
  deriving DecidableEq, Repr

/-- A live die barrier (R257, R258); its fields lie in memory. -/
structure DieBarrier where
  pa : Nat
  die : Nat
  vf : Nat
  rcb : Nat
  /-- members and arrived members, by the workgroup's place in the grid -/
  members : List Nat
  arrived : List Nat
  deriving DecidableEq, Repr

/-- An operand-buffer reservation with its record's fields (R333, R353). -/
structure Resv where
  idx : Nat
  base : Nat
  ext : Nat
  format : Nat
  glen : Nat
  soff : Nat
  zoff : Nat
  deriving DecidableEq, Repr

/-- The fields of a parameter block (R362). -/
structure Block where
  op : Nat
  shape : Nat
  ta : Nat
  tb : Nat
  acc : Nat
  otype : Nat
  rnd : Nat
  sat : Bool
  act : Nat
  bias : Bool
  store : Bool
  tag : Nat
  scale : Word
  biasaddr : Dword
  dest : Dword
  stride : Nat
  deriving DecidableEq, Repr

/-- How far a launched matrix operation has come (R365, R367). -/
inductive OpPhase where
  | queued
  /-- committed; its epilogue store is not complete -/
  | storing
  /-- committed, and its store, if any, has landed -/
  | finished
  deriving DecidableEq, Repr

/-- A launched operation, in the operation record of its accumulator until an mwait passes it (R346, R364). -/
structure MatOp where
  id : Nat
  engine : Nat
  blk : Block
  descA : Dword
  descB : Dword
  resA : Option Resv
  resB : Option Resv
  /-- the bytes of those reservations at the launch (R336, R364) -/
  bytesA : Sparse 8
  bytesB : Sparse 8
  /-- accumulators into which an operation has been launched since (R364, R369) -/
  followed : List Nat
  core : Nat
  slot : Nat
  start : Nat
  pos : Word
  func : BitVec 16
  phase : OpPhase
  flags : BitVec 5
  fault : Option FaultInfo
  /-- the groups that took the fault (R243, R358, R368) -/
  delivered : List Taker
  /-- its fault has been serviced, and its store runs on (R364, R368) -/
  resumed : Bool
  /-- chunks of the store that have landed -/
  landed : Nat
  /-- the retained committed buffer of accumulators a and a + 1 -/
  buf0 : BitVec 1
  buf1 : BitVec 1
  /-- the bias words read at the commit, and the values of the buffers that its store keeps (R366, R367) -/
  bias : List Word
  values : Sparse 32
  /-- bytes that its operand tiles held before a transfer that no `mfence.op` orders before it (R323, R360) -/
  snaps : List (Nat × Sparse 8)
  /-- cycles counted while the store waits for an absent peer (R317) -/
  absent : Option Nat
  deriving DecidableEq, Repr

/-- A tile transfer in progress (R356). -/
structure TileXfer where
  id : Nat
  engine : Nat
  tile : Nat
  store : Bool
  addr : Dword
  stride : Nat
  desc : Dword
  /-- chunks moved, and the most that were moved before it ran again (R358) -/
  moved : Nat
  high : Nat
  /-- the tile's buffer, and the bytes that the tile held when the transfer started (R323, R357) -/
  buf : Nat
  old : Sparse 8
  /-- the identity reached when a `tclr` took the tile out of that buffer (R357) -/
  left : Option Nat
  /-- its engine has become free under it (R350) -/
  loose : Bool
  core : Nat
  slot : Nat
  start : Nat
  pos : Word
  func : BitVec 16
  notag : Bool
  /-- the tile was touched while an operation read it: its bytes are undefined (R360) -/
  touched : Bool
  /-- what the next chunk has met at memory, before it is moved (R308, R356) -/
  seen : Option (Sparse 8)
  /-- stopped by a failing chunk, and to run again from its first chunk (R358) -/
  failed : Bool
  /-- it runs again before the group with this start count performs again the operation that delivered its fault (R358) -/
  rerun : Option Nat
  /-- cycles counted while the transfer waits for an absent peer (R317) -/
  absent : Option Nat
  deriving DecidableEq, Repr

/-- A recorded transfer fault (R358). Its `xfer` is the transfer, or none for a tile entry. -/
structure XFault where
  info : FaultInfo
  /-- the groups that took the fault (R243, R358, R368) -/
  delivered : List Taker
  /-- the group slot of the transfer, or of the `qfeed` (R383) -/
  slot : Nat
  pos : Word
  func : BitVec 16
  xfer : Option Nat
  deriving DecidableEq, Repr

/-- A workgroup that has been placed and has not ended (R112). -/
structure Workgroup where
  id : Nat
  vf : Nat
  ctx : Nat
  rcb : Nat
  /-- grid indices `%die`, `%clu`, `%wg`, and the place in the grid's order of placement -/
  die : Nat
  clu : Nat
  wgi : Nat
  lin : Nat
  core : Nat
  allocOff : Nat
  allocSize : Nat
  slots : List Nat
  /-- one of its groups has issued (R317) -/
  started : Bool
  /-- a pre-emption is under way: its groups dispatch no further run (R391) -/
  stopping : Bool
  /-- the pre-emption that stops it, or that saved it: workgroups of one core with one number share a shadow slot (R395) -/
  stopped : Nat
  /-- saved in a shadow slot or a spill area (R391) -/
  saved : Bool
  /-- ended, while its copies or its stores still run (R96, R351) -/
  ended : Bool
  tags : Dword
  copies : List Copy
  bars : List Barrier
  /-- the engine that it holds, or is releasing, and the other engines that it is releasing (R349, R350) -/
  engine : Option Nat
  releasing : Bool
  leaving : List Nat
  ops : List MatOp
  xfers : List TileXfer
  xfaults : List XFault
  deriving DecidableEq, Repr

/-- A matrix engine (R346). -/
structure Engine where
  idx : Nat
  /-- the workgroup that holds it or is releasing it -/
  holder : Option Nat
  aside : Option Nat
  /-- the buffer that holds the bytes of each tile: a `tclr` under a running transfer changes it (R357) -/
  bufs : List Nat
  /-- bytes of buffer b, by b * 32768 + offset -/
  tiles : Sparse 8
  fill : Sparse 32
  tdesc : Sparse 64
  obuf : Sparse 8
  resvs : List Resv
  /-- element (i, j) of buffer b of accumulator a, by ((a * 2 + b) * 128 + i) * 64 + j -/
  acc : Sparse 32
  /-- which buffer of each accumulator is committed -/
  which : Sparse 1
  /-- tiles written, and accumulators committed, since the grant (R370) -/
  dirty : BitVec 16
  accDirty : BitVec 4
  deriving DecidableEq, Repr

/-- The inheritable fields of an RCB after inheritance, and its latch and signal (R97, R99). -/
structure Eff where
  image : Nat
  entry : Nat
  hasacc : Bool
  access : Nat
  ndie : Nat
  nclu : Nat
  nwg : Nat
  ngrp : Nat
  args : Dword
  cores : Nat
  engines : Nat
  gbud : Nat
  regs : Nat
  win : Nat
  lstore : Nat
  priv : Nat
  ctags : Nat
  qdepth : Nat
  wgeng : Nat
  copies : Nat
  prio : Nat
  domain : Nat
  rset : Nat
  thresh : Nat
  quantum : Nat
  blimit : Nat
  latch : Dword
  signal : Dword
  deriving DecidableEq, Repr

/-- The arbiter's request on a completion latch (R101, R105). -/
inductive LatchReq where
  | none | queued | granted
  deriving DecidableEq, Repr

/-- What the arbiter knows of a region it has read, or of a root (R98 to R109). -/
structure Region where
  vf : Nat
  /-- the address of its RCB, with its context number from bit 56 on; a root's address alone -/
  rcb : Nat
  parent : Nat
  isRoot : Bool
  ctx : Nat
  eff : Eff
  /-- the state of R98 -/
  st : Nat
  latch : LatchReq
  /-- deficit D and place in its ring (R107) -/
  deficit : Int
  ring : Nat
  /-- the effective priority whose ring that is (R107) -/
  ringPrio : Nat
  /-- cycles of the current quantum, or of waiting in state 4 (R107, R108) -/
  quantumCycles : Nat
  waitedQuanta : Nat
  /-- workgroups placed so far, and those of each cluster, by grid die * nclu + grid cluster (R112) -/
  placed : Nat
  begun : Sparse 32
  used : Nat
  thin : Bool
  /-- the parcels of its image at its admission, by their index, each under a bit 32 that says that it could be read; none where it has not been
  admitted (R38) -/
  code : Option (Sparse 33)
  /-- terminated or ended by the host: it completes with state 9 (R114) -/
  ending : Bool
  /-- the links word and the first RCB of the previous walk (R101) -/
  lastLinks : Word
  lastHead : Nat
  deriving DecidableEq, Repr

/-- A binding of the context (R250). -/
structure Binding where
  vf : Nat
  ctx : Nat
  start : Nat
  len : Nat
  /-- the address of the latch, its tag included -/
  latch : Dword
  deriving DecidableEq, Repr

/-- Operations of atomics and reductions (R143). -/
inductive AtomOp where
  | add | min | max | and | or | xor | xchg | cas
  deriving DecidableEq, Repr

/-- A shadow copy of a location on one die (R268). -/
structure Shadow where
  vf : Nat
  ctx : Nat
  die : Nat
  /-- virtual address [55:0] of the location -/
  loc : Nat
  op : AtomOp
  ty : Ty
  /-- integer contribution -/
  ival : Dword
  /-- exact sum of the finite values, in units of 2^-149 -/
  fsum : Int
  allNegZero : Bool
  posInf : Bool
  negInf : Bool
  nan : Bool
  deriving DecidableEq, Repr

/-- Who waits in a latch's queue of acquirers (R101, R251). -/
inductive Waiter where
  | group (core slot : Nat) (excl : Bool)
  | arbiter (vf rcb : Nat)
  deriving DecidableEq, Repr

/-- The queue of acquirers of the latch word at a physical address (R251). -/
structure LatchQueue where
  pa : Nat
  waiters : List Waiter
  deriving DecidableEq, Repr

/-- What a write posted to another die does at its home, or what a merge still owes a home (R231, R269, R318). -/
inductive PostedEffect where
  | store (pa : Nat) (bytes : List Byte)
  | signal (payloadPa : Nat) (v : Word) (flagPa : Nat) (k : Word)
  | red (op : AtomOp) (ty : Ty) (rnd : Rnd) (ftz : Bool) (pa : Nat) (v : Dword)
  | tag (granule count : Nat) (t : BitVec 4)
  | fold (pa : Nat) (h : Shadow)
  deriving DecidableEq, Repr

/-- A write on its way to another die (R231, R398). -/
structure Posted where
  id : Nat
  core : Nat
  slot : Nat
  start : Nat
  vf : Nat
  ctx : Nat
  /-- the region of its group (R113) -/
  rcb : Nat
  /-- the operation that issued it: its position, its function and its lanes (R443, R445) -/
  pos : Word
  func : BitVec 16
  mask : Mask
  /-- it counts in c.acks (R319) -/
  counted : Bool
  /-- what it does beside its bytes, for each place that it changes (R290, R413) -/
  notes : List Note
  /-- performed at its home, acknowledgement outstanding -/
  performed : Bool
  eff : PostedEffect
  deriving DecidableEq, Repr

/-- A cached translation (R292): `2 ^ bits` bytes from the virtual address `base`, their guest physical address, and their frame. -/
structure TlbEntry where
  vf : Nat
  ctx : Nat
  base : Nat
  bits : Nat
  gpa : Nat
  frame : Nat
  write : Bool
  deriving DecidableEq, Repr

/-- A page being moved between frames by the tier engine (R282, R411, R416). -/
structure PageMove where
  id : Nat
  vf : Nat
  /-- the context that holds its fast-tier frame after a promotion -/
  ctx : Nat
  /-- guest physical base of the page, and the bits of its page offset -/
  gpa : Nat
  bits : Nat
  /-- physical address of its stage-two leaf -/
  leaf : Nat
  /-- source and destination frames, physical -/
  src : Nat
  dst : Nat
  up : Bool
  deriving DecidableEq, Repr

/-- What the tier engine knows of a page that it has moved: its frame in the CXL range, and the context that holds its fast-tier
frame (R411, R412). -/
structure TierPage where
  vf : Nat
  gpa : Nat
  bits : Nat
  cxl : Nat
  holder : Option Nat
  deriving DecidableEq, Repr

/-- An invalidation in effect, written through the window of context `ctx` (R407). -/
structure Inval where
  vf : Nat
  ctx : Nat
  kind : Nat
  page : Nat
  deriving DecidableEq, Repr

/-- A watch unit of a core (R435). -/
structure WatchUnit where
  core : Nat
  unit : Nat
  value : Dword
  vf : Nat
  ctx : Nat
  rcb : Nat
  lane : Nat
  slot : Nat
  wg : Nat
  /-- the start count of the writer's group -/
  start : Nat
  /-- the core whose unit this is a copy of -/
  copyOf : Option Nat
  deriving DecidableEq, Repr

/-- An entry of the replay log (R443). -/
structure ReplayEntry where
  kind : Nat
  addr : Nat
  pos : Word
  core : Nat
  slot : Nat
  deriving DecidableEq, Repr

/-- Bytes of local store or die store that a group has overwritten lately: what they held, who wrote, when, and the count of `State.fresh` then
(R310, R314; log entry 33). -/
structure Recent where
  pa : Nat
  old : List Byte
  start : Nat
  born : Nat
  upTo : Nat
  deriving DecidableEq, Repr

/-- A saved workgroup (R394). -/
structure SavedWg where
  wg : Workgroup
  groups : List Group
  alloc : Sparse 8
  allocTags : Sparse 4
  allocPoison : Sparse 1
  /-- the engine that it held or was releasing, and the others that it was releasing -/
  engine : Option Engine
  leaving : List Engine
  deriving DecidableEq, Repr

/-- A shadow slot of a core that is held, or a spilled one (R395). -/
structure ShadowSlot where
  core : Nat
  slot : Nat
  vf : Nat
  ctx : Nat
  savedAt : Nat
  spilled : Bool
  wgs : List SavedWg
  deriving DecidableEq, Repr

/-- A checkpoint image (R442). -/
structure Checkpoint where
  vf : Nat
  ctx : Nat
  ck : Nat
  /-- hub time, and core cycles since reset -/
  time : Nat
  taken : Nat
  rplw : Word
  wgs : List SavedWg
  /-- captured ranges, page by page: virtual address in the context, and bytes -/
  captured : List (Nat × List Byte)
  /-- it belongs to the recording that runs and to the regions that run: the next is due after an interval (R442) -/
  live : Bool
  deriving DecidableEq, Repr

/-- A link's keys (R421, R422). -/
structure Link where
  idx : Nat
  /-- current key slot -/
  cur : Bool
  key0 : Bool
  key1 : Bool
  /-- a retire of the other slot is pending at the sender -/
  retirePending : Bool
  /-- the retire message is on its way to the receiver -/
  retireSent : Bool
  /-- key slot of each flit in the replay buffer -/
  replay : List Bool
  /-- protocol responses: true for busy -/
  busy : List Bool
  deriving DecidableEq, Repr

/-- Signature algorithms of SPDM responses (R424). -/
inductive SpdmSig where
  | falcon1024
  deriving DecidableEq, Repr

/-- Measurement hashes of SPDM responses (R424). -/
inductive SpdmHash where
  | shake256
  deriving DecidableEq, Repr

/-- An SPDM response (R424). -/
structure SpdmReply where
  via : Option Nat
  kind : SpdmKind
  /-- the version of SPDM, major and minor -/
  version : Nat × Nat
  /-- ERROR with UnsupportedRequest -/
  error : Bool
  /-- the signature algorithm, where the response selects it or is signed with it -/
  signature : Option SpdmSig
  /-- the measurement hash, where the response selects it or its values are hashed with it -/
  hash : Option SpdmHash
  measurements : List (BitVec 512)
  payload : List Byte
  deriving DecidableEq, Repr

/-- A conversation with a requester of SPDM: whether it has negotiated its algorithms, and its session (R424; log entry 97). -/
structure SpdmPeer where
  via : Option Nat
  negotiated : Bool
  /-- none; some false from KEY_EXCHANGE on; some true from FINISH on -/
  session : Option Bool
  deriving DecidableEq, Repr

/-- An MSI-X interrupt raised (R382), or an interrupt of a partition's application cores (R416). -/
inductive Interrupt where
  | msix (vf vector : Nat)
  | partition (p : Nat)
  deriving DecidableEq, Repr

/-- A guest switch under way, and the step that it has reached; step 0 is a request held while the VF is stopped (R408, R409). -/
structure Switch where
  vf : Nat
  out : Nat
  inc : Nat
  step : Nat
  deriving DecidableEq, Repr

/-- An issue slot's tagged-instruction sampler (R440). -/
structure Lfsr where
  core : Nat
  slot : Nat
  v : BitVec 16
  inFlight : Bool
  deriving DecidableEq, Repr

/-- Who makes an access, as the recorder knows it: the region, the group by its start count, and the position, the function and the lanes of the
operation (R443). -/
structure Accessor where
  vf : Nat
  ctx : Nat
  rcb : Nat
  core : Nat
  slot : Nat
  start : Nat
  pos : Word
  func : BitVec 16
  mask : Mask
  deriving DecidableEq, Repr

/-- The operation in issue: which group, which of its slices, and the mask. The model's own field. -/
structure Cur where
  core : Nat
  slot : Nat
  acc : Bool
  mask : Mask
  deriving DecidableEq, Repr

/-- What moves next. The model's own data (log entry 1). -/
inductive Who where
  | group (core slot : Nat)
  | access (core slot : Nat)
  | event (i : Instr)
  deriving DecidableEq, Repr

/-- A move and the core cycles that pass before it (log entry 1). -/
structure Move where
  dt : Nat
  who : Who
  deriving DecidableEq, Repr

/-- The state of the module. -/
structure State where
  part : Part
  mem : Memory
  /-- memory tags by granule (physical address / 32) (R294) -/
  tags : Sparse 4
  /-- poisoned granules (R297) -/
  poison : Sparse 1
  /-- registers of the module, partition and VF blocks by PF BAR0 offset (R402, R404, R419, R428) -/
  regs : Sparse 64
  /-- context registers, by (vf * 65536 + ctx) * 64 + (offset - 0x100) (R404) -/
  cxRegs : Sparse 64
  /-- writes of context registers that wait for the context's next restore, by the same keys (R405) -/
  cxPending : List (Nat × Dword)
  /-- measurement registers 0 to 15 (R423) -/
  meas : List (BitVec 512)
  groups : List Group
  wgs : List Workgroup
  engines : List Engine
  regions : List Region
  /-- ended workgroups whose range no other workgroup has (R317) -/
  departed : List Workgroup
  dieBars : List DieBarrier
  posted : List Posted
  latchQs : List LatchQueue
  /-- regions (vf, rcb) whose completion latch the arbiter was granted before the walk that reads them (R102) -/
  earlyGrants : List (Nat × Nat)
  bindings : List Binding
  shadows : List Shadow
  tlb : List TlbEntry
  moves : List PageMove
  tierPages : List TierPage
  /-- pages that the tier engine has still to take down since their VF's current context changed: the VF, the outgoing context and the page's guest
  physical address (R411) -/
  downs : List (Nat × Nat × Nat)
  /-- promotions for which an access waits and that have no frame yet: VF, context and guest physical address, oldest first (R411) -/
  fills : List (Nat × Nat × Nat)
  /-- contexts (vf, ctx) whose slice runs (R410) -/
  ctxSlices : List (Nat × Nat)
  invals : List Inval
  /-- channels fenced at start-up, by tower * 16 + channel (R418) -/
  fencedChans : List Nat
  /-- settings of p.ctl.en so far, by partition (R423) -/
  enables : Sparse 32
  watch : List WatchUnit
  slots : List ShadowSlot
  checkpoints : List Checkpoint
  links : List Link
  spdm : List SpdmReply
  spdmPeers : List SpdmPeer
  interrupts : List Interrupt
  switches : List Switch
  /-- VFs stopped by vf.ctl.stop and saved (R409) -/
  stoppedVfs : List Nat
  lfsrs : List Lfsr
  /-- sampler counters by vf * 256 + event code (R439) -/
  counters : Sparse 32
  /-- MACs that do not yet make 4,096, by VF (R439) -/
  macs : Sparse 32
  /-- core cycles at the last periodic row, by VF (R439) -/
  sampled : Sparse 64
  /-- the writes of local store and die store of the last cycles, newest first (R310, R314) -/
  recent : List Recent
  /-- the operation in issue -/
  cur : Cur
  agenda : List Move
  /-- the groups (core, slot) that have moved in this core cycle (R167, R372) -/
  cycle : List (Nat × Nat)
  /-- core cycles since reset -/
  now : Nat
  /-- free values taken so far (log entry 5) -/
  fresh : Nat
  /-- next identity, and the count of dispatches (log entry 2) -/
  seq : Nat
  /-- an access in the step under way has to wait, so that the step is not made; a capacity page that it waits for: VF, context and guest
  physical address (R282). Between steps both say nothing. The model's own. -/
  held : Bool
  wants : Option (Nat × Nat × Nat)
  /-- the access in the step under way that stands at the stop index of replay mode: the step is not made, and its context stops (R445). Between steps
  none. The model's own. -/
  halts : Option Accessor
  /-- how many of its logged accesses an operation has gone past in replay mode, by a number that names the operation (R445; log entry 36). The model's
  own. -/
  turns : List (Nat × Nat)
  deriving DecidableEq, Repr

/-- Reasons a step stops the model. -/
inductive Fault where
  /-- An operation was given to `exec` while no group is in issue at `State.cur`. Raised by every operation's
  meaning through `Ops.withGroup`. Safe: `step` sets `State.cur` to a group of `State.groups` before it runs an operation. -/
  | noGroupInIssue
  deriving DecidableEq, Repr

/-- Reasons the model gives no meaning. -/
inductive Refusal where
  /-- An instruction that has no meaning yet, by its mnemonic. Raised by `exec`'s arms only. Safe: nothing is claimed of it. -/
  | notModelled (mnemonic : String)
  deriving DecidableEq, Repr

/-- Offset of VF `v`'s block in the PF's BAR0 (R402). -/
def vfBase (v : Nat) : Nat := 0x100000 + 0x1000 * v

/-- Offset of partition `p`'s block in the PF's BAR0 (R402). -/
def partBase (p : Nat) : Nat := 0x10000 + 0x1000 * p

/-- m.clk at the nominal clocks (R16, R419). -/
def nominalClk : Dword := BitVec.ofNat 64 (Config.coreMHz * 65536 + Config.hubMHz)

/-- The registers of the hub after reset: m.fab with recovery mode set (R418), m.clk nominal (R419) and
vf.nctx 1 (R404); every other register is 0. -/
def resetRegs : Sparse 64 :=
  [(0x004, 0x80000000#64), (0x00C, nominalClk)] ++ (List.range 64).map (fun v => (vfBase v + 0x054, 1#64))

/-- A link without keys (R421). -/
def Link.zero (n : Nat) : Link :=
  { idx := n, cur := false, key0 := false, key1 := false, retirePending := false, retireSent := false, replay := [],
    busy := [] }

/-- The part has link `n`: the host link, CXL ports 0 to 3, Ethernet ports 0 and 1, by c.caps (R26, R28, R419). -/
def linkPresent (p : Part) (n : Nat) : Bool :=
  n == 0 || (1 ≤ n && n ≤ 4 && (Config.caps p).getLsbD (11 + n)) || (5 ≤ n && n ≤ 6 && (Config.caps p).getLsbD (5 + n))

/-- The module `p` right after reset: memory with nothing listed, nothing linked, placed or in flight, the hub's
registers at their reset values, boot stage 0 (log entry 63). -/
def State.resetOf (p : Part) : State :=
  { part := p, mem := [], tags := [], poison := [], regs := resetRegs, cxRegs := [], cxPending := [], meas := List.replicate 16 0,
    groups := [], wgs := [], engines := [], regions := [], departed := [], dieBars := [], posted := [], latchQs := [], earlyGrants := [],
    bindings := [], shadows := [], tlb := [], moves := [], tierPages := [], downs := [], fills := [], ctxSlices := [], invals := [], fencedChans := [], enables := [], watch := [], slots := [], checkpoints := [],
    links := ((List.range 7).filter (linkPresent p)).map Link.zero, spdm := [], spdmPeers := [], interrupts := [], switches := [], stoppedVfs := [], lfsrs := [],
    counters := [], macs := [], sampled := [], recent := [], cur := { core := 0, slot := 0, acc := false, mask := 0 }, agenda := [], cycle := [], now := 0,
    fresh := 0, seq := 0, held := false, wants := none, halts := none, turns := [] }

/-- The OZ-9640 right after reset (R1: every figure is for the OZ-9640 unless a statement names a variant; log entry 3). -/
def State.reset : State := State.resetOf .oz9640

end Sys2Proof.Machine
end

