-- ==== Sys2Proof/Machine/Float.lean ====
section
/-! DEFINITION. Float formats, exact values, `Round`, and the arithmetic of R194 to R211. -/

namespace Sys2Proof.Machine

/-- A binary format: exponent and mantissa widths, bias, greatest finite significand and the exponent of its last bit
(R194). `e4m3` has no infinity and one NaN for each sign. -/
structure Fmt where
  eb : Nat
  mb : Nat
  bias : Nat
  ieee : Bool
  deriving DecidableEq, Repr

def fmtF32 : Fmt := { eb := 8, mb := 23, bias := 127, ieee := true }
def fmtF16 : Fmt := { eb := 5, mb := 10, bias := 15, ieee := true }
def fmtBf16 : Fmt := { eb := 8, mb := 7, bias := 127, ieee := true }
def fmtE4m3 : Fmt := { eb := 4, mb := 3, bias := 7, ieee := false }
def fmtE5m2 : Fmt := { eb := 5, mb := 2, bias := 15, ieee := true }

/-- The format of a float type. -/
def fmtOf : Ty → Fmt
  | .f16 => fmtF16
  | .bf16 => fmtBf16
  | .e4m3 => fmtE4m3
  | .e5m2 => fmtE5m2
  | _ => fmtF32

/-- Width of an encoding. -/
def Fmt.width (t : Fmt) : Nat := 1 + t.eb + t.mb

/-- The sign bit's weight. -/
def Fmt.signBit (t : Fmt) : Nat := 2 ^ (t.eb + t.mb)

/-- Encodings of +infinity, of the greatest finite value, and the canonical NaN (R194). -/
def Fmt.inf (t : Fmt) : Nat := (2 ^ t.eb - 1) * 2 ^ t.mb
def Fmt.maxFinite (t : Fmt) : Nat := if t.ieee then t.inf - 1 else 2 ^ (t.eb + t.mb) - 2
def Fmt.nan (t : Fmt) : Nat := if t.ieee then t.inf + 2 ^ (t.mb - 1) else 2 ^ (t.eb + t.mb) - 1

/-- Greatest finite significand, and the exponent of its last bit. -/
def Fmt.maxSig (t : Fmt) : Nat := if t.ieee then 2 ^ (t.mb + 1) - 1 else 2 ^ (t.mb + 1) - 2
def Fmt.maxLsb (t : Fmt) : Int := if t.ieee then (t.bias : Int) - t.mb else (t.bias : Int) + 1 - t.mb

/-- Exponent of the last bit of a subnormal. -/
def Fmt.minLsb (t : Fmt) : Int := 1 - (t.bias : Int) - t.mb

/-- The value of an encoding (R195): `m * 2^e` with a sign. -/
inductive FVal where
  | nan (signalling : Bool)
  | inf (neg : Bool)
  | fin (neg : Bool) (m : Nat) (e : Int)
  deriving DecidableEq, Repr

def Fmt.decode (t : Fmt) (x : Nat) : FVal :=
  let neg := x / t.signBit % 2 == 1
  let e := x / 2 ^ t.mb % 2 ^ t.eb
  let m := x % 2 ^ t.mb
  if t.ieee && e == 2 ^ t.eb - 1 then
    if m = 0 then .inf neg else .nan (m < 2 ^ (t.mb - 1))
  else if !t.ieee && e == 2 ^ t.eb - 1 && m == 2 ^ t.mb - 1 then .nan false
  else if e = 0 then .fin neg m t.minLsb
  else .fin neg (2 ^ t.mb + m) ((e : Int) - t.bias - t.mb)

/-- The sticky flags (R201). -/
def flagNv : BitVec 5 := 0x10
def flagDz : BitVec 5 := 0x08
def flagOf : BitVec 5 := 0x04
def flagUf : BitVec 5 := 0x02
def flagNx : BitVec 5 := 0x01

/-- A result with the flags that it raises. -/
structure FRes where
  bits : Nat
  flags : BitVec 5
  deriving DecidableEq, Repr

/-- A signed encoding. -/
def Fmt.signed (t : Fmt) (neg : Bool) (x : Nat) : Nat := if neg then t.signBit + x else x

/-- An exact real, or its first bits: `(-1)^neg * (m + d) * 2^e` with `d = 0`, or `0 < d < 1` when `sticky`. -/
structure Exact where
  neg : Bool
  m : Nat
  e : Int
  sticky : Bool
  deriving DecidableEq, Repr

/-- `x` on the grid of the format: the exponent of the grid, the part of the magnitude on it, the rest over 2^`shift`, and
`shift` (R197). -/
structure OnGrid where
  lsb : Int
  q : Nat
  rest : Nat
  shift : Nat
  deriving DecidableEq, Repr

def Fmt.grid (t : Fmt) (x : Exact) : OnGrid :=
  let top : Int := (Nat.log2 x.m : Int) + x.e
  let lsb := max (top - t.mb) t.minLsb
  let sh := lsb - x.e
  if sh ≤ 0 then { lsb := lsb, q := x.m * 2 ^ (-sh).toNat, rest := 0, shift := 0 }
  else { lsb := lsb, q := x.m / 2 ^ sh.toNat, rest := x.m % 2 ^ sh.toNat, shift := sh.toNat }

/-- The magnitude is rounded away from zero (R197). `away` is the decision of SR. -/
def roundUp (mode : Rnd) (neg away : Bool) (g : OnGrid) (sticky : Bool) : Bool :=
  let inexact := g.rest != 0 || sticky
  let twice := 2 * g.rest
  let unit := 2 ^ g.shift
  match mode with
  | .rne => unit < twice || (twice == unit && (sticky || g.q % 2 == 1) && g.shift != 0)
  | .rna => unit ≤ twice && g.shift != 0
  | .rtz => false
  | .rdn => neg && inexact
  | .rup => !neg && inexact
  | .sr => away

/-- `Round` of a nonzero real (R197 to R200): `flush` is flush mode, `away` the decision of SR (R222). -/
def Fmt.roundNonzero (t : Fmt) (x : Exact) (mode : Rnd) (sat flush away : Bool) : FRes :=
  let g := t.grid x
  let inexact := g.rest != 0 || x.sticky
  let y := if roundUp mode x.neg away g x.sticky then g.q + 1 else g.q
  if t.maxLsb < g.lsb || (g.lsb == t.maxLsb && t.maxSig < y) then
    let toMax := sat || (match mode with | .rtz => true | .rdn => !x.neg | .rup => x.neg | _ => false)
    { bits := if toMax then t.signed x.neg t.maxFinite else if t.ieee then t.signed x.neg t.inf else t.nan,
      flags := flagOf ||| flagNx }
  else if g.lsb == t.minLsb && y < 2 ^ t.mb then
    if flush then { bits := t.signed x.neg 0, flags := flagUf ||| flagNx }
    else { bits := t.signed x.neg y, flags := if inexact then flagUf ||| flagNx else 0 }
  else
    { bits := t.signed x.neg ((g.lsb + t.mb + t.bias).toNat * 2 ^ t.mb + (y - 2 ^ t.mb)),
      flags := if inexact then flagNx else 0 }

/-- `Round`: a zero takes sign `zneg` (R197, R207). -/
def Fmt.round (t : Fmt) (x : Exact) (zneg : Bool) (mode : Rnd) (sat flush away : Bool) : FRes :=
  if x.m = 0 ∧ !x.sticky then { bits := t.signed zneg 0, flags := 0 }
  else t.roundNonzero x mode sat flush away

/-- The canonical NaN, with or without nv. -/
def Fmt.nanRes (t : Fmt) (nv : Bool) : FRes := { bits := t.nan, flags := if nv then flagNv else 0 }

/-- An operand after flush mode: a subnormal is read as a zero of its sign (R200). -/
def Fmt.flushIn (t : Fmt) (flush : Bool) (x : Nat) : Nat :=
  if flush && x / 2 ^ t.mb % 2 ^ t.eb == 0 then x / t.signBit % 2 * t.signBit else x

def FVal.isNan : FVal → Bool
  | .nan _ => true
  | _ => false

def FVal.isSnan : FVal → Bool
  | .nan s => s
  | _ => false

def FVal.isNeg : FVal → Bool
  | .inf n => n
  | .fin n _ _ => n
  | .nan _ => false

def FVal.isZero : FVal → Bool
  | .fin _ m _ => m == 0
  | _ => false

/-- The signed significand of a finite value. -/
def sigInt (neg : Bool) (m : Nat) : Int := if neg then -(m : Int) else m

/-- An integer significand at exponent `e` as an exact real. -/
def Exact.ofInt (n : Int) (e : Int) : Exact := { neg := n < 0, m := n.natAbs, e := e, sticky := false }

/-- The exact sum of two finite values: integer significand and exponent. -/
def addFin (n1 : Int) (e1 : Int) (n2 : Int) (e2 : Int) : Int × Int :=
  let e := min e1 e2
  (n1 * 2 ^ (e1 - e).toNat + n2 * 2 ^ (e2 - e).toNat, e)

/-- The sign of a sum that is exactly zero (R207). -/
def zeroSumSign (neg1 neg2 : Bool) (bothZero : Bool) (mode : Rnd) : Bool :=
  if bothZero && neg1 == neg2 then neg1 else decide (mode = .rdn)

/-- The sum of two values that are no NaN (R205 to R207). -/
def Fmt.addVal (t : Fmt) (x y : FVal) (mode : Rnd) (flush : Bool) : FRes :=
  match x, y with
  | .inf a, .inf b => if a = b then { bits := t.signed a t.inf, flags := 0 } else t.nanRes true
  | .inf a, _ => { bits := t.signed a t.inf, flags := 0 }
  | _, .inf b => { bits := t.signed b t.inf, flags := 0 }
  | .fin a m e, .fin b n k =>
    let (z, ez) := addFin (sigInt a m) e (sigInt b n) k
    t.round (Exact.ofInt z ez) (zeroSumSign a b (m == 0 && n == 0) mode) mode false flush false
  | _, _ => t.nanRes false

/-- The negation of a value. -/
def FVal.neg : FVal → FVal
  | .inf a => .inf (!a)
  | .fin a m e => .fin (!a) m e
  | .nan s => .nan s

def Fmt.add (t : Fmt) (x y : Nat) (mode : Rnd) (flush : Bool) : FRes :=
  let a := t.decode (t.flushIn flush x)
  let b := t.decode (t.flushIn flush y)
  if a.isSnan || b.isSnan then t.nanRes true
  else if a.isNan || b.isNan then t.nanRes false
  else t.addVal a b mode flush

/-- A difference: the sum of `x` and of `y` with its sign reversed, whose zeros are those that R207 compares (R207; log entry 102). -/
def Fmt.sub (t : Fmt) (x y : Nat) (mode : Rnd) (flush : Bool) : FRes :=
  let a := t.decode (t.flushIn flush x)
  let b := t.decode (t.flushIn flush y)
  if a.isSnan || b.isSnan then t.nanRes true
  else if a.isNan || b.isNan then t.nanRes false
  else t.addVal a b.neg mode flush

/-- One factor is a zero and the other an infinity (R206). -/
def zeroTimesInf (a b : FVal) : Bool :=
  match a, b with
  | .inf _, .fin _ m _ => m == 0
  | .fin _ m _, .inf _ => m == 0
  | _, _ => false

/-- The product of two values that are no NaN and no zero times infinity. -/
def mulVal (a b : FVal) : FVal :=
  let s := a.isNeg != b.isNeg
  match a, b with
  | .fin _ m e, .fin _ n k => .fin s (m * n) (e + k)
  | _, _ => .inf s

def Fmt.mul (t : Fmt) (x y : Nat) (mode : Rnd) (flush : Bool) : FRes :=
  let a := t.decode (t.flushIn flush x)
  let b := t.decode (t.flushIn flush y)
  if a.isSnan || b.isSnan then t.nanRes true
  else if zeroTimesInf a b then t.nanRes true
  else if a.isNan || b.isNan then t.nanRes false
  else
    match mulVal a b with
    | .fin s m e => t.round { neg := s, m := m, e := e, sticky := false } s mode false flush false
    | .inf s => { bits := t.signed s t.inf, flags := 0 }
    | .nan _ => t.nanRes false

def Fmt.fma (t : Fmt) (x y z : Nat) (mode : Rnd) (flush : Bool) : FRes :=
  let a := t.decode (t.flushIn flush x)
  let b := t.decode (t.flushIn flush y)
  let c := t.decode (t.flushIn flush z)
  if a.isSnan || b.isSnan || c.isSnan then t.nanRes true
  else if zeroTimesInf a b then t.nanRes true
  else if a.isNan || b.isNan || c.isNan then t.nanRes false
  else t.addVal (mulVal a b) c mode flush

/-- The quotient of two finite nonzero significands to more bits than any format holds. -/
def divExact (neg : Bool) (m : Nat) (e : Int) (n : Nat) (k : Int) : Exact :=
  let q := m * 2 ^ 80 / n
  { neg := neg, m := q, e := e - k - 80, sticky := m * 2 ^ 80 % n != 0 }

def Fmt.div (t : Fmt) (x y : Nat) (mode : Rnd) (flush : Bool) : FRes :=
  let a := t.decode (t.flushIn flush x)
  let b := t.decode (t.flushIn flush y)
  let s := a.isNeg != b.isNeg
  if a.isSnan || b.isSnan then t.nanRes true
  else if a.isNan || b.isNan then t.nanRes false
  else
    match a, b with
    | .inf _, .inf _ => t.nanRes true
    | .inf _, _ => { bits := t.signed s t.inf, flags := 0 }
    | _, .inf _ => { bits := t.signed s 0, flags := 0 }
    | .fin _ m e, .fin _ n k =>
      if n = 0 then if m = 0 then t.nanRes true else { bits := t.signed s t.inf, flags := flagDz }
      else if m = 0 then { bits := t.signed s 0, flags := 0 }
      else t.round (divExact s m e n k) s mode false flush false
    | _, _ => t.nanRes false

/-- Halving of an integer interval for the square root: the greatest `r` in `[lo, hi)` with `r * r ≤ n`. -/
def sqrtSearch (n : Nat) : Nat → Nat → Nat → Nat
  | 0, lo, _ => lo
  | k + 1, lo, hi =>
    if hi ≤ lo + 1 then lo
    else
      let mid := (lo + hi) / 2
      if mid * mid ≤ n then sqrtSearch n k mid hi else sqrtSearch n k lo mid

/-- The integer square root of `n`. -/
def isqrt (n : Nat) : Nat := sqrtSearch n (Nat.log2 n + 2) 0 (2 ^ (Nat.log2 n / 2 + 1))

/-- The square root of a finite positive significand to more bits than any format holds. -/
def sqrtExact (m : Nat) (e : Int) : Exact :=
  let odd := e % 2 ≠ 0
  let m1 := if odd then 2 * m else m
  let e1 := if odd then e - 1 else e
  let n := m1 * 2 ^ 160
  let r := isqrt n
  { neg := false, m := r, e := e1 / 2 - 80, sticky := r * r != n }

def Fmt.sqrt (t : Fmt) (x : Nat) (mode : Rnd) (flush : Bool) : FRes :=
  match t.decode (t.flushIn flush x) with
  | .nan s => t.nanRes s
  | .inf true => t.nanRes true
  | .inf false => { bits := t.inf, flags := 0 }
  | .fin s m e =>
    if m = 0 then { bits := t.signed s 0, flags := 0 }
    else if s then t.nanRes true
    else t.round (sqrtExact m e) false mode false flush false

/-- Three-way comparison of two values that are no NaN: -1, 0 or 1; +0 equals -0. -/
def cmpVal (a b : FVal) : Int :=
  match a, b with
  | .inf x, .inf y => if x = y then 0 else if x then -1 else 1
  | .inf x, _ => if x then -1 else 1
  | _, .inf y => if y then 1 else -1
  | .fin s m e, .fin u n k =>
    let d := (addFin (sigInt s m) e (-(sigInt u n)) k).1
    if d < 0 then -1 else if d = 0 then 0 else 1
  | _, _ => 0

/-- A value is smaller, with -0 < +0 (R208). -/
def lessVal (a b : FVal) : Bool :=
  let c := cmpVal a b
  c == -1 || (c == 0 && a.isNeg && !b.isNeg)

/-- minimumNumber or maximumNumber (R208). -/
def Fmt.minMax (t : Fmt) (isMax : Bool) (x y : Nat) (flush : Bool) : FRes :=
  let x1 := t.flushIn flush x
  let y1 := t.flushIn flush y
  let a := t.decode x1
  let b := t.decode y1
  let fl := if a.isSnan || b.isSnan then flagNv else 0
  let r :=
    if a.isNan && b.isNan then t.nan
    else if a.isNan then y1
    else if b.isNan then x1
    else if (if isMax then lessVal a b else lessVal b a) then y1 else x1
  { bits := r, flags := fl }

/-- `cmp` of one element (R210). -/
def Fmt.cmp (t : Fmt) (cond : Nat) (x y : Nat) (flush : Bool) : FRes :=
  let a := t.decode (t.flushIn flush x)
  let b := t.decode (t.flushIn flush y)
  let un := a.isNan || b.isNan
  let c := cmpVal a b
  let v := match cond with
    | 0 => !un && c == 0
    | 1 => un || c != 0
    | 2 => !un && c == -1
    | 3 => !un && c != 1
    | 4 => !un && c == 1
    | 5 => !un && c != -1
    | 6 => un
    | _ => !un
  let nv := a.isSnan || b.isSnan || (un && 2 ≤ cond && cond ≤ 5)
  { bits := if v then 1 else 0, flags := if nv then flagNv else 0 }

/-- `class` of one element (R211). -/
def Fmt.classBits (t : Fmt) (x : Nat) : Nat :=
  match t.decode x with
  | .nan true => 2 ^ 8
  | .nan false => 2 ^ 9
  | .inf true => 1
  | .inf false => 2 ^ 7
  | .fin s m _ =>
    if m = 0 then if s then 2 ^ 3 else 2 ^ 4
    else if x / 2 ^ t.mb % 2 ^ t.eb = 0 then if s then 2 ^ 2 else 2 ^ 5
    else if s then 2 ^ 1 else 2 ^ 6

/-- Element `k` of a register, `w` bits wide (R121). -/
def elemOf (w : Nat) (x : Word) (k : Nat) : Nat := x.toNat / 2 ^ (w * k) % 2 ^ w

/-- A register from its elements of `w` bits, lowest first. -/
def ofElems (w : Nat) (es : List Nat) : Word :=
  BitVec.ofNat 32 (es.foldr (fun e acc => e % 2 ^ w + 2 ^ w * acc) 0)

/-- An operation on every element of a register of type `ty`, with the union of the flags (R122, R202). -/
def perElem (ty : Ty) (f : Nat → FRes) : Word × BitVec 5 :=
  let rs := (List.range ty.elems).map f
  (ofElems ty.bits (rs.map FRes.bits), rs.foldl (fun a r => a ||| r.flags) 0)

end Sys2Proof.Machine
end

