-- ==== Sys2Proof/Machine/Mem.lean ====
section
/-! DEFINITION. Sparse tables, bytes of memory in little-endian order (R5), the hub's registers, and the state-level writes
of memory with what every write does besides (R88, R294, R297). -/

namespace Sys2Proof

/-- The value of key `k`; 0 when it is not listed. -/
def Sparse.look {w : Nat} : Sparse w → Nat → BitVec w
  | [], _ => 0
  | (a, v) :: m, k => if a = k then v else Sparse.look m k

/-- The table with `k` listed as `v`, in order. -/
def Sparse.insert {w : Nat} (k : Nat) (v : BitVec w) : Sparse w → Sparse w
  | [] => [(k, v)]
  | (a, u) :: m => if k < a then (k, v) :: (a, u) :: m else if a = k then (k, v) :: m else (a, u) :: Sparse.insert k v m

/-- The table with `k` not listed. -/
def Sparse.drop {w : Nat} (m : Sparse w) (k : Nat) : Sparse w := m.filter (fun p => p.1 != k)

/-- The table in which `k` reads `v`: a value 0 is not listed. -/
def Sparse.put {w : Nat} (m : Sparse w) (k : Nat) (v : BitVec w) : Sparse w :=
  if v = 0 then m.drop k else Sparse.insert k v m

/-- The `n` bytes at `a` as one number, lowest address lowest. -/
def readLE (m : Sparse 8) (a : Nat) : Nat → Nat
  | 0 => 0
  | n + 1 => (m.look a).toNat + 256 * readLE m (a + 1) n

/-- The table with the low `n` bytes of `v` at `a`. -/
def writeLE (m : Sparse 8) (a : Nat) : Nat → Nat → Sparse 8
  | 0, _ => m
  | n + 1, v => writeLE (m.put a (BitVec.ofNat 8 v)) (a + 1) n (v / 256)

/-- The `n` bytes at `a`. -/
def readBytes (m : Sparse 8) (a n : Nat) : List Byte :=
  (List.range n).map (fun i => m.look (a + i))

/-- The table with `bs` at `a`. -/
def writeBytes (m : Sparse 8) (a : Nat) : List Byte → Sparse 8
  | [] => m
  | b :: bs => writeBytes (m.put a b) (a + 1) bs

/-- The table with the keys of `[a, a + n)` not listed. -/
def Sparse.clearRange {w : Nat} (m : Sparse w) (a n : Nat) : Sparse w :=
  m.filter (fun p => p.1 < a || a + n ≤ p.1)

/-- The listed entries of `[a, a + n)`, with keys from 0. -/
def Sparse.slice {w : Nat} (m : Sparse w) (a n : Nat) : Sparse w :=
  (m.filter (fun p => a ≤ p.1 && p.1 < a + n)).map (fun p => (p.1 - a, p.2))

/-- The table with `[a, a + n)` replaced by the entries of `t` at keys from 0. -/
def Sparse.paste {w : Nat} (m : Sparse w) (a n : Nat) (t : Sparse w) : Sparse w :=
  t.foldl (fun acc p => if p.1 < n then acc.put (a + p.1) p.2 else acc) (m.clearRange a n)

/-- Bytes of a number, lowest first. -/
def bytesLE (n v : Nat) : List Byte :=
  (List.range n).map (fun i => BitVec.ofNat 8 (v / 256 ^ i))

/-- The number of bytes, lowest first. -/
def ofBytesLE : List Byte → Nat
  | [] => 0
  | b :: bs => b.toNat + 256 * ofBytesLE bs

/-- Bits [hi:lo] of a number. -/
def bitsOf (v hi lo : Nat) : Nat := v / 2 ^ lo % 2 ^ (hi + 1 - lo)

namespace Machine

/-- The register of the hub at PF BAR0 offset `off` (R402). -/
def State.reg (s : State) (off : Nat) : Dword := s.regs.look off

def State.setReg (s : State) (off : Nat) (v : Dword) : State := { s with regs := s.regs.put off v }

/-- Register `off` of VF `vf`'s block (R404, R428). -/
def State.vfReg (s : State) (vf off : Nat) : Dword := s.reg (vfBase vf + off)

def State.setVfReg (s : State) (vf off : Nat) (v : Dword) : State := s.setReg (vfBase vf + off) v

/-- Register `off` of partition `p`'s block (R402). -/
def State.partReg (s : State) (p off : Nat) : Dword := s.reg (partBase p + off)

/-- Key of a context register in `State.cxRegs`. -/
def cxKey (vf ctx off : Nat) : Nat := (vf * 65536 + ctx) * 64 + (off - 0x100)

/-- Register `off` of the window of context `ctx` (R404). -/
def State.cxReg (s : State) (vf ctx off : Nat) : Dword := s.cxRegs.look (cxKey vf ctx off)

def State.setCxReg (s : State) (vf ctx off : Nat) (v : Dword) : State :=
  { s with cxRegs := s.cxRegs.put (cxKey vf ctx off) v }

/-- Sets bit `b` of vf.err (R404). -/
def State.vfErr (s : State) (vf b : Nat) : State :=
  s.setVfReg vf 0x004 (s.vfReg vf 0x004 ||| BitVec.ofNat 64 (2 ^ b))

/-- Current context of a VF (vf.cur). -/
def State.curCtx (s : State) (vf : Nat) : Nat := (s.vfReg vf 0x044).toNat % 65536

/-- The partition is enabled (p.ctl.en). -/
def State.partEnabled (s : State) (p : Nat) : Bool := (s.partReg p 0x000).getLsbD 0

/-- p.vf names VF `vf`. -/
def State.partHasVf (s : State) (p vf : Nat) : Bool :=
  let v := (s.partReg p 0x038).toNat
  let first := bitsOf v 14 8
  first ≤ vf && vf < first + bitsOf v 6 0

/-- The enabled partition that holds VF `vf`. -/
def State.partOf (s : State) (vf : Nat) : Option Nat :=
  (List.range 32).find? (fun p => s.partEnabled p && s.partHasVf p vf)

/-- Physical core `core` lies in a cluster of partition `p` (R22, R402). -/
def State.coreIn (s : State) (p core : Nat) : Bool := core < 256 && (s.partReg p 0x008).getLsbD (core / 4)

/-- c.lsbase as the programs of VF `vf` read it (R277, R402). -/
def State.lsBase (s : State) (vf : Nat) : Dword :=
  match s.partOf vf with
  | some p => s.partReg p 0x040
  | none => 0

/-- CXL memory is installed: some CXL port is present in c.caps (R27). -/
def State.hasCxl (s : State) : Bool := bitsOf (Config.caps s.part).toNat 15 12 != 0

/-- VS die `d` is present in c.caps. -/
def State.vsDie (s : State) (d : Nat) : Bool := (Config.caps s.part).getLsbD (20 + d)

/-- Some MX die is present in c.caps (R30). -/
def State.hasMx (s : State) : Bool := bitsOf (Config.caps s.part).toNat 19 16 != 0

/-- Hub cycles since reset: the hub runs at 2.0 GHz and the cores at 3.0 GHz (R16; log entry 60). -/
def State.hubTime (s : State) : Nat := s.now * 2 / 3

/-- Recovery mode of the fabric: m.fab bit 31 (R319, R419). -/
def State.recovery (s : State) : Bool := (s.reg 0x004).getLsbD 31

/-- The granules that `[pa, pa + n)` touches. -/
def granulesOf (pa n : Nat) : List Nat :=
  if n = 0 then [] else (List.range ((pa + n - 1) / 32 - pa / 32 + 1)).map (fun i => pa / 32 + i)

/-- The demoted lanes of a group (R87). -/
def Group.demoted (g : Group) : Mask := g.demos.foldl (fun m d => m ||| d.lanes) 0

/-- The demotions that satisfy `p` end: their lanes become eligible, and the count restarts from 0; a count of 64, whose demotion is still to be made,
stands (R88; log entry 32). -/
def Group.endDemotions (p : Demotion → Bool) (g : Group) : Group :=
  if g.demos.any p then
    { g with demos := g.demos.filter (fun d => !p d), spinCount := if 64 ≤ g.spinCount then g.spinCount else 0 }
  else g

/-- The demotion that a count of 64 has called for and that has not been made yet counts as made, and ends (R87, R88). -/
def Group.endPending (g : Group) : Group :=
  if 64 ≤ g.spinCount then { g with demotions := min 65535 (g.demotions + 1), watched := [], spinCount := 0 } else g

/-- Every demotion of the group ends, and the count restarts from 0 (R88, R89). -/
def Group.endDemotion (g : Group) : Group := { g.endPending with demos := [], watched := [], spinCount := 0 }

/-- A write performed to one of the granules `gs` ends the demotions that watch it (R88). -/
def Group.wake (gs : List Nat) (g : Group) : Group :=
  let g1 := if g.watched.any (fun w => gs.contains w) then g.endPending else g
  g1.endDemotions (fun d => d.watched.any (fun w => gs.contains w))

/-- A write performed to `[pa, pa + n)` ends the demotions that watch one of its granules. -/
def State.wake (s : State) (pa n : Nat) : State :=
  { s with groups := s.groups.map (Group.wake (granulesOf pa n)) }

/-- Writes the low `n` bytes of `v` at physical address `pa`. -/
def State.storeLE (s : State) (pa n v : Nat) : State :=
  { s with mem := writeLE s.mem pa n v }.wake pa n

/-- Writes bytes at physical address `pa`. -/
def State.storeBytes (s : State) (pa : Nat) (bs : List Byte) : State :=
  { s with mem := writeBytes s.mem pa bs }.wake pa bs.length

/-- Clears the poison of the granules that `[pa, pa + n)` covers whole (R297). -/
def State.unpoison (s : State) (pa n : Nat) : State :=
  { s with poison := s.poison.filter (fun p => !(pa ≤ 32 * p.1 && 32 * p.1 + 32 ≤ pa + n)) }

/-- Zeroes `[pa, pa + n)`, memory tags and poison included; nothing reads what stood there any more (R399). -/
def State.zeroMem (s : State) (pa n : Nat) : State :=
  { s with mem := s.mem.clearRange pa n, tags := s.tags.clearRange (pa / 32) ((n + 31) / 32),
           poison := s.poison.clearRange (pa / 32) ((n + 31) / 32),
           recent := s.recent.filter (fun e => !(e.pa < pa + n && pa < e.pa + e.old.length)) }

/-- Sets the memory tag of granule `g` (R294). -/
def State.setTag (s : State) (g : Nat) (t : BitVec 4) : State :=
  { s with tags := s.tags.put g t }.wake (32 * g) 32

/-- One granule of `[pa, pa + n)` is poisoned (R297). -/
def State.poisoned (s : State) (pa n : Nat) : Bool :=
  (granulesOf pa n).any (fun g => s.poison.look g != 0)

/-- Every granule of `[pa, pa + n)` carries tag `t` (R295). -/
def State.tagsMatch (s : State) (pa n : Nat) (t : BitVec 4) : Bool :=
  (granulesOf pa n).all (fun g => s.tags.look g == t)

/-- Physical address of a byte of core `core`'s slice. -/
def slicePa (core off : Nat) : Nat := Config.sliceBase + core * 2 ^ 20 + off

/-- Physical address of a byte of partition `p`'s allowance of die `die`'s die store (R401, R402). -/
def dieStorePa (die p off : Nat) : Nat := Config.dieStoreBase + die * 2 ^ 28 + p * 2 ^ 23 + off

/-- Where a location is homed (R299): a VS or MX die by its index, or the hub (log entry 30). -/
def homeDie (pa : Nat) : Option Nat :=
  if Config.dieStoreBase ≤ pa then some ((pa - Config.dieStoreBase) / 2 ^ 28)
  else if Config.sliceBase ≤ pa then some ((pa - Config.sliceBase) / 2 ^ 20 / 64)
  else if Config.cxlBase ≤ pa then none
  else some (pa / Config.towerBytes % 4)

/-- The byte lies in a slice or a die store. -/
def isSram (pa : Nat) : Bool := Config.sliceBase ≤ pa

/-- The next free 32-bit value (log entry 5). -/
def State.takeFree (s : State) : Word × State := (Config.freeWord s.fresh, { s with fresh := s.fresh + 1 })

/-- The next free choice (log entry 6). -/
def State.takeBit (s : State) : Bool × State := (Config.freeBit s.fresh, { s with fresh := s.fresh + 1 })

/-- The group in slot `slot` of core `core`. -/
def State.group? (s : State) (core slot : Nat) : Option Group :=
  s.groups.find? (fun g => g.core == core && g.slot == slot)

/-- Changes that group. -/
def State.updGroup (s : State) (core slot : Nat) (f : Group → Group) : State :=
  { s with groups := s.groups.map (fun g => if g.core = core ∧ g.slot = slot then f g else g) }

/-- The workgroup with identity `id`. -/
def State.wg? (s : State) (id : Nat) : Option Workgroup := s.wgs.find? (fun w => w.id == id)

def State.updWg (s : State) (id : Nat) (f : Workgroup → Workgroup) : State :=
  { s with wgs := s.wgs.map (fun w => if w.id = id then f w else w) }

/-- The name of the region of a context whose RCB is at `va`: the address, with the context number from bit 56 on (R449). A root, which is
the VF's, is named by its address alone (R100; log entry 75). -/
def regionName (ctx va : Nat) : Nat := ctx * 2 ^ 56 + va % 2 ^ 56

/-- The address of a region's RCB. -/
def Region.va (r : Region) : Nat := r.rcb % 2 ^ 56

/-- The region with the name `rcb` of VF `vf`. -/
def State.region? (s : State) (vf rcb : Nat) : Option Region :=
  s.regions.find? (fun r => r.vf == vf && r.rcb == rcb)

def State.updRegion (s : State) (vf rcb : Nat) (f : Region → Region) : State :=
  { s with regions := s.regions.map (fun r => if r.vf = vf ∧ r.rcb = rcb then f r else r) }

/-- The engine with number `n`, zeroed when it has not been used yet (R399). -/
def Engine.zero (n : Nat) : Engine :=
  { idx := n, holder := none, aside := none, bufs := List.range 16, tiles := [], fill := [],
    tdesc := [], obuf := [], resvs := [], acc := [], which := [], dirty := 0, accDirty := 0 }

def State.engine (s : State) (n : Nat) : Engine :=
  (s.engines.find? (fun e => e.idx == n)).getD (Engine.zero n)

/-- Replaces engine `e.idx`. -/
def State.putEngine (s : State) (e : Engine) : State :=
  { s with engines := e :: s.engines.filter (fun x => x.idx != e.idx) }

/-- Changes the saved groups that satisfy `p`, in every shadow slot and spill area. -/
def State.updSavedGroups (s : State) (p : Group → Bool) (f : Group → Group) : State :=
  { s with slots := s.slots.map (fun sl => { sl with wgs := sl.wgs.map (fun w =>
      { w with groups := w.groups.map (fun g => if p g then f g else g) }) }) }

/-- Changes the group that owns an asynchronous effect, where it runs or where it is saved; an effect for a group that
has ended is dropped (R398). -/
def State.toOwner (s : State) (core slot start : Nat) (f : Group → Group) : State :=
  let p := fun (g : Group) => g.core == core && g.slot == slot && g.start == start
  ({ s with groups := s.groups.map (fun g => if p g then f g else g) }).updSavedGroups p f

/-- ORs numeric flags into the owner's c.flags, and notes the cycle in which they come (R187, R398). -/
def State.flagsToOwner (s : State) (core slot start : Nat) (fl : BitVec 5) : State :=
  s.toOwner core slot start (fun g => { g with
    flags := g.flags ||| fl.setWidth 32, lateFlags := (if g.lateAt = s.now then g.lateFlags else 0) ||| fl.setWidth 32, lateAt := s.now })

/-- One acknowledgement for the owner's c.acks (R398). -/
def State.ackToOwner (s : State) (core slot start : Nat) : State :=
  s.toOwner core slot start (fun g => { g with acks := g.acks - 1 })

end Machine
end Sys2Proof
end

