-- ==== Sys2Proof/Machine/Walk.lean ====
section
/-! DEFINITION. Effective addresses, the walks of the two stages, and the frames of a partition (R227, R274, R288 to R291, R401). -/

namespace Sys2Proof.Machine

/-- The memory tag of an address (R274). -/
def addrTag (a : Dword) : BitVec 4 := a.extractLsb' 60 4

/-- `[a, a + n)` meets `[b, b + m)`. -/
def meets (a n b m : Nat) : Bool := a < b + m && b < a + n

/-- Bits [55:0] of an address. -/
def addrVa (a : Dword) : Nat := a.toNat % 2 ^ 56

/-- The address `x` moved by `o` bytes: bits [63:56] are those of `x`, and bits [55:0] the low bits of the sum (R227; log entry 25). -/
def addrPlus (x : Dword) (o : Int) : Dword :=
  x.extractLsb' 56 8 ++ BitVec.ofInt 56 ((addrVa x : Int) + o)

/-- Bits [59:56] of the pair are zero and the sum lies in 0 to 2^56 - 1 (R227). -/
def addrFormOk (x : Dword) (o : Int) : Bool :=
  x.extractLsb' 56 4 == 0 && 0 ≤ (addrVa x : Int) + o && (addrVa x : Int) + o < 2 ^ 56

/-- One level of a walk: the lowest va bit of its index, the index width, whether a leaf is allowed, and the alignment
bits of the table that an entry with leaf 0 names (R289). -/
structure Level where
  shift : Nat
  width : Nat
  leafOk : Bool
  last : Bool
  nextAlign : Nat
  deriving DecidableEq, Repr

def walkPlan : List Level := [
  { shift := 48, width := 8, leafOk := false, last := false, nextAlign := 12 },
  { shift := 39, width := 9, leafOk := false, last := false, nextAlign := 12 },
  { shift := 30, width := 9, leafOk := true, last := false, nextAlign := 12 },
  { shift := 21, width := 9, leafOk := true, last := false, nextAlign := 8 },
  { shift := 16, width := 5, leafOk := true, last := true, nextAlign := 0 }]

/-- A successful walk: the page frame, the bits of the page offset, the leaf's tier, whether every entry permits writes,
the physical addresses of the entries on the path, and that of the leaf. -/
structure Walked where
  frame : Nat
  bits : Nat
  tier : Nat
  write : Bool
  path : List Nat
  leafPa : Nat
  deriving DecidableEq, Repr

/-- The end of a walk. -/
inductive WalkResult where
  | ok (w : Walked)
  /-- a translation fault of stage two, or of stage one (R291) -/
  | fail (stage2 : Bool)
  /-- the page is in transit (R282) -/
  | transit
  /-- a table of stage one lies in the capacity page at guest physical address `gpa`, which is promoted first (R282) -/
  | fill (gpa : Nat)
  deriving DecidableEq, Repr

/-- Walks the levels `ls` from the table at `table`. `entryPa` gives the physical address of an entry with the entries
that its own translation passed (R288); `stage2` names the stage (log entry 29). -/
def walkLevels (m : Memory) (stage2 : Bool) (entryPa : Nat → WalkResult) :
    List Level → Nat → Nat → Bool → List Nat → WalkResult
  | [], _, _, _, _ => .fail stage2
  | l :: ls, table, va, wr, path =>
    let at8 := table + 8 * (va / 2 ^ l.shift % 2 ^ l.width)
    match entryPa at8 with
    | .fail b => .fail b
    | .transit => .transit
    | .fill a => .fill a
    | .ok w0 =>
      let pa := w0.frame + at8 % 2 ^ w0.bits
      let e := readLE m pa 8
      let leaf := bitsOf e 2 2 == 1
      let path' := path ++ w0.path ++ [pa]
      let wr' := wr && bitsOf e 3 3 == 1
      let tier := bitsOf e 7 6
      let frame := bitsOf e 55 8 * 256
      if bitsOf e 0 0 == 0 || bitsOf e 63 56 != 0 || bitsOf e 1 1 != 0 then .fail stage2
      else if leaf then
        if !l.leafOk || frame % 2 ^ l.shift != 0 || tier == 3 || (!stage2 && tier != 0) then .fail stage2
        else .ok { frame := frame, bits := l.shift, tier := tier, write := wr', path := path', leafPa := pa }
      else if l.last || tier != 0 || frame % 2 ^ l.nextAlign != 0 then .fail stage2
      else walkLevels m stage2 entryPa ls frame va wr' path'

/-- A physical address stands for itself. -/
def physical (a : Nat) : WalkResult :=
  .ok { frame := a, bits := 0, tier := 0, write := true, path := [], leafPa := 0 }

/-- The frame lies in a channel or in the CXL range of partition `p` (R401; log entry 34). -/
def State.frameIn (s : State) (p pa : Nat) : Bool :=
  if Config.cxlBase ≤ pa then
    let g := (pa - Config.cxlBase) / 2 ^ 30
    let b := bitsOf (s.partReg p 0x028).toNat 55 30
    b ≤ g && g < b + bitsOf (s.partReg p 0x030).toNat 13 0
  else
    let t := pa / Config.towerBytes
    let k := pa % Config.towerBytes / Config.channelBytes
    k < 16 && (if t < 4 then (s.partReg p 0x010).getLsbD (16 * t + k) else (s.partReg p 0x018).getLsbD (16 * (t - 4) + k))

/-- Bytes from the frame's start to the end of the module's device memory are all of one partition; a page is checked
by its first and last byte. -/
def State.pageIn (s : State) (p frame bits : Nat) : Bool :=
  s.frameIn p frame && s.frameIn p (frame + 2 ^ bits - 1)

/-- The tier engine is moving the page of the stage-two leaf at `leaf` (R282, R411). -/
def State.moving (s : State) (leaf : Nat) : Bool := s.moves.any (fun mv => mv.leaf == leaf)

/-- Stage two: a guest physical address of VF `vf` to a module physical address (R288 to R291, R401). With `through`, a page in transit
reads where it still stands: nothing writes it before its move ends (R282). -/
def State.stageTwoAs (s : State) (through : Bool) (vf gpa : Nat) (write : Bool) : WalkResult :=
  match walkLevels s.mem true physical walkPlan (bitsOf (s.vfReg vf 0x010).toNat 55 11 * 2048) gpa true [] with
  | .ok w =>
    let inPart := match s.partOf vf with | some p => s.pageIn p w.frame w.bits | none => false
    if w.tier == 2 && !s.moving w.leafPa then .fail true
    else if w.tier == 2 && !through then .transit
    else if !inPart || (write && !w.write) || (w.tier == 1 && !s.hasCxl) then .fail true
    else .ok w
  | r => r

/-- Stage two for an access that waits for a page in transit. -/
def State.stageTwo (s : State) (vf gpa : Nat) (write : Bool) : WalkResult := s.stageTwoAs false vf gpa write

end Sys2Proof.Machine
end

