-- ==== Sys2Proof/Machine/Frames.lean ====
section
/-! DEFINITION. Page tables as lists of leaves, the frames of a partition, who holds them, and the start of a page's move (R282, R289, R290,
R404, R410 to R412). -/

namespace Sys2Proof.Machine

/-- A leaf of a page table: the address that it maps, the bits of its page offset, the place of its entry, its frame, and the bits that
the tier engine reads (R290). -/
structure Leaf where
  base : Nat
  bits : Nat
  pa : Nat
  frame : Nat
  tier : Nat
  touched : Bool
  dirty : Bool
  deriving DecidableEq, Repr

/-- The leaf that the entry `e` at `pa` is. -/
def Leaf.ofEntry (base bits pa e : Nat) : Leaf :=
  { base := base, bits := bits, pa := pa, frame := bitsOf e 55 8 * 256, tier := bitsOf e 7 6, touched := bitsOf e 4 4 == 1,
    dirty := bitsOf e 5 5 == 1 }

/-- The leaves below the table at `table`, which maps the addresses from `base` on; `tablePa` places a table, which never crosses a
64 KiB page (R289). -/
def leavesFrom (m : Memory) (tablePa : Nat → Option Nat) : List Level → Nat → Nat → List Leaf
  | [], _, _ => []
  | l :: ls, table, base =>
    match tablePa table with
    | none => []
    | some at0 =>
      (List.range (2 ^ l.width)).flatMap (fun i =>
        if !(m.look (at0 + 8 * i)).getLsbD 0 then []
        else
          let e := readLE m (at0 + 8 * i) 8
          if bitsOf e 2 2 = 1 then [Leaf.ofEntry (base + i * 2 ^ l.shift) l.shift (at0 + 8 * i) e]
          else if l.last then []
          else leavesFrom m tablePa ls (bitsOf e 55 8 * 256) (base + i * 2 ^ l.shift))

/-- The tables at and below the table at `table`, with their sizes (R289). -/
def tablesFrom (m : Memory) : List Level → Nat → List (Nat × Nat)
  | [], _ => []
  | l :: ls, table =>
    (table, 8 * 2 ^ l.width) :: (List.range (2 ^ l.width)).flatMap (fun i =>
      let e := readLE m (table + 8 * i) 8
      if !(m.look (table + 8 * i)).getLsbD 0 then []
      else if bitsOf e 2 2 = 1 ∨ l.last then [] else tablesFrom m ls (bitsOf e 55 8 * 256))

/-- The stage-two root table of a VF; none while vf.s2 is 0. -/
def State.s2Root (s : State) (vf : Nat) : Nat := bitsOf (s.vfReg vf 0x010).toNat 55 11 * 2048

/-- The frame of a leaf is one that the VF's partition may name: a leaf that names another is a translation fault to every access, and nothing to the
tier engine (R401). -/
def State.leafIn (s : State) (vf : Nat) (l : Leaf) : Bool :=
  match s.partOf vf with
  | some p => s.pageIn p l.frame l.bits
  | none => false

/-- The stage-two leaves of a VF. -/
def State.s2Leaves (s : State) (vf : Nat) : List Leaf :=
  if s.s2Root vf = 0 then [] else (leavesFrom s.mem some walkPlan (s.s2Root vf) 0).filter (s.leafIn vf)

/-- The physical address of a guest physical address, whatever the tier of its page. -/
def State.gpaPlace (s : State) (vf gpa : Nat) : Option Nat :=
  match s.stageTwoAs true vf gpa false with
  | .ok w => some (w.frame + gpa % 2 ^ w.bits)
  | _ => none

/-- The stage-one leaves of a context. -/
def State.s1Leaves (s : State) (vf ctx : Nat) : List Leaf :=
  let root := bitsOf (s.cxReg vf ctx 0x108).toNat 55 11 * 2048
  if root = 0 then [] else leavesFrom s.mem (s.gpaPlace vf) walkPlan root 0

/-- The stage-two leaf that maps a guest physical address, in any tier. -/
def State.s2Leaf (s : State) (vf gpa : Nat) : Option Leaf :=
  match walkLevels s.mem true physical walkPlan (s.s2Root vf) gpa true [] with
  | .ok w =>
    let l := Leaf.ofEntry (gpa / 2 ^ w.bits * 2 ^ w.bits) w.bits w.leafPa (readLE s.mem w.leafPa 8)
    if s.leafIn vf l then some l else none
  | _ => none

/-- The VFs of a partition (R402). -/
def State.vfsOf (s : State) (p : Nat) : List Nat := (List.range 64).filter (s.partHasVf p)

/-- The ranges of device memory of a partition that are not free: framed pages, stage-two tables, frames that moves and remembered
pages use (R412). -/
def State.heldRanges (s : State) (p : Nat) : List (Nat × Nat) :=
  (s.vfsOf p).flatMap (fun v =>
    (s.s2Leaves v).map (fun l => (l.frame, 2 ^ l.bits)) ++
      (if s.s2Root v = 0 then [] else tablesFrom s.mem walkPlan (s.s2Root v))) ++
    s.moves.flatMap (fun m => [(m.src, 2 ^ m.bits), (m.dst, 2 ^ m.bits)]) ++ s.tierPages.map (fun t => (t.cxl, 2 ^ t.bits))

/-- Channel `k` of tower `t` belongs to the partition, passed its test, and its die is online (R402, R416, R418). -/
def State.channelUsable (s : State) (p t k : Nat) : Bool :=
  s.frameIn p (t * Config.towerBytes + k * Config.channelBytes) && !s.fencedChans.contains (t * 16 + k) &&
    bitsOf (s.reg 0x104).toNat (4 * (t % 4) + 3) (4 * (t % 4)) == 0

/-- The channels of a partition, as ranges. -/
def State.towerRanges (s : State) (p : Nat) : List (Nat × Nat) :=
  (List.range 8).flatMap (fun t => ((List.range 16).filter (s.channelUsable p t)).map (fun k =>
    (t * Config.towerBytes + k * Config.channelBytes, Config.channelBytes)))

/-- The CXL range of a partition. -/
def State.cxlRange (s : State) (p : Nat) : List (Nat × Nat) :=
  [(Config.cxlBase + bitsOf (s.partReg p 0x028).toNat 55 30 * 2 ^ 30, bitsOf (s.partReg p 0x030).toNat 13 0 * 2 ^ 30)]

/-- The least multiple of `n` from `a` on. -/
def alignUp (a n : Nat) : Nat := (a + n - 1) / n * n

/-- The lowest place for `size` bytes, aligned to `step`, in one of the ranges `pool` and outside the ranges `held`. -/
def lowestFree (pool held : List (Nat × Nat)) (size step : Nat) : Option Nat :=
  ((pool.map (fun p => alignUp p.1 step) ++ held.map (fun h => alignUp (h.1 + h.2) step)).filter (fun a =>
    pool.any (fun p => p.1 ≤ a && a + size ≤ p.1 + p.2) && held.all (fun h => !meets a size h.1 h.2))).min?

/-- A free fast-tier frame for a page of `2 ^ bits` bytes: frames are of 2 MiB (R412). -/
def State.freeFrame (s : State) (p bits : Nat) : Option Nat :=
  lowestFree (s.towerRanges p) (s.heldRanges p) (max (2 ^ bits) (2 ^ 21)) (max (2 ^ bits) (2 ^ 21))

/-- A free frame in the CXL range. -/
def State.freeCxl (s : State) (p bits : Nat) : Option Nat :=
  lowestFree (s.cxlRange p) (s.heldRanges p) (2 ^ bits) (2 ^ bits)

/-- What the tier engine knows of the page of a leaf. -/
def State.tierPage? (s : State) (vf : Nat) (l : Leaf) : Option TierPage :=
  s.tierPages.find? (fun t => t.vf == vf && t.gpa == l.base)

/-- A page lies in CXL memory. -/
def inCxl (pa : Nat) : Bool := Config.cxlBase ≤ pa

/-- The 2 MiB frames that a page of `2 ^ bits` bytes takes (R412). -/
def frameCount (bits : Nat) : Nat := max 1 (2 ^ bits / 2 ^ 21)

/-- Contexts of a VF that have a register set. -/
def State.ctxsOf (s : State) (vf : Nat) : List Nat :=
  ((s.cxRegs.filter (fun p => p.1 / 64 / 65536 == vf)).map (fun p => p.1 / 64 % 65536)).eraseDups

/-- A context's stage one reaches the page of a stage-two leaf. -/
def State.ctxMaps (s : State) (vf ctx : Nat) (l : Leaf) : Bool :=
  (s.s1Leaves vf ctx).any (fun k => meets k.frame (2 ^ k.bits) l.base (2 ^ l.bits))

/-- The context that holds the fast-tier frame of a page: the one that the tier engine promoted it for, and else the first context that maps
it (R412; log entry 88). -/
def State.holderOf (s : State) (vf : Nat) (l : Leaf) : Option Nat :=
  match s.tierPage? vf l with
  | some t => t.holder
  | none => (s.ctxsOf vf).find? (fun c => s.ctxMaps vf c l)

/-- The fast-tier leaves of a VF whose frames a context holds. -/
def State.fastLeaves (s : State) (vf ctx : Nat) : List Leaf :=
  (s.s2Leaves vf).filter (fun l => l.tier == 0 && s.holderOf vf l == some ctx)

/-- Frames of 2 MiB that a context holds, those of its moves under way among them (R412). -/
def State.framesHeld (s : State) (vf ctx : Nat) : Nat :=
  ((s.fastLeaves vf ctx).map (fun l => frameCount l.bits)).sum +
    ((s.moves.filter (fun m => m.vf == vf && m.ctx == ctx)).map (fun m => frameCount m.bits)).sum

/-- cx.frames: F, the fast-tier frames allotted to a context (R404). -/
def State.framesOf (s : State) (vf ctx : Nat) : Nat := (s.cxReg vf ctx 0x118).toNat

/-- When the workgroups of a context were saved; 0 where it has none. -/
def State.savedAt (s : State) (vf ctx : Nat) : Nat :=
  ((s.slots.filter (fun x => x.vf == vf && x.ctx == ctx)).map (fun x => x.savedAt)).foldl max 0

/-- The contexts of a partition that are saved: those that are not their VF's current ones, and the current one of a VF that is stopped (R404,
R409). -/
def State.savedCtxs (s : State) (p : Nat) : List (Nat × Nat) :=
  (s.vfsOf p).flatMap (fun v => ((s.ctxsOf v).filter (fun c => c != s.curCtx v || s.stoppedVfs.contains v)).map (fun c => (v, c)))

/-- The frame in the CXL range for a page: the one that it has, or a free one (R411; log entry 88). -/
def State.cxlFor (s : State) (p vf : Nat) (l : Leaf) : Option Nat :=
  if !s.hasCxl then none
  else match s.tierPage? vf l with
    | some t => some t.cxl
    | none => s.freeCxl p l.bits

/-- A fast-tier page of the saved context that was saved earliest among those that hold frames: the one that goes when the pool is empty
(R412). -/
def State.victim (s : State) (p : Nat) : Option (Nat × Nat × Leaf) :=
  let held := (s.savedCtxs p).filterMap (fun x =>
    ((s.fastLeaves x.1 x.2).find? (fun l => (s.cxlFor p x.1 l).isSome)).map (fun l => (x.1, x.2, l)))
  held.find? (fun x => held.all (fun y => s.savedAt x.1 x.2.1 ≤ s.savedAt y.1 y.2.1))

/-- A frame of the partition's pool is being freed. -/
def State.freeing (s : State) (p : Nat) : Bool := s.moves.any (fun m => !m.up && inCxl m.dst && s.partOf m.vf == some p)

/-- The context has a free fast-tier frame for a page of `2 ^ bits` bytes: it stays within F, and the pool has a frame, one is being freed, or a saved
context's can be freed (R282, R412). -/
def State.hasFrame (s : State) (p vf ctx bits : Nat) : Bool :=
  s.framesHeld vf ctx + frameCount bits ≤ s.framesOf vf ctx && ((s.freeFrame p bits).isSome || s.freeing p || (s.victim p).isSome)

/-- An access of the context to the capacity page at `gpa` waits for its promotion (R282). -/
def State.canFill (s : State) (vf ctx gpa : Nat) : Bool :=
  match s.partOf vf, s.s2Leaf vf gpa with
  | some p, some l => l.tier == 1 && s.hasFrame p vf ctx l.bits
  | _, _ => false

/-- A stage-two leaf with a new tier and frame. -/
def setLeaf (m : Memory) (pa tier frame : Nat) : Memory :=
  let e := readLE m pa 8
  writeLE m pa 8 (bitsOf e 63 56 * 2 ^ 56 + frame / 256 * 256 + tier * 64 + e % 64)

/-- Every TLB drops the entries of the guest physical page (R407, R411). -/
def State.dropPage (s : State) (vf gpa bits : Nat) : State :=
  { s with tlb := s.tlb.filter (fun e => !(e.vf == vf && meets e.gpa (2 ^ e.bits) gpa (2 ^ bits))) }

/-- cx.tier of a context: frames held, saturating, whether promotions run, and whether write-downs do (R404). -/
def State.tierWord (s : State) (vf ctx : Nat) : Dword :=
  let mine := s.moves.filter (fun m => m.vf == vf && m.ctx == ctx)
  BitVec.ofNat 64 (min 65535 (s.framesHeld vf ctx) * 2 ^ 16 + (if mine.any (fun m => m.up) then 2 else 0) +
    (if mine.any (fun m => !m.up && inCxl m.dst) then 1 else 0))

/-- The tier engine starts to move the page of a leaf, with `ctx` the holder of its fast-tier frame: the leaf reads tier 2 (R282, R411). -/
def State.startMove (s : State) (vf ctx : Nat) (l : Leaf) (dst : Nat) (up : Bool) : State :=
  let mv : PageMove := { id := s.seq, vf := vf, ctx := ctx, gpa := l.base, bits := l.bits, leaf := l.pa, src := l.frame, dst := dst, up := up }
  { s with
    mem := setLeaf s.mem l.pa 2 l.frame, moves := s.moves ++ [mv], seq := s.seq + 1,
    fills := s.fills.filter (fun f => !(f.1 == vf && f.2.2 == l.base)), downs := s.downs.filter (fun d => !(d.1 == vf && d.2.2 == l.base)) }.dropPage vf l.base l.bits

/-- The tier engine frees a frame of the saved context saved earliest, where none is being freed (R412). -/
def State.freeVictim (s : State) (p : Nat) : State :=
  if s.freeing p then s
  else
    match s.victim p with
    | some (v, c, y) =>
      match s.cxlFor p v y with
      | some dst => s.startMove v c y dst false
      | none => s
    | none => s

/-- The tier engine promotes the page at `gpa` for a context within F: into a free frame; where the pool is empty it first frees a frame, and the
promotion stands by until then (R282, R411, R412). -/
def State.startFill (s : State) (vf ctx gpa : Nat) : State :=
  match s.partOf vf, s.s2Leaf vf gpa with
  | some p, some l =>
    if l.tier != 1 || !s.hasFrame p vf ctx l.bits then s
    else
      match s.freeFrame p l.bits with
      | some dst => s.startMove vf ctx l dst true
      | none =>
        { s with fills := if s.fills.contains (vf, ctx, l.base) then s.fills else s.fills ++ [(vf, ctx, l.base)] }.freeVictim p
  | _, _ => s

/-- A frame may have become free: the promotions that stand by are tried again, oldest first, ahead of any other (R411). -/
def State.serveFills (s : State) : State :=
  s.fills.foldl (fun s f => { s with fills := s.fills.filter (fun x => x != f) }.startFill f.1 f.2.1 f.2.2) s

/-- A promotion of a partition for which an access waits stands by for a frame (R411). -/
def State.fillWaits (s : State) (p : Nat) : Bool := s.fills.any (fun f => s.partOf f.1 == some p)

/-- The agent whose access this is waits: the step in which it stands is not made (R282, R413). -/
def State.hold (s : State) : State := { s with held := true }

/-- It waits for the promotion of the capacity page at `gpa` of a context (R282). -/
def State.holdFill (s : State) (vf ctx gpa : Nat) : State := { s with held := true, wants := some (vf, ctx, gpa) }

/-- The state after a step: a step in which an access had to wait is not made; what it waits for goes on, and a promotion that it calls for
starts (R282). -/
def State.orWait (t s : State) : State :=
  if t.held then
    match t.wants with
    | some (vf, ctx, gpa) => s.startFill vf ctx gpa
    | none => s
  else t

end Sys2Proof.Machine
end

