-- ==== Sys2Proof/Machine/Translate.lean ====
section
/-! DEFINITION. Where an address leads: the flat window, the spaces, device memory with its tiers and its cached translations, peers, protected
bytes, and the dirty log (R234, R274 to R292, R317, R401, R413). -/

namespace Sys2Proof.Machine

/-- Sets the touch bit of the entries on a path, and the dirty bit of a leaf when the access writes (R290). -/
def markEntry (m : Memory) (bit : Nat) (pa : Nat) : Memory :=
  let e := readLE m pa 1
  if e / 2 ^ bit % 2 = 1 then m else writeLE m pa 1 (e + 2 ^ bit)

/-- The touch bits of the entries on a path. -/
def markPath (m : Memory) (path : List Nat) : Memory := path.foldl (fun m pa => markEntry m 4 pa) m

/-- The dirty bits of leaves. -/
def markLeaves (m : Memory) (leaves : List Nat) : Memory := leaves.foldl (fun m pa => markEntry m 5 pa) m

/-- Where a virtual address leads. -/
inductive Place where
  /-- the physical address, the guest physical 64 KiB page of device memory, the entries to touch, and the leaves to
  mark dirty -/
  | ok (pa : Nat) (gpage : Option Nat) (path leaves : List Nat)
  | fail (cls : FaultClass) (stage2 : Bool)
  /-- in the allocation range of an absent peer (R317) -/
  | absent
  /-- in a page in transit, or a write that waits for a slot of the full dirty log (R282, R413) -/
  | transit
  /-- in the capacity page at guest physical address `gpa`, which the tier engine promotes first (R282) -/
  | fill (gpa : Nat)
  deriving DecidableEq, Repr

/-- Stage two of the reads that a walk of stage one makes of its tables: a table in the capacity tier is promoted where its context has a free
fast-tier frame (R282, R288). -/
def State.tableAt (s : State) (through : Bool) (vf ctx gpa : Nat) : WalkResult :=
  match s.stageTwoAs through vf gpa false with
  | .ok w => if w.tier == 1 && !through && s.canFill vf ctx gpa then .fill gpa else .ok w
  | r => r

/-- Stage one of a context, each of whose table reads stage two translates (R288; log entry 59). -/
def State.stageOne (s : State) (through : Bool) (vf ctx va : Nat) : WalkResult :=
  walkLevels s.mem false (s.tableAt through vf ctx) walkPlan (bitsOf (s.cxReg vf ctx 0x108).toNat 55 11 * 2048) va true []

/-- Device memory: stage one, then stage two (R288; log entry 59). A page in the capacity tier is promoted where its context has a free fast-tier
frame, and else served in place (R282). With `through`, a page in transit or in the capacity tier reads where it stands. -/
def State.placeDeviceAs (s : State) (through : Bool) (vf ctx va : Nat) (write : Bool) : Place :=
  match s.stageOne through vf ctx va with
  | .fail b => .fail .translation b
  | .transit => .transit
  | .fill a => .fill a
  | .ok w1 =>
    if write && !w1.write then .fail .translation false
    else
      let gpa := w1.frame + va % 2 ^ w1.bits
      match s.stageTwoAs through vf gpa write with
      | .fail b => .fail .translation b
      | .transit => .transit
      | .fill a => .fill a
      | .ok w2 =>
        if w2.tier == 1 && !through && s.canFill vf ctx gpa then .fill gpa
        else .ok (w2.frame + gpa % 2 ^ w2.bits) (some (gpa / 65536)) (w1.path ++ w2.path) [w1.leafPa, w2.leafPa]

/-- Device memory as an access reaches it (R282, R288). -/
def State.placeDevice (s : State) (vf ctx va : Nat) (write : Bool) : Place := s.placeDeviceAs false vf ctx va write

/-- The va lies in the flat window (R275). -/
def State.inWindow (s : State) (vf va : Nat) : Bool :=
  let b := (s.lsBase vf).toNat
  b ≤ va && va < b + 2 ^ 28

/-- The physical address of a window va, were its byte backed: core and offset of its stride (R277). -/
def State.windowPa (s : State) (vf va : Nat) : Nat := slicePa 0 (va - (s.lsBase vf).toNat)

/-- A workgroup's range holds offset `off` of core `core`. -/
def Workgroup.covers (w : Workgroup) (core off : Nat) : Bool :=
  !w.ended && w.core == core && w.allocOff ≤ off && off < w.allocOff + w.allocSize

/-- The flat window: a running peer's range, an absent or departed peer's, or the hole (R277, R317). -/
def State.placeWindow (s : State) (vf ctx va : Nat) : Place :=
  let o := va - (s.lsBase vf).toNat
  let core := o / 2 ^ 20
  let off := o % 2 ^ 20
  let mine := fun (w : Workgroup) => w.vf == vf && w.ctx == ctx && w.covers core off
  match s.wgs.find? (fun w => mine w && !w.saved) with
  | some w => if w.started then .ok (slicePa core off) none [] [] else .absent
  | none =>
    if s.wgs.any (fun w => mine w && w.saved) then .absent
    else if s.departed.any mine then .fail .peerGone false
    else .fail .translation false

/-- A generic address (R275; log entry 77). -/
def State.placeGeneric (s : State) (vf ctx va : Nat) (write : Bool) : Place :=
  if s.inWindow vf va then s.placeWindow vf ctx va else s.placeDevice vf ctx va write

/-- Bits of cx.ds: base, shadow and size in 64 KiB units (R404). -/
def State.dsShare (s : State) (vf ctx : Nat) : Nat × Nat × Nat :=
  let v := (s.cxReg vf ctx 0x120).toNat
  (bitsOf v 23 16, bitsOf v 15 8, bitsOf v 7 0)

/-- Offset of the first byte of lane `lane`'s private area in the allocation (R278). -/
def privOff (lstore priv grp lane : Nat) : Nat := (lstore + 7) / 8 * 8 + priv * (32 * grp + lane)

/-- Physical address of the allocation of a workgroup. -/
def Workgroup.pa (w : Workgroup) : Nat := slicePa w.core w.allocOff

/-- The depth of a lane (R46). -/
def Lane.depth (l : Lane) : Nat := (l.pos.extractLsb' 24 7).toNat

/-- The parcel index of a lane. -/
def Lane.parcel (l : Lane) : Nat := (l.pos.extractLsb' 0 24).toNat

/-- The position word of a depth and a parcel (R46). -/
def posWord (depth parcel : Nat) : Word := 0#1 ++ BitVec.ofNat 7 depth ++ BitVec.ofNat 24 parcel

/-- Bytes at the start of the private area that are protected: the live frames, and during an episode the trap frame
and the record copy as well (R49, R387; log entry 26). -/
def Lane.liveBytes (l : Lane) : Nat :=
  match l.life with
  | .retired => 0
  | _ => l.frameBase + 8 * l.depth

/-- The groups of a workgroup, where it runs or where it is saved. -/
def State.membersOf (s : State) (w : Workgroup) : List Group :=
  if w.saved then s.slots.flatMap (fun sl => (sl.wgs.filter (fun x => x.wg.id == w.id)).flatMap (fun x => x.groups))
  else s.groups.filter (fun g => g.wg == w.id)

/-- The live frames of a group of workgroup `w`, and the live barrier objects of `w`, as physical ranges (R49). -/
def Group.frames (w : Workgroup) (lstore priv : Nat) (g : Group) : List (Nat × Nat) :=
  ((List.range 32).zip g.lanes).filterMap (fun x =>
    if x.2.liveBytes = 0 then none else some (w.pa + privOff lstore priv g.grp x.1, x.2.liveBytes))

def State.protectedOf (s : State) (w : Workgroup) : List (Nat × Nat) :=
  w.bars.map (fun b => (b.pa, 16)) ++
    (match s.region? w.vf w.rcb with
     | some r => (s.membersOf w).flatMap (Group.frames w r.eff.lstore r.eff.priv)
     | none => [])

/-- The window addresses that workgroup `w` has lead to it: it runs, or it is absent and no running workgroup of its context has the range (R317). -/
def State.answersFor (s : State) (w : Workgroup) (pa n : Nat) : Bool :=
  !w.ended && (!w.saved || !s.wgs.any (fun x => x.vf == w.vf && x.ctx == w.ctx && !x.saved && !x.ended && meets pa n x.pa x.allocSize))

/-- `[pa, pa + n)`, as the context names it, meets a protected byte: a live frame or a live barrier object of one of the context's workgroups, an
absent one's among them, or a live die barrier (R49). -/
def State.isProtected (s : State) (vf ctx pa n : Nat) : Bool :=
  isSram pa &&
    (s.dieBars.any (fun b => meets pa n b.pa 16) ||
     s.wgs.any (fun w => w.vf == vf && w.ctx == ctx && meets pa n w.pa w.allocSize &&
       (s.protectedOf w).any (fun x => meets pa n x.1 x.2 && s.answersFor w x.1 x.2)))

/-- Tag checking is enabled for the context (cx.ctl.tag, R295). -/
def State.tagChecking (s : State) (vf ctx : Nat) : Bool := (s.cxReg vf ctx 0x100).getLsbD 1

/-- cx.ctl.ovr, read by the context's groups as c.mdef.ovr (R132, R404). -/
def State.ovr (s : State) (vf ctx : Nat) : Bool := (s.cxReg vf ctx 0x100).getLsbD 2

/-- The log indices run from 0 to 2 * 2^n - 1; fill is (w - r) modulo 2 * 2^n (R413). -/
def logFill (n w r : Nat) : Nat := (w + 2 * 2 ^ n * 2 - r % (2 * 2 ^ n)) % (2 * 2 ^ n)

/-- The log is full (R413). -/
def logFull (n w r : Nat) : Bool := 2 * 2 ^ n ≤ r || 2 ^ n ≤ logFill n w r

/-- The next index of a log. -/
def logNext (n w : Nat) : Nat := (w + 1) % (2 * 2 ^ n)

/-- Dirty logging is on for the VF (vf.logc.en). -/
def State.logging (s : State) (vf : Nat) : Bool := (s.vfReg vf 0x034).getLsbD 0

/-- Size exponent n, write index and read index of the dirty log. -/
def State.dirtyLog (s : State) (vf : Nat) : Nat × Nat × Nat :=
  (bitsOf (s.vfReg vf 0x030).toNat 4 0, (s.vfReg vf 0x038).toNat, (s.vfReg vf 0x03C).toNat)

def State.dirtyLogFull (s : State) (vf : Nat) : Bool :=
  let (n, w, r) := s.dirtyLog vf
  logFull n w r

/-- A place names the same bytes of device memory as another, or they are refused alike. -/
def Place.same (p q : Place) : Bool :=
  match p, q with
  | .ok a g _ _, .ok b h _ _ => a == b && g == h
  | .fail _ _, .fail _ _ => true
  | .ok .., .fail .. => false
  | .fail .., .ok .. => false
  | _, _ => true

/-- What a cached translation says of a guest physical address in its page. -/
def TlbEntry.gpaPlace (e : TlbEntry) (gpa : Nat) : Place := .ok (e.frame + (gpa - e.gpa)) (some (gpa / 65536)) [] []

/-- Stage two for the areas that a VF names by guest physical addresses: a page in the capacity tier is promoted where the VF's current context has a
free fast-tier frame (R282). With `through`, a page in transit or in the capacity tier reads where it stands. Where the tables have changed under a
cached translation, each access uses the old entry or the new one (R292; log entry 6). -/
def State.placeGpa (s : State) (through : Bool) (vf gpa : Nat) (write : Bool) : Place :=
  let p := match s.stageTwoAs through vf gpa write with
    | .ok w =>
      if w.tier == 1 && !through && s.canFill vf (s.curCtx vf) gpa then .fill gpa
      else .ok (w.frame + gpa % 2 ^ w.bits) (some (gpa / 65536)) w.path [w.leafPa]
    | .fail b => .fail .translation b
    | .transit => .transit
    | .fill a => .fill a
  match s.tlb.find? (fun e => e.vf == vf && e.gpa ≤ gpa && gpa < e.gpa + 2 ^ e.bits && (e.write || !write)) with
  | some e => if (e.gpaPlace gpa).same p || !Config.freeOld s.fresh (2 ^ 119 + 2 * gpa + write.toNat) then p else e.gpaPlace gpa
  | none => p

/-- Logs a write to guest page `gpage` of VF `vf`: the entry at slot w mod 2^n of the log, and the write index after it. While the log is full, or
its own page in transit, the write waits (R282, R413). A write that the VF performs while it is not logging, between a failed programming and the
halt, makes the log incomplete; and so does one whose entry has no place any more, the log's page having lost its frame since its check (R413, R414;
log entry 14). -/
def State.logDirty (s : State) (vf gpage : Nat) : State :=
  if s.logging vf && s.dirtyLogFull vf then s.hold
  else if s.logging vf then
    let (n, w, _) := s.dirtyLog vf
    match s.placeGpa false vf ((s.vfReg vf 0x028).toNat + 8 * (w % 2 ^ n)) true with
    | .ok pa _ path leaves =>
      (({ s with mem := markLeaves (markPath s.mem path) leaves }).storeLE pa 8 (gpage % 2 ^ 40 * 65536)).setVfReg vf 0x038
        (BitVec.ofNat 64 (logNext n w))
    | .fail .. => s.vfErr vf 2
    | .fill a => s.holdFill vf (s.curCtx vf) a
    | _ => s.hold
  else if (s.vfReg vf 0x000).getLsbD 1 then s.vfErr vf 2
  else s

/-- What an access performed through a place does to the tables and to the dirty log (R290, R413). -/
def State.noteAccess (s : State) (vf : Nat) (gpage : Option Nat) (path leaves : List Nat) (write : Bool) : State :=
  let m1 := markPath s.mem path
  let m2 := if write then markLeaves m1 leaves else m1
  let s1 := { s with mem := m2 }
  match gpage, write with
  | some g, true => s1.logDirty vf g
  | _, _ => s1

/-- The page that stands in the frame of `pa` moves (R282). -/
def State.frameMoves (s : State) (pa : Nat) : Bool := s.moves.any (fun m => m.src ≤ pa && pa < m.src + 2 ^ m.bits)

/-- A write to memory that was placed before: what it does beside its bytes stands in its note, the page by its guest address. While the page's frame
moves it waits (R282, R290, R413). -/
def State.noteWrite (s : State) (vf pa : Nat) (n : Note) : State :=
  if isSram pa then s
  else if s.frameMoves pa then s.hold
  else s.noteAccess vf n.gpage n.path n.leaves true

/-- The note of a place. -/
def Place.note : Place → Note
  | .ok _ g path leaves => { gpage := g, path := path, leaves := leaves }
  | _ => { gpage := none, path := [], leaves := [] }

/-- The cached translation of an address, in a TLB (R292). -/
def State.tlbEntry? (s : State) (vf ctx va : Nat) : Option TlbEntry :=
  s.tlb.find? (fun e => e.vf == vf && e.ctx == ctx && e.base ≤ va && va < e.base + 2 ^ e.bits)

/-- What the cached translation of an address says of a read or of a write of it. -/
def TlbEntry.place (e : TlbEntry) (va : Nat) (write : Bool) : Place :=
  if write && !e.write then .fail .translation false
  else .ok (e.frame + (va - e.base)) (some ((e.gpa + (va - e.base)) / 65536)) [] []

/-- A place in device memory by a free choice: where the tables have changed under a cached translation, an access uses the old entry or the new one
(R292; log entry 6). -/
def State.placeBy (s : State) (through : Bool) (vf ctx va : Nat) (write : Bool) (choice : Nat) : Place :=
  let p := s.placeDeviceAs through vf ctx va write
  match s.tlbEntry? vf ctx va with
  | some e => if (e.place va write).same p || !Config.freeOld s.fresh choice then p else e.place va write
  | none => p

/-- The place of an access that no lane makes, but the hub, a fetch, the host or a walk of the arbiter, by the choice of its address (R292; log
entry 6). -/
def State.placeShared (s : State) (through : Bool) (vf ctx va : Nat) (write : Bool) : Place :=
  s.placeBy through vf ctx va write (2 ^ 120 + 2 * va + write.toNat)

/-- A write to device memory waits while the dirty log is full (R413). -/
def State.logGate (s : State) (vf : Nat) (write : Bool) (p : Place) : Place :=
  match p with
  | .ok _ (some _) _ _ => if write && s.logging vf && s.dirtyLogFull vf then .transit else p
  | _ => p

/-- The place of a read or of a write. Where the tables have changed under a cached translation, each access uses the old entry or the new one, by
a free choice of its own, until an invalidation drops the old one (R292; log entry 6). -/
def State.place (s : State) (vf ctx va : Nat) (write : Bool) (choice : Nat) : Place :=
  let p := s.placeGeneric vf ctx va write
  s.logGate vf write (match s.tlbEntry? vf ctx va with
    | some e => if s.inWindow vf va || (e.place va write).same p || !Config.freeOld s.fresh choice then p else e.place va write
    | none => p)

/-- The translation of an address as the TLBs keep it: an entry covers the smaller of the pages of its two stages (R292). -/
def State.tlbWalk (s : State) (vf ctx va : Nat) : Option TlbEntry :=
  match s.stageOne false vf ctx va with
  | .ok w1 =>
    let gpa := w1.frame + va % 2 ^ w1.bits
    match s.stageTwo vf gpa false with
    | .ok w2 =>
      let bits := min w1.bits w2.bits
      some { vf := vf, ctx := ctx, base := va / 2 ^ bits * 2 ^ bits, bits := bits, gpa := gpa / 2 ^ bits * 2 ^ bits,
             frame := (w2.frame + gpa % 2 ^ w2.bits) / 2 ^ bits * 2 ^ bits, write := w1.write && w2.write }
    | _ => none
  | _ => none

/-- The TLB after an access of an address whose entry it keeps (R292; log entry 42). -/
def State.fillTlb (s : State) (vf ctx va : Nat) : State :=
  match s.tlbWalk vf ctx va with
  | none => s
  | some e =>
    if (s.tlbEntry? vf ctx va).isSome then s
    else { s with tlb := e :: s.tlb }

/-- Tag and poison checks on `[pa, pa + n)` (R295, R297). `whole` is set for a write by an agent that may cover whole granules: only the granules it
covers in part count then. -/
def State.granuleCheck (s : State) (vf ctx : Nat) (pa n : Nat) (tag : BitVec 4) (notag whole : Bool) : Option FaultClass :=
  if s.tagChecking vf ctx && !notag && !s.tagsMatch pa n tag then some .tagMismatch
  else if whole then
    if (granulesOf pa n).any (fun g => s.poison.look g != 0 && !(pa ≤ 32 * g && 32 * g + 32 ≤ pa + n)) then some .poison
    else none
  else if s.poisoned pa n then some .poison
  else none

end Sys2Proof.Machine
end

