-- ==== Sys2Proof/Machine/Tree.lean ====
section
/-! DEFINITION. Code images, nodes, positions and resolution (R34 to R61, R387, R389, R431, R432). -/

namespace Sys2Proof.Machine

/-- A failure found in a tree: its class, the parcel it records, and its address (R60). -/
structure TreeFault where
  cls : FaultClass
  parcel : Nat
  addr : Dword
  stage2 : Bool
  deriving DecidableEq, Repr

/-- Code that could not be read: its address, and whether stage two failed (R291). A page that moves, or that is promoted first, cannot be read yet
(R282). -/
structure CodeFail where
  addr : Nat
  stage2 : Bool
  deriving DecidableEq, Repr

/-- The translation fault of code that could not be read, at a parcel (R291; log entry 12). -/
def CodeFail.fault (x : CodeFail) (p : Nat) : TreeFault := { cls := .translation, parcel := p, addr := BitVec.ofNat 64 x.addr, stage2 := x.stage2 }

/-- A structure fault at a parcel. -/
def structFault (p : Nat) : TreeFault := { cls := .badStructure, parcel := p, addr := 0, stage2 := false }

/-- A context's view of a code image: whether it reads pages in transit where they still stand, its address, the physical base of the 64 KiB page that
holds its start, and the parcels that it held at the admission of the region that fetches from it (R38; log entry 28). -/
structure CodeView where
  through : Bool
  vf : Nat
  ctx : Nat
  image : Nat
  page : Nat
  base : Option Nat
  old : Option (Sparse 33)
  deriving DecidableEq, Repr

def State.codeView (s : State) (through : Bool) (vf ctx image : Nat) (old : Option (Sparse 33)) : CodeView :=
  { through := through, vf := vf, ctx := ctx, image := image, page := image / 65536, old := old,
    base := match s.placeShared through vf ctx (image / 65536 * 65536) false with
      | .ok pa _ _ _ => some pa
      | _ => none }

/-- The 4 bytes of memory at a virtual address of the image. -/
def State.codeBytes (s : State) (cv : CodeView) (va : Nat) : Except CodeFail Nat :=
  match decide (va / 65536 = cv.page), cv.base with
  | true, some b => .ok (readLE s.mem (b + va % 65536) 4)
  | _, _ =>
    match s.placeShared cv.through cv.vf cv.ctx va false with
    | .ok pa _ _ _ => .ok (readLE s.mem pa 4)
    | .fail _ b => .error { addr := va, stage2 := b }
    | _ => .error { addr := va, stage2 := false }

/-- The 4 bytes of the image at a virtual address, as a fetch gets them: those that memory holds, or, where they have been written since the
admission, the old ones, by a free choice of each fetch; a parcel that could not be read then has no old value (R38). -/
def State.codeWord (s : State) (cv : CodeView) (va : Nat) : Except CodeFail Nat :=
  match s.codeBytes cv va, cv.old with
  | .ok w, some t =>
    let o := t.look ((va - cv.image) / 4)
    .ok (if o.getLsbD 32 ∧ o.toNat % 2 ^ 32 ≠ w ∧ Config.freeOld s.fresh (2 ^ 121 + va) then o.toNat % 2 ^ 32 else w)
  | r, _ => r

/-- `n` words of the image from a virtual address on. -/
def State.codeWords (s : State) (cv : CodeView) (va : Nat) : Nat → Except CodeFail (List Nat)
  | 0 => .ok []
  | n + 1 =>
    match s.codeWords cv va n, s.codeWord cv (va + 4 * n) with
    | .ok l, .ok w => .ok (l ++ [w])
    | .error x, _ => .error x
    | _, .error x => .error x

/-- The header of an image (R34). -/
structure ImageHeader where
  magic : Nat
  version : Nat
  fcount : Nat
  ftab : Nat
  code : Nat
  clen : Nat
  data : Nat
  dlen : Nat
  deriving DecidableEq, Repr

/-- The eight words of a header. -/
def ImageHeader.ofWords (l : List Nat) : ImageHeader :=
  let w := fun (i : Nat) => (l[i]?).getD 0
  { magic := w 0, version := w 1, fcount := w 2, ftab := w 3, code := w 4, clen := w 5, data := w 6, dlen := w 7 }

def State.imageHeader (s : State) (cv : CodeView) : Except CodeFail ImageHeader := (s.codeWords cv cv.image 8).map ImageHeader.ofWords

/-- The end of an image, as a byte offset (R34). -/
def ImageHeader.imageEnd (h : ImageHeader) : Nat := if h.data = 0 then h.code + 4 * h.clen else h.data + h.dlen

/-- The parcels of an image as it stands, by their index from its start, each under a bit 32; one that cannot be read is not listed (R38). -/
def State.imageParcels (s : State) (vf ctx image : Nat) : Option (Sparse 33) :=
  let cv := s.codeView true vf ctx image none
  match s.imageHeader cv with
  | .ok h => some ((List.range (h.imageEnd / 4)).filterMap (fun i =>
      match s.codeWord cv (image + 4 * i) with
      | .ok w => some (i, BitVec.ofNat 33 (2 ^ 32 + w))
      | .error _ => none))
  | .error _ => none

/-- The header checks of R36. The alignment of ftab and of code, and the range of fcount, are R34's and R35's own terms: that a header which breaks
them fails these checks is the model's choice (log entry 92). -/
def ImageHeader.ok (h : ImageHeader) : Bool :=
  h.magic == 0x4F5A494D && h.version == 1 && 1 ≤ h.fcount && h.fcount ≤ 65536 && h.ftab % 16 == 0 && h.code % 4 == 0 &&
    h.ftab + 16 * h.fcount ≤ h.imageEnd && h.code + 4 * h.clen ≤ h.imageEnd

/-- An entry of the function table (R35). -/
structure FnEntry where
  idx : Nat
  kind : Nat
  index : Nat
  off : Nat
  len : Nat
  /-- a reserved field is not zero -/
  reserved : Bool
  deriving DecidableEq, Repr

/-- The trees of one image, as a group or the scheduler reads them. -/
structure Trees where
  s : State
  cv : CodeView
  h : ImageHeader

def State.readTrees (s : State) (vf ctx image : Nat) (old : Option (Sparse 33)) : Except CodeFail Trees :=
  let cv := s.codeView false vf ctx image old
  (s.imageHeader cv).map (fun h => { s := s, cv := cv, h := h })

def State.trees? (s : State) (vf ctx image : Nat) (old : Option (Sparse 33)) : Option Trees := (s.readTrees vf ctx image old).toOption

/-- The four words of entry `k` of the function table. -/
def FnEntry.ofWords (k : Nat) (l : List Nat) : FnEntry :=
  let w := fun (i : Nat) => (l[i]?).getD 0
  { idx := k, kind := bitsOf (w 0) 17 16, index := w 0 % 65536, off := w 1, len := w 2, reserved := bitsOf (w 0) 31 18 != 0 || w 3 != 0 }

/-- The address of entry `k` of the function table. -/
def Trees.entryVa (t : Trees) (k : Nat) : Nat := t.cv.image + t.h.ftab + 16 * k

/-- Entry `k` of the function table. -/
def Trees.readFn (t : Trees) (k : Nat) : Except CodeFail FnEntry := (t.s.codeWords t.cv (t.entryVa k) 4).map (FnEntry.ofWords k)

def Trees.fn? (t : Trees) (k : Nat) : Option FnEntry := (t.readFn k).toOption

/-- Entry `k` exists and has kind `kind`. -/
def Trees.fnKind (t : Trees) (k kind : Nat) : Bool :=
  k < t.h.fcount && (match t.fn? k with | some e => e.kind == kind | none => false)

/-- The address of parcel `p` of function `e`. -/
def Trees.parcelVa (t : Trees) (e : FnEntry) (p : Nat) : Nat := t.cv.image + t.h.code + 4 * (e.off + p)

/-- Parcel `p` of function `e`; a fault of the code's own translation is recorded at the parcel (log entry 12). -/
def Trees.parcel (t : Trees) (e : FnEntry) (p : Nat) : Except TreeFault Nat :=
  match t.s.codeWord t.cv (t.parcelVa e p) with
  | .ok w => .ok w
  | .error x => .error (x.fault p)

/-- The check of a function's table entry and root, at parcel `p` (R37): a structure fault, or the translation fault of a root that cannot be read. -/
def Trees.fnCheck (t : Trees) (e : FnEntry) (p : Nat) : Option TreeFault :=
  if e.index == e.idx && !e.reserved && 2 ≤ e.len && e.len ≤ 0xFFFFFF && e.off + e.len ≤ t.h.clen then
    match t.parcel e 0 with
    | .ok w => if w == e.len then none else some (structFault p)
    | .error f => some { f with parcel := p }
  else some (structFault p)

/-- The table entry and root of a function pass R37. -/
def Trees.fnOk (t : Trees) (e : FnEntry) : Bool := (t.fnCheck e 0).isNone

/-- A node: its header's parcel, kind, extent and level, its children (start and extent) or its operations' starts,
and what its second parcel gives. -/
structure Node where
  p : Nat
  kind : Nat
  ext : Nat
  level : Nat
  w1 : Nat
  kids : List (Nat × Nat)
  ops : List Nat
  cases : List Nat
  deriving DecidableEq, Repr

/-- The 64 KiB pages of the image that reading a node reads (R290). -/
def Trees.nodePages (t : Trees) (e : FnEntry) (nd : Node) : List Nat :=
  ((([nd.p, nd.p + 1] ++ nd.kids.map (fun k => k.1) ++ nd.ops.flatMap (fun o => [o, o + 1, o + 2]) ++
    (List.range (2 * nd.cases.length + 1)).map (fun i => nd.p + 2 + i)).filter (fun p => p < nd.p + nd.ext)).map
      (fun p => t.parcelVa e p / 65536)).eraseDups

/-- The parcels that are read of the children of a node from `p` to `stop`, whether they pass their checks or not. The first argument bounds their
number. -/
def Trees.childParcels (t : Trees) (e : FnEntry) (stop : Nat) : Nat → Nat → List Nat
  | 0, _ => []
  | n + 1, p =>
    if stop ≤ p then []
    else p :: (match t.parcel e p with
      | .error _ => []
      | .ok w => if w / 2 ^ 28 ≠ 0 ∨ w % 2 ^ 24 < 2 then [] else t.childParcels e stop n (p + w % 2 ^ 24))

/-- The pages that reading the table entry and the root of a function reads. -/
def Trees.fnPages (t : Trees) (e : FnEntry) : List Nat := [t.entryVa e.idx / 65536, t.parcelVa e 0 / 65536]

/-- Literal parcels of an operand code (R44). -/
def literalParcels (code : Nat) : Nat := if code = 0xF0 then 1 else if code = 0xF1 then 2 else 0

/-- Parcels of the operation with parcels `p0` and `p1`, its prefix not counted (R44). -/
def bodyParcels (p0 p1 : Nat) : Nat :=
  2 + literalParcels (p0 % 256) + literalParcels (p1 / 2 ^ 24 % 256) + literalParcels (p1 / 2 ^ 16 % 256)

/-- Parcels of the operation at parcel `p` of a leaf that ends at `stop`; 0 where a class-0 parcel stands. A prefix with
no operation behind it takes one parcel (log entry 13). -/
def Trees.opParcels (t : Trees) (e : FnEntry) (p stop : Nat) : Except TreeFault Nat :=
  match t.parcel e p with
  | .error f => .error f
  | .ok p0 =>
    if p0 / 2 ^ 28 = 0 then .ok 0
    else
      let q := if p0 / 2 ^ 28 = 14 then p + 1 else p
      if q < stop then
        match t.parcel e q with
        | .error f => .error f
        | .ok b0 =>
          if q ≠ p ∧ (b0 / 2 ^ 28 = 0 ∨ b0 / 2 ^ 28 = 14) then .ok 1
          else if q + 1 < stop then
            match t.parcel e (q + 1) with
            | .error f => .error f
            | .ok b1 => .ok (q - p + bodyParcels b0 b1)
          else .ok (q - p + 2)
      else .ok 1

/-- The starts of the operations from `p` to `stop`, of the leaf with header `hdr`: at most `n` of them (R44). -/
def Trees.leafOps (t : Trees) (e : FnEntry) (hdr stop : Nat) : Nat → Nat → Except TreeFault (List Nat)
  | 0, p => if p = stop then .ok [] else .error (structFault hdr)
  | n + 1, p =>
    match t.opParcels e p stop with
    | .error f => .error f
    | .ok k =>
      if k = 0 ∨ stop < p + k then .error (structFault hdr)
      else
        match t.leafOps e hdr stop n (p + k) with
        | .error f => .error f
        | .ok l => .ok (p :: l)

/-- The children from `p` to `stop` of the node with header `hdr` (R43); the first argument bounds their number (log entry 27). A parcel that is
no header stands for the rest of the node: it is a fault of its own, when a lane enters it (R60; log entry 94). -/
def Trees.children (t : Trees) (e : FnEntry) (hdr stop : Nat) : Nat → Nat → Except TreeFault (List (Nat × Nat))
  | 0, _ => .error (structFault hdr)
  | n + 1, p =>
    if p = stop then .ok []
    else if stop < p then .error (structFault hdr)
    else
      match t.parcel e p with
      | .error f => .error f
      | .ok w =>
        if w / 2 ^ 28 ≠ 0 then .ok [(p, stop - p)]
        else
          let x := w % 2 ^ 24
          if x < 2 ∨ stop < p + x then .error (structFault hdr)
          else
            match t.children e hdr stop n (p + x) with
            | .error f => .error f
            | .ok l => .ok ((p, x) :: l)

/-- Parcels `p` to `p + n - 1` (log entry 28). -/
def Trees.parcels (t : Trees) (e : FnEntry) (p : Nat) : Nat → Except TreeFault (List Nat)
  | 0 => .ok []
  | n + 1 =>
    match t.parcels e p n with
    | .error f => .error f
    | .ok l =>
      match t.parcel e (p + n) with
      | .error f => .error f
      | .ok w => .ok (l ++ [w])

/-- A code that no operation of the function may read: `%lane` and `%active` in the function of an access slice (R41, R149, R284; log entry 95). -/
def FnEntry.badCode (e : FnEntry) (code : Nat) : Bool := e.kind == 1 && (code == 0x40 || code == 0x4B)

/-- The node with header at `p` on level `level`, with every check that R60 makes at it. -/
def Trees.node (t : Trees) (e : FnEntry) (p level : Nat) : Except TreeFault Node :=
  match t.parcel e p, t.parcel e (p + 1) with
  | .error f, _ => .error f
  | _, .error f => .error f
  | .ok w0, .ok w1 =>
    let kind := bitsOf w0 27 24
    let ext := w0 % 2 ^ 24
    let stop := p + ext
    let mk := fun kids ops cases =>
      ({ p := p, kind := kind, ext := ext, level := level, w1 := w1, kids := kids, ops := ops, cases := cases } : Node)
    if w0 / 2 ^ 28 ≠ 0 ∨ 6 < kind ∨ 32 < level ∨ ext < 2 then .error (structFault p)
    else
      match kind with
      | 1 =>
        if 32 ≤ w1 ∨ w1 = 0 ∨ 24 < w1 then .error (structFault p)
        else
          match t.leafOps e p stop w1 (p + 2) with
          | .error f => .error f
          | .ok l => .ok (mk [] l [])
      | 2 =>
        if 256 ≤ w1 ∨ 0x4C < w1 ∨ e.badCode w1 then .error (structFault p)
        else
          match t.children e p stop (ext + 1) (p + 2) with
          | .error f => .error f
          | .ok l => if l.length = 2 then .ok (mk l [] []) else .error (structFault p)
      | 3 =>
        let n := bitsOf w1 11 8
        if 65536 ≤ w1 ∨ 1 < bitsOf w1 15 12 ∨ n = 0 ∨ 8 < n ∨ 0x4C < w1 % 256 ∨ e.badCode (w1 % 256) ∨ ext < 3 + 2 * n then .error (structFault p)
        else
          match t.parcels e (p + 2) n, t.parcels e (p + 2 + n) (n + 1), t.children e p stop (ext + 1) (p + 3 + 2 * n) with
          | .error f, _, _ => .error f
          | _, .error f, _ => .error f
          | _, _, .error f => .error f
          | .ok cs, .ok arms, .ok l =>
            if l.map (fun k => k.1 - p) = arms then .ok (mk l [] cs) else .error (structFault p)
      | 5 => if ext ≠ 2 ∨ 65536 ≤ w1 ∨ e.kind = 1 then .error (structFault p) else .ok (mk [] [] [])
      | 6 => if ext ≠ 2 ∨ 0x3F < w1 ∨ e.kind = 1 then .error (structFault p) else .ok (mk [] [] [])
      | _ =>
        if w1 ≠ 0 then .error (structFault p)
        else
          match t.children e p stop (ext + 1) (p + 2) with
          | .error f => .error f
          | .ok l => if kind = 4 ∧ l = [] then .error (structFault p) else .ok (mk l [] [])

/-- The parcels that are read of the operations of a leaf from `p` to `stop`, whether they pass their checks or not. The first argument bounds their
number. -/
def Trees.leafParcels (t : Trees) (e : FnEntry) (stop : Nat) : Nat → Nat → List Nat
  | 0, _ => []
  | n + 1, p =>
    [p, p + 1, p + 2].filter (fun x => x < stop) ++ (match t.opParcels e p stop with
      | .error _ => []
      | .ok k => if k = 0 ∨ stop ≤ p + k then [] else t.leafParcels e stop n (p + k))

/-- The 64 KiB pages of the image that reading the node at parcel `p` reads, whether it passes its checks or not (R60, R290). -/
def Trees.triedPages (t : Trees) (e : FnEntry) (p : Nat) : List Nat :=
  let rest := match t.parcel e p, t.parcel e (p + 1) with
    | .ok w0, .ok w1 =>
      let stop := p + w0 % 2 ^ 24
      match bitsOf w0 27 24 with
      | 1 => t.leafParcels e stop (min w1 24) (p + 2)
      | 3 => (List.range (2 * bitsOf w1 11 8 + 1)).map (fun i => p + 2 + i) ++
          t.childParcels e stop (w0 % 2 ^ 24) (p + 3 + 2 * bitsOf w1 11 8)
      | 5 | 6 => []
      | _ => t.childParcels e stop (w0 % 2 ^ 24) (p + 2)
    | _, _ => []
  ((p :: (p + 1) :: rest).map (fun x => t.parcelVa e x / 65536)).eraseDups

/-- Descends from the chain `c` (innermost first) to the node or operation at parcel `p` (R59). The first argument is the
number of levels left. A failure comes with the chain so far. -/
def Trees.descendFrom (t : Trees) (e : FnEntry) (p : Nat) : Nat → List Node → List Node × Option TreeFault
  | 0, c => (c, some (structFault p))
  | n + 1, c =>
    match c with
    | [] => (c, some (structFault p))
    | nd :: _ =>
      if nd.p = p then (c, none)
      else if nd.kind = 1 then (c, if nd.ops.contains p then none else some (structFault p))
      else
        match nd.kids.find? (fun k => k.1 ≤ p && p < k.1 + k.2) with
        | none => (c, some (structFault p))
        | some k =>
          match t.node e k.1 (nd.level + 1) with
          | .error f => (c, some f)
          | .ok ch => t.descendFrom e p n (ch :: c)

/-- The chain of nodes that hold parcel `p` of function `e`, innermost first (R59). -/
def Trees.descend (t : Trees) (e : FnEntry) (p : Nat) : List Node × Option TreeFault :=
  if e.len ≤ p then ([], some (structFault p))
  else
    match t.node e 0 1 with
    | .error f => ([], some f)
    | .ok root => t.descendFrom e p 33 [root]

/-- The 64 KiB pages of the image that the descent to parcel `p` of function `e` reads, behind the function's table entry, as far as it comes (R59,
R290). -/
def Trees.descentPages (t : Trees) (e : FnEntry) (p : Nat) : List Nat :=
  match t.descend e p with
  | (c, none) => c.flatMap (t.nodePages e)
  | ([], some _) => t.triedPages e 0
  | (nd :: c, some _) => (nd :: c).flatMap (t.nodePages e) ++
      (match nd.kids.find? (fun k => k.1 ≤ p && p < k.1 + k.2) with | some k => t.triedPages e k.1 | none => [])

/-- The first operation in tree order at or below the nodes of `todo` (start and level), or none (R33). The first
argument bounds the nodes visited. -/
def Trees.firstOpFrom (t : Trees) (e : FnEntry) : Nat → List (Nat × Nat) → Except TreeFault (Option Nat)
  | 0, _ => .ok none
  | _ + 1, [] => .ok none
  | n + 1, (p, level) :: rest =>
    match t.node e p level with
    | .error f => .error f
    | .ok nd =>
      match nd.ops with
      | o :: _ => .ok (some o)
      | [] => t.firstOpFrom e n (nd.kids.map (fun k => (k.1, level + 1)) ++ rest)

/-- The parcel of the first position in function `e`: its first operation in tree order, or its root header where it
holds none (R33). -/
def Trees.firstParcel (t : Trees) (e : FnEntry) : Except TreeFault Nat :=
  match t.fnCheck e 0 with
  | some f => .error f
  | none =>
    match t.firstOpFrom e e.len [(0, 1)] with
    | .error f => .error f
    | .ok (some p) => .ok p
    | .ok none => .ok 0

/-- The 64 KiB pages that the search for the first position of function `e`, at parcel `p`, reads: the tree up to it, or all of it where it holds no
operation (R33, R290). -/
def Trees.startPages (t : Trees) (e : FnEntry) (p : Nat) : List Nat :=
  let a := t.parcelVa e 0 / 65536
  (List.range (t.parcelVa e (if p = 0 then e.len - 1 else p) / 65536 + 1 - a)).map (fun i => a + i)

/-- A breakpoint unit that applies to the lanes of the context: its number, function, header, and edges (R431). -/
structure Break where
  unit : Nat
  func : Nat
  parcel : Nat
  entry : Bool
  leave : Bool
  deriving DecidableEq, Repr

/-- An edge that a resolution met first and takes (R432): the unit, the depth and header of the node, and, for an exit
edge, whether the frame that held the node has been popped. -/
structure Edge where
  unit : Nat
  isExit : Bool
  depth : Nat
  parcel : Nat
  ext : Nat
  popped : Bool
  deriving DecidableEq, Repr

/-- What the resolution of one lane reads and does not change. -/
structure ResolveEnv where
  t : Trees
  /-- physical address of the lane's private area, and its length -/
  priv : Nat
  privLen : Nat
  frameBase : Nat
  /-- function at depth 0 (R47) -/
  rootFunc : Nat
  /-- reads an operand code at the header of a node at a depth; none for a register at or above A (R41) -/
  read : Nat → Nat → Nat → Option Word
  breaks : List Break
  /-- the units that are not tested at the first Enter of a retry (R432) -/
  skip : List Nat

/-- What the resolution of one lane changes. -/
structure Resolving where
  m : Memory
  func : Nat
  fn : FnEntry
  depth : Nat
  /-- the chain of nodes, innermost first -/
  chain : List Node
  /-- loops entered or repeated in this resolution (R55) -/
  marks : List (Nat × Nat)
  /-- the loop that was repeated, and the loops that were entered (R86) -/
  repeated : Option LoopId
  entered : List LoopId
  /-- the edges that it has met, the first one first (R432) -/
  edges : List Edge
  /-- physical addresses of the frames that it has written (R48, R88) -/
  frames : List Nat
  /-- the 64 KiB pages of the image that it has read (R290) -/
  pages : List Nat

/-- The end of the resolution of one lane. -/
inductive ResolveEnd where
  /-- the parcel of the next operation -/
  | op (parcel : Nat)
  | retire
  /-- a handler lane left its root at depth 0 (R389) -/
  | returned
  /-- an entry edge stopped the resolution at a header (R432) -/
  | stopped (parcel : Nat)
  | fault (f : TreeFault)
  deriving DecidableEq, Repr

/-- What the resolution does next, at the head of the chain. -/
inductive Goal where
  | enter | leave | again | ret
  | call (h : Nat)
  deriving DecidableEq, Repr

/-- Physical address of frame `k` (R48, R387). -/
def ResolveEnv.framePa (v : ResolveEnv) (k : Nat) : Nat := v.priv + v.frameBase + 8 * (k - 1)

/-- The exit edge of a node that the lane leaves, once for each node of a frame (R432). -/
def ResolveEnv.noteLeave (v : ResolveEnv) (r : Resolving) (nd : Node) : Resolving :=
  match v.breaks.find? (fun b => b.leave && b.func == r.func && b.parcel == nd.p) with
  | some b =>
    let x : Edge := { unit := b.unit, isExit := true, depth := r.depth, parcel := nd.p, ext := nd.ext, popped := false }
    if r.edges.contains x then r else { r with edges := r.edges ++ [x] }
  | none => r

/-- An edge holds of a lane that stands at parcel `p`: an entry edge, and the exit edge of a node that the lane has left, for its position in the node's
frame lies outside the node, or that frame has been popped. In a frame below the lane's own it stands at the call (R47, R48, R432). -/
def ResolveEnv.holds (v : ResolveEnv) (r : Resolving) (p : Nat) (x : Edge) : Bool :=
  let here := if r.depth = x.depth then p else readLE r.m (v.framePa (x.depth + 1)) 4 % 2 ^ 24
  !x.isExit || x.popped || r.depth < x.depth || !(x.parcel ≤ here && here < x.parcel + x.ext)

/-- The edge that a lane whose resolution ends at parcel `p` takes: the first that it has met and that holds (R432). -/
def ResolveEnv.taken (v : ResolveEnv) (r : Resolving) (p : Nat) : Option Edge := r.edges.find? (v.holds r p)

/-- The entry edge of a node that the lane is about to enter: none when there it has left a node with an exit edge (R432; log entry 35). -/
def ResolveEnv.entryEdge (v : ResolveEnv) (r : Resolving) (nd : Node) (skip : List Nat) : Option Break :=
  if (v.taken r nd.p).isSome then none
  else v.breaks.find? (fun b => b.entry && b.func == r.func && b.parcel == nd.p && !skip.contains b.unit)

/-- The loop with its header at parcel `p`, where the resolution stands. -/
def Resolving.loopId (r : Resolving) (p : Nat) : LoopId := { depth := r.depth, func := r.func, parcel := p }

/-- The resolution has read the pages `ps` of the image. -/
def Resolving.read (r : Resolving) (ps : List Nat) : Resolving := { r with pages := (ps ++ r.pages).eraseDups }

/-- The resolution goes on with goal `g` at the child of the node `nd` with start `p`, or ends with the fault of that child. -/
def ResolveEnv.child (v : ResolveEnv) (r : Resolving) (nd : Node) (p : Nat) (g : Goal) : (Goal × Resolving) ⊕ (Resolving × ResolveEnd) :=
  match v.t.node r.fn p (nd.level + 1) with
  | .error f => .inr (r.read (v.t.triedPages r.fn p), .fault f)
  | .ok ch => .inl (g, { r with chain := ch :: r.chain }.read (v.t.nodePages r.fn ch))

/-- One step of a resolution: a further goal, or the end (R52). -/
def ResolveEnv.next (v : ResolveEnv) (g : Goal) (r : Resolving) (skip : List Nat) :
    (Goal × Resolving) ⊕ (Resolving × ResolveEnd) :=
  match r.chain with
  | [] => .inr (r, .fault (structFault 0))
  | nd :: up =>
    match g with
    | .enter =>
      match v.entryEdge r nd skip with
      | some b =>
        .inr ({ r with edges := r.edges ++ [{ unit := b.unit, isExit := false, depth := r.depth, parcel := nd.p, ext := nd.ext, popped := false }] },
          .stopped nd.p)
      | none =>
        match nd.kind with
        | 1 =>
          match nd.ops with
          | o :: _ => .inr (r, .op o)
          | [] => .inr (r, .fault (structFault nd.p))
        | 0 =>
          match nd.kids with
          | [] => .inl (.leave, r)
          | k :: _ => v.child r nd k.1 .enter
        | 4 => .inl (.again, { r with entered := r.loopId nd.p :: r.entered })
        | 2 =>
          match v.read (nd.w1 % 256) nd.p r.depth with
          | none => .inr (r, .fault (structFault nd.p))
          | some c =>
            match nd.kids[if c.getLsbD 0 then 0 else 1]? with
            | none => .inr (r, .fault (structFault nd.p))
            | some k => v.child r nd k.1 .enter
        | 3 =>
          match v.read (nd.w1 % 256) nd.p r.depth with
          | none => .inr (r, .fault (structFault nd.p))
          | some c =>
            match nd.kids[(nd.cases.findIdx? (fun x => x == c.toNat)).getD nd.cases.length]? with
            | none => .inr (r, .fault (structFault nd.p))
            | some k => v.child r nd k.1 .enter
        | 5 => .inl (.call (nd.w1 % 65536), r)
        | _ =>
          match v.read (nd.w1 % 256) nd.p r.depth with
          | none => .inr (r, .fault (structFault nd.p))
          | some h => .inl (.call h.toNat, r)
    | .leave =>
      let r1 := v.noteLeave r nd
      match up with
      | [] => .inl (.ret, r1)
      | pn :: _ =>
        let r2 := { r1 with chain := up }
        if pn.kind = 2 ∨ pn.kind = 3 then .inl (.leave, r2)
        else
          match pn.kids.find? (fun k => nd.p < k.1) with
          | some k => v.child r2 pn k.1 .enter
          | none => if pn.kind = 0 then .inl (.leave, r2) else .inl (.again, { r2 with repeated := some (r.loopId pn.p) })
    | .again =>
      if r.marks.contains (r.depth, nd.p) then .inr (r, .fault (structFault nd.p))
      else
        match nd.kids with
        | [] => .inr (r, .fault (structFault nd.p))
        | k :: _ => v.child { r with marks := (r.depth, nd.p) :: r.marks } nd k.1 .enter
    | .call h =>
      let bad := fun (r : Resolving) (c : FaultClass) (a : Nat) =>
        (.inr (r, .fault { cls := c, parcel := nd.p, addr := BitVec.ofNat 64 a, stage2 := false }) : (Goal × Resolving) ⊕ (Resolving × ResolveEnd))
      if v.t.h.fcount ≤ h ∨ 65536 ≤ h then bad r .callHandle h
      else
        match v.t.readFn h with
        | .error x => .inr (r, .fault (x.fault nd.p))
        | .ok e =>
          let ra := r.read [v.t.entryVa h / 65536]
          if e.kind ≠ 0 then bad ra .callHandle h
          else if r.depth = 127 ∨ v.privLen < v.frameBase + 8 * (r.depth + 1) then bad ra .frameOverflow 0
          else
            match v.t.fnCheck e nd.p with
            | some f => .inr (r.read (v.t.fnPages e), .fault f)
            | none =>
              let m1 := writeLE r.m (v.framePa (r.depth + 1)) 4 (posWord r.depth nd.p).toNat
              let m2 := writeLE m1 (v.framePa (r.depth + 1) + 4) 4 h
              let r1 := { r with m := m2, func := h, fn := e, depth := r.depth + 1, frames := v.framePa (r.depth + 1) :: r.frames }.read (v.t.fnPages e)
              match v.t.node e 0 1 with
              | .ok root => .inl (.enter, { r1 with chain := [root] }.read (v.t.nodePages e root))
              | .error f => .inr ({ r1 with chain := [] }.read (v.t.triedPages e 0), .fault f)
    | .ret =>
      let r0 := r.chain.foldl (fun acc x => v.noteLeave acc x) r
      if r.depth = 0 then .inr (r0, if v.frameBase = 0 then .retire else .returned)
      else
        let parcel := readLE r.m (v.framePa r.depth) 4 % 2 ^ 24
        let d := r.depth - 1
        let func := if d = 0 then v.rootFunc else readLE r.m (v.framePa d + 4) 2
        let r1 := { r0 with
          depth := d, func := func, edges := r0.edges.map (fun x => if x.depth = r.depth then { x with popped := true } else x) }
        match v.t.readFn func with
        | .error x => .inr (r1, .fault (x.fault parcel))
        | .ok e =>
          let r2 := { r1 with fn := e }.read (v.t.fnPages e ++ v.t.descentPages e parcel)
          match v.t.descend e parcel with
          | (c, none) => .inl (.leave, { r2 with chain := c })
          | (_, some f) => .inr (r2, .fault f)

/-- The steps for which a resolution runs. It never needs them all: between two steps that find the same goal, frames and node it passes a loop
again, and the mark of R55 ends it; and there are fewer than 2^5200 such findings: 127 frames of a caller's parcel and a function, a node, and a
goal (log entry 11). -/
def resolveFuel : Nat := (2 ^ 240) ^ 25

/-- Runs a resolution to its end (R52). -/
def ResolveEnv.run (v : ResolveEnv) : Nat → Goal → Resolving → List Nat → Resolving × ResolveEnd
  | 0, _, r, _ => (r, .fault (structFault (match r.chain with | nd :: _ => nd.p | [] => 0)))
  | n + 1, g, r, skip =>
    match v.next g r skip with
    | .inr e => e
    | .inl (g', r') => v.run n g' r' []

/-- How a lane leaves the operation it performed (R52). -/
inductive LeaveKind where
  | succ
  | quit (n : Nat)
  | next (n : Nat)
  | ret
  | exit
  /-- retries Enter at the node header where the lane stands (R58) -/
  | retry
  deriving DecidableEq, Repr

/-- The loops of a chain, innermost first, each with the nodes inside it. -/
def loopsOf : List Node → List (List Node)
  | [] => []
  | nd :: up => if nd.kind = 4 then (nd :: up) :: loopsOf up else loopsOf up

/-- Nodes of the chain inside the loop that heads `outer`. -/
def nodesInside (chain outer : List Node) : List Node := chain.take (chain.length - outer.length)

/-- A resolution that begins with chain `c` in function `e`. -/
def Resolving.start (m : Memory) (func depth : Nat) (e : FnEntry) (c : List Node) : Resolving :=
  { m := m, func := func, fn := e, depth := depth, chain := c, marks := [], repeated := none, entered := [],
    edges := [], frames := [], pages := [] }

/-- Resolves a lane that stands at parcel `p` of function `func`, at depth `depth`. -/
def ResolveEnv.resolve (v : ResolveEnv) (m : Memory) (func depth p : Nat) (k : LeaveKind) : Resolving × ResolveEnd :=
  let start := Resolving.start m func depth
  let none0 : FnEntry := { idx := func, kind := 0, index := 0, off := 0, len := 0, reserved := false }
  match k with
  | .exit => (start none0 [], .retire)
  | _ =>
    match v.t.readFn func with
    | .error x => (start none0 [], .fault (x.fault p))
    | .ok e =>
      match v.t.descend e p with
      | (c, some f) => (start e c, .fault f)
      | (c, none) =>
        let r := start e c
        match k with
        | .exit => (r, .retire)
        | .retry =>
          match (if p = 0 then v.t.fnCheck e 0 else none) with
          | some f => (r, .fault f)
          | none => v.run resolveFuel .enter r v.skip
        | .ret => v.run resolveFuel .ret r []
        | .succ =>
          match c with
          | nd :: _ =>
            match nd.ops.find? (fun o => p < o) with
            | some o => (r, .op o)
            | none => v.run resolveFuel .leave r []
          | [] => (r, .fault (structFault p))
        | .quit n =>
          match (loopsOf c)[n - 1]? with
          | some outer =>
            if n = 0 then (r, .fault (structFault p))
            else
              let r1 := (nodesInside c outer).foldl (fun acc x => v.noteLeave acc x) r
              v.run resolveFuel .leave { r1 with chain := outer } []
          | none => (r, .fault (structFault p))
        | .next n =>
          match (loopsOf c)[n - 1]? with
          | some outer =>
            if n = 0 then (r, .fault (structFault p))
            else
              let r1 := (nodesInside c outer).foldl (fun acc x => v.noteLeave acc x) r
              v.run resolveFuel .again { r1 with chain := outer, repeated := (outer.head?).map (fun l => r.loopId l.p) } []
          | none => (r, .fault (structFault p))

/-- The loops that enclose parcel `p` of function `func`, for a lane at depth `depth` (R86). -/
def Trees.loopsAround (t : Trees) (func depth p : Nat) : List LoopId :=
  match t.fn? func with
  | none => []
  | some e => (loopsOf (t.descend e p).1).filterMap (fun c => (c.head?).map (fun nd => { depth := depth, func := func, parcel := nd.p }))

/-- The number of loops that enclose parcel `p` of function `func` (R53). -/
def Trees.loopCount (t : Trees) (func p : Nat) : Nat :=
  match t.fn? func with
  | none => 0
  | some e => (loopsOf (t.descend e p).1).length

/-- A path (R50): callers and callees from the outermost frame, then the parcel. -/
def lanePath (m : Memory) (priv frameBase depth parcel : Nat) : List Nat :=
  (List.range depth).flatMap (fun i =>
    let pa := priv + frameBase + 8 * i
    [readLE m pa 4 % 2 ^ 24, readLE m (pa + 4) 2]) ++ [parcel]

/-- The order of positions (R51): the first element that differs decides, and a proper prefix is earlier. -/
def pathLt : List Nat → List Nat → Bool
  | [], [] => false
  | [], _ :: _ => true
  | _ :: _, [] => false
  | a :: as, b :: bs => if a = b then pathLt as bs else a < b

end Sys2Proof.Machine
end

