-- ==== Sys2Proof/Machine/Group.lean ====
section
/-! DEFINITION. Lanes and masks, barriers with their phases and arrive-and-drop, latch words and their grants, completion of
posted writes to a lane's own group (R65, R94, R249 to R253, R257 to R264). -/

namespace Sys2Proof.Machine

/-- Lane numbers of a mask, ascending. -/
def lanesOf (m : Mask) : List Nat := (List.range 32).filter (fun i => m.getLsbD i)

/-- The mask of the lanes that satisfy `p`. -/
def maskOf (p : Nat → Bool) : Mask :=
  (List.range 32).foldl (fun m i => if p i then m ||| (1#32 <<< i) else m) 0#32

/-- The lowest lane of a mask (L0 of R229). -/
def lowest (m : Mask) : Nat := ((lanesOf m).head?).getD 0

/-- The number of lanes of a mask. -/
def countLanes (m : Mask) : Nat := (lanesOf m).length

/-- A lane before its group starts. -/
def Lane.zero : Lane := { regs := [], bad := [], life := .retired, pos := 0, func := 0, frameBase := 0, atStart := false }

/-- Lane `L` of a group. -/
def Group.lane (g : Group) (L : Nat) : Lane := (g.lanes[L]?).getD Lane.zero

/-- Lanes in one state of life. -/
def Group.lifeMask (g : Group) (x : Life) : Mask := maskOf (fun L => (g.lane L).life == x)

/-- The live lanes (R65). -/
def Group.liveMask (g : Group) : Mask := g.lifeMask .live

/-- Every lane has retired. -/
def Group.allRetired (g : Group) : Bool := g.lanes.all (fun l => l.life == .retired)

/-- Changes the lanes of a mask by their number. -/
def mapLanes (f : Nat → Lane → Lane) (m : Mask) (ls : List Lane) : List Lane :=
  ls.mapIdx (fun L l => if m.getLsbD L then f L l else l)

/-- The fields of a barrier object (R257). -/
structure BarFields where
  phase : Nat
  expected : Nat
  arrivals : Nat
  drops : Nat
  linked : Bool
  tag : Nat
  balance : Int
  deriving DecidableEq, Repr

/-- The object at a physical address. -/
def readBar (m : Memory) (pa : Nat) : BarFields :=
  let c := readLE m (pa + 4) 4
  let d := readLE m (pa + 8) 4
  { phase := readLE m pa 4, expected := c / 65536, arrivals := c % 65536, drops := d / 65536, linked := bitsOf d 6 6 == 1,
    tag := bitsOf d 5 0, balance := (BitVec.ofNat 32 (readLE m (pa + 12) 4)).toInt }

/-- The bytes of a barrier object. -/
def BarFields.bytes (b : BarFields) : List Byte :=
  bytesLE 4 (b.phase % 2 ^ 32) ++ bytesLE 4 (b.expected % 65536 * 65536 + b.arrivals % 65536) ++
    bytesLE 4 (b.drops % 65536 * 65536 + (if b.linked then 64 else 0) + b.tag % 64) ++
    bytesLE 4 (BitVec.ofInt 32 b.balance).toNat

/-- The phase is complete (R263). -/
def BarFields.complete (b : BarFields) : Bool := b.arrivals == b.expected && b.expected != 0 && b.balance == 0

/-- What a completion does to the object (R263). -/
def BarFields.advance (b : BarFields) : BarFields :=
  { b with phase := (b.phase + 1) % 2 ^ 32, arrivals := 0, expected := b.expected - b.drops, drops := 0 }

/-- A phase has completed for a wait on phase `p` (R261). -/
def phasePassed (phase p : Nat) : Bool :=
  let d := (phase + 2 ^ 32 - p % 2 ^ 32) % 2 ^ 32
  1 ≤ d && d ≤ 2 ^ 31

/-- Clears every arrived mark of the barrier at `pa` (R263). -/
def State.clearMarks (s : State) (pa : Nat) : State :=
  { s with groups := s.groups.map (fun g => { g with arrived := g.arrived.filter (fun p => p.1 != pa) }),
           dieBars := s.dieBars.map (fun b => if b.pa = pa then { b with arrived := [] } else b) }

/-- One step of a live barrier: `f`, and the completion that follows it (R263). A poisoned object stays as it is (R257). -/
def State.barStep (s : State) (pa : Nat) (f : BarFields → BarFields) : State :=
  if s.poisoned pa 16 then s
  else
    let b := f (readBar s.mem pa)
    if b.complete then (s.storeBytes pa b.advance.bytes).clearMarks pa else s.storeBytes pa b.bytes

/-- The arrive-and-drop of R94 and R264: `arrive` arrivals, at most up to expected, and `drop` drops. -/
def BarFields.arriveDrop (arrive drop : Nat) (b : BarFields) : BarFields :=
  { b with arrivals := min b.expected (b.arrivals + arrive), drops := b.drops + drop }

/-- The arrived lanes of a group in a barrier. -/
def Group.arrivedIn (g : Group) (pa : Nat) : Mask :=
  match g.arrived.find? (fun p => p.1 == pa) with
  | some p => p.2
  | none => 0

/-- The barrier without the lanes `mask` of the group in `slot` among its members. -/
def Barrier.lose (slot : Nat) (mask : Mask) (b : Barrier) : Barrier :=
  { b with members := b.members.map (fun p => if p.1 = slot then (p.1, p.2 &&& ~~~mask) else p) }

/-- The lanes of a group that are members of a barrier. -/
def Barrier.laneMembers (b : Barrier) (slot : Nat) : Mask :=
  (b.members.filter (fun p => p.1 == slot)).foldl (fun m p => m ||| p.2) 0

/-- A die barrier counts a workgroup. -/
def DieBarrier.counts (w : Workgroup) (b : DieBarrier) : Bool := b.vf == w.vf && b.rcb == w.rcb && b.members.contains w.lin

/-- Every lane of every group of a workgroup has retired. -/
def State.wgRetired (s : State) (id : Nat) : Bool :=
  (s.groups.filter (fun g => g.wg == id)).all Group.allRetired

/-- A fault that a group took is serviced once it runs again: outside any episode, or in the one where it took it (R237, R243, R287, R390). -/
def Group.servicedAs (g : Group) (nested : Bool) : Bool := g.park.isNone && (nested || g.episode.isNone)

/-- A group that took the fault has been serviced, and has not been killed (R243). -/
def State.servicedAny (s : State) (ks : List Taker) : Bool :=
  ks.any (fun k => s.groups.any (fun (g : Group) => g.start == k.start && !g.allRetired && g.servicedAs k.nested))

/-- A copy goes on from its failing chunk (R243). -/
def Copy.resume (c : Copy) : Copy := { c with fault := none, delivered := [], absent := none }

/-- The copy's fault has been serviced: the copy goes on (R243). -/
def Copy.serviced (c : Copy) (s : State) : Copy := if c.fault.isSome && s.servicedAny c.delivered then c.resume else c

/-- The number of a copy's chunks (R241). -/
def Copy.chunks (c : Copy) : Nat := (addrVa c.dest + c.bytes - 1) / 64 - addrVa c.dest / 64 + 1

/-- The copy has still to read a chunk. -/
def Copy.unread (c : Copy) : Bool :=
  c.next + 64 < c.chunks || (List.range 64).any (fun i =>
    c.next + i < c.chunks && !c.done.getLsbD i && !c.read.any (fun p => p.1 == c.next + i))

/-- Reads that the groups `p` have started go on: those of a `tld`, of a copy, of the bias of an operation in a launch queue (R302, R323). -/
def Workgroup.reading (w : Workgroup) (p : Nat → Bool) : Bool :=
  w.xfers.any (fun x => !x.store && !x.failed && p x.start) || w.copies.any (fun c => p c.start && c.unread) ||
    w.ops.any (fun o => o.phase == .queued && o.blk.bias && o.fault.isNone && p o.start)

/-- A `tst` of one of the groups `p` runs (R252, R356). -/
def Workgroup.storing (w : Workgroup) (p : Nat → Bool) : Bool := w.xfers.any (fun x => x.store && !x.failed && p x.start)

/-- Something that the groups `p` have started, and that an implicit release of theirs covers, goes on; what a fault has stopped does not (R253, R302,
R311, R356). -/
def Workgroup.unsettled (w : Workgroup) (p : Nat → Bool) : Bool :=
  w.storing p || { w with copies := w.copies.filter (fun c => c.fault.isNone) }.reading p

/-- The copies of workgroup `id` whose faults have been serviced go on (R243). -/
def State.serveCopies (s : State) (id : Nat) : State :=
  s.updWg id (fun w => { w with copies := w.copies.map (fun c => c.serviced s) })

/-- The fields of a latch word (R249). -/
structure LatchWord where
  x : Bool
  core : Nat
  slot : Nat
  waiting : Nat
  shared : Nat
  deriving DecidableEq, Repr

def readLatch (m : Memory) (pa : Nat) : LatchWord :=
  let v := readLE m pa 8
  { x := bitsOf v 63 63 == 1, core := bitsOf v 62 55, slot := bitsOf v 54 48, waiting := bitsOf v 47 32, shared := bitsOf v 31 0 }

def LatchWord.toNat (l : LatchWord) : Nat :=
  (if l.x then 2 ^ 63 else 0) + l.core % 256 * 2 ^ 55 + l.slot % 128 * 2 ^ 48 + l.waiting % 65536 * 2 ^ 32 + l.shared % 2 ^ 32

/-- Changes the latch word at a physical address, atomically, for VF `vf`; `n` says how its page is marked dirty and logged, and in transit it waits
(R249, R282, R290, R413). -/
def State.updLatch (s : State) (vf pa : Nat) (n : Note) (f : LatchWord → LatchWord) : State :=
  (s.storeLE pa 8 (f (readLatch s.mem pa)).toNat).noteWrite vf pa n

/-- The VF of a group. -/
def State.groupVf (s : State) (g : Group) : Nat := match s.wg? g.wg with | some w => w.vf | none => 0

/-- The VF of one who waits for a latch. -/
def State.waiterVf (s : State) (w : Waiter) : Nat :=
  match w with
  | .group c k _ => match s.group? c k with | some g => s.groupVf g | none => 0
  | .arbiter vf _ => vf

/-- Where a latch leads for the arbiter, which asks for it for the region with name `rcb` of the VF: by the region's own field, or by that of an RCB which
it has not read yet (R101, R102). -/
def State.arbiterPlace (s : State) (vf rcb : Nat) : Place :=
  let ctx := rcb / 2 ^ 56
  let latch := match s.region? vf rcb with
    | some r => addrVa r.eff.latch
    | none =>
      match s.placeShared true vf ctx (rcb % 2 ^ 56 + 0x58) false with
      | .ok pa _ _ _ => readLE s.mem pa 8 % 2 ^ 56
      | _ => 0
  s.placeShared true vf ctx latch true

/-- What a write of the latch word for one who waits for it does beside the word's bytes (R290, R413). -/
def State.waiterNote (s : State) (w : Waiter) : Note :=
  match w with
  | .group c k _ => match (s.group? c k).bind (fun g => g.wait) with | some x => x.note | none => Note.noted
  | .arbiter vf rcb => (s.arbiterPlace vf rcb).note

def State.waiters (s : State) (pa : Nat) : List Waiter :=
  match s.latchQs.find? (fun q => q.pa == pa) with
  | some q => q.waiters
  | none => []

def State.setWaiters (s : State) (pa : Nat) (ws : List Waiter) : State :=
  let rest := s.latchQs.filter (fun q => q.pa != pa)
  { s with latchQs := if ws = [] then rest else { pa := pa, waiters := ws } :: rest }

/-- Joins a latch's queue of acquirers: waiting rises, saturating (R249, R251). -/
def State.joinLatch (s : State) (pa : Nat) (w : Waiter) (n : Note) : State :=
  (s.setWaiters pa (s.waiters pa ++ [w])).updLatch (s.waiterVf w) pa n (fun l => { l with waiting := min 65535 (l.waiting + 1) })

/-- Leaves a latch's queue ungranted (R114, R391). -/
def State.leaveLatch (s : State) (pa : Nat) (w : Waiter) : State :=
  if (s.waiters pa).contains w then
    (s.setWaiters pa ((s.waiters pa).filter (fun x => x != w))).updLatch (s.waiterVf w) pa (s.waiterNote w) (fun l => { l with waiting := l.waiting - 1 })
  else s

/-- A group takes a granted latch into its table, one hold more (R251). -/
def Group.hold (pa : Nat) (va : Dword) (excl : Bool) (n : Note) (g : Group) : Group :=
  if g.holds.any (fun h => h.pa == pa) then
    { g with holds := g.holds.map (fun h => if h.pa = pa then { h with count := h.count + 1 } else h) }
  else { g with holds := g.holds ++ [{ pa := pa, va := va, excl := excl, count := 1, note := n }] }

/-- The address of the latch that a group's acquire waits for, from its wait. -/
def Group.waitAddr (g : Group) : Dword :=
  match g.wait with
  | some w => w.addr
  | none => 0

/-- Whether the head of the queue can be granted (R251). -/
def canGrant (l : LatchWord) (w : Waiter) : Bool :=
  match w with
  | .group _ _ false => !l.x
  | _ => !l.x && l.shared == 0

/-- Grants the latch to one waiter (R251). -/
def State.grantTo (s : State) (pa : Nat) (w : Waiter) : State :=
  let s0 := s.setWaiters pa ((s.waiters pa).drop 1)
  match w with
  | .group c k excl =>
    let s1 := s0.updLatch (s.waiterVf w) pa (s.waiterNote w) (fun l => if excl then { l with x := true, core := c, slot := k, waiting := l.waiting - 1 }
      else { l with shared := l.shared + 1, waiting := l.waiting - 1 })
    s1.updGroup c k (fun g => { (g.hold pa g.waitAddr excl (s.waiterNote w)) with
      wait := g.wait.map (fun x => { x with kind := .granted }) })
  | .arbiter vf rcb =>
    let s1 := s0.updLatch vf pa (s.waiterNote w) (fun l => { l with x := true, core := 255, slot := 127, waiting := l.waiting - 1 })
    match s1.region? vf rcb with
    | some _ => s1.updRegion vf rcb (fun r => { r with latch := .granted })
    | none => { s1 with earlyGrants := s1.earlyGrants ++ [(vf, rcb)] }

/-- Clears one hold from the latch word (R252; log entry 49). -/
def State.clearHold (s : State) (vf pa : Nat) (excl : Bool) (n : Note) : State :=
  s.updLatch vf pa n (fun l => if excl then { l with x := false, core := 0, slot := 0 } else { l with shared := l.shared - 1 })

/-- The access slice of a group: one lane at the start of the access function, whose first operation stands at `first`, where it is known (R33,
R284). -/
def AccessSlice.start (l : Lane) (func : Nat) (first : Option Nat) : AccessSlice :=
  { lane := { l with life := .live, pos := posWord 0 (first.getD 0), func := BitVec.ofNat 16 func, frameBase := 0, atStart := first.isNone, bad := [] },
    ended := false, stopped := none, taken := none }

/-- A lane at the start of its group, in a function whose first operation stands at `first`, where it is known (R32, R33, R91). -/
def Lane.start (args alloc : Dword) (func : Nat) (first : Option Nat) (arg : Word) : Lane :=
  { regs := [(0, args.extractLsb' 0 32), (1, args.extractLsb' 32 32), (2, alloc.extractLsb' 0 32),
      (3, alloc.extractLsb' 32 32), (4, arg)].foldl (fun m p => Sparse.put m p.1 p.2) [],
    bad := [], life := .live, pos := posWord 0 (first.getD 0), func := BitVec.ofNat 16 func, frameBase := 0, atStart := first.isNone }

/-- A group at its start (R32, R33, R89, R132, R388). -/
def Group.fresh (core slot wg grp start root : Nat) (lanes : List Lane) (acc : Option AccessSlice) : Group :=
  { core := core, slot := slot, wg := wg, grp := grp, start := start, root := root, lanes := lanes, run := 0, mdef := 0x00800000,
    flags := 0, lateFlags := 0, lateAt := 0, spinOff := false, spinCount := 0, demotions := 0, trapCtl := 0, sample := 0, acks := 0,
    iters := [], lastLanes := 0, watched := [], demos := [], park := none, wait := none, kept := [], syncAt := 0, readMarks := [], holds := [], arrived := [], episode := none, level := 0,
    skips := [], breakSkips := [], tagged := none, acc := acc, feeds := [], lastDispatch := 0, yielded := false, issued := false, merged := none,
    owed := 0 }

/-- The image of a workgroup's region, as trees. -/
def State.groupTrees (s : State) (w : Workgroup) (r : Region) : Option Trees := s.trees? w.vf w.ctx r.eff.image r.code

/-- The parcel of a function's first position, where its tree can be read that far. Where it cannot, the lane stands at parcel 0 until it can; the
first choice of a run takes the fault there (R33, R37). -/
def startParcel (t : Option Trees) (func : Nat) : Option Nat :=
  match t with
  | none => none
  | some t =>
    match t.fn? func with
    | none => none
    | some e => match t.firstParcel e with | .ok p => some p | .error _ => none

/-- The loops around the first position of function `func`, at parcel `p`, where that is known (R33, R86). -/
def startLoops (t : Option Trees) (func : Nat) (p : Option Nat) : List LoopId :=
  match t, p with
  | some t, some p => t.loopsAround func 0 p
  | _, _ => []

/-- The iteration without the lanes `m`, if any are left. -/
def Iteration.less (m : Mask) (x : Iteration) : List Iteration := if x.mask &&& ~~~m = 0 then [] else [{ x with mask := x.mask &&& ~~~m }]

/-- The iteration of loop `l` that the lanes `m` begin. -/
def Iteration.begin (m : Mask) (l : LoopId) : Iteration := { loop := l, mask := m, quiet := true, granules := [], ran := 0, fresh := true }

/-- The lanes `m` begin an iteration of loop `l`, and have no other there. -/
def beginIn (m : Mask) (l : LoopId) (xs : List Iteration) : List Iteration :=
  Iteration.begin m l :: xs.flatMap (fun x => if x.loop = l then x.less m else [x])

/-- The lanes `m` enter loop `l` (R86). -/
def Group.enterLoop (m : Mask) (l : LoopId) (g : Group) : Group := { g with iters := beginIn m l g.iters }

/-- The lanes `m` stand inside the loops `ls`, which they have entered (R86). -/
def Group.enterLoops (m : Mask) (ls : List LoopId) (g : Group) : Group := ls.foldl (fun g l => g.enterLoop m l) g

end Sys2Proof.Machine
end

