-- ==== Sys2Proof/Machine/Region.lean ====
section
/-! DEFINITION. Region control blocks, effective values, budgets, and the completion of regions (R97 to R114, R449). -/

namespace Sys2Proof.Machine

/-- Reads `n` bytes of device memory for the hub's agents, untagged (R295). A page in transit is read where it still stands; the agent's wait for
it is `State.visit` (R282). -/
def State.devRead (s : State) (vf ctx va n : Nat) : Option Nat :=
  match s.placeShared true vf ctx va false with
  | .ok pa _ _ _ => some (readLE s.mem pa n)
  | _ => none

/-- An agent of the hub reads or is about to write at an address of device memory: it sets the touch bits, and waits for a page in transit or for
a promotion; the TLBs keep the translation (R282, R290, R292). -/
def State.visit (s : State) (vf ctx va : Nat) : State :=
  match s.placeShared false vf ctx va false with
  | .ok _ g path leaves => (s.noteAccess vf g path leaves false).fillTlb vf ctx va
  | .transit => s.hold
  | .fill a => s.holdFill vf ctx a
  | _ => s

/-- The page of an address of device memory moves, or is to be promoted first: an agent that needs it waits (R282). -/
def State.busyPage (s : State) (vf ctx va : Nat) : Bool :=
  match s.placeShared false vf ctx va false with
  | .transit => true
  | .fill _ => true
  | _ => false

/-- The promotions for which an agent waits that needs the pages of the addresses `vas` (R282). -/
def State.fillPages (s : State) (vf ctx : Nat) (vas : List Nat) : State :=
  vas.foldl (fun s a => match s.placeShared false vf ctx a false with | .fill g => s.startFill vf ctx g | _ => s) s

/-- Writes `n` bytes of device memory for the hub's agents; a page in transit, one to be promoted, and a full dirty log make the agent wait (R282,
R413). -/
def State.devWrite (s : State) (vf ctx va n v : Nat) : State :=
  match s.placeShared false vf ctx va true with
  | .ok pa g path leaves => (s.storeLE pa n v).noteAccess vf g path leaves true
  | .transit => s.hold
  | .fill a => s.holdFill vf ctx a
  | _ => s

/-- Bytes written by the hub's agents from `va` on, 4 at a time. -/
def State.devWriteBytes (s : State) (vf ctx va : Nat) (bs : List Byte) : State :=
  (List.range ((bs.length + 3) / 4)).foldl (fun s i =>
    let part := (bs.drop (4 * i)).take 4
    s.devWrite vf ctx (va + 4 * i) part.length (ofBytesLE part)) s

/-- Writes `n` bytes at a guest physical address for the hub's agents. -/
def State.gpaWrite (s : State) (vf gpa n v : Nat) : State :=
  match s.placeGpa false vf gpa true with
  | .ok pa g path leaves => (s.storeLE pa n v).noteAccess vf g path leaves true
  | .fill a => s.holdFill vf (s.curCtx vf) a
  | .fail .. => s
  | _ => s.hold

/-- An agent of the hub reads at a guest physical address: it sets the touch bits, and waits for a page in transit or for a promotion (R282,
R290). -/
def State.gpaVisit (s : State) (vf gpa : Nat) : State :=
  match s.placeGpa false vf gpa false with
  | .ok _ g path leaves => s.noteAccess vf g path leaves false
  | .fill a => s.holdFill vf (s.curCtx vf) a
  | .fail .. => s
  | _ => s.hold

/-- Bytes written at guest physical addresses from `gpa` on, 4 at a time. -/
def State.gpaWriteBytes (s : State) (vf gpa : Nat) (bs : List Byte) : State :=
  (List.range ((bs.length + 3) / 4)).foldl (fun s i =>
    let part := (bs.drop (4 * i)).take 4
    s.gpaWrite vf (gpa + 4 * i) part.length (ofBytesLE part)) s

/-- `n` bytes at a guest physical address; of a page in transit, where it still stands. -/
def State.gpaReadBytes (s : State) (vf gpa n : Nat) : Option (List Byte) :=
  match s.placeGpa true vf gpa false with
  | .ok pa _ _ _ => some (readBytes s.mem pa n)
  | _ => none

/-- Every page of a guest physical range is writable at stage two, a page in transit as any other (R414, R429). -/
def State.gpaWritable (s : State) (vf gpa n : Nat) : Bool :=
  n != 0 && gpa + n ≤ 2 ^ 56 &&
    (List.range ((gpa + n - 1) / 65536 + 1 - gpa / 65536)).all (fun i =>
      match s.stageTwoAs true vf ((gpa / 65536 + i) * 65536) true with
      | .fail _ => false
      | _ => true)

/-- Field of an RCB: `n` bytes at offset `off` of the RCB at `rcb`. -/
def State.rcb (s : State) (vf ctx rcb off n : Nat) : Nat := (s.devRead vf ctx (rcb + off) n).getD 0

/-- The context in which a region's addresses are read: its own, or the current one for a root (log entry 15). -/
def Region.field (s : State) (r : Region) (off n : Nat) : Nat := s.rcb r.vf r.ctx r.va off n

/-- Writes the state word of an RCB: state, thin and fcode (R97). -/
def State.writeRcbState (s : State) (r : Region) (st fcode : Nat) : State :=
  s.devWrite r.vf r.ctx r.va 4 (fcode % 256 * 256 + (if r.thin then 16 else 0) + st % 16)

/-- A region enters state `st`: the arbiter writes it (R98). -/
def State.setRegionState (s : State) (r : Region) (st : Nat) : State :=
  (s.updRegion r.vf r.rcb (fun x => { x with st := st })).writeRcbState r st 0

/-- A region is finished: state 7, 8 or 9. -/
def Region.done (r : Region) : Bool := 7 ≤ r.st && r.st ≤ 9

/-- A region holds its budget: from admission to its end (R106). -/
def Region.holdsBudget (r : Region) : Bool := !r.isRoot && (r.st == 5 || r.st == 6)

def State.childrenOf (s : State) (r : Region) : List Region :=
  s.regions.filter (fun c => c.vf == r.vf && c.parent == r.rcb && !c.isRoot)

/-- The regions of the subtree of `r`, a parent before its children. The first argument bounds the depth. -/
def State.subtree (s : State) : Nat → Region → List Region
  | 0, r => [r]
  | n + 1, r => r :: (s.childrenOf r).flatMap (s.subtree n)

/-- The regions `rs` and their descendants, level by level. The first argument bounds the levels. -/
def State.levels (s : State) : Nat → List Region → List Region
  | 0, rs => rs
  | n + 1, rs => rs ++ (if rs.isEmpty then [] else s.levels n (rs.flatMap s.childrenOf))

/-- Workgroups of a region that are placed, saved ones among them. -/
def State.wgsOf (s : State) (r : Region) : List Workgroup :=
  s.wgs.filter (fun w => w.vf == r.vf && w.rcb == r.rcb)

def State.groupsOf (s : State) (r : Region) : List Group :=
  s.groups.filter (fun g => (s.wgsOf r).any (fun w => w.id == g.wg))

/-- Workgroups of the grid of a region (R112). -/
def Eff.gridSize (e : Eff) : Nat := e.ndie * e.nclu * e.nwg

/-- The region `c` is a descendant of `r`. The first argument bounds the depth. -/
def State.descends (s : State) : Nat → Region → Region → Bool
  | 0, _, _ => false
  | n + 1, c, r =>
    c.vf == r.vf && (c.parent == r.rcb ||
      (match s.region? c.vf c.parent with | some p => !p.isRoot && s.descends n p r | none => false))

/-- Where a region's completion latch lies; of a page in transit, where it still stands (R282). -/
def State.latchPlace (s : State) (r : Region) : Place := s.placeShared true r.vf r.ctx (addrVa r.eff.latch) true

/-- Physical address of a region's completion latch. -/
def State.regionLatch (s : State) (r : Region) : Option Nat :=
  match s.latchPlace r with
  | .ok pa _ _ _ => some pa
  | _ => none

/-- The groups of a workgroup that are live, running or saved. -/
def State.liveGroups (s : State) (w : Workgroup) : List Group := (s.membersOf w).filter (fun g => !g.allRetired)

/-- A group waits in an acquire on the completion latch of a descendant of `r` (R106, R109). Its wait names the latch's
address, and keeps it while the group is saved (R378). -/
def State.waitsOnChild (s : State) (r : Region) (g : Group) : Bool :=
  match g.wait with
  | some { kind := .latch, addr := a, .. } =>
    match s.placeShared true r.vf r.ctx (addrVa a) false with
    | .ok pa _ _ _ =>
      (s.regions.filter (fun c => !c.done && s.descends s.regions.length c r)).any (fun c => s.regionLatch c == some pa)
    | _ => false
  | _ => false

/-- A placed workgroup counts as unused: every live group in it waits on a descendant's latch, or its region is in
state 6 (R106). A workgroup that was saved while it waited counts so until its restore. -/
def State.wgUnused (s : State) (r : Region) (w : Workgroup) : Bool :=
  r.st == 6 || (!(s.liveGroups w).isEmpty &&
    (s.liveGroups w).all (fun g => s.waitsOnChild r g))

/-- Engines that a placed workgroup occupies (R106). -/
def wgEngines (r : Region) (w : Workgroup) : Nat := max r.eff.wgeng (if w.engine.isSome then 1 else 0)

/-- The cores that workgroups occupy, each once (R106). -/
def coresOf (ws : List Workgroup) : List Nat := (List.range 256).filter (fun c => ws.any (fun w => w.core == c))

/-- Unused cores and engines of a region's budget (R106). -/
def State.unusedBudget (s : State) (r : Region) : Int × Int :=
  let own := (s.wgsOf r).filter (fun w => !w.ended && !s.wgUnused r w)
  let kids := (s.childrenOf r).filter Region.holdsBudget
  ((r.eff.cores : Int) - (coresOf own).length - (kids.map (fun c => c.eff.cores)).sum,
   (r.eff.engines : Int) - (own.map (wgEngines r)).sum - (kids.map (fun c => c.eff.engines)).sum)

/-- The bindings of the context to the latch at virtual address `va`, which stands at physical address `pa`: those that name it, by its address or by
another that leads there (R250, R252). -/
def State.bindingsTo (s : State) (vf ctx va pa : Nat) : List Binding :=
  s.bindings.filter (fun b => b.vf == vf && b.ctx == ctx && (addrVa b.latch == va ||
    (match s.placeGeneric vf ctx (addrVa b.latch) false with | .ok q _ _ _ => q == pa | _ => false)))

/-- Discards the shadow copies of every binding of the context to a latch that a group holds (R252). -/
def State.discardShadows (s : State) (vf ctx : Nat) (h : Hold) : State :=
  let bs := s.bindingsTo vf ctx (addrVa h.va) h.pa
  { s with shadows := s.shadows.filter (fun h => !(h.vf == vf && h.ctx == ctx &&
      bs.any (fun b => b.start ≤ h.loc && h.loc < b.start + b.len))) }

/-- The number of a region's ancestors. The first argument bounds it. -/
def State.depthOf (s : State) : Nat → Region → Nat
  | 0, _ => 0
  | n + 1, r => match s.region? r.vf r.parent with | some p => if p.isRoot then 0 else s.depthOf n p + 1 | none => 0

/-- The region whose end has ended `r`: the last of its ancestors, from it on, that are being ended. The first argument bounds the ancestors. -/
def State.endedBy (s : State) : Nat → Region → Region
  | 0, r => r
  | n + 1, r => match s.region? r.vf r.parent with | some p => if p.isRoot || !p.ending then r else s.endedBy n p | none => r

/-- A deeper region of the subtree that is being ended, with `r` in it, is not finished: `r` completes after it (R114). -/
def State.deeperLeft (s : State) (r : Region) : Bool :=
  let n := s.regions.length
  r.ending && s.regions.any (fun q => q.vf == r.vf && !q.isRoot && q.ending && !q.done && s.depthOf n r < s.depthOf n q &&
    (s.endedBy n q).rcb == (s.endedBy n r).rcb)

/-- The conditions of R113 for a region: every group ended, every child finished, copies and stores done, and no
acknowledgement outstanding. A region of another context keeps its state (R449). -/
def State.canComplete (s : State) (r : Region) : Bool :=
  !r.isRoot && !r.done && r.ctx == s.curCtx r.vf && (s.wgsOf r).isEmpty && (r.ending || (r.st == 5 || r.st == 6) && r.placed == r.eff.gridSize) &&
    (s.childrenOf r).all Region.done && !s.deeperLeft r && !(s.posted.any (fun p => p.vf == r.vf && p.rcb == r.rcb)) &&
    (r.ending || BitVec.ofNat 32 (r.field s 0x88 4) == r.lastLinks)

/-- Ends the arbiter's request on a region's completion latch: a release when it was granted, a withdrawal when it was
queued (R105, R113, R114; log entry 31). -/
def State.dropRegionLatch (s : State) (r : Region) : State :=
  match s.regionLatch r, r.latch with
  | some pa, .granted => s.clearHold r.vf pa true (s.latchPlace r).note
  | some pa, .queued => s.leaveLatch pa (.arbiter r.vf r.rcb)
  | _, _ => s

/-- Decrements the word at signal, if signal is nonzero (R105, R113). -/
def State.decSignal (s : State) (r : Region) : State :=
  let va := addrVa r.eff.signal
  if r.eff.signal = 0 then s
  else
    match s.devRead r.vf r.ctx va 4 with
    | some v => s.devWrite r.vf r.ctx va 4 ((v + 2 ^ 32 - 1) % 2 ^ 32)
    | none => s

/-- Completes a region: tend and used, state 7 or 9, the latch, and the signal, in this order (R113, R114). Its die
barriers and its watch units end with it (R257, R435). -/
def State.completeRegion (s : State) (r : Region) : State :=
  let s1 := s.devWrite r.vf r.ctx (r.va + 0xC8) 8 s.hubTime
  let s2 := s1.devWrite r.vf r.ctx (r.va + 0xD0) 8 r.used
  let s3 := s2.setRegionState { r with thin := false } (if r.ending then 9 else 7)
  let s4 := (s3.dropRegionLatch r).updRegion r.vf r.rcb (fun x => { x with latch := .none, thin := false })
  let s5 := s4.decSignal r
  { s5 with dieBars := s5.dieBars.filter (fun b => !(b.vf == r.vf && b.rcb == r.rcb)),
            watch := s5.watch.filter (fun u => !(u.vf == r.vf && u.rcb == r.rcb)) }

/-- The words of device memory by which the arbiter knows a region: its RCB, its residency set, its latch and its signal. -/
def Region.words (r : Region) : List Nat :=
  r.va :: ([r.eff.rset, addrVa r.eff.latch, addrVa r.eff.signal].filter (fun a => a != 0))

/-- The arbiter works on a region: it reads the region's words, and waits while the page of one is in transit or is to be promoted first (R282,
R290). -/
def State.onRegion (s : State) (r : Region) (f : State → State) : State :=
  if r.words.any (s.busyPage r.vf r.ctx) then s.fillPages r.vf r.ctx r.words
  else f (r.words.foldl (fun s a => s.visit r.vf r.ctx a) s)

/-- Completes a region if it can complete. -/
def State.tryComplete (s : State) (vf rcb : Nat) : State :=
  match s.region? vf rcb with
  | some r => if s.canComplete r then s.onRegion r (fun s => s.completeRegion r) else s
  | none => s

/-- A region all of whose groups have ended while descendants remain enters state 6 (R98). -/
def State.settleRegion (s : State) (vf rcb : Nat) : State :=
  match s.region? vf rcb with
  | some r =>
    if r.st = 5 ∧ r.ctx = s.curCtx vf ∧ r.placed = r.eff.gridSize ∧ (s.wgsOf r).all (fun w => w.ended) ∧ (s.childrenOf r).any (fun c => !c.done) then
      s.onRegion r (fun s => s.setRegionState r 6)
    else s
  | none => s

end Sys2Proof.Machine
end

