-- ==== Sys2Proof/Machine/Posted.lean ====
section
/-! DEFINITION. The recorder of accesses and replay mode, writes on their way to their homes and what they do there, and the retirement of lanes, which
comes after their group's writes (R94, R231, R269, R310, R311, R318, R426, R443, R445). -/

namespace Sys2Proof.Machine

/-- The 16 bytes of an entry. -/
def ReplayEntry.bytes (e : ReplayEntry) : List Byte :=
  bytesLE 8 (e.kind * 2 ^ 62 + e.addr % 2 ^ 56) ++ bytesLE 4 e.pos.toNat ++ bytesLE 4 (e.core * 2 ^ 24 + e.slot * 2 ^ 17)

/-- Replay recording and replay mode of a context (vf.dbgc.rec, vf.dbgc.play); they act on the VF's current context. -/
def State.recording (s : State) (vf ctx : Nat) : Bool := (s.vfReg vf 0x060).getLsbD 1 && s.curCtx vf == ctx
def State.playing (s : State) (vf ctx : Nat) : Bool := (s.vfReg vf 0x060).getLsbD 2 && s.curCtx vf == ctx

/-- Size exponent, write index and read index of the replay log. -/
def State.replayLog (s : State) (vf : Nat) : Nat × Nat × Nat :=
  (bitsOf (s.vfReg vf 0x0B0).toNat 4 0, (s.vfReg vf 0x0B4).toNat, (s.vfReg vf 0x0B8).toNat)

/-- An access of one granule of SRAM as the recorder knows it: its first byte there, and its kind (R443). -/
structure Touch where
  pa : Nat
  kind : Nat
  deriving DecidableEq, Repr

/-- The touches of `[pa, pa + n)`, granule by granule, where it lies in SRAM (R443; log entry 36). -/
def touchesOf (pa n kind : Nat) : List Touch :=
  if isSram pa then (granulesOf pa n).map (fun g => { pa := max pa (32 * g), kind := kind }) else []

/-- The address by which the log names a location of SRAM: that of the flat window, or the offset in the context's share of the die store. -/
def State.locationOf (s : State) (vf ctx pa : Nat) : Nat :=
  if Config.dieStoreBase ≤ pa then pa - Config.dieStoreBase - ((pa - Config.dieStoreBase) / 2 ^ 28 * 2 ^ 28 + ((s.partOf vf).getD 0) * 2 ^ 23) -
      (s.dsShare vf ctx).1 * 65536
  else (s.lsBase vf).toNat + (pa - Config.sliceBase)

/-- The entry that an access would have in the log: its location is the aligned 4-byte unit of its first byte. -/
def State.touchEntry (s : State) (ac : Accessor) (t : Touch) : ReplayEntry :=
  { kind := t.kind, addr := s.locationOf ac.vf ac.ctx t.pa / 4 * 4, pos := ac.pos, core := ac.core, slot := ac.slot }

/-- Appends an entry to the replay log. -/
def State.logReplay (s : State) (vf : Nat) (e : ReplayEntry) : State :=
  let (n, w, _) := s.replayLog vf
  (s.gpaWriteBytes vf ((s.vfReg vf 0x0A8).toNat + 16 * (w % 2 ^ n)) e.bytes).setVfReg vf 0x0B4
    (BitVec.ofNat 64 (logNext n w))

/-- Records accesses of SRAM while recording is on, each as it is performed: with every access in the log, the log holds the order of every pair that
R426 names, and what R443 adds (log entry 36). -/
def State.recordTouches (s : State) (ac : Accessor) (ts : List Touch) : State :=
  if s.recording ac.vf ac.ctx then ts.foldl (fun s t => s.logReplay ac.vf (s.touchEntry ac t)) s else s

/-- The log has no room for the accesses. -/
def State.replayFull (s : State) (ac : Accessor) (ts : List Touch) : Bool :=
  let (n, w, r) := s.replayLog ac.vf
  s.recording ac.vf ac.ctx && ts != [] && (logFull n w r || 2 ^ n < logFill n w r + ts.length)

/-- Entry `i` of the replay log. -/
def State.readReplay (s : State) (vf i : Nat) : Option (List Byte) :=
  let (n, _, _) := s.replayLog vf
  s.gpaReadBytes vf ((s.vfReg vf 0x0A8).toNat + 16 * (i % 2 ^ n)) 16

/-- The log names an entry between index `r` and its write index. -/
def State.replayNames (s : State) (vf r : Nat) (e : ReplayEntry) : Bool :=
  let (n, w, _) := s.replayLog vf
  (List.range (logFill n w r)).any (fun k => s.readReplay vf (r + k) == some e.bytes)

/-- Of the entries of an operation, how many it can go past in order from index `r` on, and how many of those stand in the log: one that the log does not
name runs freely, and one that it names has to stand where replay mode reads (R445). -/
def State.replayPasses (s : State) (vf : Nat) : Nat → List ReplayEntry → Nat × Nat
  | _, [] => (0, 0)
  | r, e :: es =>
    let (n, _, _) := s.replayLog vf
    if !s.replayNames vf r e then
      let (a, b) := s.replayPasses vf r es
      (a + 1, b)
    else if s.readReplay vf r = some e.bytes then
      let (a, b) := s.replayPasses vf (logNext n r) es
      (a + 1, b + 1)
    else (0, 0)

/-- Replay mode reads `k` entries from index `r` on: the pages of the log are touched, and one in transit is waited for (R282, R290). -/
def State.visitReplay (s : State) (vf r k : Nat) : State :=
  let (n, _, _) := s.replayLog vf
  (List.range k).foldl (fun s i => s.gpaVisit vf ((s.vfReg vf 0x0A8).toNat + 16 * ((r + i) % 2 ^ n))) s

/-- What replay mode does with the next accesses of a group (R445). -/
inductive Gate where
  | go (s : State)
  | stay (s : State)
  | stop

/-- How many of its entries the operation `key` has gone past. -/
def State.turnsOf (s : State) (key : Nat) : Nat :=
  match s.turns.find? (fun x => x.1 == key) with
  | some x => x.2
  | none => 0

/-- The operation `key` has gone past `k` of its entries, or none where it is done with them. -/
def State.setTurns (s : State) (key k : Nat) : State :=
  let rest := s.turns.filter (fun x => x.1 != key)
  { s with turns := if k = 0 then rest else (key, k) :: rest }

/-- The entries of the operation `key`: each that the log names waits until it stands at the read index, which then advances; the operation is performed
when all have had their turn. Where the stop index names the next of them, or one that it would go past now, the context stops before the operation
(R445; log entry 36). -/
def State.replayGate (s : State) (key vf ctx : Nat) (es : List ReplayEntry) : Gate :=
  if s.playing vf ctx then
    let (n, _, r) := s.replayLog vf
    let k := s.turnsOf key
    let rest := es.drop k
    let (a, b) := s.replayPasses vf r rest
    let named := rest.any (s.replayNames vf r)
    if !named then .go (s.setTurns key 0)
    else if (List.range (max b 1)).any (fun j => (List.range j).foldl (fun i _ => logNext n i) r == (s.vfReg vf 0x0BC).toNat) then .stop
    else
      let s1 := (s.visitReplay vf r b).setVfReg vf 0x0B8 (BitVec.ofNat 64 ((List.range b).foldl (fun i _ => logNext n i) r))
      if a = rest.length then .go (s1.setTurns key 0) else .stay (if b = 0 then s else s1.setTurns key (k + a))
  else .go s

/-- The number of an operation of a group, by the group's start and its position (log entry 36). -/
def Accessor.key (ac : Accessor) : Nat := (ac.start * 2 ^ 48 + ac.func.toNat * 2 ^ 32 + ac.pos.toNat) * 2

/-- The number of a part of an agent's work: the copy, the transfer or the write with identity `id`, and its part `k`. -/
def agentKey (id k : Nat) : Nat := (id * 2 ^ 48 + k) * 2 + 1

/-- The step under way is not made, and the context of an access stops before it (R445). -/
def State.haltAt (s : State) (ac : Accessor) : State := { s with held := true, halts := some ac }

/-- Accesses of SRAM that come with something else, and then `f`: the recorder logs them where it has room, replay mode lets them take their turn, and
else the step waits, or the context stops (R443, R445). -/
def State.logged (s : State) (ac : Accessor) (ts : List Touch) (f : State → State) : State :=
  if s.replayFull ac ts then s.hold
  else
    match s.replayGate ac.key ac.vf ac.ctx (ts.map (s.touchEntry ac)) with
    | .go s1 => f (s1.recordTouches ac ts)
    | .stay _ => s.hold
    | .stop => s.haltAt ac

/-- A group as the recorder knows it, at the position of the lowest of the lanes `m`. -/
def Group.accessor (g : Group) (w : Workgroup) (m : Mask) : Accessor :=
  let l := g.lane (lowest m)
  { vf := w.vf, ctx := w.ctx, rcb := w.rcb, core := g.core, slot := g.slot, start := g.start, pos := l.pos, func := l.func, mask := m }

/-- Integer value of a location of `n` bytes for an operation of type `ty`. -/
def atomInt (ty : Ty) (v : Nat) : Int := if ty.signed then (BitVec.ofNat ty.bits v).toInt else (v : Int)

/-- The new value of a location, and the flags (R266). `v` is the operand, `cmp` the comparand of `cas`. -/
def atomStep (op : AtomOp) (ty : Ty) (rnd : Rnd) (ftz : Bool) (old v cmp : Nat) : FRes :=
  let m := 2 ^ ty.bits
  match op with
  | .add =>
    if ty = .f32 then fmtF32.add old v rnd ftz
    else { bits := (old + v) % m, flags := 0 }
  | .min => { bits := if atomInt ty v < atomInt ty old then v else old, flags := 0 }
  | .max => { bits := if atomInt ty old < atomInt ty v then v else old, flags := 0 }
  | .and => { bits := old &&& v, flags := 0 }
  | .or => { bits := old ||| v, flags := 0 }
  | .xor => { bits := old ^^^ v, flags := 0 }
  | .xchg => { bits := v, flags := 0 }
  | .cas => { bits := if old = cmp then v else old, flags := 0 }

/-- The die value of an `f32` shadow copy (R269). -/
def Shadow.f32 (h : Shadow) : FRes :=
  if h.nan || (h.posInf && h.negInf) then fmtF32.nanRes true
  else if h.posInf then { bits := fmtF32.inf, flags := 0 }
  else if h.negInf then { bits := fmtF32.signed true fmtF32.inf, flags := 0 }
  else fmtF32.round (Exact.ofInt h.fsum (-149)) h.allNegZero .rne false false false

/-- The home after a die value is folded in, with the flags (R269). -/
def Shadow.fold (h : Shadow) (home : Nat) : FRes :=
  if h.ty = .f32 then
    let d := h.f32
    let r := fmtF32.add home d.bits .rne false
    { bits := r.bits, flags := d.flags ||| r.flags }
  else atomStep h.op h.ty .rne false home h.ival.toNat 0

/-- What a posted write touches at its home (R443). -/
def PostedEffect.touches : PostedEffect → List Touch
  | .store pa bs => touchesOf pa bs.length 1
  | .signal p _ f _ => touchesOf p 4 1 ++ touchesOf f 4 1
  | .red _ ty _ _ pa _ => touchesOf pa (ty.bits / 8) 1
  | .tag g n _ => touchesOf (32 * g) (32 * n) 2
  | .fold pa h => touchesOf pa (h.ty.bits / 8) 1

/-- Who issued a posted write. -/
def Posted.accessor (p : Posted) : Accessor :=
  { vf := p.vf, ctx := p.ctx, rcb := p.rcb, core := p.core, slot := p.slot, start := p.start, pos := p.pos, func := p.func, mask := p.mask }

/-- Physical ranges that a posted write changes. -/
def PostedEffect.ranges : PostedEffect → List (Nat × Nat)
  | .store pa bs => [(pa, bs.length)]
  | .signal p _ f _ => [(p, 4), (f, 4)]
  | .red _ ty _ _ pa _ => [(pa, ty.bits / 8)]
  | .tag g n _ => [(32 * g, 32 * n)]
  | .fold pa h => [(pa, h.ty.bits / 8)]

/-- A group has overwritten `old` at `pa`: another group may still read it for some cycles, unless something orders the two (R310, R314; log entry
33). -/
def State.noteRecent (s : State) (start pa : Nat) (old : List Byte) : State :=
  if isSram pa && readBytes s.mem pa old.length != old then
    { s with recent := { pa := pa, old := old, start := start, born := s.now, upTo := s.fresh } :: s.recent, fresh := s.fresh + 1 }
  else s

/-- The effect of a posted write at its home (R231, R255, R267, R269). -/
def State.applyPosted (s : State) (p : Posted) : State :=
  match p.eff with
  | .store pa bs => (s.storeBytes pa bs).noteRecent p.start pa (readBytes s.mem pa bs.length)
  | .signal pp v f k =>
    (((s.storeLE pp 4 v.toNat).storeLE f 4 ((readLE s.mem f 4 + k.toNat) % 2 ^ 32)).noteRecent p.start pp (readBytes s.mem pp 4)).noteRecent
      p.start f (readBytes s.mem f 4)
  | .red op ty rnd ftz pa v =>
    let old := readLE s.mem pa (ty.bits / 8)
    let r := atomStep op ty rnd ftz old v.toNat 0
    let s1 := if r.bits = old then s else s.storeLE pa (ty.bits / 8) r.bits
    (s1.noteRecent p.start pa (readBytes s.mem pa (ty.bits / 8))).flagsToOwner p.core p.slot p.start r.flags
  | .tag g n t => (List.range n).foldl (fun s i => s.setTag (g + i) t) s
  | .fold pa h =>
    let r := h.fold (readLE s.mem pa (h.ty.bits / 8))
    ((s.storeLE pa (h.ty.bits / 8) r.bits).noteRecent p.start pa (readBytes s.mem pa (h.ty.bits / 8))).flagsToOwner p.core p.slot p.start r.flags

/-- A posted write is performed at its home now, and its pages are marked and logged (R231, R290, R413). -/
def State.performNow (s : State) (p : Posted) : State :=
  let s1 := (p.eff.ranges.zip p.notes).foldl (fun s x => s.noteWrite p.vf x.1.1 x.2) (s.applyPosted p)
  { s1 with posted := s1.posted.map (fun x => if x.id = p.id then { x with performed := true } else x) }

/-- What a posted write has to wait for in the recorder and in replay mode, and the state in which it is performed (R426, R443, R445). -/
def State.postedGate (s : State) (p : Posted) : Gate :=
  if s.replayFull p.accessor p.eff.touches then .stay s
  else
    match s.replayGate (agentKey p.id 0) p.vf p.ctx (p.eff.touches.map (s.touchEntry p.accessor)) with
    | .go s1 => .go (s1.recordTouches p.accessor p.eff.touches)
    | x => x

/-- A posted write is performed at its home now, where the recorder and replay mode let it; else what needs it waits, or the context stops (R231, R426,
R443, R445). -/
def State.performPosted (s : State) (p : Posted) : State :=
  if p.performed then s
  else
    match s.postedGate p with
    | .go s1 => s1.performNow p
    | .stay _ => s.hold
    | .stop => s.haltAt p.accessor

/-- A write is posted by a group. -/
def Posted.by (p : Posted) (core slot start : Nat) : Bool := p.core == core && p.slot == slot && p.start == start

/-- Of the writes `ps`, newest first, those that touch one of the ranges `rs`, or a range of a write already taken: all of them come before what
touches `rs`, oldest first (R302, R318). -/
def Posted.before (rs : List (Nat × Nat)) : List Posted → List Posted
  | [] => []
  | p :: ps =>
    if p.eff.ranges.any (fun a => rs.any (fun b => meets a.1 a.2 b.1 b.2)) then Posted.before (p.eff.ranges ++ rs) ps ++ [p]
    else Posted.before rs ps

/-- Performs the unperformed writes of a group that come before what touches the ranges `rs`, those with an identity below `n` (R318). -/
def State.performBefore (s : State) (core slot start n : Nat) (rs : List (Nat × Nat)) : State :=
  (Posted.before rs (s.posted.filter (fun q => q.by core slot start && !q.performed && q.id < n)).reverse).foldl (fun s q => s.performPosted q) s

/-- Performs the older writes of the group that `p` follows at a common location, and then `p` (R318). -/
def State.performInOrder (s : State) (p : Posted) : State :=
  (s.performBefore p.core p.slot p.start p.id p.eff.ranges).performPosted p

/-- Performs the unperformed posted writes of an owner that come before an access of `[pa, pa + n)` (R66, R302, R318). -/
def State.flushOwner (s : State) (core slot start pa n : Nat) : State := s.performBefore core slot start s.seq [(pa, n)]

/-- Performs the unperformed posted writes that satisfy `f`, in the order of their issue. -/
def State.flushWhere (s : State) (f : Posted → Bool) : State :=
  (s.posted.filter (fun q => !q.performed && f q)).foldl (fun s q => s.performPosted q) s

/-- The write is one of a group of workgroup `w`. -/
def Posted.ofWg (p : Posted) (w : Workgroup) : Bool := p.core == w.core && w.slots.contains p.slot && p.vf == w.vf && p.rcb == w.rcb

/-- The arrive-and-drop of the retiring lanes `mask` of a group, on every barrier of its workgroup, each an access of the object (R94, R443). -/
def State.arriveLanes (s : State) (g : Group) (w : Workgroup) (mask : Mask) : State :=
  (w.bars.foldl (fun s b =>
    let k := b.laneMembers g.slot &&& mask
    if k = 0 then s
    else s.logged (g.accessor w mask) (touchesOf b.pa 16 1) (fun s =>
      s.barStep b.pa (BarFields.arriveDrop (countLanes (k &&& ~~~(g.arrivedIn b.pa))) (countLanes k)))) s).updWg w.id
    (fun x => { x with bars := x.bars.map (Barrier.lose g.slot mask) })

/-- The arrive-and-drop of a workgroup on the die barriers that count it, each an access of the object by its last group (R94, R443). -/
def State.arriveWorkgroup (s : State) (w : Workgroup) (ac : Accessor) : State :=
  (s.dieBars.filter (DieBarrier.counts w)).foldl (fun s b =>
    s.logged ac (touchesOf b.pa 16 1) (fun s =>
      s.barStep b.pa (BarFields.arriveDrop (if b.arrived.contains w.lin then 0 else 1) 1))) s

/-- The arrive-and-drop of a workgroup on the die barriers that count it, after every write that its groups have posted (R94, R311). -/
def State.dropWorkgroup (s : State) (w : Workgroup) (ac : Accessor) : State :=
  if s.dieBars.any (DieBarrier.counts w) then (s.flushWhere (fun p => p.ofWg w)).arriveWorkgroup w ac else s

/-- The arrive-and-drop of retiring lanes on the barriers that count them, after every write that their group has posted (R94, R311). -/
def State.dropLanes (s : State) (g : Group) (w : Workgroup) (mask : Mask) : State :=
  if w.bars.any (fun b => b.laneMembers g.slot &&& mask != 0) then
    (s.flushWhere (fun p => p.by g.core g.slot g.start)).arriveLanes g w mask
  else s

/-- The arrivals of the lanes `k` of the group `g`, which have retired, and where they were the last of their workgroup and no group owes an arrival, that
of the workgroup (R94). -/
def State.arriveFor (s : State) (g : Group) (k : Mask) : State :=
  match s.wg? g.wg with
  | none => s
  | some w =>
    let s1 := s.dropLanes g w k
    if s1.wgRetired w.id ∧ (s1.groups.filter (fun x => x.wg == w.id)).all (fun x => x.owed == 0) then s1.dropWorkgroup w (g.accessor w k) else s1

/-- The lanes of a group that have not retired among `mask`. -/
def Group.unretired (g : Group) (mask : Mask) : Mask := maskOf (fun L => mask.getLsbD L && (g.lane L).life != .retired)

/-- The life of the lanes `k` of a group ends: they leave the run and a demotion (R88, R95). -/
def State.endLanes (s : State) (core slot : Nat) (k : Mask) : State :=
  s.updGroup core slot (fun g => { g with
    lanes := mapLanes (fun _ l => { l with life := .retired }) k g.lanes, run := g.run &&& ~~~k,
    demos := (g.demos.map (fun d => { d with lanes := d.lanes &&& ~~~k })).filter (fun d => d.lanes != 0) })

/-- The lanes of `mask` retire: their life ends, they leave the run and a demotion, and their barriers are adjusted (R94,
R95, R88). -/
def State.retireLanes (s : State) (core slot : Nat) (mask : Mask) : State :=
  match s.group? core slot with
  | none => s
  | some g =>
    let k := g.unretired mask
    if k = 0 then s else (s.endLanes core slot k).arriveFor g k

/-- The implicit arrival of the lanes `k` of a group has to wait: a barrier counts them while a `tst` of the group runs or something of it has still to
be read; or a die barrier counts the workgroup, no other lane of it is left, and the same holds of one of its groups (R94, R302, R311; log entry 48). -/
def State.arrivalWaits (s : State) (w : Workgroup) (g : Group) (k : Mask) : Bool :=
  let last := (s.groups.filter (fun x => x.wg == w.id)).all (fun x =>
    x.allRetired || (x.core == g.core && x.slot == g.slot && (lanesOf (x.unretired 0xFFFFFFFF)).all k.getLsbD))
  (w.bars.any (fun b => b.laneMembers g.slot &&& k != 0) && w.unsettled (fun x => x == g.start)) ||
    (last && s.dieBars.any (DieBarrier.counts w) && w.unsettled (fun _ => true))

/-- The lanes of a group are killed: where their implicit arrival has to wait, the group owes it (R93, R94, R311; log entry 48). -/
def State.killLanes (s : State) (core slot : Nat) : State :=
  match s.group? core slot with
  | none => s
  | some g =>
    let k := g.unretired 0xFFFFFFFF
    if k = 0 then s
    else if (s.wg? g.wg).any (fun w => s.arrivalWaits w g k) then
      (s.endLanes core slot k).updGroup core slot (fun g => { g with owed := g.owed ||| k })
    else (s.endLanes core slot k).arriveFor g k

/-- A group makes the arrivals that it owes, where they need not wait any more (R94, R311). -/
def State.payOwed (s : State) (g : Group) : State :=
  if g.owed = 0 ∨ (s.wg? g.wg).any (fun w => s.arrivalWaits w g g.owed) then s
  else (s.updGroup g.core g.slot (fun x => { x with owed := 0 })).arriveFor g g.owed

/-- The folds of a merge of the group stand out (R269). -/
def Posted.isFold (p : Posted) : Bool :=
  match p.eff with
  | .fold .. => !p.performed
  | _ => false

/-- A group owes homes folds of a merge that it has begun: a latch that it holds stays with it until they are performed (R272, R273). -/
def State.owesFolds (s : State) (g : Group) : Bool := s.posted.any (fun p => p.isFold && p.start == g.start)

/-- Releases every latch of a group's table, once for every hold, each an access of its word (R253, R443). -/
def State.releaseHolds (s : State) (g : Group) : State :=
  match s.wg? g.wg with
  | none => s
  | some w =>
    g.holds.foldl (fun s h => s.logged (g.accessor w 0) (touchesOf h.pa 8 1) (fun s =>
      (List.range h.count).foldl (fun s _ => s.clearHold w.vf h.pa h.excl h.note) s)) s

end Sys2Proof.Machine
end

