-- ==== Sys2Proof/Machine/Rcb.lean ====
section
/-! DEFINITION. What the arbiter reads of a region control block: its fields, inheritance, the words that it names, and the links of a list
(R97, R99, R102, R103, R105, R449). -/

namespace Sys2Proof.Machine

/-- The fields of an RCB, each its own (R97). -/
def State.ownFields (s : State) (vf ctx x : Nat) : Eff :=
  let f := fun off n => s.rcb vf ctx x off n
  { image := f 0x08 8, entry := bitsOf (f 0x10 4) 15 0, hasacc := bitsOf (f 0x14 4) 16 16 == 1, access := bitsOf (f 0x14 4) 15 0,
    ndie := bitsOf (f 0x18 4) 7 0, nclu := bitsOf (f 0x18 4) 15 8, nwg := bitsOf (f 0x1C 4) 16 0, ngrp := bitsOf (f 0x18 4) 23 16,
    args := BitVec.ofNat 64 (f 0x20 8), cores := bitsOf (f 0x28 4) 8 0, engines := bitsOf (f 0x28 4) 24 16,
    gbud := bitsOf (f 0x2C 4) 7 0, regs := bitsOf (f 0x2C 4) 15 8, win := bitsOf (f 0x2C 4) 23 16, lstore := bitsOf (f 0x30 4) 19 0,
    priv := bitsOf (f 0x34 4) 10 0, ctags := bitsOf (f 0x38 4) 22 16, qdepth := bitsOf (f 0x38 4) 12 8, wgeng := bitsOf (f 0x38 4) 2 0,
    copies := bitsOf (f 0x3C 4) 10 0, prio := bitsOf (f 0x40 4) 3 0, domain := bitsOf (f 0x40 4) 31 16, rset := f 0x48 8,
    thresh := bitsOf (f 0x44 4) 15 0, quantum := f 0x68 4, blimit := f 0x6C 4, latch := BitVec.ofNat 64 (f 0x58 8),
    signal := BitVec.ofNat 64 (f 0x60 8) }

/-- The effective fields: for each bit of omask the RCB's own, or the parent's effective ones (R99). -/
def Eff.inherit (own parent : Eff) (omask : Nat) : Eff :=
  let k := fun i => omask.testBit i
  { image := if k 0 then own.image else parent.image,
    entry := if k 1 then own.entry else parent.entry, hasacc := if k 1 then own.hasacc else parent.hasacc,
    access := if k 1 then own.access else parent.access,
    ndie := if k 2 then own.ndie else parent.ndie, nclu := if k 2 then own.nclu else parent.nclu,
    nwg := if k 2 then own.nwg else parent.nwg, ngrp := if k 2 then own.ngrp else parent.ngrp,
    args := if k 3 then own.args else parent.args,
    cores := if k 4 then own.cores else parent.cores, engines := if k 4 then own.engines else parent.engines,
    gbud := if k 5 then own.gbud else parent.gbud, regs := if k 5 then own.regs else parent.regs,
    win := if k 5 then own.win else parent.win, lstore := if k 5 then own.lstore else parent.lstore,
    priv := if k 5 then own.priv else parent.priv, ctags := if k 5 then own.ctags else parent.ctags,
    qdepth := if k 5 then own.qdepth else parent.qdepth, wgeng := if k 5 then own.wgeng else parent.wgeng,
    copies := if k 5 then own.copies else parent.copies,
    prio := if k 6 then own.prio else parent.prio, domain := if k 7 then own.domain else parent.domain,
    rset := if k 8 then own.rset else parent.rset, thresh := if k 8 then own.thresh else parent.thresh,
    quantum := if k 9 then own.quantum else parent.quantum, blimit := if k 10 then own.blimit else parent.blimit,
    latch := own.latch, signal := own.signal }

/-- An address of an RCB translates in the VF: bits [59:56] are zero, and the page is mapped, writable where `write` says so (R105, R227;
log entry 52). -/
def State.addrTranslates (s : State) (vf ctx : Nat) (x : Nat) (write : Bool) : Bool :=
  bitsOf x 59 56 == 0 &&
    (match s.placeShared true vf ctx (x % 2 ^ 56) write with
     | .ok _ _ _ _ => true
     | _ => false)

/-- A latch or a signal of an RCB passes check 0x09: it translates, lies outside the flat window, and is aligned to `n` bytes (R105). -/
def State.wordOk (s : State) (vf ctx : Nat) (a : Dword) (n : Nat) : Bool :=
  s.addrTranslates vf ctx a.toNat true && !s.inWindow vf (addrVa a) && addrVa a % n == 0

/-- A signal is zero, or passes check 0x09. -/
def State.signalOk (s : State) (vf ctx : Nat) (a : Dword) : Bool := a == 0 || s.wordOk vf ctx a 4

/-- The arbiter's request on a latch that a `launch` has entered already (R102). -/
def State.launchedReq (s : State) (vf x : Nat) : LatchReq :=
  if s.earlyGrants.contains (vf, x) then .granted
  else if s.latchQs.any (fun q => q.waiters.contains (.arbiter vf x)) then .queued
  else .none

/-- A region that the arbiter reads for the first time. -/
def State.newRegion (s : State) (p : Region) (ctx x : Nat) (e : Eff) : Region :=
  { vf := p.vf, rcb := regionName ctx x, parent := p.rcb, isRoot := false, ctx := ctx,
    eff := { e with
      image := e.image % 2 ^ 56, rset := e.rset % 2 ^ 56, signal := if s.signalOk p.vf ctx e.signal then e.signal else 0 },
    st := 0, latch := s.launchedReq p.vf (regionName ctx x), deficit := 0, ring := 0, ringPrio := 0, quantumCycles := 0, waitedQuanta := 0, placed := 0, begun := [],
    used := 0, thin := false, code := none, ending := false, lastLinks := 0, lastHead := 0 }

/-- The RCB that a link names can be read: aligned, mapped, in state 0, and linked under the parent (R103). -/
def State.linkOk (s : State) (p : Region) (link : Nat) : Bool :=
  let x := link % 2 ^ 56
  let ctx := if p.isRoot then s.curCtx p.vf else p.ctx
  x % 256 == 0 && s.addrTranslates p.vf ctx link true && bitsOf (s.rcb p.vf ctx x 0 4) 3 0 == 0 &&
    s.rcb p.vf ctx x 0x70 8 % 2 ^ 56 == p.va &&
    (match s.region? p.vf (regionName ctx x) with | some r => r.done | none => true)

end Sys2Proof.Machine
end

