-- ==== Sys2Proof/Machine/Sample.lean ====
section
/-! DEFINITION. The sampler: its counters and its log, and the tagged operations of dispatched runs, to their retirement or their squash (R80 to
R84, R438 to R441). -/

namespace Sys2Proof.Machine

/-- Counter `code` of the sampler, while it is on, for the VF's current context on the sampled core (R439). -/
def State.count (s : State) (core vf ctx code n : Nat) : State :=
  if (s.vfReg vf 0x060).getLsbD 3 && bitsOf (s.vfReg vf 0x094).toNat 31 24 == core && s.curCtx vf == ctx then
    { s with counters := s.counters.put (vf * 256 + code) (s.counters.look (vf * 256 + code) + BitVec.ofNat 32 n) }
  else s

/-- `n` MACs of an operation; the counter counts each 4,096 of them (R439). -/
def State.countMacs (s : State) (core vf ctx n : Nat) : State :=
  let m := (s.macs.look vf).toNat + n
  if (s.vfReg vf 0x060).getLsbD 3 && bitsOf (s.vfReg vf 0x094).toNat 31 24 == core && s.curCtx vf == ctx then
    { s with macs := s.macs.put vf (BitVec.ofNat 32 (m % 4096)) }.count core vf ctx 0x0C (m / 4096)
  else s

/-- A run of the sampled core is fetched: from the run cache, or with a miss. Which, is open (R439; log entry 5). -/
def State.countMiss (s : State) (core vf ctx : Nat) : State :=
  if (s.vfReg vf 0x060).getLsbD 3 then
    let (b, s1) := s.takeBit
    s1.count core vf ctx 0x06 (if b then 1 else 0)
  else s

/-- A row of the sampler log: the write index moves on; a full log drops the row (R438 to R441). -/
def State.sampleRow (s : State) (vf ctx kind : Nat) (pos : Word) (data : List Byte) : State :=
  let n := bitsOf (s.vfReg vf 0x088).toNat 4 0
  let w := (s.vfReg vf 0x08C).toNat
  if logFull n w (s.vfReg vf 0x090).toNat then s
  else
    let row := bytesLE 8 (kind * 2 ^ 56 + s.hubTime % 2 ^ 56) ++ bytesLE 4 (vf * 65536 + ctx) ++ bytesLE 4 pos.toNat ++ data
    (s.gpaWriteBytes vf ((s.vfReg vf 0x080).toNat + 48 * (w % 2 ^ n)) row).setVfReg vf 0x08C (BitVec.ofNat 64 (logNext n w))

/-- One step of an issue slot's LFSR (R440). -/
def lfsrStep (v : BitVec 16) : BitVec 16 :=
  (v <<< 1) + BitVec.ofNat 16 ((v.getLsbD 15 ^^ v.getLsbD 13 ^^ v.getLsbD 12 ^^ v.getLsbD 10).toNat)

/-- The LFSR of the issue slot of a group, while its VF samples tagged operations on its core (R440). -/
def State.lfsr? (s : State) (vf : Nat) (g : Group) : Option Lfsr :=
  if (s.vfReg vf 0x060).getLsbD 4 && bitsOf (s.vfReg vf 0x094).toNat 31 24 == g.core then
    s.lfsrs.find? (fun (x : Lfsr) => x.core == g.core && x.slot == g.slot % 4)
  else none

/-- Replaces the LFSR of an issue slot. -/
def State.putLfsr (s : State) (x : Lfsr) : State :=
  { s with lfsrs := s.lfsrs.map (fun (y : Lfsr) => if y.core = x.core ∧ y.slot = x.slot then x else y) }

/-- The dispatch of the operations at the parcels `ps`, in order: for each the LFSR steps, and one that the new value tags is the tagged
operation in flight (R440). -/
def tagOps (k : Nat) : List Nat → Lfsr → Option Nat → Lfsr × Option Nat
  | [], x, t => (x, t)
  | p :: ps, x, t =>
    let v := lfsrStep x.v
    if !x.inFlight && v.toNat % 2 ^ k == 0 then tagOps k ps { x with v := v, inFlight := true } (some p)
    else tagOps k ps { x with v := v } t

/-- The starts of the operations of the leaf that holds parcel `p` of a function, from `p` on. -/
def opsFrom (t : Option Trees) (func p : Nat) : List Nat :=
  match t with
  | none => []
  | some t =>
    match t.fn? func with
    | none => []
    | some e =>
      match t.descend e p with
      | (nd :: _, none) => nd.ops.filter (fun o => p ≤ o)
      | _ => []

/-- A run of a group whose c.sample.tag is 1 is dispatched (R440). -/
def State.tagRun (s : State) (g : Group) (w : Workgroup) (r : Region) (run : Mask) : State :=
  match s.lfsr? w.vf g with
  | none => s
  | some x =>
    if !g.sample.getLsbD 2 then s
    else
      let l := g.lane (lowest run)
      let (y, t) := tagOps (bitsOf (s.vfReg w.vf 0x0A0).toNat 3 0) (opsFrom (s.groupTrees w r) l.func.toNat l.parcel) x none
      (s.putLfsr y).updGroup g.core g.slot (fun g => { g with tagged := t })

/-- Parcel 0 of the operation at parcel `p` of a function, behind its prefix. -/
def parcel0 (t : Option Trees) (func p : Nat) : Word :=
  match t with
  | none => 0
  | some t =>
    match t.fn? func with
    | none => 0
    | some e =>
      match t.parcel e p, t.parcel e (p + 1) with
      | .ok a, .ok b => BitVec.ofNat 32 (if a / 2 ^ 28 = 14 then b else a)
      | .ok a, .error _ => BitVec.ofNat 32 a
      | .error _, _ => 0

/-- The 32 data bytes of a tagged row: parcel 0, four latencies (timing: free values, log entry 5), and where the operation ran. -/
def taggedData (parcel0 : Word) (lat0 lat1 : Word) (squashed faulted : Bool) (level core slot : Nat) : List Byte :=
  bytesLE 4 parcel0.toNat ++ bytesLE 4 lat0.toNat ++ bytesLE 4 lat1.toNat ++
    bytesLE 4 ((if squashed then 2 ^ 31 else 0) + (if faulted then 2 ^ 30 else 0) + level % 8 * 2 ^ 27 + core % 256 * 2 ^ 16 +
      slot % 128 * 2 ^ 9) ++ List.replicate 16 0

/-- The tagged operation of a group leaves the window: its row is written, and its issue slot may tag another (R440, R441). -/
def State.tagRow (s : State) (g : Group) (w : Workgroup) (r : Region) (depth func p level : Nat) (squashed faulted : Bool) : State :=
  let s1 := s.updGroup g.core g.slot (fun g => { g with tagged := none })
  match s.lfsr? w.vf g with
  | none => s1
  | some x =>
    let (lat0, s2) := s1.takeFree
    let (lat1, s3) := s2.takeFree
    (s3.putLfsr { x with inFlight := false }).sampleRow w.vf w.ctx 2 (posWord depth p)
      (taggedData (parcel0 (s.groupTrees w r) func p) lat0 lat1 squashed faulted level g.core g.slot)

/-- What is left of the run of a group is squashed, from parcel `p` on; `faulted` says that the operation there has faulted. Each entry counts, and
the tagged one writes its row (R80, R82 to R84, R439, R440). -/
def State.squashFrom (s : State) (core slot : Nat) (depth func p : Nat) (faulted : Bool) : State :=
  match s.group? core slot with
  | none => s
  | some g =>
    match s.wg? g.wg with
    | none => s
    | some w =>
      match s.region? w.vf w.rcb with
      | none => s
      | some r =>
        let ops := opsFrom (s.groupTrees w r) func p
        let s1 := s.count core w.vf w.ctx 0x04 ops.length
        match g.tagged with
        | some q => if ops.contains q then s1.tagRow g w r depth func q g.level true (faulted && q == p) else s1
        | none => s1

/-- The dispatched run of a group, if it has one, is squashed from the operation at which it stands (R83). -/
def State.squash (s : State) (core slot : Nat) (faulted : Bool) : State :=
  match s.group? core slot with
  | none => s
  | some g =>
    if g.run = 0 then s
    else
      let l := g.lane (lowest g.run)
      s.squashFrom core slot l.depth l.func.toNat l.parcel faulted

end Sys2Proof.Machine
end

