-- ==== Sys2Proof/Machine/Fault.lean ====
section
/-! DEFINITION. Fault records, fault domains and their policies, the end of a subtree, taking a fault or a trap, and the end of
a trap-handler episode (R114, R379 to R390, R434). -/

namespace Sys2Proof.Machine

/-- The code of a class (R379). -/
def FaultClass.code : FaultClass → Nat
  | .illegalEncoding => 0x01 | .badStructure => 0x02 | .unitAbsent => 0x03 | .operandExtent => 0x04
  | .translation => 0x05 | .tagMismatch => 0x06 | .watchpoint => 0x07 | .poison => 0x08 | .barrierTimeLimit => 0x09
  | .callHandle => 0x0A | .frameOverflow => 0x0B | .numericTrap => 0x0C | .peerAbsent => 0x0D | .peerGone => 0x0E
  | .launch => 0x0F | .softwareTrap => 0x10 | .halt => 0x11 | .breakpoint => 0x12

/-- The contents of a record (R383). -/
structure Rec where
  func : Nat
  asl : Bool
  fallback : Bool
  orig : Bool
  stage : Bool
  cls : Nat
  mask : Word
  addr : Dword
  pos : Word
  origin : Word
  /-- position words and kinds of the nearest enclosing nodes, innermost first -/
  anc : List (Word × Nat)
  core : Nat
  slot : Nat
  ctx : Nat
  region : Nat
  time : Nat
  deriving DecidableEq, Repr

/-- Position word of ancestor `i` of a record; zero when empty. -/
def Rec.ancPos (r : Rec) (i : Nat) : Nat := match r.anc[i]? with | some p => p.1.toNat | none => 0

/-- Kind of ancestor `i`; 0xF when empty. -/
def Rec.ancKind (r : Rec) (i : Nat) : Nat := match r.anc[i]? with | some p => p.2 | none => 15

/-- The 64 bytes of a record (R383). -/
def Rec.bytes (r : Rec) : List Byte :=
  bytesLE 4 (r.func * 65536 + (if r.asl then 2 ^ 15 else 0) + (if r.fallback then 2 ^ 14 else 0) +
      (if r.orig then 2 ^ 13 else 0) + (if r.stage then 2 ^ 12 else 0) + r.cls) ++
    bytesLE 4 r.mask.toNat ++ bytesLE 8 r.addr.toNat ++ bytesLE 4 r.pos.toNat ++ bytesLE 4 r.origin.toNat ++
    (List.range 4).flatMap (fun i => bytesLE 4 (r.ancPos i)) ++
    bytesLE 4 (r.core * 2 ^ 24 + r.slot * 2 ^ 17 + r.ancKind 3 * 4096 + r.ancKind 2 * 256 + r.ancKind 1 * 16 + r.ancKind 0) ++
    bytesLE 4 r.ctx ++ bytesLE 8 r.region ++ bytesLE 8 r.time

/-- The context word of R62. -/
def ctxWord (vf ctx : Nat) : Nat := vf * 65536 + ctx

/-- The four nearest nodes that enclose parcel `p` of function `func`, as far as the descent succeeds (R61, R384). -/
def ancestors (t : Option Trees) (func p depth : Nat) : List (Word × Nat) :=
  match t with
  | none => []
  | some t =>
    match t.fn? func with
    | none => []
    | some e =>
      (((t.descend e p).1.filter (fun nd => nd.p != p)).take 4).map (fun nd => (posWord depth nd.p, nd.kind))

/-- A translation fault of code whose page is in transit, or is to be promoted first, is none: the step waits (R282). -/
def State.awaitFault (s : State) (vf ctx : Nat) (f : TreeFault) : State :=
  if f.cls = .translation ∧ s.busyPage vf ctx f.addr.toNat then s.visit vf ctx f.addr.toNat else s

/-- The nodes around parcel `p` of function `func` are about to be read: the step waits for their pages (R282). -/
def State.awaitChain (s : State) (w : Workgroup) (r : Region) (func p : Nat) : State :=
  match s.readTrees w.vf w.ctx r.eff.image r.code with
  | .error x => s.awaitFault w.vf w.ctx (x.fault p)
  | .ok t =>
    match t.readFn func with
    | .error x => s.awaitFault w.vf w.ctx (x.fault p)
    | .ok e =>
      match (t.descend e p).2 with
      | some f => s.awaitFault w.vf w.ctx f
      | none => s

/-- An entry of a domain table, and its address (R381). -/
structure Domain where
  va : Nat
  policy : Nat
  handler : Nat
  entries : Nat
  ring : Nat
  wr : Nat
  rd : Nat
  ie : Bool
  vector : Nat
  lost : Nat
  deriving DecidableEq, Repr

/-- `n` is a power of two from 16 to 65,536. -/
def ringSizeOk (n : Nat) : Bool := (List.range 13).any (fun i => n == 2 ^ (i + 4))

/-- Every 64 KiB page of `[va, va + n)` translates for writes in the context. -/
def State.rangeWritable (s : State) (vf ctx va n : Nat) : Bool :=
  (List.range ((va % 65536 + n + 65535) / 65536)).all (fun i =>
    match s.placeShared true vf ctx (if i = 0 then va else va / 65536 * 65536 + 65536 * i) true with
    | .ok _ _ _ _ => true
    | _ => false)

/-- Entry `d` of the VF's domain table, where it is usable. The memory tag of the ring's base takes no part (R274, R381). The spec says that the table and
its rings lie in the VF's device memory, and not through which translation: the model reaches both through the two stages of the context whose region
has faulted (log entry 76). Nor does R381 name an entry that does not translate writable itself: the model counts it as unusable (log entry 121). -/
def State.domain? (s : State) (vf ctx d : Nat) : Option Domain :=
  let count := bitsOf (s.vfReg vf 0x020).toNat 16 0
  if count ≤ d then none
  else
    let va := (s.vfReg vf 0x018).toNat + 32 * d
    match s.placeShared true vf ctx va true with
    | .ok pa _ _ _ =>
      let w := fun i => readLE s.mem (pa + 4 * i) 4
      let ring := readLE s.mem (pa + 8) 8
      if bitsOf (w 0) 31 18 != 0 || bitsOf (w 0) 17 16 == 3 || bitsOf (w 6) 31 17 != 0 || !ringSizeOk (w 1) ||
          ring % 64 != 0 || bitsOf ring 59 56 != 0 || !s.rangeWritable vf ctx (ring % 2 ^ 56) (64 * w 1) then none
      else
        some { va := va, policy := bitsOf (w 0) 17 16, handler := bitsOf (w 0) 15 0, entries := w 1, ring := ring % 2 ^ 56,
               wr := w 4, rd := w 5, ie := bitsOf (w 6) 16 16 == 1, vector := bitsOf (w 6) 15 0, lost := w 7 }
    | _ => none

/-- The usable entry and the policy for domain `d`: entry 0 with policy 0 where `d`'s own entry is unusable (R381). -/
def State.domainFor (s : State) (vf ctx d : Nat) : Option (Domain × Nat) :=
  match s.domain? vf ctx d with
  | some e => some (e, e.policy)
  | none => (s.domain? vf ctx 0).map (fun e => (e, 0))

/-- Writes a record at slot wr mod entries, then the index, then the interrupt; a full ring counts a lost record (R382). -/
def State.ringWrite (s : State) (vf ctx : Nat) (e : Domain) (r : Rec) : State :=
  if (e.wr + 2 ^ 32 - e.rd) % 2 ^ 32 < e.entries then
    let s1 := s.devWriteBytes vf ctx (e.ring + 64 * (e.wr % e.entries)) r.bytes
    let s2 := s1.devWrite vf ctx (e.va + 0x10) 4 ((e.wr + 1) % 2 ^ 32)
    if e.ie then { s2 with interrupts := s2.interrupts ++ [.msix vf e.vector] } else s2
  else s.devWrite vf ctx (e.va + 0x1C) 4 (min (2 ^ 32 - 1) (e.lost + 1))

/-- Writes a record to domain `d` of the VF; without a usable entry the record is dropped and vf.err.ring is set (R381). -/
def State.writeRecord (s : State) (vf ctx d : Nat) (r : Rec) : State :=
  match s.domainFor vf ctx d with
  | some (e, _) => s.ringWrite vf ctx e r
  | none => s.vfErr vf 0

/-- A record with an empty lane mask for a region (R384). -/
def emptyRec (s : State) (r : Region) (cls : FaultClass) (addr : Dword) (stage2 : Bool) (func : Nat) (pos origin : Word)
    (orig asl : Bool) (core slot : Nat) : Rec :=
  { func := func, asl := asl, fallback := false, orig := orig, stage := stage2, cls := cls.code, mask := 0, addr := addr,
    pos := pos, origin := origin, anc := [], core := core, slot := slot, ctx := ctxWord r.vf r.ctx, region := r.va,
    time := s.hubTime }

/-- Writes a launch fault's record into domain `d`: for a failed check region and address are the child's RCB; for a stopped
walk, the parent's RCB and the link (R103, R105, R384). -/
def State.launchFault (s : State) (r : Region) (d : Nat) (addr : Dword) : State :=
  s.writeRecord r.vf r.ctx d (emptyRec s r .launch addr false 0 0 0 false false 0 0)

/-- Writes the record of an asynchronous fault that no group took (R243, R351, R358). -/
def State.recordUntaken (s : State) (r : Region) (f : FaultInfo) (taken : List Taker) (func : Nat) (origin : Word)
    (core slot : Nat) : State :=
  if taken = [] then
    s.writeRecord r.vf r.ctx r.eff.domain (emptyRec s r f.cls f.addr f.stage2 func 0 origin true false core slot)
  else s

/-- Writes the records of the faults of a workgroup's copies, operations and tile transfers that no group took, with empty
masks (R243, R351, R358). -/
def State.recordPending (s : State) (r : Region) (w : Workgroup) : State :=
  let s1 := w.copies.foldl (fun s c =>
    match c.fault with
    | some f => s.recordUntaken r f c.delivered c.func.toNat c.pos c.core c.slot
    | none => s) s
  let s2 := w.ops.foldl (fun s o =>
    match o.fault with
    | some f => s.recordUntaken r f o.delivered o.func.toNat o.pos o.core o.slot
    | none => s) s1
  w.xfaults.foldl (fun s x => s.recordUntaken r x.info x.delivered x.func.toNat x.pos w.core x.slot) s2

/-- Kills the live lanes of a group: they retire, its run is squashed, its wait and its place in a latch's queue end (R93); their implicit arrival comes
when it need not wait (R311). -/
def State.killGroup (s0 : State) (core slot : Nat) : State :=
  let s := s0.squash core slot false
  match s.group? core slot with
  | none => s
  | some g =>
    let s1 := (s.latchQs.map (fun q => q.pa)).foldl (fun s pa =>
      (s.leaveLatch pa (.group core slot true)).leaveLatch pa (.group core slot false)) s
    (s1.killLanes core slot).updGroup g.core g.slot (fun x =>
      { x with wait := none, kept := [], park := none, episode := none, run := 0, merged := none })

/-- The latches that the groups of a region that is ended still hold are released without merging, and the shadow copies of
their bindings are discarded (R252). The folds of a merge that has begun are at their homes first (R273). -/
def State.dropHolds (s : State) (r : Region) (gs : List Group) : State :=
  gs.foldl (fun s g =>
    let s0 := s.flushWhere (fun p => p.isFold && p.by g.core g.slot g.start)
    let s1 := g.holds.foldl (fun s h => s.discardShadows r.vf r.ctx h) (s0.releaseHolds g)
    s1.toOwner g.core g.slot g.start (fun x => { x with holds := [] })) s

/-- The fault that stopped a group's access slice and that no `qpop` took. -/
def Group.untakenSlice (g : Group) : Option (AccessSlice × FaultInfo) :=
  match g.acc with
  | some a => match a.stopped with | some x => if a.taken.isSome then none else some (a, x) | none => none
  | none => none

/-- The record of an access-slice fault that no `qpop` took, with the nodes around its position (R287, R384). -/
def State.recordSlice (s : State) (g : Group) (w : Workgroup) (r : Region) : State :=
  match g.untakenSlice with
  | some (a, x) =>
    (s.awaitChain w r a.lane.func.toNat a.lane.parcel).writeRecord r.vf r.ctx r.eff.domain
      { emptyRec s r x.cls x.addr x.stage2 a.lane.func.toNat a.lane.pos 0 false true g.core g.slot with
        anc := ancestors (s.groupTrees w r) a.lane.func.toNat a.lane.parcel a.lane.depth }
  | none => s

/-- A workgroup as the recorder knows it where no group of it is left (R443). -/
def Workgroup.accessor (w : Workgroup) : Accessor :=
  { vf := w.vf, ctx := w.ctx, rcb := w.rcb, core := w.core, slot := w.slots.headD 0, start := 0, pos := 0, func := 0, mask := 0 }

/-- A saved workgroup of a region that is ended is discarded: its slot entry is zeroed, and its copies, feeds and engine
operations end with it; faults that no group took leave their records (R243, R287, R400). -/
def State.discardSaved (s : State) (r : Region) (w : Workgroup) : State :=
  let gs := s.slots.flatMap (fun sl => (sl.wgs.filter (fun x => x.wg.id == w.id)).flatMap (fun x => x.groups))
  let s1 := gs.foldl (fun s g => s.recordSlice g w r) ((s.dropHolds r gs).recordPending r w)
  let s2 := s1.dropWorkgroup w ((gs.head?).elim { w.accessor with start := 0 } (fun g => g.accessor w 0xFFFFFFFF))
  { s2 with
    slots := (s2.slots.map (fun sl => { sl with wgs := sl.wgs.filter (fun x => x.wg.id != w.id) })).filter (fun sl => sl.wgs != []),
    wgs := s2.wgs.filter (fun x => x.id != w.id),
    departed := { w with copies := [], bars := [], ops := [], xfers := [], xfaults := [], saved := false, engine := none, leaving := [] } :: s2.departed }

/-- Ends one region: its running groups are killed, its saved workgroups discarded (R114). -/
def State.endOne (s : State) (r : Region) : State :=
  if r.done || r.isRoot then s
  else
    let s1 := s.updRegion r.vf r.rcb (fun x => { x with ending := true })
    let gs := s1.groupsOf r
    let s2 := s1.dropHolds r gs
    let s3 := gs.foldl (fun s g => s.killGroup g.core g.slot) s2
    ((s3.wgsOf r).filter (fun w => w.saved)).foldl (fun s w => s.discardSaved r w) s3

/-- The children that a region has linked and that the arbiter has not read become regions, up to the list's previous head or a link that R103
stops at; they never run (R114; log entry 89). The first argument bounds the walk. -/
def State.adoptLinks (s : State) (p : Region) (stop : Nat) : Nat → Nat → State
  | 0, _ => s
  | n + 1, link =>
    let x := link % 2 ^ 56
    if link % 2 ^ 60 = 0 ∨ (stop ≠ 0 ∧ x = stop) ∨ !s.linkOk p link then s
    else
      let e := (s.ownFields p.vf p.ctx x).inherit p.eff (bitsOf (s.rcb p.vf p.ctx x 0x04 4) 10 0)
      let r := { s.newRegion p p.ctx x e with st := 1, ending := true }
      let s1 := { s with
        regions := s.regions.filter (fun (y : Region) => !(y.vf == p.vf && y.rcb == r.rcb)) ++ [r],
        earlyGrants := s.earlyGrants.filter (fun y => y != (p.vf, r.rcb)) }
      let s2 := s1.devWriteBytes p.vf p.ctx (x + 0xDC) (bytesLE 4 (p.ctx % 65536) ++ List.replicate 32 0)
      (s2.writeRcbState r 1 0).adoptLinks p stop n (s.rcb p.vf p.ctx x 0x80 8)

/-- The unread children of a running region that is being ended (R114). -/
def State.adopt (s : State) (p : Region) : State :=
  let links := BitVec.ofNat 32 (p.field s 0x88 4)
  if p.isRoot ∨ !(p.st == 5 || p.st == 6) ∨ links = p.lastLinks then s
  else
    let head := p.field s 0x78 8
    let s1 := s.updRegion p.vf p.rcb (fun x => { x with lastLinks := links, lastHead := if head % 2 ^ 60 = 0 then p.lastHead else head % 2 ^ 56 })
    s1.adoptLinks p p.lastHead (2 ^ 32) head

/-- Ends a region and its whole subtree, the children linked and not yet read among it: every region is ended, and each that can completes at once,
from the deepest level upward (R114). -/
def State.endSubtree (s0 : State) (vf rcb : Nat) : State :=
  match s0.region? vf rcb with
  | none => s0
  | some r =>
    let s := (s0.subtree s0.regions.length r).foldl (fun s x => s.adopt x) s0
    let rs := s.subtree s.regions.length r
    let s1 := rs.foldl (fun s x => s.endOne x) s
    (s.levels s.regions.length [r]).reverse.foldl (fun s x => s.tryComplete x.vf x.rcb) s1

/-- The region that terminate ends: it climbs while each parent's effective domain equals the faulting region's, and never
goes above the last region below the root (R385). The first argument bounds the climb. -/
def State.climb (s : State) : Nat → Region → Nat
  | 0, r => r.rcb
  | n + 1, r =>
    match s.region? r.vf r.parent with
    | some p => if p.isRoot || p.eff.domain != r.eff.domain then r.rcb else s.climb n p
    | none => r.rcb

/-- Terminates from a region (R385). -/
def State.terminate (s : State) (r : Region) : State := s.endSubtree r.vf (s.climb s.regions.length r)

/-- What a fault or a trap delivers. -/
structure Delivery where
  cls : FaultClass
  mask : Mask
  /-- the lanes that the policy acts on: the mask, but for a trap only those of it that still live (R188) -/
  lanes : Mask
  addr : Dword
  stage2 : Bool
  /-- position and function recorded: the lanes', or the access slice's -/
  pos : Word
  func : Nat
  asl : Bool
  /-- position of the transfer that failed (R383) -/
  origin : Option Word
  deriving DecidableEq, Repr

/-- The record of a delivery for a group (R383, R384). -/
def deliveryRec (s : State) (g : Group) (w : Workgroup) (r : Region) (d : Delivery) (fallback : Bool) : Rec :=
  { func := d.func, asl := d.asl, fallback := fallback, orig := d.origin.isSome, stage := d.stage2, cls := d.cls.code,
    mask := d.mask, addr := d.addr, pos := d.pos, origin := d.origin.getD 0,
    anc := ancestors (s.groupTrees w r) d.func (d.pos.toNat % 2 ^ 24) (bitsOf d.pos.toNat 30 24),
    core := g.core, slot := g.slot, ctx := ctxWord w.vf w.ctx, region := r.va, time := s.hubTime }

/-- Parks a group; its run and its wait end (R385). -/
def Group.parkFor (why : ParkReason) (g : Group) : Group :=
  { g with park := some why, run := 0, wait := none }

/-- c.trap with act, inh and rec as given, and the other bits kept (R388). -/
def setTrap (c : Dword) (recOff : Nat) (inh : Bool) (act : Nat) : Dword :=
  (c &&& 0x000000000000001F#64) ||| BitVec.ofNat 64 (recOff % 65536 * 2 ^ 32 + (if inh then 2 ^ 15 else 0) + act % 4 * 2 ^ 10)

/-- The handler `h` can take lanes at depth `d` of a group: its kind is 2, the group is in no episode, and the trap frame,
the record copy and one frame fit (R386). -/
def canHandle (t : Option Trees) (g : Group) (r : Region) (h d : Nat) : Bool :=
  (match t with | some t => t.fnKind h 2 | none => false) && g.episode.isNone && !(r.eff.priv < 8 * d + 80)

/-- Where the entry of function `k` stands in the table of a workgroup's image; where the image cannot be read, its start. -/
def State.fnEntryVa (s : State) (w : Workgroup) (r : Region) (k : Nat) : Nat :=
  match s.groupTrees w r with
  | some t => t.entryVa k
  | none => r.eff.image

/-- The greatest depth of the lanes of a mask. The lanes of a fault share one depth; the lanes of a trap stand at its successors,
and their trap frames lie above the deepest of them (R386, R188; log entry 16). -/
def Group.maxDepth (g : Group) (m : Mask) : Nat := (lanesOf m).foldl (fun d L => max d (g.lane L).depth) 0

/-- Writes the trap frames and the record copies of the lanes of an episode, above depth `depth`, each an access of the group (R386, R443). -/
def State.trapFrames (s : State) (g : Group) (w : Workgroup) (r : Region) (d : Delivery) (depth : Nat) (rc : Rec) : State :=
  let at0 := fun L => w.pa + privOff r.eff.lstore r.eff.priv g.grp L + 8 * depth
  s.logged { g.accessor w d.lanes with pos := d.pos } ((lanesOf d.lanes).flatMap (fun L => touchesOf (at0 L) 72 1)) (fun s =>
    (lanesOf d.lanes).foldl (fun s L =>
      s.storeBytes (at0 L) (bytesLE 4 (g.lane L).pos.toNat ++ bytesLE 4 (g.lane L).func.toNat ++ rc.bytes)) s)

/-- Starts a trap-handler episode for the lanes of the mask (R386): their trap frames and record copies are written, they
stand at the handler's first operation at depth 0, inside its loops, or wait there for its code to be read (R33, R86), and c.trap says so. -/
def State.startEpisode (s : State) (g : Group) (w : Workgroup) (r : Region) (d : Delivery) (h : Nat) (rc : Rec) : State :=
  let depth := g.maxDepth d.lanes
  let t := s.groupTrees w r
  let p := startParcel t h
  (s.trapFrames g w r d depth rc).updGroup g.core g.slot (fun x0 =>
    let x := x0.enterLoops d.lanes (startLoops t h p)
    { x with
    lanes := mapLanes (fun _ l => { l with
      pos := posWord 0 (p.getD 0), func := BitVec.ofNat 16 h, frameBase := 8 * depth + 72, atStart := p.isNone }) d.lanes x.lanes,
    episode := some { mask := d.lanes, depth := depth, handler := h, starting := maskOf (fun L => d.lanes.getLsbD L && (x.lane L).atStart), isFault := decide (d.cls ≠ FaultClass.softwareTrap ∧ d.cls ≠ FaultClass.halt) },
    trapCtl := setTrap x.trapCtl (8 * depth + 8) true 0, run := 0, wait := none })

/-- Takes a fault or a trap of the group in `slot` of core `core`: the record goes to the region's fault domain, and the
domain's policy is applied (R381 to R386, R390). -/
def State.deliver (s : State) (core slot : Nat) (d : Delivery) : State :=
  match s.group? core slot with
  | none => s
  | some g =>
    match s.wg? g.wg with
    | none => s
    | some w =>
      match s.region? w.vf w.rcb with
      | none => s
      | some r =>
        let s1 := (s.awaitChain w r d.func (d.pos.toNat % 2 ^ 24)).count core w.vf w.ctx 0x0E 1
        let park := fun (fallback : Bool) =>
          (s1.writeRecord w.vf w.ctx r.eff.domain (deliveryRec s g w r d fallback)).updGroup core slot
            (Group.parkFor (if d.cls = .halt then .halt else .fault))
        let recordOnly := s1.writeRecord w.vf w.ctx r.eff.domain (deliveryRec s g w r d false)
        if d.mask = 0 then recordOnly
        else if d.cls = .halt then if g.allRetired then recordOnly else park false
        else if d.lanes = 0 then
          match s.domainFor w.vf w.ctx r.eff.domain with
          | some (_, 2) => recordOnly.terminate r
          | _ => recordOnly
        else if g.episode.isSome then park true
        else
          match s.domainFor w.vf w.ctx r.eff.domain with
          | some (e, 1) =>
            if canHandle (s.groupTrees w r) g r e.handler (g.maxDepth d.lanes) then
              let rc := deliveryRec s g w r d false
              ((s1.startEpisode g w r d e.handler rc).ringWrite w.vf w.ctx e rc).visit w.vf w.ctx (s.fnEntryVa w r e.handler)
            else (park true).visit w.vf w.ctx (s.fnEntryVa w r e.handler)
          | some (_, 2) =>
            recordOnly.terminate r
          | _ => park false

/-- The unit numbers of R434 that are no unit. -/
def unitBrk : Nat := 0xFE
def unitReplay : Nat := 0xFF

/-- Writes a record of class 0x07 or 0x12 to the debug ring while a debugger is attached, and else to the region's domain
ring; a full ring loses it (R434). -/
def State.debugWrite (s : State) (r : Region) (rc : Rec) : State :=
  if (s.vfReg r.vf 0x060).getLsbD 0 then
    let n := bitsOf (s.vfReg r.vf 0x070).toNat 3 0
    let wr := (s.vfReg r.vf 0x074).toNat
    if logFull n wr (s.vfReg r.vf 0x078).toNat then s
    else
      let s1 := s.gpaWriteBytes r.vf ((s.vfReg r.vf 0x068).toNat + 64 * (wr % 2 ^ n)) rc.bytes
      let s2 := s1.setVfReg r.vf 0x074 (BitVec.ofNat 64 (logNext n wr))
      { s2 with interrupts := s2.interrupts ++ [.msix r.vf (bitsOf (s.vfReg r.vf 0x070).toNat 31 16)] }
  else s.writeRecord r.vf r.ctx r.eff.domain rc

/-- Debug-parks a group with a record of class `cls` for unit `unit`; what is left of its run is squashed (R427, R430, R434). -/
def State.debugStop (s0 : State) (core slot : Nat) (cls : FaultClass) (unit : Nat) (mask : Mask) (addr : Dword)
    (pos : Word) (func : Nat) : State :=
  let s := s0.squash core slot false
  match s.group? core slot with
  | none => s
  | some g =>
    match s.wg? g.wg with
    | none => s
    | some w =>
      match s.region? w.vf w.rcb with
      | none => s
      | some r =>
        let d : Delivery :=
          { cls := cls, mask := mask, lanes := mask, addr := addr, stage2 := false, pos := pos, func := func, asl := false, origin := none }
        let rc := { deliveryRec s g w r d false with origin := BitVec.ofNat 32 unit, orig := false }
        ((s.awaitChain w r func (pos.toNat % 2 ^ 24)).debugWrite r rc).updGroup core slot (fun x => if x.allRetired then x else x.parkFor .debug)

/-- The groups of a context that run. -/
def State.groupsIn (s : State) (vf ctx : Nat) : List Group :=
  s.groups.filter (fun g => match s.wg? g.wg with | some w => w.vf == vf && w.ctx == ctx | none => false)

/-- The lanes that a replay stop names: those of the operation, or, before an access of an agent, the live lanes of the group for which it works (R445;
log entry 36). -/
def State.stopMask (s : State) (ac : Accessor) : Mask :=
  if ac.mask ≠ 0 then ac.mask
  else match s.groups.find? (fun (g : Group) => g.start == ac.start) with | some g => g.liveMask | none => 0

/-- The record of a replay stop: class 0x12, the position of the access that comes next, unit 0xFF (R434, R445). -/
def State.stopRecord (s : State) (ac : Accessor) : State :=
  match s.region? ac.vf ac.rcb with
  | none => s
  | some r =>
    let w? := (s.groups.find? (fun (g : Group) => g.start == ac.start)).bind (fun g => s.wg? g.wg)
    let rc : Rec := { emptyRec s r .breakpoint 0 false ac.func.toNat ac.pos (BitVec.ofNat 32 unitReplay) false false ac.core ac.slot with
      mask := s.stopMask ac,
      anc := match w? with | some w => ancestors (s.groupTrees w r) ac.func.toNat (ac.pos.toNat % 2 ^ 24) (bitsOf ac.pos.toNat 30 24) | none => [] }
    (match w? with | some w => s.awaitChain w r ac.func.toNat (ac.pos.toNat % 2 ^ 24) | none => s).debugWrite r rc

/-- The replay stop: what is left of the run of every group of the context is squashed, the group is debug-parked, a saved one where it is saved, and
one record is written (R445). -/
def State.replayStop (s : State) (ac : Accessor) : State :=
  let mine := (s.groupsIn ac.vf ac.ctx).filter (fun (g : Group) => g.park.isNone && !g.allRetired)
  let s1 := mine.foldl (fun s (g : Group) =>
    (s.squash g.core g.slot false).updGroup g.core g.slot (fun g => { g with park := some .debug, run := 0 })) s
  let saved := (s.wgs.filter (fun w => w.vf == ac.vf && w.ctx == ac.ctx && w.saved)).map (fun w => w.id)
  (s1.updSavedGroups (fun g => saved.contains g.wg && g.park.isNone && !g.allRetired) (fun g => { g with park := some .debug })).stopRecord ac

end Sys2Proof.Machine
end

