-- ==== Sys2Proof/Machine/Operands.lean ====
section
/-! DEFINITION. The operation in issue, and every operand form: registers, pairs, index operands, small immediates and
literals (R62, R63, R72, R121 to R127, R135). -/

namespace Sys2Proof.Machine

/-- The group in issue with its workgroup and region, which of its slices performs the operation, and the mask. -/
structure Issue where
  g : Group
  w : Workgroup
  r : Region
  acc : Bool
  mask : Mask

/-- The operation in issue of a state. -/
def State.issue? (s : State) : Option Issue :=
  match s.group? s.cur.core s.cur.slot with
  | none => none
  | some g =>
    match s.wg? g.wg with
    | none => none
    | some w =>
      match s.region? w.vf w.rcb with
      | none => none
      | some r => some { g := g, w := w, r := r, acc := s.cur.acc, mask := s.cur.mask }

/-- The lane that lane number `L` of the operation reads: a group's lane, or the access slice's (R284). -/
def Issue.lane (is : Issue) (L : Nat) : Lane :=
  if is.acc then (match is.g.acc with | some a => a.lane | none => Lane.zero) else is.g.lane L

/-- The lanes of ACTIVE, ascending. -/
def Issue.active (is : Issue) : List Nat := lanesOf is.mask

/-- L0 of R229. -/
def Issue.l0 (is : Issue) : Nat := lowest is.mask

/-- A register of a lane. -/
def Lane.reg (l : Lane) (k : Nat) : Word := l.regs.look k

/-- A register pair: the even register low (R5). -/
def Lane.pair (l : Lane) (k : Nat) : Dword := l.reg (k + 1) ++ l.reg k

/-- Writes a register; a write clears its poison (R297). -/
def Lane.setReg (l : Lane) (k : Nat) (v : Word) : Lane := { l with regs := l.regs.put k v, bad := l.bad.put k 0 }

/-- Writes a register pair. -/
def Lane.setPair (l : Lane) (k : Nat) (v : Dword) : Lane :=
  (l.setReg k (v.extractLsb' 0 32)).setReg (k + 1) (v.extractLsb' 32 32)

/-- The value of an index operand in lane `L` (R62). -/
def Issue.index (is : Issue) (x : IndexReg) (L : Nat) : Word :=
  match x with
  | .lane => BitVec.ofNat 32 L
  | .grp => BitVec.ofNat 32 is.g.grp
  | .wg => BitVec.ofNat 32 is.w.wgi
  | .clu => BitVec.ofNat 32 is.w.clu
  | .die => BitVec.ofNat 32 is.w.die
  | .ngrp => BitVec.ofNat 32 is.r.eff.ngrp
  | .nwg => BitVec.ofNat 32 is.r.eff.nwg
  | .nclu => BitVec.ofNat 32 is.r.eff.nclu
  | .ndie => BitVec.ofNat 32 is.r.eff.ndie
  | .core => BitVec.ofNat 32 is.g.core
  | .pos => (is.lane L).pos
  | .active => is.mask
  | .ctx => BitVec.ofNat 32 (ctxWord is.w.vf is.w.ctx)

/-- A source in an untyped 32-bit role (R126, R127). -/
def Issue.word (is : Issue) (o : Operand) (L : Nat) : Word :=
  match o with
  | .reg k => (is.lane L).reg k.toNat
  | .idx x => is.index x L
  | .imm v => v.signExtend 32
  | .lit32 v => v
  | .lit64 v => v.extractLsb' 0 32

/-- A source in a pair position; `sx` for a value position of type `i64` (R125 to R127). -/
def Issue.pairOp (is : Issue) (sx : Bool) (o : Operand) (L : Nat) : Dword :=
  match o with
  | .reg k => (is.lane L).pair k.toNat
  | .idx x => (is.index x L).setWidth 64
  | .imm v => v.signExtend 64
  | .lit32 v => if sx then v.signExtend 64 else v.setWidth 64
  | .lit64 v => v

/-- An address pair or a mask pair. -/
def Issue.addr (is : Issue) (o : Operand) (L : Nat) : Dword := is.pairOp false o L

/-- The address pair that dest names in forms ST and M0 to M3. -/
def Issue.destAddr (is : Issue) (f : Fields) (L : Nat) : Dword := (is.lane L).pair f.dest.toNat

/-- The encoding of a small integer, exact in a binary format with `eb` exponent bits and `mb` fraction bits (R126). -/
def smallFloat (eb mb : Nat) (v : Int) : Nat :=
  if v = 0 then 0
  else
    let n := v.natAbs
    let e := Nat.log2 n
    (if v < 0 then 2 ^ (eb + mb) else 0) + (e + (2 ^ (eb - 1) - 1)) * 2 ^ mb + (n - 2 ^ e) * 2 ^ mb / 2 ^ e

/-- A small immediate in a value position of a type that one register carries (R126). That one of type `b32`, which R126 does not list, is extended
with its sign to 32 bits is the model's choice (log entry 100). -/
def immWord (ty : Ty) (v : BitVec 5) : Word :=
  match ty with
  | .f32 => BitVec.ofNat 32 (smallFloat 8 23 v.toInt)
  | .f16 => ofElems 16 (List.replicate 2 (smallFloat 5 10 v.toInt))
  | .bf16 => ofElems 16 (List.replicate 2 (smallFloat 8 7 v.toInt))
  | .i16 | .n16 => ofElems 16 (List.replicate 2 (v.signExtend 16).toNat)
  | .i8 | .n8 => ofElems 8 (List.replicate 4 (v.signExtend 8).toNat)
  | _ => v.signExtend 32

/-- A source in a value position of a type that one register carries. -/
def Issue.val32 (is : Issue) (ty : Ty) (o : Operand) (L : Nat) : Word :=
  match o with
  | .imm v => immWord ty v
  | _ => is.word o L

/-- A source in a value position of a 64-bit type. -/
def Issue.val64 (is : Issue) (ty : Ty) (o : Operand) (L : Nat) : Dword := is.pairOp (ty == .i64) o L

/-- A source in a value position, in 64 bits: the pair, or the register in the low half. -/
def Issue.val (is : Issue) (ty : Ty) (o : Operand) (L : Nat) : Dword :=
  if ty.wide then is.val64 ty o L else (is.val32 ty o L).setWidth 64

/-- A condition: bit 0 (R135). -/
def Issue.cond (is : Issue) (o : Operand) (L : Nat) : Bool := (is.word o L).getLsbD 0

/-- Writes a result of a type: a pair, or the low half of `v` into one register. -/
def Lane.setVal (l : Lane) (ty : Ty) (k : Nat) (v : Dword) : Lane :=
  if ty.wide then l.setPair k v else l.setReg k (v.extractLsb' 0 32)

/-- Changes the lanes of ACTIVE (R75). -/
def State.writeLanes (s : State) (is : Issue) (f : Nat → Lane → Lane) : State :=
  s.updGroup is.g.core is.g.slot (fun g =>
    if is.acc then { g with acc := g.acc.map (fun a => { a with lane := f 0 a.lane }) }
    else { g with lanes := mapLanes f is.mask g.lanes })

/-- The registers that an operand in a role reads or names: the first, and how many. -/
def roleRegs (r : Role) (f : Fields) (o : Operand) : List Nat :=
  match r, o with
  | .none, _ => []
  | .quad, .reg k => [k.toNat, k.toNat + 1, k.toNat + 2, k.toNat + 3]
  | _, .reg k => if r.isPair f then [k.toNat, k.toNat + 1] else [k.toNat]
  | _, _ => []

/-- Every register that an operation names (R72). -/
def rowNamed (r : Row) (f : Fields) : List Nat :=
  roleRegs r.roles.dest f (.reg f.dest) ++ roleRegs r.roles.a f f.a ++ roleRegs r.roles.b f f.b ++ roleRegs r.roles.c f f.c

/-- The registers that an operation reads: its sources, and dest where it holds an address (R123). A `cvt.pk` to a 16-bit type counts c among them,
though its result does not use it (log entry 112). -/
def rowReads (r : Row) (f : Fields) : List Nat :=
  (if r.roles.dest == .pair then roleRegs r.roles.dest f (.reg f.dest) else []) ++
    roleRegs r.roles.a f f.a ++ roleRegs r.roles.b f f.b ++ roleRegs r.roles.c f f.c

/-- Operations performed once for the group, which read the operands of L0 only (R229, R349 to R368, R186 to R188). -/
def onceForGroup (cls opc : Nat) : Bool :=
  (cls, opc) ∈ [(6, 0x0), (6, 0x1), (6, 0x8), (6, 0x9), (6, 0xA), (6, 0xB), (7, 0x0), (7, 0x1), (7, 0x2), (7, 0x3), (7, 0x4),
    (7, 0x8), (7, 0x10), (7, 0x12), (7, 0x13), (7, 0x14), (7, 0x18), (7, 0x19), (7, 0x1A), (9, 0x0), (9, 0x1), (9, 0x2), (9, 0x3),
    (9, 0x4), (9, 0x5), (9, 0x6), (9, 0x8), (9, 0x9), (9, 0xA), (9, 0xB), (10, 0x11), (11, 0x1), (11, 0x2), (11, 0x9)]

/-- An operation, and any operand of it, that an access-slice function may hold (R149). -/
def sliceLegal (cls opc : Nat) (f : Fields) : Bool :=
  let opOk :=
    if cls = 1 then
      (opc ≤ 8 || (0x10 ≤ opc && opc ≤ 0x14) || (0x18 ≤ opc && opc ≤ 0x1A) || (0x28 ≤ opc && opc ≤ 0x2A)) &&
        [Ty.i32, .n32, .i64, .n64].contains f.ty
    else if cls = 10 then opc ≤ 7
    else (cls == 6 && opc == 0) || (cls == 11 && opc == 4)
  let bad := fun o => o == Operand.idx .lane || o == Operand.idx .active
  opOk && !(bad f.a || bad f.b || bad f.c)

/-- A check that failed: the class, the lanes, the address, whether stage two failed, and the position of a transfer. -/
structure Hit where
  cls : FaultClass
  mask : Mask
  addr : Dword
  stage2 : Bool
  origin : Option Word
  deriving DecidableEq, Repr

/-- A failed check with an address. -/
def Hit.plain (cls : FaultClass) (mask : Mask) (addr : Dword) : Hit :=
  { cls := cls, mask := mask, addr := addr, stage2 := false, origin := none }

/-- Registers that an operation reads in the lanes above L0: `spawn` reads only c there (R167). -/
def rowReadsHigh (r : Row) (cls opc : Nat) (f : Fields) : List Nat :=
  if onceForGroup cls opc then [] else if cls = 10 ∧ opc = 0x10 then roleRegs r.roles.c f f.c else rowReads r f

/-- The lanes that read a poisoned register (R297). -/
def Issue.poisonedLanes (is : Issue) (r : Row) (cls opc : Nat) (f : Fields) : Mask :=
  maskOf (fun L => is.mask.getLsbD L &&
    (if L = is.l0 then rowReads r f else rowReadsHigh r cls opc f).any (fun k => (is.lane L).bad.look k != 0))

/-- The register is a tile descriptor on a part without matrix dies (R2, R186, R348). -/
def tdescAbsent (s : State) (n : Nat) : Bool := 0x10 ≤ n && n < 0x20 && !s.hasMx

/-- The unit of an operation is absent: class 9, and the tile descriptors of `ctl.get` and `ctl.set`, without matrix dies (R2, R30, R150, R186). `qfeed.tile`,
which names a tile of a matrix engine, is not among them: R30 and R348 name class 9 and the tile descriptors only (log entry 110). -/
def unitAbsent (s : State) (cls opc : Nat) (f : Fields) : Bool :=
  (cls == 9 && !s.hasMx) || (cls == 11 && opc ≤ 1 && tdescAbsent s f.spec.toNat)

/-- The checks of R150 that follow decoding: the slice's legality and notag (R130, R149), the unit (R2, R30), the registers
(R72), and their poison (R297). -/
def issueCheck (i : Instr) (s : State) (is : Issue) : Option Hit :=
  match i.code with
  | none => none
  | some (cls, opc, f) =>
    match findRow cls opc with
    | none => some (Hit.plain .illegalEncoding is.mask 0)
    | some r =>
      if (r.check f).isSome || (if is.acc then !sliceLegal cls opc f else cls == 6 && opc == 0) then
        some (Hit.plain .illegalEncoding is.mask 0)
      else if (match f.pre with | some p => p.notag && !s.ovr is.w.vf is.w.ctx | none => false) then
        some (Hit.plain .illegalEncoding is.mask 0)
      else if unitAbsent s cls opc f then some (Hit.plain .unitAbsent is.mask 0)
      else if (rowNamed r f).any (fun k => is.r.eff.regs ≤ k) then some (Hit.plain .operandExtent is.mask 0)
      else if is.poisonedLanes r cls opc f != 0 then some (Hit.plain .poison (is.poisonedLanes r cls opc f) 0)
      else none

/-- Order, scope, space and notag of an access, from the prefix or from c.mdef (R131, R133). -/
structure Quals where
  order : Order
  scope : Scope
  space : Space
  notag : Bool
  deriving DecidableEq, Repr

/-- The order that c.mdef gives to an operation that reads, writes, or does both (R133). -/
def weakenOrder (o : Order) (reads writes : Bool) : Order :=
  match o, reads, writes with
  | .acqRel, true, false => .acquire
  | .acqRel, false, true => .release
  | .release, true, false => .relaxed
  | .acquire, false, true => .relaxed
  | o, _, _ => o

/-- The qualifiers of an operation of group `g`. `spaces` lists the spaces that R130 allows it. -/
def quals (g : Group) (f : Fields) (reads writes : Bool) (spaces : List Space) : Quals :=
  match f.pre with
  | some p => { order := p.order, scope := p.scope, space := p.space, notag := p.notag }
  | none =>
    let m := g.mdef
    let sp := (Space.ofCode (m.extractLsb' 20 3)).getD .generic
    { order := weakenOrder (Order.ofCode (m.extractLsb' 26 2)) reads writes,
      scope := (Scope.ofCode (m.extractLsb' 23 3)).getD .workgroup,
      space := if spaces.contains sp then sp else .generic, notag := false }

/-- Rank of a scope: group < workgroup < cluster < die < package < system (R252). -/
def scopeRank : Scope → Nat
  | .group => 0 | .workgroup => 1 | .cluster => 2 | .die => 3 | .package => 4 | .system => 5

end Sys2Proof.Machine
end

