-- ==== Sys2Proof/Machine/Ops.lean ====
section
/-! DEFINITION. The life of an operation: its effect, its retirement with the resolution of its lanes, the faults it takes and
the waits it makes, the spin detector, and the end of an episode (R52, R57, R58, R75 to R89, R150, R230, R386 to R390, R432). -/

namespace Sys2Proof.Machine

/-- The outcome of a step of this machine. -/
abbrev Out := Host.Outcome State Fault Refusal

/-- What an operation does when it is performed. -/
inductive Effect where
  /-- it retires with the effects in `s`; `loud` when it is of a kind that breaks quietness (R79, R86) -/
  | done (s : State) (loud : Bool)
  /-- it retires, and each lane leaves as `k` says (R52) -/
  | leave (s : State) (k : Nat → LeaveKind)
  /-- a check fails, and the operation has no effect (R83) -/
  | hit (h : Hit)
  /-- it takes a fault that an asynchronous agent recorded; `s` marks it taken (R245, R358, R368) -/
  | taken (s : State) (h : Hit)
  /-- a watch unit is hit, and the operation has no effect (R427) -/
  | watch (units : List Nat) (mask : Mask) (addr : Dword)
  /-- a blocking wait whose condition does not hold yet (R230) -/
  | wait (s : State) (w : Wait)
  /-- the same, of an operation that has made its access: an acquire that joins its latch's queue (R251) -/
  | queued (s : State) (w : Wait)
  /-- a trap, a halt or a `brk`: it retires, and a record of the class is delivered with the mask ACTIVE, its position and the
  address (R188, R189, R433) -/
  | trap (s : State) (cls : FaultClass) (addr : Dword)
  /-- it waits for a page in transit, a full dirty log or a replay entry, and is performed at the group's next move -/
  | stay (s : State)

/-- The breakpoint units of a VF that apply to a context (R431). -/
def State.breaks (s : State) (vf ctx : Nat) : List Break :=
  (List.range 8).filterMap (fun b =>
    let v := (s.vfReg vf (0x180 + 8 * b)).toNat
    let edge := bitsOf v 23 22
    if edge = 0 ∨ bitsOf v 15 0 ≠ ctx then none
    else some { unit := b, func := bitsOf v 63 48, parcel := bitsOf v 47 24, entry := edge % 2 == 1, leave := 2 ≤ edge })

/-- A node's read of an operand code in lane `L` (R41). -/
def Issue.nodeRead (is : Issue) (active : Mask) (L : Nat) (code header depth : Nat) : Option Word :=
  if code < 0x40 then if is.r.eff.regs ≤ code then none else some ((is.lane L).reg code)
  else
    match IndexReg.ofCode (BitVec.ofNat 8 code) with
    | some .pos => some (posWord depth header)
    | some .active => some active
    | some x => some (is.index x L)
    | none => none

/-- The units that are not tested again for lane `L`, where it stands (R427, R432). -/
def Group.skipped (g : Group) (ks : List Skip) (L : Nat) : List Nat :=
  let l := g.lane L
  (ks.filter (fun (k : Skip) => k.mask.getLsbD L && k.pos == l.pos && k.func == l.func && k.base == l.frameBase)).flatMap (fun k => k.units)

/-- The lanes of a mask have performed something where they stand: what they were to skip there is used up. -/
def Group.useSkips (g : Group) (mask : Mask) (ks : List Skip) : List Skip :=
  ks.filter (fun (k : Skip) => k.mask &&& mask == 0 || k.base != (g.lane (lowest mask)).frameBase)

/-- What resolution reads for lane `L` of a group. -/
def Issue.resolveEnv (is : Issue) (s : State) (t : Trees) (active : Mask) (skip : List Skip) (L : Nat) : ResolveEnv :=
  { t := t, priv := is.w.pa + privOff is.r.eff.lstore is.r.eff.priv is.g.grp L, privLen := is.r.eff.priv,
    frameBase := (is.lane L).frameBase,
    rootFunc := if is.acc then is.r.eff.access else
      if (is.lane L).frameBase = 0 then is.g.root else (match is.g.episode with | some e => e.handler | none => is.g.root),
    read := is.nodeRead active L, breaks := if is.acc then [] else s.breaks is.w.vf is.w.ctx,
    skip := is.g.skipped skip L }

/-- The resolutions of the lanes of a mask, as far as they have come. -/
structure Settled where
  m : Memory
  lanes : List Lane
  retired : Mask
  /-- the loops that were repeated and entered, with the lane (R86) -/
  repeated : List (Nat × LoopId)
  entered : List (Nat × LoopId)
  faults : List (Nat × TreeFault)
  edges : List (Nat × Edge)
  /-- physical addresses of the frames that they have written (R48) -/
  frames : List Nat
  /-- the 64 KiB pages of the image that they have read (R290) -/
  pages : List Nat

/-- The lanes of a group before any of them is resolved. -/
def Settled.start (m : Memory) (lanes : List Lane) : Settled :=
  { m := m, lanes := lanes, retired := 0, repeated := [], entered := [], faults := [], edges := [], frames := [], pages := [] }

def setBit (m : Mask) (L : Nat) : Mask := m ||| (1#32 <<< L)

/-- A lane after its resolution. One that has left its handler stands at depth 0 there: its frames are popped (R49, R389). -/
def settledLane (l : Lane) (r : Resolving) (e : ResolveEnd) : Lane :=
  let l1 := { l with func := BitVec.ofNat 16 r.func, atStart := false }
  match e with
  | .op p | .stopped p => { l1 with pos := posWord r.depth p }
  | .fault f => { l1 with pos := posWord r.depth f.parcel }
  | .returned => { l with life := .returned, pos := posWord 0 l.parcel }
  | .retire => l

/-- Resolves lane `L` of a group, after the lanes below it. -/
def Issue.settleLane (is : Issue) (s : State) (t : Trees) (active : Mask) (skip : List Skip) (k : Nat → LeaveKind)
    (a : Settled) (L : Nat) : Settled :=
  let l := is.g.lane L
  let v := is.resolveEnv s t active skip L
  let (r, e) := v.resolve a.m l.func.toNat l.depth l.parcel (k L)
  let l' := settledLane l r e
  let live := match e with | .retire => false | .returned => false | _ => true
  { m := r.m, lanes := a.lanes.set L l', retired := if e = .retire then setBit a.retired L else a.retired,
    repeated := match r.repeated with | some x => if live then a.repeated ++ [(L, x)] else a.repeated | none => a.repeated,
    entered := if live then a.entered ++ r.entered.map (fun x => (L, x)) else a.entered,
    faults := match e with | .fault f => a.faults ++ [(L, f)] | _ => a.faults,
    edges := match v.taken r l'.parcel with
      | some x => if live then a.edges ++ [(L, x)] else a.edges
      | none => a.edges,
    frames := a.frames ++ r.frames.reverse,
    pages := (a.pages ++ r.pages).eraseDups }

/-- Resolves the lanes of `mask`, in ascending order. -/
def Issue.settleLanes (is : Issue) (s : State) (t : Trees) (active mask : Mask) (skip : List Skip) (k : Nat → LeaveKind) :
    Settled :=
  (lanesOf mask).foldl (fun a L => is.settleLane s t active skip k a L) (Settled.start s.mem is.g.lanes)

/-- The path of lane `L` of a group (R50). -/
def Issue.path (is : Issue) (m : Memory) (L : Nat) : List Nat :=
  let l := is.g.lane L
  lanePath m (is.w.pa + privOff is.r.eff.lstore is.r.eff.priv is.g.grp L) l.frameBase l.depth l.parcel

/-- The lane of the earliest position among `ls`; the lowest lane of those at it. -/
def Issue.leastLane (is : Issue) (m : Memory) : List Nat → Option Nat
  | [] => none
  | L :: ls =>
    match is.leastLane m ls with
    | none => some L
    | some K => if pathLt (is.path m K) (is.path m L) then some K else some L

/-- The lanes among `ls` at the position of lane `L`. -/
def Issue.atLane (is : Issue) (m : Memory) (ls : List Nat) (L : Nat) : Mask :=
  let p := is.path m L
  maskOf (fun K => ls.contains K && is.path m K == p)

/-- Order of the classes that a resolution raises (R57). -/
def treeRank : FaultClass → Nat
  | .badStructure => 0
  | .callHandle => 1
  | .frameOverflow => 2
  | _ => 3

/-- The squashed waits that are left when the lanes `m` have come past theirs, or have taken a fault there (R118, R378). -/
def keptBut (m : Mask) (ks : List KeptWait) : List KeptWait := ks.filter (fun k => k.mask &&& m == 0)

/-- Delivers a failed check of the operation in issue: the access slice stops; a group's run is squashed, and it takes the fault (R83, R287). -/
def State.takeHit (s : State) (is : Issue) (h : Hit) : State :=
  if is.acc then
    s.updGroup is.g.core is.g.slot (fun g => { g with
      acc := g.acc.map (fun a => { a with stopped := some { cls := h.cls, addr := h.addr, stage2 := h.stage2 }, taken := none }) })
  else
    let hit := if h.mask = 0 then is.mask else h.mask
    let l := is.g.lane (lowest hit)
    ((s.squash is.g.core is.g.slot true).updGroup is.g.core is.g.slot (fun g => { g with level := 0, kept := keptBut hit g.kept })).deliver is.g.core is.g.slot
      { cls := h.cls, mask := h.mask, lanes := h.mask, addr := h.addr, stage2 := h.stage2, pos := l.pos, func := l.func.toNat, asl := false,
        origin := h.origin }

/-- Delivers one fault for the lanes whose resolution failed; what is left of the run is squashed (R57, R84). Of several lanes at the position with
the class the record takes the address of the lowest: which of their handles it is, R57 does not say (log entry 96). -/
def State.treeFault (s0 : State) (core slot : Nat) (fs : List (Nat × TreeFault)) : State :=
  if fs = [] then s0
  else
    let s := s0.squash core slot false
    match ({ s with cur := { s.cur with core := core, slot := slot, acc := false } }).issue? with
    | none => s
    | some is =>
      match is.leastLane s.mem (fs.map (fun x => x.1)) with
      | none => s
      | some K =>
        let here := fs.filter (fun x => (is.atLane s.mem (fs.map (fun y => y.1)) K).getLsbD x.1)
        let rank := here.foldl (fun a x => min a (treeRank x.2.cls)) 3
        match here.find? (fun x => treeRank x.2.cls == rank) with
        | none => s
        | some x =>
          s.deliver core slot
            { cls := x.2.cls, mask := maskOf (fun L => here.any (fun y => y.1 == L && treeRank y.2.cls == rank)),
              lanes := maskOf (fun L => here.any (fun y => y.1 == L && treeRank y.2.cls == rank)),
              addr := x.2.addr, stage2 := x.2.stage2, pos := (is.g.lane x.1).pos, func := (is.g.lane x.1).func.toNat,
              asl := false, origin := none }

/-- Debug-parks the group for the edges that its lanes hit: one record for the lanes that hit the same edge of the same node, with the position of
the lowest of them (R432, R434; log entry 35). The first argument bounds the records. -/
def State.takeEdges (s : State) (core slot : Nat) : Nat → List (Nat × Edge) → State
  | 0, _ => s
  | _ + 1, [] => s
  | n + 1, (L, x) :: rest =>
    match s.group? core slot with
    | none => s
    | some g =>
      let same := fun (y : Nat × Edge) => y.2.unit == x.unit && y.2.isExit == x.isExit
      let mask := maskOf (fun K => K == L || rest.any (fun y => y.1 == K && same y))
      let s1 := s.debugStop core slot .breakpoint x.unit mask (if x.isExit then (posWord x.depth x.parcel).setWidth 64 else 0)
        (g.lane L).pos (g.lane L).func.toNat
      let s2 := if x.isExit then s1
        else s1.updGroup core slot (fun g => { g with
          breakSkips := (lanesOf mask).map (fun K =>
            { units := [x.unit], mask := 1#32 <<< K, pos := (g.lane K).pos, func := (g.lane K).func, base := (g.lane K).frameBase }) ++ g.breakSkips })
      s2.takeEdges core slot n (rest.filter (fun y => !same y))

/-- Puts the settled lanes into the group: frames written, each an access of its bytes, positions taken, lanes retired; before these the copies go on
whose faults the group has had serviced (R48, R52, R54, R88, R94, R243, R443). -/
def State.applySettled (s : State) (is : Issue) (a : Settled) (run : Mask) : State :=
  let s2 := s.logged (is.g.accessor is.w is.mask) (a.frames.flatMap (fun pa => touchesOf pa 8 1)) (fun s =>
    a.frames.foldl (fun s pa => s.storeBytes pa (readBytes a.m pa 8)) s) |>.updGroup is.g.core is.g.slot (fun g =>
      { g with lanes := a.lanes, run := run })
  if a.retired = 0 then s2
  else
    (if s.arrivalWaits is.w is.g a.retired then s2.hold else s2.serveCopies is.g.wg).retireLanes is.g.core is.g.slot a.retired

/-- What the resolutions of a workgroup's code have read: they set the touch bits of its pages, and where they have met a page in transit, or one to be
promoted first, the step waits (R282, R290). -/
def State.codeRead (s : State) (w : Workgroup) (pages : List Nat) (faults : List TreeFault) : State :=
  faults.foldl (fun s f => s.awaitFault w.vf w.ctx f) (pages.foldl (fun s k => s.visit w.vf w.ctx (k * 65536)) s)

/-- Moves the lanes of `mask` as `k` says, with the edges and the fault that this meets (R52, R57, R432). -/
def State.settle (s : State) (is : Issue) (active mask : Mask) (skip : List Skip) (k : Nat → LeaveKind) (run : Mask) :
    State × Settled :=
  match s.readTrees is.w.vf is.w.ctx is.r.eff.image is.r.code with
  | .error x => (s.awaitFault is.w.vf is.w.ctx (x.fault 0), Settled.start s.mem is.g.lanes)
  | .ok t =>
    let a := is.settleLanes s t active mask skip k
    ((s.applySettled is a run).codeRead is.w a.pages (a.faults.map (fun x => x.2)), a)

/-- The edges first, and then, where no edge parks the group, the fault (R57, R432, R447; log entry 35). -/
def State.afterSettle (s : State) (is : Issue) (a : Settled) : State :=
  if a.edges = [] then s.treeFault is.g.core is.g.slot a.faults
  else s.takeEdges is.g.core is.g.slot 32 a.edges

/-- The issue of the group of `is` as it stands in `s`. -/
def Issue.refresh (is : Issue) (s : State) : Issue :=
  match s.group? is.g.core is.g.slot with
  | some g => { is with g := g }
  | none => is

/-- The end of an episode, when no lane of its mask remains in the handler (R389). -/
def State.endEpisode (s : State) (core slot : Nat) : State :=
  match ({ s with cur := { s.cur with core := core, slot := slot, acc := false } }).issue? with
  | none => s
  | some is =>
    match is.g.episode with
    | none => s
    | some ep =>
      if (lanesOf ep.mask).any (fun L => (is.g.lane L).life == .live) then s
      else
        let frameAt := fun L => is.w.pa + privOff is.r.eff.lstore is.r.eff.priv is.g.grp L + 8 * ep.depth
        let back := is.g.lifeMask .returned
        let resume := fun L (l : Lane) =>
          { l with
            life := .live, pos := BitVec.ofNat 32 (readLE s.mem (frameAt L) 4),
            func := BitVec.ofNat 16 (readLE s.mem (frameAt L + 4) 4), frameBase := 0, atStart := ep.starting.getLsbD L }
        let g1 :=
          { is.g with
            lanes := mapLanes resume back is.g.lanes, episode := none, trapCtl := setTrap is.g.trapCtl 0 false 0, run := 0 }
        let s1 := s.updGroup core slot (fun _ => g1)
        match bitsOf is.g.trapCtl.toNat 11 10 with
        | 1 =>
          if ep.isFault then
            let is1 := { is with g := g1, acc := false, mask := back }
            let (s2, a) := s1.settle is1 back back [] (fun _ => .succ) 0
            s2.afterSettle is1 a
          else s1
        | 2 => s1.updGroup core slot (Group.parkFor .fault)
        | 3 => s1.terminate is.r
        | _ => s1

/-- The next operation of the leaf that holds the operation at parcel `p` of function `func`. -/
def nextInLeaf (t : Trees) (func p : Nat) : Option Nat :=
  match t.fn? func with
  | none => none
  | some e =>
    match t.descend e p with
    | (nd :: _, none) => nd.ops.find? (fun o => p < o)
    | _ => none

/-- An operation of the lanes `m` has retired. The iteration of those of them that it is in stays quiet where the operation was `calm` and they have run
with the same lanes before; the lanes that are not among `m` have a history of their own from now on: one that has not begun has not begun yet, and
one that has is not quiet any more (R86). -/
def Iteration.step (m : Mask) (calm : Bool) (x : Iteration) : List Iteration :=
  let both := x.mask &&& m
  let rest := x.mask &&& ~~~m
  (if both = 0 then [] else [{ x with mask := both, ran := m, quiet := x.quiet && calm && (x.fresh || x.ran == m), fresh := false }]) ++
    (if rest = 0 then [] else [{ x with mask := rest, quiet := x.quiet && x.fresh, granules := if x.fresh then [] else x.granules }])

/-- The loops of a list of lanes, each once. -/
def loopsIn (xs : List (Nat × LoopId)) : List LoopId := (xs.map (fun x => x.2)).eraseDups

/-- The lanes of a list that name a loop. -/
def lanesAt (xs : List (Nat × LoopId)) (l : LoopId) : Mask := maskOf (fun L => xs.contains (L, l))

/-- The lanes `m` end an iteration of loop `l`, and begin the next (R86, R87). -/
def Group.endIteration (m : Mask) (l : LoopId) (g : Group) : Group :=
  let mine := g.iters.filter (fun (x : Iteration) => x.loop == l && x.mask &&& m != 0)
  let calm := mine.foldl (fun k (x : Iteration) => k ||| x.mask) 0 &&& m == m && mine.all (fun (x : Iteration) => x.quiet && x.ran == m)
  let loaded := (mine.flatMap (fun (x : Iteration) => x.granules)).eraseDups
  let count := if calm then (if g.lastLanes = m then g.spinCount + 1 else 1) else 0
  { g with spinCount := count, lastLanes := m,
           watched := if 64 ≤ count then (if 8 < loaded.length then [] else loaded) else g.watched,
           iters := beginIn m l g.iters }

/-- The detector follows a resolution, at its operation's retirement or at a retried Enter: its loops repeated, and its loops entered (R58, R86). -/
def Group.follow (repeated entered : List (Nat × LoopId)) (g : Group) : Group :=
  if g.spinOff then g
  else
    let g1 := (loopsIn repeated).foldl (fun g l => Group.endIteration (lanesAt repeated l) l g) g
    (loopsIn entered).foldl (fun g l => Group.enterLoop (lanesAt entered l) l g) g1

/-- The detector at the retirement of an operation of the lanes `mask` (R86, R87): `before` are the lanes as they stood, `written` as the
operation left them, `loud` says that it breaks quietness (log entry 39). -/
def Group.detect (g : Group) (mask : Mask) (before : List Lane) (loud : Bool) (repeated entered : List (Nat × LoopId)) (written : List Lane) :
    Group :=
  if g.spinOff then g
  else
    let changed := before.map (fun l => l.regs) != written.map (fun l => l.regs)
    Group.follow repeated entered { g with iters := g.iters.flatMap (Iteration.step mask (!loud && !changed)) }

/-- The lanes that may be chosen for a run: live, not demoted, and not of a debug-parked group; during an episode only its own lanes (R65, R386). -/
def Group.eligible (g : Group) : Mask :=
  if g.park = some .debug then 0 else g.liveMask &&& ~~~g.demoted &&& (match g.episode with | some e => e.mask | none => 0xFFFFFFFF)

/-- The lanes demoted by a count of 64, which becomes 0 (R87, R89; log entry 32). Whether another lane is eligible is seen at once, for the group
stands at a run boundary (R88). -/
def Group.demote (now : Nat) (g : Group) : Group :=
  if 64 ≤ g.spinCount then
    let d : Demotion := { lanes := g.lastLanes &&& g.liveMask, watched := g.watched, began := now, otherRan := false, otherEligible := false }
    let g1 := { g with demos := if d.lanes = 0 then g.demos else g.demos ++ [d], watched := [], spinCount := 0,
                       demotions := min 65535 (g.demotions + 1) }
    { g1 with demos := g1.demos.map (fun x => { x with otherEligible := x.otherEligible || g1.eligible != 0 }) }
  else g

/-- A run retires, since its last operation has: a run of other lanes than those of a demotion (R88). -/
def Group.ranOthers (mask : Mask) (g : Group) : Group :=
  if g.run = 0 then { g with demos := g.demos.map (fun d => { d with otherRan := d.otherRan || d.lanes &&& mask == 0 }) } else g

/-- The granules that a load or an atomic of the group read, for the detector (R87). -/
def State.noteLoad (s : State) (is : Issue) (pa n : Nat) : State :=
  s.updGroup is.g.core is.g.slot (fun g =>
    { g with iters := g.iters.map (fun (i : Iteration) =>
        if i.mask &&& is.mask ≠ 0 then { i with granules := i.granules ++ (granulesOf pa n).filter (fun x => !i.granules.contains x) } else i) })

/-- Operations whose data moves after their retirement: their tagged rows name level 0 (R441). -/
def movesLater (i : Instr) : Bool :=
  match i with
  | .cpAsync _ => true
  | .tld _ => true
  | .tst _ => true
  | .mlaunch _ => true
  | _ => false

/-- The operation orders what its group reads later after what others have written before: an acquire, a fence of reads, or a wait (R301, R302; log
entry 33). A latch's grant orders the bound bytes alone: `acquire` says so itself (R314). -/
def Issue.synchronises (is : Issue) (i : Instr) : Bool :=
  let acq := fun (f : Fields) (writes : Bool) => let o := (quals is.g f true writes []).order; o == .acquire || o == .acqRel
  match i with
  | .ld f | .ldX4 f | .ltag f => acq f false
  | .atomAdd f | .atomMin f | .atomMax f | .atomAnd f | .atomOr f | .atomXor f | .atomXchg f | .atomCas f => acq f true
  | .barWait _ | .dbarWait _ | .twaitAny _ | .twaitAll _ | .tfirst _ | .mwait _ | .mfenceOp _ | .qpop _ => true
  | .fence f => f.mod.getLsbD 0
  | _ => false

/-- The row of the operation in issue as it retires, if it is the tagged one (R440, R441). -/
def State.tagRetired (s : State) (is : Issue) (i : Instr) : State :=
  let l := is.g.lane is.l0
  if is.g.tagged = some l.parcel then
    s.tagRow is.g is.w is.r l.depth l.func.toNat l.parcel (if movesLater i then 0 else is.g.level) false false
  else s

/-- Retires an operation of an access slice: its one lane is resolved, and leaving the root ends the slice (R284, R286). -/
def State.retireSlice (s : State) (is : Issue) (k : Nat → LeaveKind) : State :=
  let is1 := is.refresh s
  match is1.g.acc, s.readTrees is.w.vf is.w.ctx is.r.eff.image is.r.code with
  | some _, .error x => s.awaitFault is.w.vf is.w.ctx (x.fault 0)
  | some a, .ok t =>
    let v := is1.resolveEnv s t 1 [] 0
    let (r, e) := v.resolve s.mem a.lane.func.toNat a.lane.depth a.lane.parcel (k 0)
    let l := settledLane a.lane r e
    let a1 := match e with
      | .retire | .returned => { a with ended := true, lane := { l with life := .retired } }
      | .fault f => { a with lane := l, stopped := some { cls := f.cls, addr := f.addr, stage2 := f.stage2 }, taken := none }
      | _ => { a with lane := l }
    (s.updGroup is.g.core is.g.slot (fun g => { g with acc := some a1 })).codeRead is.w r.pages
      (match e with | .fault f => [f] | _ => [])
  | none, _ => s

/-- Retires the operation of a group with the effects that stand in `s` (R78): the lanes of its mask are resolved, the detector
and the samplers see it, and the lanes that stay in the leaf stay in the run (R52, R66, R75, R86); where none stays, what is left of the
run is squashed (R80). Edges and resolution faults are left to the caller. -/
def State.retireLeaf (s : State) (is : Issue) (i : Instr) (loud : Bool) (k : Nat → LeaveKind) : State × Settled :=
  let is1 := is.refresh s
  let l0 := is1.g.lane is.l0
  let next := match s.groupTrees is.w is.r with | some t => nextInLeaf t l0.func.toNat l0.parcel | none => none
  let stays := fun L => decide (k L = LeaveKind.succ) && next.isSome
  let run := if next.isSome then is1.g.run &&& maskOf (fun L => is.mask.getLsbD L && stays L) else 0
  let (s1, a) := (s.tagRetired is1 i).settle is1 is.mask is.mask [] k run
  let s2 := s1.updGroup is.g.core is.g.slot (fun g =>
    { (g.detect is.mask is.g.lanes loud a.repeated a.entered is1.g.lanes).ranOthers is.mask with
      wait := none, kept := keptBut is.mask g.kept, syncAt := if is.synchronises i then s.fresh else g.syncAt,
      skips := is1.g.useSkips is.mask g.skips, issued := true, level := 0 })
  let s3 := (s2.count is.g.core is.w.vf is.w.ctx 0x03 1).count is.g.core is.w.vf is.w.ctx 0x05 (countLanes is.mask)
  match next with
  | some p => (if run = 0 then s3.squashFrom is.g.core is.g.slot l0.depth l0.func.toNat p false else s3, a)
  | none => (s3, a)

/-- Retires the operation in issue (R78). -/
def State.retire (s : State) (is : Issue) (i : Instr) (loud : Bool) (k : Nat → LeaveKind) : State :=
  if is.acc then s.retireSlice is k
  else
    let (s1, a) := s.retireLeaf is i loud k
    (s1.afterSettle is a).endEpisode is.g.core is.g.slot

/-- Retires a trap, a halt or a `brk`, squashes what is left of its run, and delivers its record; its policy acts on the lanes that still live,
those among them that have returned from a handler. An edge is taken; a lane whose resolution failed raises its fault again when its position
is next the least (R57, R65, R188, R189, R386, R433). -/
def State.retireTrap (s : State) (is : Issue) (i : Instr) (cls : FaultClass) (addr : Dword) : State :=
  let l0 := is.lane is.l0
  let (s1, a) := s.retireLeaf is i true (fun _ => .succ)
  let s2 := ((s1.squash is.g.core is.g.slot false).updGroup is.g.core is.g.slot (fun g => { g with run := 0 })).takeEdges is.g.core is.g.slot 32 a.edges
  let live := maskOf (fun L => is.mask.getLsbD L && ((is.refresh s2).g.lane L).life != .retired)
  let s3 :=
    if cls = .breakpoint then s2.debugStop is.g.core is.g.slot .breakpoint unitBrk is.mask addr l0.pos l0.func.toNat
    else
      s2.deliver is.g.core is.g.slot
        { cls := cls, mask := is.mask, lanes := live, addr := addr, stage2 := false, pos := l0.pos, func := l0.func.toNat,
          asl := false, origin := none }
  s3.endEpisode is.g.core is.g.slot

/-- A wait that goes on keeps its counted cycles (R117). -/
def Wait.since (w : Wait) (old : Option Wait) : Wait :=
  match old with
  | some o => if o.kind = w.kind then { w with cycles := o.cycles, expired := o.expired } else { w with cycles := 0, expired := false }
  | none => { w with cycles := 0, expired := false }

/-- The wait that a group's operation goes on with: the one under way, or the one that a save has squashed where the lanes stand (R117, R378). -/
def Issue.oldWait (is : Issue) (g : Group) : Option Wait :=
  match g.wait with
  | none =>
    (g.kept.find? (fun k => k.mask &&& is.mask != 0 && k.pos == (g.lane is.l0).pos && k.func == (g.lane is.l0).func)).map (fun k => k.wait)
  | w => w

/-- Finishes an operation. -/
def State.finish (s : State) (is : Issue) (i : Instr) (e : Effect) : State :=
  match e with
  | .done s' loud => s'.retire is i loud (fun _ => .succ)
  | .leave s' k => s'.retire is i false k
  | .hit h => s.takeHit is h
  | .taken s' h => s'.takeHit (is.refresh s') h
  | .trap s' cls addr => s'.retireTrap is i cls addr
  | .watch us mask addr =>
    let l := is.g.lane (lowest mask)
    (s.debugStop is.g.core is.g.slot .watchpoint ((us.head?).getD 0) mask addr l.pos l.func.toNat).updGroup is.g.core is.g.slot
      (fun g => { g with skips := { units := us, mask := is.mask, pos := l.pos, func := l.func, base := l.frameBase } :: g.skips })
  | .wait s' w | .queued s' w =>
    s'.updGroup is.g.core is.g.slot (fun g => { g with wait := some (w.since (is.oldWait g)) })
  | .stay s' => s'

/-- Performs an operation: the checks of R150, its effect, and its end. -/
def runOp (i : Instr) (s : State) (body : Issue → Effect) : Out :=
  match s.issue? with
  | none => .fault .noGroupInIssue
  | some is =>
    match issueCheck i s is with
    | some h => .next (s.takeHit is h)
    | none => .next (s.finish is i (body is))

end Sys2Proof.Machine
end

