-- ==== Sys2Proof/Machine/Flags.lean ====
section
/-! DEFINITION. The sticky flags and the numeric traps of operations that raise flags (R201 to R203),
and the stochastic-rounding decision (R222, R342, R343). -/

namespace Sys2Proof.Machine

/-- One lane's result: the value in 64 bits, and the flags raised. -/
structure LaneRes where
  value : Dword
  flags : BitVec 5
  deriving DecidableEq, Repr

/-- A result of a type that one register carries. -/
def LaneRes.ofWord (w : Word) (fl : BitVec 5) : LaneRes := { value := w.setWidth 64, flags := fl }

/-- The numeric trap enables of a group (R203). -/
def Group.enables (g : Group) : BitVec 5 := g.trapCtl.extractLsb' 0 5

/-- The union of the flags that `f` gives over the lanes of a mask. -/
def unionFlags (m : Mask) (f : Nat → BitVec 5) : BitVec 5 := (lanesOf m).foldl (fun a L => a ||| f L) 0

/-- The lanes that raise an enabled flag (R203). -/
def Issue.trapLanes (is : Issue) (fl : Nat → BitVec 5) : Mask :=
  maskOf (fun L => is.mask.getLsbD L && (fl L &&& is.g.enables) != 0)

/-- The numeric-trap fault of an operation, or none (R203). -/
def Issue.numericTrap (is : Issue) (fl : Nat → BitVec 5) : Option Hit :=
  let t := is.trapLanes fl
  if t = 0 then none
  else some (Hit.plain .numericTrap t ((unionFlags t (fun L => fl L &&& is.g.enables)).setWidth 64))

/-- ORs flags into c.flags of the group in issue (R202). -/
def State.raise (s : State) (is : Issue) (fl : BitVec 5) : State :=
  s.updGroup is.g.core is.g.slot (fun g => { g with flags := g.flags ||| fl.setWidth 32 })

/-- An operation that writes `f L` to register `dest` of every lane and raises flags (R202, R203). -/
def Issue.numeric (is : Issue) (s : State) (ty : Ty) (dest : Nat) (f : Nat → LaneRes) : Effect :=
  match is.numericTrap (fun L => (f L).flags) with
  | some h => .hit h
  | none =>
    .done ((s.writeLanes is (fun L l => l.setVal ty dest (f L).value)).raise is
      (unionFlags is.mask (fun L => (f L).flags))) false

/-- An operation that writes `f L` to register `dest` of every lane, and does nothing else. -/
def Issue.writes (is : Issue) (s : State) (ty : Ty) (dest : Nat) (f : Nat → Dword) : Effect :=
  .done (s.writeLanes is (fun L l => l.setVal ty dest (f L))) false

/-- An operation that writes a single register whatever its type. -/
def Issue.writesWord (is : Issue) (s : State) (dest : Nat) (f : Nat → Word) : Effect :=
  .done (s.writeLanes is (fun L l => l.setReg dest (f L))) false

/-- Flush mode is in force (R200). -/
def Issue.ftz (is : Issue) : Bool := is.g.mdef.getLsbD 29

/-- The discarded bits of an exact real in a format (R342). -/
def Fmt.discarded (t : Fmt) (x : Exact) : BitVec 16 :=
  if x.m = 0 then 0
  else
    let g := t.grid x
    BitVec.ofNat 16 (g.rest * 65536 / 2 ^ g.shift)

/-- The hash of R343 for column `j`, from the discarded bits of its neighbours. -/
def srHash (left right : BitVec 16) (j : Nat) : BitVec 16 :=
  (left ^^^ right.rotateLeft 5 ^^^ BitVec.ofNat 16 (j * 0x2F1B)) * 0x9E37#16

/-- The SR decision of column `j` of a row: its magnitude is rounded away (R343). -/
def srAway (row : Nat → BitVec 16) (j last : Nat) : Bool :=
  (srHash (if j = 0 then 0 else row (j - 1)) (if j = last then 0 else row (j + 1)) j) < row j

end Sys2Proof.Machine
end

