-- ==== Sys2Proof/Machine/Access.lean ====
section
/-! DEFINITION. What every memory operation shares: effective addresses, the checks of R228 in their order, absent peers, releases,
watch units, replay, posted writes, reads and writes (R227 to R231, R267, R293, R299, R307, R317 to R319, R435 to R437, R443, R445). -/

namespace Sys2Proof.Machine

/-- One access of one lane of an operation, before its checks. -/
structure Req where
  lane : Nat
  /-- the address pair and the byte offset (R227) -/
  x : Dword
  off : Int
  n : Nat
  align : Nat
  space : Space
  reads : Bool
  writes : Bool
  /-- the write of a protected byte is a fault (R49) -/
  guarded : Bool
  /-- the flat window and device memory may be named (R276) -/
  window : Bool
  device : Bool
  /-- tags and poison are checked (R228, R247, R248) -/
  checked : Bool
  notag : Bool
  /-- the address that a failure records -/
  report : Dword
  /-- 0 read, 1 write, 2 tag write: the kind that the replay log names (R443); 3 for a location that the operation checks and does not access itself -/
  kind : Nat
  /-- its write, where another die is the home, is posted and performed there later (R231) -/
  posts : Bool
  deriving DecidableEq, Repr

/-- The effective address (R227). -/
def Req.ea (q : Req) : Dword := addrPlus q.x q.off

/-- Bits [55:0] of the effective address. -/
def Req.va (q : Req) : Nat := addrVa q.ea

/-- A place that an access reaches. -/
structure Spot where
  req : Req
  pa : Nat
  gpage : Option Nat
  path : List Nat
  leaves : List Nat
  deriving DecidableEq, Repr

/-- Physical die of the core of a group. -/
def Issue.die (is : Issue) : Nat := is.g.core / 64

/-- The location is homed on another die than the group in issue (R231, R299). -/
def Issue.remote (is : Issue) (pa : Nat) : Bool := homeDie pa != some is.die

/-- Private offset 0 of lane `L` of the group in issue. -/
def Issue.privPa (is : Issue) (L : Nat) : Nat := is.w.pa + privOff is.r.eff.lstore is.r.eff.priv is.g.grp L

/-- Bytes of the addressable part of the context's die store share (R280). -/
def State.dsBytes (s : State) (vf ctx : Nat) : Nat :=
  let (_, shadow, size) := s.dsShare vf ctx
  (size - shadow) * 65536

/-- Physical address of offset `o` of the context's die store share on die `die` (R280, R404). -/
def State.dsPa (s : State) (vf ctx die o : Nat) : Nat := dieStorePa die ((s.partOf vf).getD 0) ((s.dsShare vf ctx).1 * 65536 + o)

/-- The first two checks of R228 fail: form, alignment, extent of the space, protected bytes. -/
def State.earlyFails (s : State) (is : Issue) (q : Req) : Bool :=
  let prot := fun pa => q.writes && q.guarded && s.isProtected is.w.vf is.w.ctx pa q.n
  !addrFormOk q.x q.off || q.va % q.align != 0 ||
  (match q.space with
  | .generic => s.inWindow is.w.vf q.va && prot (s.windowPa is.w.vf q.va)
  | .priv => is.r.eff.priv < q.va + q.n || prot (is.privPa q.lane + q.va)
  | .dieStore => s.dsBytes is.w.vf is.w.ctx < q.va + q.n || prot (s.dsPa is.w.vf is.w.ctx is.die q.va))

/-- The number by which an access of an operation chooses between an old translation and a new one (R292). -/
def Req.choice (q : Req) : Nat := 2 ^ 57 * (q.lane + 1) + q.va

/-- The third check: where the access leads (R228, R276). -/
def State.placeReq (s : State) (is : Issue) (q : Req) : Place :=
  match q.space with
  | .priv => .ok (is.privPa q.lane + q.va) none [] []
  | .dieStore => .ok (s.dsPa is.w.vf is.w.ctx is.die q.va) none [] []
  | .generic =>
    if s.inWindow is.w.vf q.va then
      if q.window then s.placeWindow is.w.vf is.w.ctx q.va else .fail .translation false
    else if q.device then s.place is.w.vf is.w.ctx q.va q.writes q.choice
    else .fail .translation false

/-- The last three checks of R228. -/
def State.lateCheck (s : State) (is : Issue) (q : Req) : Place :=
  match s.placeReq is q with
  | .ok pa g path leaves =>
    match (if q.checked then s.granuleCheck is.w.vf is.w.ctx pa q.n (addrTag q.x) q.notag false else none) with
    | some c => .fail c false
    | none => .ok pa g path leaves
  | p => p

/-- The limit of R317 has passed for the group's wait. -/
def Issue.peerLimit (is : Issue) : Bool :=
  match is.g.wait with
  | some { kind := .peer, cycles := c, .. } => is.r.eff.blimit != 0 && is.r.eff.blimit * 1024 ≤ c
  | _ => false

/-- A failed check of one access. -/
structure Failure where
  lane : Nat
  cls : FaultClass
  addr : Dword
  stage2 : Bool
  deriving DecidableEq, Repr

/-- The failure of an access, `limit` counting an absent peer as one. -/
def State.failure (s : State) (is : Issue) (limit : Bool) (q : Req) : Option Failure :=
  if s.earlyFails is q then some { lane := q.lane, cls := .operandExtent, addr := q.report, stage2 := false }
  else
    match s.lateCheck is q with
    | .fail c b => some { lane := q.lane, cls := c, addr := q.report, stage2 := b }
    | .absent => if limit then some { lane := q.lane, cls := .peerAbsent, addr := q.report, stage2 := false } else none
    | _ => none

/-- The fault of R228 chosen among the failures: the class and address of the lowest lane, the lanes of the same class. Where one lane makes two
accesses, as a `wsig` does, and they fail different ones of the last checks, R228 and R255 do not say which counts: the model takes the first access's
(log entry 122). -/
def chooseFault (fs : List Failure) : Option Hit :=
  let firstOf := fun L => fs.find? (fun x => x.lane == L)
  match (List.range 32).findSome? firstOf with
  | none => none
  | some x =>
    some { cls := x.cls, mask := maskOf (fun L => match firstOf L with | some y => y.cls == x.cls | none => false),
           addr := x.addr, stage2 := x.stage2, origin := none }

/-- The result of the checks of R228 for all accesses of an operation. -/
inductive Checked where
  | go (spots : List Spot)
  | hit (h : Hit)
  | absent (addr : Dword)
  | transit
  /-- it waits for the promotion of the capacity page at a guest physical address (R282) -/
  | fill (gpa : Nat)
  deriving DecidableEq, Repr

/-- The promotion that an access waits for. -/
def State.fillReq (s : State) (is : Issue) (q : Req) : Option Nat :=
  match s.lateCheck is q with
  | .fill a => some a
  | _ => none

/-- The accesses that name an absent peer. A lane that itself fails one of the first two checks names none (log entry 113). -/
def State.absentReq (s : State) (is : Issue) (qs : List Req) : Option Req :=
  qs.find? (fun q => !s.earlyFails is q && s.placeReq is q == .absent)

/-- The spot of an access that passed its checks. -/
def State.spotOf (s : State) (is : Issue) (q : Req) : Option Spot :=
  match s.placeReq is q with
  | .ok pa g path leaves => some { req := q, pa := pa, gpage := g, path := path, leaves := leaves }
  | _ => none

/-- The checks of R228: where some lane names an absent peer, the first two checks of every lane come first, and the rest
waits; otherwise every check of every lane is made, and the fault is chosen among all the failing lanes. -/
def State.checkReqs (s : State) (is : Issue) (qs : List Req) : Checked :=
  let early := qs.filterMap (fun q => if s.earlyFails is q then s.failure is false q else none)
  match s.absentReq is qs, is.peerLimit, chooseFault early with
  | some _, false, some h => .hit h
  | some q, false, none => .absent q.report
  | _, _, _ =>
    if qs.any (fun q => !s.earlyFails is q && s.lateCheck is q == .transit) then .transit
    else
      match (qs.filter (fun q => !s.earlyFails is q)).findSome? (s.fillReq is), chooseFault (early ++ qs.filterMap (s.failure is is.peerLimit)) with
      | some a, _ => .fill a
      | none, some h => .hit h
      | none, none => .go (qs.filterMap (s.spotOf is))

/-- The generic virtual address by which a watch unit and the replay log know an access: that of a private byte lies in the
flat window (R435). -/
def State.genericVa (s : State) (is : Issue) (q : Req) : Nat :=
  match q.space with
  | .priv => (s.lsBase is.w.vf).toNat + (is.privPa q.lane + q.va - Config.sliceBase)
  | _ => q.va

/-- A range that watch units are compared with (R435, R436). -/
structure WatchRange where
  lane : Nat
  ds : Bool
  va : Nat
  n : Nat
  reads : Bool
  writes : Bool
  report : Dword
  deriving DecidableEq, Repr

def State.watchRange (s : State) (is : Issue) (q : Req) : WatchRange :=
  { lane := q.lane, ds := q.space == .dieStore, va := s.genericVa is q, n := q.n, reads := q.reads, writes := q.writes,
    report := q.report }

/-- Bits of a watch unit (R435). -/
def WatchUnit.scope (u : WatchUnit) : Nat := bitsOf u.value.toNat 63 61
def WatchUnit.kind (u : WatchUnit) : Nat := bitsOf u.value.toNat 60 59
def WatchUnit.size (u : WatchUnit) : Nat := bitsOf u.value.toNat 4 0
def WatchUnit.base (u : WatchUnit) : Nat := bitsOf u.value.toNat 55 5 * 32

/-- The unit's scope takes in lane `L` of the group in issue (R435, R436). -/
def WatchUnit.sees (u : WatchUnit) (is : Issue) (L : Nat) : Bool :=
  u.core == is.g.core && u.vf == is.w.vf && u.ctx == is.w.ctx &&
  (match u.scope with
  | 0 => u.lane == L && u.slot == is.g.slot && u.wg == is.w.id && u.start == is.g.start
  | 1 => u.slot == is.g.slot && u.wg == is.w.id && u.start == is.g.start
  | 2 => u.wg == is.w.id
  | _ => true)

/-- A range hits a unit: one of its bytes lies in the unit's range, and the kind matches (R436). -/
def WatchUnit.hits (u : WatchUnit) (is : Issue) (r : WatchRange) : Bool :=
  u.sees is r.lane && u.value.getLsbD 58 == r.ds && meets r.va r.n u.base (32 * 2 ^ u.size) &&
    ((r.writes && u.kind % 2 == 1) || (r.reads && 2 ≤ u.kind))

/-- The watch hit of an operation: those of the units that it does not skip that hit, the lowest-numbered first, and the lanes and the address for
that one. A unit that has hit it for one of its lanes is not checked for any (R427, R437). -/
def Issue.watchHit (is : Issue) (s : State) (rs : List WatchRange) : Option (List Nat × Mask × Dword) :=
  let skip := is.active.flatMap (is.g.skipped is.g.skips)
  let us := s.watch.filter (fun u => !skip.contains u.unit && rs.any (u.hits is))
  match (List.range 16).find? (fun k => us.any (fun u => u.unit == k)) with
  | none => none
  | some k =>
    let hit := fun L => rs.find? (fun r => r.lane == L && us.any (fun u => u.unit == k && u.hits is r))
    match (List.range 32).findSome? hit with
    | none => none
    | some r => some (k :: (us.map (fun u => u.unit)).filter (fun x => x != k), maskOf (fun L => (hit L).isSome), r.report)

/-- The position of the operation in issue. -/
def Issue.pos (is : Issue) : Word := (is.lane is.l0).pos

def Issue.accessor (is : Issue) : Accessor :=
  { vf := is.w.vf, ctx := is.w.ctx, rcb := is.w.rcb, core := is.g.core, slot := is.g.slot, start := is.g.start, pos := is.pos,
    func := (is.lane is.l0).func, mask := is.mask }

/-- The part of `[va, va + n)` in the flat window, as a physical range. -/
def State.windowPart (s : State) (vf va n : Nat) : Option (Nat × Nat) :=
  let b := (s.lsBase vf).toNat
  let lo := max va b
  let hi := min (va + n) (b + 2 ^ 28)
  if lo < hi then some (s.windowPa vf lo, hi - lo) else none

/-- The touches of the accesses that the operation performs itself; the home sees a posted write when it is performed (R443). -/
def Issue.touches (is : Issue) (sps : List Spot) : List Touch :=
  (sps.filter (fun sp => !(sp.req.posts && is.remote sp.pa) && sp.req.kind != 3)).flatMap (fun sp => touchesOf sp.pa sp.req.n sp.req.kind)

/-- The entry of a latch grant in the replay log (R443): the acquire's position and group; a grant to the arbiter carries core and
slot all ones (log entry 17). -/
def State.grantEntry (s : State) (w : Waiter) : Option (Accessor × ReplayEntry) :=
  match w with
  | .group c k _ =>
    match s.group? c k with
    | none => none
    | some g =>
      match s.wg? g.wg, g.wait with
      | some wg, some x =>
        some ({ vf := wg.vf, ctx := wg.ctx, rcb := wg.rcb, core := c, slot := k, start := g.start, pos := x.pos, func := x.func, mask := x.mask },
          { kind := 3, addr := addrVa x.addr, pos := x.pos, core := c, slot := k })
      | _, _ => none
  | .arbiter vf rcb =>
    match s.region? vf rcb with
    | some r =>
      some ({ vf := vf, ctx := r.ctx, rcb := rcb, core := 255, slot := 127, start := 0, pos := 0, func := 0, mask := 0 },
        { kind := 3, addr := addrVa r.eff.latch, pos := 0, core := 255, slot := 127 })
    | none => none

/-- A grant that is logged waits for room in the replay log, and in replay mode for its turn, or for the stop (R443, R445). -/
def State.grantGate (s : State) (w : Waiter) : Gate :=
  match s.grantEntry w with
  | none => .go s
  | some (ac, e) =>
    if s.recording ac.vf ac.ctx then
      let (n, wr, r) := s.replayLog ac.vf
      if logFull n wr r then .stay s else .go (s.logReplay ac.vf e)
    else s.replayGate ac.key ac.vf ac.ctx [e]

/-- The latch word at `pa` can be written for one who waits for it: the dirty log has room (R413). -/
def State.grantRoom (s : State) (pa : Nat) (w : Waiter) : Bool :=
  isSram pa || !(s.logging (s.waiterVf w) && s.dirtyLogFull (s.waiterVf w))

/-- Grants the latch to the head of its queue and to the consecutive shared requests behind it (R251). The first argument
bounds the number of grants. -/
def State.grant (s : State) (pa : Nat) : Nat → State
  | 0 => s
  | n + 1 =>
    match s.waiters pa with
    | [] => s
    | w :: _ =>
      if canGrant (readLatch s.mem pa) w && s.grantRoom pa w then
        match s.grantGate w with
        | .go s' => (s'.grantTo pa w).grant pa n
        | _ => s
      else s

/-- The grant that comes next of the latch at `pa` stands at the stop index of replay mode (R445). -/
def State.grantStop (s : State) (pa : Nat) : Option Accessor :=
  match (s.waiters pa).head? with
  | none => none
  | some w =>
    match canGrant (readLatch s.mem pa) w, s.grantGate w with
    | true, .stop => (s.grantEntry w).map (fun x => x.1)
    | _, _ => none

/-- Grants what can be granted of the latch at `pa`. -/
def State.grantAll (s : State) (pa : Nat) : State := s.grant pa (s.waiters pa).length

/-- Something that the group in issue has started has still to read (R302; log entry 46). -/
def Issue.reading (is : Issue) : Bool := is.w.reading (fun k => k == is.g.start)

/-- An operation's release waits, for a `tst` of the group that runs, for the reads of its older copies, tile loads and matrix operations, and for its
acknowledgements; or it faults in recovery mode (R252, R302, R307, R319, R323, R356; log entries 46, 48). `none` where it may go on. -/
def Issue.releaseGate (is : Issue) (s : State) (release : Bool) (scope : Scope) : Option Effect :=
  let wide := 4 ≤ scopeRank scope
  if !release then none
  else if wide && s.recovery then some (.hit (Hit.plain .operandExtent is.mask 0))
  else if is.w.storing (fun k => k == is.g.start) || is.reading || (wide && is.g.acks != 0) then some (.wait s { kind := .slot, cycles := 0, addr := 0, expired := false })
  else none

/-- Neither recording nor replay is on for the context. -/
def State.quietLog (s : State) (vf ctx : Nat) : Bool := !s.recording vf ctx && !s.playing vf ctx

/-- The entry at which replay mode stands names the group in slot `slot` of core `core`, and none of the positions `busy` (R443). -/
def State.turnIs (s : State) (vf core slot : Nat) (busy : List Word) : Bool :=
  let (_, _, r) := s.replayLog vf
  match s.readReplay vf r with
  | some bs =>
    let at1 := fun i => ((bs[i]?).getD 0).toNat
    at1 15 == core && at1 14 / 2 == slot && !busy.contains (BitVec.ofNat 32 (ofBytesLE ((bs.drop 8).take 4)))
  | none => false

/-- The positions of the operations of the group with start count `start` whose agents are at work. -/
def State.agentsAt (s : State) (w : Workgroup) (start : Nat) : List Word :=
  (w.copies.filter (fun c => c.start == start)).map (fun c => c.pos) ++ (w.xfers.filter (fun x => x.start == start)).map (fun x => x.pos) ++
    (w.ops.filter (fun o => o.start == start)).map (fun o => o.pos) ++ (s.posted.filter (fun p => p.start == start)).map (fun p => p.pos)

/-- In replay mode it is the turn of the group in issue, and of none of its agents: nothing comes before what it does next (R445; log entry 36). -/
def Issue.ownTurn (is : Issue) (s : State) : Bool := s.turnIs is.w.vf is.g.core is.g.slot (s.agentsAt is.w is.g.start)

/-- A check of an operation fails: in replay mode an operation that the log names waits for its turn first, as long as others come before it (R445; log
entry 36). -/
def Issue.inTurn (is : Issue) (s : State) (es : List ReplayEntry) (h : Hit) : Effect :=
  match s.replayGate is.accessor.key is.w.vf is.w.ctx es with
  | .go _ => .hit h
  | .stay s1 => if is.ownTurn s then .hit h else .stay s1
  | .stop => .stay (s.replayStop is.accessor)

/-- Watch units, then replay, then the operation. -/
def Issue.watched (is : Issue) (s : State) (rs : List WatchRange) (es : List ReplayEntry) (body : State → Effect) : Effect :=
  match s.replayGate is.accessor.key is.w.vf is.w.ctx es with
  | .stop => .stay (s.replayStop is.accessor)
  | g =>
    match is.watchHit s rs with
    | some (us, m, a) => .watch us m a
    | none =>
      match g with
      | .go s' => body s'
      | .stay s1 =>
        match is.ownTurn s, body s with
        | true, .hit h => .hit h
        | _, _ => .stay s1
      | .stop => .stay s

/-- The level of a place as a tagged row names it (R441). -/
def Issue.levelOf (is : Issue) (pa : Nat) : Nat :=
  if Config.dieStoreBase ≤ pa then if homeDie pa = some is.die then 1 else 3
  else if Config.sliceBase ≤ pa then
    if (pa - Config.sliceBase) / 2 ^ 20 = is.g.core then 1 else if homeDie pa = some is.die then 2 else 3
  else if Config.cxlBase ≤ pa then 5
  else 4

/-- Notes the farthest level that the operation in issue reaches (R441). -/
def State.reach (s : State) (is : Issue) (sps : List Spot) : State :=
  let far := (sps.map (fun sp => is.levelOf sp.pa)).foldl max 0
  s.updGroup is.g.core is.g.slot (fun g => { g with level := max g.level far })

/-- Before the group reads or changes `[pa, pa + n)` itself, its own posted writes there are performed (R66, R318). -/
def State.flushOwn (s : State) (is : Issue) (pa n : Nat) : State := s.flushOwner is.g.core is.g.slot is.g.start pa n

/-- An older copy of the group, whose reads are acquires, has still to read: what the group does later with memory, from the identity `id` on, waits
for it, and where a fault has stopped it until that is serviced (R301, R302; log entry 46). -/
def Workgroup.acquiring (w : Workgroup) (start id : Nat) : Bool :=
  w.copies.any (fun c => c.acquire && c.start == start && c.id < id && c.unread)

/-- Before the group reads or changes the places of `sps` itself, its own posted writes there are performed (R66, R318). -/
def State.flushSpots (s : State) (is : Issue) (sps : List Spot) : State :=
  (sps.filter (fun sp => sp.req.reads)).foldl (fun s sp => s.flushOwn is sp.pa sp.req.n) s

/-- The effect of an operation that performs it; a wait, or a fault, does not. -/
def Effect.performs : Effect → Bool
  | .done .. => true
  | .leave .. => true
  | .trap .. => true
  | .queued .. => true
  | _ => false

/-- An operation that accesses memory, and whose performance makes the accesses `more` of SRAM besides its own: it waits for the reads of an older acquire copy; then the checks of R228, its release, the watch units on the
ranges `ws`, replay, and its performance on the spots that its accesses reach. The recorder logs its accesses, and replay mode goes past their
entries, where they are performed: not by a try that waits, nor where the log has no room, or no entry, for all of them (R443, R445). -/
def Issue.accessWith (is : Issue) (s : State) (more : List Touch) (ws : List WatchRange) (qs : List Req) (release : Bool) (scope : Scope)
    (body : State → List Spot → Effect) : Effect :=
  if is.w.acquiring is.g.start s.seq then .stay s else
  match s.checkReqs is qs with
  | .hit h => is.inTurn s ((is.touches (qs.filterMap (s.spotOf is))).map (s.touchEntry is.accessor)) h
  | .absent a => .wait s { kind := .peer, cycles := 0, addr := a, expired := false }
  | .transit => .stay s
  | .fill a => .stay (s.holdFill is.w.vf is.w.ctx a)
  | .go sps =>
    match is.releaseGate s release scope with
    | some e => e
    | none =>
      let ts := more ++ is.touches sps
      if s.replayFull is.accessor ts then .stay s
      else
        let s1 := s.flushSpots is sps
        is.watched s1 ws (ts.map (s1.touchEntry is.accessor)) (fun s' =>
          let e := body ((s'.recordTouches is.accessor ts).reach is sps) sps
          if e.performs || s.quietLog is.w.vf is.w.ctx then e
          else
            let t := body (s1.reach is sps) sps
            if t.performs then .stay s else t)

/-- An operation that makes its own accesses only. -/
def Issue.accessOn (is : Issue) (s : State) (ws : List WatchRange) (qs : List Req) (release : Bool) (scope : Scope)
    (body : State → List Spot → Effect) : Effect :=
  is.accessWith s [] ws qs release scope body

/-- An operation whose accesses are those that the watch units check. -/
def Issue.access (is : Issue) (s : State) (qs : List Req) (release : Bool) (scope : Scope)
    (body : State → List Spot → Effect) : Effect :=
  is.accessOn s (qs.map (s.watchRange is)) qs release scope body

/-- An effect of an operation that is performed once for the group: a failed check is a fault of ACTIVE (R229). -/
def Issue.whole (is : Issue) : Effect → Effect
  | .hit h => .hit { h with mask := is.mask }
  | e => e

/-- What the write of a spot does beside its bytes, when it is performed (R290, R413). -/
def Spot.note (sp : Spot) : Note := { gpage := sp.gpage, path := [], leaves := sp.leaves }

/-- A write of the group in issue, as it is posted. -/
def Issue.posting (is : Issue) (s : State) (eff : PostedEffect) (notes : List Note) (counted performed : Bool) : Posted :=
  { id := s.seq, core := is.g.core, slot := is.g.slot, start := is.g.start, vf := is.w.vf, ctx := is.w.ctx, rcb := is.w.rcb,
    pos := is.pos, func := (is.lane is.l0).func, mask := is.mask, counted := counted, notes := notes, performed := performed, eff := eff }

/-- Posts a write to its home, or counts the acknowledgement of an operation that has performed its write (R231, R318). -/
def State.post (s : State) (is : Issue) (eff : PostedEffect) (notes : List Note) (performed : Bool) : State :=
  let counted := !s.recovery
  let s1 := { s with posted := s.posted ++ [is.posting s eff notes counted performed], seq := s.seq + 1 }
  if counted then s1.updGroup is.g.core is.g.slot (fun g => { g with acks := g.acks + 1 }) else s1

/-- A write of the group to the spots `sps`, the first of which has the same home as the others: performed at once on its own die, and posted to another
(R231; log entry 33). -/
def State.writeOut (s : State) (is : Issue) (sps : List Spot) (eff : PostedEffect) : State :=
  if sps.any (fun sp => is.remote sp.pa) then s.post is eff (sps.map Spot.note) false
  else s.applyPosted { is.posting s eff [] false false with id := 0 }

/-- Touch and dirty bits of an access, and the entry that the TLB keeps; a posted write marks its page dirty when it is performed (R290, R292, R413). -/
def State.noteSpot (s : State) (is : Issue) (sp : Spot) : State :=
  let s1 := s.noteAccess is.w.vf sp.gpage sp.path sp.leaves (sp.req.writes && !(sp.req.posts && is.remote sp.pa))
  if sp.gpage.isSome then s1.fillTlb is.w.vf is.w.ctx sp.req.va else s1

/-- An access of an operation whose accesses all have one shape. -/
def laneReq (L : Nat) (x : Dword) (off : Int) (n : Nat) (q : Quals) (reads writes : Bool) : Req :=
  { lane := L, x := x, off := off, n := n, align := n, space := q.space, reads := reads, writes := writes, guarded := writes,
    window := true, device := false, checked := true, notag := q.notag, report := addrPlus x off,
    kind := if writes then 1 else 0, posts := writes && !reads }

/-- The pieces of `[o, o + n)` between multiples of `unit`: offsets and lengths. The first argument bounds their number. -/
def pieces (unit : Nat) : Nat → Nat → Nat → List (Nat × Nat)
  | 0, _, _ => []
  | k + 1, o, n =>
    if n = 0 then []
    else
      let m := min n (unit - o % unit)
      (o, m) :: pieces unit k (o + m) (n - m)

/-- Sampler events of the loads of an operation: own slice, or another (R439). -/
def State.countLoads (s : State) (is : Issue) (sps : List Spot) : State :=
  sps.foldl (fun s sp =>
    if Config.dieStoreBase ≤ sp.pa ∨ sp.pa < Config.sliceBase then s
    else if (sp.pa - Config.sliceBase) / 2 ^ 20 = is.g.core then s.count is.g.core is.w.vf is.w.ctx 0x07 1
    else s.count is.g.core is.w.vf is.w.ctx 0x08 1) s

end Sys2Proof.Machine
end

