-- ==== Sys2Proof/Machine/LoadStore.lean ====
section
/-! DEFINITION. Class 0x5, local loads and stores (R232 to R234). -/

namespace Sys2Proof.Machine

/-- Every space of R227. -/
def allSpaces : List Space := [.generic, .priv, .dieStore]

/-- The order has a release component. -/
def Quals.releases (q : Quals) : Bool := q.order == .release || q.order == .acqRel

/-- The reads of an operation with these qualifiers are acquires (R301). -/
def Quals.acquires (q : Quals) : Bool := q.order == .acquire || q.order == .acqRel

/-- What every load leaves besides its registers: the detector's granules and the sampler's counts (R87, R439). -/
def State.noteLoads (s : State) (is : Issue) (sps : List Spot) : State :=
  (sps.foldl (fun s sp => s.noteLoad is sp.pa sp.req.n) s).countLoads is sps

/-- The spot of lane `L`. -/
def spotOfLane (sps : List Spot) (L : Nat) : Option Spot := sps.find? (fun sp => sp.req.lane == L)

/-- What a read of `[pa, pa + n)` by the group with start count `start` may still return besides what stands there: what others have overwritten of it
lately, newest first, each with the count at which it was. It returns nothing from before a write of its own, and nothing that was overwritten before
the count `upTo`, and no bytes of two writes (R302, R305, R310, R314; log entry 33). -/
def staleReads (start upTo pa n : Nat) : List Recent → List (Nat × Nat)
  | [] => []
  | e :: es =>
    if !meets e.pa e.old.length pa n then staleReads start upTo pa n es
    else if e.start = start ∨ e.upTo < upTo ∨ pa < e.pa ∨ e.pa + e.old.length < pa + n then []
    else (ofBytesLE ((e.old.drop (pa - e.pa)).take n), e.upTo) :: staleReads start upTo pa n es

/-- How far the group's reads of `[pa, pa + n)` have come: to its last synchronisation, and to what it has read there since (R302, R305). -/
def Group.readUpTo (g : Group) (pa n : Nat) : Nat :=
  ((g.readMarks.filter (fun m => meets m.pa m.len pa n)).map (fun m => m.upTo)).foldl max g.syncAt

/-- The stale values among which a read by the group chooses; none while its context records or replays (R426). -/
def State.staleFor (s : State) (is : Issue) (g : Group) (pa n : Nat) : List (Nat × Nat) :=
  if s.quietLog is.w.vf is.w.ctx then staleReads g.start (g.readUpTo pa n) pa n s.recent else []

/-- The group reads `n` bytes at `pa`: the value, and the state after it. Where other groups have overwritten the bytes lately and nothing orders the read
after their writes, which of the values it is, is a free choice (R305, R310, R314; log entry 33). -/
def State.loadedAt (s : State) (is : Issue) (pa n : Nat) : Nat × State :=
  let g := (is.refresh s).g
  let vs := s.staleFor is g pa n
  let k := (Config.freeWord (2 ^ 122 + s.fresh * 2 ^ 64 + pa)).toNat % (vs.length + 1)
  let (v, upTo) := if k = 0 then (readLE s.mem pa n, s.fresh) else (vs[k - 1]?).getD (readLE s.mem pa n, s.fresh)
  if vs = [] then (readLE s.mem pa n, s)
  else (v, s.updGroup is.g.core is.g.slot (fun g => { g with readMarks := { pa := pa, len := n, upTo := upTo } :: g.readMarks }))

/-- The group has read what stands at `[pa, pa + n)`: it reads nothing older there later (R305). -/
def State.readHere (s : State) (is : Issue) (pa n : Nat) : State :=
  if s.recent.any (fun e => meets e.pa e.old.length pa n) then
    s.updGroup is.g.core is.g.slot (fun g => { g with readMarks := { pa := pa, len := n, upTo := s.fresh } :: g.readMarks })
  else s

/-- The reads of a load, `k` words of `n` bytes at each spot, in ascending order of the lanes: the values by their lanes, and the state after them. -/
def State.loadSpots (s : State) (is : Issue) (sps : List Spot) (k n : Nat) : State × List (Nat × List Nat) :=
  sps.foldl (fun a sp =>
    let b := (List.range k).foldl (fun (b : State × List Nat) i =>
      let r := b.1.loadedAt is (sp.pa + n * i) n
      (r.2, b.2 ++ [r.1])) (a.1, [])
    (b.1, a.2 ++ [(sp.req.lane, b.2)])) (s, [])

/-- Word `i` of what lane `L` has read. -/
def loadedWord (vs : List (Nat × List Nat)) (L i : Nat) : Option Nat :=
  match vs.find? (fun p => p.1 == L) with
  | some p => p.2[i]?
  | none => none

/-- A loaded value of `n` bytes, extended as its type says (R122). -/
def extendLoad (ty : Ty) (v : Nat) : Dword :=
  if ty.wide then BitVec.ofNat 64 v
  else if ty.signed then ((BitVec.ofNat ty.bits v).signExtend 32).setWidth 64
  else BitVec.ofNat 64 v

/-- Bytes of one access of a type. -/
def Ty.bytes (ty : Ty) : Nat := ty.bits / 8

/-- `ld` (R233). -/
def execLd (f : Fields) (s : State) : Out :=
  runOp (.ld f) s (fun is =>
    let q := quals is.g f true false allSpaces
    let reqs := is.active.map (fun L =>
      laneReq L (is.addr f.a L) (is.word f.b L).toInt (Ty.bytes f.ty) q true false)
    is.access s reqs false q.scope (fun s' sps =>
      let (s1, vs) := s'.loadSpots is sps 1 (Ty.bytes f.ty)
      .done ((s1.writeLanes is (fun L l =>
        match loadedWord vs L 0 with
        | some v => l.setVal f.ty f.dest.toNat (extendLoad f.ty v)
        | none => l)).noteLoads is sps) false))

/-- `ld.x4`: sixteen bytes into four registers, the low address into the lowest (R232, R233). -/
def execLdX4 (f : Fields) (s : State) : Out :=
  runOp (.ldX4 f) s (fun is =>
    let q := quals is.g f true false allSpaces
    let reqs := is.active.map (fun L => laneReq L (is.addr f.a L) (is.word f.b L).toInt 16 q true false)
    is.access s reqs false q.scope (fun s' sps =>
      let (s1, vs) := s'.loadSpots is sps 4 4
      .done ((s1.writeLanes is (fun L l => (List.range 4).foldl (fun l k =>
        match loadedWord vs L k with
        | some v => l.setReg (f.dest.toNat + k) (BitVec.ofNat 32 v)
        | none => l) l)).noteLoads is sps) false))

/-- Stores `bytes L` at the spot of every lane, in ascending lane order (R229, R233). -/
def State.storeLanes (s : State) (is : Issue) (sps : List Spot) (bytes : Nat → List Byte) : State :=
  sps.foldl (fun s sp => s.writeOut is [sp] (.store sp.pa (bytes sp.req.lane))) s

/-- `st` (R233). -/
def execSt (f : Fields) (s : State) : Out :=
  runOp (.st f) s (fun is =>
    let q := quals is.g f false true allSpaces
    let reqs := is.active.map (fun L =>
      laneReq L (is.destAddr f L) (is.word f.a L).toInt (Ty.bytes f.ty) q false true)
    is.access s reqs q.releases q.scope (fun s' sps =>
      .done (s'.storeLanes is sps (fun L => bytesLE (Ty.bytes f.ty) (is.val f.ty f.b L).toNat)) true))

/-- The four registers of a quad operand, as sixteen bytes. -/
def Issue.quadBytes (is : Issue) (o : Operand) (L : Nat) : List Byte :=
  match o with
  | .reg k => (List.range 4).flatMap (fun i => bytesLE 4 ((is.lane L).reg (k.toNat + i)).toNat)
  | _ => List.replicate 16 0

/-- `st.x4` (R233). -/
def execStX4 (f : Fields) (s : State) : Out :=
  runOp (.stX4 f) s (fun is =>
    let q := quals is.g f false true allSpaces
    let reqs := is.active.map (fun L => laneReq L (is.destAddr f L) (is.word f.a L).toInt 16 q false true)
    is.access s reqs q.releases q.scope (fun s' sps =>
      .done (s'.storeLanes is sps (is.quadBytes f.b)) true))

end Sys2Proof.Machine
end

