-- ==== Sys2Proof/Machine/Atomics.lean ====
section
/-! DEFINITION. Class 0x8, atomics and reductions (R266 to R270), and the shadow copies (R268). -/

namespace Sys2Proof.Machine

/-- An atomic so far: the state, the old values by lane, the flags by lane, and whether memory changed. -/
structure AtomRun where
  s : State
  olds : List (Nat × Nat)
  flags : List (Nat × BitVec 5)
  changed : Bool

/-- One lane's step of an atomic (R266): single-copy atomic, performed before its old value returns (R318). -/
def Issue.atomLane (is : Issue) (f : Fields) (op : AtomOp) (v cmp : Nat → Nat) (a : AtomRun) (sp : Spot) : AtomRun :=
  let n := Ty.bytes f.ty
  let L := sp.req.lane
  let s1 := a.s.flushOwn is sp.pa n
  let old := readLE s1.mem sp.pa n
  let r := atomStep op f.ty f.rnd is.ftz old (v L) (cmp L)
  let s2 := (if r.bits = old then s1 else (s1.storeLE sp.pa n r.bits).noteRecent is.g.start sp.pa (readBytes s1.mem sp.pa n)).readHere is sp.pa n
  { s := if is.remote sp.pa then s2.post is (.store sp.pa []) [] true else s2, olds := a.olds ++ [(L, old)],
    flags := a.flags ++ [(L, r.flags)], changed := a.changed || r.bits != old }

/-- `look` in a list by lane. -/
def byLane {α : Type} (z : α) (l : List (Nat × α)) (L : Nat) : α :=
  match l.find? (fun p => p.1 == L) with
  | some p => p.2
  | none => z

/-- The common effect of `atom.*` (R266): `off` the offset, `v` the operand and `cmp` the comparand of a lane. -/
def atomic (f : Fields) (op : AtomOp) (off : Issue → Nat → Int) (v cmp : Issue → Nat → Nat) (s : State) (is : Issue) :
    Effect :=
  let q := quals is.g f true true allSpaces
  let reqs := is.active.map (fun L => laneReq L (is.addr f.a L) (off is L) (Ty.bytes f.ty) q true true)
  is.access s reqs q.releases q.scope (fun s' sps =>
    let a := sps.foldl (is.atomLane f op (v is) (cmp is)) { s := s', olds := [], flags := [], changed := false }
    match is.numericTrap (byLane 0 a.flags) with
    | some h => .hit h
    | none =>
      .done (((a.s.writeLanes is (fun L l => l.setVal f.ty f.dest.toNat (BitVec.ofNat 64 (byLane 0 a.olds L)))).noteLoads is
        sps).raise is (unionFlags is.mask (byLane 0 a.flags))) a.changed)

/-- The operands of an atomic with an offset: offset in b, value in c. -/
def atomicOff (f : Fields) (op : AtomOp) (s : State) (is : Issue) : Effect :=
  atomic f op (fun is L => (is.word f.b L).toInt) (fun is L => (is.val f.ty f.c L).toNat) (fun _ _ => 0) s is

def execAtomAdd (f : Fields) (s : State) : Out := runOp (.atomAdd f) s (atomicOff f .add s)

def execAtomMin (f : Fields) (s : State) : Out := runOp (.atomMin f) s (atomicOff f .min s)

def execAtomMax (f : Fields) (s : State) : Out := runOp (.atomMax f) s (atomicOff f .max s)

def execAtomAnd (f : Fields) (s : State) : Out := runOp (.atomAnd f) s (atomicOff f .and s)

def execAtomOr (f : Fields) (s : State) : Out := runOp (.atomOr f) s (atomicOff f .or s)

def execAtomXor (f : Fields) (s : State) : Out := runOp (.atomXor f) s (atomicOff f .xor s)

def execAtomXchg (f : Fields) (s : State) : Out := runOp (.atomXchg f) s (atomicOff f .xchg s)

/-- No offset; the comparand is b and the new value c (R143, R266). -/
def execAtomCas (f : Fields) (s : State) : Out :=
  runOp (.atomCas f) s (atomic f .cas (fun _ _ => 0) (fun is L => (is.val f.ty f.c L).toNat)
    (fun is L => (is.val f.ty f.b L).toNat) s)

/-- A byte of the context's bindings (R250, R267). -/
def State.isBound (s : State) (vf ctx va : Nat) : Bool :=
  s.bindings.any (fun b => b.vf == vf && b.ctx == ctx && b.start ≤ va && va < b.start + b.len)

/-- A shadow of a location before its first contribution. -/
def Shadow.fresh (vf ctx die loc : Nat) (op : AtomOp) (ty : Ty) (first : Dword) : Shadow :=
  { vf := vf, ctx := ctx, die := die, loc := loc, op := op, ty := ty, ival := first, fsum := 0, allNegZero := true,
    posInf := false, negInf := false, nan := false }

/-- One contribution of an `f32` value, exact (R268). -/
def Shadow.addF32 (h : Shadow) (v : Nat) : Shadow :=
  match fmtF32.decode v with
  | .nan _ => { h with nan := true }
  | .inf true => { h with negInf := true }
  | .inf false => { h with posInf := true }
  | .fin neg m e =>
    { h with fsum := h.fsum + sigInt neg m * 2 ^ (e + 149).toNat, allNegZero := h.allNegZero && neg && m == 0 }

/-- A shadow copy receives one lane's value (R268). -/
def Shadow.contribute (h : Shadow) (v : Dword) : Shadow :=
  if h.ty = .f32 then h.addF32 v.toNat
  else { h with ival := BitVec.ofNat 64 (atomStep h.op h.ty .rne false h.ival.toNat v.toNat 0).bits }

/-- The shadow key of a contribution. -/
def Shadow.isFor (h : Shadow) (vf ctx die loc : Nat) : Bool := h.vf == vf && h.ctx == ctx && h.die == die && h.loc == loc

/-- Adds a contribution to the shadow copies of a die, or none where R268 makes it a fault: a second operation or type on a
location with a live shadow, or a share that is full. -/
def addShadow (hs : List Shadow) (capacity vf ctx die loc : Nat) (op : AtomOp) (ty : Ty) (v : Dword) : Option (List Shadow) :=
  if hs.any (fun h => h.vf == vf && h.ctx == ctx && h.die == die && meets loc (ty.bits / 8) h.loc (h.ty.bits / 8) &&
      !(h.loc == loc && h.op == op && h.ty == ty)) then none
  else if hs.any (fun h => h.isFor vf ctx die loc) then
    some (hs.map (fun h => if h.isFor vf ctx die loc then h.contribute v else h))
  else if capacity ≤ (hs.filter (fun h => h.vf == vf && h.ctx == ctx && h.die == die)).length then none
  else
    let h := Shadow.fresh vf ctx die loc op ty v
    some (hs ++ [if ty = .f32 then h.addF32 v.toNat else h])

/-- The contributions of all lanes: the shadow copies after them, and the lanes that fault (R267, R268). -/
def State.shadowLanes (s : State) (is : Issue) (f : Fields) (op : AtomOp) (sps : List Spot) : List Shadow × List Nat :=
  let cap := (s.dsShare is.w.vf is.w.ctx).2.1 * 1024
  sps.foldl (fun a sp =>
    let L := sp.req.lane
    let va := sp.req.va
    if !s.isBound is.w.vf is.w.ctx va then (a.1, a.2 ++ [L])
    else
      match addShadow a.1 cap is.w.vf is.w.ctx is.die va op f.ty (is.val f.ty f.b L) with
      | some hs => (hs, a.2)
      | none => (a.1, a.2 ++ [L])) (s.shadows, [])

/-- A reduction at package or system scope: the shadow path, which checks the home and does not access it. It breaks quietness where it leaves a shadow
copy changed (R86, R267, R268; log entries 38, 39). -/
def shadowReduce (f : Fields) (op : AtomOp) (q : Quals) (s : State) (is : Issue) : Effect :=
  let addrs := fun L => addrPlus (is.destAddr f L) (is.word f.a L).toInt
  if q.space ≠ .generic ∨ f.rnd ≠ .rne then .hit (Hit.plain .operandExtent is.mask (addrs is.l0))
  else
    let reqs := is.active.map (fun L =>
      { laneReq L (is.destAddr f L) (is.word f.a L).toInt (Ty.bytes f.ty) q false true with device := true, kind := 3 })
    let go := is.access s reqs q.releases q.scope (fun s' sps =>
      let hs := (s'.shadowLanes is f op sps).1
      .done { s' with shadows := hs } (hs != s'.shadows))
    match s.checkReqs is reqs with
    | .go sps =>
      match (s.shadowLanes is f op sps).2 with
      | [] => go
      | L :: rest => .hit (Hit.plain .operandExtent (maskOf (fun K => K == L || rest.contains K)) (addrs L))
    | _ => go

/-- One lane's step of a reduction at its home: performed, or posted to another die. It changes its location where its own step does, on the value
that stands there (R86, R266, R267; log entry 39). -/
def Issue.redLane (is : Issue) (f : Fields) (op : AtomOp) (a : State × Bool) (sp : Spot) : State × Bool :=
  let v := is.val f.ty f.b sp.req.lane
  let old := readLE a.1.mem sp.pa (Ty.bytes f.ty)
  (a.1.writeOut is [sp] (.red op f.ty f.rnd is.ftz sp.pa v), a.2 || (atomStep op f.ty f.rnd is.ftz old v.toNat 0).bits != old)

/-- A reduction (R267): at die scope or narrower at its home, and else on the shadow path. -/
def reduce (f : Fields) (op : AtomOp) (s : State) (is : Issue) : Effect :=
  let q := quals is.g f false true allSpaces
  if 4 ≤ scopeRank q.scope then shadowReduce f op q s is
  else
    let reqs := is.active.map (fun L =>
      laneReq L (is.destAddr f L) (is.word f.a L).toInt (Ty.bytes f.ty) q false true)
    is.access s reqs q.releases q.scope (fun s' sps =>
      let a := sps.foldl (is.redLane f op) (s', false)
      .done a.1 a.2)

def execRedAdd (f : Fields) (s : State) : Out := runOp (.redAdd f) s (reduce f .add s)

def execRedMin (f : Fields) (s : State) : Out := runOp (.redMin f) s (reduce f .min s)

def execRedMax (f : Fields) (s : State) : Out := runOp (.redMax f) s (reduce f .max s)

def execRedAnd (f : Fields) (s : State) : Out := runOp (.redAnd f) s (reduce f .and s)

def execRedOr (f : Fields) (s : State) : Out := runOp (.redOr f) s (reduce f .or s)

def execRedXor (f : Fields) (s : State) : Out := runOp (.redXor f) s (reduce f .xor s)

end Sys2Proof.Machine
end

