-- ==== Sys2Proof/Machine/Fetch.lean ====
section
/-! DEFINITION. Fetching and decoding the operation at a position, and when a VF's groups and agents may run (R37, R44, R60, R66, R150, R391,
R408, R409, R413, R414, R443). -/

namespace Sys2Proof.Machine

/-- What stands at a position. -/
inductive Fetched where
  | op (i : Instr)
  /-- a node header: the lanes retry Enter there (R58) -/
  | header
  | bad (cls : FaultClass) (addr : Dword) (stage2 : Bool)
  deriving DecidableEq, Repr

/-- The class of a decoder's rejection: a header where an operation starts is a structure fault (R150). -/
def rejectClass (e : DecodeError) : FaultClass := if e = .nodeHeader then .badStructure else .illegalEncoding

/-- Reads and decodes the operation at parcel `p` of a leaf that ends at `stop`. -/
def Trees.fetchAt (t : Trees) (e : FnEntry) (p stop : Nat) : Fetched :=
  match t.opParcels e p stop with
  | .error f => .bad f.cls f.addr f.stage2
  | .ok n =>
    match t.parcels e p (min n (stop - p)) with
    | .error f => .bad f.cls f.addr f.stage2
    | .ok ws =>
      match decode (ws.map (BitVec.ofNat 32)) with
      | .ok (i, _) => .op i
      | .error x => .bad (rejectClass x) 0 false

/-- What stands at parcel `p` of function `func`. -/
def Trees.fetch (t : Trees) (func p : Nat) : Fetched :=
  match t.readFn func with
  | .error x => .bad .translation (BitVec.ofNat 64 x.addr) x.stage2
  | .ok e =>
    match (if p = 0 then t.fnCheck e 0 else none) with
    | some f => .bad f.cls f.addr f.stage2
    | none =>
      match t.descend e p with
      | (_, some f) => .bad f.cls f.addr f.stage2
      | (nd :: _, none) => if nd.p = p then .header else t.fetchAt e p (nd.p + nd.ext)
      | ([], none) => .bad .badStructure 0 false

/-- What stands at a lane's position. An image header that does not translate is a translation fault at its address (log entry 12). -/
def Issue.fetch (is : Issue) (s : State) (l : Lane) : Fetched :=
  match s.readTrees is.w.vf is.w.ctx is.r.eff.image is.r.code with
  | .ok t => t.fetch l.func.toNat l.parcel
  | .error x => .bad .translation (BitVec.ofNat 64 x.addr) x.stage2

/-- The 64 KiB pages of the parcels of the operation at parcel `p` of a leaf that ends at `stop`, as far as they can be read, and of the one that
cannot. -/
def Trees.opPages (t : Trees) (e : FnEntry) (p stop : Nat) : List Nat :=
  match t.opParcels e p stop with
  | .ok n => (List.range (min n (stop - p))).map (fun i => t.parcelVa e (p + i) / 65536)
  | .error f => [f.addr.toNat / 65536]

/-- The pages that a fetch at parcel `p` of function `func` reads behind the image's header, as far as it comes, and the one that it cannot read. -/
def Trees.fetchPages (t : Trees) (func p : Nat) : List Nat :=
  t.entryVa func / 65536 :: (match t.readFn func with
  | .error _ => []
  | .ok e =>
    t.parcelVa e 0 / 65536 :: t.descentPages e p ++ (match t.descend e p with
    | (_, some f) => if f.cls = .translation then [f.addr.toNat / 65536] else []
    | (nd :: _, none) => t.opPages e p (nd.p + nd.ext)
    | ([], none) => []))

/-- The 64 KiB pages of an image that a lane at parcel `p` of function `func` fetches from: those of the header, of the function's table entry, of the
nodes around its position, and of the operation, each once (R282, R290; log entry 87). -/
def State.codePages (s : State) (w : Workgroup) (r : Region) (func p : Nat) : List Nat :=
  (match s.readTrees w.vf w.ctx r.eff.image r.code with
  | .error x => [x.addr / 65536]
  | .ok t => r.eff.image / 65536 :: t.fetchPages func p).eraseDups

/-- Fetches at parcel `p` of function `func`, then `f`: a page in transit, or one to be promoted first, makes the fetch wait; the walk sets the touch
bits (R282, R290; log entry 87). -/
def State.onCode (s : State) (w : Workgroup) (r : Region) (func p : Nat) (f : State → Out) : Out :=
  let ps := s.codePages w r func p
  if ps.any (fun k => s.busyPage w.vf w.ctx (k * 65536)) then .next (s.fillPages w.vf w.ctx (ps.map (fun k => k * 65536)))
  else f (ps.foldl (fun s k => s.visit w.vf w.ctx (k * 65536)) s)

/-- The group in slot `slot` of core `core` comes into issue with a mask, or its access slice does. -/
def State.issueAs (s : State) (core slot : Nat) (acc : Bool) (mask : Mask) : State :=
  { s with cur := { core := core, slot := slot, acc := acc, mask := mask } }

/-- The VF is halted by its dirty log, or its partition is stopped, or it is stopped itself (R391, R402, R409, R414). -/
def State.vfPaused (s : State) (vf : Nat) : Bool :=
  (s.vfReg vf 0x000).getLsbD 1 || (s.vfReg vf 0x000).getLsbD 2 || s.stoppedVfs.contains vf ||
    (match s.partOf vf with | some p => (s.partReg p 0x000).getLsbD 1 | none => false)

/-- The dirty log throttles the VF's groups (R413). -/
def State.throttled (s : State) (vf : Nat) : Bool :=
  let (n, w, r) := s.dirtyLog vf
  s.logging vf && (logFull n w r || 7 * 2 ^ n ≤ 8 * logFill n w r)

/-- The replay log throttles the context's groups (R443). -/
def State.replayThrottled (s : State) (vf ctx : Nat) : Bool :=
  let (n, w, r) := s.replayLog vf
  s.recording vf ctx && logFull n w r

/-- A group of a workgroup may dispatch a run. During a guest switch no group of the VF does (R408). -/
def State.mayDispatch (s : State) (w : Workgroup) : Bool :=
  !s.vfPaused w.vf && !s.throttled w.vf && !s.replayThrottled w.vf w.ctx && !(s.switches.any (fun x => x.vf == w.vf && x.step != 0)) && !w.stopping

end Sys2Proof.Machine
end

