-- ==== Sys2Proof/Machine/Async.lean ====
section
/-! DEFINITION. What the agents that work after an operation's retirement share: copies, tile transfers, epilogue stores and bias reads
check and perform their chunks here (R49, R228, R241, R297, R302, R317, R356, R367, R443). -/

namespace Sys2Proof.Machine

/-- The group for which an agent works, its context, and the operation that started it; and whether a whole granule that the agent writes loses its
poison: a copy's and an epilogue store's do; a `tst`, which is neither, leaves it (R297). -/
structure Owner where
  vf : Nat
  ctx : Nat
  rcb : Nat
  /-- the number of the part of its work, for replay mode -/
  key : Nat
  core : Nat
  slot : Nat
  start : Nat
  pos : Word
  func : BitVec 16
  clears : Bool
  deriving DecidableEq, Repr

def Owner.accessor (o : Owner) : Accessor :=
  { vf := o.vf, ctx := o.ctx, rcb := o.rcb, core := o.core, slot := o.slot, start := o.start, pos := o.pos, func := o.func, mask := 0 }

/-- A piece of a chunk: a range inside one 32-byte granule, `off` bytes from the address `base`. -/
structure Piece where
  base : Dword
  off : Int
  n : Nat
  write : Bool
  /-- offset of its first byte among the chunk's bytes -/
  at0 : Nat
  deriving DecidableEq, Repr

/-- The address of a piece. -/
def Piece.addr (p : Piece) : Dword := addrPlus p.base p.off

/-- The pieces of the `n` bytes at `base + off`, whose first byte is byte `at0` of the chunk. -/
def piecesOf (base : Dword) (off : Int) (n at0 : Nat) (write : Bool) : List Piece :=
  let v := addrVa (addrPlus base off)
  (pieces 32 (n / 32 + 2) v n).map (fun p =>
    { base := base, off := off + ((p.1 : Int) - v), n := p.2, write := write, at0 := at0 + (p.1 - v) })

/-- The checks of R228 on a piece: form, protected bytes for a write where `guarded`, place, tag and poison. A write that covers
its granule whole is not stopped by its poison, whichever agent makes it (R297). -/
def State.placePiece (s : State) (o : Owner) (p : Piece) (guarded notag : Bool) : Place :=
  if !addrFormOk p.base p.off then .fail .operandExtent false
  else if p.write && guarded && s.inWindow o.vf (addrVa p.addr) && s.isProtected o.vf o.ctx (s.windowPa o.vf (addrVa p.addr)) p.n then
    .fail .operandExtent false
  else
    match s.place o.vf o.ctx (addrVa p.addr) p.write p.at0 with
    | .ok pa g path leaves =>
      match s.granuleCheck o.vf o.ctx pa p.n (addrTag p.addr) notag p.write with
      | some c => .fail c false
      | none => .ok pa g path leaves
    | r => r

/-- Result of the checks of a chunk. -/
inductive ChunkCheck where
  | go (places : List (Piece × Nat × Option Nat × List Nat × List Nat))
  | fail (f : FaultInfo)
  | absent (addr : Dword)
  | transit
  | fill (gpa : Nat)
  deriving DecidableEq, Repr

/-- Checks the pieces of a chunk in order; the first that does not pass decides. -/
def State.checkPieces (s : State) (o : Owner) (guarded notag : Bool) : List Piece → ChunkCheck
  | [] => .go []
  | p :: ps =>
    match s.placePiece o p guarded notag with
    | .fail c b => .fail { cls := c, addr := p.addr, stage2 := b }
    | .absent => .absent p.addr
    | .transit => .transit
    | .fill a => .fill a
    | .ok pa g path leaves =>
      match s.checkPieces o guarded notag ps with
      | .go l => .go ((p, pa, g, path, leaves) :: l)
      | r => r

/-- Touch and dirty bits of the pieces, the TLB, and the posted writes of the owner under them performed. -/
def State.openPieces (s : State) (o : Owner) (ps : List (Piece × Nat × Option Nat × List Nat × List Nat)) : State :=
  ps.foldl (fun s x =>
    let (p, pa, g, path, leaves) := x
    let s1 := (s.flushOwner o.core o.slot o.start pa p.n).noteAccess o.vf g path leaves p.write
    if g.isSome then s1.fillTlb o.vf o.ctx (addrVa p.addr) else s1) s

/-- The bytes of the pieces that are read, by their offsets in the chunk. -/
def State.readPieces (s : State) (ps : List (Piece × Nat × Option Nat × List Nat × List Nat)) : Sparse 8 :=
  ps.foldl (fun m x => if x.1.write then m else writeBytes m x.1.at0 (readBytes s.mem x.2.1 x.1.n)) []

/-- Writes the bytes of the pieces that are written; `bytes` gives the chunk's bytes by offset. A granule written whole by a copy or an epilogue store
loses its poison (R297). -/
def State.writePieces (s : State) (o : Owner) (ps : List (Piece × Nat × Option Nat × List Nat × List Nat)) (bytes : Nat → Byte) : State :=
  ps.foldl (fun s x =>
    if x.1.write then
      let s1 := s.storeBytes x.2.1 ((List.range x.1.n).map (fun i => bytes (x.1.at0 + i)))
      if o.clears then s1.unpoison x.2.1 x.1.n else s1
    else s) s

/-- A piece of a chunk and its place: as `chunkTurn` answers it. -/
abbrev Placed := Piece × Nat × Option Nat × List Nat × List Nat

/-- The bytes of the pieces that are written, as they stand now, by their offsets in the chunk. -/
def State.writtenNow (s : State) (pl : List Placed) : Sparse 8 :=
  s.readPieces (pl.filterMap (fun x => if x.1.write then some ({ x.1 with write := false }, x.2) else none))

/-- The offset of the first byte of a chunk that lies in one 4-byte unit with byte `i`, where `at` gives the address of a byte. -/
def unitHead (addr : Nat → Nat) (i : Nat) : Nat := ((List.range 64).find? (fun j => addr j / 4 == addr i / 4)).getD i

/-- Of the `n` bytes of a chunk, at the addresses `addr`, the 4-byte unit of byte `i` was written between two moments: it held `was`, and holds `now`
(R308). -/
def raced (addr : Nat → Nat) (n : Nat) (was now : Nat → Byte) (i : Nat) : Bool :=
  (List.range 4).any (fun j =>
    let x := unitHead addr i + j
    addr x / 4 == addr i / 4 && x < n && was x != now x)

/-- The touches of SRAM that the recorder sees. -/
def State.pieceTouches (ps : List (Piece × Nat × Option Nat × List Nat × List Nat)) : List Touch :=
  ps.flatMap (fun x => touchesOf x.2.1 x.1.n (if x.1.write then 1 else 0))

/-- The entries that the pieces of a chunk would have in the replay log, so far as they have a place. -/
def State.pieceEntries (s : State) (o : Owner) (ps : List Piece) : List ReplayEntry :=
  ps.flatMap (fun p =>
    match s.place o.vf o.ctx (addrVa p.addr) p.write p.at0 with
    | .ok pa _ _ _ => (touchesOf pa p.n (if p.write then 1 else 0)).map (s.touchEntry o.accessor)
    | _ => [])

/-- In replay mode nothing comes before what an agent does next: the entry at the read index names its group, which waits, or has stopped (R445; log
entry 36). -/
def State.agentTurn (s : State) (o : Owner) : Bool :=
  s.turnIs o.vf o.core o.slot [] &&
    (match s.groups.find? (fun (g : Group) => g.start == o.start) with | some g => g.wait.isSome || g.park.isSome | none => true)

/-- What a chunk's turn comes to. -/
inductive ChunkTurn where
  /-- it is performed on these places, from this state -/
  | go (s : State) (places : List (Piece × Nat × Option Nat × List Nat × List Nat))
  | fail (s : State) (f : FaultInfo)
  /-- it waits for an absent peer -/
  | absent (s : State)
  | stay (s : State)

/-- The limit of R317 for an agent that has waited `c` cycles for an absent peer. -/
def absentOver (blimit : Nat) (c : Option Nat) : Bool :=
  match c with
  | some k => blimit != 0 && blimit * 1024 ≤ k
  | none => false

/-- One turn of a chunk: checks of all its pieces, absent peers, and for those that `seen` takes the recorder, replay mode and the marks of an access;
a copy reads its source at another moment than it writes its destination (R308). -/
def State.chunkTurnOn (s : State) (o : Owner) (blimit : Nat) (counted : Option Nat) (guarded notag : Bool) (ps : List Piece) (seen : Piece → Bool) :
    ChunkTurn :=
  let s0 := { s with fresh := s.fresh + 128 }
  if s.vfPaused o.vf then .stay s else
  match s.checkPieces o guarded notag ps with
  | .fail f =>
    match s0.replayGate o.key o.vf o.ctx (s0.pieceEntries o (ps.filter seen)) with
    | .go _ => .fail s0 f
    | .stay s1 => if s0.agentTurn o then .fail s0 f else .stay s1
    | .stop => .stay (s0.replayStop o.accessor)
  | .transit => .stay s0
  | .fill a => .stay (s0.holdFill o.vf o.ctx a)
  | .absent a => if absentOver blimit counted then .fail s0 { cls := .peerAbsent, addr := a, stage2 := false } else .absent s0
  | .go pl =>
    let mine := pl.filter (fun x => seen x.1)
    let ts := State.pieceTouches mine
    if s.replayFull o.accessor ts then .stay s0
    else
      match s0.replayGate o.key o.vf o.ctx (ts.map (s0.touchEntry o.accessor)) with
      | .go s' => .go ((s'.recordTouches o.accessor ts).openPieces o mine) pl
      | .stay s1 => .stay s1
      | .stop => .stay (s0.replayStop o.accessor)

/-- One turn of a chunk that is read and written at one moment. -/
def State.chunkTurn (s : State) (o : Owner) (blimit : Nat) (counted : Option Nat) (guarded notag : Bool) (ps : List Piece) :
    ChunkTurn :=
  s.chunkTurnOn o blimit counted guarded notag ps (fun _ => true)

/-- The group that took an asynchronous fault has been serviced, or it has ended (R243, R358, R368). -/
def State.serviced (s : State) (k : Taker) : Bool :=
  match s.groups.find? (fun (g : Group) => g.start == k.start) with
  | some g => g.servicedAs k.nested
  | none => true

/-- The group in issue as one that takes a recorded fault. -/
def Issue.taker (is : Issue) : Taker := { start := is.g.start, nested := is.g.episode.isSome }

/-- The blimit of the region of a workgroup. -/
def State.blimitOf (s : State) (w : Workgroup) : Nat :=
  match s.region? w.vf w.rcb with
  | some r => r.eff.blimit
  | none => 0

end Sys2Proof.Machine
end

