-- ==== Sys2Proof/Machine/Control.lean ====
section
/-! DEFINITION. Class 0xA, leaving operations, `spawn`, `launch` and `yield` (R52, R53, R91, R92, R162 to R170). -/

namespace Sys2Proof.Machine

/-- The loops that enclose the operation in issue in its function (R53). -/
def Issue.loopCount (is : Issue) (s : State) : Nat :=
  match s.groupTrees is.w is.r with
  | some t => t.loopCount (is.lane is.l0).func.toNat (is.lane is.l0).parcel
  | none => 0

/-- A leaving operation: the lanes that take it leave as `k`, the others go on (R163). -/
def leaveIf (s : State) (taken : Nat → Bool) (k : LeaveKind) : Effect :=
  .leave s (fun L => if taken L then k else .succ)

/-- A `quit` or `next` of `n` loops: a structure fault when `n` is 0 or exceeds the loops around it (R53, R164). -/
def leaveLoops (s : State) (is : Issue) (n : Nat) (taken : Nat → Bool) (k : LeaveKind) : Effect :=
  if n = 0 ∨ is.loopCount s < n then .hit (Hit.plain .badStructure is.mask 0) else leaveIf s taken k

/-- `quit` (R162 to R164). -/
def execQuit (f : Fields) (s : State) : Out :=
  runOp (.quit f) s (fun is => leaveLoops s is f.spec.toNat (fun _ => true) (.quit f.spec.toNat))

/-- `quit.if` (R162 to R164). -/
def execQuitIf (f : Fields) (s : State) : Out :=
  runOp (.quitIf f) s (fun is => leaveLoops s is f.spec.toNat (is.cond f.a) (.quit f.spec.toNat))

/-- `next` (R162 to R164). -/
def execNext (f : Fields) (s : State) : Out :=
  runOp (.next f) s (fun is => leaveLoops s is f.spec.toNat (fun _ => true) (.next f.spec.toNat))

/-- `next.if` (R162 to R164). -/
def execNextIf (f : Fields) (s : State) : Out :=
  runOp (.nextIf f) s (fun is => leaveLoops s is f.spec.toNat (is.cond f.a) (.next f.spec.toNat))

/-- `ret` (R162, R163). -/
def execRet (f : Fields) (s : State) : Out := runOp (.ret f) s (fun _ => leaveIf s (fun _ => true) .ret)

/-- `ret.if` (R162, R163). -/
def execRetIf (f : Fields) (s : State) : Out := runOp (.retIf f) s (fun is => leaveIf s (is.cond f.a) .ret)

/-- `exit` (R162, R163). -/
def execExit (f : Fields) (s : State) : Out := runOp (.exit f) s (fun _ => leaveIf s (fun _ => true) .exit)

/-- `exit.if` (R162, R163). -/
def execExitIf (f : Fields) (s : State) : Out := runOp (.exitIf f) s (fun is => leaveIf s (is.cond f.a) .exit)

/-- The virtual address of a workgroup's allocation in the flat window (R32, R277). -/
def State.allocVa (s : State) (w : Workgroup) : Dword := s.lsBase w.vf + BitVec.ofNat 64 (w.core * 2 ^ 20 + w.allocOff)

/-- The slots reserved for a workgroup that no group holds, lowest first (R91, R112). -/
def State.freeSlots (s : State) (w : Workgroup) : List Nat :=
  (List.range 96).filter (fun k => w.slots.contains k && (s.group? w.core k).isNone)

/-- The indices `%grp` that a spawned group may take, lowest first (R64). -/
def State.freeIndices (s : State) (w : Workgroup) (e : Eff) : List Nat :=
  (List.range e.gbud).filter (fun k => e.ngrp ≤ k && !(s.groups.any (fun (g : Group) => g.wg == w.id && g.grp == k)))

/-- A new group in slot `slot` with index `grp` at the first position of function `func`: `arg` gives `v4` (R32, R33, R91). It reads nothing that was
overwritten before its start (R92). -/
def State.newGroup (s : State) (w : Workgroup) (r : Region) (slot grp func : Nat) (arg : Nat → Word) : Group :=
  let t := s.groupTrees w r
  let p := startParcel t func
  let lanes := (List.range 32).map (fun K => Lane.start r.eff.args (s.allocVa w) func p (arg K))
  let acc := if r.eff.hasacc then
      (lanes.head?).map (fun l => AccessSlice.start l r.eff.access (startParcel t r.eff.access))
    else none
  { Group.fresh w.core slot w.id grp s.seq func lanes acc with syncAt := s.fresh }.enterLoops 0xFFFFFFFF (startLoops t func p)

/-- Starts one group of a workgroup. -/
def State.startGroup (s : State) (w : Workgroup) (r : Region) (slot grp func : Nat) (arg : Nat → Word) : State :=
  { s with groups := s.groups ++ [s.newGroup w r slot grp func arg], seq := s.seq + 1 }

/-- Starts at most `n` groups while a slot and an index are free; the number started (R91). -/
def State.spawnGroups (s : State) (w : Workgroup) (r : Region) (func : Nat) (arg : Nat → Word) : Nat → State × Nat
  | 0 => (s, 0)
  | n + 1 =>
    match s.freeSlots w, s.freeIndices w r.eff with
    | k :: _, i :: _ =>
      let (s', m) := (s.startGroup w r k i func arg).spawnGroups w r func arg n
      (s', m + 1)
    | _, _ => (s, 0)

/-- The kind of function `h` of the image, as `spawn` reads its table entry: it is 0; it is another, or there is no such function; or the entry cannot be
read. -/
inductive SpawnEntry where
  | ok
  | bad
  | unread (x : CodeFail)
  deriving DecidableEq, Repr

/-- The table entry of function `h`, for a `spawn` (R91, R166). -/
def Issue.spawnEntry (is : Issue) (s : State) (h : Nat) : SpawnEntry :=
  match s.readTrees is.w.vf is.w.ctx is.r.eff.image is.r.code with
  | .error x => .unread x
  | .ok t =>
    if t.h.fcount ≤ h then .bad
    else
      match t.readFn h with
      | .ok e => if e.kind = 0 then .ok else .bad
      | .error x => .unread x

/-- `spawn` (R91, R92, R166, R167): the spawner's posted writes are performed first, so that the new groups observe them. A table entry that cannot be
read is a translation fault at its address, and one whose page moves is waited for (R282, R291; log entry 12). -/
def execSpawn (f : Fields) (s : State) : Out :=
  runOp (.spawn f) s (fun is =>
    let h := (is.word f.a is.l0).toNat
    let n := (is.word f.b is.l0).toNat
    if n = 0 ∨ 32 < n then .hit (Hit.plain .operandExtent is.mask 0)
    else
    match is.spawnEntry s h with
    | .bad => .hit (Hit.plain .callHandle is.mask (BitVec.ofNat 64 h))
    | .unread x =>
      if s.busyPage is.w.vf is.w.ctx x.addr then .stay (s.visit is.w.vf is.w.ctx x.addr)
      else .hit { Hit.plain .translation is.mask (BitVec.ofNat 64 x.addr) with stage2 := x.stage2 }
    | .ok =>
      let s0 := (s.flushWhere (fun p => p.by is.g.core is.g.slot is.g.start)).visit is.w.vf is.w.ctx (s.fnEntryVa is.w is.r h)
      let (s1, started) := s0.spawnGroups is.w is.r h (fun K => if is.mask.getLsbD K then is.word f.c K else 0) n
      let full := (s1.freeSlots is.w).isEmpty || (s1.freeIndices is.w is.r.eff).isEmpty
      .done (s1.writeLanes is (fun _ l =>
        l.setReg f.dest.toNat (BitVec.ofNat 32 ((if full then 2 ^ 31 else 0) + started)))) true)

/-- The latch of an RCB that has been linked, where the arbiter can ask for it at once: 8-byte aligned, outside the flat window,
and translating; in a page in transit its change waits (R102, R282). -/
def State.latchOfRcb (s : State) (vf ctx x : Nat) : Option Nat :=
  let l := s.rcb vf ctx x 0x58 8
  if l % 8 ≠ 0 ∨ bitsOf l 59 56 ≠ 0 ∨ s.inWindow vf (l % 2 ^ 56) then none
  else
    match s.placeShared true vf ctx (l % 2 ^ 56) true with
    | .ok pa _ _ _ => some pa
    | _ => none

/-- The arbiter asks for a latch exclusively, and is granted it where it can be (R101, R251). -/
def State.arbiterAcquire (s : State) (pa vf rcb : Nat) : State :=
  (s.joinLatch pa (.arbiter vf rcb) (s.arbiterPlace vf rcb).note).grant pa 1

/-- Links the RCB at `x` under the region `r` (R102). -/
def State.linkChild (s : State) (r : Region) (x : Nat) : State :=
  let s1 := s.devWrite r.vf r.ctx (x + 0x70) 8 r.va
  let s2 := s1.devWrite r.vf r.ctx (x + 0x80) 8 (r.field s1 0x78 8)
  let s3 := s2.devWrite r.vf r.ctx (r.va + 0x78) 8 x
  let s4 := s3.devWrite r.vf r.ctx (r.va + 0x88) 4 ((r.field s3 0x88 4 + 1) % 2 ^ 32)
  match s4.latchOfRcb r.vf r.ctx x with
  | some pa => s4.arbiterAcquire pa r.vf (regionName r.ctx x)
  | none => s4

/-- What a `launch` waits for, or the fault that it takes in recovery mode: its group's acknowledgements, and nothing else of a release (R168, R319).
`none` where it may go on. -/
def Issue.launchGate (is : Issue) (s : State) : Option Effect :=
  if s.recovery then some (.hit (Hit.plain .operandExtent is.mask 0))
  else if is.g.acks != 0 then some (.wait s { kind := .slot, cycles := 0, addr := 0, expired := false })
  else none

/-- `launch` (R102, R168, R169). -/
def execLaunch (f : Fields) (s : State) : Out :=
  runOp (.launch f) s (fun is =>
    let x := is.addr f.a is.l0
    let va := addrVa x
    if x.toNat % 256 ≠ 0 ∨ x.extractLsb' 56 4 ≠ 0 then .hit (Hit.plain .operandExtent is.mask x)
    else
      match is.launchGate s with
      | some e => e
      | none =>
        match (if s.inWindow is.w.vf va then Place.fail .translation false else s.placeShared false is.w.vf is.w.ctx va true) with
        | .ok _ _ _ _ => .done (s.linkChild is.r va) true
        | .fail _ b => .hit { Hit.plain .translation is.mask (BitVec.ofNat 64 va) with stage2 := b }
        | .fill a => .stay (s.holdFill is.w.vf is.w.ctx a)
        | _ => .stay s)

/-- `yield` (R170). -/
def execYield (f : Fields) (s : State) : Out :=
  runOp (.yield f) s (fun is =>
    .done ({ s with seq := s.seq + 1 }.updGroup is.g.core is.g.slot (fun g => { g with lastDispatch := s.seq, yielded := true }))
      true)

end Sys2Proof.Machine
end

