-- ==== Sys2Proof/Machine/Integer.lean ====
section
/-! DEFINITION. Class 0x1, integer and logic operations (R171 to R178). -/

namespace Sys2Proof.Machine

/-- Element `k` of a value, read as the type reads it (R158). -/
def elemInt (ty : Ty) (x : Dword) (k : Nat) : Int :=
  let v := x.toNat / 2 ^ (ty.bits * k) % 2 ^ ty.bits
  if ty.signed ∧ 2 ^ (ty.bits - 1) ≤ v then (v : Int) - 2 ^ ty.bits else v

/-- A value from its elements: each keeps its low bits (R10, R158). -/
def ofElemInts (ty : Ty) (r : Nat → Int) : Dword :=
  (List.range ty.elems).foldl (fun acc k =>
    acc ||| BitVec.ofNat 64 ((r k % 2 ^ ty.bits).toNat * 2 ^ (ty.bits * k))) 0

/-- Least and greatest values of an integer type. -/
def Ty.least (ty : Ty) : Int := if ty.signed then -(2 ^ (ty.bits - 1)) else 0
def Ty.greatest (ty : Ty) : Int := if ty.signed then 2 ^ (ty.bits - 1) - 1 else 2 ^ ty.bits - 1

/-- Clamp of R171. -/
def Ty.clamp (ty : Ty) (v : Int) : Int := max (Ty.least ty) (min (Ty.greatest ty) v)

/-- An operation on each element of a, b and c (R171). -/
def intElems (f : Fields) (r : Int → Int → Int → Int) (s : State) (is : Issue) : Effect :=
  is.writes s f.ty f.dest.toNat (fun L =>
    ofElemInts f.ty (fun k =>
      r (elemInt f.ty (is.val f.ty f.a L) k) (elemInt f.ty (is.val f.ty f.b L) k) (elemInt f.ty (is.val f.ty f.c L) k)))

/-- An operation on the bits of a and b (R173). -/
def bitOp (f : Fields) (r : Dword → Dword → Dword) (s : State) (is : Issue) : Effect :=
  is.writes s f.ty f.dest.toNat (fun L => r (is.val f.ty f.a L) (is.val f.ty f.b L))

/-- A shift of each element of a by the lane's one count (R174). -/
def shiftOp (f : Fields) (r : Nat → Int → Int) (s : State) (is : Issue) : Effect :=
  is.writes s f.ty f.dest.toNat (fun L =>
    ofElemInts f.ty (fun k => r (is.word f.b L).toNat (elemInt f.ty (is.val f.ty f.a L) k)))

/-- A single-register result of the bits of a (R175). -/
def bitCount (f : Fields) (r : List Bool → Nat) (s : State) (is : Issue) : Effect :=
  is.writesWord s f.dest.toNat (fun L =>
    BitVec.ofNat 32 (r ((List.range f.ty.bits).map (fun i => (is.val f.ty f.a L).getLsbD i))))

/-- The quotient of R172. -/
def divQuot (ty : Ty) (x y : Int) : Int :=
  if y = 0 then -1 else if ty.signed ∧ x = Ty.least ty ∧ y = -1 then x else x.tdiv y

/-- The remainder of R172. -/
def divRem (ty : Ty) (x y : Int) : Int :=
  if y = 0 then x else if ty.signed ∧ x = Ty.least ty ∧ y = -1 then 0 else x - x.tdiv y * y

/-- `shl` of an element of `w` bits (R174). -/
def shiftLeft (w s : Nat) (x : Int) : Int := if w ≤ s then 0 else x * 2 ^ s

/-- `shr` of an element of `w` bits, arithmetic for a negative one (R174). -/
def shiftRight (w s : Nat) (x : Int) : Int := if w ≤ s then if x < 0 then -1 else 0 else x / 2 ^ s

/-- `bfx` (R176): `p` and `n` are b and c as unsigned numbers. -/
def bitField (signed : Bool) (a : Word) (b c : Nat) : Word :=
  let p := min b 32
  let n := min c (32 - p)
  let v := a.toNat / 2 ^ p % 2 ^ n
  if signed ∧ n ≠ 0 ∧ 2 ^ (n - 1) ≤ v then BitVec.ofInt 32 ((v : Int) - 2 ^ n) else BitVec.ofNat 32 v

/-- `bfi` (R176). -/
def bitInsert (a b c : Word) : Word :=
  let p := c.toNat % 32
  let n := min (c.toNat / 256 % 64) (32 - p)
  let m := BitVec.ofNat 32 ((2 ^ n - 1) * 2 ^ p)
  (a &&& ~~~m) ||| ((b <<< p) &&& m)

/-- The condition of an integer `cmp` (R136, R177). -/
def intCond (cond : Nat) (x y : Int) : Bool :=
  match cond with
  | 0 => x == y
  | 1 => x != y
  | 2 => x < y
  | 3 => x ≤ y
  | 4 => y < x
  | _ => y ≤ x

def execAdd (f : Fields) (s : State) : Out := runOp (.add f) s (intElems f (fun x y _ => x + y) s)

def execSub (f : Fields) (s : State) : Out := runOp (.sub f) s (intElems f (fun x y _ => x - y) s)

def execMul (f : Fields) (s : State) : Out := runOp (.mul f) s (intElems f (fun x y _ => x * y) s)

def execMulhi (f : Fields) (s : State) : Out := runOp (.mulhi f) s (intElems f (fun x y _ => x * y / 2 ^ 32) s)

def execMad (f : Fields) (s : State) : Out := runOp (.mad f) s (intElems f (fun x y z => x * y + z) s)

def execDiv (f : Fields) (s : State) : Out := runOp (.div f) s (intElems f (fun x y _ => divQuot f.ty x y) s)

def execRem (f : Fields) (s : State) : Out := runOp (.rem f) s (intElems f (fun x y _ => divRem f.ty x y) s)

def execMin (f : Fields) (s : State) : Out := runOp (.min f) s (intElems f (fun x y _ => min x y) s)

def execMax (f : Fields) (s : State) : Out := runOp (.max f) s (intElems f (fun x y _ => max x y) s)

def execAbs (f : Fields) (s : State) : Out := runOp (.abs f) s (intElems f (fun x _ _ => (x.natAbs : Int)) s)

def execNeg (f : Fields) (s : State) : Out := runOp (.neg f) s (intElems f (fun x _ _ => -x) s)

def execAdds (f : Fields) (s : State) : Out := runOp (.adds f) s (intElems f (fun x y _ => Ty.clamp f.ty (x + y)) s)

def execSubs (f : Fields) (s : State) : Out := runOp (.subs f) s (intElems f (fun x y _ => Ty.clamp f.ty (x - y)) s)

def execAnd (f : Fields) (s : State) : Out := runOp (.and f) s (bitOp f (fun x y => x &&& y) s)

def execOr (f : Fields) (s : State) : Out := runOp (.or f) s (bitOp f (fun x y => x ||| y) s)

def execXor (f : Fields) (s : State) : Out := runOp (.xor f) s (bitOp f (fun x y => x ^^^ y) s)

def execNot (f : Fields) (s : State) : Out := runOp (.not f) s (bitOp f (fun x _ => ~~~x) s)

def execAndn (f : Fields) (s : State) : Out := runOp (.andn f) s (bitOp f (fun x y => x &&& ~~~y) s)

def execShl (f : Fields) (s : State) : Out := runOp (.shl f) s (shiftOp f (shiftLeft f.ty.bits) s)

def execShr (f : Fields) (s : State) : Out := runOp (.shr f) s (shiftOp f (shiftRight f.ty.bits) s)

/-- The count is its low 5 bits (R174). -/
def execRotl (f : Fields) (s : State) : Out :=
  runOp (.rotl f) s (fun is => is.writesWord s f.dest.toNat (fun L =>
    (is.val32 f.ty f.a L).rotateLeft ((is.val32 f.ty f.b L).toNat % 32)))

def execPopc (f : Fields) (s : State) : Out := runOp (.popc f) s (bitCount f (fun l => l.count true) s)

def execClz (f : Fields) (s : State) : Out :=
  runOp (.clz f) s (bitCount f (fun l => (l.reverse.takeWhile (fun b => !b)).length) s)

def execCtz (f : Fields) (s : State) : Out :=
  runOp (.ctz f) s (bitCount f (fun l => (l.takeWhile (fun b => !b)).length) s)

def execBrev (f : Fields) (s : State) : Out :=
  runOp (.brev f) s (bitOp f (fun x _ =>
    if f.ty.wide then x.reverse else ((x.extractLsb' 0 32).reverse).setWidth 64) s)

def execBfx (f : Fields) (s : State) : Out :=
  runOp (.bfx f) s (fun is => is.writesWord s f.dest.toNat (fun L =>
    bitField f.ty.signed (is.val32 f.ty f.a L) (is.word f.b L).toNat (is.word f.c L).toNat))

/-- c packs the lowest bit number in [4:0] and the width in [13:8] (R176). -/
def execBfi (f : Fields) (s : State) : Out :=
  runOp (.bfi f) s (fun is => is.writesWord s f.dest.toNat (fun L =>
    bitInsert (is.val32 f.ty f.a L) (is.word f.b L) (is.word f.c L)))

/-- Each element receives 1 or 0; a 64-bit type writes a single register (R177). -/
def execCmp (f : Fields) (s : State) : Out :=
  runOp (.cmp f) s (fun is => is.writesWord s f.dest.toNat (fun L =>
    (ofElemInts f.ty (fun k =>
      if intCond f.mod.toNat (elemInt f.ty (is.val f.ty f.a L) k) (elemInt f.ty (is.val f.ty f.b L) k) then 1 else 0)).extractLsb' 0 32))

/-- The condition selects the whole value (R178). -/
def execPick (f : Fields) (s : State) : Out :=
  runOp (.pick f) s (fun is => is.writes s f.ty f.dest.toNat (fun L =>
    if is.cond f.a L then is.val f.ty f.b L else is.val f.ty f.c L))

def execMov (f : Fields) (s : State) : Out := runOp (.mov f) s (bitOp f (fun x _ => x) s)

end Sys2Proof.Machine
end

