-- ==== Sys2Proof/Machine/Convert.lean ====
section
/-! DEFINITION. Class 0x3, conversion and packing (R216 to R224, R342 to R344). -/

namespace Sys2Proof.Machine

/-- What a conversion does besides naming its types: rounding, `.sat`, flush mode, and the decision of SR. -/
structure CvtMode where
  rnd : Rnd
  sat : Bool
  flush : Bool
  away : Bool
  deriving DecidableEq, Repr

/-- A finite value rounded to an integer, and whether it differs (R219). -/
def roundToInt (neg : Bool) (m : Nat) (e : Int) (rnd : Rnd) : Int × Bool :=
  let sh := (-e).toNat
  let g : OnGrid := { lsb := 0, q := if 0 ≤ e then m * 2 ^ e.toNat else m / 2 ^ sh, rest := if 0 ≤ e then 0 else m % 2 ^ sh,
                      shift := sh }
  (sigInt neg (if roundUp rnd neg false g false then g.q + 1 else g.q), g.rest != 0)

/-- An integer's encoding in an integer type. -/
def intBits (ty : Ty) (v : Int) : Nat := (v % 2 ^ ty.bits).toNat

/-- A float to an integer (R219). -/
def cvtFloatInt (dst : Ty) (x : FVal) (rnd : Rnd) : FRes :=
  match x with
  | .nan _ => { bits := 0, flags := flagNv }
  | .inf neg => { bits := intBits dst (if neg then Ty.least dst else Ty.greatest dst), flags := flagNv }
  | .fin neg m e =>
    let (v, nx) := roundToInt neg m e rnd
    if v < Ty.least dst then { bits := intBits dst (Ty.least dst), flags := flagNv }
    else if Ty.greatest dst < v then { bits := intBits dst (Ty.greatest dst), flags := flagNv }
    else { bits := intBits dst v, flags := if nx then flagNx else 0 }

/-- A float to a float (R221); an infinite `e4m3` result is its NaN. A zero keeps its sign: R197 leaves that to the operation, and R221 does not say
(log entry 111). -/
def cvtFloatFloat (t : Fmt) (x : FVal) (c : CvtMode) : FRes :=
  match x with
  | .nan sig => t.nanRes sig
  | .inf neg =>
    if c.sat then { bits := t.signed neg t.maxFinite, flags := 0 }
    else if t.ieee then { bits := t.signed neg t.inf, flags := 0 }
    else t.nanRes true
  | .fin neg m e => t.round { neg := neg, m := m, e := e, sticky := false } neg c.rnd c.sat c.flush c.away

/-- Conversions between these types obey flush mode (R200). -/
def flushPair (dst src : Ty) : Bool := floatTys.contains dst && floatTys.contains src

/-- `Convert` of an element of type `src` (R218 to R221). The integer 0 gives +0: R197 leaves its sign to the operation, and R219 does not say
(log entry 111). -/
def convertElem (dst src : Ty) (x : Nat) (c : CvtMode) : FRes :=
  if src.isInt then
    let v := elemInt src (BitVec.ofNat 64 x) 0
    if dst.isInt then { bits := intBits dst (if c.sat then Ty.clamp dst v else v), flags := 0 }
    else (fmtOf dst).round (Exact.ofInt v 0) false c.rnd c.sat false false
  else
    let t := fmtOf src
    let y := t.decode (t.flushIn (c.flush && flushPair dst src) x)
    if dst.isInt then cvtFloatInt dst y c.rnd
    else cvtFloatFloat (fmtOf dst) y { c with flush := c.flush && flushPair dst src }

/-- D of an element that is converted under SR (R222, R344). -/
def discardedOf (dst src : Ty) (flush : Bool) (x : Nat) : BitVec 16 :=
  let t := fmtOf src
  match t.decode (t.flushIn (flush && flushPair dst src) x) with
  | .fin neg m e => (fmtOf dst).discarded { neg := neg, m := m, e := e, sticky := false }
  | _ => 0

/-- The element that a lane converts: element `k` of operand `o`. -/
def Issue.cvtSource (is : Issue) (f : Fields) (o : Operand) (k L : Nat) : Nat :=
  elemOf f.srcTy.bits (is.val32 f.srcTy o L) k

/-- `.sat` of a conversion. -/
def fieldsSat (f : Fields) : Bool := f.mod.getLsbD 0

/-- `cvt` (R218). Lane `L` is column `L` of the SR row (R222). -/
def execCvt (f : Fields) (s : State) : Out :=
  runOp (.cvt f) s (fun is =>
    let src := fun L => is.cvtSource f f.a (f.spec.toNat / 16 % 8) L
    let row := fun j => if is.mask.getLsbD j then discardedOf f.ty f.srcTy is.ftz (src j) else 0
    is.numeric s .b32 f.dest.toNat (fun L =>
      let r := convertElem f.ty f.srcTy (src L)
        { rnd := f.rnd, sat := fieldsSat f, flush := is.ftz, away := srAway row L 63 }
      LaneRes.ofWord (BitVec.ofNat 32 r.bits) r.flags))

/-- `cvt.pk` (R223). The conversions of lane `L` are columns 2L and 2L + 1 of the SR row (R222). Operand c is read as an untyped 32-bit source (log
entry 101). -/
def execCvtPk (f : Fields) (s : State) : Out :=
  runOp (.cvtPk f) s (fun is =>
    let src := fun j => is.cvtSource f (if j % 2 = 0 then f.a else f.b) 0 (j / 2)
    let row := fun j => if is.mask.getLsbD (j / 2) then discardedOf f.ty f.srcTy is.ftz (src j) else 0
    let one := fun j => convertElem f.ty f.srcTy (src j)
      { rnd := f.rnd, sat := fieldsSat f, flush := is.ftz, away := srAway row j 63 }
    is.numeric s .b32 f.dest.toNat (fun L =>
      let x := one (2 * L)
      let y := one (2 * L + 1)
      let p := f.spec.toNat / 16
      let w := if f.ty.bits = 16 then BitVec.ofNat 32 (x.bits + y.bits * 2 ^ 16)
        else ((is.word f.c L) &&& ~~~(0xFFFF#32 <<< (16 * p))) ||| (BitVec.ofNat 32 (x.bits + y.bits * 256) <<< (16 * p))
      LaneRes.ofWord w (x.flags ||| y.flags)))

/-- Result byte of `bpick` for control byte `c`, from the eight source bytes (R224). -/
def pickByte (src : Dword) (c : Nat) : Nat :=
  let b := elemOf 8 (src.extractLsb' (8 * (c % 8)) 8 |>.setWidth 32) 0
  match c / 8 % 4 with
  | 0 => b
  | 1 => 0
  | 2 => 0xFF
  | _ => if 128 ≤ b then 0xFF else 0

/-- `bpick` (R224). -/
def execBpick (f : Fields) (s : State) : Out :=
  runOp (.bpick f) s (fun is => is.writesWord s f.dest.toNat (fun L =>
    let src := is.word f.b L ++ is.word f.a L
    ofElems 8 ((List.range 4).map (fun k => pickByte src (elemOf 8 (is.word f.c L) k)))))

end Sys2Proof.Machine
end

