-- ==== Sys2Proof/Machine/Engine.lean ====
section
/-! DEFINITION. Matrix engines: descriptors, reservations, tiles, the array's sums, the epilogue and the parameter block (R325 to
R348, R353, R360 to R366). -/

namespace Sys2Proof.Machine

/-- Bits of an element of a tile type; 0 for a code that is no tile type (R347). -/
def tileBits : Nat → Nat
  | 9 | 10 => 16
  | 11 | 12 | 13 => 8
  | 14 => 4
  | _ => 0

/-- A tile type is quantized (R328). -/
def isQuant (ty : Nat) : Bool := ty == 13 || ty == 14

/-- The fields of a tile descriptor (R347). -/
structure TDesc where
  ty : Nat
  rows : Nat
  cols : Nat
  obidx : Nat
  obv : Bool
  deriving DecidableEq, Repr

def TDesc.of (d : Dword) : TDesc :=
  { ty := bitsOf d.toNat 3 0, rows := bitsOf d.toNat 15 8, cols := bitsOf d.toNat 25 16, obidx := bitsOf d.toNat 35 32,
    obv := d.getLsbD 36 }

/-- Row bytes (R347). -/
def TDesc.rowBytes (d : TDesc) : Nat := (d.cols * tileBits d.ty + 7) / 8

/-- A tile's byte size (R325). -/
def TDesc.size (d : TDesc) : Nat := d.rows * d.rowBytes

/-- A reserved bit of a descriptor is set (R347). -/
def tdescReserved (d : Dword) : Bool :=
  bitsOf d.toNat 63 37 != 0 || bitsOf d.toNat 31 26 != 0 || bitsOf d.toNat 7 4 != 0

/-- Group length of a reservation's record (R333). -/
def Resv.groupLen (r : Resv) : Nat := 32 * 2 ^ r.glen

/-- Groups per line of a tile of `cols` columns (R331). -/
def Resv.groups (r : Resv) (cols : Nat) : Nat := (cols + r.groupLen - 1) / r.groupLen

/-- The checks of R335 for a scaled tile against a reservation. -/
def Resv.fits (r : Resv) (d : TDesc) : Bool :=
  let x := d.rows * r.groups d.cols
  r.format == d.ty && r.soff + 2 * x ≤ r.ext &&
    (if d.ty = 13 then r.zoff + x ≤ r.ext else if d.ty = 14 then r.zoff + (x + 1) / 2 ≤ r.ext else true)

/-- Reservation `n` of an engine. -/
def Engine.resv? (e : Engine) (n : Nat) : Option Resv := e.resvs.find? (fun r => r.idx == n)

/-- A scaled tile's reservation stands as R335 asks. -/
def Engine.scaleOk (e : Engine) (d : TDesc) : Bool :=
  !d.obv || (match e.resv? d.obidx with | some r => r.fits d | none => false)

/-- The checks of R348 on a value written to a descriptor, from the second on (R330, R335). -/
def Engine.tdescOk (e : Engine) (v : Dword) : Bool :=
  let d := TDesc.of v
  !tdescReserved v &&
    (v == 0 || (tileBits d.ty != 0 && d.rows != 0 && d.cols != 0 && d.size ≤ 32768 &&
      (if isQuant d.ty then d.obv else if tileBits d.ty = 16 then !d.obv else true) && e.scaleOk d))

/-- The reservation record in the 16 bytes `v` with number `n`, base and extent, or none where R334 rejects it. -/
def recordOf (v n base ext : Nat) : Option Resv :=
  let r : Resv :=
    { idx := n, base := base, ext := ext, format := bitsOf v 3 0, glen := bitsOf v 5 4, soff := bitsOf v 49 32,
      zoff := bitsOf v 81 64 }
  if 3 ≤ r.glen ∨ r.format < 11 ∨ 14 < r.format ∨ bitsOf v 31 6 ≠ 0 ∨ bitsOf v 63 50 ≠ 0 ∨ bitsOf v 95 82 ≠ 0 ∨
      bitsOf v 127 96 ≠ 0 ∨ r.soff % 2 ≠ 0 ∨ ext < r.soff + 2 ∨
      (if isQuant r.format then ext < r.zoff + 1 else r.zoff ≠ 0) then none
  else some r

/-- Key of byte `off` of buffer `b` in the tile bytes. -/
def tileKey (b off : Nat) : Nat := b * 32768 + off

/-- The buffer that holds tile `t`. -/
def Engine.buf (e : Engine) (t : Nat) : Nat := (e.bufs[t]?).getD t

/-- The bytes of tile `t`, by offset. -/
def Engine.tile (e : Engine) (t : Nat) : Sparse 8 := e.tiles.slice (tileKey (e.buf t) 0) 32768

/-- Writes bytes into buffer `b` from offset `off`. -/
def Engine.writeBuf (e : Engine) (b off : Nat) (bs : List Byte) : Engine :=
  { e with tiles := writeBytes e.tiles (tileKey b off) bs }

/-- Tile `t` is written: its dirty flag (R370). -/
def Engine.markDirty (e : Engine) (t : Nat) : Engine := { e with dirty := e.dirty ||| BitVec.ofNat 16 (2 ^ t) }

/-- Tile `t` becomes zero with fill offset 0. `busy` lists the buffers that running transfers use; the tile leaves such a buffer
to them (R357). -/
def Engine.clearTile (e : Engine) (t : Nat) (busy : List Nat) : Engine :=
  let b := e.buf t
  let e1 :=
    if busy.contains b then
      match (List.range (e.bufs.length + busy.length + 1)).find? (fun k => !e.bufs.contains k && !busy.contains k) with
      | some k => { e with bufs := e.bufs.set t k, tiles := e.tiles.clearRange (tileKey k 0) 32768 }
      | none => e
    else { e with tiles := e.tiles.clearRange (tileKey b 0) 32768 }
  { e1 with fill := e1.fill.put t 0 }

/-- Key of element (i, j) of buffer `b` of accumulator `a`. -/
def accKey (a b i j : Nat) : Nat := ((a * 2 + b) * 128 + i) * 64 + j

/-- The committed buffer of accumulator `a`. -/
def Engine.committed (e : Engine) (a : Nat) : Nat := (e.which.look a).toNat

/-- Shapes (R361): M, N and the K of a 16-bit class. -/
def shapes : List (Nat × Nat × Nat) :=
  [(16, 64, 32), (32, 64, 32), (64, 64, 32), (128, 64, 32), (128, 64, 64), (128, 64, 128), (64, 128, 64), (128, 128, 64)]

def Block.m (b : Block) : Nat := match shapes[b.shape]? with | some s => s.1 | none => 0
def Block.n (b : Block) : Nat := match shapes[b.shape]? with | some s => s.2.1 | none => 0

/-- K of the shape for an operation on tiles of `bits` bits in the wider class (R361). -/
def Block.k (b : Block) (bits : Nat) : Nat :=
  match shapes[b.shape]? with
  | some s => if bits = 0 then 0 else s.2.2 * (16 / bits)
  | none => 0

/-- The accumulators of a block (R361). -/
def Block.accs (b : Block) : List Nat := if b.n = 128 then [b.acc, b.acc + 1] else [b.acc]

/-- Bytes of an output element (R362). -/
def outBytes (otype : Nat) : Nat := if otype = 8 then 4 else if otype ≤ 10 then 2 else 1

/-- The type with a code. -/
def outTy (otype : Nat) : Ty := Ty.ofCode otype

/-- The fields of the 64 bytes of a block, as one number (R362). -/
def Block.ofNat (v : Nat) : Block :=
  { op := bitsOf v 7 0, shape := bitsOf v 12 8, ta := bitsOf v 19 16, tb := bitsOf v 23 20, acc := bitsOf v 25 24,
    otype := bitsOf v 35 32, rnd := bitsOf v 38 36, sat := bitsOf v 39 39 == 1, act := bitsOf v 43 40,
    bias := bitsOf v 44 44 == 1, store := bitsOf v 45 45 == 1, tag := bitsOf v 53 48, scale := BitVec.ofNat 32 (bitsOf v 95 64),
    biasaddr := BitVec.ofNat 64 (bitsOf v 191 128), dest := BitVec.ofNat 64 (bitsOf v 255 192), stride := bitsOf v 275 256 }

/-- A reserved field of a block is not zero (R362). -/
def blockReserved (v : Nat) : Bool :=
  bitsOf v 31 26 != 0 || bitsOf v 15 13 != 0 || bitsOf v 63 54 != 0 || bitsOf v 47 46 != 0 || bitsOf v 127 96 != 0 ||
    bitsOf v 287 276 != 0 || bitsOf v 511 288 != 0

/-- The wider class of two tile types. -/
def widerBits (x y : Nat) : Nat := max (tileBits x) (tileBits y)

/-- The rules of R363 for a block `v` of a workgroup with `ctags` tags on engine `e`. -/
def Engine.blockOk (e : Engine) (v ctags : Nat) : Bool :=
  let b := Block.ofNat v
  let da := TDesc.of (e.tdesc.look b.ta)
  let db := TDesc.of (e.tdesc.look b.tb)
  let k := b.k (widerBits da.ty db.ty)
  let size := outBytes b.otype
  !blockReserved v && 1 ≤ b.op && b.op ≤ 3 && b.shape < 8 && b.act ≤ 2 && b.rnd ≤ 5 && 8 ≤ b.otype && b.otype ≤ 12 &&
    (if b.op = 3 then b.ta == 0 && b.tb == 0
     else tileBits da.ty != 0 && tileBits db.ty != 0 && b.m ≤ da.rows && k ≤ da.cols && b.n ≤ db.rows && k ≤ db.cols &&
       e.scaleOk da && e.scaleOk db) &&
    (b.n != 128 || b.acc % 2 == 0) && (b.otype != 8 || (b.rnd == 0 && !b.sat)) && (!b.bias || b.biasaddr.toNat % 4 == 0) &&
    (!b.store || (b.tag < ctags && b.dest.toNat % size == 0 && b.n * size ≤ b.stride && b.stride % size == 0))

/-- One operand of a multiply, as the array reads it; `scales` holds the bytes of its reservation, by their offsets in it. -/
structure MatSide where
  d : TDesc
  resv : Option Resv
  byte : Nat → Byte
  scales : Sparse 8

/-- The code or encoding of element `k` of line `r` (R329, R331, R347). -/
def MatSide.raw (x : MatSide) (r k : Nat) : Nat :=
  let at0 := r * x.d.rowBytes
  match tileBits x.d.ty with
  | 16 => (x.byte (at0 + 2 * k)).toNat + 256 * (x.byte (at0 + 2 * k + 1)).toNat
  | 8 => (x.byte (at0 + k)).toNat
  | 4 => (x.byte (at0 + k / 2)).toNat / 16 ^ (k % 2) % 16
  | _ => 0

/-- The group index of column `k` on line `r` (R331). -/
def MatSide.group (x : MatSide) (r k : Nat) : Nat :=
  match x.resv with
  | some v => r * v.groups x.d.cols + k / v.groupLen
  | none => 0

/-- The zero point of a group (R332). -/
def MatSide.zero (x : MatSide) (g : Nat) : Nat :=
  match x.resv with
  | some v =>
    if x.d.ty = 13 then (x.scales.look (v.zoff + g)).toNat
    else (x.scales.look (v.zoff + g / 2)).toNat / 16 ^ (g % 2) % 16
  | none => 0

/-- The factor of an element (R337). -/
def MatSide.factor (x : MatSide) (r k : Nat) : FVal :=
  if isQuant x.d.ty then
    let d : Int := (x.raw r k : Int) - x.zero (x.group r k)
    .fin (d < 0) d.natAbs 0
  else (fmtOf (Ty.ofCode x.d.ty)).decode (x.raw r k)

/-- The scale of the group of column `k` on line `r`; 1.0 for an unscaled tile (R332, R338). -/
def MatSide.sigma (x : MatSide) (r k : Nat) : FVal :=
  match x.d.obv, x.resv with
  | true, some v => fmtF16.decode (readLE x.scales (v.soff + 2 * x.group r k) 2)
  | _, _ => .fin false 1 0

/-- Length of the summation groups (R338). -/
def sumLen (a b : MatSide) : Nat :=
  match a.d.obv, a.resv, b.d.obv, b.resv with
  | true, some x, true, some y => min x.groupLen y.groupLen
  | true, some x, _, _ => x.groupLen
  | _, _, true, some y => y.groupLen
  | _, _, _, _ => 32

/-- What the products of a summation group have shown so far (R340). -/
structure SumState where
  snan : Bool
  zeroInf : Bool
  qnan : Bool
  posInf : Bool
  negInf : Bool
  n : Int
  e : Int

/-- One product more. -/
def SumState.push (s : SumState) (x y : FVal) : SumState :=
  let s1 := { s with snan := s.snan || x.isSnan || y.isSnan, zeroInf := s.zeroInf || zeroTimesInf x y,
                     qnan := s.qnan || x.isNan || y.isNan }
  if x.isNan || y.isNan || zeroTimesInf x y then s1
  else
    match mulVal x y with
    | .fin neg m e =>
      let (n, e') := addFin s.n s.e (sigInt neg m) e
      { s1 with n := n, e := e' }
    | .inf true => { s1 with negInf := true }
    | .inf false => { s1 with posInf := true }
    | .nan _ => s1

/-- p of a summation group (R339, R340). -/
def SumState.result (s : SumState) : FRes :=
  if s.snan || s.zeroInf then fmtF32.nanRes true
  else if s.qnan then fmtF32.nanRes false
  else if s.posInf && s.negInf then fmtF32.nanRes true
  else if s.posInf then { bits := fmtF32.inf, flags := 0 }
  else if s.negInf then { bits := fmtF32.signed true fmtF32.inf, flags := 0 }
  else fmtF32.round (Exact.ofInt s.n s.e) false .rne false false false

/-- p of the columns `k0` to `k0 + n - 1` for output element (i, j). -/
def groupSum (a b : MatSide) (i j k0 n : Nat) : FRes :=
  ((List.range n).foldl (fun (s : SumState) q => s.push (a.factor i (k0 + q)) (b.factor j (k0 + q)))
    { snan := false, zeroInf := false, qnan := false, posInf := false, negInf := false, n := 0, e := 0 }).result

/-- w: the product of two scales (R339). -/
def scaleProduct (x y : FVal) : FRes :=
  if x.isSnan || y.isSnan || zeroTimesInf x y then fmtF32.nanRes true
  else if x.isNan || y.isNan then fmtF32.nanRes false
  else
    match mulVal x y with
    | .fin s m e => fmtF32.round { neg := s, m := m, e := e, sticky := false } s .rne false false false
    | .inf s => { bits := fmtF32.signed s fmtF32.inf, flags := 0 }
    | .nan _ => fmtF32.nanRes false

/-- One step of R339: summation group `h` is added to `acc`. -/
def sumStep (a b : MatSide) (k i j : Nat) (acc : FRes) (h : Nat) : FRes :=
  let ls := sumLen a b
  let p := groupSum a b i j (h * ls) (min ls (k - h * ls))
  let w := scaleProduct (a.sigma i (h * ls)) (b.sigma j (h * ls))
  let q := fmtF32.mul p.bits w.bits .rne false
  let r := fmtF32.add acc.bits q.bits .rne false
  { bits := r.bits, flags := acc.flags ||| p.flags ||| w.flags ||| q.flags ||| r.flags }

/-- Output element (i, j) of a multiply over `k` columns, from `start` (R339). -/
def multiply (a b : MatSide) (k i j : Nat) (start : Nat) : FRes :=
  (List.range ((k + sumLen a b - 1) / sumLen a b)).foldl (sumStep a b k i j) { bits := start, flags := 0 }

/-- e after scale, bias and activation (R366). -/
def epilogue (b : Block) (bias : List Word) (j : Nat) (x : Nat) : FRes :=
  let e1 := fmtF32.mul x b.scale.toNat .rne false
  let e2 := if b.bias then fmtF32.add e1.bits ((bias[j]?).getD 0).toNat .rne false else { bits := e1.bits, flags := 0 }
  let v := e2.bits
  let nan := (fmtF32.decode v).isNan
  let e3 := if b.act ≠ 0 ∧ !nan ∧ 2 ^ 31 ≤ v then 0 else v
  let e4 := if b.act = 2 ∧ !nan ∧ 0x40C00000 < e3 then 0x40C00000 else e3
  { bits := e4, flags := e1.flags ||| e2.flags }

/-- The discarded bits of an epilogue value in the output format (R342). -/
def outDiscarded (otype : Nat) (x : Nat) : BitVec 16 :=
  match fmtF32.decode x with
  | .fin neg m e => (fmtOf (outTy otype)).discarded { neg := neg, m := m, e := e, sticky := false }
  | _ => 0

/-- out(i, j) from the row `row` of accumulator values (R345, R366). -/
def epilogueOut (b : Block) (bias : List Word) (row : Nat → Nat) (j : Nat) : FRes :=
  let e := epilogue b bias j (row j)
  if b.otype = 8 then e
  else
    let rnd := (Rnd.ofCode (BitVec.ofNat 3 b.rnd)).getD .rne
    let away := rnd == .sr && srAway (fun c => outDiscarded b.otype (epilogue b bias c (row c)).bits) j (b.n - 1)
    let r := cvtFloatFloat (fmtOf (outTy b.otype)) (fmtF32.decode e.bits) { rnd := rnd, sat := b.sat, flush := false, away := away }
    { bits := r.bits, flags := e.flags ||| r.flags }

/-- The table in which the keys `a` to `a + n - 1` read `f`. -/
def fillRange {w : Nat} (m : Sparse w) (a n : Nat) (f : Nat → BitVec w) : Sparse w :=
  m.filter (fun p => p.1 < a) ++
    (List.range n).filterMap (fun i => if f i = 0 then none else some (a + i, f i)) ++
    m.filter (fun p => a + n ≤ p.1)

end Sys2Proof.Machine
end

