-- ==== Sys2Proof/Machine/Matrix.lean ====
section
/-! DEFINITION. Class 0x9, the matrix operations, and the life of an engine (R346 to R369). -/

namespace Sys2Proof.Machine

/-- The engine that a workgroup holds, not one that it is releasing (R349). -/
def Workgroup.held (w : Workgroup) : Option Nat := if w.releasing then none else w.engine

/-- An operation of the workgroup waits in the launch queue of engine `n`. -/
def MatOp.queuedOn (o : MatOp) (n : Nat) : Bool := o.engine == n && o.phase == .queued

/-- An operation names tile `t` (R360). -/
def MatOp.names (o : MatOp) (t : Nat) : Bool := o.blk.op != 3 && (o.blk.ta == t || o.blk.tb == t)

/-- The operation reads reservation `n` (R336). -/
def MatOp.reads (o : MatOp) (n : Nat) : Bool :=
  (match o.resA with | some r => r.idx == n | none => false) || (match o.resB with | some r => r.idx == n | none => false)

/-- The operation's store keeps buffer `b` of accumulator `a` of engine `n` (R351, R367). -/
def MatOp.retains (o : MatOp) (n a b : Nat) : Bool :=
  o.engine == n && o.phase == .storing &&
    ((o.blk.acc == a && o.buf0.toNat == b) || (o.blk.n == 128 && o.blk.acc + 1 == a && o.buf1.toNat == b))

/-- The workgroup whose store keeps a buffer. -/
def State.retainer (s : State) (n a b : Nat) : Option Nat :=
  (s.wgs.find? (fun w => w.ops.any (fun o => o.retains n a b))).map (fun w => w.id)

/-- An engine that becomes free: zeroed (R350, R399). A store keeps the values of its retained buffers itself, so that no later owner reads
them; a committed buffer of the next owner is not a retained one, where one of the two is not (R349, R351). -/
def State.zeroedEngine (s : State) (n : Nat) : Engine :=
  let e := s.engine n
  { Engine.zero n with
    aside := e.aside,
    which := (List.range 4).foldl (fun m a =>
      let b := e.committed a
      Sparse.put m a (BitVec.ofNat 1 (if (s.retainer n a b).isSome && (s.retainer n a (1 - b)).isNone then 1 - b else b))) [] }

/-- The engines that a workgroup is releasing. -/
def Workgroup.released (w : Workgroup) : List Nat := (if w.releasing then w.engine.toList else []) ++ w.leaving

/-- Nothing of the workgroup keeps an engine that it is releasing (R350). A tile entry is written in one step, so none is being written. -/
def State.letGo (s : State) (w : Workgroup) (n : Nat) : Bool :=
  (s.engine n).resvs == [] && !(w.ops.any (fun o => o.queuedOn n))

/-- The engines `ns` have become free: a transfer that still runs there goes on without its tile (R350; log entry 18). -/
def Workgroup.lose (w : Workgroup) (ns : List Nat) : Workgroup :=
  let rest := w.released.filter (fun n => !ns.contains n)
  let w1 := { w with xfers := w.xfers.map (fun (x : TileXfer) => if ns.contains x.engine then { x with loose := true } else x) }
  if w.releasing || w.engine.isNone then
    { w1 with engine := rest.head?, releasing := rest != [], leaving := rest.drop 1 }
  else { w1 with leaving := rest }

/-- The engines that a workgroup is releasing become free when nothing keeps them (R350). -/
def State.tryFreeEngine (s : State) (id : Nat) : State :=
  match s.wg? id with
  | none => s
  | some w =>
    let ns := w.released.filter (s.letGo w)
    if ns = [] then s
    else (ns.foldl (fun s n => s.putEngine (s.zeroedEngine n)) s).updWg id (fun x => x.lose ns)

/-- Engines of the cluster of a core, lowest first. -/
def clusterEngines (core : Nat) : List Nat := (List.range 4).map (fun k => core / 4 * 4 + k)

/-- The workgroup holds engine `n`, and goes on releasing the others that it was releasing. -/
def Workgroup.takes (w : Workgroup) (n : Nat) : Workgroup :=
  { w with engine := some n, releasing := false, leaving := w.released.filter (fun k => k != n) }

/-- `mres` for workgroup `w` with mask `m`: the state after it, and whether it holds an engine (R106, R349; log entry 19). -/
def State.grantEngine (s : State) (w : Workgroup) (r : Region) (m : Nat) : State × Bool :=
  if w.held.isSome then (s, true)
  else
    match w.released.find? (fun n => m.testBit (n % 4)) with
    | some n => (s.updWg w.id (fun x => x.takes n), true)
    | none =>
      let es := clusterEngines w.core
      let aside := es.any (fun n => (s.engine n).aside == some w.id)
      match es.find? (fun n => m.testBit (n % 4) && (s.engine n).holder.isNone &&
          ((s.engine n).aside == some w.id || (s.engine n).aside.isNone)) with
      | none => (s, false)
      | some n =>
        let s1 := (s.putEngine { s.engine n with holder := some w.id }).updWg w.id (fun x => x.takes n)
        if aside || 0 ≤ (s1.unusedBudget r).2 then (s1, true) else (s, false)

/-- `mres` (R349). -/
def execMres (f : Fields) (s : State) : Out :=
  runOp (.mres f) s (fun is =>
    let m := (is.word f.a is.l0).toNat
    if 15 < m then .hit (Hit.plain .operandExtent is.mask 0)
    else
      let (s1, g) := s.grantEngine is.w is.r m
      .done (s1.writeLanes is (fun _ l => l.setReg f.dest.toNat (if g then 1 else 0))) true)

/-- A transfer starts again from its first chunk, for the group with start count `k`; what it has moved stays moved (R358). -/
def TileXfer.again (k : Nat) (x : TileXfer) : TileXfer :=
  { x with failed := false, moved := 0, high := max x.high x.moved, rerun := some k, seen := none, absent := none }

/-- The group in issue took a transfer fault, which has been serviced (R358). -/
def Issue.tookXfault (is : Issue) (s : State) (x : XFault) : Bool :=
  x.delivered.any (fun k => k.start == is.g.start) && x.delivered.all s.serviced

/-- The group in issue resumes at its operation: the transfers whose faults it took, and which have been serviced, run again, and those faults leave the
record (R358; log entry 123). -/
def Issue.rerunXfers (is : Issue) (s : State) : State :=
  let back := is.w.xfaults.filter (is.tookXfault s)
  s.updWg is.w.id (fun y =>
    { y with
      xfaults := y.xfaults.filter (fun x => !back.contains x),
      xfers := y.xfers.map (fun t => if back.any (fun x => x.xfer == some t.id) then t.again is.g.start else t) })

/-- An operation of the group in issue waits for a transfer: one that runs again before it, or, where `wide` holds, one older than `k` (R358, R359). -/
def Issue.waitsXfer (is : Issue) (wide : Bool) (k : Nat) (t : TileXfer) : Bool :=
  !t.failed && (t.rerun == some is.g.start || (wide && t.id < k))

/-- What an `mwait`, `mrel` or `mfence.op` does first: transfers whose faults the group took and has had serviced run again, and it waits for them;
a transfer fault that no group has taken is taken (R358). `hold` is the wait that it makes; `wide` keeps it waiting for the
other transfers older than `hold.addr` too (R359). -/
def Issue.xferGate (is : Issue) (s : State) (hold : Wait) (wide : Bool) (body : State → Effect) : Effect :=
  let s1 := is.rerunXfers s
  match s1.wg? is.w.id with
  | none => body s1
  | some w =>
    if w.xfers.any (is.waitsXfer wide hold.addr.toNat) then .wait s1 hold
    else
      match w.xfaults.find? (fun x => x.delivered == []) with
      | some x =>
        .taken
          (s1.updWg w.id (fun y => { y with
            xfaults := y.xfaults.map (fun z => if z = x then { z with delivered := [is.taker] } else z) }))
          { cls := x.info.cls, mask := is.mask, addr := x.info.addr, stage2 := x.info.stage2, origin := some x.pos }
      | none => body s1

/-- The wait of an operation that covers what was started before its first turn: its address holds the identity reached then. -/
def Issue.horizon (is : Issue) (s : State) : Wait :=
  let first : Wait := { kind := .other, cycles := 0, addr := BitVec.ofNat 64 s.seq, expired := false }
  match is.oldWait is.g with
  | some w => if w.kind = .other ∨ w.kind = .ops then w else first
  | none => first

/-- `mrel` (R350). -/
def execMrel (f : Fields) (s : State) : Out :=
  runOp (.mrel f) s (fun is =>
    if is.w.held.isNone then .hit (Hit.plain .operandExtent is.mask 0)
    else
      is.xferGate s (is.horizon s) false (fun s1 =>
        .done ((s1.updWg is.w.id (fun x => { x with releasing := true })).tryFreeEngine is.w.id) true))

/-- The first byte of `[x, x + n)` outside the allocation of the group's workgroup, as an offset from `x`. -/
def Issue.outside (is : Issue) (s : State) (x : Dword) (n : Nat) : Option Nat :=
  let a := addrVa (s.allocVa is.w)
  let v := addrVa x
  if v < a ∨ a + is.w.allocSize ≤ v then some 0 else if a + is.w.allocSize < v + n then some (a + is.w.allocSize - v) else none

/-- A read of `n` bytes at `x + off` by an operation performed once for the group. -/
def Issue.onceReq (is : Issue) (x : Dword) (off : Int) (n : Nat) : Req :=
  { laneReq is.l0 x off n { order := .relaxed, scope := .workgroup, space := .generic, notag := false } true false with
    align := 1, report := addrPlus x off }

/-- An operation in flight of the workgroup reads reservation `n` (R336). -/
def Workgroup.readsResv (w : Workgroup) (n : Nat) : Bool := w.ops.any (fun o => o.phase == .queued && o.reads n)

/-- `obres` (R334, R336, R353). A reservation n on an engine that the workgroup is releasing does not bar one on the engine that it holds (log entry
117). -/
def execObres (f : Fields) (s : State) : Out :=
  runOp (.obres f) s (fun is =>
    let x := is.addr f.a is.l0
    let base := (is.word f.b is.l0).toNat
    let ext := (is.word f.c is.l0).toNat
    let n := f.spec.toNat % 16
    let bad := fun a => Effect.hit (Hit.plain .operandExtent is.mask a)
    match is.w.held with
    | none => bad x
    | some en =>
      let e := s.engine en
      if !addrFormOk x 0 ∨ addrVa x % 16 ≠ 0 ∨ base % 16 ≠ 0 ∨ ext = 0 ∨ ext % 16 ≠ 0 ∨ 262144 < base + ext then bad x
      else
        match is.outside s x (16 + ext) with
        | some o => bad (addrPlus x o)
        | none =>
          if (e.resv? n).isSome ∨ e.resvs.any (fun r => meets base ext r.base r.ext) then bad x
          else
            is.whole (is.accessOn s [] [is.onceReq x 0 16] false .workgroup (fun s1 sps =>
              match sps.head? with
              | none => bad x
              | some sp =>
                match recordOf (readLE s1.mem sp.pa 16) n base ext with
                | none => bad x
                | some r =>
                  if is.w.readsResv n then .wait s { kind := .slot, cycles := 0, addr := 0, expired := false }
                  else
                    is.whole (is.accessOn s1 [] [is.onceReq x 16 ext] false .workgroup (fun s2 sps2 =>
                      match sps2.head? with
                      | none => bad x
                      | some sp2 =>
                        let e2 := s2.engine en
                        .done (s2.putEngine { e2 with
                          resvs := r :: e2.resvs, obuf := e2.obuf.paste base ext (s2.mem.slice sp2.pa ext) }) true)))))

/-- The engine on which the workgroup holds reservation `n`: the one that it holds before those that it is releasing. -/
def State.resvEngine (s : State) (w : Workgroup) (n : Nat) : Option Nat :=
  (w.engine.toList ++ w.leaving).find? (fun k => ((s.engine k).resv? n).isSome)

/-- `obrel` (R354). -/
def execObrel (f : Fields) (s : State) : Out :=
  runOp (.obrel f) s (fun is =>
    let n := f.spec.toNat % 16
    match s.resvEngine is.w n with
    | none => .hit (Hit.plain .operandExtent is.mask 0)
    | some en =>
      let e := s.engine en
      match e.resv? n with
      | none => .hit (Hit.plain .operandExtent is.mask 0)
      | some r =>
        if is.w.readsResv n then .wait s { kind := .slot, cycles := 0, addr := 0, expired := false }
        else
          .done ((s.putEngine { e with
            resvs := e.resvs.filter (fun y => y.idx != n), obuf := e.obuf.clearRange r.base r.ext }).tryFreeEngine is.w.id) true)

/-- Strict use of matrix operands (R132, R360). -/
def Issue.strict (is : Issue) : Bool := is.g.mdef.getLsbD 30

/-- A touch of tile `t` now would be one of R360. -/
def Workgroup.touched (w : Workgroup) (t : Nat) : Bool := w.ops.any (fun o => o.names t)

/-- The chunks of a transfer: offset from its address, offset in the tile, and length (R356). -/
def xferChunks (d : TDesc) (x : Dword) (stride : Nat) : List (Nat × Nat × Nat) :=
  (List.range d.rows).flatMap (fun r =>
    let v := addrVa x + r * stride
    (pieces 64 (d.rowBytes / 64 + 2) v d.rowBytes).map (fun (p : Nat × Nat) =>
      (p.1 - addrVa x, r * d.rowBytes + (p.1 - v), p.2)))

/-- `tld` and `tst` (R356, R360, R436): `store` is set for `tst`. A `tst` with release order is a release; a `tld` with acquire order orders nothing (log
entry 118). -/
def tileTransfer (f : Fields) (store : Bool) (s : State) (is : Issue) : Effect :=
  let x := is.addr f.a is.l0
  let stride := (is.word f.b is.l0).toNat
  let t := f.spec.toNat % 16
  let q := quals is.g f (!store) store [.generic]
  let bad := fun a => Effect.hit (Hit.plain .operandExtent is.mask a)
  match is.w.held with
  | none => bad x
  | some en =>
    let e := s.engine en
    let v := e.tdesc.look t
    let d := TDesc.of v
    if v = 0 ∨ stride < d.rowBytes ∨ 2 ^ 24 ≤ stride ∨ !addrFormOk x 0 then bad x
    else if is.strict && is.w.touched t then bad 0
    else
      match is.releaseGate s (store && q.releases) q.scope with
      | some r => r
      | none =>
        let range : WatchRange :=
          { lane := is.l0, ds := false, va := addrVa x, n := (d.rows - 1) * stride + d.rowBytes, reads := !store, writes := store,
            report := x }
        is.watched s [range] [] (fun s1 =>
          let l := is.lane is.l0
          let y : TileXfer :=
            { id := s1.seq, engine := en, tile := t, store := store, addr := x, stride := stride, desc := v, moved := 0, high := 0, buf := e.buf t,
              old := [], left := none, loose := false, core := is.g.core, slot := is.g.slot, start := is.g.start, pos := l.pos, func := l.func, notag := q.notag,
              touched := is.w.touched t, seen := none, failed := false, rerun := none, absent := none }
          let s2 := if store then s1 else s1.putEngine { e with fill := e.fill.put t (BitVec.ofNat 32 d.size) }
          .done ({ s2 with seq := s2.seq + 1 }.updWg is.w.id (fun w => { w with xfers := w.xfers ++ [y] })) false)

/-- `tld` (R356). -/
def execTld (f : Fields) (s : State) : Out := runOp (.tld f) s (tileTransfer f false s)

/-- `tst` (R356). -/
def execTst (f : Fields) (s : State) : Out := runOp (.tst f) s (tileTransfer f true s)

/-- The bytes of the first `k` chunks of a transfer: a prefix of the tile's bytes. -/
def TileXfer.prefixLen (x : TileXfer) (k : Nat) : Nat :=
  (((xferChunks (TDesc.of x.desc) x.addr x.stride).take k).map (fun c => c.2.2)).sum

/-- The granules of its tile that a transfer has written in part: at the end of what it has moved, and of what it had moved before it ran again. -/
def TileXfer.partGranules (x : TileXfer) : List Nat :=
  (([x.moved, x.high].map x.prefixLen).filter (fun n => n % 32 != 0)).map (fun n => n / 32)

/-- The bytes `v` of a buffer without what a `tld` has written into granules in part: there they are as they were before it (R323). -/
def TileXfer.clean (x : TileXfer) (v : Sparse 8) : Sparse 8 :=
  x.partGranules.foldl (fun v g => v.paste (32 * g) 32 (x.old.slice (32 * g) 32)) v

/-- The transfers of a workgroup into buffer `b` of engine `n` that have moved something and have not ended. -/
def Workgroup.loads (w : Workgroup) (n b : Nat) : List TileXfer :=
  w.xfers.filter (fun x => !x.store && !x.loose && x.engine == n && x.buf == b && (x.moved != 0 || x.high != 0))

/-- What buffer `b` of an engine holds, every granule of it either before or after each transfer into it (R323). -/
def Workgroup.cleanBuf (w : Workgroup) (e : Engine) (b : Nat) : Sparse 8 :=
  (w.loads e.idx b).foldl (fun v x => x.clean v) (e.tiles.slice (tileKey b 0) 32768)

/-- The bytes that a tile may hold for an operation that reads it now: what it held before each transfer into it that has not ended, and what it holds
now (R323). -/
def tileViews (w : Workgroup) (e : Engine) (t : Nat) : List (Sparse 8) :=
  (w.loads e.idx (e.buf t)).map (fun x => x.old) ++ [w.cleanBuf e (e.buf t)]

/-- A later transfer has written the first `n` bytes of the tile: a granule there that a stopped transfer had written in part is whole again. -/
def TileXfer.coveredTo (n : Nat) (x : TileXfer) : TileXfer :=
  if x.failed && x.partGranules.all (fun g => 32 * g + 32 ≤ n) then { x with moved := 0, high := 0, old := [] } else x

/-- Before tile `t` changes, the queued operations that name it keep what it holds (R323, R360). -/
def Workgroup.keepTile (w : Workgroup) (e : Engine) (t : Nat) : Workgroup :=
  { w with ops := w.ops.map (fun o =>
      if o.queuedOn e.idx && o.names t then { o with snaps := o.snaps ++ (tileViews w e t).map (fun v => (t, v)) } else o) }

/-- A `tclr` takes tile `t` out of the buffer of its running transfers; operations from identity `k` on are launched after it (R357). -/
def Workgroup.leaveBuf (w : Workgroup) (e : Engine) (t k : Nat) : Workgroup :=
  { w with xfers := w.xfers.map (fun (x : TileXfer) =>
      if x.engine = e.idx ∧ !x.loose ∧ x.buf = e.buf t ∧ x.left = none then { x with left := some k } else x) }

/-- `tclr` (R357, R360). -/
def execTclr (f : Fields) (s : State) : Out :=
  runOp (.tclr f) s (fun is =>
    let t := f.spec.toNat % 16
    match is.w.held with
    | none => .hit (Hit.plain .operandExtent is.mask 0)
    | some en =>
      if is.strict && is.w.touched t then .hit (Hit.plain .operandExtent is.mask 0)
      else
        let e := s.engine en
        let busy := (is.w.xfers.filter (fun x => x.engine == en && !x.loose)).map (fun x => x.buf)
        .done ((s.updWg is.w.id (fun w => (w.keepTile e t).leaveBuf e t s.seq)).putEngine ((e.clearTile t busy).markDirty t)) false)

/-- `mfence.op` (R359). -/
def execMfenceOp (f : Fields) (s : State) : Out :=
  runOp (.mfenceOp f) s (fun is =>
    if is.w.held.isNone then .hit (Hit.plain .operandExtent is.mask 0)
    else is.xferGate s (is.horizon s) true (fun s1 => .done s1 true))

/-- The record of accumulator `a`: the operations launched into it that no `mwait` has passed, oldest first (R346). -/
def Workgroup.record (w : Workgroup) (a : Nat) : List MatOp := w.ops.filter (fun o => o.blk.accs.contains a)

/-- Changes the operation with identity `id`. -/
def Workgroup.updOp (w : Workgroup) (id : Nat) (f : MatOp → MatOp) : Workgroup :=
  { w with ops := w.ops.map (fun o => if o.id = id then f o else o) }

/-- The operation goes on after its fault has been serviced: its store from the failing chunk, or, for a failed bias read, from
the start (R368). -/
def MatOp.resume (o : MatOp) : MatOp := { o with fault := none, delivered := [], resumed := true, absent := none }

/-- A fault of the operation is taken by the group in issue. -/
def Issue.takeOpFault (is : Issue) (s : State) (o : MatOp) (x : FaultInfo) : Effect :=
  .taken (s.updWg is.w.id (fun w => w.updOp o.id (fun y => { y with delivered := [is.taker] })))
    { cls := x.cls, mask := is.mask, addr := x.addr, stage2 := x.stage2, origin := some o.pos }

/-- A store of the record that a further operation has already followed, and that has faulted; or one that the `mlaunch` in issue has let go on after
its fault, and for which it waits: the address of its wait names it (R364, R369). -/
def Issue.blockedStore (is : Issue) (accs : List Nat) : Option MatOp :=
  let mine := fun (o : MatOp) => match is.oldWait is.g with
    | some { kind := .slot, addr := k, .. } => o.resumed && o.id + 1 == k.toNat
    | _ => false
  is.w.ops.find? (fun o =>
    o.phase == .storing && (o.fault.isSome || mine o) && accs.any (fun a => o.blk.accs.contains a && o.followed.contains a))

/-- A launched operation is appended; the older ones of its accumulators have been followed (R364, R369). -/
def Workgroup.launch (w : Workgroup) (o : MatOp) : Workgroup :=
  { w with
    ops := w.ops.map (fun (x : MatOp) => { x with followed := x.followed ++ o.blk.accs.filter (fun a => x.blk.accs.contains a && !x.followed.contains a) })
      ++ [o],
    tags := if o.blk.store then w.tags &&& ~~~(1#64 <<< o.blk.tag) else w.tags }

/-- The ranges of an `mlaunch` that watch units check (R436). -/
def launchRanges (L : Nat) (b : Block) : List WatchRange :=
  (if b.bias then
    [{ lane := L, ds := false, va := addrVa b.biasaddr, n := 4 * b.n, reads := true, writes := false, report := b.biasaddr }]
  else []) ++
  (if b.store then
    (List.range b.m).map (fun i =>
      { lane := L, ds := false, va := addrVa (addrPlus b.dest ((i * b.stride : Nat) : Int)), n := b.n * outBytes b.otype, reads := false,
        writes := true, report := addrPlus b.dest ((i * b.stride : Nat) : Int) })
  else [])

/-- The operation that `mlaunch` appends (R364). -/
def Issue.newOp (is : Issue) (s : State) (e : Engine) (b : Block) : MatOp :=
  let da := if b.op = 3 then 0 else e.tdesc.look b.ta
  let db := if b.op = 3 then 0 else e.tdesc.look b.tb
  let res := fun (d : Dword) => if (TDesc.of d).obv then e.resv? (TDesc.of d).obidx else none
  let bytes := fun (r : Option Resv) => match r with | some r => e.obuf.slice r.base r.ext | none => []
  let l := is.lane is.l0
  { id := s.seq, engine := e.idx, blk := b, descA := da, descB := db, resA := res da, resB := res db, bytesA := bytes (res da),
    bytesB := bytes (res db), followed := [], core := is.g.core, slot := is.g.slot, start := is.g.start, pos := l.pos, func := l.func,
    phase := .queued, flags := 0, fault := none, delivered := [], resumed := false, landed := 0, buf0 := 0, buf1 := 0, bias := [],
    values := [], snaps := [], absent := none }

/-- The operations in the launch queue of engine `n` (R346). -/
def State.launchQueue (s : State) (n : Nat) : List (Nat × MatOp) :=
  (s.wgs.filter (fun w => !w.saved)).flatMap (fun w => (w.ops.filter (fun o => o.queuedOn n)).map (fun o => (w.id, o)))

/-- `mlaunch` from its checked block on (R364, R369). -/
def Issue.launchBlock (is : Issue) (s : State) (en : Nat) (x : Dword) (v : Nat) : Effect :=
  let e := s.engine en
  let b := Block.ofNat v
  let hold : Nat → Wait := fun k => { kind := .slot, cycles := 0, addr := BitVec.ofNat 64 k, expired := false }
  if !e.blockOk v is.r.eff.ctags then .hit (Hit.plain .operandExtent is.mask x)
  else if is.strict && b.op != 1 && b.accs.any (fun a => is.w.record a != []) then .hit (Hit.plain .operandExtent is.mask x)
  else
    match is.blockedStore b.accs with
    | some o =>
      match o.fault with
      | some y =>
        if o.delivered = [] then is.takeOpFault s o y
        else if o.delivered.all s.serviced then .wait (s.updWg is.w.id (fun w => w.updOp o.id MatOp.resume)) (hold (o.id + 1))
        else .wait s (hold 0)
      | none => .wait s (hold (o.id + 1))
    | none =>
      if 8 ≤ (s.launchQueue en).length then .wait s (hold 0)
      else
        is.watched s (launchRanges is.l0 b) [] (fun s1 =>
          .done ({ s1 with seq := s1.seq + 1 }.updWg is.w.id (fun w => w.launch (is.newOp s1 e b))) true)

/-- `mlaunch` (R363, R364, R369). -/
def execMlaunch (f : Fields) (s : State) : Out :=
  runOp (.mlaunch f) s (fun is =>
    let x := is.addr f.a is.l0
    let bad := Effect.hit (Hit.plain .operandExtent is.mask x)
    match is.w.held with
    | none => bad
    | some en =>
      if !addrFormOk x 0 ∨ addrVa x % 64 ≠ 0 ∨ (is.outside s x 64).isSome then bad
      else
        is.whole (is.accessOn s [] [is.onceReq x 0 64] false .workgroup (fun s1 sps =>
          match sps.head? with
          | none => bad
          | some sp => is.launchBlock s1 en x (readLE s1.mem sp.pa 64))))

/-- Tag `t` is set when no copy and no store that names it is in flight or has a fault (R244, R367). -/
def Workgroup.retag (w : Workgroup) (t : Nat) : Workgroup :=
  if w.copies.any (fun c => c.tag == t) || w.ops.any (fun o => o.blk.store && o.blk.tag == t && o.phase != .finished) then w
  else { w with tags := w.tags ||| (1#64 <<< t) }

/-- A workgroup that has ended leaves when its copies, its transfers and its operations have run out (R96, R113, R351). -/
def State.sweepWg (s : State) (id : Nat) : State :=
  let s1 := s.tryFreeEngine id
  match s1.wg? id with
  | none => s1
  | some w =>
    if w.ended ∧ w.copies = [] ∧ w.xfers = [] ∧ w.ops.all (fun o => o.phase == .finished) then
      { s1 with wgs := s1.wgs.filter (fun x => x.id != id) }
    else s1

/-- An `mwait` past its transfers, with the wait `hold` that it makes: it covers the operations launched into `a` before it, those with an identity below
the one that the wait names (R368). -/
def Issue.waitOps (is : Issue) (a t : Nat) (hold : Wait) (s : State) : Effect :=
  match s.wg? is.w.id with
  | none => .wait s hold
  | some w =>
    let mine := (w.record a).filter (fun o => o.id < hold.addr.toNat)
    match mine.find? (fun o => o.fault.isSome && o.delivered == []) with
    | some o =>
      match o.fault with
      | some x => is.takeOpFault s o x
      | none => .wait s hold
    | none =>
      let ready := mine.filter (fun o => o.fault.isSome && o.delivered.all s.serviced)
      let s1 := s.updWg w.id (fun y =>
        { y with ops := y.ops.map (fun o => if ready.any (fun z => z.id == o.id) then o.resume else o) })
      if mine.all (fun o => o.phase == .finished) && w.tags.getLsbD t then
        .done ((s1.updWg w.id (fun y => { y with ops := y.ops.filter (fun o => !mine.any (fun z => z.id == o.id)) })).raise is
          (mine.foldl (fun (fl : BitVec 5) o => fl ||| o.flags) 0)) true
      else .wait s1 hold

/-- `mwait` (R327, R368). Once its transfers have run, a transfer fault recorded later is none of its own. -/
def execMwait (f : Fields) (s : State) : Out :=
  runOp (.mwait f) s (fun is =>
    let a := (is.word f.a is.l0).toNat
    let t := (is.word f.b is.l0).toNat
    if 3 < a ∨ is.r.eff.ctags ≤ t then .hit (Hit.plain .operandExtent is.mask 0)
    else
      let hold := is.horizon s
      if hold.kind = .ops then is.waitOps a t hold s
      else is.xferGate s hold false (is.waitOps a t { hold with kind := .ops }))

/-- The word of `mstate` (R352). -/
def State.mstateWord (s : State) (w : Workgroup) : Word :=
  let bit := fun (b : Bool) (k : Nat) => if b then 2 ^ k else 0
  let accs := List.range 4
  let resvs := (w.engine.toList ++ w.leaving).flatMap (fun n => (s.engine n).resvs.map (fun r => r.idx))
  BitVec.ofNat 32 (bit w.held.isSome 31 + bit (w.released != []) 30 +
    (match w.engine with | some n => n % 4 * 2 ^ 28 | none => 0) +
    (accs.map (fun a => bit (w.record a != []) (24 + a))).sum +
    (accs.map (fun a => bit ((w.record a).any (fun o => o.fault.isSome && o.delivered == [])) (20 + a))).sum +
    bit (w.xfaults != []) 19 + ((List.range 16).map (fun n => bit (resvs.contains n) n)).sum)

/-- `mstate` (R352). -/
def execMstate (f : Fields) (s : State) : Out :=
  runOp (.mstate f) s (fun is => is.writesWord s f.dest.toNat (fun _ => s.mstateWord is.w))

end Sys2Proof.Machine
end

