-- ==== Sys2Proof/Machine/Queue.lean ====
section
/-! DEFINITION. Class 0x6, queues: `qfeed`, `qpop`, `qstate`, and the completion of a feed (R235 to R239, R286, R287). -/

namespace Sys2Proof.Machine

/-- The entries of queue `q`, oldest first. -/
def Group.queue (g : Group) (q : Nat) : List QEntry := g.feeds.filter (fun e => e.queue == q)

/-- Changes the entry with identity `id`. -/
def Group.updEntry (g : Group) (id : Nat) (f : QEntry → QEntry) : Group :=
  { g with feeds := g.feeds.map (fun e => if e.id = id then f e else e) }

/-- A new entry of queue `q`: tile `t` or a register entry. -/
def Issue.newEntry (is : Issue) (s : State) (f : Fields) : QEntry :=
  let l := is.lane 0
  let q := quals is.g f true false [.generic]
  { id := s.seq, queue := f.spec.toNat % 8, tile := if f.mod.getLsbD 0 then some (f.spec.extractLsb' 4 4) else none,
    addr := is.addr f.a 0, count := (is.word f.b 0).toNat, pos := l.pos, func := l.func,
    acquire := q.acquires, notag := q.notag, bytes := [], level := 4, complete := false, fault := none,
    delivered := none }

/-- `qfeed`, in an access slice (R236). -/
def execQfeed (f : Fields) (s : State) : Out :=
  runOp (.qfeed f) s (fun is =>
    let n := (is.word f.b 0).toNat
    if n = 0 ∨ 128 < n ∨ is.r.eff.qdepth = 0 then .hit (Hit.plain .operandExtent is.mask 0)
    else if is.r.eff.qdepth ≤ (is.g.queue (f.spec.toNat % 8)).length then .stay s
    else
      .done ({ s with seq := s.seq + 1 }.updGroup is.g.core is.g.slot (fun g => { g with feeds := g.feeds ++ [is.newEntry s f] }))
        false)

/-- The access slice has ended; a region without one counts as having ended it (R237, R286). -/
def Group.sliceEnded (g : Group) : Bool :=
  match g.acc with
  | some a => a.ended
  | none => true

/-- A fault that a `qpop` took is serviced, where it stands for that: the feed is tried again, or the slice goes on (R237, R287). -/
def Group.takenServiced (g : Group) (taken : Option Bool) : Bool :=
  match taken with
  | some nested => g.servicedAs nested
  | none => false

/-- The fault that stopped the access slice, until it has been serviced (R287). -/
def Group.sliceFault (g : Group) : Option FaultInfo :=
  match g.acc with
  | some a => if a.ended || g.takenServiced a.taken then none else a.stopped
  | none => none

/-- A `qpop` takes the fault of the stopped access slice: the record names the slice's position and function. The slice goes on at
that position once the fault has been serviced (R287). -/
def State.takeSlice (s : State) (is : Issue) (x : FaultInfo) : State :=
  match is.g.acc with
  | none => s
  | some a =>
    ((s.squash is.g.core is.g.slot true).updGroup is.g.core is.g.slot (fun g =>
      { g with level := 0, acc := g.acc.map (fun a => { a with taken := some g.episode.isSome }) })).deliver is.g.core is.g.slot
      { cls := x.cls, mask := is.mask, lanes := is.mask, addr := x.addr, stage2 := x.stage2, pos := a.lane.pos, func := a.lane.func.toNat,
        asl := true, origin := none }

/-- The entry has a fault that has been serviced: its feed is tried again (R237). -/
def QEntry.again (e : QEntry) (g : Group) : Bool := e.fault.isSome && g.takenServiced e.delivered

/-- Word `L` of an entry. -/
def QEntry.word (e : QEntry) (L : Nat) : Word := BitVec.ofNat 32 (readLE e.bytes (4 * L) 4)

/-- What `qpop` finds at its queue (R237, R287). -/
inductive PopState where
  /-- no entry: the slice has ended, has stopped, or runs -/
  | ended
  | slice (x : FaultInfo)
  | pending
  /-- a complete entry without a fault -/
  | ready (e : QEntry)
  /-- a fault to take, and one that has been taken and is now retried -/
  | fault (e : QEntry) (x : FaultInfo)
  | retry (e : QEntry)
  deriving DecidableEq, Repr

def Group.popState (g : Group) (q : Nat) : PopState :=
  match (g.queue q).head? with
  | none =>
    match g.sliceFault with
    | some x => .slice x
    | none => if g.sliceEnded then .ended else .pending
  | some e =>
    if e.tile.isSome || !e.complete then .pending
    else
      match e.fault with
      | none => .ready e
      | some x => if e.again g then .retry e else .fault e x

/-- The wait of a `qpop`. -/
def popWait : Wait := { kind := .other, cycles := 0, addr := 0, expired := false }

/-- `qpop` from its issue on, but for the slice's fault. -/
def Issue.pop (is : Issue) (s : State) (dest : Nat) (p : PopState) : Effect :=
  let core := is.g.core
  let slot := is.g.slot
  match p with
  | .ended | .slice _ => .hit (Hit.plain .operandExtent is.mask 0)
  | .pending => .wait s popWait
  | .retry e =>
    .wait (s.updGroup core slot (fun g => g.updEntry e.id (fun x => { x with complete := false, fault := none, delivered := none })))
      popWait
  | .fault e x =>
    .taken (s.updGroup core slot (fun g => g.updEntry e.id (fun y => { y with delivered := some g.episode.isSome })))
      { cls := x.cls, mask := is.mask, addr := x.addr, stage2 := x.stage2, origin := some e.pos }
  | .ready e =>
    .done ((s.writeLanes is (fun L l => l.setReg dest (e.word L))).updGroup core slot (fun g =>
      { g with feeds := g.feeds.filter (fun x => x.id != e.id), level := max g.level e.level })) true

/-- `qpop` (R237, R287). -/
def execQpop (f : Fields) (s : State) : Out :=
  let q := f.spec.toNat % 8
  match s.issue? with
  | none => .fault .noGroupInIssue
  | some is =>
    match issueCheck (.qpop f) s is, is.g.popState q with
    | none, .slice x => .next (s.takeSlice is x)
    | _, p => runOp (.qpop f) s (fun is => is.pop s f.dest.toNat p)

/-- The complete entries from the head up to the first incomplete one (R238). -/
def readyCount : List QEntry → Nat
  | [] => 0
  | e :: es => if e.complete then readyCount es + 1 else 0

/-- The word of `qstate` (R238, R287). -/
def Group.qstateWord (g : Group) (q : Nat) : Word :=
  let es := g.queue q
  let fault := (match es.head? with | some e => e.fault.isSome | none => false) || g.sliceFault.isSome
  BitVec.ofNat 32 ((if g.sliceEnded then 2 ^ 31 else 0) + (if fault then 2 ^ 30 else 0) + es.length * 2 ^ 16 + readyCount es)

/-- `qstate` (R238). -/
def execQstate (f : Fields) (s : State) : Out :=
  runOp (.qstate f) s (fun is => is.writesWord s f.dest.toNat (fun _ => is.g.qstateWord (f.spec.toNat % 8)))

/-- An earlier feed with acquire order whose read is not performed holds back a feed (R236). -/
def Group.feedHeld (g : Group) (id : Nat) : Bool := g.feeds.any (fun e => e.id < id && e.acquire && (!e.complete || e.fault.isSome))

/-- The owner of a feed. -/
def feedOwner (g : Group) (w : Workgroup) (e : QEntry) : Owner :=
  { vf := w.vf, ctx := w.ctx, rcb := w.rcb, key := agentKey e.id 0, core := g.core, slot := g.slot, start := g.start, pos := e.pos, func := e.func, clears := false }

/-- The pieces that a feed reads; none where its address, of the right form, names the flat window and so no device memory (R227, R236). -/
def State.feedPieces (s : State) (w : Workgroup) (e : QEntry) : Option (List Piece) :=
  let ps := piecesOf e.addr 0 e.count 0 false
  if addrFormOk e.addr 0 && ps.any (fun p => s.inWindow w.vf (addrVa p.addr)) then none else some ps

/-- The entry is complete: with its bytes, or with a fault (R235, R236). -/
def State.endFeed (s : State) (core slot : Nat) (e : QEntry) (bytes : Sparse 8) (level : Nat) (x : Option FaultInfo) : State :=
  s.updGroup core slot (fun g => g.updEntry e.id (fun y => { y with complete := true, bytes := bytes, level := level, fault := x, delivered := none }))

/-- The read of a feed, or the fault that it records (R236, R293). -/
def State.runFeed (s : State) (g : Group) (w : Workgroup) (e : QEntry) : State :=
  match s.feedPieces w e with
  | none => s.endFeed g.core g.slot e [] 4 (some { cls := .translation, addr := e.addr, stage2 := false })
  | some ps =>
    match s.chunkTurn (feedOwner g w e) 0 none false e.notag ps with
    | .go s1 pl =>
      let far := if pl.any (fun x => Config.cxlBase ≤ x.2.1) then 5 else 4
      (s1.count g.core w.vf w.ctx 0x0B 1).endFeed g.core g.slot e (s1.readPieces pl) far none
    | .fail s1 x => s1.endFeed g.core g.slot e [] 4 (some x)
    | .absent s1 | .stay s1 => s1

/-- The read of an entry of the group's queues is performed, or tried again once its fault has been serviced (R236, R237). -/
def execFeedComplete (core slot entry : Nat) (s : State) : Out :=
  .next (match s.group? core slot with
  | none => s
  | some g =>
    match g.feeds.find? (fun e => e.id == entry), s.wg? g.wg with
    | some e, some w => if (e.complete && !e.again g) || g.feedHeld entry then s else s.runFeed g w e
    | _, _ => s)

end Sys2Proof.Machine
end

