-- ==== Sys2Proof/Machine/Tier.lean ====
section
/-! DEFINITION. Page tables as lists of leaves, residency sets, frames, and what a move of a page does (R110, R282, R290, R294, R399,
R410 to R412, R416). -/

namespace Sys2Proof.Machine

/-- The stage-two leaves that the 2 MiB guest virtual page at `va` is reached through. -/
def State.pageLeaves (s : State) (vf ctx va : Nat) : List Leaf :=
  (List.range 32).filterMap (fun i =>
    match s.stageOne true vf ctx (va + 65536 * i) with
    | .ok w => s.s2Leaf vf (w.frame + (va + 65536 * i) % 2 ^ w.bits)
    | _ => none)

/-- The pages of the residency set at `area`, by their addresses (R410). -/
def State.readSet (s : State) (vf ctx area : Nat) : List Nat :=
  (List.range ((s.devRead vf ctx area 4).getD 0)).map (fun i =>
    bitsOf ((s.devRead vf ctx (area + 16 + 8 * i) 8).getD 0) 55 21 * 2 ^ 21)

/-- The residency-set area of a context. -/
def State.setArea (s : State) (vf ctx : Nat) : Nat := (s.cxReg vf ctx 0x110).toNat % 2 ^ 56

/-- A page of the set is resident: it is mapped, and whole in the fast tier (R110). -/
def State.resident (s : State) (vf ctx va : Nat) : Bool :=
  let ls := s.pageLeaves vf ctx va
  !ls.isEmpty && ls.all (fun l => l.tier == 0)

/-- S of a region's residency gate, and F (R110). -/
def State.gateSizes (s : State) (r : Region) : Nat × Nat :=
  ((s.devRead r.vf r.ctx r.eff.rset 4).getD 0, (s.cxReg r.vf r.ctx 0x118).toNat)

/-- The residency gate of a region is met (R110, R412). -/
def State.gateMet (s : State) (r : Region) : Bool :=
  let (n, f) := s.gateSizes r
  if r.eff.rset = 0 ∨ n = 0 ∨ !s.hasCxl then true
  else
    let t := if r.eff.thresh = 0 then 900 else r.eff.thresh
    let have_ := ((s.readSet r.vf r.ctx r.eff.rset).filter (s.resident r.vf r.ctx)).length
    (t * min n f + 999) / 1000 ≤ have_

/-- The region is admitted on the reduced target (R111). -/
def State.thinFor (s : State) (r : Region) : Bool :=
  let (n, f) := s.gateSizes r
  r.eff.rset != 0 && f < n

/-- The context's slice starts: the touch bits of the VF's leaves that map the context's fast-tier frames are cleared (R410; log entry 58). -/
def State.startSlice (s : State) (vf ctx : Nat) : State :=
  if s.ctxSlices.contains (vf, ctx) then s
  else
    { s with
      mem := (s.fastLeaves vf ctx).foldl (fun m l => if l.touched then writeLE m l.pa 1 (readLE m l.pa 1 - 16) else m) s.mem,
      ctxSlices := (vf, ctx) :: s.ctxSlices }

/-- The 2 MiB guest virtual pages that a stage-one leaf maps. -/
def Leaf.bigPages (l : Leaf) : List Nat :=
  (List.range (max 1 (2 ^ l.bits / 2 ^ 21))).map (fun i => l.base / 2 ^ 21 * 2 ^ 21 + i * 2 ^ 21)

/-- The 2 MiB pages of a context that are reached through a touched leaf, ascending (R410). -/
def State.touchedPages (s : State) (vf ctx : Nat) : List Nat :=
  ((s.s1Leaves vf ctx).flatMap Leaf.bigPages).foldl (fun ps p =>
    if ps.contains p ∨ !(s.pageLeaves vf ctx p).any (fun l => l.touched) then ps else ps ++ [p]) []

/-- The tier engine writes `n` bytes of device memory itself: its writes are not logged (R417). -/
def State.engineWrite (s : State) (vf ctx va n v : Nat) : State :=
  match s.placeShared false vf ctx va true with
  | .ok pa _ path leaves => (s.storeLE pa n v).noteAccess vf none path leaves true
  | .transit => s.hold
  | .fill a => s.holdFill vf ctx a
  | _ => s

/-- The words of a residency set with the pages `kept`, from its offset 8 on: `more` were touched (R410). -/
def setWords (more : Bool) (kept : List Nat) : List (Nat × Nat × Nat) :=
  [(8, 4, if more then 2 ^ 31 else 0), (12, 4, 0)] ++ (List.range kept.length).map (fun i => (16 + 8 * i, 8, (kept[i]?).getD 0))

/-- The context's slice ends: its residency set is recorded, by writes of the tier engine itself (R410, R417). -/
def State.endSlice (s : State) (vf ctx : Nat) : State :=
  let s1 := { s with ctxSlices := s.ctxSlices.filter (fun x => x != (vf, ctx)) }
  let area := s.setArea vf ctx
  if !s.ctxSlices.contains (vf, ctx) then s1
  else
    let pages := s.touchedPages vf ctx
    let cap := (s.devRead vf ctx (area + 4) 4).getD 0
    let kept := pages.take cap
    if !s.rangeWritable vf ctx area (16 + 8 * kept.length) then s1.vfErr vf 4
    else
      ((0, 4, kept.length) :: setWords (decide (cap < pages.length)) kept).foldl (fun s x => s.engineWrite vf ctx (area + x.1) x.2.1 x.2.2) s1

/-- Copies a page with its tags and its poison (R294, R297). -/
def State.copyPage (s : State) (src dst n : Nat) : State :=
  { s with
    mem := s.mem.paste dst n (s.mem.slice src n), tags := s.tags.paste (dst / 32) (n / 32) (s.tags.slice (src / 32) (n / 32)),
    poison := s.poison.paste (dst / 32) (n / 32) (s.poison.slice (src / 32) (n / 32)) }

/-- The page must be written: it has been written through its leaf, or no frame of it in the CXL range is known (R411). -/
def State.mustCopy (s : State) (mv : PageMove) : Bool :=
  !inCxl mv.dst || bitsOf (readLE s.mem mv.leaf 8) 5 5 == 1 ||
    !(s.tierPages.any (fun t => t.vf == mv.vf && t.gpa == mv.gpa && t.cxl == mv.dst))

/-- The tier engine's knowledge of a page after a move: the frame in the CXL range, and the holder of the fast-tier frame. -/
def State.learn (s : State) (mv : PageMove) : State :=
  let old := s.tierPages.find? (fun t => t.vf == mv.vf && t.gpa == mv.gpa)
  let cxl := if inCxl mv.dst then some mv.dst else if inCxl mv.src then some mv.src else old.map (fun t => t.cxl)
  let rest := s.tierPages.filter (fun t => !(t.vf == mv.vf && t.gpa == mv.gpa))
  match cxl with
  | some c =>
    { s with tierPages := { vf := mv.vf, gpa := mv.gpa, bits := mv.bits, cxl := c, holder := if inCxl mv.dst then none else some mv.ctx } :: rest }
  | none => { s with tierPages := rest }

/-- An address in a page that has moved, in its new frame. -/
def PageMove.rekey (mv : PageMove) (a : Nat) : Nat :=
  if mv.src ≤ a ∧ a < mv.src + 2 ^ mv.bits then a - mv.src + mv.dst else a

/-- What a posted write does, at the places where its locations now stand. -/
def PageMove.rekeyEffect (mv : PageMove) (e : PostedEffect) : PostedEffect :=
  match e with
  | .store pa bs => .store (mv.rekey pa) bs
  | .signal p v q k => .signal (mv.rekey p) v (mv.rekey q) k
  | .red op ty rnd ftz pa v => .red op ty rnd ftz (mv.rekey pa) v
  | .tag g n t => .tag (mv.rekey (32 * g) / 32) n t
  | .fold pa h => .fold (mv.rekey pa) h

/-- The table entries of a note, where they now stand. -/
def PageMove.rekeyNote (mv : PageMove) (n : Note) : Note := { n with path := n.path.map mv.rekey, leaves := n.leaves.map mv.rekey }

/-- A wait, with the table entries of its latch's page. -/
def PageMove.rekeyWait (mv : PageMove) (w : Wait) : Wait := { w with note := mv.rekeyNote w.note }

/-- What a group knows by physical address: its latches, and the granules that its detector watches. -/
def PageMove.rekeyGroup (mv : PageMove) (g : Group) : Group :=
  let granules := fun (gs : List Nat) => gs.map (fun k => mv.rekey (32 * k) / 32)
  { g with
    holds := g.holds.map (fun (h : Hold) => { h with pa := mv.rekey h.pa, note := mv.rekeyNote h.note }),
    wait := g.wait.map mv.rekeyWait, kept := g.kept.map (fun (k : KeptWait) => { k with wait := mv.rekeyWait k.wait }),
    iters := g.iters.map (fun (x : Iteration) => { x with granules := granules x.granules }), watched := granules g.watched,
    demos := g.demos.map (fun (d : Demotion) => { d with watched := granules d.watched }) }

/-- The same of a saved workgroup. -/
def PageMove.rekeySaved (mv : PageMove) (y : SavedWg) : SavedWg := { y with groups := y.groups.map mv.rekeyGroup }

/-- What is known by physical address follows a page into its new frame: the queues of its latches, who holds them, in saved workgroups and in
checkpoints too, and the posted writes on their way to it (R250 to R252, R282, R318, R442). -/
def State.follow (s : State) (mv : PageMove) : State :=
  { s with
    groups := s.groups.map mv.rekeyGroup,
    slots := s.slots.map (fun (x : ShadowSlot) => { x with wgs := x.wgs.map mv.rekeySaved }),
    checkpoints := s.checkpoints.map (fun (c : Checkpoint) => { c with wgs := c.wgs.map mv.rekeySaved }),
    latchQs := s.latchQs.map (fun (q : LatchQueue) => { q with pa := mv.rekey q.pa }),
    posted := s.posted.map (fun (p : Posted) => { p with eff := mv.rekeyEffect p.eff, notes := p.notes.map mv.rekeyNote }) }

/-- A move ends: the page stands in its new frame, the leaf says so, the old fast-tier frame is zeroed and free, and every TLB drops the
page; the promotions that stand by for a frame come first (R282, R399, R411). -/
def State.endMove (s : State) (mv : PageMove) : State :=
  let n := 2 ^ mv.bits
  let s1 := if s.mustCopy mv then s.copyPage mv.src mv.dst n else s
  let s2 := if inCxl mv.src then s1 else s1.zeroMem mv.src n
  let m := setLeaf s2.mem mv.leaf (if inCxl mv.dst then 1 else 0) mv.dst
  let m1 := if inCxl mv.dst ∧ bitsOf (readLE m mv.leaf 8) 5 5 = 1 then writeLE m mv.leaf 1 (readLE m mv.leaf 1 - 32) else m
  let s3 := { s2 with mem := m1, moves := s2.moves.filter (fun x => x.id != mv.id) }
  (((s3.learn mv).follow mv).dropPage mv.vf mv.gpa mv.bits).serveFills

/-- A leaf's page belongs to the residency set of a context (R410, R411). -/
def State.inSet (s : State) (vf ctx : Nat) (l : Leaf) : Bool :=
  (s.readSet vf ctx (s.setArea vf ctx)).any (fun va => (s.pageLeaves vf ctx va).any (fun y => y.pa == l.pa))

/-- The first leaf in the capacity tier, in ascending order, of the set at `area`. -/
def State.nextUp (s : State) (vf ctx area : Nat) : Option Leaf :=
  (s.readSet vf ctx area).findSome? (fun va => (s.pageLeaves vf ctx va).find? (fun l => l.tier == 1))

/-- The page that the tier engine promotes next for the current context's set: in ascending order, until the context holds min(S, F) frames
(R411). -/
def State.setUp (s : State) (vf : Nat) : Option Leaf :=
  let cur := s.curCtx vf
  match s.nextUp vf cur (s.setArea vf cur) with
  | some l =>
    if s.framesHeld vf cur + frameCount l.bits ≤ min ((s.devRead vf cur (s.setArea vf cur) 4).getD 0) (s.framesOf vf cur) then some l else none
  | none => none

/-- The current context of a VF changes: the fast-tier pages of the outgoing set that are not in the incoming one are to go down (R411). -/
def State.outgoing (s : State) (vf out inc : Nat) : State :=
  let pages := ((s.readSet vf out (s.setArea vf out)).flatMap (s.pageLeaves vf out)).filter (fun l => l.tier == 0 && !s.inSet vf inc l)
  let left := s.downs.filter (fun d => !(d.1 == vf && (s.s2Leaf vf d.2.2).any (s.inSet vf inc)))
  { s with downs := (left ++ pages.map (fun l => (vf, out, l.base))).eraseDups }

/-- The context for which a fast-tier page goes down: one that was current, with the page in its set and not in the current one's, since the change; or,
when the pool is empty, the saved context that holds the page (R411, R412). -/
def State.downFor (s : State) (p vf : Nat) (l : Leaf) : Option Nat :=
  match s.downs.find? (fun d => d.1 == vf && d.2.2 == l.base) with
  | some d => if s.inSet vf (s.curCtx vf) l then none else some d.2.1
  | none =>
    match s.victim p with
    | some (v, c, y) => if v = vf ∧ y.pa = l.pa ∧ (s.freeFrame p l.bits).isNone then some c else none
    | none => none

end Sys2Proof.Machine
end

