-- ==== Sys2Proof/Machine/Ready.lean ====
section
/-! DEFINITION. What the region arbiter decides: effective priorities, the readiness of a region, and its launch fault (R98, R104, R105,
R108 to R111). -/

namespace Sys2Proof.Machine

/-- The region is alive: read by the arbiter, and not finished. -/
def Region.open_ (r : Region) : Bool := !r.isRoot && 1 ≤ r.st && r.st ≤ 6

/-- `r` lies in the subtree of `c`. -/
def State.within (s : State) (r c : Region) : Bool :=
  (r.vf == c.vf && r.rcb == c.rcb) || s.descends s.regions.length r c

/-- The region `p` lifts the region `r`: one of its groups waits on the latch of a descendant whose subtree holds `r`, or `p` is in state
6 (R109). -/
def State.lifts (s : State) (p r : Region) : Bool :=
  p.open_ && s.descends s.regions.length r p &&
    (p.st == 6 || (s.regions.filter (fun c => !c.done && s.descends s.regions.length c p && s.within r c)).any (fun c =>
      (s.wgsOf p).any (fun w => (s.liveGroups w).any (fun g =>
        match g.wait with
        | some { kind := .latch, addr := a, .. } =>
          (match s.placeShared true p.vf p.ctx (addrVa a) false with
           | .ok pa _ _ _ => s.regionLatch c == some pa
           | _ => false)
        | _ => false))))

/-- Base and aged priority of a region: the greater (R108). -/
def Region.ownPrio (r : Region) : Nat := max r.eff.prio (min 15 (r.eff.prio + r.waitedQuanta / 16))

/-- The effective priority of a region, with lifts over at most `n` steps (R108, R109). -/
def State.prioIn (s : State) : Nat → Region → Nat
  | 0, r => r.ownPrio
  | n + 1, r => ((s.regions.filter (fun p => p.vf == r.vf && s.lifts p r)).map (s.prioIn n)).foldl max r.ownPrio

def State.eprio (s : State) (r : Region) : Nat := s.prioIn s.regions.length r

/-- The core-cycles of one quantum of a region (R107; log entry 54). -/
def Region.quantumWork (r : Region) : Int := ((r.eff.quantum * 1024 * r.eff.cores : Nat) : Int)

/-- A region in state 4 or 5 whose effective priority has changed enters the ring of the new one: D is 0, and it stands at the tail; one that runs
then gets the quantum of the head of that ring, where it stands as soon as those before it have had their turn (R107; log entry 54). -/
def State.enterRing (s : State) (r : Region) (e : Nat) : State :=
  if (r.st = 4 ∨ r.st = 5) ∧ r.ringPrio ≠ e then
    { s with seq := s.seq + 1 }.updRegion r.vf r.rcb (fun x =>
      { x with deficit := if r.st = 5 then r.quantumWork else 0, ring := s.seq, ringPrio := e })
  else s

/-- The arbiter writes the effective priority where it has changed (R97). -/
def State.writePrio (s : State) (r : Region) : State :=
  let s1 := s.enterRing r (s.eprio r)
  if r.open_ ∧ r.field s1 0xD8 4 ≠ s.eprio r then s1.onRegion r (fun s2 => s2.devWrite r.vf r.ctx (r.va + 0xD8) 4 (s.eprio r)) else s1

/-- The effective priorities of a VF's regions, written. -/
def State.writePrios (s : State) (vf : Nat) : State :=
  (s.regions.filter (fun r => r.vf == vf)).foldl State.writePrio s

/-- deps of a region, signed (R97). -/
def State.deps (s : State) (r : Region) : Int := (BitVec.ofNat 32 (r.field s 0x50 4)).toInt

/-- The parent is the root, or runs (R104). -/
def State.parentRuns (s : State) (r : Region) : Bool :=
  match s.region? r.vf r.parent with
  | some p => p.isRoot || p.st == 5 || p.st == 6
  | none => false

/-- Its cores and engines fit in its parent's unused budget (R104, R106). -/
def State.budgetFits (s : State) (r : Region) : Bool :=
  match s.region? r.vf r.parent with
  | some p =>
    let (c, e) := s.unusedBudget p
    (r.eff.cores : Int) ≤ c && (r.eff.engines : Int) ≤ e
  | none => false

/-- The state from 1 to 4 in which a region that has passed its checks stands (R98, R104). A region that waits for its latch alone stands
in state 3. -/
def State.judge (s : State) (r : Region) : Nat :=
  if s.deps r ≠ 0 then 1
  else if !s.gateMet r then 2
  else if s.budgetFits r && s.parentRuns r && r.latch == .granted then 4
  else 3

/-- A region takes a launch fault: fcode, state 8, the latch, the signal, and the record in its own domain (R105). Where the record stands among
these, R105 does not say: the model writes it last (log entry 99). -/
def State.launchFail (s : State) (r : Region) (fcode : Nat) : State :=
  let s1 := (s.writeRcbState r r.st fcode).writeRcbState r 8 fcode
  let s2 := s1.updRegion r.vf r.rcb (fun x => { x with st := 8 })
  let s3 := ((s2.dropRegionLatch r).updRegion r.vf r.rcb (fun x => { x with latch := .none })).decSignal r
  s3.launchFault r r.eff.domain (BitVec.ofNat 64 r.va)

/-- The arbiter judges a region of which it can read every word (R104, R105). One that becomes READY enters its ring (R107); what it has waited in
state 4 before stays with it (R108). -/
def State.judgeNow (s : State) (r : Region) : State :=
  if s.deps r < 0 then s.launchFail r 8
  else
    let n := s.judge r
    if n = r.st then s
    else
      let s1 := s.setRegionState r n
      if n = 4 then
        { s1 with seq := s1.seq + 1 }.updRegion r.vf r.rcb (fun x => { x with deficit := 0, ring := s1.seq, ringPrio := s.eprio { r with st := 4 } })
      else s1

/-- The arbiter judges a region that waits to be admitted (R104, R105). It leaves the regions of other contexts as they are (R449; log entry 55). -/
def State.rejudge (s : State) (vf rcb : Nat) : State :=
  match s.region? vf rcb with
  | none => s
  | some r =>
    if r.isRoot ∨ r.st = 0 ∨ 4 < r.st ∨ r.ctx ≠ s.curCtx vf ∨ r.ending then s
    else s.onRegion r (fun s => s.judgeNow r)

/-- The arbiter judges every region of a VF that waits, joins those that have only descendants left, and writes the priorities. -/
def State.rejudgeVf (s : State) (vf : Nat) : State :=
  let names := (s.regions.filter (fun r => r.vf == vf)).map (fun r => r.rcb)
  (names.foldl (fun s x => s.settleRegion vf x) (names.foldl (fun s x => s.rejudge vf x) s)).writePrios vf

/-- The arbiter judges the regions of every VF. -/
def State.rejudgeAll (s : State) : State :=
  ((List.range 64).filter (fun v => s.regions.any (fun r => r.vf == v))).foldl State.rejudgeVf s

/-- The page that the tier engine can promote next for a region that waits for residency (R110). -/
def State.gatePage (s : State) (r : Region) : Option Leaf :=
  if !r.isRoot && r.st == 2 && r.ctx == s.curCtx r.vf then
    (s.nextUp r.vf r.ctx r.eff.rset).filter (fun l => s.canFill r.vf r.ctx l.base)
  else none

/-- The page that the tier engine promotes next for the gated regions of a partition, with its VF: for the region of the highest effective priority
(R110). -/
def State.gateUp (s : State) (p : Nat) : Option (Nat × Leaf) :=
  let rs := s.regions.filter (fun r => s.partOf r.vf == some p && (s.gatePage r).isSome)
  match rs.find? (fun r => rs.all (fun q => s.eprio q ≤ s.eprio r)) with
  | some r => (s.gatePage r).map (fun l => (r.vf, l))
  | none => none

end Sys2Proof.Machine
end

