-- ==== Sys2Proof/Machine/Sync.lean ====
section
/-! DEFINITION. Class 0x7: bindings, latches, merges, fences, `wsig`, workgroup barriers and die barriers (R115 to R117, R249 to R265,
R269, R293, R313 to R320). -/

namespace Sys2Proof.Machine

/-- The access of a latch word by the group in issue (R228, R249). -/
def Issue.latchReq (is : Issue) (x : Dword) : Req :=
  { is.onceReq x 0 8 with writes := true, align := 8, device := true, kind := 1 }

/-- The access of an operation that changes the word: a protected byte makes it a fault (R49, R228). -/
def Issue.latchWrite (is : Issue) (x : Dword) : Req := { is.latchReq x with guarded := true }

/-- The range of a latch word that watch units check; `wr` for `bind` and `unbind` (R436). -/
def Issue.latchRange (is : Issue) (x : Dword) (wr : Bool) : WatchRange :=
  { lane := is.l0, ds := false, va := addrVa x, n := 8, reads := true, writes := wr, report := x }

/-- Performs `body` on the latch word at `x`, which `q` accesses, where it lies; `more` are the accesses that come with it, before its own.
-/
def Issue.onLatch (is : Issue) (s : State) (more : List Touch) (x : Dword) (q : Req) (wr release : Bool) (scope : Scope)
    (body : State → Spot → Effect) : Effect :=
  is.whole (is.accessWith s more [is.latchRange x wr] [q] release scope (fun s1 sps =>
    match sps.head? with
    | some sp => body (s1.noteSpot is sp) sp
    | none => .hit (Hit.plain .operandExtent is.mask x)))

/-- The first byte of `[r, r + n)` that a binding of the context holds (R250). -/
def State.firstBound (s : State) (vf ctx r n : Nat) : Option Nat :=
  ((s.bindings.filter (fun b => b.vf == vf && b.ctx == ctx && meets r n b.start b.len)).map (fun b => max r b.start)).min?

/-- `bind` (R250; log entry 45). -/
def execBind (f : Fields) (s : State) : Out :=
  runOp (.bind f) s (fun is =>
    let x := is.destAddr f is.l0
    let r := addrVa x
    let n := (is.word f.a is.l0).toNat
    let l := is.addr f.b is.l0
    let bad := fun a => Effect.hit (Hit.plain .operandExtent is.mask a)
    if !addrFormOk x 0 ∨ r % 32 ≠ 0 ∨ n = 0 ∨ n % 32 ≠ 0 ∨ addrVa l % 8 ≠ 0 then bad x
    else
      match s.firstBound is.w.vf is.w.ctx r n with
      | some a => bad (BitVec.ofNat 64 a)
      | none =>
        if 4096 ≤ (s.bindings.filter (fun b => b.vf == is.w.vf && b.ctx == is.w.ctx)).length then bad x
        else
          is.onLatch s [] l (is.latchReq l) true false .system (fun s1 _ =>
            .done { s1 with
              bindings := s1.bindings ++ [{ vf := is.w.vf, ctx := is.w.ctx, start := r, len := n, latch := l }] } true))

/-- The shadow copies of the bindings `bs`, in ascending order of die (R269). -/
def State.shadowsOf (s : State) (bs : List Binding) : List Shadow :=
  let mine := s.shadows.filter (fun h => bs.any (fun b => b.vf == h.vf && b.ctx == h.ctx && b.start ≤ h.loc && h.loc < b.start + b.len))
  (List.range 8).flatMap (fun d => mine.filter (fun h => h.die == d))

/-- Where the home of a shadow copy lies, by the checks of R228 on a write of it. A merge writes its homes without the check for live frames and barrier
objects, and checks no memory tag (R49, R269, R295). -/
def State.homePlace (s : State) (h : Shadow) : Place :=
  match s.place h.vf h.ctx h.loc true (2 ^ 62 + h.die * 2 ^ 57 + h.loc) with
  | .ok pa g path leaves => if s.poisoned pa (h.ty.bits / 8) then .fail .poison false else .ok pa g path leaves
  | p => p

/-- A shadow copy, and the place of its home as a merge has found it. -/
structure Home where
  h : Shadow
  pa : Nat
  gpage : Option Nat
  path : List Nat
  leaves : List Nat
  deriving DecidableEq, Repr

/-- The home of a shadow copy, where it passes its checks. -/
def State.homeOf (s : State) (h : Shadow) : Option Home :=
  match s.homePlace h with
  | .ok pa g path leaves => some { h := h, pa := pa, gpage := g, path := path, leaves := leaves }
  | _ => none

/-- A merge of a shadow copy is an access of its home. -/
def Home.touches (x : Home) : List Touch := touchesOf x.pa (x.h.ty.bits / 8) 1

/-- What a merge finds at its homes, before it writes anything. -/
inductive MergeGate where
  | go (homes : List Home)
  | no (e : Effect)

/-- The failed check of a home of a merge, an absent peer being one. -/
def Issue.homeFails (is : Issue) (s : State) (h : Shadow) : Option Hit :=
  match s.homePlace h with
  | .fail c b => some { Hit.plain c is.mask (BitVec.ofNat 64 h.loc) with stage2 := b }
  | .absent => some (Hit.plain .peerAbsent is.mask (BitVec.ofNat 64 h.loc))
  | _ => none

/-- The checks of every home of a merge: where one names an absent peer the merge waits first, as every access does, up to the limit; then the first home
in the order of the merge that fails a check decides (R228, R269, R282, R293, R317; log entry 47). -/
def Issue.mergeGate (is : Issue) (s : State) (hs : List Shadow) : MergeGate :=
  match hs.find? (fun h => s.homePlace h == .absent), is.peerLimit with
  | some h, false => .no (.wait s { kind := .peer, cycles := 0, addr := BitVec.ofNat 64 h.loc, expired := false })
  | _, _ =>
    if hs.any (fun h => s.homePlace h == .transit) then .no (.stay s)
    else
      match hs.findSome? (fun h => match s.homePlace h with | .fill a => some a | _ => none), hs.findSome? (is.homeFails s) with
      | some a, _ => .no (.stay (s.holdFill is.w.vf is.w.ctx a))
      | none, some x => .no (.hit x)
      | none, none => .go (hs.filterMap s.homeOf)

/-- A shadow copy is taken: a reduction that retires now starts a fresh one (R272). -/
def State.takeShadow (s : State) (h : Shadow) : State := { s with shadows := s.shadows.filter (fun x => x != h) }

/-- Folds one shadow copy into its home, and discards it (R269). -/
def State.mergeOne (s : State) (is : Issue) (x : Home) : State :=
  let n := x.h.ty.bits / 8
  let s1 := (s.flushOwn is x.pa n).noteAccess is.w.vf x.gpage x.path x.leaves true
  let r := x.h.fold (readLE s1.mem x.pa n)
  (((s1.storeLE x.pa n r.bits).noteRecent is.g.start x.pa (readBytes s1.mem x.pa n)).flagsToOwner is.g.core is.g.slot is.g.start r.flags).takeShadow x.h

/-- Merges shadow copies (R269). -/
def State.merge (s : State) (is : Issue) (xs : List Home) : State := xs.foldl (fun s x => s.mergeOne is x) s

/-- A fold that a merge still owes its home, as a posted write that counts in no c.acks. -/
def Issue.fold (is : Issue) (s : State) (x : Home) : Posted :=
  is.posting s (.fold x.pa x.h) [{ gpage := x.gpage, path := [], leaves := x.leaves }] false false

/-- The operation in issue, by its position and its function. -/
def Issue.opKey (is : Issue) : Word × BitVec 16 := (is.pos, (is.lane is.l0).func)

/-- A merge takes all its shadow copies in one step, and owes them to their homes; what is left of its operation comes after them (R272, R273; log entry
47). -/
def State.oweMerge (s : State) (is : Issue) (xs : List Home) : State :=
  (xs.foldl (fun s x =>
    let s1 := s.noteAccess is.w.vf x.gpage x.path x.leaves false
    { s1 with posted := s1.posted ++ [is.fold s1 x], seq := s1.seq + 1 }.takeShadow x.h) s).updGroup is.g.core is.g.slot (fun g =>
      { g with merged := some is.opKey })

/-- The operation in issue has taken its shadow copies in an earlier step. -/
def Issue.merged (is : Issue) : Bool := is.g.merged == some is.opKey

/-- The end of an operation whose merge owed its homes: it waits until they are all written, and then makes the access of its latch word at `pa`, where it
has one; its checks and its watch units came before the merge (R269, R273, R443, R445). -/
def Issue.endMerge (is : Issue) (s : State) (pa : Option Nat) (body : State → State) : Effect :=
  let ts := match pa with | some a => touchesOf a 8 1 | none => []
  if s.owesFolds is.g || s.replayFull is.accessor ts then .stay s
  else
    match s.replayGate is.accessor.key is.w.vf is.w.ctx (ts.map (s.touchEntry is.accessor)) with
    | .go s1 => .done ((body (s1.recordTouches is.accessor ts)).updGroup is.g.core is.g.slot (fun g => { g with merged := none })) true
    | .stay s1 => .stay s1
    | .stop => .stay (s.replayStop is.accessor)

/-- How many writes of device memory the dirty log of a VF has room for; `n` where it does not log (R413). -/
def State.logRoom (s : State) (vf n : Nat) : Nat :=
  let (k, w, r) := s.dirtyLog vf
  if s.logging vf then 2 ^ k - logFill k w r else n

/-- The dirty log has room for every home of a merge, and for its latch word (R413). -/
def State.mergeRoom (s : State) (vf : Nat) (xs : List Home) : Bool :=
  let n := (xs.filter (fun x => x.gpage.isSome)).length
  n == 0 || n + 1 ≤ s.logRoom vf (n + 1)

/-- A merge's checks, then `body`, which folds every copy into its home. Where the dirty log has no room for all the homes, the copies are taken in this
step, after the watch units of the ranges `rs`, and folded in as the log drains; the operation ends after that, with `Issue.endMerge` (R269, R272, R273,
R413, R427; log entry 47). -/
def Issue.merging (is : Issue) (s : State) (rs : List WatchRange) (hs : List Shadow) (body : List Home → Effect) : Effect :=
  match is.mergeGate s hs with
  | .no (.hit h) => is.inTurn s (((hs.filterMap s.homeOf).flatMap Home.touches).map (s.touchEntry is.accessor)) h
  | .no e => e
  | .go xs =>
    if s.mergeRoom is.w.vf xs then body xs
    else
      match is.watchHit s rs with
      | some (us, m, a) => .watch us m a
      | none => .stay (s.oweMerge is xs)

/-- `unbind` (R250, R269). -/
def execUnbind (f : Fields) (s : State) : Out :=
  runOp (.unbind f) s (fun is =>
    let x := is.destAddr f is.l0
    match s.bindings.find? (fun b => b.vf == is.w.vf && b.ctx == is.w.ctx && b.start == addrVa x), addrFormOk x 0 with
    | some b, true =>
      let remove := fun (s : State) => { s with bindings := s.bindings.filter (fun y => y != b) }
      if is.merged then is.endMerge s ((s.spotOf is (is.latchReq b.latch)).map Spot.pa) remove
      else
      match s.checkReqs is [is.latchReq b.latch] with
      | .go _ =>
        is.merging s [is.latchRange b.latch true] (s.shadowsOf [b]) (fun xs =>
          is.onLatch s (xs.flatMap Home.touches) b.latch (is.latchReq b.latch) true false .system (fun s1 _ =>
            .done (remove (s1.merge is xs)) true))
      | _ => is.onLatch s [] b.latch (is.latchReq b.latch) true false .system (fun s1 _ => .done s1 true)
    | _, _ => .hit (Hit.plain .operandExtent is.mask x))

/-- The group's hold of the latch at virtual address `va` (R251). -/
def Group.holdOf (g : Group) (va : Nat) : Option Hold := g.holds.find? (fun h => addrVa h.va == va)

/-- The group waits in, or has been granted, the acquire in issue. -/
def Group.acquiring (g : Group) (k : WaitKind) : Bool :=
  match g.wait with
  | some w => w.kind == k
  | none => false

/-- The latch word at `pa`, which the address `va` names, and the bytes of SRAM that bindings of the context bind to it (R250, R314). -/
def Issue.boundRanges (is : Issue) (s : State) (pa va : Nat) : List (Nat × Nat) :=
  (pa, 8) :: (s.bindingsTo is.w.vf is.w.ctx va pa).filterMap (fun b => s.windowPart is.w.vf b.start b.len)

/-- The group has been granted the latch at `pa`: what it reads later of the word and of the bound bytes is nothing that a holder before it has
overwritten (R313, R314; log entry 33). -/
def Issue.granted (is : Issue) (s : State) (pa va : Nat) : State :=
  (is.boundRanges s pa va).foldl (fun s r => s.readHere is r.1 r.2) s

/-- The group joins the latch's queue, and is granted what can be granted; its wait names what a grant's entry in the log names (R251, R443). -/
def Issue.join (is : Issue) (s : State) (sp : Spot) (x : Dword) (excl : Bool) : Effect :=
  let hold : Wait :=
    { kind := .latch, cycles := 0, addr := x, expired := false, pos := is.pos, func := (is.lane is.l0).func, mask := is.mask, note := sp.note }
  let s1 := s.updGroup is.g.core is.g.slot (fun g => { g with wait := some hold })
  let s2 := (s1.joinLatch sp.pa (.group is.g.core is.g.slot excl) Note.noted).grantAll sp.pa
  match s2.group? is.g.core is.g.slot with
  | some g => if g.acquiring .granted then .done (is.granted s2 sp.pa (addrVa x)) true else .queued s2 hold
  | none => .queued s2 hold

/-- `acq.x` and `acq.s` (R251). -/
def acquire (f : Fields) (excl : Bool) (s : State) (is : Issue) : Effect :=
  let x := is.destAddr f is.l0
  let bad := Effect.hit (Hit.plain .operandExtent is.mask x)
  if is.g.acquiring .granted then .done (is.granted s (((is.g.holdOf (addrVa x)).map (fun h => h.pa)).getD 0) (addrVa x)) true
  else if is.g.acquiring .latch then .wait s (is.g.wait.getD { kind := .latch, cycles := 0, addr := x, expired := false })
  else if !addrFormOk x 0 ∨ addrVa x % 8 ≠ 0 then bad
  else
    let held := is.g.holdOf (addrVa x)
    if (match held with | some h => excl || h.excl | none => 8 ≤ is.g.holds.length) then bad
    else
      is.onLatch s [] x (is.latchWrite x) false false .system (fun s1 sp =>
        if held.isSome && !(readLatch s1.mem sp.pa).x then
          .done (is.granted ((s1.updLatch is.w.vf sp.pa Note.noted (fun l => { l with shared := l.shared + 1 })).updGroup is.g.core is.g.slot
            (Group.hold sp.pa x false sp.note)) sp.pa (addrVa x)) true
        else is.join s1 sp x excl)

/-- `acq.x` (R251). -/
def execAcqX (f : Fields) (s : State) : Out := runOp (.acqX f) s (acquire f true s)

/-- `acq.s` (R251). -/
def execAcqS (f : Fields) (s : State) : Out := runOp (.acqS f) s (acquire f false s)

/-- The shadow copies that a `rel` merges: at package or system scope those of every binding to its latch, which stands at `pa` (R252). -/
def Issue.mergedBy (is : Issue) (s : State) (scope : Scope) (va pa : Nat) : List Shadow :=
  if 4 ≤ scopeRank scope then s.shadowsOf (s.bindingsTo is.w.vf is.w.ctx va pa) else []

/-- One hold of a latch less in a group's table (R252). -/
def Group.unhold (pa : Nat) (g : Group) : Group :=
  { g with
    holds := (g.holds.map (fun h => if h.pa = pa then { h with count := h.count - 1 } else h)).filter (fun h => h.count != 0) }

/-- The word of the latch at `pa` names the group as its exclusive holder (R249). -/
def Issue.holdsX (is : Issue) (s : State) (pa : Nat) : Bool :=
  let l := readLatch s.mem pa
  l.x && l.core == is.g.core && l.slot == is.g.slot

/-- A `rel` gives up one hold of the latch at `pa`, which is granted to those who wait for it; `n` says how its page is marked (R251, R252). -/
def State.giveUp (s : State) (is : Issue) (h : Hold) (pa : Nat) (n : Note) : State :=
  ((s.clearHold is.w.vf pa (is.holdsX s pa) n).updGroup is.g.core is.g.slot (Group.unhold h.pa)).grantAll pa

/-- `rel` (R252, R269, R293). -/
def execRel (f : Fields) (s : State) : Out :=
  runOp (.rel f) s (fun is =>
    let x := is.destAddr f is.l0
    let sc := (quals is.g f false true [.generic]).scope
    match is.g.holdOf (addrVa x), addrFormOk x 0 with
    | some h, true =>
      if is.merged then is.endMerge s (some h.pa) (fun s1 => s1.giveUp is h h.pa h.note)
      else
      match s.checkReqs is [is.latchWrite x], is.releaseGate s true sc with
      | .go sps, none =>
        is.merging s [is.latchRange x false] (is.mergedBy s sc (addrVa x) (sps.head?.elim h.pa Spot.pa)) (fun xs =>
          is.onLatch s (xs.flatMap Home.touches) x (is.latchWrite x) false true sc (fun s1 sp =>
            .done ((s1.merge is xs).giveUp is h sp.pa Note.noted) true))
      | _, _ => is.onLatch s [] x (is.latchWrite x) false true sc (fun s1 _ => .done s1 true)
    | _, _ => .hit (Hit.plain .operandExtent is.mask x))

/-- `fence` (R254, R302): its acquire component comes after the reads that the group has still to make; its release component waits as a release
does. -/
def execFence (f : Fields) (s : State) : Out :=
  runOp (.fence f) s (fun is =>
    match is.releaseGate s (f.mod.getLsbD 1) (quals is.g f true true [.generic]).scope with
    | some e => e
    | none =>
      if f.mod.getLsbD 0 && is.reading then .wait s { kind := .slot, cycles := 0, addr := 0, expired := false } else .done s true)

/-- The accesses of one lane's `wsig`: the payload's, then the flag's (R255, R436). -/
def Issue.signalReqs (is : Issue) (f : Fields) (q : Quals) (L : Nat) : List Req :=
  [laneReq L (is.destAddr f L) 0 4 q false true, { laneReq L (is.addr f.b L) 0 4 q true true with posts := true }]

/-- The spots of lane `L`'s payload and flag. -/
def signalSpots (sps : List Spot) (L : Nat) : Option (Spot × Spot) :=
  match sps.filter (fun sp => sp.req.lane == L) with
  | p :: fl :: _ => some (p, fl)
  | _ => none

/-- A lane's payload and flag have different homes (R320). -/
def homesDiffer (sps : List Spot) (L : Nat) : Bool :=
  match signalSpots sps L with
  | some (p, fl) => homeDie p.pa != homeDie fl.pa
  | none => false

/-- `wsig` (R255, R320). -/
def execWsig (f : Fields) (s : State) : Out :=
  runOp (.wsig f) s (fun is =>
    let q := quals is.g f false true [.generic, .dieStore]
    let reqs := is.active.flatMap (is.signalReqs f q)
    let go := is.access s reqs false q.scope (fun s1 sps =>
      .done (is.active.foldl (fun s L =>
        match signalSpots sps L with
        | some (p, fl) => s.writeOut is [p, fl] (.signal p.pa (is.word f.a L) fl.pa (is.word f.c L))
        | none => s) s1) true)
    match s.checkReqs is reqs with
    | .go sps =>
      match is.active.find? (homesDiffer sps) with
      | some L => .hit (Hit.plain .operandExtent (maskOf (fun K => is.mask.getLsbD K && homesDiffer sps K)) (is.addr f.b L))
      | none => go
    | _ => go)

/-- The access of a barrier object at `x` (R257): in the allocation, or at a die-store offset; the recorder knows it as a write, but that of a wait as a
read (R443). -/
def Issue.barReq (is : Issue) (die : Bool) (kind L : Nat) (x : Dword) : Req :=
  { is.onceReq x 0 16 with
    lane := L, writes := true, align := 16, kind := kind, space := if die then .dieStore else .generic, report := x }

/-- The address of an object that no barrier of this kind can have (R257, R265). -/
def Issue.barBad (is : Issue) (s : State) (die : Bool) (x : Dword) : Bool :=
  !addrFormOk x 0 || addrVa x % 16 != 0 || (!die && (is.outside s x 16).isSome)

/-- Performs `body` on the object at `x`, with its physical address: a barrier operation performed once (R229, R257; log entry 44). -/
def Issue.onBar (is : Issue) (s : State) (die : Bool) (kind : Nat) (x : Dword) (release : Bool) (body : State → Nat → Effect) : Effect :=
  if is.barBad s die x then .hit (Hit.plain .operandExtent is.mask x)
  else
    is.whole (is.accessOn s [] [is.barReq die kind is.l0 x] release (if die then .die else .workgroup) (fun s1 sps =>
      match sps.head? with
      | some sp => body s1 sp.pa
      | none => .hit (Hit.plain .operandExtent is.mask x)))

/-- The live workgroup barrier at `pa`. -/
def Workgroup.bar? (w : Workgroup) (pa : Nat) : Option Barrier := w.bars.find? (fun b => b.pa == pa)

/-- The live die barrier at `pa`. -/
def State.dieBar? (s : State) (pa : Nat) : Option DieBarrier := s.dieBars.find? (fun b => b.pa == pa)

/-- Every saved group. -/
def State.savedGroups (s : State) : List Group := s.slots.flatMap (fun sl => sl.wgs.flatMap (fun w => w.groups))

/-- A group of workgroups `p` waits on the barrier at virtual address or offset `va`. -/
def State.waitedOn (s : State) (k : WaitKind) (va : Nat) (p : Group → Bool) : Bool :=
  let on := fun (w : Wait) => w.kind == k && addrVa w.addr == va
  (s.groups ++ s.savedGroups).any (fun g => p g &&
    ((match g.wait with | some w => on w | none => false) || g.kept.any (fun x => on x.wait)))

/-- The fields of a barrier at its `init` (R259). -/
def BarFields.init (e : Nat) : BarFields :=
  { phase := 0, expected := e, arrivals := 0, drops := 0, linked := false, tag := 0, balance := 0 }

/-- The members of a new workgroup barrier (R258). -/
def State.barMembers (s : State) (w : Workgroup) : List (Nat × Mask) :=
  (s.groups.filter (fun (g : Group) => g.wg == w.id)).map (fun (g : Group) => (g.slot, maskOf (fun L => (g.lane L).life != .retired)))

/-- `bar.init` (R258, R259). -/
def execBarInit (f : Fields) (s : State) : Out :=
  runOp (.barInit f) s (fun is =>
    let x := is.destAddr f is.l0
    let e := (is.word f.a is.l0).toNat
    let bad := Effect.hit (Hit.plain .operandExtent is.mask x)
    is.onBar s false 1 x false (fun s1 pa =>
      match is.w.bar? pa with
      | some _ =>
        if e = (readBar s1.mem pa).expected then .done s1 true
        else if e = 0 ∧ !s1.waitedOn .barrier (addrVa x) (fun (g : Group) => g.wg == is.w.id) then
          .done ((s1.updWg is.w.id (fun w => { w with bars := w.bars.filter (fun b => b.pa != pa) })).clearMarks pa) true
        else bad
      | none =>
        if e = 0 ∨ 65535 < e ∨ 8 ≤ is.w.bars.length then bad
        else
          .done (((s1.storeBytes pa (BarFields.init e).bytes).updWg is.w.id (fun w =>
            { w with bars := w.bars ++ [{ pa := pa, off := pa - is.w.pa, members := s1.barMembers is.w }] })).clearMarks pa) true))

/-- One lane's part in a `bar.arrive`: its barrier, and its count. -/
structure Arrival where
  lane : Nat
  x : Dword
  pa : Nat
  count : Nat
  deriving DecidableEq, Repr

/-- The failed check of a lane of `bar.arrive`, or none (R228, R265). -/
def Issue.arriveFails (is : Issue) (s : State) (x : Dword) (L : Nat) : Option Failure :=
  let extent : Failure := { lane := L, cls := .operandExtent, addr := x, stage2 := false }
  if is.barBad s false x then some extent
  else
    match s.failure is false (is.barReq false 1 L x) with
    | some y => some y
    | none => if (is.w.bar? (is.w.pa + (addrVa x - addrVa (s.allocVa is.w)))).isNone then some extent else none

/-- The arrivals of one barrier: their sum, and the lanes whose count is not zero (R115, R258). -/
def arrivalsAt (as : List Arrival) (pa : Nat) : Nat × Mask :=
  let mine := as.filter (fun a => a.pa == pa)
  ((mine.map (fun a => a.count)).sum, maskOf (fun L => mine.any (fun a => a.lane == L && a.count != 0)))

/-- A group's arrived mark for a barrier grows (R258). -/
def Group.arrive (pa : Nat) (m : Mask) (g : Group) : Group :=
  { g with arrived := (pa, g.arrivedIn pa ||| m) :: g.arrived.filter (fun p => p.1 != pa) }

/-- The arrivals of one `bar.arrive` on one barrier (R115, R260). -/
def State.arriveOn (s : State) (is : Issue) (as : List Arrival) (b : Barrier) : State :=
  let (n, m) := arrivalsAt as b.pa
  if n = 0 then s
  else
    (s.updGroup is.g.core is.g.slot (Group.arrive b.pa (m &&& b.laneMembers is.g.slot))).barStep b.pa
      (fun x => { x with arrivals := x.arrivals + n })

/-- `bar.arrive` (R115, R116, R260, R265). -/
def execBarArrive (f : Fields) (s : State) : Out :=
  runOp (.barArrive f) s (fun is =>
    let reqs := is.active.map (fun L => is.barReq false 1 L (is.destAddr f L))
    match chooseFault (is.active.filterMap (fun L => is.arriveFails s (is.destAddr f L) L)) with
    | some h => is.inTurn s ((is.touches (reqs.filterMap (s.spotOf is))).map (s.touchEntry is.accessor)) h
    | none =>
      is.accessOn s [] reqs true .workgroup (fun s1 sps =>
        let as := is.active.filterMap (fun L =>
          (spotOfLane sps L).map (fun sp => { lane := L, x := is.destAddr f L, pa := sp.pa, count := (is.word f.a L).toNat : Arrival }))
        let tooMany := fun (a : Arrival) =>
          (readBar s1.mem a.pa).expected < (readBar s1.mem a.pa).arrivals + (arrivalsAt as a.pa).1
        match as.find? tooMany with
        | some a => .hit (Hit.plain .operandExtent is.mask a.x)
        | none => .done (is.w.bars.foldl (fun s b => s.arriveOn is as b) s1) true))

/-- The wait that the group makes passed its limit with the phase still incomplete (R117). -/
def Issue.expired (is : Issue) (k : WaitKind) : Bool :=
  match is.oldWait is.g with
  | some w => w.kind == k && w.expired
  | none => false

/-- The physical address of a barrier of this kind at virtual address or offset `x`, for a group of workgroup `w` on core `core` (R257). -/
def State.barPa (s : State) (w : Workgroup) (core : Nat) (die : Bool) (x : Dword) : Nat :=
  if die then s.dsPa w.vf w.ctx (core / 64) (addrVa x) else w.pa + (addrVa x - addrVa (s.allocVa w))

/-- The phase for which a barrier wait of a group of workgroup `w` on core `core` waits has not completed (R117, R261). -/
def State.waitOpen (s : State) (w : Workgroup) (core : Nat) (x : Wait) : Bool :=
  match x.kind with
  | .barrier => !phasePassed (readBar s.mem (s.barPa w core false x.addr)).phase x.phase
  | .dieBarrier => !phasePassed (readBar s.mem (s.barPa w core true x.addr)).phase x.phase
  | _ => false

/-- The waits for a phase. One that its checks let through, but replay mode, the recorder or an older copy's reads hold back, waits as another does; its
cycles count while `State.counts` says so (R117, R261). -/
def barWait (f : Fields) (die : Bool) (live : State → Nat → Bool) (s : State) (is : Issue) : Effect :=
  let x := is.destAddr f is.l0
  let kind : WaitKind := if die then .dieBarrier else .barrier
  let hold : Wait := { kind := kind, cycles := 0, addr := x, expired := false, phase := (is.word f.a is.l0).toNat }
  if is.expired kind then .hit (Hit.plain .barrierTimeLimit is.mask x)
  else
    match is.onBar s die 0 x false (fun s1 pa =>
      if !live s1 pa then .hit (Hit.plain .operandExtent is.mask x)
      else if phasePassed (readBar s1.mem pa).phase (is.word f.a is.l0).toNat then .done s1 true
      else .wait s1 hold) with
    | .stay s1 => if live s1 (s1.barPa is.w is.g.core die x) && s1.waitOpen is.w is.g.core hold then .wait s1 hold else .stay s1
    | e => e

/-- `bar.wait` (R117, R261). -/
def execBarWait (f : Fields) (s : State) : Out :=
  runOp (.barWait f) s (fun is => barWait f false (fun _ pa => (is.w.bar? pa).isSome) s is)

/-- `bar.expect` (R262). -/
def execBarExpect (f : Fields) (s : State) : Out :=
  runOp (.barExpect f) s (fun is =>
    let x := is.destAddr f is.l0
    let n := (is.word f.a is.l0).toNat
    is.onBar s false 1 x false (fun s1 pa =>
      if (is.w.bar? pa).isNone ∨ 2 ^ 30 < n ∨ 2 ^ 31 ≤ (readBar s1.mem pa).balance + n then
        .hit (Hit.plain .operandExtent is.mask x)
      else .done (s1.barStep pa (fun b => { b with balance := b.balance + n })) true))

/-- Unlinks a barrier's tag where `p` holds of its fields. -/
def State.unlink (s : State) (pa : Nat) (p : BarFields → Bool) : State :=
  let b := readBar s.mem pa
  if b.linked && p b then s.storeBytes pa ({ b with linked := false, tag := 0 } : BarFields).bytes else s

/-- `bar.link` (R262). -/
def execBarLink (f : Fields) (s : State) : Out :=
  runOp (.barLink f) s (fun is =>
    let x := is.destAddr f is.l0
    let t := is.word f.a is.l0
    is.onBar s false 1 x false (fun s1 pa =>
      if (is.w.bar? pa).isNone then .hit (Hit.plain .operandExtent is.mask x)
      else if t = 0xFFFFFFFF then .done (s1.unlink pa (fun _ => true)) true
      else if is.r.eff.ctags ≤ t.toNat then .hit (Hit.plain .operandExtent is.mask x)
      else
        let s2 := (is.w.bars.filter (fun b => b.pa != pa)).foldl (fun s b => s.unlink b.pa (fun y => y.tag == t.toNat)) s1
        .done (s2.storeBytes pa ({ readBar s2.mem pa with linked := true, tag := t.toNat } : BarFields).bytes) true))

/-- The state of die `d` in m.diest: 0 online, 1 moving, 2 draining, 3 offline, 4 fenced (R415). -/
def State.dieState (s : State) (d : Nat) : Nat := bitsOf (s.reg 0x104).toNat (4 * d + 3) (4 * d)

/-- The clusters of partition `p` on die `d`, ascending; a die that is not online counts as holding none (R112, R416). -/
def State.clustersOn (s : State) (p d : Nat) : List Nat :=
  if s.dieState d ≠ 0 then []
  else (List.range 16).filterMap (fun k => if (s.partReg p 0x008).getLsbD (16 * d + k) then some (16 * d + k) else none)

/-- The physical die that grid die `d` maps to (R112). -/
def State.gridDie (s : State) (p d : Nat) : Option Nat := ((List.range 4).filter (fun k => s.clustersOn p k != []))[d]?

/-- The workgroup with place `lin` in the grid of a region has ended. -/
def State.linEnded (s : State) (r : Region) (lin : Nat) : Bool :=
  lin % r.eff.nwg < (r.begun.look (lin / r.eff.nwg)).toNat && !(s.wgsOf r).any (fun w => w.lin == lin && !w.ended)

/-- The members of a new die barrier of a region on die `d` (R258). -/
def State.dieMembers (s : State) (r : Region) (d : Nat) : List Nat :=
  match s.partOf r.vf with
  | none => []
  | some p =>
    (List.range r.eff.gridSize).filter (fun lin => !s.linEnded r lin &&
      (match (s.wgsOf r).find? (fun w => w.lin == lin) with
       | some w => w.core / 64 == d
       | none => s.gridDie p (lin / (r.eff.nclu * r.eff.nwg)) == some d))

/-- `dbar.init` (R258, R259). -/
def execDbarInit (f : Fields) (s : State) : Out :=
  runOp (.dbarInit f) s (fun is =>
    let x := is.destAddr f is.l0
    let e := (is.word f.a is.l0).toNat
    let bad := Effect.hit (Hit.plain .operandExtent is.mask x)
    let near := fun (g : Group) => g.core / 64 == is.die &&
      (match s.wg? g.wg with | some w => w.vf == is.w.vf && w.ctx == is.w.ctx | none => false)
    is.onBar s true 1 x false (fun s1 pa =>
      match s1.dieBar? pa with
      | some _ =>
        if e = (readBar s1.mem pa).expected then .done s1 true
        else if e = 0 ∧ !s1.waitedOn .dieBarrier (addrVa x) near then
          .done { s1 with dieBars := s1.dieBars.filter (fun b => b.pa != pa) } true
        else bad
      | none =>
        let mine := s1.dieBars.filter (fun b => b.vf == is.w.vf && b.rcb == is.w.rcb && b.die == is.die)
        if e = 0 ∨ 65535 < e ∨ 4 ≤ mine.length then bad
        else
          let b : DieBarrier :=
            { pa := pa, die := is.die, vf := is.w.vf, rcb := is.w.rcb, members := s1.dieMembers is.r is.die, arrived := [] }
          let s2 := s1.storeBytes pa (BarFields.init e).bytes
          .done { s2 with dieBars := s2.dieBars ++ [b] } true))

/-- The workgroup's arrived mark for a die barrier (R258, R260). -/
def DieBarrier.mark (w : Workgroup) (b : DieBarrier) : DieBarrier :=
  if b.vf = w.vf ∧ b.rcb = w.rcb ∧ b.members.contains w.lin ∧ !b.arrived.contains w.lin then { b with arrived := w.lin :: b.arrived } else b

/-- `dbar.arrive` (R116, R260). -/
def execDbarArrive (f : Fields) (s : State) : Out :=
  runOp (.dbarArrive f) s (fun is =>
    let x := is.destAddr f is.l0
    let n := (is.word f.a is.l0).toNat
    is.onBar s true 1 x true (fun s1 pa =>
      let b := readBar s1.mem pa
      if (s1.dieBar? pa).isNone ∨ b.expected < b.arrivals + n then .hit (Hit.plain .operandExtent is.mask x)
      else if n = 0 then .done s1 true
      else
        .done (({ s1 with dieBars := s1.dieBars.map (fun (y : DieBarrier) => if y.pa = pa then y.mark is.w else y) }).barStep pa
          (fun y => { y with arrivals := y.arrivals + n })) true))

/-- `dbar.wait` (R117, R261). -/
def execDbarWait (f : Fields) (s : State) : Out :=
  runOp (.dbarWait f) s (barWait f true (fun s pa => (s.dieBar? pa).isSome) s)

end Sys2Proof.Machine
end

