-- ==== Sys2Proof/Machine/TagOps.lean ====
section
/-! DEFINITION. Class 0xC, memory tags and `brk` (R247, R248, R433). -/

namespace Sys2Proof.Machine

/-- The operands of `stag` are out of range in lane `L` (R247). -/
def stagBad (e tag g : Nat) : Bool := e % 32 != 0 || 15 < tag || g == 0 || 4096 < g

/-- `[e, e + n)` piece by piece: of 256 bytes in the flat window, of 64 KiB elsewhere, and cut where the window begins and ends. -/
def State.stagPieces (s : State) (vf : Nat) (space : Space) (e n : Nat) : List (Nat × Nat) :=
  if space = .generic then
    let b := (s.lsBase vf).toNat
    let below := min n (b - e)
    let inside := min (n - below) (b + 2 ^ 28 - (e + below))
    pieces 65536 600 e below ++ pieces 256 600 (e + below) inside ++ pieces 65536 600 (e + below + inside) (n - below - inside)
  else pieces 65536 600 e n

/-- The accesses of one lane's `stag`: its granules, piece by piece, each with the checks that R247 leaves. -/
def State.stagReqs (s : State) (is : Issue) (q : Quals) (L : Nat) (x : Dword) (g : Nat) : List Req :=
  let e := addrVa x
  (s.stagPieces is.w.vf q.space e (32 * g)).map (fun p =>
    { laneReq L x ((p.1 : Int) - e) p.2 q false true with
      align := 1, device := true, checked := false, report := addrPlus x 0, kind := 2 })

/-- Adjacent spots of one lane that lie together in local store or die store are one write. -/
def joinSpots : List Spot → List Spot
  | [] => []
  | sp :: rest =>
    match joinSpots rest with
    | [] => [sp]
    | t :: ts =>
      if t.req.lane = sp.req.lane ∧ t.pa = sp.pa + sp.req.n ∧ isSram sp.pa ∧ homeDie t.pa = homeDie sp.pa then
        { sp with req := { sp.req with n := sp.req.n + t.req.n } } :: ts
      else sp :: t :: ts

/-- `stag` (R247; log entry 37). The operand check of every lane comes before the other checks of any (log entry 114). -/
def execStag (f : Fields) (s : State) : Out :=
  runOp (.stag f) s (fun is =>
    let q := quals is.g f false true [.generic, .dieStore]
    let addr := is.destAddr f
    match is.active.find? (fun L => stagBad (addrVa (addr L)) (is.word f.a L).toNat (is.word f.b L).toNat) with
    | some L => .hit (Hit.plain .operandExtent (maskOf (fun K => K == L)) (BitVec.ofNat 64 (addrVa (addr L))))
    | none =>
      let reqs := is.active.flatMap (fun L => s.stagReqs is q L (addr L) (is.word f.b L).toNat)
      is.access s reqs q.releases q.scope (fun s' sps =>
        let s1 := sps.foldl (fun s sp => s.noteSpot is sp) s'
        .done ((joinSpots sps).foldl (fun s sp =>
          s.writeOut is [sp] (.tag (sp.pa / 32) (sp.req.n / 32) ((is.word f.a sp.req.lane).setWidth 4))) s1) true))

/-- `ltag` (R248). -/
def execLtag (f : Fields) (s : State) : Out :=
  runOp (.ltag f) s (fun is =>
    let q := quals is.g f true false [.generic, .dieStore]
    let reqs := is.active.map (fun L =>
      { laneReq L (is.addr f.a L) 0 1 q true false with device := true, checked := false })
    is.access s reqs false q.scope (fun s' sps =>
      let s1 := sps.foldl (fun s sp => s.noteSpot is sp) s'
      .done (s1.writeLanes is (fun L l =>
        match spotOfLane sps L with
        | some sp => l.setReg f.dest.toNat ((s1.tags.look (sp.pa / 32)).setWidth 32)
        | none => l)) false))

/-- `brk`: retires, and debug-parks the group (R433). -/
def execBrk (f : Fields) (s : State) : Out :=
  runOp (.brk f) s (fun _ => .trap s .breakpoint 0)

end Sys2Proof.Machine
end

