-- ==== Sys2Proof/Machine/GroupEvents.lean ====
section
/-! DEFINITION. The events of groups, latches and posted writes: the choice of a run, demotions, the end of a group and of its workgroup,
the limits of waits, grants and acknowledgements (R65, R66, R86 to R88, R96, R117, R118, R228, R231, R251, R253, R317, R398). -/

namespace Sys2Proof.Machine

/-- The lanes of a count of 64 are demoted (R87). -/
def State.demoteNow (s : State) (g : Group) : State :=
  match s.wg? g.wg with
  | some w =>
    if 64 ≤ g.spinCount ∧ !g.spinOff then
      (s.updGroup g.core g.slot (Group.demote s.now)).count g.core w.vf w.ctx 0x0D 1
    else s
  | none => s

/-- A group dispatches a run (R66, R70). Of every demotion, other lanes were eligible at this run boundary (R88). -/
def Group.dispatch (seq : Nat) (run : Mask) (g : Group) : Group :=
  { g with run := run, lastDispatch := seq, issued := true, demos := g.demos.map (fun d => { d with otherEligible := true }) }

/-- The group as the next run boundary finds it: a count of 64 demotes its lanes (R87). -/
def Group.atBoundary (now : Nat) (g : Group) : Group := if g.spinOff then g else Group.demote now g

/-- The group in issue, at a run boundary, with the lane of its least position and the lanes there. -/
def Issue.nextRun (is : Issue) (s : State) : Option (Nat × Mask) :=
  (is.leastLane s.mem (lanesOf is.g.eligible)).map (fun L => (L, is.atLane s.mem (lanesOf is.g.eligible) L))

/-- A group is ready: at a run boundary, not parked, not stopping, with an eligible lane, and with its next run known: no page of the code that it
fetches there is on its way (R70, R282). -/
def State.ready (s : State) (g0 : Group) : Bool :=
  let g := g0.atBoundary s.now
  g.run == 0 && g.park.isNone && g.eligible != 0 &&
    (match s.wg? g.wg with
     | some w =>
       s.mayDispatch w &&
         (match s.region? w.vf w.rcb with
          | some r =>
            (match ({ g := g, w := w, r := r, acc := false, mask := 0 } : Issue).nextRun s with
             | some (L, _) =>
               (s.codePages w r (g.lane L).func.toNat (g.lane L).parcel).all (fun k => !s.busyPage w.vf w.ctx (k * 65536))
             | none => false)
          | none => false)
     | none => false)

/-- The group `g` is selected before the group `h`: its last dispatch is older, and of equal ones the lower slot comes first (R70). -/
def Group.older (g h : Group) : Bool := g.lastDispatch < h.lastDispatch || (g.lastDispatch == h.lastDispatch && g.slot ≤ h.slot)

/-- The groups on the issue slot of a group (R70). -/
def State.onSlot (s : State) (core slot : Nat) : List Group := s.groups.filter (fun (g : Group) => g.core == core && g.slot % 4 == slot % 4)

/-- The issue slot selects this group at its run boundary: of its ready groups the one whose last dispatch is the oldest. One that has yielded is not
ready while another is (R70, R71, R170). -/
def State.selects (s : State) (g : Group) : Bool :=
  let rs := (s.onSlot g.core g.slot).filter s.ready
  let qs := if rs.all (fun x => x.yielded) then rs else rs.filter (fun x => !x.yielded)
  qs.any (fun x => x.slot == g.slot) && qs.all (fun x => g.older x)

/-- An issue slot has dispatched a run: what a `yield` asked of its next run boundary is over (R170). -/
def State.endYields (s : State) (core slot : Nat) : State :=
  { s with groups := s.groups.map (fun (g : Group) => if g.core = core ∧ g.slot % 4 = slot % 4 then { g with yielded := false } else g) }

/-- The lanes `m`, which wait at the start of their function for its code to be read, take their first position, with the loops around it, or the fault
that the search for it meets (R33, R37, R57, R86). -/
def State.beginLanes (s : State) (is : Issue) (m : Mask) : State :=
  match s.readTrees is.w.vf is.w.ctx is.r.eff.image is.r.code with
  | .error x => s.awaitFault is.w.vf is.w.ctx (x.fault 0)
  | .ok t =>
    match (t.readFn (is.g.lane (lowest m)).func.toNat) with
    | .error x => s.awaitFault is.w.vf is.w.ctx (x.fault 0)
    | .ok e =>
      match t.firstParcel e with
      | .ok p => s.updGroup is.g.core is.g.slot (fun g =>
          { g with lanes := mapLanes (fun _ l => { l with pos := posWord 0 p, atStart := false }) m g.lanes, issued := true }.enterLoops m
            (t.loopsAround e.idx 0 p)) |>.codeRead is.w (t.startPages e p) []
      | .error f =>
        ((s.updGroup is.g.core is.g.slot (fun g =>
          { g with lanes := mapLanes (fun _ l => { l with pos := posWord 0 f.parcel }) m g.lanes, issued := true })).treeFault is.g.core is.g.slot
          ((lanesOf m).map (fun L => (L, f)))).codeRead is.w (t.fnPages e ++ t.startPages e f.parcel ++ t.triedPages e f.parcel) [f]

/-- The group dispatches the run of the lanes `run`, whose lowest is at the position of lane `L`, or its lanes there retry Enter, or take their first
position (R33, R58, R66, R439, R440). -/
def State.dispatchRun (s : State) (is : Issue) (L : Nat) (run : Mask) : State :=
  let core := is.g.core
  let slot := is.g.slot
  let waiting := maskOf (fun K => run.getLsbD K && (is.g.lane K).atStart)
  if waiting ≠ 0 then s.beginLanes is waiting
  else
  match is.fetch s (is.g.lane L) with
  | .header =>
    let is1 := { is with mask := run }
    let (s1, a) := s.settle is1 run run is.g.breakSkips (fun _ => .retry) 0
    ((s1.updGroup core slot (fun g => { g.follow a.repeated a.entered with breakSkips := is.g.useSkips run g.breakSkips, issued := true })).afterSettle is1
      a).endEpisode core slot
  | _ =>
    let s1 := { (s.endYields core slot).updGroup core slot (Group.dispatch s.seq run) with seq := s.seq + 1 }
    let s2 := (s1.updWg is.w.id (fun w => { w with started := true })).count core is.w.vf is.w.ctx 0x02 1
    (s2.tagRun is.g is.w is.r run).countMiss core is.w.vf is.w.ctx

/-- A group chooses its next run at a run boundary, where its issue slot selects it (R65, R66, R70, R71, R317). -/
def execSelectRun (core slot : Nat) (s : State) : Out :=
  match s.group? core slot with
  | none => .next s
  | some g0 =>
    if g0.run ≠ 0 then .next s
    else
      let s0 := s.demoteNow g0
      let s1 := s0.issueAs core slot false 0
      match s1.issue? with
      | none => .next s
      | some is =>
        if !s0.selects is.g then .next s0
        else
          match is.nextRun s1 with
          | some (L, run) => s1.onCode is.w is.r (is.g.lane L).func.toNat (is.g.lane L).parcel (fun t => .next (t.dispatchRun is L run))
          | none => .next s0

/-- The lanes of the group's quiet loop are demoted (R87). -/
def execDemotion (core slot : Nat) (s : State) : Out :=
  .next (match s.group? core slot with
  | none => s
  | some g => if g.run = 0 then s.demoteNow g else s)

/-- The demotion ends by its time: 4,096 cycles have passed, and a run of other lanes has retired since, or no other lane has been eligible at a run
boundary (R88). -/
def Demotion.over (now : Nat) (g : Group) (d : Demotion) : Bool :=
  d.began + 4096 ≤ now && (d.otherRan || !(d.otherEligible || g.run == 0 && g.eligible != 0))

/-- The demotions of a group that are over by their time end (R88). -/
def execDemotionEnd (core slot : Nat) (s : State) : Out :=
  .next (s.updGroup core slot (fun g => g.endDemotions (Demotion.over s.now g)))

/-- The implicit releases of a group wait for its writes and for the reads of its copies, in recovery mode only for those of its own die, and for the homes
of a merge that it has begun (R253, R273, R302, R319). -/
def State.releasesWait (s : State) (g : Group) (w : Workgroup) : Bool :=
  g.holds != [] && (w.unsettled (fun k => k == g.start) || s.owesFolds g || (!s.recovery && g.acks != 0))

/-- What is left of a workgroup that ends: its faulted copies, operations and transfers are discarded, its reservations released, its
engine on the way to be free (R243, R350, R351, R358). -/
def Workgroup.close (w : Workgroup) : Workgroup :=
  { w with
    ended := true, copies := w.copies.filter (fun c => c.fault.isNone), ops := w.ops.filter (fun o => o.fault.isNone),
    xfers := w.xfers.filter (fun x => !x.failed), xfaults := [], bars := [], releasing := w.engine.isSome }

/-- No engine stays set aside for a workgroup (R349). -/
def State.unsetAside (s : State) (id : Nat) : State :=
  { s with engines := s.engines.map (fun e => if e.aside = some id then { e with aside := none } else e) }

/-- The reservations of a workgroup that ends are released (R350, R399). -/
def State.releaseResvs (s : State) (w : Workgroup) : State :=
  (w.engine.toList ++ w.leaving).foldl (fun s n => s.putEngine { s.engine n with resvs := [], obuf := [] }) s

/-- A workgroup ends with its last group (R96, R112, R317, R399). -/
def State.endWorkgroup (s : State) (w : Workgroup) (r : Region) : State :=
  let s0 := s.flushWhere (fun p => p.eff.ranges.any (fun x => meets x.1 x.2 w.pa w.allocSize))
  let s1 := ((s0.recordPending r w).releaseResvs w).unsetAside w.id
  let s2 := (s1.updWg w.id Workgroup.close).zeroMem w.pa w.allocSize
  let gone : Workgroup := { w with copies := [], bars := [], ops := [], xfers := [], xfaults := [], engine := none, releasing := false, leaving := [] }
  (({ s2 with departed := gone :: s2.departed }).sweepWg w.id).settleRegion w.vf w.rcb

/-- The arrivals that the group in a slot owes are made, where they need not wait (R94, R311). -/
def State.payAt (s : State) (core slot : Nat) : State :=
  match s.group? core slot with
  | some g => s.payOwed g
  | none => s

/-- A group ends, after the arrivals that its killed lanes owe: its latches are released, its slot and its registers return, and the arbiter judges the
regions that wait (R94, R96, R104, R253, R286). -/
def execGroupEnd (core slot : Nat) (s0 : State) : Out :=
  let s := s0.payAt core slot
  .next (match s.group? core slot with
  | none => s
  | some g =>
    match s.wg? g.wg with
    | none => s
    | some w =>
      match s.region? w.vf w.rcb with
      | none => s
      | some r =>
        if !g.allRetired ∨ g.owed ≠ 0 ∨ s.releasesWait g w then s
        else
          let s1 := (g.holds.map (fun h => h.pa)).foldl (fun s pa => s.grantAll pa) (s.releaseHolds g)
          let s2 := s1.recordSlice g w r
          let s3 := { s2 with groups := s2.groups.filter (fun x => !(x.core == core && x.slot == slot)) }
          match s3.wg? w.id with
          | some w1 => (if s3.groups.any (fun x => x.wg == w.id) then s3 else s3.endWorkgroup w1 r).rejudgeVf w.vf
          | none => s3)

/-- The barrier wait that a group makes, where its limit has passed with the phase still incomplete: in the cycle in which the count reaches the limit
the phase may still complete, and the fault comes in the next (R117). -/
def Issue.overdue (is : Issue) : Option Dword :=
  match is.g.wait with
  | some w => if w.expired then some w.addr else none
  | none => none

/-- A barrier wait has passed its region's limit: the fault is precise at the wait (R117, R118). -/
def execBarrierTimeLimit (core slot : Nat) (s : State) : Out :=
  .next (match s.group? core slot with
  | none => s
  | some g =>
    let s1 := s.issueAs core slot false g.run
    match s1.issue? with
    | none => s
    | some is =>
      match is.overdue with
      | some x =>
        if g.run = 0 then s else s1.takeHit is (Hit.plain .barrierTimeLimit is.mask x)
      | none => s)

/-- The operations that may wait for an absent peer (R317). -/
def peerOp (i : Instr) (s : State) : Out :=
  match i with
  | .ld f => execLd f s
  | .st f => execSt f s
  | .ldX4 f => execLdX4 f s
  | .stX4 f => execStX4 f s
  | .atomAdd f => execAtomAdd f s
  | .atomMin f => execAtomMin f s
  | .atomMax f => execAtomMax f s
  | .atomAnd f => execAtomAnd f s
  | .atomOr f => execAtomOr f s
  | .atomXor f => execAtomXor f s
  | .atomXchg f => execAtomXchg f s
  | .atomCas f => execAtomCas f s
  | .redAdd f => execRedAdd f s
  | .redMin f => execRedMin f s
  | .redMax f => execRedMax f s
  | .redAnd f => execRedAnd f s
  | .redOr f => execRedOr f s
  | .redXor f => execRedXor f s
  | .stag f => execStag f s
  | .ltag f => execLtag f s
  | .wsig f => execWsig f s
  | .bind f => execBind f s
  | .unbind f => execUnbind f s
  | .acqX f => execAcqX f s
  | .acqS f => execAcqS f s
  | .rel f => execRel f s
  | _ => .next s

/-- A wait for an absent peer has reached its region's limit: the operation makes its last checks, and the absent peer fails the third
(R228, R317). -/
def execPeerAbsent (core slot : Nat) (s : State) : Out :=
  match s.group? core slot with
  | none => .next s
  | some g =>
    let s1 := s.issueAs core slot false g.run
    match s1.issue? with
    | none => .next s
    | some is =>
      match is.peerLimit, is.fetch s (g.lane (lowest g.run)) with
      | true, .op i => if g.run = 0 ∨ g.park.isSome then .next s else peerOp i s1
      | _, _ => .next s

/-- The latch is granted to the waiters that it can be granted to, and the arbiter sees its own grants; where the next grant stands at vf.rpls, the context
stops before it (R104, R251, R445). -/
def execLatchGrant (latch : Nat) (s : State) : Out :=
  let s1 := (s.grantAll latch).rejudgeAll
  .next (match s1.grantStop latch with
  | some ac => s1.replayStop ac
  | none => s1)

/-- Performs posted writes in their order, as far as the recorder and replay mode let them; a logged access at vf.rpls stops the context instead
(R318, R443, R445). -/
def State.performRun (s : State) : List Posted → State
  | [] => s
  | p :: ps =>
    match s.postedGate p with
    | .go s1 => (s1.performNow p).performRun ps
    | .stay s1 => s1
    | .stop => s.replayStop p.accessor

/-- A write posted to another die is performed at its home, after the older ones of its group that it follows at a common location, and acknowledged
to its group (R231, R318, R319, R398). -/
def execAcknowledge (write : Nat) (s : State) : Out :=
  .next (match s.posted.find? (fun (p : Posted) => p.id == write) with
  | none => s
  | some p =>
    let older := s.posted.filter (fun (q : Posted) => q.by p.core p.slot p.start && !q.performed && q.id < p.id)
    let s1 := if p.performed then s else s.performRun (Posted.before p.eff.ranges older.reverse ++ [p])
    if s1.posted.any (fun (q : Posted) => q.id == write && q.performed) then
      let s2 := { s1 with posted := s1.posted.filter (fun (q : Posted) => q.id != write) }
      if p.counted then s2.ackToOwner p.core p.slot p.start else s2
    else s1)

end Sys2Proof.Machine
end

