-- ==== Sys2Proof/Machine/System.lean ====
section
/-! DEFINITION. Class 0xB, control registers, `trap`, `halt`, `nop`, `probe` and `prof` (R89, R132, R134, R185 to R192, R201, R348,
R388, R435, R438). -/

namespace Sys2Proof.Machine

/-- Watch unit `k` of a core, if it is owned. -/
def State.watchUnit? (s : State) (core k : Nat) : Option WatchUnit := s.watch.find? (fun u => u.core == core && u.unit == k)

/-- The value of the control register with number `n` (R134, R186, R348, R435). -/
def State.ctlValue (s : State) (is : Issue) (n : Nat) : Dword :=
  let g := is.g
  match n with
  | 0x00 => (Config.caps s.part).setWidth 64
  | 0x01 => ((g.mdef &&& 0x7FFFFFFF#32) ||| (if s.ovr is.w.vf is.w.ctx then 0x80000000#32 else 0)).setWidth 64
  | 0x02 => g.flags.setWidth 64
  | 0x03 => is.w.tags
  | 0x04 => BitVec.ofNat 64 g.acks
  | 0x05 => BitVec.ofNat 64 (g.demotions % 65536 * 65536 + g.spinCount % 64 * 256 + (if g.spinOff then 1 else 0))
  | 0x06 => g.trapCtl
  | 0x07 => g.sample
  | 0x08 => s.lsBase is.w.vf
  | _ =>
    if n < 0x20 then
      match is.w.releasing, is.w.engine with
      | false, some e => (s.engine e).tdesc.look (n - 0x10)
      | _, _ => 0
    else
      match s.watchUnit? g.core (n - 0x20) with
      | some u => if u.vf = is.w.vf ∧ u.ctx = is.w.ctx then u.value else 0
      | none => 0

/-- `ctl.get` (R186). -/
def execCtlGet (f : Fields) (s : State) : Out :=
  runOp (.ctlGet f) s (fun is =>
    let v := s.ctlValue is f.spec.toNat
    .done (s.writeLanes is (fun _ l =>
      if Role.ctl.isPair f then l.setPair f.dest.toNat v else l.setReg f.dest.toNat (v.extractLsb' 0 32))) false)

/-- The checks of a write of `c.mdef` (R132). -/
def mdefOk (x : Word) : Bool :=
  (x &&& 0x1001FFFF#32) == 0 && (Scope.ofCode (x.extractLsb' 23 3)).isSome && (Space.ofCode (x.extractLsb' 20 3)).isSome &&
    (Policy.ofCode (x.extractLsb' 17 3)).isSome

/-- A value of a watch unit breaks R435: a reserved bit, a reserved scope, or misaligned base bits. -/
def watchBad (v : Dword) : Bool :=
  v.extractLsb' 56 2 != 0 || 6 ≤ bitsOf v.toNat 63 61 || bitsOf v.toNat 55 5 % 2 ^ bitsOf v.toNat 4 0 != 0

/-- The cores that hold a workgroup of a region within a scope around `core` (R435). -/
def State.watchCores (s : State) (vf rcb core scope : Nat) : List Nat :=
  let near := fun c =>
    match scope with
    | 3 => c / 4 == core / 4
    | 4 => c / 64 == core / 64
    | 5 => true
    | _ => false
  (List.range 256).filter (fun c => c != core && near c &&
    s.wgs.any (fun w => w.vf == vf && w.rcb == rcb && w.core == c && !w.saved && !w.ended))

/-- A copy of a unit on core `c`, unless another context owns the unit there (R435). -/
def State.copyWatch (s : State) (u : WatchUnit) (c : Nat) : State :=
  match s.watchUnit? c u.unit with
  | some o =>
    if o.vf = u.vf ∧ o.ctx = u.ctx then
      { s with watch := { u with core := c, copyOf := some u.core } :: s.watch.filter (fun x => !(x.core == c && x.unit == u.unit)) }
    else s
  | none => { s with watch := { u with core := c, copyOf := some u.core } :: s.watch }

/-- Writes a watch unit: the writer owns it, its earlier copies are cleared, and a unit of scope 3 to 5 is copied (R435). -/
def State.setWatch (s : State) (is : Issue) (k : Nat) (v : Dword) : State :=
  let u : WatchUnit :=
    { core := is.g.core, unit := k, value := v, vf := is.w.vf, ctx := is.w.ctx, rcb := is.w.rcb, lane := is.l0, slot := is.g.slot,
      wg := is.w.id, start := is.g.start, copyOf := none }
  let s1 := { s with watch := u :: s.watch.filter (fun x =>
    !(x.unit == k && (x.core == is.g.core || x.copyOf == some is.g.core))) }
  (s.watchCores is.w.vf is.w.rcb is.g.core u.scope).foldl (fun s c => s.copyWatch u c) s1

/-- A write of a register of the group that has reserved and writable bits: the group after it, or none for a reserved bit. Flags that asynchronous
operations raise in the same cycle are ORed into the written ones (R8, R187). -/
def setGroupReg (now n : Nat) (x : Dword) (g : Group) : Option Group :=
  let w := x.extractLsb' 0 32
  match n with
  | 0x01 => if mdefOk w then some { g with mdef := w &&& 0x6FFE0000#32 } else none
  | 0x02 => if w &&& 0xFFFFFFE0#32 = 0 then some { g with flags := w ||| (if g.lateAt = now then g.lateFlags else 0) } else none
  | 0x05 =>
    if w &&& 0xFE#32 = 0 then
      if w.getLsbD 0 then some { (if g.demoted = 0 then g else g.endDemotion) with spinOff := true }
      else some { g with spinOff := false }
    else none
  | 0x06 =>
    if x &&& 0xFFFF0000FFFF73E0#64 = 0 then
      some { g with trapCtl := (g.trapCtl &&& ~~~0xC1F#64) ||| (x &&& 0xC1F#64) }
    else none
  | 0x07 => if x &&& ~~~7#64 = 0 then some { g with sample := x } else none
  | _ => some g

/-- `ctl.set` (R187, R348, R435). -/
def execCtlSet (f : Fields) (s : State) : Out :=
  runOp (.ctlSet f) s (fun is =>
    let n := f.spec.toNat
    let x := is.addr f.a is.l0
    let bad := Effect.hit (Hit.plain .operandExtent is.mask 0)
    if n < 0x10 then
      match setGroupReg s.now n x is.g with
      | some g => .done (s.updGroup is.g.core is.g.slot (fun _ => g)) true
      | none => bad
    else if n < 0x20 then
      match is.w.releasing, is.w.engine with
      | false, some en =>
        let e := s.engine en
        if e.tdescOk x then
          .done (s.putEngine { e with tdesc := e.tdesc.put (n - 0x10) x, fill := e.fill.put (n - 0x10) 0 }) true
        else bad
      | _, _ => bad
    else
      let k := n - 0x20
      let foreign := match s.watchUnit? is.g.core k with
        | some u => !(u.vf == is.w.vf && u.ctx == is.w.ctx)
        | none => false
      if watchBad x || foreign then bad else .done (s.setWatch is k x) true)

/-- `trap` (R188). -/
def execTrap (f : Fields) (s : State) : Out :=
  runOp (.trap f) s (fun is => .trap s .softwareTrap ((is.word f.a is.l0).setWidth 64))

/-- `halt` (R189). -/
def execHalt (f : Fields) (s : State) : Out := runOp (.halt f) s (fun _ => .trap s .halt 0)

/-- `nop` (R190). -/
def execNop (f : Fields) (s : State) : Out := runOp (.nop f) s (fun _ => .done s false)

/-- Where `probe` finds an address for lane `L`: its physical address, whether it is writable, and its tier, 3 while the tier engine moves the page; by
the choice that the lane's accesses of the address take (R191, R292; log entries 6, 22). -/
def State.probePlace (s : State) (vf ctx va L : Nat) : Option (Nat × Bool × Nat) :=
  let choice := 2 ^ 57 * (L + 1) + va
  if s.inWindow vf va then
    match s.placeWindow vf ctx va with
    | .ok pa _ _ _ => some (pa, true, 0)
    | _ => none
  else
    match s.placeBy true vf ctx va false choice with
    | .ok pa _ _ _ =>
      let wr := match s.placeBy true vf ctx va true choice with | .ok _ _ _ _ => true | _ => false
      some (pa, wr, if s.frameMoves pa then 3 else if Config.cxlBase ≤ pa then 2 else 1)
    | _ => none

/-- The word of `probe` for the address of lane `L` (R191). -/
def State.probeWord (s : State) (vf ctx : Nat) (a : Dword) (L : Nat) : Word :=
  let bit := fun (b : Bool) (k : Nat) => if b then 2 ^ k else 0
  if a.extractLsb' 56 4 ≠ 0 then 0
  else
    match s.probePlace vf ctx (addrVa a) L with
    | none => 0
    | some (pa, wr, tier) =>
      let tag := s.tags.look (pa / 32)
      BitVec.ofNat 32 (2 ^ 31 + bit wr 30 + tier * 2 ^ 28 + tag.toNat * 2 ^ 24 +
        bit (!s.tagChecking vf ctx || tag == addrTag a) 23 + bit (s.poison.look (pa / 32) != 0) 22 +
        bit (s.isBound vf ctx (addrVa a)) 21)

/-- `probe` (R191). -/
def execProbe (f : Fields) (s : State) : Out :=
  runOp (.probe f) s (fun is =>
    is.writesWord s f.dest.toNat (fun L => s.probeWord is.w.vf is.w.ctx (is.addr f.a L) L))

/-- `prof` (R192, R438, R441): a marker row while the sampler is on (log entry 40). -/
def execProf (f : Fields) (s : State) : Out :=
  runOp (.prof f) s (fun is =>
    if is.g.sample.getLsbD 1 && (s.vfReg is.w.vf 0x060).getLsbD 3 then
      .done (s.sampleRow is.w.vf is.w.ctx 1 is.pos (bytesLE 4 (is.word f.a is.l0).toNat ++ List.replicate 28 0)) false
    else .done s false)

end Sys2Proof.Machine
end

