-- ==== Sys2Proof/Machine/Arbiter.lean ====
section
/-! DEFINITION. The events of the region arbiter and the scheduler: walks and the checks of an RCB, admission, placement, quanta, the
completion and the end of regions (R36, R76, R97 to R114, R349, R435, R449). -/

namespace Sys2Proof.Machine

/-- Bits of an RCB's words that are not reserved, by offset; a word that is not listed is reserved whole (R97). -/
def rcbMasks : List (Nat × Nat) :=
  [(0x04, 0x7FF), (0x08, 0xFFFFFFFF), (0x0C, 0xFFFFFFFF), (0x10, 0xFFFF), (0x14, 0x1FFFF), (0x18, 0xFFFFFF), (0x1C, 0x1FFFF),
   (0x20, 0xFFFFFFFF), (0x24, 0xFFFFFFFF), (0x28, 0x01FF01FF), (0x2C, 0xFFFFFF), (0x30, 0xFFFFF), (0x34, 0x7FF), (0x38, 0x7F1F07)] ++
  [(0x3C, 0x7FF), (0x40, 0xFFFF000F), (0x44, 0xFFFF), (0x48, 0xFFFFFFFF), (0x4C, 0xFFFFFFFF), (0x50, 0xFFFFFFFF), (0x58, 0xFFFFFFFF),
   (0x5C, 0xFFFFFFFF), (0x60, 0xFFFFFFFF), (0x64, 0xFFFFFFFF), (0x68, 0xFFFFFFFF), (0x6C, 0xFFFFFFFF), (0x70, 0xFFFFFFFF),
   (0x74, 0xFFFFFFFF), (0x78, 0xFFFFFFFF), (0x7C, 0xFFFFFFFF), (0x80, 0xFFFFFFFF), (0x84, 0xFFFFFFFF), (0x88, 0xFFFFFFFF)]

/-- A reserved field of the RCB is not zero: from offset 0x04 up to 0xBF, and beside eprio; those that the hardware writes as zero are not read (R97,
R105). -/
def State.rcbReserved (s : State) (vf ctx x : Nat) : Bool :=
  bitsOf (s.rcb vf ctx x 0xD8 4) 31 4 != 0 || (List.range 47).any (fun i =>
    let off := 4 + 4 * i
    let v := s.rcb vf ctx x off 4
    let m := match rcbMasks.find? (fun p => p.1 == off) with | some p => p.2 | none => 0
    v &&& m != v)

/-- The allocation of a workgroup (R76). -/
def Eff.allocBytes (e : Eff) : Nat := max 256 ((e.lstore + 32 * e.priv * e.gbud + 255) / 256 * 256)

/-- What R36 says of the image of a region: `none` when its code does not translate. That an entry or access index at or above fcount is a failure of
it is the model's choice (log entry 92). R34 puts an image at a multiple of 16 and gives no check of it: an image elsewhere is read where it stands
(log entry 93). -/
def State.imageOk (s : State) (vf ctx : Nat) (e : Eff) : Option Bool :=
  match s.trees? vf ctx (e.image % 2 ^ 56) none with
  | none => none
  | some t =>
    if !t.h.ok then some false
    else
      let entryOk := fun (k kind : Nat) =>
        if t.h.fcount ≤ k then some false else (t.fn? k).map (fun f => f.kind == kind && !f.reserved)
      match entryOk e.entry 0, (if e.hasacc then entryOk e.access 1 else some true) with
      | some a, some b => some (a && b)
      | _, _ => none

/-- A field lies outside its range in R97 (fcode 0x02; R105; log entry 51). -/
def Eff.outOfRange (e : Eff) : Bool :=
  let out := fun (v lo hi : Nat) => v < lo || hi < v
  out e.ndie 1 4 || out e.nclu 1 16 || out e.nwg 1 65536 || out e.ngrp 1 96 || out e.cores 1 256 || out e.engines 0 256 ||
    out e.gbud e.ngrp 96 || out e.regs 8 64 || e.regs % 8 != 0 || out e.win 8 248 || e.win % 8 != 0 || out e.lstore 0 786432 ||
    out e.priv 0 1016 || e.priv % 8 != 0 || out e.ctags 0 64 || out e.qdepth 0 16 || out e.wgeng 0 4 || out e.copies 0 1024

/-- A budget field exceeds the parent's effective value (fcode 0x04; R105). -/
def Eff.exceeds (e p : Eff) : Bool :=
  p.cores < e.cores || p.engines < e.engines || p.gbud < e.gbud || p.regs < e.regs || p.win < e.win || p.lstore < e.lstore ||
    p.priv < e.priv || p.ctags < e.ctags || p.qdepth < e.qdepth || p.wgeng < e.wgeng || p.copies < e.copies

/-- The dies that hold clusters of a VF's partition (R105, R112). -/
def State.diesOf (s : State) (vf : Nat) : Nat :=
  match s.partOf vf with
  | some p => ((List.range 4).filter (fun d => s.clustersOn p d != [])).length
  | none => 0

/-- The first check of R105 that the RCB at `x` with effective fields `e` fails, under a parent with the fields `p`. -/
def State.rcbFails (s : State) (vf ctx x : Nat) (e p : Eff) : Option Nat :=
  if !s.addrTranslates vf ctx e.image false then some 0x09
  else
    match s.imageOk vf ctx e with
    | none => some 0x09
    | some false => some 0x01
    | some true =>
      if e.outOfRange || s.rcbReserved vf ctx x || s.rcb vf ctx x 0 4 != 0 then some 0x02
      else if s.diesOf vf < e.ndie then some 0x03
      else if e.exceeds p then some 0x04
      else if p.prio < e.prio then some 0x05
      else if 1000 < e.thresh ∨ e.quantum = 0 then some 0x06
      else if 786432 < e.allocBytes ∨ 4096 < e.gbud * (e.regs + e.win) then some 0x07
      else if (BitVec.ofNat 32 (s.rcb vf ctx x 0x50 4)).toInt < 0 then some 0x08
      else if !s.addrTranslates vf ctx e.args.toNat false || (e.rset != 0 && !s.addrTranslates vf ctx e.rset false) ||
          !s.wordOk vf ctx e.latch 8 || !s.signalOk vf ctx e.signal then some 0x09
      else none

/-- The words through which the arbiter checks an RCB at `x`: the RCB, its image's header with the entries of its function table, each to its last byte, and
what it names (R36, R105). -/
def State.rcbWords (s : State) (vf ctx x : Nat) (e : Eff) : List Nat :=
  let image := e.image % 2 ^ 56
  let entry := fun (t : Trees) (k : Nat) => [image + t.h.ftab + 16 * k, image + t.h.ftab + 16 * k + 15]
  x :: image :: (image + 31) :: (match s.trees? vf ctx image none with
    | some t => entry t e.entry ++ entry t e.access
    | none => []) ++ ([e.rset % 2 ^ 56, addrVa e.latch, addrVa e.signal].filter (fun a => a != 0))

/-- Reads and checks the RCB at `x` under the region `p`: the context is written, and the region waits or takes its launch fault (R97, R101,
R105, R449). A page in transit makes the walk wait (R282). -/
def State.readRcb (s0 : State) (p : Region) (x : Nat) : State :=
  let ctx := if p.isRoot then s0.curCtx p.vf else p.ctx
  let own := (s0.ownFields p.vf ctx x).inherit p.eff (bitsOf (s0.rcb p.vf ctx x 0x04 4) 10 0)
  let s := (s0.rcbWords p.vf ctx x own).foldl (fun s a => s.visit p.vf ctx a) s0
  let e := (s.ownFields p.vf ctx x).inherit p.eff (bitsOf (s.rcb p.vf ctx x 0x04 4) 10 0)
  let r := s.newRegion p ctx x e
  let fail := s.rcbFails p.vf ctx x e p.eff
  let s1 := { s with
    regions := s.regions.filter (fun (y : Region) => !(y.vf == p.vf && y.rcb == r.rcb)) ++ [r],
    earlyGrants := s.earlyGrants.filter (fun y => y != (p.vf, r.rcb)) }
  let s2 := s1.devWriteBytes p.vf ctx (x + 0xDC) (bytesLE 4 (ctx % 65536) ++ List.replicate 32 0)
  match fail with
  | some c => s2.launchFail r c
  | none =>
    let s3 := s2.setRegionState r 1
    if r.latch = .none then
      match s3.regionLatch r with
      | some pa => (s3.updRegion p.vf r.rcb (fun y => { y with latch := .queued })).arbiterAcquire pa p.vf r.rcb
      | none => s3
    else s3

/-- Walks a list of links, up to the RCB at `stop` (R101, R103). The first argument bounds the walk. -/
def State.walkLinks (s : State) (p : Region) (stop : Nat) : Nat → Nat → State
  | 0, _ => s
  | n + 1, link =>
    if link % 2 ^ 60 = 0 ∨ (stop ≠ 0 ∧ link % 2 ^ 56 = stop) then s
    else if s.linkOk p link then
      (s.readRcb p (link % 2 ^ 56)).walkLinks p stop n (s.rcb p.vf (if p.isRoot then s.curCtx p.vf else p.ctx) (link % 2 ^ 56) 0x80 8)
    else s.launchFault p p.eff.domain (BitVec.ofNat 64 link)

/-- The root of a VF, as its RCB stands now (R99, R100). The links word against which the first change is seen is 0, as for a region (log entry
98). -/
def State.rootRegion (s : State) (vf : Nat) : Region :=
  let x := (s.vfReg vf 0x008).toNat % 2 ^ 56
  let ctx := s.curCtx vf
  let e := s.ownFields vf ctx x
  match s.region? vf x with
  | some r => { r with eff := e, ctx := ctx, isRoot := true }
  | none =>
    { vf := vf, rcb := x, parent := 0, isRoot := true, ctx := ctx, eff := e, st := 0, latch := .none, deficit := 0, ring := 0,
      ringPrio := 0, quantumCycles := 0, waitedQuanta := 0, placed := 0, begun := [], used := 0, thin := false, code := none, ending := false,
      lastLinks := 0, lastHead := 0 }

/-- A guest switch of the VF is under way (R408). -/
def State.switching (s : State) (vf : Nat) : Bool := s.switches.any (fun x => x.vf == vf && x.step != 0)

/-- The VF is enabled, in an enabled partition (R403, R404). -/
def State.vfEnabled (s : State) (vf : Nat) : Bool := (s.vfReg vf 0x000).getLsbD 0 && (s.partOf vf).isSome

/-- The region whose list a walk goes through: the root of the VF, or a region in state 5 or 6 (R101). -/
def State.walkParent (s : State) (vf parent : Nat) : Option Region :=
  if (s.vfReg vf 0x008).toNat % 2 ^ 56 = parent then
    if s.switching vf then none else some (s.rootRegion vf)
  else
    match s.region? vf parent with
    | some r => if (r.st == 5 || r.st == 6) && !r.isRoot && !r.ending && r.ctx == s.curCtx vf then some r else none
    | none => none

/-- The arbiter walks a list whose links word has changed. A head link that R103 rejects counts as the first RCB that the walk has reached: R101 does not
say whether it does (R101, R103, R449; log entry 53). -/
def execWalk (vf parent : Nat) (s : State) : Out :=
  .next (match s.vfEnabled vf, s.walkParent vf parent with
  | true, some p =>
    match s.devRead vf p.ctx (p.va + 0x88) 4, s.devRead vf p.ctx (p.va + 0x78) 8 with
    | some links, some head =>
      if BitVec.ofNat 32 links = p.lastLinks then s
      else
        let q := { p with lastLinks := BitVec.ofNat 32 links, lastHead := if head % 2 ^ 60 = 0 then p.lastHead else head % 2 ^ 56 }
        let s1 := { s.visit vf p.ctx p.va with regions := q :: s.regions.filter (fun y => !(y.vf == vf && y.rcb == p.rcb)) }
        (s1.walkLinks q p.lastHead (2 ^ 32) head).rejudgeVf vf
    | _, _ => s
  | _, _ => s)

/-- A write to deps, or a change of what it waits for, makes the arbiter judge a region again (R104). -/
def execDepsRecheck (vf rcb : Nat) (s : State) : Out := .next ((s.rejudge vf rcb).writePrios vf)

/-- The workgroups that occupy a core now. -/
def State.onCore (s : State) (c : Nat) : List Workgroup := s.wgs.filter (fun w => w.core == c && !w.saved && !w.ended)

/-- The sum of a field of the regions of the workgroups on a core. -/
def State.coreSum (s : State) (c : Nat) (f : Eff → Nat) : Nat :=
  ((s.onCore c).map (fun w => match s.region? w.vf w.rcb with | some r => f r.eff | none => 0)).sum

/-- The group slots of a core that no workgroup holds, lowest first. -/
def State.slotsFree (s : State) (c : Nat) : List Nat :=
  (List.range 96).filter (fun k => !(s.onCore c).any (fun w => w.slots.contains k))

/-- The ranges of a slice that workgroups hold. -/
def State.sliceHeld (s : State) (c : Nat) : List (Nat × Nat) := (s.onCore c).map (fun w => (w.allocOff, w.allocSize))

/-- The lowest offset of a core's slice at which a free range of the size begins (R76). -/
def State.lowestOffset (s : State) (c size : Nat) : Option Nat :=
  (((0 :: (s.sliceHeld c).map (fun h => h.1 + h.2))).filter (fun a =>
    a + size ≤ Config.sliceBytes && (s.sliceHeld c).all (fun h => !meets a size h.1 h.2))).min?

/-- Engines of a core's cluster that are neither held nor set aside (R112, R349). -/
def State.enginesFree (s : State) (c : Nat) : List Nat :=
  if s.hasMx then (clusterEngines c).filter (fun n => (s.engine n).holder.isNone && (s.engine n).aside.isNone) else []

/-- The workgroups that have ended on a core while their copies still fly there. -/
def State.flying (s : State) (c : Nat) : List Workgroup := s.wgs.filter (fun w => w.core == c && w.ended && w.copies != [])

/-- Bulk copies of a core that are held: those that its workgroups may have in flight, and those in flight of workgroups that have ended (R15, R112). -/
def State.copiesHeld (s : State) (c : Nat) : Nat :=
  s.coreSum c (fun e => e.copies) + ((s.flying c).map (fun w => w.copies.length)).sum

/-- Completion tags of a core that are held: those of its workgroups, and those that copies in flight of ended ones name (R15, R112). -/
def State.tagsHeld (s : State) (c : Nat) : Nat :=
  s.coreSum c (fun e => e.ctags) + ((s.flying c).map (fun w => (w.copies.map (fun x => x.tag)).eraseDups.length)).sum

/-- A core has room for what a workgroup of the region holds besides its slots and its allocation (R15, R112). -/
def State.roomFor (s : State) (r : Region) (c : Nat) : Bool :=
  s.coreSum c (fun e => e.gbud * (e.regs + e.win)) + r.eff.gbud * (r.eff.regs + r.eff.win) ≤ 4096 &&
    s.tagsHeld c + r.eff.ctags ≤ 64 && s.copiesHeld c + r.eff.copies ≤ 1024 &&
    r.eff.wgeng ≤ (s.enginesFree c).length

/-- The region's own unused budget has room for one more workgroup on core `c` (R106). -/
def State.ownRoom (s : State) (r : Region) (c : Nat) : Bool :=
  let (cores, engines) := s.unusedBudget r
  ((s.wgsOf r).any (fun w => w.core == c && !w.ended && !s.wgUnused r w) || 1 ≤ cores) && (r.eff.wgeng : Int) ≤ engines

/-- Where on core `c` a new workgroup of the region fits (R112). -/
def State.fitOn (s : State) (r : Region) (c : Nat) : Option Nat :=
  if r.eff.gbud ≤ (s.slotsFree c).length && s.roomFor r c && s.ownRoom r c then s.lowestOffset c r.eff.allocBytes else none

/-- The cores of the cluster to which cluster `k` of the grid maps, by grid die * nclu + grid cluster (R112). -/
def State.gridCores (s : State) (r : Region) (k : Nat) : List Nat :=
  match s.partOf r.vf with
  | none => []
  | some p =>
    match s.gridDie p (k / r.eff.nclu) with
    | none => []
    | some d =>
      let cs := s.clustersOn p d
      match cs[k % r.eff.nclu % cs.length]? with
      | some c => (List.range 4).map (fun i => 4 * c + i)
      | none => []

/-- Clusters of the grid with workgroups still to be placed. -/
def Region.openClusters (r : Region) : List Nat :=
  (List.range (r.eff.ndie * r.eff.nclu)).filter (fun k => (r.begun.look k).toNat < r.eff.nwg)

/-- The next workgroup that can be placed: its cluster of the grid, its core and its offset (R112). -/
def State.nextPlace (s : State) (r : Region) : Option (Nat × Nat × Nat) :=
  r.openClusters.findSome? (fun k => (s.gridCores r k).findSome? (fun c => (s.fitOn r c).map (fun o => (k, c, o))))

/-- The arbiter places workgroups of the region now: its context is current, its VF runs and switches no guest, and no pre-emption of the region is under
way (R107, R404, R408, R449). -/
def State.placing (s : State) (r : Region) : Bool :=
  !r.isRoot && !r.ending && !(s.wgsOf r).any (fun w => w.stopping && !w.saved && !w.ended) && r.ctx == s.curCtx r.vf && s.vfEnabled r.vf && !s.vfPaused r.vf && !s.switching r.vf

/-- A saved workgroup can come back to its core: its slots, its range and the rest are free there, it does not wait for a descendant, and an
engine is free where it held one (R106, R112, R370, R397). -/
def State.canReturn (s : State) (r : Region) (w : Workgroup) : Bool :=
  w.saved && !s.wgUnused r w && w.slots.all (fun k => (s.slotsFree w.core).contains k) && s.roomFor r w.core &&
    (s.sliceHeld w.core).all (fun h => !meets w.allocOff w.allocSize h.1 h.2)

/-- The region has a workgroup to place or to restore now. -/
def State.hasWork (s : State) (r : Region) : Bool :=
  s.placing r && ((r.st == 5 || (r.st == 4 && s.judge r == 4)) && (s.nextPlace r).isSome || (s.wgsOf r).any (fun w => s.canReturn r w))

/-- No other region of the partition comes first: a higher effective priority, or the same and an earlier place in the ring (R107). -/
def State.isFirst (s : State) (r : Region) : Bool :=
  !s.regions.any (fun q =>
    q.open_ && !(q.vf == r.vf && q.rcb == r.rcb) && s.partOf q.vf == s.partOf r.vf &&
      (s.eprio r < s.eprio q || (s.eprio r == s.eprio q && q.ring < r.ring)) && s.hasWork q)

/-- Units of the region's programs with scope 3 to 5 are copied to a core that receives a workgroup of the region (R435). -/
def State.watchArrives (s : State) (r : Region) (c : Nat) : State :=
  (s.watch.filter (fun u => u.copyOf.isNone && u.vf == r.vf && u.rcb == r.rcb && u.core != c &&
      (s.watchCores r.vf r.rcb u.core u.scope).contains c)).foldl (fun s u => s.copyWatch u c) s

/-- The engines set aside for a workgroup: the lowest-numbered that are free, `n` of them (R349). -/
def State.setAside (s : State) (id n : Nat) (es : List Nat) : State :=
  (es.take n).foldl (fun s k => s.putEngine { s.engine k with aside := some id }) s

/-- Places the next workgroup of grid cluster `k` on core `c` at offset `off`, and starts its groups (R32, R33, R112, R134, R284, R317). -/
def State.placeAt (s : State) (r : Region) (k c off : Nat) : State :=
  let i := (r.begun.look k).toNat
  let w : Workgroup :=
    { id := s.seq, vf := r.vf, ctx := r.ctx, rcb := r.rcb, die := k / r.eff.nclu, clu := k % r.eff.nclu, wgi := i, lin := k * r.eff.nwg + i,
      core := c, allocOff := off, allocSize := r.eff.allocBytes, slots := (s.slotsFree c).take r.eff.gbud, started := false,
      stopping := false, stopped := 0, saved := false, ended := false, tags := BitVec.ofNat 64 (2 ^ r.eff.ctags - 1), copies := [], bars := [],
      engine := none, releasing := false, leaving := [], ops := [], xfers := [], xfaults := [] }
  let s1 := s.setAside w.id r.eff.wgeng (s.enginesFree c)
  let s2 := { s1 with
    seq := s1.seq + 1, wgs := s1.wgs ++ [w],
    departed := s1.departed.filter (fun d =>
      !(d.vf == r.vf && d.ctx == r.ctx && d.core == c && meets d.allocOff d.allocSize off w.allocSize)) }
  let s3 := s2.updRegion r.vf r.rcb (fun x =>
    { x with placed := x.placed + 1, begun := x.begun.put k (BitVec.ofNat 32 (i + 1)), waitedQuanta := 0 })
  let s4 := (List.range r.eff.ngrp).foldl (fun s g =>
    match w.slots[g]? with
    | some slot => s.startGroup w r slot g r.eff.entry (fun _ => 0)
    | none => s) s3
  ((s4.watchArrives r c).startSlice r.vf r.ctx).writePrios r.vf

/-- The region is the first of its context to be admitted: the context's checkpoints start anew (R442). -/
def State.firstAdmission (s : State) (r : Region) : State :=
  if s.regions.any (fun q => q.vf == r.vf && q.ctx == r.ctx && !q.isRoot && (q.st == 5 || q.st == 6)) then s
  else { s with checkpoints := s.checkpoints.map (fun (c : Checkpoint) => if c.vf = r.vf ∧ c.ctx = r.ctx then { c with live := false } else c) }

/-- The arbiter admits a READY region together with the placement of its first workgroup, where all that made it READY holds now; from then on a fetch may
get the code that its image holds now (R38, R104, R106, R107, R111). -/
def execAdmitRegion (vf rcb : Nat) (s0 : State) : Out :=
  let s := (s0.rejudge vf rcb).writePrios vf
  .next (match s.region? vf rcb with
  | none => s
  | some r =>
    match s.nextPlace r with
    | some (k, c, o) =>
      if r.st = 4 ∧ !r.words.any (s.busyPage vf r.ctx) ∧ s.judge r = 4 ∧ s.placing r ∧ s.isFirst r then
        let q := { r with thin := s.thinFor r, code := s.imageParcels vf r.ctx r.eff.image, st := 5, deficit := r.deficit + r.quantumWork, quantumCycles := 0 }
        let s1 := ((s.firstAdmission r).updRegion vf rcb (fun _ => q)).writeRcbState q 5 0
        (s1.devWrite vf r.ctx (r.va + 0xC0) 8 s.hubTime).placeAt q k c o
      else s
    | none => s)

/-- The next workgroup of a running region is placed (R112). -/
def execPlaceWorkgroup (vf rcb : Nat) (s0 : State) : Out :=
  let s := s0.writePrios vf
  .next (match s.region? vf rcb with
  | none => s
  | some r =>
    match s.nextPlace r with
    | some (k, c, o) => if r.st = 5 ∧ s.placing r ∧ s.isFirst r then s.placeAt r k c o else s
    | none => s)

/-- The state in which the workgroups that satisfy `p` were not placed: what would fit then (R106, R107). -/
def State.without (s : State) (p : Workgroup → Bool) : State :=
  let gone := fun (id : Option Nat) => match id with | some k => s.wgs.any (fun w => w.id == k && p w) | none => false
  { s with
    wgs := s.wgs.filter (fun w => !p w),
    engines := s.engines.map (fun (e : Engine) =>
      { e with holder := if gone e.holder then none else e.holder, aside := if gone e.aside then none else e.aside }) }

/-- The region has a workgroup that cannot be placed or restored now, and could be on core `c` but for the running workgroups there that satisfy `p`
(R106, R107). -/
def State.wantsCore (s : State) (q : Region) (c : Nat) (p : Workgroup → Bool) : Bool :=
  let t := s.without (fun w => w.core == c && !w.saved && !(w.vf == q.vf && w.rcb == q.rcb) && p w)
  ((q.st == 5 || (q.st == 4 && s.judge q == 4)) && (s.nextPlace q).isNone &&
      q.openClusters.any (fun k => (s.gridCores q k).contains c && (t.fitOn q c).isSome)) ||
    (s.wgsOf q).any (fun w => w.core == c && !s.canReturn q w && t.canReturn q w)

/-- The region waits for one of the cores `cs`, and cannot have it now (R107). -/
def State.waitsFor (s : State) (q : Region) (cs : List Nat) : Bool :=
  s.placing q && cs.any (fun c => s.wantsCore q c (fun _ => true))

/-- The shadow slots of a core that are held (R395). -/
def State.slotsHeld (s : State) (c : Nat) : List ShadowSlot := s.slots.filter (fun x => x.core == c && !x.spilled)

/-- A shadow slot of the core is free. -/
def State.shadowFree (s : State) (c : Nat) : Bool := decide ((s.slotsHeld c).length < 2)

/-- The cores that a region occupies. -/
def State.regionCores (s : State) (r : Region) : List Nat := coresOf ((s.wgsOf r).filter (fun w => !w.saved && !w.ended))

/-- A region's quantum runs: no group of it is parked, throttled or halted, and no saved one is parked by the debugger (R107, R385, R413, R430). -/
def State.quantumRuns (s : State) (r : Region) : Bool :=
  (s.groupsOf r).all (fun (g : Group) => g.park.isNone) &&
    ((s.wgsOf r).filter (fun w => w.saved)).all (fun w => (s.liveGroups w).all (fun g => g.park != some .debug)) && !s.throttled r.vf && !s.vfPaused r.vf

/-- The running workgroups that satisfy `p` are to be saved, by one pre-emption (R391). -/
def State.stopWgs (s : State) (p : Workgroup → Bool) : State :=
  { s with
    seq := s.seq + 1,
    wgs := s.wgs.map (fun (w : Workgroup) => if p w ∧ !w.saved ∧ !w.ended ∧ !w.stopping then { w with stopping := true, stopped := s.seq + 1 } else w) }

/-- A region's quantum ends: it is pre-empted, and goes to the tail of its ring, or it keeps running (R107). -/
def execQuantumEnd (vf rcb : Nat) (s0 : State) : Out :=
  let s := s0.writePrios vf
  .next (match s.region? vf rcb with
  | none => s
  | some r =>
    let cs := s.regionCores r
    if r.isRoot ∨ !(r.st == 5 || r.st == 6) ∨ cs = [] ∨ !s.quantumRuns r ∨ r.quantumCycles < r.eff.quantum * 1024 then s
    else
      let s1 := s.updRegion vf rcb (fun x => { x with quantumCycles := 0 })
      if 0 < r.deficit then s1
      else if s.regions.any (fun q => q.open_ && !(q.vf == vf && q.rcb == rcb) && s.partOf q.vf == s.partOf vf &&
            s.eprio r ≤ s.eprio q && s.waitsFor q cs) && cs.all s.shadowFree then
        { s1 with
          seq := s1.seq + 1
        }.stopWgs (fun w => w.vf == vf && w.rcb == rcb) |>.updRegion vf rcb (fun x => { x with ring := s1.seq })
      else s1.updRegion vf rcb (fun x => { x with deficit := x.deficit + r.quantumWork }))

/-- Each 16 quanta of waiting in state 4 raise the aged priority by one (R108). -/
def execAgedPriority (vf rcb : Nat) (s : State) : Out :=
  .next (match s.region? vf rcb with
  | none => s
  | some r =>
    if r.st = 4 ∧ 16 * (r.eff.quantum * 1024) ≤ r.quantumCycles then
      (s.updRegion vf rcb (fun x =>
        { x with waitedQuanta := x.waitedQuanta + 16, quantumCycles := x.quantumCycles - 16 * (r.eff.quantum * 1024) })).writePrios vf
    else s)

/-- A region that can complete completes; its parent and the regions that wait for budget are judged (R104, R113). -/
def execRegionComplete (vf rcb : Nat) (s : State) : Out :=
  .next ((s.tryComplete vf rcb).rejudgeVf vf)

/-- The host ends a region with its subtree (R114). -/
def execRegionEnd (vf rcb : Nat) (s : State) : Out :=
  .next ((s.endSubtree vf rcb).rejudgeVf vf)

end Sys2Proof.Machine
end

