-- ==== Sys2Proof/Machine/Copy.lean ====
section
/-! DEFINITION. Class 0x6, async copies and completion tags: `cp.async`, the tag waits, and the landing of a chunk (R240 to R246, R312,
R373, R436). -/

namespace Sys2Proof.Machine

/-- Source row length R of a transposing copy (R242). -/
def rowLen (spec : BitVec 8) : Nat := 16 * (spec.toNat + 1)

/-- `[va, va + n)` meets a live frame or a live barrier object (R49, R240). -/
def State.meetsProtected (s : State) (vf ctx va n : Nat) : Bool :=
  match s.windowPart vf va n with
  | some (pa, k) => s.isProtected vf ctx pa k
  | none => false

/-- The barrier of the workgroup that tag `t` is linked to, by its offset in the allocation (R262; log entry 43). -/
def State.linkOf (s : State) (w : Workgroup) (t : Nat) : Option Nat :=
  (w.bars.find? (fun b => (readBar s.mem b.pa).linked && (readBar s.mem b.pa).tag == t)).map (fun b => b.off)

/-- The copy that a `cp.async` starts. -/
def Issue.newCopy (is : Issue) (s : State) (f : Fields) (d x : Dword) (n t : Nat) (acquire notag : Bool) : Copy :=
  let l := is.lane is.l0
  { id := s.seq, core := is.g.core, slot := is.g.slot, start := is.g.start, dest := d, src := x, bytes := n, tag := t,
    linked := s.linkOf is.w t, mode := f.mod.toNat % 4, row := f.spec, next := 0, done := 0, read := [],
    acquire := acquire, pos := l.pos, func := l.func, fault := none, delivered := [], notag := notag, absent := none }

/-- The ranges of a copy that watch units check (R436). -/
def copyRanges (L : Nat) (d x : Dword) (n : Nat) : List WatchRange :=
  [{ lane := L, ds := false, va := addrVa x, n := n, reads := true, writes := false, report := x },
   { lane := L, ds := false, va := addrVa d, n := n, reads := false, writes := true, report := d }]

/-- `cp.async` (R240, R246; log entry 46). A copy that a fault has stopped counts as in flight until it has been serviced and has ended (log entry 115).
-/
def execCpAsync (f : Fields) (s : State) : Out :=
  runOp (.cpAsync f) s (fun is =>
    let d := is.destAddr f is.l0
    let x := is.addr f.a is.l0
    let n := (is.word f.b is.l0).toNat
    let t := (is.word f.c is.l0).toNat
    let q := quals is.g f true true [.generic]
    let bad := fun a => Effect.hit (Hit.plain .operandExtent is.mask a)
    if n = 0 ∨ 2 ^ 30 < n then bad 0
    else if is.r.eff.ctags ≤ t ∨ is.r.eff.copies = 0 then bad (BitVec.ofNat 64 t)
    else if f.mod.toNat % 4 ≠ 0 ∧ (n % rowLen f.spec ≠ 0 ∨ 256 < n / rowLen f.spec) then bad 0
    else if d.extractLsb' 56 4 ≠ 0 then bad d
    else if x.extractLsb' 56 4 ≠ 0 then bad x
    else if s.meetsProtected is.w.vf is.w.ctx (addrVa d) n then bad d
    else
      match is.releaseGate s q.releases q.scope with
      | some e => e
      | none =>
        if is.r.eff.copies ≤ is.w.copies.length then .wait s { kind := .slot, cycles := 0, addr := 0, expired := false }
        else
          is.watched s (copyRanges is.l0 d x n) [] (fun s1 =>
            .done ({ s1 with seq := s1.seq + 1 }.updWg is.w.id (fun w =>
              { w with copies := w.copies ++ [is.newCopy s1 f d x n t q.acquires q.notag], tags := w.tags &&& ~~~(1#64 <<< t) })) true))

/-- Chunk `k` of a copy: offset in the destination, and length (R241). -/
def Copy.chunk (c : Copy) (k : Nat) : Nat × Nat :=
  let d := addrVa c.dest
  let b := (d / 64 + k) * 64
  let lo := max d b
  (lo - d, min (d + c.bytes) (b + 64) - lo)

/-- The source offset of byte `k` of the destination (R242). -/
def Copy.srcOff (c : Copy) (k : Nat) : Nat :=
  let e := if c.mode = 1 then 1 else 2
  let r := rowLen c.row
  let m := c.bytes / r
  if c.mode = 0 ∨ m = 0 then k else k / e % m * r + k / e / m * e + k % e

/-- Runs of consecutive source offsets for the destination bytes `o` to `o + n - 1`: source offset, length and place in the
chunk. -/
def Copy.srcRuns (c : Copy) (o n : Nat) : List (Nat × Nat × Nat) :=
  if c.mode = 0 then [(o, n, 0)]
  else
    (List.range n).foldl (fun rs i =>
      let x := c.srcOff (o + i)
      match rs.getLast? with
      | some (a, m, p) => if a + m = x then rs.dropLast ++ [(a, m + 1, p)] else rs ++ [(x, 1, i)]
      | none => [(x, 1, i)]) []

/-- The pieces of chunk `k`: what is read, then what is written. -/
def Copy.pieces (c : Copy) (k : Nat) : List Piece :=
  let (o, n) := c.chunk k
  (c.srcRuns o n).flatMap (fun r => piecesOf c.src (r.1 : Int) r.2.1 r.2.2 false) ++ piecesOf c.dest (o : Int) n 0 true

/-- Chunk `k` may land now: it has not landed, and it lies within 64 chunks of the lowest chunk not landed (R373). -/
def Copy.open? (c : Copy) (k : Nat) : Bool :=
  c.fault.isNone && k < c.chunks && c.next ≤ k && k < c.next + 64 && !c.done.getLsbD (k - c.next)

/-- `next` moves over the chunks that have landed. The first argument bounds the moves. -/
def Copy.slide : Nat → Copy → Copy
  | 0, c => c
  | n + 1, c => if c.done.getLsbD 0 then Copy.slide n { c with next := c.next + 1, done := c.done >>> 1 } else c

/-- Chunk `k` has landed (R375). -/
def Copy.land (c : Copy) (k : Nat) : Copy :=
  Copy.slide 65 { c with done := c.done ||| (1#64 <<< (k - c.next)), read := c.read.filter (fun p => p.1 != k), absent := none }

/-- The record of a copy in a shadow slot (R375). -/
def Copy.record (c : Copy) : List Byte :=
  let flag := fun (b : Bool) => if b then 1 else 0
  bytesLE 8 c.dest.toNat ++ bytesLE 8 c.src.toNat ++ bytesLE 4 c.bytes ++
    bytesLE 4 (flag c.linked.isSome * 2 ^ 26 + c.tag % 64 * 2 ^ 20 + c.linked.getD 0 % 2 ^ 20) ++ bytesLE 4 c.next ++
    bytesLE 4 (c.row.toNat * 8 + c.mode % 4 * 2 + flag c.fault.isSome) ++ bytesLE 8 c.done.toNat ++ bytesLE 4 c.pos.toNat ++
    bytesLE 4 (match c.fault with | some x => x.cls.code | none => 0) ++
    bytesLE 8 (match c.fault with | some x => x.addr.toNat | none => 0) ++ bytesLE 8 0

def Workgroup.updCopy (w : Workgroup) (id : Nat) (f : Copy → Copy) : Workgroup :=
  { w with copies := w.copies.map (fun c => if c.id = id then f c else c) }

/-- The workgroup that runs and owns the copy. -/
def State.copyOwner (s : State) (id : Nat) : Option (Workgroup × Copy) :=
  (s.wgs.filter (fun w => !w.saved)).findSome? (fun w => (w.copies.find? (fun c => c.id == id)).map (fun c => (w, c)))

/-- The owner of a copy, with the number of a part of its work: of the read of a chunk, or of its landing. -/
def Copy.owner (c : Copy) (w : Workgroup) (part : Nat) : Owner :=
  { vf := w.vf, ctx := w.ctx, rcb := w.rcb, key := agentKey c.id part, core := c.core, slot := c.slot, start := c.start, pos := c.pos, func := c.func, clears := true }

/-- Records a copy's fault; of a workgroup that has ended, its record is written and the copy is discarded (R243). -/
def State.recordCopyFault (s : State) (w : Workgroup) (c : Copy) (x : FaultInfo) : State :=
  if w.ended then
    match s.region? w.vf w.rcb with
    | some r =>
      ((s.recordUntaken r x [] c.func.toNat c.pos c.core c.slot).updWg w.id (fun y =>
        { y with copies := y.copies.filter (fun z => z.id != c.id) })).sweepWg w.id
    | none => s
  else s.updWg w.id (fun y => y.updCopy c.id (fun z => { z with fault := some x, delivered := [], absent := none }))

/-- Bytes of a chunk that land in the workgroup's allocation. -/
def landedBytes (w : Workgroup) (pl : List (Piece × Nat × Option Nat × List Nat × List Nat)) : Nat :=
  (pl.map (fun x => if x.1.write && w.pa ≤ x.2.1 && x.2.1 < w.pa + w.allocSize then x.1.n else 0)).sum

/-- A landed chunk takes its bytes off the balance of the barrier that the copy recorded, an access of the object (R241, R262, R443). -/
def State.landOnBar (s : State) (w : Workgroup) (c : Copy) (n : Nat) : State :=
  match c.linked with
  | none => s
  | some o =>
    match w.bars.find? (fun b => b.off == o) with
    | some b =>
      if n = 0 then s
      else s.logged (c.owner w 0).accessor (touchesOf b.pa 16 1) (fun s => s.barStep b.pa (fun x => { x with balance := x.balance - n }))
    | none => s

/-- What a copy keeps of a chunk that it has read: its source bytes from 0, and what its destination held then from 64 (R308). -/
def State.readChunk (s : State) (w : Workgroup) (c : Copy) (k : Nat) (pl : List Placed) : State :=
  let m := (s.readPieces pl).paste 64 64 (s.writtenNow pl)
  s.updWg w.id (fun y => y.updCopy c.id (fun z => { z with read := z.read ++ [(k, m)], absent := none }))

/-- The bytes with which chunk `k` lands. Of a 4-byte unit of the source that was written since the copy read it, the old value or the new, but the old
one alone where the read was an acquire, for later accesses have come after it; of a unit of the destination that was written since then, that value or
the copy's: a free choice for each unit, but none while the context records or replays (R302, R308). `m` is what the copy keeps of the chunk, `src`
and `dst` the bytes there now. -/
def Copy.landed (c : Copy) (k : Nat) (m src dst : Sparse 8) (free : Bool) (fresh i : Nat) : Byte :=
  let o := (c.chunk k).1
  let sAddr := fun j => addrVa c.src + c.srcOff (o + j)
  let dAddr := fun j => addrVa c.dest + o + j
  let val := if free && !c.acquire && m.look i != src.look i && Config.freeBit (fresh + unitHead sAddr i) then src.look i else m.look i
  if free && raced dAddr (c.chunk k).2 (fun x => m.look (64 + x)) dst.look i && Config.freeBit (fresh + 64 + unitHead dAddr i) then dst.look i else val

/-- A chunk lands: written whole and counted; the last one ends the copy and sets its tag (R240, R241, R244). -/
def State.landChunk (s : State) (w : Workgroup) (c : Copy) (k : Nat) (bytes : Nat → Byte) (pl : List Placed) : State :=
  let s1 := (s.writePieces (c.owner w 0) pl bytes).landOnBar w c (landedBytes w pl)
  let s2 := s1.count c.core w.vf w.ctx 0x0A (c.chunk k).2
  let c1 := c.land k
  if c1.next = c.chunks then
    (s2.updWg w.id (fun y => ({ y with copies := y.copies.filter (fun z => z.id != c.id) }).retag c.tag)).sweepWg w.id
  else s2.updWg w.id (fun y => y.updCopy c.id (fun _ => c1))

/-- The source of a chunk as it stands when the chunk lands: what was read of it, where it can no longer be reached. -/
def State.sourceNow (s : State) (w : Workgroup) (c : Copy) (k : Nat) (m : Sparse 8) : Sparse 8 :=
  match s.checkPieces (c.owner w 0) false c.notag ((c.pieces k).filter (fun p => !p.write)) with
  | .go pl => s.readPieces pl
  | _ => m

/-- A chunk of which the copy keeps `m` lands at the places `pl`, against what its source and its destination hold now (R308). -/
def State.landRead (s : State) (w : Workgroup) (c : Copy) (k : Nat) (m : Sparse 8) (fresh : Nat) (pl : List Placed) : State :=
  s.landChunk w c k (c.landed k m (s.sourceNow w c k m) (s.writtenNow pl) (s.quietLog w.vf w.ctx) fresh) pl

/-- The pieces of a chunk that are written. -/
def Copy.writes (c : Copy) (k : Nat) : List Piece := (c.pieces k).filter (fun p => p.write)

/-- A chunk that has been read lands now, where its checks, the recorder and replay mode let it. -/
def State.landIfRead (s : State) (id k : Nat) : State :=
  match s.copyOwner id with
  | none => s
  | some (w, c) =>
    match c.read.find? (fun p => p.1 == k), s.checkPieces (c.owner w (2 * k + 1)) false c.notag (c.writes k) with
    | some (_, m), .go pl =>
      let o := c.owner w (2 * k + 1)
      let ts := State.pieceTouches pl
      if !c.open? k || s.replayFull o.accessor ts then s
      else
        match s.replayGate o.key o.vf o.ctx (ts.map (s.touchEntry o.accessor)) with
        | .go s1 => ((s1.recordTouches o.accessor ts).openPieces o pl).landRead w c k m s.fresh pl
        | _ => s
    | _, _ => s

/-- A chunk of a copy is read, and the next time it lands; or it fails, or waits, for an older copy of its group whose reads are acquires too
(R241 to R243, R302, R308, R317, R373). -/
def execChunkLand (copy chunk : Nat) (s : State) : Out :=
  .next (match s.copyOwner copy with
  | none => s
  | some (w, c0) =>
    let c := c0.serviced s
    if c.open? chunk ∧ !w.acquiring c.start c.id then
      let found := c.read.find? (fun p => p.1 == chunk)
      let turn := match found with
        | none => s.chunkTurnOn (c.owner w (2 * chunk)) (s.blimitOf w) c.absent false c.notag (c.pieces chunk) (fun (p : Piece) => !p.write)
        | some _ => s.chunkTurn (c.owner w (2 * chunk + 1)) (s.blimitOf w) c.absent false c.notag (c.writes chunk)
      match turn with
      | .go s1 pl =>
        let s2 := s1.updWg w.id (fun y => y.updCopy c.id (fun _ => c))
        match found with
        | none => s2.readChunk w c chunk pl
        | some (_, m) => s2.landRead w c chunk m s.fresh pl
      | .fail s1 x => s1.recordCopyFault w c x
      | .absent s1 => s1.updWg w.id (fun y => y.updCopy c.id (fun _ => { c with absent := some (c.absent.getD 0) }))
      | .stay s1 => s1
    else s)

/-- The copies whose tag is in the mask. -/
def Workgroup.copiesIn (w : Workgroup) (m : Dword) : List Copy := w.copies.filter (fun c => m.getLsbD c.tag)

/-- The copies of the mask whose faults have been serviced go on (R243). -/
def State.resumeCopies (s : State) (w : Workgroup) (m : Dword) : State :=
  s.updWg w.id (fun y => { y with copies := y.copies.map (fun c =>
    if m.getLsbD c.tag then c.serviced s else c) })

/-- The copy with a recorded fault whose tag is the lowest; the oldest of those (R245). -/
def lowestFaulted : List Copy → Option Copy
  | [] => none
  | c :: cs =>
    match lowestFaulted cs with
    | none => if c.fault.isSome then some c else none
    | some b => if c.fault.isSome && (c.tag < b.tag || (c.tag == b.tag && c.id < b.id)) then some c else some b

/-- The lowest set bit of a mask. -/
def lowestTag (m : Dword) : Nat := ((List.range 64).find? (fun i => m.getLsbD i)).getD 0

/-- The tag waits (R245): `all` for `twait.all`; `done` gives the state after the operation from the mask's set tags. -/
def tagWait (f : Fields) (all : Bool) (done : Issue → State → Dword → State) (s : State) (is : Issue) : Effect :=
  let m := is.addr f.a is.l0
  if m.toNat / 2 ^ is.r.eff.ctags ≠ 0 ∨ (m = 0 ∧ !all) then .hit (Hit.plain .operandExtent is.mask 0)
  else
    let s1 := s.resumeCopies is.w m
    match s1.wg? is.w.id with
    | none => .wait s1 { kind := .other, cycles := 0, addr := 0, expired := false }
    | some w =>
      match lowestFaulted (w.copiesIn m) with
      | some c =>
        let x := c.fault.getD { cls := .translation, addr := 0, stage2 := false }
        .taken (s1.updWg w.id (fun y => y.updCopy c.id (fun z => { z with delivered := z.delivered ++ [is.taker] })))
          { cls := x.cls, mask := is.mask, addr := x.addr, stage2 := x.stage2, origin := some c.pos }
      | none =>
        let have_ := w.tags &&& m
        if (if all then have_ == m else have_ != 0) then .done (done is s1 have_) false
        else .wait s1 { kind := .other, cycles := 0, addr := 0, expired := false }

/-- `twait.any` (R245). -/
def execTwaitAny (f : Fields) (s : State) : Out := runOp (.twaitAny f) s (tagWait f false (fun _ s _ => s) s)

/-- `twait.all` (R245). -/
def execTwaitAll (f : Fields) (s : State) : Out := runOp (.twaitAll f) s (tagWait f true (fun _ s _ => s) s)

/-- `tfirst` (R245). -/
def execTfirst (f : Fields) (s : State) : Out :=
  runOp (.tfirst f) s (tagWait f false (fun is s m =>
    s.writeLanes is (fun _ l => l.setReg f.dest.toNat (BitVec.ofNat 32 (lowestTag m)))) s)

end Sys2Proof.Machine
end

