-- ==== Sys2Proof/Machine/Approx.lean ====
section
/-! DEFINITION. The approximations of R212 to R214: fixed-point values of the exact functions, correct rounding for `f16`, and the
part's own value inside the bound for `f32` (log entry 7). -/

namespace Sys2Proof.Machine

/-- Fraction bits of the fixed-point numbers of this file. Every function is computed to within 2^20 units, far below a
rounding step of any format. -/
def fixBits : Nat := 256

/-- 1.0 in fixed point. -/
def fixOne : Int := 2 ^ fixBits

/-- Product and quotient of fixed-point numbers. -/
def fixMul (a b : Int) : Int := a * b / fixOne
def fixDiv (a b : Int) : Int := a * fixOne / b

/-- `Σ t_k` with `t_{k+1} = t_k * x / (k (k+1) step)`: the Taylor series whose terms divide by successive integers from `k`, two
at a time when `two`. The first argument is the number of terms. -/
def taylor (x : Int) (two : Bool) : Nat → Int → Int → Int
  | 0, _, _ => 0
  | n + 1, t, k =>
    t + taylor x two n (if two then fixMul t x / (k * (k + 1)) else fixMul t x / k) (if two then k + 2 else k + 1)

/-- `Σ p_j / (2 j + 1)` with `p_{j+1} = p_j * z2`: the series of artanh and arctan. -/
def oddSeries (z2 : Int) : Nat → Int → Int → Int
  | 0, _, _ => 0
  | n + 1, p, d => p / d + oddSeries z2 n (fixMul p z2) (d + 2)

/-- artanh z for |z| ≤ 1/3. -/
def fixArtanh (z : Int) : Int := oddSeries (fixMul z z) 90 z 1

/-- arctan z for |z| ≤ 1/5. -/
def fixArctan (z : Int) : Int := oddSeries (-(fixMul z z)) 70 z 1

/-- ln 2 = 2 artanh (1/3). -/
def fixLn2 : Int := 2 * fixArtanh (fixOne / 3)

/-- pi = 16 arctan (1/5) - 4 arctan (1/239). -/
def fixPi : Int := 16 * fixArctan (fixOne / 5) - 4 * fixArctan (fixOne / 239)

/-- e^y for 0 ≤ y < 1. -/
def fixExp (y : Int) : Int := taylor y false 70 fixOne 1

/-- 2^x for x in [-200, 200]. -/
def fixExp2 (x : Int) : Int :=
  let n := x / fixOne
  let m := fixExp (fixMul (x - n * fixOne) fixLn2)
  if 0 ≤ n then m * 2 ^ n.toNat else m / 2 ^ (-n).toNat

/-- log2 x for x > 0. -/
def fixLog2 (x : Int) : Int :=
  let e : Int := (Nat.log2 x.toNat : Int) - fixBits
  let m := if 0 ≤ e then x / 2 ^ e.toNat else x * 2 ^ (-e).toNat
  e * fixOne + fixDiv (2 * fixArtanh (fixDiv (m - fixOne) (m + fixOne))) fixLn2

/-- sin and cos of |r| < 1. -/
def fixSin0 (r : Int) : Int := taylor (-(fixMul r r)) true 40 r 2
def fixCos0 (r : Int) : Int := taylor (-(fixMul r r)) true 40 fixOne 1

/-- sin of x + quarters * pi/2, for |x| ≤ 2^17. -/
def fixSin (x : Int) (quarters : Int) : Int :=
  let h := fixPi / 2
  let n := (x + h / 2) / h
  let r := x - n * h
  match ((n + quarters) % 4).toNat with
  | 0 => fixSin0 r
  | 1 => fixCos0 r
  | 2 => -(fixSin0 r)
  | _ => -(fixCos0 r)

/-- tanh x. -/
def fixTanh (x : Int) : Int :=
  let y := if x < 0 then -x else x
  let t := if 200 * fixOne ≤ y then 0
    else
      let z := fixDiv (2 * y) fixLn2
      let n := z / fixOne
      fixExp2 (-(z - n * fixOne)) / 2 ^ n.toNat
  let r := fixDiv (fixOne - t) (fixOne + t)
  if x < 0 then -r else r

/-- 1 / x and 1 / sqrt x. -/
def fixRcp (x : Int) : Int := fixDiv fixOne x
def fixRsqrt (x : Int) : Int := isqrt (2 ^ (3 * fixBits) / x.toNat)

/-- The exact function in fixed point, and whether the result may be taken as exact. -/
def fixOf (op : ApproxOp) (x : Int) : Int × Bool :=
  match op with
  | .rcp => (fixRcp x, fixOne * fixOne % x == 0)
  | .rsqrt =>
    let r := fixRsqrt x
    (r, r * r * x == 2 ^ (3 * fixBits))
  | .exp2 => (fixExp2 x, x % fixOne == 0)
  | .log2 => (fixLog2 x, Nat.log2 x.toNat == (Nat.log2 (x.toNat - 1)) + 1)
  | .sin => (fixSin x 0, false)
  | .cos => (fixSin x 1, false)
  | .tanh => (fixTanh x, false)

/-- A finite value in fixed point. -/
def fixVal (neg : Bool) (m : Nat) (e : Int) : Int :=
  let k := e + fixBits
  let v : Int := if 0 ≤ k then (m : Int) * 2 ^ k.toNat else (m : Int) / 2 ^ (-k).toNat
  if neg then -v else v

/-- The special inputs of R214: the result and its flag, or none. -/
def Fmt.approxSpecial (t : Fmt) (op : ApproxOp) (x : Nat) : Option FRes :=
  let one := t.bias * 2 ^ t.mb
  let wide := t.eb == 8
  match t.decode x with
  | .nan sig => some (t.nanRes sig)
  | .inf neg =>
    match op with
    | .rcp => some { bits := t.signed neg 0, flags := 0 }
    | .rsqrt | .log2 => some (if neg then t.nanRes true else { bits := if op = .rsqrt then 0 else t.inf, flags := 0 })
    | .exp2 => some { bits := if neg then 0 else t.inf, flags := 0 }
    | .sin | .cos => some (t.nanRes true)
    | .tanh => some { bits := t.signed neg one, flags := 0 }
  | .fin neg m e =>
    if m = 0 then
      match op with
      | .rcp | .rsqrt => some { bits := t.signed neg t.inf, flags := flagDz }
      | .log2 => some { bits := t.signed true t.inf, flags := flagDz }
      | .sin | .tanh => some { bits := t.signed neg 0, flags := 0 }
      | .cos | .exp2 => some { bits := one, flags := 0 }
    else
      let v := fixVal neg m e
      match op with
      | .rsqrt => if neg then some (t.nanRes true) else none
      | .log2 => if neg then some (t.nanRes true) else if v = fixOne then some { bits := 0, flags := 0 } else none
      | .exp2 =>
        if v < -(fixOne * (if wide then 150 else 25)) then some { bits := 0, flags := 0 }
        else if fixOne * (if wide then 128 else 16) ≤ v then some { bits := t.inf, flags := flagOf }
        else none
      | _ => none

/-- The exact value correctly rounded to the nearest (R212), its flags dropped (R214). -/
def Fmt.approxRound (t : Fmt) (op : ApproxOp) (x : Int) (flush : Bool) : Nat :=
  let (v, exact) := fixOf op x
  (t.round { neg := v < 0, m := v.natAbs, e := -(fixBits : Int), sticky := !exact } (decide (x < 0)) .rne false flush false).bits

/-- The bound of R213 on an `f32` result `r` whose exact value is `v`; `x` is the operand. -/
def inBound (op : ApproxOp) (x v r : Int) : Bool :=
  let d := (r - v).natAbs + 2 ^ 20
  let ulp := 2 ^ (max ((Nat.log2 v.natAbs : Int) - fixBits - 23) (-149) + fixBits).toNat
  match op with
  | .rcp => d ≤ ulp
  | .rsqrt | .exp2 => d ≤ 2 * ulp
  | .log2 => if fixOne ≤ 2 * x ∧ x ≤ 2 * fixOne then d ≤ 2 ^ (fixBits - 22) else d ≤ 2 * ulp
  | .sin | .cos => d ≤ 2 ^ (fixBits - 21)
  | .tanh => d ≤ 2 ^ (fixBits - 21) && r.natAbs ≤ 2 ^ fixBits

/-- A tiny result under flush mode is a zero of its sign (R200). -/
def Fmt.flushOut (t : Fmt) (flush : Bool) (x : Nat) : Nat := t.flushIn flush x

/-- The `f32` result for a finite operand that is no special input: the part's own value where it lies inside the bound, and
else the exact value rounded; for sin and cos above 2^16 any value of [-1, 1] (R213; log entry 7). -/
def approxF32 (op : ApproxOp) (bits : Nat) (x : Int) (flush : Bool) : Nat :=
  let own := (Config.approxF32 op (BitVec.ofNat 32 bits)).toNat
  match fmtF32.decode own with
  | .fin neg m e =>
    let r := fixVal neg m e
    if (op = .sin ∨ op = .cos) ∧ fixOne * 2 ^ 16 < (x.natAbs : Int) then
      if r.natAbs ≤ 2 ^ fixBits then fmtF32.flushOut flush own else 0
    else if inBound op x (fixOf op x).1 r then fmtF32.flushOut flush own
    else fmtF32.approxRound op x flush
  | _ =>
    if (op = .sin ∨ op = .cos) ∧ fixOne * 2 ^ 16 < (x.natAbs : Int) then 0 else fmtF32.approxRound op x flush

/-- An approximation of one element (R212 to R214). -/
def approxElem (t : Fmt) (op : ApproxOp) (flush : Bool) (bits : Nat) : FRes :=
  let b := t.flushIn flush bits
  match t.approxSpecial op b with
  | some r => r
  | none =>
    match t.decode b with
    | .fin neg m e =>
      let x := fixVal neg m e
      { bits := if t.eb = 8 then approxF32 op b x flush else t.approxRound op x flush, flags := 0 }
    | _ => { bits := t.nan, flags := 0 }

end Sys2Proof.Machine
end

