-- ==== Sys2Proof/Machine/FloatOps.lean ====
section
/-! DEFINITION. Class 0x2, float operations (R205 to R214). -/

namespace Sys2Proof.Machine

/-- An operation on each element of a, b and c with flags (R122, R205). -/
def floatElems (f : Fields) (r : Nat → Nat → Nat → FRes) (s : State) (is : Issue) : Effect :=
  is.numeric s f.ty f.dest.toNat (fun L =>
    let a := is.val32 f.ty f.a L
    let b := is.val32 f.ty f.b L
    let c := is.val32 f.ty f.c L
    let w := f.ty.bits
    let out := perElem f.ty (fun k => r (elemOf w a k) (elemOf w b k) (elemOf w c k))
    LaneRes.ofWord out.1 out.2)

def execFAdd (f : Fields) (s : State) : Out :=
  runOp (.fAdd f) s (fun is => floatElems f (fun x y _ => (fmtOf f.ty).add x y f.rnd is.ftz) s is)

def execFSub (f : Fields) (s : State) : Out :=
  runOp (.fSub f) s (fun is => floatElems f (fun x y _ => (fmtOf f.ty).sub x y f.rnd is.ftz) s is)

def execFMul (f : Fields) (s : State) : Out :=
  runOp (.fMul f) s (fun is => floatElems f (fun x y _ => (fmtOf f.ty).mul x y f.rnd is.ftz) s is)

def execFma (f : Fields) (s : State) : Out :=
  runOp (.fma f) s (fun is => floatElems f (fun x y z => (fmtOf f.ty).fma x y z f.rnd is.ftz) s is)

def execFDiv (f : Fields) (s : State) : Out :=
  runOp (.fDiv f) s (fun is => floatElems f (fun x y _ => (fmtOf f.ty).div x y f.rnd is.ftz) s is)

def execSqrt (f : Fields) (s : State) : Out :=
  runOp (.sqrt f) s (fun is => floatElems f (fun x _ _ => (fmtOf f.ty).sqrt x f.rnd is.ftz) s is)

def execFMin (f : Fields) (s : State) : Out :=
  runOp (.fMin f) s (fun is => floatElems f (fun x y _ => (fmtOf f.ty).minMax false x y is.ftz) s is)

def execFMax (f : Fields) (s : State) : Out :=
  runOp (.fMax f) s (fun is => floatElems f (fun x y _ => (fmtOf f.ty).minMax true x y is.ftz) s is)

/-- Clears the sign bit; no flag, no flush mode (R209). -/
def execFAbs (f : Fields) (s : State) : Out :=
  runOp (.fAbs f) s (fun is => floatElems f (fun x _ _ => { bits := x % (fmtOf f.ty).signBit, flags := 0 }) s is)

/-- Inverts the sign bit; no flag, no flush mode (R209). -/
def execFNeg (f : Fields) (s : State) : Out :=
  runOp (.fNeg f) s (fun is => floatElems f (fun x _ _ => { bits := x + (fmtOf f.ty).signBit, flags := 0 }) s is)

def execFCmp (f : Fields) (s : State) : Out :=
  runOp (.fCmp f) s (fun is => floatElems f (fun x y _ => (fmtOf f.ty).cmp f.mod.toNat x y is.ftz) s is)

/-- No flag, no flush mode (R211). -/
def execFclass (f : Fields) (s : State) : Out :=
  runOp (.fclass f) s (fun is => floatElems f (fun x _ _ => { bits := (fmtOf f.ty).classBits x, flags := 0 }) s is)

def execRcp (f : Fields) (s : State) : Out :=
  runOp (.rcp f) s (fun is => floatElems f (fun x _ _ => approxElem (fmtOf f.ty) .rcp is.ftz x) s is)

def execRsqrt (f : Fields) (s : State) : Out :=
  runOp (.rsqrt f) s (fun is => floatElems f (fun x _ _ => approxElem (fmtOf f.ty) .rsqrt is.ftz x) s is)

def execExp2 (f : Fields) (s : State) : Out :=
  runOp (.exp2 f) s (fun is => floatElems f (fun x _ _ => approxElem (fmtOf f.ty) .exp2 is.ftz x) s is)

def execLog2 (f : Fields) (s : State) : Out :=
  runOp (.log2 f) s (fun is => floatElems f (fun x _ _ => approxElem (fmtOf f.ty) .log2 is.ftz x) s is)

def execSin (f : Fields) (s : State) : Out :=
  runOp (.sin f) s (fun is => floatElems f (fun x _ _ => approxElem (fmtOf f.ty) .sin is.ftz x) s is)

def execCos (f : Fields) (s : State) : Out :=
  runOp (.cos f) s (fun is => floatElems f (fun x _ _ => approxElem (fmtOf f.ty) .cos is.ftz x) s is)

def execTanh (f : Fields) (s : State) : Out :=
  runOp (.tanh f) s (fun is => floatElems f (fun x _ _ => approxElem (fmtOf f.ty) .tanh is.ftz x) s is)

end Sys2Proof.Machine
end

