-- ==== Sys2Proof/Machine/Save.lean ====
section
/-! DEFINITION. Saving a workgroup and restoring it: what survives, the shadow slots, the engine, and the events of pre-emption (R88, R349,
R370, R374 to R378, R391 to R400). -/

namespace Sys2Proof.Machine

/-- A queue entry as its feed record keeps it (R393; log entry 56). -/
def QEntry.record (e : QEntry) : QEntry :=
  { e with bytes := [], level := 4, complete := false, fault := none, delivered := none }

/-- The run of a group is squashed where it stops. A wait with a limit keeps its counted cycles, for the lanes that stand at it; what an acquire
waits for stays known; any other wait is gone (R83, R106, R378). -/
def Group.squashWait (g : Group) : Group :=
  let l := g.lane (lowest g.run)
  let g1 := { g with run := 0 }
  match g.wait with
  | none => g1
  | some w =>
    match w.kind with
    | .latch => g1
    | .granted => if g.park.isSome then g1 else { g1 with wait := none }
    | .other | .slot | .ops => { g1 with wait := none }
    | .barrier | .dieBarrier | .peer =>
      { g1 with wait := none, kept := { mask := g.run, pos := l.pos, func := l.func, wait := w } :: keptBut g.run g.kept }

/-- What survives of a group (R88, R394): its run is squashed, its demotion has ended, and its queues are feed records. The units that its next
operation or node skips are kept, so that it is hit exactly once (R432, R437). -/
def Group.forSave (g : Group) : Group :=
  { g.squashWait with
    lateFlags := 0, lateAt := 0, spinCount := 0, demotions := 0, iters := [], lastLanes := 0, watched := [], demos := [], syncAt := 0, readMarks := [],
    level := 0, tagged := none,
    feeds := g.feeds.map QEntry.record, lastDispatch := 0, yielded := false }

/-- A group that stands in no latch's queue any more: an acquire that was waiting is dispatched again; that of a parked group which has been granted
retires when the group goes on (R378, R391, R397). -/
def Group.unqueued (g : Group) : Group := { g with wait := match g.wait with | some w => if w.kind = .granted then some w else none | none => none }

/-- Every place of the group in a latch's queue ends (R391, step 5). -/
def State.leaveQueues (s : State) (g : Group) : State :=
  (s.latchQs.map (fun q => q.pa)).foldl (fun s pa =>
    (s.leaveLatch pa (.group g.core g.slot true)).leaveLatch pa (.group g.core g.slot false)) s

/-- The groups of a running workgroup. -/
def State.wgGroups (s : State) (id : Nat) : List Group := s.groups.filter (fun (g : Group) => g.wg == id)

/-- Steps 1 to 5 of R391 can end: no group has still to retire an acquire that it has been granted, and none has still to end (R392,
R400). -/
def State.settledForSave (s : State) (w : Workgroup) : Bool :=
  (s.wgGroups w.id).all (fun g => !g.allRetired && (g.park.isSome || !g.acquiring .granted))

/-- The parts of an engine that are saved: descriptors, reservations, the tiles that are dirty or named by a queued operation, with what running
transfers still move, and the dirty committed buffers (R370). -/
def Engine.forSave (e : Engine) (w : Workgroup) : Engine :=
  let keep := fun (t : Nat) => e.dirty.getLsbD t || w.ops.any (fun o => o.queuedOn e.idx && o.names t)
  let moving := fun (b : Nat) => w.xfers.any (fun x => !x.loose && x.engine == e.idx && x.buf == b)
  { e with
    tiles := e.tiles.filter (fun p => (List.range 16).any (fun t => keep t && e.buf t == p.1 / 32768) || moving (p.1 / 32768)),
    acc := e.acc.filter (fun p => e.accDirty.getLsbD (p.1 / 16384) && e.committed (p.1 / 16384) == p.1 / 8192 % 2) }

/-- A copy as its record keeps it: what it has read and not written is discarded, and the stage of its fault is lost. The qualifiers and the function
stand in the code at its position, and who has taken its fault shows in the saved groups (R324, R374, R375; log entry 107). -/
def Copy.forSave (c : Copy) : Copy :=
  { c with read := [], absent := none, fault := c.fault.map (fun (x : FaultInfo) => { x with stage2 := false }) }

/-- A workgroup's copies and tile transfers as they are saved: a transfer stops at a chunk boundary (R370, R374). -/
def Workgroup.stopAgents (w : Workgroup) : Workgroup :=
  { w with copies := w.copies.map Copy.forSave, xfers := w.xfers.map (fun (x : TileXfer) => { x with seen := none }) }

/-- The engines that a workgroup holds or is releasing, the held one first. -/
def Workgroup.engines (w : Workgroup) : List Nat := w.engine.toList ++ w.leaving

/-- What the shadow slot receives of a workgroup (R394). -/
def State.savedForm (s : State) (w : Workgroup) : SavedWg :=
  { wg := w.stopAgents, groups := (s.wgGroups w.id).map Group.forSave, alloc := s.mem.slice w.pa w.allocSize,
    allocTags := s.tags.slice (w.pa / 32) (w.allocSize / 32), allocPoison := s.poison.slice (w.pa / 32) (w.allocSize / 32),
    engine := w.engine.map (fun n => (s.engine n).forSave w), leaving := w.leaving.map (fun n => (s.engine n).forSave w) }

/-- A slot takes in `w` too: it was filled by the pre-emption that saves `w`, on the same core. R391 moves the state of a workgroup into a free slot, and
says nothing of several that one pre-emption saves on one core: they share one, which holds what one core can hold (R391, R394, R395; log entry 125). -/
def slotTakes (w : Workgroup) (sl : ShadowSlot) : Bool :=
  sl.core == w.core && sl.vf == w.vf && sl.ctx == w.ctx && !sl.spilled && w.stopped != 0 && sl.wgs.all (fun x => x.wg.stopped == w.stopped)

/-- The shadow slot for a workgroup: the one that its pre-emption fills, or a free one; none where both are held (R395). -/
def State.slotFor (s : State) (w : Workgroup) : Option Nat :=
  match s.slots.find? (slotTakes w) with
  | some sl => some sl.slot
  | none => [0, 1].find? (fun k => !(s.slotsHeld w.core).any (fun sl => sl.slot == k))

/-- Puts a saved workgroup into a slot of its core. -/
def State.fillSlot (s : State) (x : SavedWg) (k : Nat) : State :=
  if s.slots.any (fun sl => sl.slot == k && slotTakes x.wg sl) then
    { s with slots := s.slots.map (fun sl => if sl.slot = k ∧ slotTakes x.wg sl then { sl with wgs := sl.wgs ++ [x] } else sl) }
  else
    { s with slots := s.slots ++
      [{ core := x.wg.core, slot := k, vf := x.wg.vf, ctx := x.wg.ctx, savedAt := s.now, spilled := false, wgs := [x] }] }

/-- Where a core's spilled slots and their matrix slots stand in the spill area of a context: 5 MiB for each core of the part, two slots of 1.5 MiB,
and then two of 1 MiB (R394, R404; log entry 57). -/
def State.spillRanges (s : State) (x : ShadowSlot) : List (Nat × Nat) :=
  let base := (s.cxReg x.vf x.ctx 0x128).toNat + x.core * (5 * 2 ^ 20)
  [(base + x.slot * (3 * 2 ^ 19), 3 * 2 ^ 19), (base + 3 * 2 ^ 20 + x.slot * 2 ^ 20, 2 ^ 20)]

/-- The context engine spills the slot of a core whose context was saved earlier, where both slots are held. cx.spill is taken as a physical address of
device memory: R395 and R404 do not say in which address space it lies. The format in which the engine writes the spill area is the part's own: each byte
there takes a free value (R395, R404; log entries 10, 57). -/
def State.spill (s : State) (w : Workgroup) : State :=
  if (s.slotFor w).isSome then s
  else
    match (s.slotsHeld w.core).find? (fun x => (s.slotsHeld w.core).all (fun y => x.savedAt ≤ y.savedAt)) with
    | some x =>
      let s1 := (s.spillRanges x).foldl (fun (t : State) r =>
        { t.storeBytes r.1 ((List.range r.2).map (fun i => Config.freeByte (t.fresh + i))) with fresh := t.fresh + r.2 }) s
      { s1 with slots := s1.slots.map (fun y => if y = x then { y with spilled := true } else y) }
    | none => s

/-- Posted writes to the slice of a workgroup are performed: what is saved of it holds them (R324). -/
def State.flushInto (s : State) (w : Workgroup) : State :=
  s.flushWhere (fun p => p.eff.ranges.any (fun x => meets x.1 x.2 w.pa w.allocSize))

/-- The writes of the chunks that copies with acquire reads have read have begun: they land, for what came after those reads has been ordered after them
(R302, R374; log entry 107). -/
def State.landReads (s : State) (w : Workgroup) : State :=
  (w.copies.filter (fun c => c.acquire)).foldl (fun s c => (c.read.map (fun p => p.1)).foldl (fun s k => s.landIfRead c.id k) s) s

/-- Before a workgroup is saved, what is posted to its slice is there, and the runs of its groups are squashed (R83, R324). -/
def State.quiet (s : State) (w : Workgroup) : State :=
  let s1 := s.flushInto w
  (s1.wgGroups w.id).foldl (fun s g => (s.squash g.core g.slot false).leaveQueues g) s1

/-- Saves a workgroup into slot `k` of its core, and zeroes and releases what it had (R370, R391, R393 to R395, R399). -/
def State.saveInto (s : State) (w0 : Workgroup) (k : Nat) : State :=
  let s0 := s.landReads w0
  let w := (s0.wg? w0.id).getD w0
  let s1 := s0.quiet w
  let s2 := s1.fillSlot (s1.savedForm w) k
  let s3 := { s2 with groups := s2.groups.filter (fun (g : Group) => g.wg != w.id) }.updWg w.id (fun x =>
    { x.stopAgents with saved := true, stopping := false, engine := none, leaving := [] })
  let s4 := w.engines.foldl (fun s n => s.putEngine (s.zeroedEngine n)) s3
  let s5 := (s4.unsetAside w.id).zeroMem w.pa w.allocSize
  if s5.wgs.any (fun (x : Workgroup) => x.vf == w.vf && x.ctx == w.ctx && !x.saved && !x.ended) then s5 else s5.endSlice w.vf w.ctx

/-- Saves a workgroup where a slot is free (R107). -/
def State.saveWg (s : State) (w : Workgroup) : State :=
  match s.slotFor w with
  | some k => s.saveInto w k
  | none => s

/-- A descendant of the workgroup's region needs its core, and cannot have it only because workgroups that count as unused occupy it; the core has
a free shadow slot (R106). -/
def State.evictable (s : State) (r : Region) (w : Workgroup) : Bool :=
  s.wgUnused r w && s.shadowFree w.core && s.regions.any (fun q =>
    q.open_ && s.descends s.regions.length q r && s.placing q && s.wantsCore q w.core (fun x =>
      match s.region? x.vf x.rcb with | some y => s.descends s.regions.length q y && s.wgUnused y x | none => false))

/-- The workgroups of a core that a descendant of their region needs: they are pre-empted together (R106). -/
def State.evictFrom (s : State) (core : Nat) : State :=
  s.stopWgs (fun w => w.core == core && (match s.region? w.vf w.rcb with | some r => s.evictable r w | none => false))

/-- A workgroup whose pre-emption is under way, or whose core a descendant needs, is saved (R106, R107, R391). -/
def execPreempt (wg : Nat) (s : State) : Out :=
  .next (match s.wg? wg with
  | none => s
  | some w0 =>
    match s.region? w0.vf w0.rcb with
    | none => s
    | some r =>
      let s1 := if !w0.stopping && s.evictable r w0 then s.evictFrom w0.core else s
      match s1.wg? wg with
      | none => s
      | some w => if w.saved ∨ w.ended ∨ !w.stopping ∨ !s1.settledForSave w then s1 else (s1.saveWg w).writePrios w.vf)

/-- The saved state of a workgroup. -/
def State.savedOf (s : State) (id : Nat) : Option SavedWg := s.slots.findSome? (fun sl => sl.wgs.find? (fun x => x.wg.id == id))

/-- Another workgroup's store keeps buffer `b` of accumulator `a` of engine `n`. -/
def State.keptByOther (s : State) (id n a b : Nat) : Bool :=
  match s.retainer n a b with
  | some k => k != id
  | none => false

/-- The buffer of accumulator `a` of engine `n` that receives a saved committed buffer `b0` (R351, R370). -/
def State.bufferFor (s : State) (id n a b0 : Nat) : Option Nat :=
  if !s.keptByOther id n a b0 then some b0
  else if (s.retainer n a (1 - b0)).isNone then some (1 - b0)
  else none

/-- An engine of the cluster that the workgroup can be given: free, with a buffer for every accumulator whose committed buffer is saved (R349, R370). -/
def State.engineFits (s : State) (w : Workgroup) (e : Engine) (n : Nat) : Bool :=
  (s.engine n).holder.isNone && (match (s.engine n).aside with | some x => x == w.id | none => true) &&
    (List.range 4).all (fun a => !e.accDirty.getLsbD a || (s.bufferFor w.id n a (e.committed a)).isSome)

/-- The engine that a restored workgroup is given: the one that it held if that one is free, else the lowest-numbered free one (R370). -/
def State.engineFor (s : State) (w : Workgroup) (e : Engine) : Option Nat :=
  (e.idx :: clusterEngines w.core).find? (fun n => s.engineFits w e n)

/-- The saved matrix state in engine `n`; what other stores keep there stays with them, and an accumulator that is clean reads zero (R351, R370). -/
def State.placeEngine (s : State) (w : Workgroup) (e : Engine) (n : Nat) : Engine :=
  let old := s.engine n
  let place := fun a => (s.bufferFor w.id n a (e.committed a)).getD (e.committed a)
  let acc := (List.range 4).foldl (fun m a =>
    m.paste (accKey a (place a) 0 0) 8192 (e.acc.slice (accKey a (e.committed a) 0 0) 8192)) old.acc
  let which := (List.range 4).foldl (fun m a => Sparse.put m a (BitVec.ofNat 1 (place a))) old.which
  { e with idx := n, holder := some w.id, aside := old.aside, acc := acc, which := which }

/-- Gives a restored workgroup its engines, one after the other: the state with them in place, and the new engine for each old one; none where one
has to wait (R370). -/
def State.placeEngines (s : State) (w : Workgroup) : List Engine → Option (State × List (Nat × Nat))
  | [] => some (s, [])
  | e :: es =>
    match s.engineFor w e with
    | none => none
    | some n => ((s.putEngine (s.placeEngine w e n)).placeEngines w es).map (fun x => (x.1, (e.idx, n) :: x.2))

/-- The engines of a saved workgroup. -/
def SavedWg.engines (x : SavedWg) : List Engine := x.engine.toList ++ x.leaving

/-- A workgroup with its engines again: queued operations and transfers go on there (R370). `m` gives the new engine for each old one. -/
def Workgroup.onEngines (w : Workgroup) (m : List (Nat × Nat)) : Workgroup :=
  let at0 := fun (n : Nat) => (m.find? (fun p => p.1 == n)).map (fun p => p.2)
  let ns := m.map (fun p => p.2)
  { w with
    engine := ns.head?, leaving := ns.drop 1,
    ops := w.ops.map (fun (o : MatOp) => if o.phase = .queued then { o with engine := (at0 o.engine).getD o.engine } else o),
    xfers := w.xfers.map (fun (x : TileXfer) => if x.loose then x else { x with engine := (at0 x.engine).getD x.engine }) }

/-- A group that was killed while it was saved owes the arrivals of its lanes from its restore on (R93, R94, R311, R406; log entry 48). -/
def State.dropKilled (s : State) (id : Nat) : State :=
  { s with groups := s.groups.map (fun (g : Group) => if g.wg = id ∧ g.allRetired then { g with owed := 0xFFFFFFFF } else g) }

/-- Writes to a context's registers that had to wait for its restore take effect (R405). -/
def State.applyCx (s : State) (vf ctx : Nat) : State :=
  let mine := fun (p : Nat × Dword) => p.1 / 64 == vf * 65536 + ctx
  (s.cxPending.filter mine).foldl (fun s p =>
    let off := p.1 % 64 + 0x100
    let old := s.cxReg vf ctx off
    s.setCxReg vf ctx off (if off = 0x100 then old &&& ~~~2#64 ||| p.2 &&& 2#64 else p.2))
    { s with cxPending := s.cxPending.filter (fun p => !mine p) }

/-- The engines of a saved workgroup in place, or nothing placed where one has to wait (R370). -/
def State.withEngines (s : State) (w : Workgroup) (x : SavedWg) : State × List (Nat × Nat) := (s.placeEngines w x.engines).getD (s, [])

/-- Restores a saved workgroup to its core: its engines, its memory, its groups, its copies and its feeds, before any group issues. The first of a region
that occupies no core begins a quantum (R107, R370, R376, R378, R397, R405, R435; log entry 54). -/
def State.restoreWg (s0 : State) (r : Region) (w : Workgroup) (x : SavedWg) : State :=
  let s := s0.applyCx w.vf w.ctx
  let (s1, m) := s.withEngines w x
  let held := m.map (fun p => p.2)
  let s2 := s1.setAside w.id r.eff.wgeng (held ++ (s1.enginesFree w.core).filter (fun k => !held.contains k))
  let s3 := { s2 with
    mem := s2.mem.paste w.pa w.allocSize x.alloc, tags := s2.tags.paste (w.pa / 32) (w.allocSize / 32) x.allocTags,
    poison := s2.poison.paste (w.pa / 32) (w.allocSize / 32) x.allocPoison,
    groups := s2.groups ++ x.groups.map (fun (g : Group) => { g.unqueued with syncAt := s2.fresh }),
    slots := (s2.slots.map (fun (sl : ShadowSlot) => { sl with wgs := sl.wgs.filter (fun y => y.wg.id != w.id) })).filter (fun sl => sl.wgs != []),
    departed := s2.departed.filter (fun d =>
      !(d.vf == w.vf && d.ctx == w.ctx && d.core == w.core && meets d.allocOff d.allocSize w.allocOff w.allocSize)) }
  let s4 := s3.updWg w.id (fun y =>
    let y1 := { y with saved := false, stopping := false, stopped := 0 }
    if m = [] then y1 else y1.onEngines m)
  let s5 :=
    if s0.regionCores r = [] then
      s4.updRegion r.vf r.rcb (fun y => { y with quantumCycles := 0, deficit := if y.deficit ≤ 0 then y.deficit + y.quantumWork else y.deficit })
    else s4
  (((s5.dropKilled w.id).watchArrives r w.core).startSlice w.vf w.ctx).writePrios w.vf

/-- A saved workgroup can be restored: its core has room, and engines are free for those that it held (R370, R397). -/
def State.restorable (s : State) (r : Region) (w : Workgroup) (x : SavedWg) : Bool :=
  s.canReturn r w && (s.placeEngines w x.engines).isSome

/-- A saved workgroup comes back (R397). -/
def execRestore (wg : Nat) (s : State) : Out :=
  .next (match s.wg? wg, s.savedOf wg with
  | some w, some x =>
    match s.region? w.vf w.rcb with
    | some r => if s.placing r ∧ s.isFirst r ∧ s.restorable r w x then s.restoreWg r w x else s
    | none => s
  | _, _ => s)

end Sys2Proof.Machine
end

