-- ==== Sys2Proof/Machine/Hub.lean ====
section
/-! DEFINITION. The events of the hub: start-up, clocks and errors, links and their keys, measurements and attestation (R31, R296, R297, R319,
R418 to R424). -/

namespace Sys2Proof.Machine

/-- Round constants of Keccak-f[1600] (FIPS 202, the function that R423 names). -/
def keccakRC : List Dword :=
  [0x0000000000000001, 0x0000000000008082, 0x800000000000808A, 0x8000000080008000, 0x000000000000808B, 0x0000000080000001,
   0x8000000080008081, 0x8000000000008009, 0x000000000000008A, 0x0000000000000088, 0x0000000080008009, 0x000000008000000A] ++
  [0x000000008000808B, 0x800000000000008B, 0x8000000000008089, 0x8000000000008003, 0x8000000000008002, 0x8000000000000080,
   0x000000000000800A, 0x800000008000000A, 0x8000000080008081, 0x8000000000008080, 0x0000000080000001, 0x8000000080008008]

/-- Rotation of lane (x, y) in the step rho, by x + 5 y. -/
def keccakRot : List Nat := [0, 1, 62, 28, 27, 36, 44, 6, 55, 20, 3, 10, 43, 25, 39, 41, 45, 15, 21, 8, 18, 2, 61, 56, 14]

/-- Lane `i` of a state of 25 lanes. -/
def lane64 (a : List Dword) (i : Nat) : Dword := (a[i]?).getD 0

/-- One round: theta, rho, pi, chi, iota. -/
def keccakRound (a : List Dword) (rc : Dword) : List Dword :=
  let c := (List.range 5).map (fun x => lane64 a x ^^^ lane64 a (x + 5) ^^^ lane64 a (x + 10) ^^^ lane64 a (x + 15) ^^^ lane64 a (x + 20))
  let d := (List.range 5).map (fun x => lane64 c ((x + 4) % 5) ^^^ (lane64 c ((x + 1) % 5)).rotateLeft 1)
  let t := (List.range 25).map (fun i => lane64 a i ^^^ lane64 d (i % 5))
  -- lane (X, Y) of the result of pi is lane ((X + 3 Y) mod 5, X), rotated
  let b := (List.range 25).map (fun i =>
    let src := (i % 5 + 3 * (i / 5)) % 5 + 5 * (i % 5)
    (lane64 t src).rotateLeft ((keccakRot[src]?).getD 0))
  let e := (List.range 25).map (fun i =>
    lane64 b i ^^^ (~~~(lane64 b ((i + 1) % 5 + 5 * (i / 5))) &&& lane64 b ((i + 2) % 5 + 5 * (i / 5))))
  match e with
  | z :: rest => (z ^^^ rc) :: rest
  | [] => []

/-- Keccak-f[1600]. -/
def keccakF (a : List Dword) : List Dword := keccakRC.foldl keccakRound a

/-- Absorbs the blocks of `n` times 136 bytes at the head of `bs`. -/
def absorb : Nat → List Byte → List Dword → List Dword
  | 0, _, a => a
  | n + 1, bs, a =>
    let x := (List.range 25).map (fun i =>
      if i < 17 then lane64 a i ^^^ BitVec.ofNat 64 (ofBytesLE ((bs.drop (8 * i)).take 8)) else lane64 a i)
    absorb n (bs.drop 136) (keccakF x)

/-- The message with the padding of SHAKE: 1111, then 10*1, to whole blocks of 136 bytes. -/
def shakePad (bs : List Byte) : List Byte :=
  let k := 136 - bs.length % 136
  if k = 1 then bs ++ [0x9F] else bs ++ [0x1F] ++ List.replicate (k - 2) 0 ++ [0x80]

/-- The first 64 bytes of SHAKE256 of a message. -/
def shake256 (bs : List Byte) : List Byte :=
  let m := shakePad bs
  (absorb (m.length / 136) m (List.replicate 25 0)).flatMap (fun w => bytesLE 8 w.toNat) |>.take 64

/-- Extends measurement register `k` by the bytes `x`: M_k := SHAKE256(M_k followed by x), its first 512 bits (R423). Byte i of a register is
its bits [8i + 7 : 8i] (R5; log entry 61). -/
def State.extendMeas (s : State) (k : Nat) (x : List Byte) : State :=
  let old := (s.meas[k]?).getD 0
  { s with meas := s.meas.set k (BitVec.ofNat 512 (ofBytesLE (shake256 (bytesLE 64 old.toNat ++ x)))) }

/-- Field of a module register. -/
def State.modField (s : State) (off hi lo : Nat) : Nat := bitsOf (s.reg off).toNat hi lo

/-- m.boot: failure code and stage (R419). -/
def State.setBoot (s : State) (stage code : Nat) : State := s.setReg 0x000 (BitVec.ofNat 64 (code * 65536 + stage))

/-- The boundaries that the part has, by the numbering of R419: VS die with MX die, VS die with the next VS die, VS die with the hub. On
the OZ-9620 the one ring boundary is number 4 (log entry 62). -/
def boundaries (p : Part) : Nat :=
  let c := (Config.caps p).toNat
  let vs := bitsOf c 23 20
  let mx := bitsOf c 19 16
  let ring := match p with | .oz9620 => 1 | _ => vs
  mx + 16 * ring + 256 * vs

/-- Channels that fail the test of stage 3: fenced (R418). -/
def State.fenceChannels (s : State) (bad : Nat) : State :=
  { s with fencedChans := (List.range 128).filter (fun c => bad.testBit c) }

/-- Before the hub clears recovery mode, every write issued during it is performed (R319). -/
def State.clearRecovery (s : State) : State :=
  let s1 := s.posted.foldl (fun s p => s.performInOrder p) s
  s1.setReg 0x004 (s1.reg 0x004 &&& 0x7FFFFFFF#64)

/-- What stage `n` of start-up does; `bad` is the mask of what fails its test there (R418). -/
def State.bootStage (s : State) (n bad : Nat) : State :=
  match n with
  | 1 => (s.extendMeas 0 (Config.firmware 0)).extendMeas 1 (Config.firmware 1)
  | 2 =>
    let all := boundaries s.part
    let lost := all &&& bad
    s.setReg 0x004 (BitVec.ofNat 64 (2 ^ 31 + lost * 65536 + (all - lost)))
  | 3 => s.fenceChannels bad
  | 4 => (List.range 6).foldl (fun s k => s.extendMeas (k + 2) (Config.firmware (k + 2))) s.clearRecovery
  | 5 =>
    -- the host link trains down by bad mod 8 rates and by bad / 8 halvings of its width (R420)
    s.setReg 0x008 (BitVec.ofNat 64 (2 ^ 16 + 16 / 2 ^ min 4 (bad / 8) * 256 + (6 - min 5 (bad % 8))))
  | 6 =>
    let c := (Config.caps s.part).toNat
    let up := bitsOf c 15 12 * 2 ^ 28 + bitsOf c 11 10 * 2 ^ 24 + bitsOf c 9 8 * 2 ^ 20
    s.setReg 0x008 (BitVec.ofNat 64 (s.modField 0x008 16 0 + (up - (up &&& bad))))
  | _ => s

/-- The failure codes of R418; 0 where a stage has none. -/
def bootFailCode (n : Nat) : Nat := if n = 1 ∨ n = 2 ∨ n = 3 ∨ n = 5 then n else 0

/-- Boundaries `lost`, by their bits: VS die `d` still has a way to the hub, over its own boundary or that of a neighbour in the ring (R17, R26). The
first argument bounds the way. -/
def reachesHub (p : Part) (lost : Nat) : Nat → Nat → Bool
  | 0, _ => false
  | n + 1, d =>
    let open_ := fun (b : Nat) => (boundaries p).testBit b && !lost.testBit b
    let ring := match p with | .oz9620 => [(1 - d, 4)] | _ => [((d + 1) % 4, 4 + d), ((d + 3) % 4, 4 + (d + 3) % 4)]
    (Config.caps p).getLsbD (20 + d) && (open_ (8 + d) || ring.any (fun x => open_ x.2 && reachesHub p lost n x.1))

/-- Every partition can still be formed: each of the 32 has at least a cluster on a die with a way to the hub, and two channels that passed their
test (R402, R403, R418; log entry 104). -/
def State.canForm (s : State) : Bool :=
  let c := Config.caps s.part
  let dies := (List.range 4).filter (fun d => c.getLsbD (20 + d) && reachesHub s.part (s.modField 0x004 27 16) 4 d)
  let towers := (List.range 8).filter (fun t => c.getLsbD (if t < 4 then 20 + t else 12 + t))
  let chans := towers.flatMap (fun t => (List.range 16).filter (fun k => !s.fencedChans.contains (t * 16 + k)))
  32 ≤ 16 * dies.length && 64 ≤ chans.length

/-- The hub sets recovery mode, or clears it (R319). -/
def State.setRecovery (s : State) (on : Bool) : State :=
  if on then s.setReg 0x004 (s.reg 0x004 ||| 0x80000000#64) else s.clearRecovery

/-- Start-up takes its next stage, or stops with a failure code; what fails in stages 2 and 3 is fenced, and the sequence goes on where every partition
can still be formed. After the last stage, or a stop, the module is reset again (R418); or, where the event is not `ok`, the hub sets recovery mode,
or clears it where `bad` is 0: R319 does not say on what grounds it does so after start-up (R319; log entry 120). -/
def execReset (ok : Bool) (bad : Nat) (s : State) : Out :=
  let n := s.modField 0x000 3 0 + 1
  .next (if 7 < n ∧ s.modField 0x000 31 16 = 0 ∧ !ok then s.setRecovery (bad != 0)
  else if s.modField 0x000 31 16 ≠ 0 ∨ 7 < n then { State.resetOf s.part with agenda := s.agenda, fresh := s.fresh }
  else if n = 2 ∨ n = 3 then
    let s1 := s.bootStage n bad
    s1.setBoot n (if s1.canForm then 0 else bootFailCode n)
  else if !ok ∧ bootFailCode n ≠ 0 then s.setBoot n (bootFailCode n)
  else (s.bootStage n bad).setBoot n 0)

/-- m.pwr as the sensors measure it, from a free word: a power of at most 2,400 W, and any temperature (R31, R419; log entry 5). -/
def pwrWord (w : Word) : Dword := BitVec.ofNat 64 (bitsOf w.toNat 31 16 * 65536 + bitsOf w.toNat 15 0 % 2401)

/-- What a read of a register of the module block returns. m.pwr shows what the sensors measure as it is read, which the spec leaves open within the
envelope; before the first stage of start-up it reads 0 (R31, R419; log entry 5). -/
def State.readModule (s : State) (off : Nat) : Dword :=
  if off = 0x010 then (if s.modField 0x000 3 0 = 0 then 0 else pwrWord (Config.freeWord s.fresh)) else s.reg off

/-- The hub lowers the core and matrix clocks, to stay inside the envelope (R31, R419). -/
def execClockLower (coreMHz : Nat) (s : State) : Out :=
  .next (if coreMHz < s.modField 0x00C 27 16 then
    s.setReg 0x00C (BitVec.ofNat 64 (2 ^ 31 + coreMHz * 65536 + Config.hubMHz))
  else s)

/-- The hub restores the nominal clocks (R31, R419). -/
def execClockRestore (s : State) : Out := .next (s.setReg 0x00C nominalClk)

/-- A saturating error count of 32 bits (R419). -/
def State.countError (s : State) (off : Nat) : State := s.setReg off (BitVec.ofNat 64 (min (2 ^ 32 - 1) (s.modField off 31 0 + 1)))

/-- Poison of register `r` in lane `l` of a group (R297). -/
def Group.poisonReg (lane r : Nat) (g : Group) : Group :=
  { g with lanes := mapLanes (fun _ l => { l with bad := l.bad.put (r % 64) 1 }) (1#32 <<< lane) g.lanes }

/-- Poison of register `r` in the access slice of a group (R284, R297). -/
def Group.poisonSlice (r : Nat) (g : Group) : Group :=
  { g with acc := g.acc.map (fun (a : AccessSlice) => { a with lane := { a.lane with bad := a.lane.bad.put (r % 64) 1 } }) }

/-- An uncorrectable error poisons a granule of memory, a register of a lane, or one of an access slice (R297, R419). -/
def execUncorrectableError (site : ErrorSite) (s : State) : Out :=
  let s1 := s.countError 0x01C
  .next (match site with
  | .granule n => { s1 with poison := s1.poison.put n 1 }
  | .register core slot lane r => s1.updGroup core slot (Group.poisonReg lane r)
  | .sliceRegister core slot r => s1.updGroup core slot (Group.poisonSlice r))

/-- A corrected error is counted (R296, R419). -/
def execCorrectedError (s : State) : Out := .next (s.countError 0x018)

/-- Link `n` (R419). -/
def State.link (s : State) (n : Nat) : Link := (s.links.find? (fun x => x.idx == n)).getD (Link.zero n)

/-- Key slot `k` of a link holds a key. -/
def Link.has (l : Link) (k : Bool) : Bool := if k then l.key1 else l.key0

/-- Key slot `k` of a link, filled or emptied. -/
def Link.setKey (l : Link) (k v : Bool) : Link := if k then { l with key1 := v } else { l with key0 := v }

/-- Sets or clears bit `n` of a module register. -/
def State.setBit (s : State) (off n : Nat) (v : Bool) : State :=
  s.setReg off (if v then s.reg off ||| BitVec.ofNat 64 (2 ^ n) else s.reg off &&& ~~~(BitVec.ofNat 64 (2 ^ n)))

/-- Replaces a link; m.ide shows whether it holds two keys (R419, R421). -/
def State.putLink (s : State) (l : Link) : State :=
  ({ s with links := s.links.map (fun (x : Link) => if x.idx = l.idx then l else x) }).setBit 0x020 l.idx (l.key0 && l.key1)

/-- A link retrains: it keeps its keys, and what was sent meanwhile stands in the replay buffer under the slot of its first sending (R420,
R421; log entry 64). -/
def execLinkRetrain (link : Nat) (s : State) : Out :=
  let l := s.link link
  .next (if linkPresent s.part link ∧ l.has l.cur then s.putLink { l with replay := l.replay ++ [l.cur] } else s)

/-- The replay buffer with `n` flits more, first sent under the current slot (R421). -/
def Link.sends (l : Link) (n : Nat) : Link := { l with replay := l.replay ++ List.replicate n l.cur }

/-- A link with what it has sent since its last event; how much that is, is open (R421; log entry 64). -/
def State.afterSends (s : State) (link : Nat) : Link × State :=
  let (n, s1) := s.takeFree
  ((s.link link).sends n.toNat, s1)

/-- A rollover: refused with the busy response while a retire is pending; otherwise the other slot receives a key and becomes the current one,
and the old slot is to be retired (R421, R422). On a link without keys it installs the first one. -/
def execKeyRollover (link : Nat) (s0 : State) : Out :=
  .next (if !linkPresent s0.part link then s0
  else
    let (l, s) := s0.afterSends link
    if l.retirePending then s.putLink { l with busy := l.busy ++ [true] }
    else if !l.has l.cur then s.putLink { l.setKey l.cur true with busy := l.busy ++ [false] }
    else s.putLink { l.setKey (!l.cur) true with cur := !l.cur, retirePending := true, retireSent := false, busy := l.busy ++ [false] })

/-- The sender emits the retire message for the old slot, once the replay buffer holds no flit of it (R421). -/
def execRetireMessage (link : Nat) (s : State) : Out :=
  let l := s.link link
  .next (if linkPresent s.part link ∧ l.retirePending ∧ !l.retireSent ∧ !l.replay.contains (!l.cur) then s.putLink { l with retireSent := true } else s)

/-- The receiver gets the retire message, and drops the old key (R421). -/
def execRetireReceive (link : Nat) (s : State) : Out :=
  let l := s.link link
  .next (if linkPresent s.part link ∧ l.retireSent then s.putLink { l.setKey (!l.cur) false with retirePending := false, retireSent := false } else s)

/-- A flit is received under a key slot: one that names a slot without a key, or that is not intact, fails its integrity check, and nothing in it is
delivered; the others are delivered, and the flits that they acknowledge, whose number is open, leave the replay buffer (R421, R422; log entry 64). -/
def execFlitReceive (link : Nat) (slot intact : Bool) (s : State) : Out :=
  .next (if !linkPresent s.part link then s
  else
    let (l, s1) := s.afterSends link
    let (acked, s2) := s1.takeFree
    if intact ∧ l.has slot then s2.putLink { l with replay := l.replay.drop acked.toNat }
    else (s2.putLink l).setBit 0x024 link true)

/-- The measurement registers that a GET_MEASUREMENTS returns (R424): through a VF registers 0 to 7 and that of its own partition. -/
def State.measured (s : State) (via : Option Nat) : List (BitVec 512) :=
  match via with
  | none => s.meas
  | some v =>
    s.meas.take 8 ++ (match s.partOf v with | some p => if p < 8 then (s.meas.drop (8 + p)).take 1 else [] | none => [])

/-- The version of SPDM (R424). -/
def spdmVersion : Nat × Nat := (1, 3)

/-- The responses that select or carry signatures and measurement hashes: Falcon-1024, and SHAKE256 (R424; log entry 97). -/
def spdmSigned : SpdmKind → Bool
  | .negotiateAlgorithms | .challenge | .getMeasurements | .keyExchange => true
  | _ => false

/-- What the processor knows of the requester behind a mailbox. -/
def State.peer (s : State) (via : Option Nat) : SpdmPeer :=
  (s.spdmPeers.find? (fun (p : SpdmPeer) => p.via == via)).getD { via := via, negotiated := false, session := none }

/-- What a request does to a conversation: GET_VERSION starts it anew, NEGOTIATE_ALGORITHMS settles the algorithms, KEY_EXCHANGE, FINISH and END_SESSION
begin, establish and end a session (R424; log entry 97). -/
def SpdmPeer.after (p : SpdmPeer) (kind : SpdmKind) : SpdmPeer :=
  match kind with
  | .getVersion => { p with negotiated := false, session := none }
  | .negotiateAlgorithms => { p with negotiated := true }
  | .keyExchange => { p with session := some false }
  | .finish => { p with session := p.session.map (fun _ => true) }
  | .endSession => { p with session := none }
  | _ => p

/-- The security processor answers a request through the PF's mailbox or a VF's (R424). What the answer holds beyond its version, its algorithms and the
measurements is open (log entries 9, 97). -/
def State.answer (s : State) (kind : SpdmKind) (via : Option Nat) : State :=
  let error := decide (kind = .unsupported)
  let reply : SpdmReply :=
    { via := via, kind := kind, version := spdmVersion, error := error, signature := if spdmSigned kind then some .falcon1024 else none,
      hash := if spdmSigned kind then some .shake256 else none, measurements := if kind = .getMeasurements then s.measured via else [],
      payload := if error then [] else Config.spdmPayload kind s.fresh }
  let s1 := { s with
    spdm := s.spdm ++ [reply], fresh := s.fresh + 1,
    spdmPeers := (s.peer via).after kind :: s.spdmPeers.filter (fun (p : SpdmPeer) => p.via != via) }
  match via with
  | some v => if v < 64 then s1 else s
  | none => s1

/-- GET_VERSION (R424). -/
def execGetVersion (via : Option Nat) (s : State) : Out := .next (s.answer .getVersion via)
/-- GET_CAPABILITIES (R424). -/
def execGetCapabilities (via : Option Nat) (s : State) : Out := .next (s.answer .getCapabilities via)
/-- NEGOTIATE_ALGORITHMS (R424). -/
def execNegotiateAlgorithms (via : Option Nat) (s : State) : Out := .next (s.answer .negotiateAlgorithms via)
/-- GET_DIGESTS (R424). -/
def execGetDigests (via : Option Nat) (s : State) : Out := .next (s.answer .getDigests via)
/-- GET_CERTIFICATE (R424). -/
def execGetCertificate (via : Option Nat) (s : State) : Out := .next (s.answer .getCertificate via)
/-- CHALLENGE (R424). -/
def execChallenge (via : Option Nat) (s : State) : Out := .next (s.answer .challenge via)
/-- GET_MEASUREMENTS (R424). -/
def execGetMeasurements (via : Option Nat) (s : State) : Out := .next (s.answer .getMeasurements via)
/-- KEY_EXCHANGE (R424). -/
def execKeyExchange (via : Option Nat) (s : State) : Out := .next (s.answer .keyExchange via)
/-- FINISH (R424). -/
def execFinish (via : Option Nat) (s : State) : Out := .next (s.answer .finish via)
/-- HEARTBEAT (R424). -/
def execHeartbeat (via : Option Nat) (s : State) : Out := .next (s.answer .heartbeat via)
/-- KEY_UPDATE (R424). -/
def execKeyUpdate (via : Option Nat) (s : State) : Out := .next (s.answer .keyUpdate via)
/-- END_SESSION (R424). -/
def execEndSession (via : Option Nat) (s : State) : Out := .next (s.answer .endSession via)
/-- Every other request is answered with ERROR, UnsupportedRequest (R424). -/
def execUnsupportedRequest (via : Option Nat) (s : State) : Out := .next (s.answer .unsupported via)

end Sys2Proof.Machine
end

