-- ==== Sys2Proof/Machine/LaneOps.lean ====
section
/-! DEFINITION. Class 0x4, lane operations (R180 to R183). All lanes read before any lane writes (R10). -/

namespace Sys2Proof.Machine

/-- An exchange: each lane reads a of lane `src L`, or its own where that lane is not in ACTIVE (R181). -/
def exchange (f : Fields) (src : Issue → Nat → Nat) (s : State) (is : Issue) : Effect :=
  is.writes s f.ty f.dest.toNat (fun L =>
    let k := src is L
    is.val f.ty f.a (if k < 32 && is.mask.getLsbD k then k else L))

/-- Source lane of `xch.lane` for selector `i`. -/
def laneSource (i : Nat) : Nat := i % 32

/-- Source lane of `xch.rot`: rotate toward higher lanes. -/
def rotSource (L i : Nat) : Nat := (L + 32 - i % 32) % 32

/-- Source lane of `xch.pair`. -/
def pairSource (L i : Nat) : Nat := L ^^^ (i % 32)

/-- Source lane of `xch.seg`. -/
def segSource (L i : Nat) : Nat :=
  let w := 2 ^ min (i / 256 % 8) 5
  L - L % w + i % 32 % w

def execXchLane (f : Fields) (s : State) : Out :=
  runOp (.xchLane f) s (exchange f (fun is L => laneSource (is.word f.b L).toNat) s)

def execXchRot (f : Fields) (s : State) : Out :=
  runOp (.xchRot f) s (exchange f (fun is L => rotSource L (is.word f.b L).toNat) s)

def execXchPair (f : Fields) (s : State) : Out :=
  runOp (.xchPair f) s (exchange f (fun is L => pairSource L (is.word f.b L).toNat) s)

def execXchSeg (f : Fields) (s : State) : Out :=
  runOp (.xchSeg f) s (exchange f (fun is L => segSource L (is.word f.b L).toNat) s)

/-- One word for every lane of ACTIVE (R182). -/
def groupWord (f : Fields) (r : Issue → Word) (s : State) (is : Issue) : Effect :=
  is.writesWord s f.dest.toNat (fun _ => r is)

def boolWord (b : Bool) : Word := if b then 1 else 0

def execVoteAll (f : Fields) (s : State) : Out :=
  runOp (.voteAll f) s (groupWord f (fun is => boolWord (is.active.all (fun K => is.cond f.a K))) s)

def execVoteAny (f : Fields) (s : State) : Out :=
  runOp (.voteAny f) s (groupWord f (fun is => boolWord (is.active.any (fun K => is.cond f.a K))) s)

def execVoteUni (f : Fields) (s : State) : Out :=
  runOp (.voteUni f) s (groupWord f (fun is => boolWord (is.active.all (fun K => is.word f.a K == is.word f.a is.l0))) s)

def execBallot (f : Fields) (s : State) : Out :=
  runOp (.ballot f) s (groupWord f (fun is => maskOf (fun K => is.mask.getLsbD K && is.cond f.a K)) s)

def execElect (f : Fields) (s : State) : Out :=
  runOp (.elect f) s (fun is => is.writesWord s f.dest.toNat (fun L => boolWord (L == is.l0)))

def execFirst (f : Fields) (s : State) : Out :=
  runOp (.first f) s (fun is => is.writes s f.ty f.dest.toNat (fun _ => is.val f.ty f.a is.l0))

/-- The fold of a reduction in ascending lane order, with the flags of its steps (R183). -/
def laneFold (step : Nat → Nat → FRes) (one : Nat → FRes) : List Nat → FRes
  | [] => { bits := 0, flags := 0 }
  | x :: xs => xs.foldl (fun a y => let r := step a.bits y; { bits := r.bits, flags := a.flags ||| r.flags })
      (if xs = [] then one x else { bits := x, flags := 0 })

/-- A reduction of ACTIVE: `i32` and `n32` by `ri`, `f32` by `rf`; every lane counts as raising every flag (R183). -/
def laneReduce (f : Fields) (ri : Int → Int → Int) (rf : Bool → Nat → Nat → FRes) (s : State) (is : Issue) : Effect :=
  let xs := is.active.map (fun K => (is.val32 f.ty f.a K).toNat)
  let toI := fun x => if f.ty.signed then (BitVec.ofNat 32 x).toInt else (x : Int)
  let r :=
    if f.ty = .f32 then
      laneFold (rf is.ftz) (fun x =>
        match fmtF32.decode x with
        | .nan sig => fmtF32.nanRes sig
        | _ => { bits := fmtF32.flushIn is.ftz x, flags := 0 }) xs
    else laneFold (fun a b => { bits := (BitVec.ofInt 32 (ri (toI a) (toI b))).toNat, flags := 0 })
      (fun x => { bits := x, flags := 0 }) xs
  is.numeric s .b32 f.dest.toNat (fun _ => LaneRes.ofWord (BitVec.ofNat 32 r.bits) r.flags)

def execLredAdd (f : Fields) (s : State) : Out :=
  runOp (.lredAdd f) s (laneReduce f (fun x y => x + y) (fun fl x y => fmtF32.add x y f.rnd fl) s)

def execLredMin (f : Fields) (s : State) : Out :=
  runOp (.lredMin f) s (laneReduce f min (fun fl x y => fmtF32.minMax false x y fl) s)

def execLredMax (f : Fields) (s : State) : Out :=
  runOp (.lredMax f) s (laneReduce f max (fun fl x y => fmtF32.minMax true x y fl) s)

end Sys2Proof.Machine
end

