-- ==== Sys2Proof/Machine/MatrixEvents.lean ====
section
/-! DEFINITION. The events of the matrix engines: tile entries, chunks of tile transfers, commits, and chunks of epilogue stores
(R323, R325, R341, R356 to R368). -/

namespace Sys2Proof.Machine

/-- The owner of a transfer. -/
def TileXfer.owner (x : TileXfer) (w : Workgroup) : Owner :=
  { vf := w.vf, ctx := w.ctx, rcb := w.rcb, key := agentKey x.id (2 * x.moved + (if x.seen.isSome then 1 else 0)), core := x.core, slot := x.slot,
    start := x.start, pos := x.pos, func := x.func, clears := false }

/-- The owner of a matrix operation: of its bias read, or of the next chunk of its store. -/
def MatOp.owner (o : MatOp) (w : Workgroup) : Owner :=
  { vf := w.vf, ctx := w.ctx, rcb := w.rcb, key := agentKey o.id (if o.phase = .queued then 0 else o.landed + 1), core := o.core, slot := o.slot, start := o.start, pos := o.pos, func := o.func, clears := true }

/-- Changes a transfer of a workgroup. -/
def Workgroup.updXfer (w : Workgroup) (id : Nat) (f : TileXfer → TileXfer) : Workgroup :=
  { w with xfers := w.xfers.map (fun x => if x.id = id then f x else x) }

/-- Records a transfer fault, of the group in slot `slot`; of a workgroup that has ended, its record is written at once (R358, R383). -/
def State.recordXfault (s : State) (w : Workgroup) (f : FaultInfo) (slot : Nat) (pos : Word) (func : BitVec 16) (xfer : Option Nat) : State :=
  if w.ended then
    match s.region? w.vf w.rcb with
    | some r =>
      (s.recordUntaken r f [] func.toNat pos w.core slot).updWg w.id (fun y =>
        { y with xfers := y.xfers.filter (fun x => some x.id != xfer) })
    | none => s
  else
    s.updWg w.id (fun y =>
      { y with
        xfaults := y.xfaults ++ [{ info := f, delivered := [], slot := slot, pos := pos, func := func, xfer := xfer }],
        xfers := y.xfers.map (fun x => if some x.id = xfer then { x with failed := true, rerun := none, seen := none, absent := none } else x) })

/-- A `tile` entry stands at the head of a queue of the group. -/
def Group.tileHead (g : Group) (q : Nat) : Option (QEntry × BitVec 4) :=
  match g.feeds.find? (fun e => e.queue == q) with
  | some e =>
    match e.tile, e.complete with
    | some t, true => some (e, t)
    | _, _ => none
  | none => none

/-- Removes an entry from the group's queues. -/
def Group.dropEntry (g : Group) (id : Nat) : Group := { g with feeds := g.feeds.filter (fun e => e.id != id) }

/-- The engine takes the tile entry at the head of a queue (R325, R357, R358, R360; log entry 20). An entry that writes nothing leaves the tile's fill
offset (log entry 116), and nothing runs again once its fault has been serviced (log entry 119). -/
def execTileEntryRemove (core slot queue : Nat) (s : State) : Out :=
  .next (match s.group? core slot with
  | none => s
  | some g =>
    match g.tileHead queue, s.wg? g.wg with
    | some (e, t), some w =>
      match w.held with
      | none => s
      | some en =>
        let eng := s.engine en
        let d := TDesc.of (eng.tdesc.look t.toNat)
        let at0 := (eng.fill.look t.toNat).toNat
        let s1 := s.updGroup core slot (fun g => g.dropEntry e.id)
        if eng.tdesc.look t.toNat = 0 ∨ w.xfers.any (fun x => !x.failed && !x.loose && x.engine == en && x.buf == eng.buf t.toNat) then s
        else
          match e.fault with
          | some f => s1.recordXfault w f slot e.pos e.func none
          | none =>
            if (g.mdef.getLsbD 30 && w.touched t.toNat) ∨ d.size < at0 + e.count then
              s1.recordXfault w { cls := .operandExtent, addr := 0, stage2 := false } slot e.pos e.func none
            else
              let eng1 := ((eng.writeBuf (eng.buf t.toNat) at0 (readBytes e.bytes 0 e.count)).markDirty t.toNat)
              (s1.updWg w.id (fun y => y.keepTile eng t.toNat)).putEngine
                { eng1 with fill := eng1.fill.put t.toNat (BitVec.ofNat 32 (at0 + e.count)) }
    | _, _ => s)

/-- The workgroup that runs and owns the transfer. -/
def State.xferOwner (s : State) (id : Nat) : Option (Workgroup × TileXfer) :=
  (s.wgs.filter (fun w => !w.saved)).findSome? (fun w => (w.xfers.find? (fun x => x.id == id)).map (fun x => (w, x)))

/-- What a queued operation that names the tile may still read of a transfer into it that ends: the bytes from before it; of one whose tile a
`tclr` has taken away, the bytes from after it too, where the operation was launched before the `tclr` (R323, R357). -/
def TileXfer.viewsFor (x : TileXfer) (e : Engine) (o : MatOp) : List (Nat × Sparse 8) :=
  match x.left with
  | none => [(x.tile, x.old)]
  | some k => if o.id < k then [(x.tile, x.old), (x.tile, e.tiles.slice (tileKey x.buf 0) 32768)] else []

/-- The transfer leaves with its last chunk; operations that an `mfence.op` does not order after it may have read the tile before
it (R323). -/
def State.endXfer (s : State) (w : Workgroup) (x : TileXfer) : State :=
  (s.updWg w.id (fun y =>
    let y1 := { y with xfers := y.xfers.filter (fun z => z.id != x.id) }
    if x.store || x.loose then y1
    else { y1 with ops := y1.ops.map (fun o =>
      if o.queuedOn x.engine && o.names x.tile then { o with snaps := o.snaps ++ x.viewsFor (s.engine x.engine) o } else o) })).sweepWg w.id

/-- The `i`-th of the bytes that the workgroup's context owns and that an undefined byte of its transfer may be: those of its allocation, unless the
workgroup has ended, those of its engine's tile buffers, unless the engine has become free, and the `n` bytes `dst` that the transfer overwrites (R9; log
entry 5). -/
def State.ownByte (s : State) (w : Workgroup) (x : TileXfer) (dst : Sparse 8) (n i : Nat) : Byte :=
  let a := if w.ended then 0 else w.allocSize
  let t := if x.loose then 0 else tileKey 16 0
  let k := i % (a + t + n)
  if k < a then s.mem.look (w.pa + k)
  else if k < a + t then (s.engine x.engine).tiles.look (k - a)
  else dst.look (k - a - t)

/-- Byte `k` of chunk `c` of a `tst`: the tile's; of a tile that was touched, or whose engine has become free, an undefined one, which is a free choice
among the context's own (R9, R350, R356, R360; log entry 18). -/
def State.storedByte (s : State) (w : Workgroup) (x : TileXfer) (c : Nat × Nat × Nat) (dst : Sparse 8) (k : Nat) : Byte :=
  if x.touched || x.loose then s.ownByte w x dst c.2.2 (Config.freeWord (s.fresh + k)).toNat
  else (s.engine x.engine).tiles.look (tileKey x.buf (c.2.1 + k))

/-- A transfer meets the bytes `m` of its next chunk's place in memory: those that a `tld` reads, or that a `tst` is about to overwrite (R308,
R356). -/
def State.seeChunk (s : State) (w : Workgroup) (x : TileXfer) (m : Sparse 8) : State :=
  s.updWg w.id (fun y => y.updXfer x.id (fun z => { z with seen := some m, absent := none }))

/-- The bytes of chunk `c` of a transfer that met `was` in memory, where `now` stands at present; `mine` is what a `tst` stores. Of a 4-byte unit that was
written in between, a `tld` takes the old value or the new, and a `tst` leaves that value or its own: a free choice for each unit, but none while the
context records or replays (R308, R356; log entry 6). -/
def TileXfer.movedBytes (x : TileXfer) (c : Nat × Nat × Nat) (was now : Sparse 8) (mine : Nat → Byte) (free : Bool) (fresh k : Nat) : Byte :=
  let at_ := fun j => addrVa x.addr + c.1 + j
  let pick := free && raced at_ c.2.2 was.look now.look k && Config.freeBit (fresh + unitHead at_ k)
  if x.store then if pick then now.look k else mine k
  else if pick then now.look k else was.look k

/-- Moves chunk `c` of a transfer, of which `bytes` are the bytes. A transfer whose engine has become free has no tile any more: a `tld` writes nothing
(R350, R356; log entry 18). -/
def State.moveChunk (s : State) (w : Workgroup) (x : TileXfer) (c : Nat × Nat × Nat) (bytes : Nat → Byte) (pl : List Placed) : State :=
  let e := s.engine x.engine
  let old := if x.loose then [] else if x.moved = 0 ∧ x.high = 0 then w.cleanBuf e x.buf else x.old
  let s1 :=
    if x.store then s.writePieces (x.owner w) pl bytes
    else if x.loose then s
    else
      let e1 := e.writeBuf x.buf c.2.1 ((List.range c.2.2).map bytes)
      s.putEngine (if e.buf x.tile = x.buf then e1.markDirty x.tile else e1)
  let x1 := { x with moved := x.moved + 1, old := old, seen := none, absent := none }
  let s2 := s1.updWg w.id (fun y =>
    let y1 := y.updXfer x.id (fun _ => x1)
    if x.store || x.loose then y1
    else { y1 with xfers := y1.xfers.map (fun z =>
      if z.id ≠ x.id ∧ z.engine = x.engine ∧ z.buf = x.buf then z.coveredTo (x1.prefixLen x1.moved) else z) })
  if (xferChunks (TDesc.of x.desc) x.addr x.stride).length ≤ x1.moved then s2.endXfer w x1 else s2

/-- What stands in memory now at the place of a chunk; what the transfer met there, where it can no longer be reached. -/
def State.memoryNow (s : State) (w : Workgroup) (x : TileXfer) (c : Nat × Nat × Nat) (m : Sparse 8) : Sparse 8 :=
  match s.checkPieces (x.owner w) true x.notag (piecesOf x.addr (c.1 : Int) c.2.2 0 false) with
  | .go pl => s.readPieces pl
  | _ => m

/-- The turn of the next chunk of a transfer: a `tld` first reads it, and moves it at another moment; a `tst` first meets what it overwrites, and writes
at another moment (R308, R356). -/
def State.xferTurn (s : State) (w : Workgroup) (x : TileXfer) (ps : List Piece) : ChunkTurn :=
  if x.seen.isSome ∧ !x.store then s.chunkTurn (x.owner w) (s.blimitOf w) x.absent true x.notag []
  else s.chunkTurn (x.owner w) (s.blimitOf w) x.absent true x.notag ps

/-- What a `tst` is about to overwrite, where the next chunk's place passes its checks. -/
def State.overwrites (s : State) (w : Workgroup) (x : TileXfer) (ps : List Piece) : Option (Sparse 8) :=
  if x.store && x.seen.isNone && !s.vfPaused w.vf then
    match s.checkPieces (x.owner w) true x.notag ps with
    | .go pl => some (s.writtenNow pl)
    | _ => none
  else none

/-- The next chunk of a tile transfer (R308, R317, R356 to R358). Transfers of one tile take effect in order (R357). -/
def execTileTransferChunk (xfer : Nat) (s : State) : Out :=
  .next (match s.xferOwner xfer with
  | none => s
  | some (w, x) =>
    if x.failed ∨ w.acquiring x.start x.id ∨ w.xfers.any (fun y => !y.failed && !y.loose && y.id < x.id && y.engine == x.engine && y.buf == x.buf) then s
    else
      match (xferChunks (TDesc.of x.desc) x.addr x.stride)[x.moved]? with
      | none => s.endXfer w x
      | some c =>
        let ps := piecesOf x.addr (c.1 : Int) c.2.2 0 x.store
        match s.overwrites w x ps with
        | some m => s.seeChunk w x m
        | none =>
        match s.xferTurn w x ps with
        | .go s1 pl =>
          match x.seen with
          | none => s1.seeChunk w x (s1.readPieces pl)
          | some m =>
            let now := s1.memoryNow w x c m
            let bytes := x.movedBytes c m now (s1.storedByte w x c now) (s.quietLog w.vf w.ctx) s.fresh
            { s1 with fresh := s1.fresh + 64 }.moveChunk w x c bytes pl
        | .fail s1 f => (s1.recordXfault w f x.slot x.pos x.func (some x.id)).sweepWg w.id
        | .absent s1 => s1.updWg w.id (fun y => y.updXfer x.id (fun z => { z with absent := some (x.absent.getD 0) }))
        | .stay s1 => s1)

/-- The operation at the head of an engine's launch queue (R365). -/
def State.queueHead (s : State) (n : Nat) : Option (Workgroup × MatOp) :=
  let q := s.launchQueue n
  match q.find? (fun p => q.all (fun y => p.2.id ≤ y.2.id)) with
  | none => none
  | some p => (s.wg? p.1).map (fun w => (w, p.2))

/-- Records a fault of an operation; of a workgroup that has ended, its record is written and it is discarded (R351). -/
def State.recordOpFault (s : State) (w : Workgroup) (o : MatOp) (f : FaultInfo) : State :=
  if w.ended then
    match s.region? w.vf w.rcb with
    | some r =>
      ((s.recordUntaken r f [] o.func.toNat o.pos o.core o.slot).updWg w.id (fun y =>
        { y with ops := y.ops.filter (fun z => z.id != o.id) })).sweepWg w.id
    | none => s
  else s.updWg w.id (fun y => y.updOp o.id (fun z => { z with fault := some f, delivered := [], absent := none }))

/-- The byte at offset `off` of a tile, each granule taken from one of the views (R323). -/
def viewByte (views : List (Sparse 8)) (fresh off : Nat) : Byte :=
  match views with
  | [v] => v.look off
  | _ => ((views[(Config.freeWord (fresh + off / 32)).toNat % views.length]?).getD []).look off

/-- The views of tile `t` that an operation may read (R323, R360). -/
def MatOp.views (o : MatOp) (w : Workgroup) (e : Engine) (t : Nat) : List (Sparse 8) :=
  ((o.snaps.filter (fun p => p.1 == t)).map (fun p => p.2)) ++ tileViews w e t

/-- One operand of an operation as the array reads it at the commit. -/
def MatOp.side (o : MatOp) (w : Workgroup) (e : Engine) (d : Dword) (t : Nat) (r : Option Resv) (scales : Sparse 8) (fresh : Nat) : MatSide :=
  { d := TDesc.of d, resv := r, byte := viewByte (o.views w e t) fresh, scales := scales }

/-- The starting value of element (i, j) of accumulator `a`: the committed value (R365). -/
def Engine.startVal (e : Engine) (a i j : Nat) : Nat := (e.acc.look (accKey a (e.committed a) i j)).toNat

/-- The rows of M × N values that the multiply gives, with their flags (R339, R365). -/
def State.productRows (s : State) (w : Workgroup) (e : Engine) (o : MatOp) : List (List FRes) :=
  let b := o.blk
  let sa := o.side w e o.descA b.ta o.resA o.bytesA s.fresh
  let sb := o.side w e o.descB b.tb o.resB o.bytesB (s.fresh + 1024)
  let k := b.k (widerBits sa.d.ty sb.d.ty)
  (List.range b.m).map (fun i => (List.range b.n).map (fun j =>
    let start := if b.op = 1 then 0 else e.startVal (b.acc + j / 64) i (j % 64)
    if b.op = 3 then { bits := start, flags := 0 } else multiply sa sb k i j start))

/-- Element (i, j) of rows of values. -/
def rowsAt (rows : List (List FRes)) (i j : Nat) : Nat :=
  match rows[i]? with
  | some r => (match r[j]? with | some x => x.bits | none => 0)
  | none => 0

/-- Every flag of the values and of the epilogue (R327, R341, R366). -/
def opFlags (b : Block) (bias : List Word) (rows : List (List FRes)) : BitVec 5 :=
  rows.foldl (fun fl row =>
    let vals := row.map (fun x => x.bits)
    let f1 := row.foldl (fun (a : BitVec 5) x => a ||| x.flags) fl
    (List.range b.n).foldl (fun a j => a ||| (epilogueOut b bias (fun c => (vals[c]?).getD 0) j).flags) f1) 0

/-- The committed and the spare buffer of accumulator `a` change places, with the new values in place (R365). -/
def MatOp.commitAcc (o : MatOp) (rows : List (List FRes)) (e : Engine) (a : Nat) : Engine :=
  let part := a - o.blk.acc
  let b := 1 - e.committed a
  let val := fun i j =>
    if i < o.blk.m ∧ part * 64 + j < o.blk.n then rowsAt rows i (part * 64 + j)
    else if o.blk.op = 1 then 0 else e.startVal a i j
  { e with acc := fillRange e.acc (accKey a b 0 0) 8192 (fun k => BitVec.ofNat 32 (val (k / 64) (k % 64))),
           which := e.which.put a (BitVec.ofNat 1 b), accDirty := e.accDirty ||| BitVec.ofNat 4 (2 ^ a) }

/-- Commits an operation whose bias words are `bias` (R365, R366). -/
def State.commitOp (s : State) (w : Workgroup) (o : MatOp) (bias : List Word) : State :=
  let e := s.engine o.engine
  let rows := s.productRows w e o
  let e1 := o.blk.accs.foldl (fun e a => o.commitAcc rows e a) e
  let kept := o.blk.accs.foldl (fun (m : Sparse 32) a =>
    m.paste (accKey a (e1.committed a) 0 0) 8192 (e1.acc.slice (accKey a (e1.committed a) 0 0) 8192)) []
  let k := o.blk.k (widerBits (TDesc.of o.descA).ty (TDesc.of o.descB).ty)
  let s1 := { s with fresh := s.fresh + 2048 }.putEngine e1
  let s2 := s1.updWg w.id (fun y => y.updOp o.id (fun z =>
    { z with
      phase := if o.blk.store then .storing else .finished, flags := opFlags o.blk bias rows, bias := bias, snaps := [],
      values := if o.blk.store then kept else [],
      absent := none, buf0 := BitVec.ofNat 1 (e1.committed o.blk.acc), buf1 := BitVec.ofNat 1 (e1.committed (o.blk.acc + 1)) }))
  (s2.countMacs o.core w.vf w.ctx (o.blk.m * o.blk.n * k)).sweepWg w.id

/-- The pieces of the bias words (R366). -/
def MatOp.biasPieces (o : MatOp) : List Piece := if o.blk.bias then piecesOf o.blk.biasaddr 0 (4 * o.blk.n) 0 false else []

/-- The bias words of a read. -/
def biasWords (n : Nat) (m : Sparse 8) : List Word := (List.range n).map (fun j => BitVec.ofNat 32 (readLE m (4 * j) 4))

/-- The head of an engine's launch queue commits, unless its spare buffer is kept or a bias fault holds it (R351, R365, R366;
log entry 21). -/
def execMatrixCommit (engine : Nat) (s : State) : Out :=
  .next (match s.queueHead engine with
  | none => s
  | some (w, o) =>
    let e := s.engine engine
    if o.fault.isSome ∨ w.acquiring o.start o.id ∨ o.blk.accs.any (fun a => (s.retainer engine a (1 - e.committed a)).isSome) then s
    else
      match s.chunkTurn (o.owner w) (s.blimitOf w) o.absent false false o.biasPieces with
      | .go s1 pl => s1.commitOp w o (if o.blk.bias then biasWords o.blk.n (s1.readPieces pl) else [])
      | .fail s1 f => s1.recordOpFault w o f
      | .absent s1 => s1.updWg w.id (fun y => y.updOp o.id (fun z => { z with absent := some (o.absent.getD 0) }))
      | .stay s1 => s1)

/-- Consecutive equal numbers once. -/
def dedupNext : List Nat → List Nat
  | [] => []
  | a :: l => match l.head? with
    | some b => if a = b then dedupNext l else a :: dedupNext l
    | none => [a]

/-- The 64-byte blocks that a store writes, as offsets from the block that holds its destination, ascending (R367; log entry 41). -/
def Block.storeBlocks (b : Block) : List Nat :=
  let d := addrVa b.dest
  dedupNext ((List.range b.m).flatMap (fun i =>
    let lo := (d + i * b.stride) / 64
    let hi := (d + i * b.stride + b.n * outBytes b.otype - 1) / 64
    (List.range (hi - lo + 1)).map (fun k => lo + k - d / 64)))

/-- Row and byte of the row that offset `k` of block `blk` holds, if the store writes it. -/
def Block.byteAt (b : Block) (blk k : Nat) : Option (Nat × Nat) :=
  let d := addrVa b.dest
  let a := (d / 64 + blk) * 64 + k
  if a < d ∨ b.stride = 0 then none
  else
    let i := (a - d) / b.stride
    let o := (a - d) % b.stride
    if i < b.m ∧ o < b.n * outBytes b.otype then some (i, o) else none

/-- The runs of bytes of a block that a store writes: first offset and length. -/
def runsOf (p : Nat → Bool) : Nat → List (Nat × Nat)
  | 0 => []
  | n + 1 =>
    let l := runsOf p n
    if p n then
      match l.getLast? with
      | some (a, m) => if a + m = n then l.dropLast ++ [(a, m + 1)] else l ++ [(n, 1)]
      | none => [(n, 1)]
    else l

/-- The pieces of chunk `blk` of a store (R367). -/
def Block.storePieces (b : Block) (blk : Nat) : List Piece :=
  let d := addrVa b.dest
  (runsOf (fun k => (b.byteAt blk k).isSome) 64).flatMap (fun r =>
    piecesOf b.dest (((d / 64 + blk) * 64 + r.1 : Nat) - (d : Int)) r.2 r.1 true)

/-- Element (i, j) of the buffer that the operation's store keeps (R367). -/
def MatOp.kept (o : MatOp) (i j : Nat) : Nat :=
  (o.values.look (accKey (o.blk.acc + j / 64) (if j < 64 then o.buf0.toNat else o.buf1.toNat) i (j % 64))).toNat

/-- The bytes of chunk `blk` of a store. -/
def MatOp.storeByte (o : MatOp) (blk k : Nat) : Byte :=
  match o.blk.byteAt blk k with
  | none => 0
  | some (i, x) =>
    let n := outBytes o.blk.otype
    BitVec.ofNat 8 ((epilogueOut o.blk o.bias (o.kept i) (x / n)).bits / 256 ^ (x % n))

/-- The workgroup that runs and owns the operation. -/
def State.opOwner (s : State) (id : Nat) : Option (Workgroup × MatOp) :=
  (s.wgs.filter (fun w => !w.saved)).findSome? (fun w => (w.ops.find? (fun o => o.id == id)).map (fun o => (w, o)))

/-- A chunk of a store has landed; the last one sets the tag and gives up the buffer (R367). -/
def State.landStore (s : State) (w : Workgroup) (o : MatOp) : State :=
  let last := o.blk.storeBlocks.length ≤ o.landed + 1
  (s.updWg w.id (fun y =>
    let y1 := y.updOp o.id (fun z =>
      { z with landed := o.landed + 1, absent := none, phase := if last then .finished else .storing,
               resumed := if last then false else z.resumed, values := if last then [] else z.values })
    if last then y1.retag o.blk.tag else y1)).sweepWg w.id

/-- The next chunk of an epilogue store (R367, R368, R317). -/
def execEpilogueStoreChunk (op : Nat) (s : State) : Out :=
  .next (match s.opOwner op with
  | none => s
  | some (w, o) =>
    match decide (o.phase = .storing) && !w.acquiring o.start o.id, o.fault, o.blk.storeBlocks[o.landed]? with
    | true, none, some blk =>
      match s.chunkTurn (o.owner w) (s.blimitOf w) o.absent true false (o.blk.storePieces blk) with
      | .go s1 pl => (s1.writePieces (o.owner w) pl (o.storeByte blk)).landStore w o
      | .fail s1 f => s1.recordOpFault w o f
      | .absent s1 => s1.updWg w.id (fun y => y.updOp o.id (fun z => { z with absent := some (o.absent.getD 0) }))
      | .stay s1 => s1
    | _, _, _ => s)

end Sys2Proof.Machine
end

