-- ==== Sys2Proof/Machine/Tenancy.lean ====
section
/-! DEFINITION. The events of the tier engine, of partitions and dies, of VFs, their groups, their logs, their invalidations and their guest
switches (R385, R391, R392, R399 to R418). -/

namespace Sys2Proof.Machine

/-- The tier engine starts to promote the page that comes next for the current context's set or for a gated region, once no promotion for which an
access waits stands by, or to write one down (R110, R282, R411, R412). -/
def execTierMove (vf page : Nat) (up : Bool) (s : State) : Out :=
  .next (match s.partOf vf, s.s2Leaf vf (page * 65536) with
  | some p, some l =>
    let comes : Option Leaf → Bool := fun x => match x with | some y => y.pa == l.pa | none => false
    if !s.hasCxl ∨ s.moving l.pa then s
    else if up then
      let gated : Bool := match s.gateUp p with | some (v, y) => v == vf && y.pa == l.pa | none => false
      if !s.fillWaits p ∧ (comes (s.setUp vf) ∨ gated) then s.startFill vf (s.curCtx vf) l.base else s
    else if l.tier = 0 then
      match s.downFor p vf l, s.cxlFor p vf l with
      | some c, some dst => s.startMove vf c l dst false
      | _, _ => s
    else s
  | _, _ => s)

/-- A page move ends, and the arbiter judges the regions that wait for residency (R104, R110, R411). -/
def execPageMoveComplete (move : Nat) (s : State) : Out :=
  .next (match s.moves.find? (fun (m : PageMove) => m.id == move) with
  | some mv => (s.endMove mv).rejudgeVf mv.vf
  | none => s)

/-- The die of a frame in a tower: towers d and 4 + d are bonded over die d (R402). -/
def onDie (d pa : Nat) : Bool := pa < Config.cxlBase && pa / Config.towerBytes % 4 == d

/-- m.diest with a new state of die `d`. -/
def State.setDieState (s : State) (d st : Nat) : State :=
  let v := (s.reg 0x104).toNat
  s.setReg 0x104 (BitVec.ofNat 64 (v - bitsOf v (4 * d + 3) (4 * d) * 2 ^ (4 * d) + st * 2 ^ (4 * d)))

/-- m.diest with a new result. -/
def State.setDieResult (s : State) (r : Nat) : State := s.setReg 0x104 (BitVec.ofNat 64 (s.modField 0x104 27 0 + r * 2 ^ 28))

/-- The enabled partitions. -/
def State.partsOn (s : State) : List Nat := (List.range 32).filter s.partEnabled

/-- A partition has clusters or channels on a die. -/
def State.partOnDie (s : State) (p d : Nat) : Bool :=
  bitsOf (s.partReg p 0x008).toNat (16 * d + 15) (16 * d) != 0 || bitsOf (s.partReg p 0x010).toNat (16 * d + 15) (16 * d) != 0 ||
    bitsOf (s.partReg p 0x018).toNat (16 * d + 15) (16 * d) != 0

/-- The die holds every cluster of the partition (log entry 66). -/
def State.allOnDie (s : State) (p d : Nat) : Bool :=
  let v := (s.partReg p 0x008).toNat
  v != 0 && v == bitsOf v (16 * d + 15) (16 * d) * 2 ^ (16 * d)

/-- Sets the bit of a die in p.stat of the partitions that it affects, or clears it in every p.stat (R402, R416). -/
def State.showDie (s : State) (d : Nat) (v : Bool) : State :=
  (if v then s.partsOn.filter (fun p => s.partOnDie p d) else List.range 32).foldl (fun s p => s.setBit (partBase p + 0x004) (4 + d) v) s

/-- The application cores of the partitions that a die affects are interrupted (R416). -/
def State.tellPartitions (s : State) (d : Nat) : State :=
  { s with interrupts := s.interrupts ++ (s.partsOn.filter (fun p => s.partOnDie p d)).map Interrupt.partition }

/-- The fast-tier pages framed in the towers of a die, with their VFs and partitions. -/
def State.pagesOnDie (s : State) (d : Nat) : List (Nat × Nat × Leaf) :=
  s.partsOn.flatMap (fun p => (s.vfsOf p).flatMap (fun v =>
    ((s.s2Leaves v).filter (fun l => l.tier == 0 && onDie d l.frame)).map (fun l => (p, v, l))))

/-- Where a page of a fenced die goes: a free frame of the partition's channels on other dies, or its CXL frame (R416). -/
def State.offPlace (s : State) (p vf : Nat) (l : Leaf) : Option Nat :=
  match s.freeFrame p l.bits with
  | some f => some f
  | none => s.cxlFor p vf l

/-- The tier engine starts the moves of the pages of a die that can be placed (R416). -/
def State.startOff (s : State) (d : Nat) : State :=
  (s.pagesOnDie d).foldl (fun s x =>
    let (p, v, l) := x
    match s.offPlace p v l with
    | some dst => s.startMove v ((s.holderOf v l).getD (s.curCtx v)) l dst false
    | none => s) s

/-- A move towards a fenced die ends off it: at another place, or where the page came from, and what stands by for a frame is tried again (R411,
R417). -/
def State.redirect (s : State) (d : Nat) (mv : PageMove) : State :=
  if !onDie d mv.dst then s
  else
    let l : Leaf := { base := mv.gpa, bits := mv.bits, pa := mv.leaf, frame := mv.src, tier := 2, touched := false, dirty := false }
    let dst := (match s.partOf mv.vf with | some p => s.offPlace p mv.vf l | none => none).getD mv.src
    if dst = mv.src then
      { s with
        mem := setLeaf s.mem mv.leaf (if inCxl mv.src then 1 else 0) mv.src, moves := s.moves.filter (fun x => x.id != mv.id) }.serveFills
    else { s with moves := s.moves.map (fun x => if x.id = mv.id then { x with dst := dst } else x) }

/-- The checks of an offline command: ABSENT, BUSY, LAST; 0 where it passes (R416). -/
def State.offlineResult (s : State) (d : Nat) : Nat :=
  if 4 ≤ d ∨ !s.vsDie d then 4
  else if (List.range 4).any (fun k => s.dieState k == 1 || s.dieState k == 2) then 2
  else if s.partsOn.any (fun p => s.allOnDie p d) then 3
  else 0

/-- An offline command (R415, R416). -/
def execDieOffline (die : Nat) (s : State) : Out :=
  .next (if s.offlineResult die ≠ 0 then s.setDieResult (s.offlineResult die)
  else
    let s1 := ((s.setDieState die 1).showDie die true).tellPartitions die
    (s1.moves.foldl (fun s mv => s.redirect die mv) s1).startOff die)

/-- The moves of an offline command have ended: NO_ROOM where a page cannot be placed, else the die drains (R416). -/
def execDiePagesMoved (die : Nat) (s : State) : Out :=
  .next (if 4 ≤ die ∨ s.dieState die ≠ 1 ∨ s.moves.any (fun mv => onDie die mv.src || onDie die mv.dst) then s
  else if s.pagesOnDie die = [] then s.setDieState die 2
  else if (s.pagesOnDie die).any (fun x => (s.offPlace x.1 x.2.1 x.2.2).isSome) then s.startOff die
  else ((s.setDieState die 4).setDieResult 1).tellPartitions die)

/-- The last workgroup on a draining die has ended: the die is offline (R416). -/
def execDieDrained (die : Nat) (s : State) : Out :=
  .next (if die < 4 ∧ s.dieState die = 2 ∧ !s.wgs.any (fun w => w.core / 64 == die && !w.ended) then
    (s.setDieState die 3).setDieResult 0
  else s)

/-- An online command returns a fenced or offline die (R416). -/
def execDieOnline (die : Nat) (s : State) : Out :=
  .next (if die < 4 ∧ (s.dieState die = 3 ∨ s.dieState die = 4) then ((s.setDieState die 0).setDieResult 0).showDie die false
  else s)

/-- The number of set bits of the low 64. -/
def popcount (v : Nat) : Nat := ((List.range 64).filter (fun i => v.testBit i)).length

/-- Every cluster of p.clu lies on a die that is present and not fenced. -/
def State.clustersPresent (s : State) (p : Nat) : Bool :=
  (List.range 4).all (fun d =>
    bitsOf (s.partReg p 0x008).toNat (16 * d + 15) (16 * d) == 0 || (s.vsDie d && s.dieState d == 0))

/-- Every channel of p.chan0 and p.chan1 belongs to a tower whose die is present and not fenced. -/
def State.channelsPresent (s : State) (p : Nat) : Bool :=
  (List.range 4).all (fun d =>
    (bitsOf (s.partReg p 0x010).toNat (16 * d + 15) (16 * d) == 0 || (s.vsDie d && s.dieState d == 0)) &&
      (bitsOf (s.partReg p 0x018).toNat (16 * d + 15) (16 * d) == 0 || ((Config.caps s.part).getLsbD (16 + d) && s.dieState d == 0)))

/-- Check 0x01 of R403. -/
def State.partHasUnits (s : State) (p : Nat) : Bool :=
  let c := Config.caps s.part
  let io := (s.partReg p 0x034).toNat
  s.partReg p 0x008 != 0 && s.clustersPresent p && 2 ≤ popcount (s.partReg p 0x020).toNat &&
    2 ≤ popcount (s.partReg p 0x010).toNat + popcount (s.partReg p 0x018).toNat && s.channelsPresent p &&
    bitsOf io 5 4 < 2 && c.getLsbD (10 + bitsOf io 5 4) && c.getLsbD (8 + bitsOf io 8 8)

/-- Partitions `p` and `q` hold no unit in common (check 0x02 of R403). A virtual port is an Ethernet port and an index (log entry 65). -/
def State.partsApart (s : State) (p q : Nat) : Bool :=
  let io := fun x => (s.partReg x 0x034).toNat
  let gib := fun x => (bitsOf (s.partReg x 0x028).toNat 55 30, bitsOf (s.partReg x 0x030).toNat 13 0)
  let vfs := fun x => (bitsOf (s.partReg x 0x038).toNat 14 8, bitsOf (s.partReg x 0x038).toNat 6 0)
  [0x008, 0x010, 0x018, 0x020].all (fun o => s.partReg p o &&& s.partReg q o == 0) &&
    !((gib p).2 != 0 && (gib q).2 != 0 && meets (gib p).1 (gib p).2 (gib q).1 (gib q).2) &&
    !((vfs p).2 != 0 && (vfs q).2 != 0 && meets (vfs p).1 (vfs p).2 (vfs q).1 (vfs q).2) &&
    !(bitsOf (io p) 5 4 == bitsOf (io q) 5 4 && bitsOf (io p) 3 0 == bitsOf (io q) 3 0)

/-- CXL capacity installed, in GiB: on a part with CXL ports all that R24 allows (log entry 91). -/
def State.cxlGib (s : State) : Nat := if s.hasCxl then Config.cxlBytes / 2 ^ 30 else 0

/-- The dstore allowances on a die of a partition and of the other enabled partitions with clusters there (check 0x05 of R403). -/
def State.dstoreSum (s : State) (p d : Nat) : Nat :=
  (((p :: s.partsOn.filter (fun q => q != p)).filter (fun q => bitsOf (s.partReg q 0x008).toNat (16 * d + 15) (16 * d) != 0)).map
    (fun q => bitsOf (s.partReg q 0x03C).toNat 7 0)).sum

/-- The reason of the first check of R403 that fails; 0 where all pass. -/
def State.partReason (s : State) (p : Nat) : Nat :=
  let others := s.partsOn.filter (fun q => q != p)
  let base := (s.partReg p 0x040).toNat
  if !s.partHasUnits p then 1
  else if !others.all (s.partsApart p) then 2
  else if base % 2 ^ 28 ≠ 0 ∨ others.any (fun q => meets base (2 ^ 28) (s.partReg q 0x040).toNat (2 ^ 28)) then 3
  else if s.cxlGib < bitsOf (s.partReg p 0x028).toNat 55 30 + bitsOf (s.partReg p 0x030).toNat 13 0 ∨
      bitsOf (s.partReg p 0x03C).toNat 7 0 = 0 then 4
  else if (List.range 4).any (fun d =>
      bitsOf (s.partReg p 0x008).toNat (16 * d + 15) (16 * d) != 0 && 128 < s.dstoreSum p d) then 5
  else 0

/-- p.stat with a new state, and with a new reason where one is given; a partition that is off shows no die (R402). -/
def State.setPartState (s : State) (p st : Nat) (reason : Option Nat) : State :=
  let v := (s.partReg p 0x004).toNat
  s.setReg (partBase p + 0x004)
    (BitVec.ofNat 64 ((reason.getD (bitsOf v 31 24)) * 2 ^ 24 + (if st = 0 then 0 else bitsOf v 7 4 * 16) + st))

/-- p.ctl.en is set: the checks of R403, and the measurement of the partition's OS image (R423). It waits for the last stage of start-up
(R418; log entry 67). -/
def execPartitionEnable (p : Nat) (s : State) : Out :=
  .next (if 32 ≤ p ∨ s.partEnabled p ∨ s.modField 0x000 3 0 < 7 then s
  else if s.partReason p ≠ 0 then s.setPartState p 3 (some (s.partReason p))
  else
    let n := (s.enables.look p).toNat
    let s1 := ((s.setBit (partBase p) 0 true).setPartState p 1 none)
    let s2 := { s1 with enables := s1.enables.put p (BitVec.ofNat 32 (n + 1)) }
    if p < 8 then s2.extendMeas (8 + p) (Config.osImage p n) else s2)

/-- Zeroes what the partition holds: its slices, its die store allowance, its channels and its CXL range (R399). -/
def State.zeroPart (s : State) (p : Nat) : State :=
  let s1 := ((List.range 256).filter (s.coreIn p)).foldl (fun s c => s.zeroMem (slicePa c 0) (2 ^ 20)) s
  let s2 := (List.range 4).foldl (fun s d => s.zeroMem (dieStorePa d p 0) (2 ^ 23)) s1
  let chans := (List.range 128).filter (fun k => s.frameIn p (k / 16 * Config.towerBytes + k % 16 * Config.channelBytes))
  let s3 := chans.foldl (fun s k => s.zeroMem (k / 16 * Config.towerBytes + k % 16 * Config.channelBytes) Config.channelBytes) s2
  (s.cxlRange p).foldl (fun s r => s.zeroMem r.1 r.2) s3

/-- The runtime state of the VFs `vs` of partition `p` is gone: regions, workgroups, groups, slots, what acts for them, and every engine of the
partition's clusters with what it retains. -/
def State.dropVfs (s : State) (p : Nat) (vs : List Nat) : State :=
  let own := fun (v : Nat) => vs.contains v
  let wgOwn := fun (id : Nat) => s.wgs.any (fun w => w.id == id && own w.vf)
  { s with
    groups := s.groups.filter (fun (g : Group) => !wgOwn g.wg), wgs := s.wgs.filter (fun (w : Workgroup) => !own w.vf),
    engines := s.engines.filter (fun (e : Engine) => !s.coreIn p e.idx),
    regions := s.regions.filter (fun (r : Region) => !own r.vf), departed := s.departed.filter (fun (w : Workgroup) => !own w.vf),
    dieBars := s.dieBars.filter (fun (b : DieBarrier) => !own b.vf), posted := s.posted.filter (fun (x : Posted) => !own x.vf),
    latchQs := (s.latchQs.map (fun (q : LatchQueue) => { q with waiters := q.waiters.filter (fun x =>
        match x with
        | .group c k _ => !((s.group? c k).map (fun g => wgOwn g.wg)).getD false
        | .arbiter v _ => !own v) })).filter (fun q => q.waiters != []),
    earlyGrants := s.earlyGrants.filter (fun x => !own x.1), bindings := s.bindings.filter (fun (b : Binding) => !own b.vf),
    shadows := s.shadows.filter (fun (h : Shadow) => !own h.vf), tlb := s.tlb.filter (fun (e : TlbEntry) => !own e.vf),
    moves := s.moves.filter (fun (m : PageMove) => !own m.vf), tierPages := s.tierPages.filter (fun (t : TierPage) => !own t.vf),
    downs := s.downs.filter (fun d => !own d.1), ctxSlices := s.ctxSlices.filter (fun x => !own x.1), invals := s.invals.filter (fun (x : Inval) => !own x.vf),
    watch := s.watch.filter (fun (u : WatchUnit) => !own u.vf), slots := s.slots.filter (fun (x : ShadowSlot) => !own x.vf),
    checkpoints := s.checkpoints.filter (fun (c : Checkpoint) => !own c.vf), switches := s.switches.filter (fun (x : Switch) => !own x.vf),
    stoppedVfs := s.stoppedVfs.filter (fun v => !own v), fills := s.fills.filter (fun f => !own f.1),
    cxPending := s.cxPending.filter (fun x => !own (x.1 / 64 / 65536)),
    cxRegs := s.cxRegs.filter (fun x => !(own (x.1 / 64 / 65536) && (x.1 % 64 == 0x1C || x.1 % 64 == 0x38))) }

/-- The regions that stand directly under a root of the VFs `vs`. -/
def State.topRegions (s : State) (vs : List Nat) : List (Nat × Nat) :=
  (s.regions.filter (fun r => vs.contains r.vf && !r.isRoot && !r.done &&
    (match s.region? r.vf r.parent with | some p => p.isRoot | none => true))).map (fun r => (r.vf, r.rcb))

/-- p.ctl.en is cleared: every region of the partition ends, its resources are zeroed, and its state becomes 0 (R403). -/
def execPartitionDisable (p : Nat) (s : State) : Out :=
  .next (if 32 ≤ p ∨ !s.partEnabled p then s
  else
    let vs := s.vfsOf p
    let s1 := (s.topRegions vs).foldl (fun s x => s.endSubtree x.1 x.2) s
    let s2 := ((s1.dropVfs p vs).zeroPart p).setBit (partBase p) 0 false
    (vs.foldl (fun s v => s.setVfReg v 0x040 (s.vfReg v 0x040 &&& 0xFFFF0000#64)) s2).setPartState p 0 none)

/-- A granted acquire of a group retires: it is performed again (R392). -/
def State.retireGranted (s : State) (g : Group) : State :=
  if g.park.isSome ∨ g.run = 0 ∨ !g.acquiring .granted then s
  else
    let s1 := s.issueAs g.core g.slot false g.run
    match s1.issue? with
    | none => s
    | some is =>
      match is.fetch s1 (is.g.lane (lowest g.run)) with
      | .op (.acqX f) => (match execAcqX f s1 with | .next t => t | _ => s)
      | .op (.acqS f) => (match execAcqS f s1 with | .next t => t | _ => s)
      | _ => s

/-- A group halts: what has been granted retires, the rest of its run is squashed, and it leaves the queues of latches (R391, R392). -/
def State.haltGroup (s : State) (core slot : Nat) : State :=
  match s.group? core slot with
  | none => s
  | some g =>
    let s1 := (s.retireGranted g).squash core slot false
    match s1.group? core slot with
    | none => s1
    | some g1 => (s1.leaveQueues g1).updGroup core slot (fun (x : Group) => x.squashWait.unqueued)

/-- A group all of whose lanes have retired ends, where its releases let it (R96, R400). -/
def State.tryGroupEnd (s : State) (core slot : Nat) : State :=
  match execGroupEnd core slot s with
  | .next t => t
  | _ => s

/-- The groups of the workgroups that satisfy `p`. -/
def State.groupsWhere (s : State) (p : Workgroup → Bool) : List Group :=
  s.groups.filter (fun (g : Group) => match s.wg? g.wg with | some w => p w | none => false)

/-- Steps 1 to 5 of R391 for the running workgroups that satisfy `p` (log entry 68). -/
def State.haltWgs (s : State) (p : Workgroup → Bool) : State :=
  let s1 := (s.groupsWhere p).foldl (fun s g => s.haltGroup g.core g.slot) s
  (s1.groupsWhere p).foldl (fun s g => s.tryGroupEnd g.core g.slot) s1

/-- The running workgroups that satisfy `p`. -/
def State.runningWgs (s : State) (p : Workgroup → Bool) : List Workgroup :=
  s.wgs.filter (fun (w : Workgroup) => p w && !w.saved && !w.ended)

/-- Saves every running workgroup that satisfies `p`, a shadow slot being spilled where both are held (R395). -/
def State.saveAll (s : State) (p : Workgroup → Bool) : State :=
  (s.runningWgs p).foldl (fun s w => (s.spill w).saveWg w) s

/-- p.ctl.stop is set: every core of the partition halts (R391, R402). -/
def execPartitionStop (p : Nat) (s : State) : Out :=
  .next (if 32 ≤ p ∨ !s.partEnabled p then s
  else
    let s1 := (s.setBit (partBase p) 1 true).setPartState p 2 none
    s1.haltWgs (fun w => (s.vfsOf p).contains w.vf))

/-- The step of a guest switch that a VF has reached; 0 where none is under way. -/
def State.switchStep (s : State) (vf : Nat) : Nat :=
  match s.switches.find? (fun (x : Switch) => x.vf == vf) with
  | some x => x.step
  | none => 0

/-- vf.sw with its step and its go bit (R404). -/
def State.showSwitch (s : State) (vf inc step : Nat) (go : Bool) : State :=
  s.setVfReg vf 0x040 (BitVec.ofNat 64 (inc % 65536 * 65536 + step * 16 + (if go then 1 else 0)))

/-- A guest switch reaches a step. -/
def State.setStep (s : State) (vf step : Nat) : State :=
  match s.switches.find? (fun (x : Switch) => x.vf == vf) with
  | some x =>
    { s with switches := s.switches.map (fun (y : Switch) => if y.vf = vf then { y with step := step } else y) }.showSwitch vf x.inc step true
  | none => s

/-- The VF is stopped, or is to be (R409). -/
def State.vfStopped (s : State) (vf : Nat) : Bool := (s.vfReg vf 0x000).getLsbD 2 || s.stoppedVfs.contains vf

/-- A guest switch can start: the incoming context is valid, and is not the current one (R408). -/
def State.switchOk (s : State) (vf inc : Nat) : Bool :=
  inc < (s.vfReg vf 0x054).toNat && (s.cxReg vf inc 0x100).getLsbD 0 && inc != s.curCtx vf

/-- A request for a guest switch. While the VF is stopped it is held (R408, R409). -/
def State.requestSwitch (s : State) (vf inc : Nat) : State :=
  if s.switches.any (fun (x : Switch) => x.vf == vf) then s.vfErr vf 4
  else
    let held := s.vfStopped vf
    if !held ∧ !s.switchOk vf inc then s.vfErr vf 4
    else
      { s with
        switches := s.switches ++ [({ vf := vf, out := s.curCtx vf, inc := inc, step := if held then 0 else 1 } : Switch)] }.showSwitch vf inc
        (if held then 0 else 1) true

/-- The saved workgroups of a context that their cores have room for. -/
def State.comingBack (s : State) (vf ctx : Nat) : List (Region × Workgroup × SavedWg) :=
  (s.wgs.filter (fun (w : Workgroup) => w.vf == vf && w.ctx == ctx && w.saved)).filterMap (fun w =>
    match s.region? w.vf w.rcb, s.savedOf w.id with
    | some r, some x => if s.restorable r w x then some (r, w, x) else none
    | _, _ => none)

/-- Step 4: the incoming context is current, and the arbiter examines the VF's root tree again (R408, R449). -/
def State.endSwitch (s : State) (x : Switch) : State :=
  let s1 := ((s.outgoing x.vf x.out x.inc).setVfReg x.vf 0x044 (BitVec.ofNat 64 x.inc)).showSwitch x.vf x.inc 0 false
  { s1 with switches := s1.switches.filter (fun (y : Switch) => y.vf != x.vf) }.rejudgeVf x.vf

/-- One piece of a guest switch: a step ends, or one workgroup is saved or restored (R408). -/
def State.moveSwitch (s : State) (x : Switch) : State :=
  let out := fun (w : Workgroup) => w.vf == x.vf && w.ctx == x.out
  match x.step with
  | 1 =>
    let s1 := (s.stopWgs out).haltWgs out
    if (s1.runningWgs out).all s1.settledForSave then s1.setStep x.vf 2 else s1
  | 2 =>
    match s.runningWgs out with
    | w :: _ => (s.spill w).saveWg w
    | [] => (s.applyCx x.vf x.inc).setStep x.vf 3
  | 3 =>
    match s.comingBack x.vf x.inc with
    | (r, w, y) :: _ => s.restoreWg r w y
    | [] => s.setStep x.vf 4
  | 4 => s.endSwitch x
  | _ => s

/-- A guest switch is requested, or one that is under way goes on; it rests while the VF is stopped (R408, R409; log entry 69). -/
def execGuestSwitch (vf incoming : Nat) (s : State) : Out :=
  .next (if 64 ≤ vf then s
  else match s.switches.find? (fun (x : Switch) => x.vf == vf) with
    | some x => if s.vfStopped vf then s else s.moveSwitch x
    | none => s.requestSwitch vf incoming)

/-- The VF save record of 64 bytes (R409). -/
def State.saveRecord (s : State) (vf : Nat) : List Byte :=
  let step := s.switchStep vf
  let (out, inc) := match s.switches.find? (fun (x : Switch) => x.vf == vf && x.step != 0) with | some x => (x.out, x.inc) | none => (0, 0)
  bytesLE 4 ((if step = 0 then 0 else 2 ^ 31) + step) ++ bytesLE 4 (out * 65536 + inc) ++ bytesLE 8 s.hubTime ++ List.replicate 48 0

/-- vf.ctl.stop is set: the VF is pre-empted at its next step boundary, and the save record is written at vf.save, a physical address (R404,
R409; log entry 10). This is the only pre-emption of a VF: R409 also speaks of one by switching the partition, for which the spec gives no register and
no event (log entry 128). -/
def execVfStop (vf : Nat) (s : State) : Out :=
  .next (if 64 ≤ vf ∨ s.stoppedVfs.contains vf then s
  else
    let mine := fun (w : Workgroup) => w.vf == vf
    let s1 := (((s.setBit (vfBase vf) 2 true).stopWgs mine).haltWgs mine)
    if (s1.runningWgs mine).all s1.settledForSave then
      let s2 := s1.saveAll mine
      let s3 := s2.storeBytes (s2.vfReg vf 0x048).toNat (s2.saveRecord vf)
      { s3 with stoppedVfs := vf :: s3.stoppedVfs }
    else s1)

/-- The VF is resumed. A guest switch that was under way restores the incoming context's workgroups and ends; a request that was held is made
now (R409). -/
def execVfResume (vf : Nat) (s : State) : Out :=
  .next (if 64 ≤ vf ∨ !s.stoppedVfs.contains vf then s
  else
    let s1 := { s.setBit (vfBase vf) 2 false with stoppedVfs := s.stoppedVfs.filter (fun v => v != vf) }
    match s1.switches.find? (fun (x : Switch) => x.vf == vf) with
    | some x =>
      if x.step = 0 then
        { s1 with switches := s1.switches.filter (fun (y : Switch) => y.vf != vf) }.showSwitch vf x.inc 0 false |>.requestSwitch vf x.inc
      else (s1.applyCx vf x.inc).setStep vf 3
    | none => s1.applyCx vf (s1.curCtx vf))

/-- The saved group of a VF that had a core and slot. -/
def State.savedGroupOf (s : State) (vf core slot : Nat) : Option (Workgroup × Group) :=
  s.slots.findSome? (fun x => if x.vf ≠ vf then none else x.wgs.findSome? (fun y =>
    (y.groups.find? (fun g => g.core == core && g.slot == slot)).map (fun g => (y.wg, g))))

/-- A group of a VF by its core and slot: the one of that VF that runs there, else one that is saved (R400, R406). The answer is the workgroup and the
group (log entry 70). -/
def State.groupOf (s : State) (vf core slot : Nat) : Option (Workgroup × Group) :=
  match (s.group? core slot).bind (fun g => (s.wg? g.wg).map (fun w => (w, g))) with
  | some x => if x.1.vf = vf then some x else s.savedGroupOf vf core slot
  | none => s.savedGroupOf vf core slot

/-- Changes a group, where it runs or where it is saved. -/
def State.changeGroup (s : State) (w : Workgroup) (g : Group) (f : Group → Group) : State :=
  if s.groups.any (fun (x : Group) => x.core == g.core && x.slot == g.slot && x.wg == w.id) then s.updGroup g.core g.slot f
  else s.updSavedGroups (fun x => x.core == g.core && x.slot == g.slot && x.wg == w.id) f

/-- A parked group goes on: its operation is performed again, or its next run is chosen (R385, R406). -/
def Group.unpark (g : Group) : Group := { g with park := none }

/-- The lanes of a saved group are killed: what this does to barriers happens at its restore (R93, R406). -/
def Group.killSaved (g : Group) : Group :=
  { g with lanes := g.lanes.map (fun l => { l with life := .retired }), park := none, wait := none, kept := [], episode := none }

/-- Kills the lanes of a group, where it runs or where it is saved. -/
def State.killAt (s : State) (w : Workgroup) (g : Group) : State :=
  if s.groups.any (fun (x : Group) => x.core == g.core && x.slot == g.slot && x.wg == w.id) then s.killGroup g.core g.slot
  else s.changeGroup w g Group.killSaved

/-- vf.grp operation 1: a parked group is resumed; anything else is discarded, and sets vf.err.grp (R406). -/
def execGroupResume (vf core slot : Nat) (s : State) : Out :=
  .next (match s.groupOf vf core slot with
  | some (w, g) => if g.park.isSome then s.changeGroup w g Group.unpark else s.vfErr vf 3
  | none => s.vfErr vf 3)

/-- vf.grp operation 2: the lanes of a parked group are killed (R93, R406). -/
def execGroupKill (vf core slot : Nat) (s : State) : Out :=
  .next (match s.groupOf vf core slot with
  | some (w, g) => if g.park.isSome then s.killAt w g else s.vfErr vf 3
  | none => s.vfErr vf 3)

/-- The dirty log's range passes its check (R414). -/
def State.dirtyLogOk (s : State) (vf : Nat) : Bool :=
  let n := bitsOf (s.vfReg vf 0x030).toNat 4 0
  9 ≤ n && n ≤ 24 && (s.vfReg vf 0x028).toNat % 4096 == 0 && s.gpaWritable vf (s.vfReg vf 0x028).toNat (8 * 2 ^ n)

/-- The check of R414: logging goes on from the read index and a halt ends, or logging is off and the VF halts at its next run boundary. -/
def State.checkDirtyLog (s : State) (vf : Nat) : State :=
  if s.dirtyLogOk vf then (s.setVfReg vf 0x038 (s.vfReg vf 0x03C)).setBit (vfBase vf) 1 false
  else ((s.setBit (vfBase vf + 0x034) 0 false).vfErr vf 1).setBit (vfBase vf) 1 true

/-- A write to vf.logc, vf.logb or vf.logn (R404, R414). Reserved bits that are not zero discard it (R8). -/
def execLogProgram (vf off : Nat) (value : Dword) (s : State) : Out :=
  .next (if 64 ≤ vf then s
  else if off = 0x034 then
    if value.toNat < 2 then
      let s1 := s.setVfReg vf off value
      if value = 1 then s1.checkDirtyLog vf else s1
    else s
  else if off = 0x028 ∨ (off = 0x030 ∧ value.toNat < 32) then
    let s1 := s.setVfReg vf off value
    if s.logging vf then s1.checkDirtyLog vf else s1
  else s)

/-- A write to cx.inv of the selected context: it is in effect, and busy reads 1; while one is in effect it is discarded, and sets vf.err.inv
(R407; log entry 71). Through a window that vf.nctx does not reach it is discarded (R405). -/
def State.invalidate (s : State) (vf kind page : Nat) : State :=
  let ctx := (s.vfReg vf 0x050).toNat % 65536
  if 64 ≤ vf ∨ (s.vfReg vf 0x054).toNat ≤ ctx then s
  else if s.invals.any (fun (x : Inval) => x.vf == vf && x.ctx == ctx) then s.vfErr vf 5
  else { s with invals := s.invals ++ [({ vf := vf, ctx := ctx, kind := kind, page := page % 2 ^ 40 } : Inval)] }.setCxReg vf ctx 0x138 1

/-- Kind 0: one 64 KiB page of stage one (R407). -/
def execInvalidatePageS1 (vf page : Nat) (s : State) : Out := .next (s.invalidate vf 0 page)
/-- Kind 1: every stage-one entry of the context (R407). -/
def execInvalidateAllS1 (vf : Nat) (s : State) : Out := .next (s.invalidate vf 1 0)
/-- Kind 2: one guest physical page (R407). -/
def execInvalidatePageS2 (vf page : Nat) (s : State) : Out := .next (s.invalidate vf 2 page)
/-- Kind 3: every entry of the VF (R407). -/
def execInvalidateVf (vf : Nat) (s : State) : Out := .next (s.invalidate vf 3 0)

/-- The TLB entries that an invalidation names. -/
def Inval.names (x : Inval) (e : TlbEntry) : Bool :=
  e.vf == x.vf &&
    (match x.kind with
     | 0 => e.ctx == x.ctx && meets e.base (2 ^ e.bits) (x.page * 65536) 65536
     | 1 => e.ctx == x.ctx
     | 2 => meets e.gpa (2 ^ e.bits) (x.page * 65536) 65536
     | _ => true)

/-- The invalidations of a VF are complete: what the VF's accesses have posted is performed, the entries are dropped, and busy reads 0 (R292, R407). -/
def execInvalidationComplete (vf : Nat) (s : State) : Out :=
  let mine := s.invals.filter (fun (x : Inval) => x.vf == vf)
  let s1 := if mine = [] then s else s.flushWhere (fun p => p.vf == vf)
  .next (mine.foldl (fun s x =>
    { s with
      tlb := s.tlb.filter (fun (e : TlbEntry) => !x.names e), invals := s.invals.filter (fun y => y != x) }.setCxReg x.vf x.ctx 0x138 0) s1)

end Sys2Proof.Machine
end

