-- ==== Sys2Proof/Machine/Observe.lean ====
section
/-! DEFINITION. The events of the observation facilities: the debugger, the samplers, the replay recorder and its checkpoints (R88, R93,
R428 to R430, R438 to R446). -/

namespace Sys2Proof.Machine

/-- Bit `b` of vf.dbgc. -/
def State.dbgBit (s : State) (vf b : Nat) : Bool := (s.vfReg vf 0x060).getLsbD b

/-- vf.dbgc with bit `b` set or cleared. -/
def State.setDbg (s : State) (vf b : Nat) (v : Bool) : State := s.setBit (vfBase vf + 0x060) b v

/-- A log area: its base, size, write and read index registers, the bytes of an entry, the range of n, the bits that size n takes, and the
bits of vf.dbgc that use it (R428, R429). -/
structure Area where
  base : Nat
  size : Nat
  windex : Nat
  rindex : Nat
  entry : Nat
  lo : Nat
  hi : Nat
  nbits : Nat
  uses : List Nat
  deriving DecidableEq, Repr

def debugArea : Area := { base := 0x068, size := 0x070, windex := 0x074, rindex := 0x078, entry := 64, lo := 4, hi := 12, nbits := 3, uses := [0] }
def samplerArea : Area := { base := 0x080, size := 0x088, windex := 0x08C, rindex := 0x090, entry := 48, lo := 6, hi := 20, nbits := 4, uses := [3, 4] }
def replayArea : Area := { base := 0x0A8, size := 0x0B0, windex := 0x0B4, rindex := 0x0B8, entry := 16, lo := 10, hi := 24, nbits := 4, uses := [1] }

/-- The area passes its check: n in range, and every page writable at stage two (R429; log entry 76). -/
def State.areaOk (s : State) (vf : Nat) (a : Area) : Bool :=
  let n := bitsOf (s.vfReg vf a.size).toNat a.nbits 0
  a.lo ≤ n && n ≤ a.hi && s.gpaWritable vf (s.vfReg vf a.base).toNat (a.entry * 2 ^ n)

/-- The check of R429: the write index starts at the read index, or every bit that uses the area is cleared and vf.err.dbg is set. -/
def State.checkArea (s : State) (vf : Nat) (a : Area) : State :=
  if s.areaOk vf a then s.setVfReg vf a.windex (s.vfReg vf a.rindex)
  else (a.uses.foldl (fun s b => s.setDbg vf b false) s).vfErr vf 6

/-- Sets bit `b` of vf.dbgc, with the check of its area, and with `f` where the check passes. -/
def State.enableArea (s : State) (vf b : Nat) (a : Area) (f : State → State) : State :=
  if 64 ≤ vf ∨ s.dbgBit vf b then s
  else
    let s1 := s.setDbg vf b true
    if s1.areaOk vf a then f (s1.checkArea vf a) else s1.checkArea vf a

/-- A debugger is attached (R428, R429). -/
def State.enableDebug (s : State) (vf : Nat) : State := s.enableArea vf 0 debugArea id

/-- Replay recording starts, and a checkpoint is due (R429, R442, R443). -/
def State.enableRecord (s : State) (vf : Nat) : State :=
  s.enableArea vf 1 replayArea (fun s => { s with
      checkpoints := s.checkpoints.map (fun (c : Checkpoint) => if c.vf = vf then { c with live := false } else c) })

/-- Replay mode is set or cleared (R445). -/
def State.setPlay (s : State) (vf : Nat) (on : Bool) : State := if 64 ≤ vf then s else s.setDbg vf 2 on

/-- The sampler starts: its counters count from 0, and the interval begins (R439). -/
def State.enableSampler (s : State) (vf : Nat) : State :=
  s.enableArea vf 3 samplerArea (fun s =>
    { s with
      counters := s.counters.filter (fun p => p.1 / 256 != vf), macs := s.macs.put vf 0, sampled := s.sampled.put vf (BitVec.ofNat 64 s.now) })

/-- The LFSRs of the sampled core's four issue slots are loaded (R440). -/
def State.loadLfsrs (s : State) (vf : Nat) : State :=
  let core := bitsOf (s.vfReg vf 0x094).toNat 31 24
  let seed := bitsOf (s.vfReg vf 0x0A0).toNat 31 16
  let v : BitVec 16 := if seed = 0 then 0xACE1 else BitVec.ofNat 16 seed
  { s with
    lfsrs := (List.range 4).map (fun k => { core := core, slot := k, v := v, inFlight := false }) ++
      s.lfsrs.filter (fun (x : Lfsr) => x.core != core) }

/-- Tagged-instruction sampling starts: the LFSRs are loaded (R440). -/
def State.enableTagging (s : State) (vf : Nat) : State := s.enableArea vf 4 samplerArea (fun s => s.loadLfsrs vf)

/-- A write to vf.smpi. Where it names another core while tagged-instruction sampling is on, that core's LFSRs are loaded as when it starts: R440 says when
they are loaded only for the core that is sampled then (log entry 126). -/
def State.writeSmpi (s : State) (vf : Nat) (v : Dword) : State :=
  let s1 := s.setVfReg vf 0x094 v
  if s.dbgBit vf 4 ∧ bitsOf v.toNat 31 24 ≠ bitsOf (s.vfReg vf 0x094).toNat 31 24 then s1.loadLfsrs vf else s1

/-- vf.dbgc.en is set. -/
def execDebugEnable (vf : Nat) (s : State) : Out := .next (s.enableDebug vf)
/-- vf.dbgc.rec is set. -/
def execRecordEnable (vf : Nat) (s : State) : Out := .next (s.enableRecord vf)
/-- vf.dbgc.play is set or cleared. -/
def execPlayEnable (vf : Nat) (on : Bool) (s : State) : Out := .next (s.setPlay vf on)
/-- vf.dbgc.smp is set. -/
def execSamplerEnable (vf : Nat) (s : State) : Out := .next (s.enableSampler vf)
/-- vf.dbgc.tagi is set. -/
def execTagSamplingEnable (vf : Nat) (s : State) : Out := .next (s.enableTagging vf)

/-- A debugger parks a group: the cycles that its wait has counted are kept, and its acquire keeps its place (R430). -/
def Group.debugPark (g : Group) : Group := if g.park.isSome ∨ g.allRetired then g else { g with park := some .debug }.squashWait

/-- What is left of the run of a running group is squashed (R83). -/
def State.squashAt (s : State) (w : Workgroup) (g : Group) : State :=
  if s.groups.any (fun (x : Group) => x.core == g.core && x.slot == g.slot && x.wg == w.id && x.park.isNone) then s.squash g.core g.slot false else s

/-- vf.dbgg operation 1: a group is debug-parked; one that is parked stays as it is (R428, R430). -/
def execDebugPark (vf core slot : Nat) (s : State) : Out :=
  .next (match s.groupOf vf core slot with
  | some (w, g) => (s.squashAt w g).changeGroup w g Group.debugPark
  | none => s.vfErr vf 3)

/-- vf.dbgg operation 2: a group is resumed; a saved one at its restore (R400, R428, R447). -/
def execDebugResume (vf core slot : Nat) (s : State) : Out :=
  .next (match s.groupOf vf core slot with
  | some (w, g) => s.changeGroup w g Group.unpark
  | none => s.vfErr vf 3)

/-- vf.dbgg operation 3: a group's demotions end (R88, R428). -/
def execDebugEndDemotion (vf core slot : Nat) (s : State) : Out :=
  .next (match s.groupOf vf core slot with
  | some (w, g) => if g.demoted = 0 then s else s.changeGroup w g (fun x => x.endDemotions (fun _ => true))
  | none => s.vfErr vf 3)

/-- vf.dbgg operation 4: a group's lanes are killed (R93, R428). -/
def execDebugKill (vf core slot : Nat) (s : State) : Out :=
  .next (match s.groupOf vf core slot with
  | some (w, g) => s.killAt w g
  | none => s.vfErr vf 3)

/-- Counter `k` of a periodic row: the count of the event that byte k of vf.smpe names (R439, R441). -/
def State.rowCounter (s : State) (vf k : Nat) : Nat :=
  let code := bitsOf (s.vfReg vf 0x098).toNat (8 * k + 7) (8 * k)
  if code = 0 then 0 else (s.counters.look (vf * 256 + code)).toNat

/-- The least position of the picked group of the sampled core: the lowest slot with c.sample.pick 1 (R441). -/
def State.pickedPos (s : State) (vf : Nat) : Word :=
  let core := bitsOf (s.vfReg vf 0x094).toNat 31 24
  let picked := (List.range 96).find? (fun k =>
    match s.group? core k with
    | some g => g.sample.getLsbD 0 && ((s.wg? g.wg).map (fun w => w.vf == vf && w.ctx == s.curCtx vf)).getD false
    | none => false)
  match picked with
  | none => 0x80000000
  | some k =>
    match (s.issueAs core k false 0).issue? with
    | none => 0x80000000
    | some is =>
      match is.leastLane s.mem (lanesOf is.g.liveMask) with
      | some L => (is.g.lane L).pos
      | none => 0x80000000

/-- An interval of the sampler ends: a periodic row (R439, R441). -/
def execSamplePeriodic (vf : Nat) (s : State) : Out :=
  let step := bitsOf (s.vfReg vf 0x094).toNat 15 0 * 1024
  let last := (s.sampled.look vf).toNat
  .next (if 64 ≤ vf ∨ !s.dbgBit vf 3 ∨ step = 0 ∨ s.now < last + step then s
  else
    ({ s with sampled := s.sampled.put vf (BitVec.ofNat 64 (last + step)) }).sampleRow vf (s.curCtx vf) 0 (s.pickedPos vf)
      ((List.range 8).flatMap (fun k => bytesLE 4 (s.rowCounter vf k))))

/-- The ranges of the capture list: up to 16, ending at a zero length (R428). -/
def State.captureList (s : State) (vf ctx : Nat) : List (Nat × Nat) :=
  ((List.range 16).map (fun i =>
    let a := (s.vfReg vf 0x0D0).toNat % 2 ^ 56 + 16 * i
    ((s.devRead vf ctx a 8).getD 0 % 2 ^ 56, (s.devRead vf ctx (a + 8) 8).getD 0))).takeWhile (fun p => p.2 != 0)

/-- The pieces of a range in its 64 KiB pages: their addresses and lengths. -/
def rangePieces (a n : Nat) : List (Nat × Nat) :=
  (List.range ((a + n + 65535) / 65536 - a / 65536)).map (fun i =>
    let lo := max a ((a / 65536 + i) * 65536)
    (lo, min (a + n) ((a / 65536 + i + 1) * 65536) - lo))

/-- The bytes of a piece of a captured range, by its address. A piece that does not translate takes free bytes: R442 says that every range is copied, and
not what stands for it (log entry 24). -/
def State.capturePiece (s : State) (vf ctx a n : Nat) : Nat × List Byte :=
  (a, match s.placeShared true vf ctx a false with
    | .ok pa _ _ _ => readBytes s.mem pa n
    | _ => (List.range n).map (fun i => Config.freeByte (s.fresh * 2 ^ 64 + a + i)))

/-- The hub reads the capture list of a context, and what its ranges hold: it waits for their pages (R282, R442). -/
def State.visitCapture (s : State) (vf ctx : Nat) : State :=
  let list := (s.vfReg vf 0x0D0).toNat % 2 ^ 56
  (((s.captureList vf ctx).flatMap (fun p => rangePieces p.1 p.2)).map (fun p => p.1)).foldl (fun s a => s.visit vf ctx a)
    ((s.visit vf ctx list).visit vf ctx (list + 240))

/-- The last checkpoint of a VF. -/
def State.lastCheckpoint (s : State) (vf : Nat) : Option Checkpoint :=
  (s.checkpoints.filter (fun (c : Checkpoint) => c.vf == vf)).foldl (fun (b : Option Checkpoint) c =>
    match b with | some x => if x.taken < c.taken then some c else b | none => some c) none

/-- A checkpoint of the VF's current context is due: at the admission of its first region, and then every interval of vf.cki (R442; log entry 72). -/
def State.checkpointDue (s : State) (vf : Nat) : Bool :=
  let ctx := s.curCtx vf
  s.dbgBit vf 1 && s.regions.any (fun r => r.vf == vf && r.ctx == ctx && (r.st == 5 || r.st == 6) && !r.isRoot) &&
    (match s.checkpoints.find? (fun (c : Checkpoint) => c.vf == vf && c.ctx == ctx && c.live), s.lastCheckpoint vf with
     | some _, some c =>
       let i := bitsOf (s.vfReg vf 0x0C8).toNat 15 0
       i != 0 && c.taken + i * 2 ^ 20 ≤ s.now
     | _, _ => true)

/-- Bytes of the copies of slots in an image: a core slot of 1.5 MiB and its matrix slot of 1 MiB for each core (R370, R394). -/
def Checkpoint.slotBytes (c : Checkpoint) : Nat := 0x280000 * (coresOf (c.wgs.map (fun x => x.wg))).length

/-- Bytes of an image: its header, the copies of the slots, and the captured ranges. -/
def Checkpoint.bytes (c : Checkpoint) : Nat := 64 + c.slotBytes + (c.captured.map (fun x => x.2.length)).sum

/-- The 64-byte header of an image (R442; log entry 24). -/
def Checkpoint.header (c : Checkpoint) : List Byte :=
  bytesLE 8 c.time ++ bytesLE 4 c.rplw.toNat ++ bytesLE 4 c.wgs.length ++ bytesLE 8 c.bytes ++ List.replicate 40 0

/-- Where image `ck` lies: vf.ckpt + ck times the size that the area's first header holds (R446). -/
def State.imageAt (s : State) (vf ck : Nat) : Nat :=
  let base := (s.vfReg vf 0x0C0).toNat
  base + ck * (match s.gpaReadBytes vf (base + 16) 8 with | some bs => ofBytesLE bs | none => 0)

/-- Writes an image: its header, the copies of the slots, whose format is the part's own, so that each byte takes a free value, and the captured ranges
(R442; log entry 24). -/
def State.writeImage (s : State) (c : Checkpoint) : State :=
  let slots := (List.range c.slotBytes).map (fun i => Config.freeByte (s.fresh + i))
  { s.gpaWriteBytes c.vf (s.imageAt c.vf c.ck) (c.header ++ slots ++ c.captured.flatMap (fun x => x.2)) with fresh := s.fresh + c.slotBytes }

/-- A group as a save and a restore in place leave it. -/
def Group.turnover (g : Group) : Group := g.forSave.unqueued

/-- The workgroups that satisfy `p` as a save and a restore in place leave them. -/
def State.turnover (s : State) (p : Workgroup → Bool) : State :=
  { s with
    groups := s.groups.map (fun (g : Group) => if ((s.wg? g.wg).map p).getD false then g.turnover else g),
    wgs := s.wgs.map (fun (w : Workgroup) => if p w ∧ !w.saved then w.stopAgents else w) }

/-- Steps 1 to 5 of R391 for the running workgroups that satisfy `p`, what is posted to their slices performed, and what acquire copies have read landed
(R324, R374; log entry 107). -/
def State.haltAll (s : State) (p : Workgroup → Bool) : State :=
  let s1 := s.haltWgs p
  (s1.runningWgs p).foldl (fun s w => (s.landReads w).flushInto w) s1

/-- A checkpoint: the workgroups of the current context halt, their states and the captured ranges go to the next image, and they go on at once
(R442, R446). It waits until the groups that must still retire have done so. -/
def execCheckpoint (vf : Nat) (s : State) : Out :=
  let ctx := s.curCtx vf
  let mine := fun (w : Workgroup) => w.vf == vf && w.ctx == ctx
  .next (if 64 ≤ vf ∨ !s.checkpointDue vf then s
  else
    let s0 := s.haltAll mine
    if !(s0.runningWgs mine).all s0.settledForSave then s0
    else
      let s1 := (s0.visitCapture vf ctx).gpaVisit vf (s0.vfReg vf 0x0C0).toNat
      let saved := s1.slots.flatMap (fun (x : ShadowSlot) => x.wgs.filter (fun y => mine y.wg))
      let c : Checkpoint :=
        { vf := vf, ctx := ctx, ck := match s1.lastCheckpoint vf with | some x => 1 - x.ck | none => 0, time := s1.hubTime, taken := s1.now,
          rplw := (s1.vfReg vf 0x0B4).setWidth 32, wgs := (s1.runningWgs mine).map s1.savedForm ++ saved,
          captured := ((s1.captureList vf ctx).flatMap (fun p => rangePieces p.1 p.2)).map (fun p => s1.capturePiece vf ctx p.1 p.2), live := true }
      let s2 := s1.turnover mine
      if s2.gpaWritable vf (s2.imageAt vf c.ck) c.bytes then
        ({ s2 with checkpoints := c :: s2.checkpoints.filter (fun (x : Checkpoint) => !(x.vf == vf && x.ck == c.ck)) }).writeImage c
      else (s2.setDbg vf 1 false).vfErr vf 6)

/-- The slots, one for each core, that hold the workgroups of an image. -/
def Checkpoint.asSlots (c : Checkpoint) (now : Nat) : List ShadowSlot :=
  (coresOf (c.wgs.map (fun x => x.wg))).map (fun core =>
    { core := core, slot := 0, vf := c.vf, ctx := c.ctx, savedAt := now, spilled := true, wgs := c.wgs.filter (fun x => x.wg.core == core) })

/-- The bytes that an image holds from `a` on, 4 at a time, and the agent's wait for their pages; `bs` where they cannot be read. -/
def State.imageBytes (s : State) (vf a : Nat) (bs : List Byte) : List Byte × State :=
  ((List.range ((bs.length + 3) / 4)).flatMap (fun i =>
      let part := (bs.drop (4 * i)).take 4
      (s.gpaReadBytes vf (a + 4 * i) part.length).getD part),
    ((rangePieces a bs.length).map (fun p => p.1)).foldl (fun s x => s.gpaVisit vf x) s)

/-- Rewrites the captured ranges of a context from an image, whose bytes are read from `a` on: as the context reaches them now, marked and logged as any
write (R413, R444). -/
def State.rewriteRanges (s : State) (vf ctx : Nat) : Nat → List (Nat × List Byte) → State
  | _, [] => s
  | a, (va, bs) :: rest =>
    let (now, s1) := s.imageBytes vf a bs
    (s1.devWriteBytes vf ctx va now).rewriteRanges vf ctx (a + bs.length) rest

/-- The saved workgroups of a context are replaced by those of an image, the captured ranges are rewritten, and replay mode starts at the
image's index (R444). -/
def State.restoreImage (s : State) (c : Checkpoint) : State :=
  let mine := fun (w : Workgroup) => w.vf == c.vf && w.ctx == c.ctx
  let s1 := { s with
    wgs := s.wgs.filter (fun (w : Workgroup) => !mine w) ++
      c.wgs.map (fun (x : SavedWg) => { x.wg with saved := true, stopping := false, engine := none, leaving := [] }),
    slots := (s.slots.map (fun (x : ShadowSlot) => { x with wgs := x.wgs.filter (fun (y : SavedWg) => !mine y.wg) })).filter (fun (x : ShadowSlot) => x.wgs != []) ++
      c.asSlots s.now }
  let s2 := (s1.gpaVisit c.vf (s1.vfReg c.vf 0x0C0).toNat).rewriteRanges c.vf c.ctx (s1.imageAt c.vf c.ck + 64 + c.slotBytes) c.captured
  (s2.setVfReg c.vf 0x0B8 (c.rplw.setWidth 64)).setDbg c.vf 2 true

/-- The context that vf.csel selects is saved, and not current: it can take a checkpoint (R444). -/
def State.restoreOk (s : State) (vf : Nat) : Bool :=
  let ctx := (s.vfReg vf 0x050).toNat % 65536
  ctx != s.curCtx vf && !s.wgs.any (fun w => w.vf == vf && w.ctx == ctx && !w.saved && !w.ended) &&
    s.wgs.any (fun w => w.vf == vf && w.ctx == ctx && w.saved)

/-- A write of 1 to vf.dbgc.rst, for the context that vf.csel selects (R444). -/
def State.restoreCheckpoint (s : State) (vf ck : Nat) : State :=
  let ctx := (s.vfReg vf 0x050).toNat % 65536
  if 64 ≤ vf then s
  else if !s.restoreOk vf then s.vfErr vf 4
  else
    match s.checkpoints.find? (fun (c : Checkpoint) => c.vf == vf && c.ctx == ctx && c.ck == ck) with
    | some c => s.restoreImage c
    | none => s

/-- Image ck of the selected context is restored (R444). -/
def execCheckpointRestore (vf ck : Nat) (s : State) : Out := .next (s.restoreCheckpoint vf ck)

end Sys2Proof.Machine
end

