-- ==== Sys2Proof/Machine/Registers.lean ====
section
/-! DEFINITION. Writes to the registers of the module, of partitions and of VFs, and the writes of the host to device memory (R7, R8, R100, R322,
R402 to R408, R413 to R415, R419, R428, R429, R444). -/

namespace Sys2Proof.Machine

/-- Access of a register (R7). A register or field whose Meaning begins "PF:" is `pf`: RW through the PF, RO through the VF (R404). -/
inductive Access where
  | ro | rw | w1c | wo | pf
  deriving DecidableEq, Repr

/-- A register: its offset in its block, its width in bits, its access, and the bits that are not reserved. -/
structure RegSpec where
  off : Nat
  width : Nat
  acc : Access
  mask : Nat
  deriving DecidableEq, Repr

/-- Bits [hi:lo]. -/
def fieldMask (hi lo : Nat) : Nat := (2 ^ (hi + 1 - lo) - 1) * 2 ^ lo

/-- The registers of the module block (R415, R419). Registers that are not listed are RO. -/
def moduleRegs : List RegSpec := [
  { off := 0x018, width := 32, acc := .rw, mask := fieldMask 31 0 }, { off := 0x01C, width := 32, acc := .rw, mask := fieldMask 31 0 },
  { off := 0x024, width := 32, acc := .w1c, mask := fieldMask 6 0 }, { off := 0x100, width := 32, acc := .wo, mask := 0xF3 }]

/-- The registers of a partition block (R402). -/
def partitionRegs : List RegSpec := [
  { off := 0x000, width := 32, acc := .rw, mask := 3 }, { off := 0x008, width := 64, acc := .rw, mask := fieldMask 63 0 },
  { off := 0x010, width := 64, acc := .rw, mask := fieldMask 63 0 }, { off := 0x018, width := 64, acc := .rw, mask := fieldMask 63 0 },
  { off := 0x020, width := 64, acc := .rw, mask := fieldMask 63 0 }, { off := 0x028, width := 64, acc := .rw, mask := fieldMask 55 30 },
  { off := 0x030, width := 32, acc := .rw, mask := fieldMask 13 0 }, { off := 0x034, width := 32, acc := .rw, mask := 0xFFFF013F },
  { off := 0x038, width := 32, acc := .rw, mask := 0x7F7F }, { off := 0x03C, width := 32, acc := .rw, mask := fieldMask 7 0 },
  { off := 0x040, width := 64, acc := .rw, mask := fieldMask 63 0 }]

/-- The registers of a VF block without those of the context window (R404). The low bits of an address that the spec only calls aligned are reserved
bits in the model: a write that sets one is discarded whole (R8; log entry 90). -/
def vfRegs : List RegSpec := [
  { off := 0x000, width := 32, acc := .pf, mask := 7 }, { off := 0x004, width := 32, acc := .w1c, mask := fieldMask 6 0 },
  { off := 0x008, width := 64, acc := .rw, mask := fieldMask 63 8 }, { off := 0x010, width := 64, acc := .pf, mask := fieldMask 55 11 },
  { off := 0x018, width := 64, acc := .rw, mask := fieldMask 55 5 }, { off := 0x020, width := 32, acc := .rw, mask := fieldMask 16 0 },
  { off := 0x024, width := 32, acc := .wo, mask := 0xFFFE000F }, { off := 0x028, width := 64, acc := .rw, mask := fieldMask 63 12 },
  { off := 0x030, width := 32, acc := .rw, mask := fieldMask 4 0 }, { off := 0x034, width := 32, acc := .rw, mask := 1 },
  { off := 0x03C, width := 32, acc := .rw, mask := fieldMask 31 0 }, { off := 0x040, width := 32, acc := .rw, mask := 0xFFFF00F1 },
  { off := 0x048, width := 64, acc := .pf, mask := fieldMask 63 6 }, { off := 0x050, width := 32, acc := .rw, mask := fieldMask 15 0 },
  { off := 0x054, width := 32, acc := .pf, mask := fieldMask 16 0 }]

/-- The debug registers of a VF block (R428). -/
def debugRegs : List RegSpec := [
  { off := 0x060, width := 32, acc := .rw, mask := 0x19F }, { off := 0x068, width := 64, acc := .rw, mask := fieldMask 55 6 },
  { off := 0x070, width := 32, acc := .rw, mask := 0xFFFF000F }, { off := 0x078, width := 32, acc := .rw, mask := fieldMask 31 0 },
  { off := 0x07C, width := 32, acc := .wo, mask := 0xFFFE000F }, { off := 0x080, width := 64, acc := .rw, mask := fieldMask 55 6 },
  { off := 0x088, width := 32, acc := .rw, mask := fieldMask 4 0 }, { off := 0x090, width := 32, acc := .rw, mask := fieldMask 31 0 },
  { off := 0x094, width := 32, acc := .rw, mask := 0xFF00FFFF }, { off := 0x098, width := 64, acc := .rw, mask := fieldMask 63 0 },
  { off := 0x0A0, width := 32, acc := .rw, mask := 0xFFFF000F }, { off := 0x0A8, width := 64, acc := .rw, mask := fieldMask 55 4 }] ++ [
  { off := 0x0B0, width := 32, acc := .rw, mask := fieldMask 4 0 }, { off := 0x0B8, width := 32, acc := .rw, mask := fieldMask 31 0 },
  { off := 0x0BC, width := 32, acc := .rw, mask := fieldMask 31 0 }, { off := 0x0C0, width := 64, acc := .rw, mask := fieldMask 55 12 },
  { off := 0x0C8, width := 32, acc := .rw, mask := fieldMask 15 0 }, { off := 0x0D0, width := 64, acc := .rw, mask := fieldMask 63 4 }] ++
  (List.range 8).map (fun b => { off := 0x180 + 8 * b, width := 64, acc := .rw, mask := 0xFFFFFFFFFFC0FFFF })

/-- The registers of the context window (R404). -/
def windowRegs : List RegSpec := [
  { off := 0x100, width := 32, acc := .rw, mask := 7 }, { off := 0x108, width := 64, acc := .rw, mask := fieldMask 55 11 },
  { off := 0x110, width := 64, acc := .rw, mask := fieldMask 63 0 }, { off := 0x118, width := 32, acc := .pf, mask := fieldMask 31 0 },
  { off := 0x120, width := 32, acc := .pf, mask := fieldMask 23 0 }, { off := 0x128, width := 64, acc := .pf, mask := fieldMask 63 12 },
  { off := 0x130, width := 64, acc := .wo, mask := fieldMask 55 16 + 3 }]

/-- The register at an offset of its block, when the write reaches it: it is not RO there, and sets no reserved bit (R7, R8; log entry 73). -/
def reached (rs : List RegSpec) (viaVf : Bool) (off v : Nat) : Option RegSpec :=
  rs.find? (fun r => r.off == off && r.acc != .ro && !(viaVf && r.acc == .pf) && (v % 2 ^ r.width &&& r.mask) == v % 2 ^ r.width)

/-- The state after an outcome; `s` where it is not a next state. -/
def stateOr (s : State) (o : Out) : State :=
  match o with
  | .next t => t
  | _ => s

/-- A write to p.ctl (R402, R403). -/
def State.writePartCtl (s : State) (p v : Nat) : State :=
  let en := v % 2 = 1
  let stop := v / 2 % 2 = 1
  if !s.partEnabled p then
    let s1 := s.setReg (partBase p) (if stop then 2 else 0)
    if en then
      let s2 := stateOr s1 (execPartitionEnable p s1)
      if stop ∧ s2.partEnabled p then stateOr s2 (execPartitionStop p s2) else s2
    else s1
  else if !en then (stateOr s (execPartitionDisable p s)).setBit (partBase p) 1 (decide stop)
  else if stop then if (s.partReg p 0x000).getLsbD 1 then s else stateOr s (execPartitionStop p s)
  else if (s.partReg p 0x000).getLsbD 1 then (s.setBit (partBase p) 1 false).setPartState p 1 none
  else s

/-- A write in a partition block: while the partition is enabled, only p.ctl can be written (R403). -/
def State.writePart (s : State) (p off v : Nat) : State :=
  match reached partitionRegs false off v with
  | none => s
  | some r =>
    if off = 0x000 then s.writePartCtl p (v % 2 ^ 32)
    else if s.partEnabled p then s
    else s.setReg (partBase p + off) (BitVec.ofNat 64 (v % 2 ^ r.width))

/-- A write in the module block (R415, R419). -/
def State.writeModule (s : State) (off v : Nat) : State :=
  match reached moduleRegs false off v with
  | none => s
  | some r =>
    if off = 0x100 then
      match bitsOf v 7 4 with
      | 1 => stateOr s (execDieOffline (bitsOf v 1 0) s)
      | 2 => stateOr s (execDieOnline (bitsOf v 1 0) s)
      | _ => s
    else if r.acc = .w1c then s.setReg off (s.reg off &&& ~~~(BitVec.ofNat 64 v))
    else s.setReg off (BitVec.ofNat 64 (v % 2 ^ r.width))

/-- A write to vf.ctl through the PF (R404, R409). -/
def State.writeVfCtl (s : State) (vf v : Nat) : State :=
  let s1 := s.setBit (vfBase vf) 0 (v.testBit 0)
  if v.testBit 2 then if s1.vfStopped vf then s1 else stateOr s1 (execVfStop vf s1)
  else if s1.stoppedVfs.contains vf then stateOr s1 (execVfResume vf s1)
  else s1.setBit (vfBase vf) 2 false

/-- A write to vf.grp (R406). -/
def State.writeGrp (s : State) (vf v : Nat) : State :=
  let core := bitsOf v 31 24
  let slot := bitsOf v 23 17
  match bitsOf v 3 0 with
  | 1 => stateOr s (execGroupResume vf core slot s)
  | 2 => stateOr s (execGroupKill vf core slot s)
  | _ => s.vfErr vf 3

/-- A write to vf.dbgg (R428). -/
def State.writeDbgg (s : State) (vf v : Nat) : State :=
  let core := bitsOf v 31 24
  let slot := bitsOf v 23 17
  match bitsOf v 3 0 with
  | 1 => stateOr s (execDebugPark vf core slot s)
  | 2 => stateOr s (execDebugResume vf core slot s)
  | 3 => stateOr s (execDebugEndDemotion vf core slot s)
  | 4 => stateOr s (execDebugKill vf core slot s)
  | _ => s.vfErr vf 3

/-- A write to vf.sw: the incoming context, and with go a request (R404, R408). -/
def State.writeSw (s : State) (vf v : Nat) : State :=
  if v.testBit 0 then s.requestSwitch vf (bitsOf v 31 16)
  else s.setVfReg vf 0x040 (BitVec.ofNat 64 (bitsOf v 31 16 * 65536 + bitsOf (s.vfReg vf 0x040).toNat 15 0))

/-- A write to vf.dbgc: its bits one by one, and the restore of a checkpoint last; one that asks for a restore that is not possible is discarded whole
(R428, R429, R444, R445). -/
def State.writeDbgc (s : State) (vf v : Nat) : State :=
  if v.testBit 7 ∧ !s.restoreOk vf then s.vfErr vf 4
  else
  let put := fun (s : State) (b : Nat) (f : State → State) => if v.testBit b then f s else s.setDbg vf b false
  let s1 := put s 0 (fun s => s.enableDebug vf)
  let s2 := put s1 1 (fun s => s.enableRecord vf)
  let s3 := (s2.setPlay vf (v.testBit 2)).setDbg vf 8 (v.testBit 8)
  let s4 := put s3 3 (fun s => s.enableSampler vf)
  let s5 := put s4 4 (fun s => s.enableTagging vf)
  if v.testBit 7 then s5.restoreCheckpoint vf (bitsOf v 8 8) else s5

/-- A base or size register of an area is written: an area that is in use is checked again (R429). -/
def State.recheckAreas (s : State) (vf off : Nat) : State :=
  [debugArea, samplerArea, replayArea].foldl (fun s a =>
    if (off = a.base ∨ off = a.size) ∧ a.uses.any (fun b => s.dbgBit vf b) then s.checkArea vf a else s) s

/-- vf.smpe names a reserved event code (R439). -/
def badEvents (v : Nat) : Bool := (List.range 8).any (fun k => 0x0E < bitsOf v (8 * k + 7) (8 * k))

/-- A write in a VF block outside the context window. -/
def State.writeVf (s : State) (viaVf : Bool) (vf off v : Nat) : State :=
  match reached (vfRegs ++ debugRegs) viaVf off v with
  | none => s
  | some r =>
    let x := v % 2 ^ r.width
    match off with
    | 0x000 => s.writeVfCtl vf x
    | 0x004 => s.setVfReg vf off (s.vfReg vf off &&& ~~~(BitVec.ofNat 64 x))
    | 0x024 => s.writeGrp vf x
    | 0x028 | 0x030 | 0x034 => stateOr s (execLogProgram vf off (BitVec.ofNat 64 x) s)
    | 0x040 => s.writeSw vf x
    | 0x060 => s.writeDbgc vf x
    | 0x07C => s.writeDbgg vf x
    | 0x094 => s.writeSmpi vf (BitVec.ofNat 64 x)
    | 0x098 => if badEvents x then s else s.setVfReg vf off (BitVec.ofNat 64 x)
    | _ => (s.setVfReg vf off (BitVec.ofNat 64 x)).recheckAreas vf off

/-- A write to cx.ds keeps the share inside the allowance, and the shadow part inside the share (R404). While no enabled partition holds the VF its
allowance counts as 0: R404 names p.dstore and not the partition's state (log entry 127). -/
def State.dsOk (s : State) (vf v : Nat) : Bool :=
  let allow := match s.partOf vf with | some p => bitsOf (s.partReg p 0x03C).toNat 7 0 | none => 0
  bitsOf v 23 16 + bitsOf v 7 0 ≤ allow && bitsOf v 15 8 ≤ bitsOf v 7 0

/-- A new die store share of a context: the units that it did not have are zeroed on each die, and the shadow copies that it kept are gone
(R280, R399). -/
def State.writeDs (s : State) (vf ctx v : Nat) : State :=
  let (base, _, size) := s.dsShare vf ctx
  let fresh := ((List.range (bitsOf v 7 0)).map (fun i => bitsOf v 23 16 + i)).filter (fun u => !(base ≤ u && u < base + size))
  let p := (s.partOf vf).getD 0
  let s1 := (List.range 4).foldl (fun s d => fresh.foldl (fun s u => s.zeroMem (dieStorePa d p (u * 65536)) 65536) s) s
  { s1 with shadows := s1.shadows.filter (fun (h : Shadow) => !(h.vf == vf && h.ctx == ctx)) }.setCxReg vf ctx 0x120 (BitVec.ofNat 64 v)

/-- A write to cx.inv (R407). -/
def State.writeInv (s : State) (viaVf : Bool) (vf v : Nat) : State :=
  let page := bitsOf v 55 16
  match bitsOf v 1 0 with
  | 0 => stateOr s (execInvalidatePageS1 vf page s)
  | 1 => stateOr s (execInvalidateAllS1 vf s)
  | 2 => if viaVf then s.vfErr vf 5 else stateOr s (execInvalidatePageS2 vf page s)
  | _ => if viaVf then s.vfErr vf 5 else stateOr s (execInvalidateVf vf s)

/-- The context runs: it is current, and its VF is not stopped (R404, R409). -/
def State.ctxRuns (s : State) (vf ctx : Nat) : Bool := ctx == s.curCtx vf && !s.stoppedVfs.contains vf

/-- A write of cx.s1 or cx.rset, or of the tag bit of cx.ctl, which takes effect at once where the context runs, and else at its next restore (R405). -/
def State.setCxLater (s : State) (vf ctx off : Nat) (v : Dword) : State :=
  let rest := s.cxPending.filter (fun p => p.1 != cxKey vf ctx off)
  if s.ctxRuns vf ctx then { s with cxPending := rest }.setCxReg vf ctx off v else { s with cxPending := rest ++ [(cxKey vf ctx off, v)] }

/-- A register of a context as its window shows it: what has been written last, in effect or not, and cx.tier as the tier engine stands (R404, R405). -/
def State.cxShown (s : State) (vf ctx off : Nat) : Dword :=
  if off = 0x11C then s.tierWord vf ctx
  else match s.cxPending.find? (fun p => p.1 == cxKey vf ctx off) with
  | some p => p.2
  | none => s.cxReg vf ctx off

/-- A write in the window of the context that vf.csel selects; of a context beyond vf.nctx it is discarded (R404, R405). -/
def State.writeWindow (s : State) (viaVf : Bool) (vf off v : Nat) : State :=
  let ctx := (s.vfReg vf 0x050).toNat % 65536
  match reached windowRegs viaVf off v with
  | none => s
  | some r =>
    let x := v % 2 ^ r.width
    if (s.vfReg vf 0x054).toNat ≤ ctx then s
    else
      match off with
      | 0x100 =>
        -- valid and ovr are the PF's, and are in effect at once
        let old := (s.cxReg vf ctx off).toNat
        let v1 := if viaVf then bitsOf old 0 0 + bitsOf x 1 1 * 2 + bitsOf old 2 2 * 4 else x
        (s.setCxReg vf ctx off (BitVec.ofNat 64 (bitsOf v1 0 0 + bitsOf old 1 1 * 2 + bitsOf v1 2 2 * 4))).setCxLater vf ctx off (BitVec.ofNat 64 v1)
      | 0x108 | 0x110 => s.setCxLater vf ctx off (BitVec.ofNat 64 x)
      | 0x120 => if s.dsOk vf x then s.writeDs vf ctx x else s
      | 0x130 => s.writeInv viaVf vf x
      | _ => s.setCxReg vf ctx off (BitVec.ofNat 64 x)

/-- A write of a register at an offset of the PF's BAR0; through a VF's own BAR0 only its block is reached (R7, R8, R402, R404). A VF's
alias and its own BAR0 differ only in the fields that are the PF's. -/
def State.writeRegister (s : State) (viaVf : Bool) (off : Nat) (value : Dword) : State :=
  let v := value.toNat
  if 0x100000 ≤ off ∧ off < 0x140000 then
    let vf := (off - 0x100000) / 0x1000
    let o := off % 0x1000
    if 0x100 ≤ o ∧ o < 0x140 then s.writeWindow viaVf vf o v else s.writeVf viaVf vf o v
  else if viaVf then s
  else if 0x10000 ≤ off ∧ off < 0x30000 then s.writePart ((off - 0x10000) / 0x1000) (off % 0x1000) v
  else if off < 0x1000 then s.writeModule off v
  else s

/-- What a read of a register at an offset of the PF's BAR0 returns. A register that is WO reads as 0, and so does what no register has (R7, R8, R402,
R404, R405, R419). -/
def State.readRegister (s : State) (off : Nat) : Dword :=
  let o := off % 0x1000
  if 0x100000 ≤ off ∧ off < 0x140000 then
    let vf := (off - 0x100000) / 0x1000
    if 0x100 ≤ o ∧ o < 0x140 then s.cxShown vf ((s.vfReg vf 0x050).toNat % 65536) o else s.vfReg vf o
  else if 0x10000 ≤ off ∧ off < 0x30000 then s.partReg ((off - 0x10000) / 0x1000) o
  else if 0x400 ≤ off ∧ off < 0x800 then (((s.meas[(off - 0x400) / 64]?).getD 0) >>> (off % 64 / 8 * 64)).setWidth 64
  else if off < 0x1000 then s.readModule off
  else 0

/-- A write to a register. -/
def execRegisterWrite (viaVf : Bool) (off : Nat) (value : Dword) (s : State) : Out := .next (s.writeRegister viaVf off value)

/-- Software writes the read index of the dirty log or of the replay log: slots free, and what waited for one can go on (R413, R443). -/
def execLogReadIndexWrite (vf : Nat) (replay : Bool) (value : Word) (s : State) : Out :=
  .next (if 64 ≤ vf then s else s.setVfReg vf (if replay then 0x0B8 else 0x03C) (value.setWidth 64))

/-- The parts of a range that lie in one 64 KiB page each: the address and the place of its bytes in the range. -/
def pageParts (a n : Nat) : List (Nat × Nat × Nat) :=
  (List.range ((a + n + 65535) / 65536 - a / 65536)).map (fun i =>
    let lo := max a ((a / 65536 + i) * 65536)
    (lo, lo - a, min (a + n) ((a / 65536 + i + 1) * 65536) - lo))

/-- One part of the host's write is performed, or it waits for its page. A part that does not translate writable is dropped. -/
def State.hostStore (s : State) (vf : Nat) (bytes : List Byte) (x : Nat × Nat × Nat) : State :=
  match s.placeShared false vf (s.curCtx vf) x.1 true with
  | .ok pa g path leaves => (s.storeBytes pa ((bytes.drop x.2.1).take x.2.2)).noteAccess vf g path leaves true
  | .transit => s.hold
  | .fill a => s.holdFill vf (s.curCtx vf) a
  | _ => s

/-- A write that the host posts through its VF is performed in the VF's current context: it is logged, and ends demotions that watch its
granules; it waits for a page in transit and for room in the dirty log (R88, R100, R322, R413; log entry 74). -/
def execHostPostedWrite (vf addr : Nat) (bytes : List Byte) (s : State) : Out :=
  .next (if 64 ≤ vf ∨ bytes = [] then s else (pageParts addr bytes.length).foldl (fun s x => s.hostStore vf bytes x) s)

end Sys2Proof.Machine
end

