-- ==== Sys2Proof/Machine/Dispatch.lean ====
section
/-! DEFINITION. The meaning of each instruction: one arm for each constructor of `Instr`. -/

namespace Sys2Proof.Machine

def exec (i : Instr) (s : State) : Host.Outcome State Fault Refusal :=
  match i with
  | .add f => Sys2Proof.Machine.execAdd f s
  | .sub f => Sys2Proof.Machine.execSub f s
  | .mul f => Sys2Proof.Machine.execMul f s
  | .mulhi f => Sys2Proof.Machine.execMulhi f s
  | .mad f => Sys2Proof.Machine.execMad f s
  | .div f => Sys2Proof.Machine.execDiv f s
  | .rem f => Sys2Proof.Machine.execRem f s
  | .min f => Sys2Proof.Machine.execMin f s
  | .max f => Sys2Proof.Machine.execMax f s
  | .abs f => Sys2Proof.Machine.execAbs f s
  | .neg f => Sys2Proof.Machine.execNeg f s
  | .adds f => Sys2Proof.Machine.execAdds f s
  | .subs f => Sys2Proof.Machine.execSubs f s
  | .and f => Sys2Proof.Machine.execAnd f s
  | .or f => Sys2Proof.Machine.execOr f s
  | .xor f => Sys2Proof.Machine.execXor f s
  | .not f => Sys2Proof.Machine.execNot f s
  | .andn f => Sys2Proof.Machine.execAndn f s
  | .shl f => Sys2Proof.Machine.execShl f s
  | .shr f => Sys2Proof.Machine.execShr f s
  | .rotl f => Sys2Proof.Machine.execRotl f s
  | .popc f => Sys2Proof.Machine.execPopc f s
  | .clz f => Sys2Proof.Machine.execClz f s
  | .ctz f => Sys2Proof.Machine.execCtz f s
  | .brev f => Sys2Proof.Machine.execBrev f s
  | .bfx f => Sys2Proof.Machine.execBfx f s
  | .bfi f => Sys2Proof.Machine.execBfi f s
  | .cmp f => Sys2Proof.Machine.execCmp f s
  | .pick f => Sys2Proof.Machine.execPick f s
  | .mov f => Sys2Proof.Machine.execMov f s
  | .fAdd f => Sys2Proof.Machine.execFAdd f s
  | .fSub f => Sys2Proof.Machine.execFSub f s
  | .fMul f => Sys2Proof.Machine.execFMul f s
  | .fma f => Sys2Proof.Machine.execFma f s
  | .fDiv f => Sys2Proof.Machine.execFDiv f s
  | .sqrt f => Sys2Proof.Machine.execSqrt f s
  | .fMin f => Sys2Proof.Machine.execFMin f s
  | .fMax f => Sys2Proof.Machine.execFMax f s
  | .fAbs f => Sys2Proof.Machine.execFAbs f s
  | .fNeg f => Sys2Proof.Machine.execFNeg f s
  | .fCmp f => Sys2Proof.Machine.execFCmp f s
  | .fclass f => Sys2Proof.Machine.execFclass f s
  | .rcp f => Sys2Proof.Machine.execRcp f s
  | .rsqrt f => Sys2Proof.Machine.execRsqrt f s
  | .exp2 f => Sys2Proof.Machine.execExp2 f s
  | .log2 f => Sys2Proof.Machine.execLog2 f s
  | .sin f => Sys2Proof.Machine.execSin f s
  | .cos f => Sys2Proof.Machine.execCos f s
  | .tanh f => Sys2Proof.Machine.execTanh f s
  | .cvt f => Sys2Proof.Machine.execCvt f s
  | .cvtPk f => Sys2Proof.Machine.execCvtPk f s
  | .bpick f => Sys2Proof.Machine.execBpick f s
  | .xchLane f => Sys2Proof.Machine.execXchLane f s
  | .xchRot f => Sys2Proof.Machine.execXchRot f s
  | .xchPair f => Sys2Proof.Machine.execXchPair f s
  | .xchSeg f => Sys2Proof.Machine.execXchSeg f s
  | .voteAll f => Sys2Proof.Machine.execVoteAll f s
  | .voteAny f => Sys2Proof.Machine.execVoteAny f s
  | .voteUni f => Sys2Proof.Machine.execVoteUni f s
  | .ballot f => Sys2Proof.Machine.execBallot f s
  | .elect f => Sys2Proof.Machine.execElect f s
  | .first f => Sys2Proof.Machine.execFirst f s
  | .lredAdd f => Sys2Proof.Machine.execLredAdd f s
  | .lredMin f => Sys2Proof.Machine.execLredMin f s
  | .lredMax f => Sys2Proof.Machine.execLredMax f s
  | .ld f => Sys2Proof.Machine.execLd f s
  | .st f => Sys2Proof.Machine.execSt f s
  | .ldX4 f => Sys2Proof.Machine.execLdX4 f s
  | .stX4 f => Sys2Proof.Machine.execStX4 f s
  | .qfeed f => Sys2Proof.Machine.execQfeed f s
  | .qpop f => Sys2Proof.Machine.execQpop f s
  | .qstate f => Sys2Proof.Machine.execQstate f s
  | .cpAsync f => Sys2Proof.Machine.execCpAsync f s
  | .twaitAny f => Sys2Proof.Machine.execTwaitAny f s
  | .twaitAll f => Sys2Proof.Machine.execTwaitAll f s
  | .tfirst f => Sys2Proof.Machine.execTfirst f s
  | .bind f => Sys2Proof.Machine.execBind f s
  | .unbind f => Sys2Proof.Machine.execUnbind f s
  | .acqX f => Sys2Proof.Machine.execAcqX f s
  | .acqS f => Sys2Proof.Machine.execAcqS f s
  | .rel f => Sys2Proof.Machine.execRel f s
  | .fence f => Sys2Proof.Machine.execFence f s
  | .wsig f => Sys2Proof.Machine.execWsig f s
  | .barInit f => Sys2Proof.Machine.execBarInit f s
  | .barArrive f => Sys2Proof.Machine.execBarArrive f s
  | .barWait f => Sys2Proof.Machine.execBarWait f s
  | .barExpect f => Sys2Proof.Machine.execBarExpect f s
  | .barLink f => Sys2Proof.Machine.execBarLink f s
  | .dbarInit f => Sys2Proof.Machine.execDbarInit f s
  | .dbarArrive f => Sys2Proof.Machine.execDbarArrive f s
  | .dbarWait f => Sys2Proof.Machine.execDbarWait f s
  | .atomAdd f => Sys2Proof.Machine.execAtomAdd f s
  | .atomMin f => Sys2Proof.Machine.execAtomMin f s
  | .atomMax f => Sys2Proof.Machine.execAtomMax f s
  | .atomAnd f => Sys2Proof.Machine.execAtomAnd f s
  | .atomOr f => Sys2Proof.Machine.execAtomOr f s
  | .atomXor f => Sys2Proof.Machine.execAtomXor f s
  | .atomXchg f => Sys2Proof.Machine.execAtomXchg f s
  | .atomCas f => Sys2Proof.Machine.execAtomCas f s
  | .redAdd f => Sys2Proof.Machine.execRedAdd f s
  | .redMin f => Sys2Proof.Machine.execRedMin f s
  | .redMax f => Sys2Proof.Machine.execRedMax f s
  | .redAnd f => Sys2Proof.Machine.execRedAnd f s
  | .redOr f => Sys2Proof.Machine.execRedOr f s
  | .redXor f => Sys2Proof.Machine.execRedXor f s
  | .mres f => Sys2Proof.Machine.execMres f s
  | .mrel f => Sys2Proof.Machine.execMrel f s
  | .obres f => Sys2Proof.Machine.execObres f s
  | .obrel f => Sys2Proof.Machine.execObrel f s
  | .tld f => Sys2Proof.Machine.execTld f s
  | .tst f => Sys2Proof.Machine.execTst f s
  | .tclr f => Sys2Proof.Machine.execTclr f s
  | .mfenceOp f => Sys2Proof.Machine.execMfenceOp f s
  | .mlaunch f => Sys2Proof.Machine.execMlaunch f s
  | .mwait f => Sys2Proof.Machine.execMwait f s
  | .mstate f => Sys2Proof.Machine.execMstate f s
  | .quit f => Sys2Proof.Machine.execQuit f s
  | .quitIf f => Sys2Proof.Machine.execQuitIf f s
  | .next f => Sys2Proof.Machine.execNext f s
  | .nextIf f => Sys2Proof.Machine.execNextIf f s
  | .ret f => Sys2Proof.Machine.execRet f s
  | .retIf f => Sys2Proof.Machine.execRetIf f s
  | .exit f => Sys2Proof.Machine.execExit f s
  | .exitIf f => Sys2Proof.Machine.execExitIf f s
  | .spawn f => Sys2Proof.Machine.execSpawn f s
  | .launch f => Sys2Proof.Machine.execLaunch f s
  | .yield f => Sys2Proof.Machine.execYield f s
  | .ctlGet f => Sys2Proof.Machine.execCtlGet f s
  | .ctlSet f => Sys2Proof.Machine.execCtlSet f s
  | .trap f => Sys2Proof.Machine.execTrap f s
  | .halt f => Sys2Proof.Machine.execHalt f s
  | .nop f => Sys2Proof.Machine.execNop f s
  | .probe f => Sys2Proof.Machine.execProbe f s
  | .prof f => Sys2Proof.Machine.execProf f s
  | .stag f => Sys2Proof.Machine.execStag f s
  | .ltag f => Sys2Proof.Machine.execLtag f s
  | .brk f => Sys2Proof.Machine.execBrk f s
  | .selectRun core slot => Sys2Proof.Machine.execSelectRun core slot s
  | .demotion core slot => Sys2Proof.Machine.execDemotion core slot s
  | .demotionEnd core slot => Sys2Proof.Machine.execDemotionEnd core slot s
  | .groupEnd core slot => Sys2Proof.Machine.execGroupEnd core slot s
  | .barrierTimeLimit core slot => Sys2Proof.Machine.execBarrierTimeLimit core slot s
  | .peerAbsent core slot => Sys2Proof.Machine.execPeerAbsent core slot s
  | .chunkLand copy chunk => Sys2Proof.Machine.execChunkLand copy chunk s
  | .feedComplete core slot entry => Sys2Proof.Machine.execFeedComplete core slot entry s
  | .tileEntryRemove core slot queue => Sys2Proof.Machine.execTileEntryRemove core slot queue s
  | .tileTransferChunk xfer => Sys2Proof.Machine.execTileTransferChunk xfer s
  | .matrixCommit engine => Sys2Proof.Machine.execMatrixCommit engine s
  | .epilogueStoreChunk op => Sys2Proof.Machine.execEpilogueStoreChunk op s
  | .latchGrant latch => Sys2Proof.Machine.execLatchGrant latch s
  | .acknowledge write => Sys2Proof.Machine.execAcknowledge write s
  | .walk vf parent => Sys2Proof.Machine.execWalk vf parent s
  | .depsRecheck vf rcb => Sys2Proof.Machine.execDepsRecheck vf rcb s
  | .admitRegion vf rcb => Sys2Proof.Machine.execAdmitRegion vf rcb s
  | .placeWorkgroup vf rcb => Sys2Proof.Machine.execPlaceWorkgroup vf rcb s
  | .quantumEnd vf rcb => Sys2Proof.Machine.execQuantumEnd vf rcb s
  | .agedPriority vf rcb => Sys2Proof.Machine.execAgedPriority vf rcb s
  | .preempt wg => Sys2Proof.Machine.execPreempt wg s
  | .restore wg => Sys2Proof.Machine.execRestore wg s
  | .regionComplete vf rcb => Sys2Proof.Machine.execRegionComplete vf rcb s
  | .regionEnd vf rcb => Sys2Proof.Machine.execRegionEnd vf rcb s
  | .pageMoveComplete move => Sys2Proof.Machine.execPageMoveComplete move s
  | .tierMove vf page up => Sys2Proof.Machine.execTierMove vf page up s
  | .partitionEnable p => Sys2Proof.Machine.execPartitionEnable p s
  | .partitionDisable p => Sys2Proof.Machine.execPartitionDisable p s
  | .partitionStop p => Sys2Proof.Machine.execPartitionStop p s
  | .vfStop vf => Sys2Proof.Machine.execVfStop vf s
  | .vfResume vf => Sys2Proof.Machine.execVfResume vf s
  | .groupResume vf core slot => Sys2Proof.Machine.execGroupResume vf core slot s
  | .groupKill vf core slot => Sys2Proof.Machine.execGroupKill vf core slot s
  | .logProgram vf off value => Sys2Proof.Machine.execLogProgram vf off value s
  | .guestSwitch vf incoming => Sys2Proof.Machine.execGuestSwitch vf incoming s
  | .invalidatePageS1 vf page => Sys2Proof.Machine.execInvalidatePageS1 vf page s
  | .invalidateAllS1 vf => Sys2Proof.Machine.execInvalidateAllS1 vf s
  | .invalidatePageS2 vf page => Sys2Proof.Machine.execInvalidatePageS2 vf page s
  | .invalidateVf vf => Sys2Proof.Machine.execInvalidateVf vf s
  | .invalidationComplete vf => Sys2Proof.Machine.execInvalidationComplete vf s
  | .dieOffline die => Sys2Proof.Machine.execDieOffline die s
  | .dieOnline die => Sys2Proof.Machine.execDieOnline die s
  | .diePagesMoved die => Sys2Proof.Machine.execDiePagesMoved die s
  | .dieDrained die => Sys2Proof.Machine.execDieDrained die s
  | .registerWrite viaVf off value => Sys2Proof.Machine.execRegisterWrite viaVf off value s
  | .reset ok bad => Sys2Proof.Machine.execReset ok bad s
  | .clockLower coreMHz => Sys2Proof.Machine.execClockLower coreMHz s
  | .uncorrectableError site => Sys2Proof.Machine.execUncorrectableError site s
  | .correctedError => Sys2Proof.Machine.execCorrectedError s
  | .linkRetrain link => Sys2Proof.Machine.execLinkRetrain link s
  | .keyRollover link => Sys2Proof.Machine.execKeyRollover link s
  | .retireMessage link => Sys2Proof.Machine.execRetireMessage link s
  | .retireReceive link => Sys2Proof.Machine.execRetireReceive link s
  | .flitReceive link slot intact => Sys2Proof.Machine.execFlitReceive link slot intact s
  | .getVersion via => Sys2Proof.Machine.execGetVersion via s
  | .getCapabilities via => Sys2Proof.Machine.execGetCapabilities via s
  | .negotiateAlgorithms via => Sys2Proof.Machine.execNegotiateAlgorithms via s
  | .getDigests via => Sys2Proof.Machine.execGetDigests via s
  | .getCertificate via => Sys2Proof.Machine.execGetCertificate via s
  | .challenge via => Sys2Proof.Machine.execChallenge via s
  | .getMeasurements via => Sys2Proof.Machine.execGetMeasurements via s
  | .keyExchange via => Sys2Proof.Machine.execKeyExchange via s
  | .finish via => Sys2Proof.Machine.execFinish via s
  | .heartbeat via => Sys2Proof.Machine.execHeartbeat via s
  | .keyUpdate via => Sys2Proof.Machine.execKeyUpdate via s
  | .endSession via => Sys2Proof.Machine.execEndSession via s
  | .unsupportedRequest via => Sys2Proof.Machine.execUnsupportedRequest via s
  | .debugEnable vf => Sys2Proof.Machine.execDebugEnable vf s
  | .recordEnable vf => Sys2Proof.Machine.execRecordEnable vf s
  | .playEnable vf on => Sys2Proof.Machine.execPlayEnable vf on s
  | .samplerEnable vf => Sys2Proof.Machine.execSamplerEnable vf s
  | .tagSamplingEnable vf => Sys2Proof.Machine.execTagSamplingEnable vf s
  | .checkpointRestore vf ck => Sys2Proof.Machine.execCheckpointRestore vf ck s
  | .debugPark vf core slot => Sys2Proof.Machine.execDebugPark vf core slot s
  | .debugResume vf core slot => Sys2Proof.Machine.execDebugResume vf core slot s
  | .debugEndDemotion vf core slot => Sys2Proof.Machine.execDebugEndDemotion vf core slot s
  | .debugKill vf core slot => Sys2Proof.Machine.execDebugKill vf core slot s
  | .samplePeriodic vf => Sys2Proof.Machine.execSamplePeriodic vf s
  | .checkpoint vf => Sys2Proof.Machine.execCheckpoint vf s
  | .clockRestore => Sys2Proof.Machine.execClockRestore s
  | .logReadIndexWrite vf replay value => Sys2Proof.Machine.execLogReadIndexWrite vf replay value s
  | .hostPostedWrite vf addr bytes => Sys2Proof.Machine.execHostPostedWrite vf addr bytes s

end Sys2Proof.Machine
end

