-- ==== Sys2Proof/Machine/Schedule.lean ====
section
/-! DEFINITION. The moves of the machine: time, the group, access slice or event that moves next, and a state in which one instruction
stands where the next step fetches (R65, R66, R107, R117, R284, R285, R317, R430, R439; log entries 1, 23). -/

namespace Sys2Proof.Machine

/-- A group of the workgroup is debug-parked (R430). -/
def State.debugParked (s : State) (wg : Nat) : Bool := s.groups.any (fun (g : Group) => g.wg == wg && g.park == some .debug)

/-- The cycles of a group count for its barrier and peer waits: it is not parked, halted or throttled, and no pre-emption of its workgroup is under
way (R117, R317, R385, R413, R430). A full replay log throttles as the dirty log does, and its groups count as parked too: R443 does not say this of the
waits, and refers to R413 (log entry 124). -/
def State.counts (s : State) (g : Group) : Bool :=
  g.park.isNone && !s.debugParked g.wg &&
    (match s.wg? g.wg with | some w => !s.vfPaused w.vf && !s.throttled w.vf && !s.replayThrottled w.vf w.ctx && !w.stopping && !s.switching w.vf | none => true)

/-- `dt` cycles of a wait with a limit (R117, R317). -/
def Wait.pass (dt : Nat) (w : Wait) : Wait :=
  match w.kind with
  | .barrier | .dieBarrier | .peer => { w with cycles := w.cycles + dt }
  | _ => w

/-- Within the next `dt` cycles the limit of the group's barrier wait passes, with the phase incomplete: what completes the phase later comes too late.
Where the count has only reached the limit, a completion in the same cycle still wins (R117). -/
def State.expires (s : State) (dt : Nat) (g : Group) : Bool :=
  match g.wait, (s.issueAs g.core g.slot false g.run).issue? with
  | some w, some is =>
    is.r.eff.blimit != 0 && is.r.eff.blimit * 1024 < w.cycles + dt && s.waitOpen is.w g.core w
  | _, _ => false

/-- `dt` cycles of a group's wait. -/
def State.passGroup (s : State) (dt : Nat) (g : Group) : Group :=
  if g.wait.isSome && s.counts g then
    { g with wait := g.wait.map (fun (w : Wait) => { w.pass dt with expired := w.expired || s.expires dt g }) }
  else g

/-- The agents of a group that wait for an absent peer count cycles as the group does (R317). -/
def State.ownerCounts (s : State) (core slot start : Nat) : Bool :=
  match s.groups.find? (fun (g : Group) => g.core == core && g.slot == slot && g.start == start) with
  | some g => s.counts g
  | none => true

/-- `dt` cycles of the copies, operations and transfers of a workgroup that wait for absent peers. -/
def State.passWg (s : State) (dt : Nat) (w : Workgroup) : Workgroup :=
  if w.saved then w
  else
    let tick := fun (c k b : Nat) (a : Option Nat) => if s.ownerCounts c k b then a.map (fun n => n + dt) else a
    { w with
      copies := w.copies.map (fun x => { x with absent := tick x.core x.slot x.start x.absent }),
      ops := w.ops.map (fun x => { x with absent := tick x.core x.slot x.start x.absent }),
      xfers := w.xfers.map (fun x => { x with absent := tick x.core x.slot x.start x.absent }) }

/-- The number of cores that workgroups of a region occupy now. -/
def State.onCores (s : State) (r : Region) : Nat := (coresOf ((s.wgsOf r).filter (fun w => !w.saved && !w.ended))).length

/-- `dt` cycles of a region: its quantum, its deficit, its core-cycles, its waiting in state 4 (R97, R107, R108). -/
def State.passRegion (s : State) (dt : Nat) (r : Region) : Region :=
  let n := s.onCores r
  if r.isRoot then r
  else if r.st = 5 ∨ r.st = 6 then
    let r1 := { r with used := r.used + n * dt }
    if n ≠ 0 ∧ s.quantumRuns r then { r1 with quantumCycles := r.quantumCycles + dt, deficit := r.deficit - ((n * dt : Nat) : Int) } else r1
  else if r.st = 4 then { r with quantumCycles := r.quantumCycles + dt }
  else r

/-- A group whose operation waits at retirement stands in a blocking wait (R230, R359, R368). -/
def isBlocking (i : Instr) : Bool :=
  match i with
  | .qpop _ | .twaitAny _ | .twaitAll _ | .tfirst _ | .acqX _ | .acqS _ | .rel _ | .barWait _ | .dbarWait _ | .mfenceOp _ | .mwait _ => true
  | .fence f => f.mod.getLsbD 1
  | _ => false

/-- The group stands in a blocking wait (R439). -/
def State.blocked (s : State) (g : Group) : Bool :=
  g.wait.isSome && g.park.isNone &&
    (match (s.issueAs g.core g.slot false g.run).issue? with
     | some is => (match is.fetch s (g.lane (lowest g.run)) with | .op i => isBlocking i | _ => false)
     | none => false)

/-- Sampler counters of the core cycles and of the group-cycles in blocking waits (R439). -/
def State.passCounters (s : State) (dt vf : Nat) : State :=
  let core := bitsOf (s.vfReg vf 0x094).toNat 31 24
  if (s.vfReg vf 0x060).getLsbD 3 then
    let n := (s.groups.filter (fun (g : Group) => g.core == core && s.blocked g &&
      (match s.wg? g.wg with | some w => w.vf == vf && w.ctx == s.curCtx vf | none => false))).length
    (s.count core vf (s.curCtx vf) 0x01 dt).count core vf (s.curCtx vf) 0x09 (n * dt)
  else s

/-- What other groups have overwritten stays readable for 64 cycles (log entry 33). -/
def State.recentAt (s : State) (now : Nat) : List Recent := s.recent.filter (fun e => now < e.born + 64)

/-- What a group has read matters only where something older can still be read. -/
def Group.forgets (rs : List Recent) (g : Group) : Group :=
  { g with readMarks := g.readMarks.filter (fun m => rs.any (fun e => meets e.pa e.old.length m.pa m.len)) }

/-- `dt` core cycles pass; the next accesses choose anew where the spec leaves them a choice. -/
def State.advance (s : State) (dt : Nat) : State :=
  let rs := s.recentAt (s.now + dt)
  let s1 :=
    { s with
      now := s.now + dt, fresh := s.fresh + 1, recent := rs, groups := (s.groups.map (s.passGroup dt)).map (Group.forgets rs),
      wgs := s.wgs.map (s.passWg dt), regions := s.regions.map (s.passRegion dt) }
  (List.range 64).foldl (fun s v => s.passCounters dt v) s1

/-- Takes the fault of a position where no operation can be performed (R37, R60, R150). -/
def State.badPosition (s : State) (is : Issue) (cls : FaultClass) (addr : Dword) (stage2 : Bool) : State :=
  s.takeHit is { Hit.plain cls is.mask addr with stage2 := stage2 }

/-- A `trap`, a `halt` or a `spawn`: one that has not begun to retire when the second step of a pre-emption starts is squashed (R392). -/
def notForStop (i : Instr) : Bool :=
  match i with
  | .trap _ | .halt _ | .spawn _ => true
  | _ => false

/-- What is left of a group's run is squashed. -/
def State.dropRun (s : State) (core slot : Nat) : State :=
  (s.squash core slot false).updGroup core slot (fun g => { g with run := 0 })

/-- A group performs what stands at the position of its run. -/
def State.performAt (s : State) (core slot : Nat) (is : Issue) (l : Lane) : Out :=
  match is.fetch s l with
  | .op i => if is.w.stopping && notForStop i then .next (s.dropRun core slot) else exec i s
  | .header => .next (s.dropRun core slot)
  | .bad cls addr b => .next (s.badPosition is cls addr b)

/-- A group moves: at a run boundary it chooses its next run, and else it performs the operation at which the lanes of its run stand
(R65, R66). -/
def State.groupMove (s : State) (core slot : Nat) : Out :=
  match s.group? core slot with
  | none => .next s
  | some g =>
    if g.park.isSome then .next s
    else if g.run = 0 then exec (.selectRun core slot) s
    else
      let s1 := s.issueAs core slot false g.run
      match s1.issue? with
      | none => .next s
      | some is =>
        let l := g.lane (lowest g.run)
        s1.onCode is.w is.r l.func.toNat l.parcel (fun t => t.performAt core slot is l)

/-- An access slice that waits at the start of its function for its code to be read takes its first position, or the fault that the search for it
meets (R33, R37, R287). -/
def State.beginSlice (s : State) (is : Issue) (a : AccessSlice) : State :=
  let put := fun (s : State) (a : AccessSlice) => s.updGroup is.g.core is.g.slot (fun g => { g with acc := some a })
  match s.readTrees is.w.vf is.w.ctx is.r.eff.image is.r.code with
  | .error x => s.awaitFault is.w.vf is.w.ctx (x.fault 0)
  | .ok t =>
    match t.readFn a.lane.func.toNat with
    | .error x => s.awaitFault is.w.vf is.w.ctx (x.fault 0)
    | .ok e =>
      match t.firstParcel e with
      | .ok p => (put s { a with lane := { a.lane with pos := posWord 0 p, atStart := false } }).codeRead is.w (t.startPages e p) []
      | .error f =>
        ((put s { a with
          lane := { a.lane with pos := posWord 0 f.parcel }, stopped := some { cls := f.cls, addr := f.addr, stage2 := f.stage2 },
          taken := none }).codeRead is.w (t.fnPages e ++ t.startPages e f.parcel ++ t.triedPages e f.parcel) [f])

/-- An access slice whose fault has been serviced goes on at its position (R287). -/
def AccessSlice.goesOn (a : AccessSlice) : AccessSlice := { a with stopped := none, taken := none }

/-- The access slice of a group moves (R284 to R287; log entry 50). -/
def State.sliceMove (s0 : State) (core slot : Nat) : Out :=
  match s0.group? core slot with
  | none => .next s0
  | some g0 =>
    let again := match g0.acc with | some a => g0.takenServiced a.taken | none => false
    let s := if again then s0.updGroup core slot (fun g => { g with acc := g.acc.map AccessSlice.goesOn }) else s0
    let s1 := s.issueAs core slot true 1
    match (s.group? core slot).bind (fun g => g.acc), s1.issue? with
    | some a, some is =>
      if a.ended ∨ a.stopped.isSome ∨ !g0.issued ∨ g0.park.isSome ∨ g0.allRetired ∨ !s.mayDispatch is.w then .next s
      else
        s1.onCode is.w is.r a.lane.func.toNat a.lane.parcel (fun t =>
          if a.lane.atStart then .next (t.beginSlice is a)
          else
            match is.fetch t a.lane with
            | .op i => exec i t
            | .header => .next (t.retireSlice is (fun _ => .retry))
            | .bad cls addr b => .next (t.badPosition is cls addr b))
    | _, _ => .next s

/-- Makes a move. -/
def State.move (s : State) (w : Who) : Out :=
  match w with
  | .group core slot => s.groupMove core slot
  | .access core slot => s.sliceMove core slot
  | .event i => if i.isOp then .next s else exec i s

/-- The groups that can go on: in a run, without a wait, or selected by their issue slot. -/
def State.goers (s : State) : List Group :=
  s.groups.filter (fun (g : Group) => g.park.isNone && g.wait.isNone && (g.run != 0 || s.selects g))

/-- The events of the agents that are at work for a group. -/
def Group.tasks (g : Group) : List Who :=
  (if g.wait.isSome && g.run != 0 then [.group g.core g.slot] else []) ++
    (if g.acc.any (fun a => !a.ended) then [.access g.core g.slot] else []) ++
    (if g.allRetired then [.event (.groupEnd g.core g.slot)] else []) ++
    (if g.run == 0 && 64 ≤ g.spinCount then [.event (.demotion g.core g.slot)] else []) ++
    (if g.demoted != 0 then [.event (.demotionEnd g.core g.slot)] else []) ++
    g.feeds.flatMap (fun e => [.event (.feedComplete g.core g.slot e.id), .event (.tileEntryRemove g.core g.slot e.queue)])

/-- The events of the agents that are at work for a workgroup: copies, tile transfers, the matrix operations, a save, and for a saved one its
restore. -/
def Workgroup.tasks (w : Workgroup) : List Who :=
  if w.saved then [.event (.restore w.id)]
  else
  (if w.stopping then [.event (.preempt w.id)] else []) ++ w.copies.map (fun c => .event (.chunkLand c.id c.next)) ++ w.xfers.map (fun x => .event (.tileTransferChunk x.id)) ++
    w.ops.flatMap (fun o => [.event (.matrixCommit o.engine), .event (.epilogueStoreChunk o.id)])

/-- The events of the arbiter for a region. -/
def Region.tasks (r : Region) : List Who :=
  if r.done || r.isRoot then []
  else
    [.event (.walk r.vf r.rcb), .event (.depsRecheck r.vf r.rcb), .event (.admitRegion r.vf r.rcb), .event (.placeWorkgroup r.vf r.rcb),
     .event (.quantumEnd r.vf r.rcb), .event (.agedPriority r.vf r.rcb), .event (.regionComplete r.vf r.rcb)]

/-- The pre-emptions of workgroups that count as unused: the cores that they hold may be needed for a descendant (R106). -/
def State.unusedTasks (s : State) : List Who :=
  (s.wgs.filter (fun w => !w.saved && !w.ended && !w.stopping &&
    (match s.region? w.vf w.rcb with | some r => s.wgUnused r w | none => false))).map (fun w => .event (.preempt w.id))

/-- The next page of a VF that the tier engine has still to take down since a change of the current context, and can (R411). -/
def State.nextDown (s : State) (p vf : Nat) : Option Leaf :=
  (s.downs.filter (fun d => d.1 == vf)).findSome? (fun d =>
    (s.s2Leaf vf d.2.2).filter (fun l => l.tier == 0 && (s.downFor p vf l).isSome && (s.cxlFor p vf l).isSome))

/-- What the tier engine has to do for a VF: the pages that come next up, and down for the contexts that are not current (R110, R411). -/
def State.tierTasks (s : State) (vf : Nat) : List Who :=
  match s.partOf vf with
  | none => []
  | some p =>
    let ups := (s.setUp vf).toList ++ (match s.gateUp p with | some (v, l) => if v = vf then [l] else [] | none => [])
    let downs := (s.nextDown p vf).toList
    ups.map (fun l => .event (.tierMove vf (l.base / 65536) true)) ++ downs.map (fun l => .event (.tierMove vf (l.base / 65536) false))

/-- What the tier engine has to do. -/
def State.allTierTasks (s : State) : List Who :=
  if s.hasCxl then ((List.range 64).filter s.vfEnabled).flatMap s.tierTasks else []

/-- The walks of the roots of the enabled VFs. -/
def State.rootTasks (s : State) : List Who :=
  ((List.range 64).filter s.vfEnabled).map (fun v => .event (.walk v ((s.vfReg v 0x008).toNat % 2 ^ 56)))

/-- What the agents have under way: each of these is tried in turn. -/
def State.tasks (s : State) : List Who :=
  s.groups.flatMap Group.tasks ++ s.wgs.flatMap Workgroup.tasks ++ s.regions.flatMap Region.tasks ++ s.rootTasks ++
    s.posted.map (fun p => .event (.acknowledge p.id)) ++ s.latchQs.map (fun q => .event (.latchGrant q.pa)) ++
    s.moves.map (fun m => .event (.pageMoveComplete m.id)) ++ s.unusedTasks ++ s.allTierTasks

/-- The task whose turn it is. -/
def State.nextTask (s : State) : Option Who := s.tasks[s.now / 4 % s.tasks.length]?

/-- What moves when the agenda is empty: the next boot stage; else of the groups that can go on the one whose last dispatch is the oldest, and in
every fourth cycle, or where no group can go on, a task of the agents, a posted write first that has waited long; none where only time passes (R71,
R306; log entry 1). -/
def State.defaultWho (s : State) : Option Who :=
  let late := s.posted.find? (fun p => p.id + 64 ≤ s.seq)
  let next := s.goers.find? (fun g => s.goers.all (fun h => g.lastDispatch ≤ h.lastDispatch))
  if bitsOf (s.reg 0x000).toNat 3 0 < 7 ∧ bitsOf (s.reg 0x000).toNat 31 16 = 0 then some (.event (.reset true 0))
  else
    match next, late, decide (s.now % 4 = 0), decide (s.now % 8 = 0) with
    | _, some p, true, true => some (.event (.acknowledge p.id))
    | some g, _, false, _ => some (.group g.core g.slot)
    | _, _, _, _ => s.nextTask

/-- The move comes after one of a higher slot of its core in the same cycle: it takes its place in the next cycle, so that what the groups of a core do
in one cycle is done in the order of their slots (R167, R372, R447). -/
def State.outOfOrder (s : State) (w : Who) : Bool :=
  match w with
  | .group core slot => s.cycle.any (fun x => x.1 == core && slot < x.2)
  | _ => false

/-- The cycles that pass before a move. -/
def State.delay (s : State) (m : Move) : Nat := if m.dt = 0 ∧ s.outOfOrder m.who then 1 else m.dt

/-- The groups that have moved in the cycle of a move, its own among them. -/
def State.cycleWith (s : State) (m : Move) : List (Nat × Nat) :=
  (if s.delay m = 0 then s.cycle else []) ++ (match m.who with | .group core slot => [(core, slot)] | _ => [])

/-- The state in which a move is made: the cycles before it have passed. -/
def State.before (s : State) (m : Move) (rest : List Move) : State :=
  { s with agenda := rest, cycle := s.cycleWith m, held := false, wants := none, halts := none }.advance (s.delay m)

/-- What a move has led to: where an access in it has to wait, the state before it (R282, R413); where one stands at the stop index of replay mode,
that state with the context stopped (R445). -/
def State.settled (t s : State) : State :=
  match t.held, t.halts with
  | true, some ac => s.replayStop ac
  | _, _ => t.orWait s

/-- Makes a move. -/
def State.make (s : State) (w : Who) : Out :=
  match s.move w with
  | .next t => .next (t.settled s)
  | o => o

/-- One step: the next move of the agenda, after the cycles that pass before it. -/
def State.takeStep (s : State) : Out :=
  match s.agenda with
  | m :: rest => (s.before m rest).make m.who
  | [] =>
    match s.defaultWho with
    | some w => (s.before { dt := 1, who := w } []).make w
    | none => .next (s.advance 1)

/-- Where a placed instruction stands: the tables at 0x800, the image at 0x10000, an RCB address, all in tower 0. -/
def placeTables : Nat := 0x800
def placeImage : Nat := 0x10000
def placeRcb : Nat := 0x20000

/-- The parcels of the operation at the head of `ws`, or all of them where nothing decodes. -/
def headParcels (ws : List Word) : List Word :=
  match decode ws with
  | .ok (_, rest) => ws.take (ws.length - rest.length)
  | .error _ => ws.take 2

/-- An image with one function whose only leaf holds the operation `op` (R34 to R40). -/
def oneOpImage (op : List Word) : List Byte :=
  let k := op.length
  let words : List Nat :=
    [0x4F5A494D, 1, 1, 32, 48, 4 + k, 0, 0, 0, 0, 4 + k, 0, 4 + k, 0, 2 ^ 24 + (2 + k), 1]
  words.flatMap (bytesLE 4) ++ op.flatMap (fun w => bytesLE 4 w.toNat)

/-- Tables that map the first GiB to itself, for both stages (R289, R290). -/
def oneTables (m : Memory) : Memory :=
  writeBytes (writeBytes (writeBytes m placeTables (bytesLE 8 0x1009)) 0x1000 (bytesLE 8 0x2009)) 0x2000 (bytesLE 8 0x0D)

/-- The effective fields of the placed region. -/
def placedEff : Eff :=
  { image := placeImage, entry := 0, hasacc := false, access := 0, ndie := 1, nclu := 1, nwg := 1, ngrp := 1, args := 0, cores := 1,
    engines := 1, gbud := 2, regs := 64, win := 8, lstore := 4096, priv := 128, ctags := 8, qdepth := 4, wgeng := 0, copies := 4, prio := 0,
    domain := 0, rset := 0, thresh := 0, quantum := 1, blimit := 0, latch := 0, signal := 0 }

/-- The placed region, running. -/
def placedRegion : Region :=
  { vf := 0, rcb := placeRcb, parent := 0, isRoot := false, ctx := 0, eff := placedEff, st := 5, latch := .none, deficit := 1024, ring := 0, ringPrio := 0,
    quantumCycles := 0, waitedQuanta := 0, placed := 1, begun := [(0, 1)], used := 0, thin := false, code := none, ending := false, lastLinks := 0, lastHead := 0 }

/-- The placed workgroup: core 0, the allocation at the start of its slice. -/
def placedWg (id : Nat) : Workgroup :=
  { id := id, vf := 0, ctx := 0, rcb := placeRcb, die := 0, clu := 0, wgi := 0, lin := 0, core := 0, allocOff := 0, allocSize := 12288,
    slots := [0, 1], started := true, stopping := false, stopped := 0, saved := false, ended := false, tags := 0xFF, copies := [], bars := [], engine := none,
    releasing := false, leaving := [], ops := [], xfers := [], xfaults := [] }

/-- A lane at the placed operation. -/
def placedLane : Lane := { regs := [], bad := [], life := .live, pos := posWord 0 4, func := 0, frameBase := 0, atStart := false }

/-- The placed group, in a run of all its lanes at the placed operation. -/
def placedGroup (id seq : Nat) : Group :=
  { Group.fresh 0 0 id 0 seq 0 (List.replicate 32 placedLane) none with run := 0xFFFFFFFF, issued := true }

/-- The state in which the operation with the parcels `ws` stands where the next step performs it: partition 0 with one cluster and one
tower channel, VF 0 with its tables, a region, a workgroup and a group in a run at the operation, and that group's move at the head of
the agenda (log entry 23). -/
def State.withParcels (s : State) (ws : List Word) : State :=
  let op := headParcels ws
  let s1 := { s with mem := writeBytes (oneTables s.mem) placeImage (oneOpImage op) }
  let s2 := ((((s1.setReg (partBase 0) 1).setReg (partBase 0 + 0x008) 1).setReg (partBase 0 + 0x010) 1).setReg (partBase 0 + 0x038)
    1).setReg (partBase 0 + 0x040) 0x100000000000#64
  let s3 := (((s2.setVfReg 0 0x000 1).setVfReg 0 0x010 (BitVec.ofNat 64 placeTables)).setCxReg 0 0 0x100 1).setCxReg 0 0 0x108
    (BitVec.ofNat 64 placeTables)
  { s3 with
    regions := placedRegion :: s3.regions.filter (fun r => !(r.vf == 0 && r.rcb == placeRcb)),
    wgs := placedWg s.seq :: s3.wgs.filter (fun w => w.id != s.seq),
    groups := placedGroup s.seq (s.seq + 1) :: s3.groups.filter (fun (g : Group) => !(g.core == 0 && g.slot == 0)),
    seq := s.seq + 2, agenda := [{ dt := 1, who := .group 0 0 }] }

end Sys2Proof.Machine
end

