-- ==== Sys2Proof/Machine/Step.lean ====
section
/-! DEFINITION. The step of the machine, and the state in which a given instruction is the next one. -/

namespace Sys2Proof.Machine

/-- One step of the machine (log entry 78). -/
def step (s : State) : Host.Outcome State Fault Refusal := s.takeStep

/-- `s` with the instruction whose bits are `w` where the next step fetches (log entry 23). -/
def State.withFetchWord (s : State) (nbits w : Nat) : State := s.withParcels (tableParcels nbits w)

end Sys2Proof.Machine
end

