-- ==== Sys2Proof/Safety.lean ====
section
/-! DEFINITION. What a run of the machine is held to: it goes on, and its tables keep their canonical form. -/

namespace Sys2Proof.Machine

/-- The outcome is a next state: neither a fault nor a refusal of the model. -/
def Goes (o : Out) : Prop := ∃ t, o = .next t

/-- Memory, its tags, its poison, and the registers of the hub and of the contexts are in their canonical forms. -/
abbrev State.Canonical (s : State) : Prop :=
  Memory.wf s.mem ∧ Sparse.wf s.tags ∧ Sparse.wf s.poison ∧ Sparse.wf s.regs ∧ Sparse.wf s.cxRegs

/-- A safe step: it goes on, and from a canonical state to a canonical one. -/
def SafeStep (s : State) : Prop := ∃ t, step s = .next t ∧ (s.Canonical → t.Canonical)

end Sys2Proof.Machine
end

