-- ==== Sys2Proof/Certificates/Slice0/Obligations.lean ====
section
/-! DEFINITION. The statements about the OZ-9640. Each is a proposition for the provers; its docstring names the rules that it rests on. -/

namespace Sys2Proof.Machine

/-- The operation `i` is in issue in `s` as `is` says, and passes the checks that come before its effect (R150). -/
def Ready (i : Instr) (s : State) (is : Issue) : Prop := s.issue? = some is ∧ issueCheck i s is = none

/-- The outcome of an operation that retires with its effects in `s'` and its lanes going on to their next position (R52, R78). -/
def retires (i : Instr) (is : Issue) (s' : State) (loud : Bool) : Out := .next (s'.retire is i loud (fun _ => .succ))

/-- Element `k` of a value of a type, in bits (R121, R158). -/
def elemBits (ty : Ty) (x : Dword) (k : Nat) : BitVec ty.bits := x.extractLsb' (ty.bits * k) ty.bits

/-- `i` completes: it writes to `dest` in every lane of ACTIVE a value of its type that satisfies `P`, writes nothing else, and
retires. -/
def WritesValue (i : Instr) (f : Fields) (s : State) (is : Issue) (P : Nat → Dword → Prop) : Prop :=
  ∃ v : Nat → Dword, (∀ L, P L (v L)) ∧
    exec i s = retires i is (s.writeLanes is (fun L l => l.setVal f.ty f.dest.toNat (v L))) false

/-- `i` completes: it writes to the single register `dest` in every lane of ACTIVE a word that satisfies `P`, writes nothing else,
and retires. -/
def WritesWord (i : Instr) (f : Fields) (s : State) (is : Issue) (P : Nat → Word → Prop) : Prop :=
  ∃ v : Nat → Word, (∀ L, P L (v L)) ∧
    exec i s = retires i is (s.writeLanes is (fun L l => l.setReg f.dest.toNat (v L))) false

/-- `i` completes with each element of its result the function `r` of the elements of a, b and c. -/
def ElementOp (ctor : Fields → Instr) (r : (ty : Ty) → BitVec ty.bits → BitVec ty.bits → BitVec ty.bits → BitVec ty.bits) : Prop :=
  ∀ (f : Fields) (s : State) (is : Issue), Ready (ctor f) s is →
    WritesValue (ctor f) f s is (fun L v => ∀ k, k < f.ty.elems → elemBits f.ty v k =
      r f.ty (elemBits f.ty (is.val f.ty f.a L) k) (elemBits f.ty (is.val f.ty f.b L) k) (elemBits f.ty (is.val f.ty f.c L) k))

/-- The order of elements of a type. -/
def elemLess (ty : Ty) (x y : BitVec ty.bits) : Bool := if ty.signed then x.slt y else x.ult y

/-- A value clamped to the range of a type (R171). -/
def saturate (ty : Ty) (v : Int) : BitVec ty.bits :=
  BitVec.ofInt ty.bits
    (if ty.signed then max (-2 ^ (ty.bits - 1)) (min (2 ^ (ty.bits - 1) - 1) v) else max 0 (min (2 ^ ty.bits - 1) v))

/-- The number that an element stands for. -/
def elemVal (ty : Ty) (x : BitVec ty.bits) : Int := if ty.signed then x.toInt else (x.toNat : Int)

/-- Bits of a value of a type: 64 for a pair, 32 for a register. -/
def valueBits (ty : Ty) : Nat := if ty.wide then 64 else 32

/-- The result of a bitwise operation: `r` of the operands' bits, one by one. -/
def BitOp (ctor : Fields → Instr) (r : Bool → Bool → Bool) : Prop :=
  ∀ (f : Fields) (s : State) (is : Issue), Ready (ctor f) s is →
    WritesValue (ctor f) f s is (fun L v => ∀ i, i < valueBits f.ty →
      v.getLsbD i = r ((is.val f.ty f.a L).getLsbD i) ((is.val f.ty f.b L).getLsbD i))

/-- `i` completes: it writes `v L` to `dest` in lane `L` of ACTIVE, and retires. -/
def Writes (i : Instr) (f : Fields) (s : State) (is : Issue) (v : Nat → Dword) : Prop :=
  exec i s = retires i is (s.writeLanes is (fun L l => l.setVal f.ty f.dest.toNat (v L))) false

/-- `i` completes: it writes the word `v L` to the single register `dest` in lane `L` of ACTIVE, and retires. -/
def WritesReg (i : Instr) (f : Fields) (s : State) (is : Issue) (v : Nat → Word) : Prop :=
  exec i s = retires i is (s.writeLanes is (fun L l => l.setReg f.dest.toNat (v L))) false

/-- The condition that `mod` selects (R136). -/
def condHolds (cond : Nat) (x y : Int) : Prop :=
  match cond with
  | 0 => x = y
  | 1 => x ≠ y
  | 2 => x < y
  | 3 => x ≤ y
  | 4 => x > y
  | _ => x ≥ y

/-- A count of the kind that `clz` and `ctz` give: the bits `z 0`, `z 1`, … are clear up to the first set one, or all `w` are. -/
def IsFirstSet (w : Nat) (z : Nat → Bool) (r : Nat) : Prop := r ≤ w ∧ (∀ i, i < r → z i = false) ∧ (r < w → z r = true)

/-- An exchange completes: lane `L` receives a of lane `src L i`, where that lane is in ACTIVE, and its own a elsewhere; `i` is the lane's
selector (R181). -/
def Exchanges (ctor : Fields → Instr) (src : Nat → Nat → Nat) : Prop :=
  ∀ (f : Fields) (s : State) (is : Issue), Ready (ctor f) s is →
    Writes (ctor f) f s is (fun L =>
      let k := src L (is.word f.b L).toNat
      if k < 32 ∧ is.mask.getLsbD k then is.val f.ty f.a k else is.val f.ty f.a L)

/-- An operation that raises flags completes, with the value and the flags `res L` of each lane, where no enabled flag is raised; and else takes
the numeric trap and writes nothing (R202, R203). -/
def RaisesOrTraps (i : Instr) (ty : Ty) (dest : Nat) (s : State) (is : Issue) (res : Nat → LaneRes) : Prop :=
  ((∀ L, is.mask.getLsbD L → L < 32 → (res L).flags &&& is.g.enables = 0) →
    exec i s = retires i is ((s.writeLanes is (fun L l => l.setVal ty dest (res L).value)).raise is
      (unionFlags is.mask (fun L => (res L).flags))) false) ∧
  (∀ L, is.mask.getLsbD L → L < 32 → (res L).flags &&& is.g.enables ≠ 0 → ∃ h : Hit, h.cls = .numericTrap ∧ h.mask.getLsbD L = true ∧
    exec i s = .next (s.takeHit is h))

/-- A float operation of class 0x2: each element of each lane is `r` of the elements of a, b and c, with its flags (R205). -/
def FloatOp (ctor : Fields → Instr) (r : Fields → Bool → Nat → Nat → Nat → FRes) : Prop :=
  ∀ (f : Fields) (s : State) (is : Issue), Ready (ctor f) s is →
    RaisesOrTraps (ctor f) f.ty f.dest.toNat s is (fun L =>
      let out := perElem f.ty (fun k => r f is.ftz (elemOf f.ty.bits (is.val32 f.ty f.a L) k) (elemOf f.ty.bits (is.val32 f.ty f.b L) k)
        (elemOf f.ty.bits (is.val32 f.ty f.c L) k))
      LaneRes.ofWord out.1 out.2)

/-- A sum with an infinite operand (R206): the result and its flags; none where the exact sum is rounded. -/
def specialSum (t : Fmt) (a b : FVal) : Option FRes :=
  match a, b with
  | .inf x, .inf y => if x = y then some { bits := t.signed x t.inf, flags := 0 } else some { bits := t.nan, flags := 0x10 }
  | .inf x, .fin _ _ _ => some { bits := t.signed x t.inf, flags := 0 }
  | .fin _ _ _, .inf y => some { bits := t.signed y t.inf, flags := 0 }
  | _, _ => none

/-- A NaN among the operands (R206). -/
def specialNan (t : Fmt) (vs : List FVal) : Option FRes :=
  if vs.any FVal.isSnan then some { bits := t.nan, flags := 0x10 }
  else if vs.any FVal.isNan then some { bits := t.nan, flags := 0 }
  else none

/-- The real number with sign `neg`, significand `m` and exponent `e`. -/
noncomputable def realOf (neg : Bool) (m : Nat) (e : Int) : ℝ := (if neg then -1 else 1) * m * (2 : ℝ) ^ e

/-- A finite value with the sign `neg` and the magnitude of `y`. -/
def FVal.Is (v : FVal) (neg : Bool) (y : ℝ) : Prop := ∃ m e, v = .fin neg m e ∧ (m : ℝ) * (2 : ℝ) ^ e = |y|

/-- `x` stands for the nonzero real `v`: exactly, or by more of its first bits than the format holds. -/
def Exact.Stands (x : Exact) (t : Fmt) (v : ℝ) : Prop :=
  v ≠ 0 ∧ (x.neg = true ↔ v < 0) ∧
    if x.sticky then 2 ^ (t.mb + 1) ≤ x.m ∧ (x.m : ℝ) * (2 : ℝ) ^ x.e < |v| ∧ |v| < (x.m + 1 : ℝ) * (2 : ℝ) ^ x.e
    else |v| = (x.m : ℝ) * (2 : ℝ) ^ x.e

/-- `y` can be represented, with no bound on the exponent above: by `n` in units of `2 ^ k`, with the precision and the subnormal spacing of the format
(R197). -/
def Fmt.Scaled (t : Fmt) (y : ℝ) (n k : Int) : Prop :=
  y = n * (2 : ℝ) ^ k ∧ |n| ≤ 2 ^ (t.mb + 1) ∧ 1 - (t.bias : Int) - t.mb ≤ k

def Fmt.OnScale (t : Fmt) (y : ℝ) : Prop := ∃ n k, t.Scaled y n k

/-- The greatest finite value of a format (R194). -/
noncomputable def Fmt.greatest (t : Fmt) : ℝ := if t.ieee then (2 - (2 : ℝ) ^ (-(t.mb : Int))) * 2 ^ t.bias else 448

/-- `y` is the value to which a mode rounds the real `x`; under SR away from zero where `away` says so (R197). -/
def Fmt.RoundsTo (t : Fmt) (mode : Rnd) (away : Bool) (x y : ℝ) : Prop :=
  t.OnScale y ∧ 0 ≤ x * y ∧ ∀ z, t.OnScale z →
    match mode with
    | .rne => |y - x| ≤ |z - x| ∧ (|z - x| = |y - x| → z ≠ y → ∃ n k, t.Scaled y n k ∧ n % 2 = 0)
    | .rna => |y - x| ≤ |z - x| ∧ (|z - x| = |y - x| → |z| ≤ |y|)
    | .rtz => |y| ≤ |x| ∧ (|z| ≤ |x| → |z| ≤ |y|)
    | .rdn => y ≤ x ∧ (z ≤ x → z ≤ y)
    | .rup => x ≤ y ∧ (x ≤ z → y ≤ z)
    | .sr => if away then |x| ≤ |y| ∧ (|x| ≤ |z| → |y| ≤ |z|) else |y| ≤ |x| ∧ (|z| ≤ |x| → |z| ≤ |y|)

/-- An operation's accesses `qs` pass every check, and nothing holds the operation back: the reads of an older acquire copy of its group (R302), the
checks of R228, its release, the replay log with the accesses `more` besides its own, the watch units on `ws`, replay mode. The group's own posted
writes to the places that it reads are performed first (R318). `sps` are the places that the accesses reach, and `s1` the state in which its effect
takes place. -/
def ReachesWith (s : State) (is : Issue) (more : List Touch) (ws : List WatchRange) (qs : List Req) (release : Bool) (scope : Scope) (s1 : State)
    (sps : List Spot) : Prop :=
  is.w.acquiring is.g.start s.seq = false ∧ s.checkReqs is qs = .go sps ∧ is.releaseGate s release scope = none ∧
  let ts := more ++ is.touches sps
  let a := s.flushSpots is sps
  s.replayFull is.accessor ts = false ∧ is.watchHit a ws = none ∧
  ∃ s0, a.replayGate is.accessor.key is.w.vf is.w.ctx (ts.map (a.touchEntry is.accessor)) = .go s0 ∧ s1 = (s0.recordTouches is.accessor ts).reach is sps

/-- `ReachesWith` of an operation that makes its own accesses only. -/
def Reaches (s : State) (is : Issue) (ws : List WatchRange) (qs : List Req) (release : Bool) (scope : Scope) (s1 : State) (sps : List Spot) : Prop :=
  ReachesWith s is [] ws qs release scope s1 sps

/-- The state in which an operation that reaches the places `sps` goes on waiting: nothing is recorded or replayed by a try (log entry 36). -/
def Tried (s : State) (is : Issue) (sps : List Spot) : State := (s.flushSpots is sps).reach is sps

/-- `v` is a value that a load of `n` bytes at `pa` may return in `s`: what stands there, or what another group has overwritten there lately
(R310, R314; log entry 33). -/
def LoadsFrom (s : State) (is : Issue) (pa n v : Nat) : Prop :=
  v = readLE s.mem pa n ∨ ∃ e ∈ s.recent, e.start ≠ (is.refresh s).g.start ∧ e.pa ≤ pa ∧ pa + n ≤ e.pa + e.old.length ∧
    v = ofBytesLE ((e.old.drop (pa - e.pa)).take n)

/-- Replay mode lets a fault of the operation in issue come, whose accesses would be `es`: it names none of them that others come before, and it does not
stop the context there (R445; log entry 36). -/
def FaultsInTurn (s : State) (is : Issue) (es : List ReplayEntry) : Prop :=
  let gate := s.replayGate is.accessor.key is.w.vf is.w.ctx es
  gate ≠ .stop ∧ ∀ t, gate = .stay t → is.ownTurn s = true

/-- An operation whose merge still owed its homes goes on: it waits until they are written, and then makes its own accesses `ts`, and ends with `body`
(R269, R273; log entry 47). -/
def EndsMerge (i : Instr) (s : State) (is : Issue) (ts : List Touch) (body : State → State) : Prop :=
  (s.owesFolds is.g = true → exec i s = .next s) ∧
  (s.owesFolds is.g = false → s.replayFull is.accessor ts = false →
    ∀ s1, s.replayGate is.accessor.key is.w.vf is.w.ctx (ts.map (s.touchEntry is.accessor)) = .go s1 →
    exec i s = retires i is ((body (s1.recordTouches is.accessor ts)).updGroup is.g.core is.g.slot (fun g => { g with merged := none })) true)

/-- A failed check of R228 is a fault, and the operation has no effect. -/
def FaultsOn (i : Instr) (s : State) (is : Issue) (qs : List Req) : Prop :=
  is.w.acquiring is.g.start s.seq = false → FaultsInTurn s is ((is.touches (qs.filterMap (s.spotOf is))).map (s.touchEntry is.accessor)) →
    ∀ h, s.checkReqs is qs = .hit h → exec i s = .next (s.takeHit is h)

/-- The accesses of a load or store: `n` bytes in every lane of ACTIVE, at the pair `x` plus the offset `off` (R227). -/
def laneReqs (is : Issue) (x : Nat → Dword) (off : Nat → Int) (n : Nat) (q : Quals) (reads writes : Bool) : List Req :=
  is.active.map (fun L => laneReq L (x L) (off L) n q reads writes)

/-- An atomic: it reads and changes the places of its lanes in ascending order, gives each lane the old value, and ORs its flags (R266). -/
def AtomicOp (ctor : Fields → Instr) (op : AtomOp) (off : Fields → Issue → Nat → Int) (v cmp : Fields → Issue → Nat → Nat) : Prop :=
  ∀ (f : Fields) (s s1 : State) (is : Issue) (sps : List Spot), Ready (ctor f) s is →
    let q := quals is.g f true true allSpaces
    let qs := laneReqs is (is.addr f.a) (off f is) (Ty.bytes f.ty) q true true
    FaultsOn (ctor f) s is qs ∧
    (Reaches s is (qs.map (s.watchRange is)) qs q.releases q.scope s1 sps →
      let a := sps.foldl (is.atomLane f op (v f is) (cmp f is)) { s := s1, olds := [], flags := [], changed := false }
      is.numericTrap (byLane 0 a.flags) = none →
      exec (ctor f) s = retires (ctor f) is
        (((a.s.writeLanes is (fun L l => l.setVal f.ty f.dest.toNat (BitVec.ofNat 64 (byLane 0 a.olds L)))).noteLoads is sps).raise is
          (unionFlags is.mask (byLane 0 a.flags))) a.changed)

/-- A reduction at die scope or narrower changes each place at its home (R267); at package or system scope it goes to the shadow copies of the
group's die, which the binding of the location allows (R268). There it faults with another rounding, in another space, and in the lanes that no shadow
copy can take, and breaks quietness where it changes a shadow copy (log entry 39). -/
def ReductionOp (ctor : Fields → Instr) (op : AtomOp) : Prop :=
  ∀ (f : Fields) (s s1 : State) (is : Issue) (sps : List Spot), Ready (ctor f) s is →
    let q := quals is.g f false true allSpaces
    let qs := laneReqs is (is.destAddr f) (fun L => (is.word f.a L).toInt) (Ty.bytes f.ty) q false true
    (scopeRank q.scope < 4 → FaultsOn (ctor f) s is qs ∧
      (Reaches s is (qs.map (s.watchRange is)) qs q.releases q.scope s1 sps →
        ∃ loud, exec (ctor f) s = retires (ctor f) is (sps.foldl (fun s sp =>
          s.writeOut is [sp] (.red op f.ty f.rnd is.ftz sp.pa (is.val f.ty f.b sp.req.lane))) s1) loud)) ∧
    (4 ≤ scopeRank q.scope → q.space ≠ .generic ∨ f.rnd ≠ .rne → exec (ctor f) s = .next (s.takeHit is
      { cls := .operandExtent, mask := is.mask, addr := addrPlus (is.destAddr f is.l0) (is.word f.a is.l0).toInt, stage2 := false, origin := none })) ∧
    (4 ≤ scopeRank q.scope → q.space = .generic → f.rnd = .rne →
      let qs := qs.map (fun q => { q with device := true, kind := 3 })
      FaultsOn (ctor f) s is qs ∧
      (∀ L rest, s.checkReqs is qs = .go sps → (s.shadowLanes is f op sps).2 = L :: rest → exec (ctor f) s = .next (s.takeHit is
        { cls := .operandExtent, mask := maskOf (fun K => K == L || rest.contains K),
          addr := addrPlus (is.destAddr f L) (is.word f.a L).toInt, stage2 := false, origin := none })) ∧
      (Reaches s is (qs.map (s.watchRange is)) qs q.releases q.scope s1 sps → (s.shadowLanes is f op sps).2 = [] →
        exec (ctor f) s = retires (ctor f) is { s1 with shadows := (s1.shadowLanes is f op sps).1 }
          ((s1.shadowLanes is f op sps).1 != s1.shadows)))

/-- The bytes of memory outside the ranges of `sps`, `n` bytes each, are those of `s`. -/
def SameOutside (s t : State) (sps : List Spot) (n : Nat) : Prop :=
  ∀ a, (∀ sp ∈ sps, ¬ (sp.pa ≤ a ∧ a < sp.pa + n)) → t.mem.look a = s.mem.look a

/-- What an operation of a group's registers leaves alone, of every group: the registers of its lanes and their poison, those of its access
slice, c.mdef, c.sample, c.spin.off, the numeric trap enables and c.acks. -/
def Group.steady (g : Group) : List (Sparse 32 × Sparse 1) × Option (Sparse 32 × Sparse 1) × Word × Dword × Bool × BitVec 5 × Nat :=
  (g.lanes.map (fun l => (l.regs, l.bad)), g.acc.map (fun a => (a.lane.regs, a.lane.bad)), g.mdef, g.sample, g.spinOff, g.enables, g.acks)

/-- `Group.steady` of the group in a slot. -/
def State.steady (s : State) (core slot : Nat) :
    Option (List (Sparse 32 × Sparse 1) × Option (Sparse 32 × Sparse 1) × Word × Dword × Bool × BitVec 5 × Nat) :=
  (s.group? core slot).map Group.steady

/-- The operations that can name the range of an absent peer, and wait for it (R317). -/
def MayNamePeer (i : Instr) : Prop :=
  match i with
  | .ld _ | .st _ | .ldX4 _ | .stX4 _ | .atomAdd _ | .atomMin _ | .atomMax _ | .atomAnd _ | .atomOr _ | .atomXor _ | .atomXchg _ | .atomCas _
  | .redAdd _ | .redMin _ | .redMax _ | .redAnd _ | .redOr _ | .redXor _ | .stag _ | .ltag _ | .wsig _ | .bind _ | .unbind _ | .acqX _ | .acqS _
  | .rel _ => True
  | _ => False

/-- The group of `is` goes on in its leaf: the operation stands in no episode and is not sampled, and the resolution of each of its lanes is the
next operation of the leaf, at parcel `next L` (R52). -/
def StaysInLeaf (s : State) (is : Issue) (next : Nat → Nat) : Prop :=
  is.acc = false ∧ (s.vfReg is.w.vf 0x060).getLsbD 4 = false ∧ s.group? is.g.core is.g.slot = some is.g ∧ is.g.episode = none ∧ is.g.lanes.length = 32 ∧
  ∃ t, s.groupTrees is.w is.r = some t ∧ ∀ L, is.mask.getLsbD L → L < 32 →
    ∃ e nd up, t.fn? (is.g.lane L).func.toNat = some e ∧ t.descend e (is.g.lane L).parcel = (nd :: up, none) ∧
      nd.ops.find? (fun o => (is.g.lane L).parcel < o) = some (next L)

end Sys2Proof.Machine

open Sys2Proof Sys2Proof.Machine

/-- R171: `add`, `sub`, `mul`, `mad`, `mulhi`, `min`, `max`, `abs` and `neg` act on each element alone, modulo the element's width; `adds`
and `subs` clamp to the element type's range. Each completes wherever it passes the checks of R150. -/
def Obligations.ElementArithmetic : Prop :=
  ElementOp .add (fun _ x y _ => x + y) ∧ ElementOp .sub (fun _ x y _ => x - y) ∧ ElementOp .mul (fun _ x y _ => x * y) ∧
  ElementOp .mad (fun _ x y z => x * y + z) ∧ ElementOp .neg (fun _ x _ _ => -x) ∧
  ElementOp .abs (fun ty x _ _ => if ty.signed && x.msb then -x else x) ∧
  ElementOp .min (fun ty x y _ => if elemLess ty y x then y else x) ∧
  ElementOp .max (fun ty x y _ => if elemLess ty x y then y else x) ∧
  ElementOp .adds (fun ty x y _ => saturate ty (elemVal ty x + elemVal ty y)) ∧
  ElementOp .subs (fun ty x y _ => saturate ty (elemVal ty x - elemVal ty y)) ∧
  ElementOp .mulhi (fun ty x y _ => BitVec.ofInt ty.bits ⌊(elemVal ty x * elemVal ty y : Rat) / 2 ^ 32⌋)

/-- R172: `div` and `rem` truncate toward zero; the quotient by zero is all ones and its remainder the dividend; the most negative value by
-1 gives itself and 0. -/
def Obligations.DivideAndRemainder : Prop :=
  ElementOp .div (fun ty x y _ => if y = 0 then BitVec.allOnes ty.bits else if ty.signed then x.sdiv y else x / y) ∧
  ElementOp .rem (fun ty x y _ => if y = 0 then x else if ty.signed then x.srem y else x % y)

/-- R173: `and`, `or`, `xor`, `not` and `andn` act bit by bit; R178: `mov` copies its value. -/
def Obligations.BitwiseOperations : Prop :=
  BitOp .and (fun x y => x && y) ∧ BitOp .or (fun x y => x || y) ∧ BitOp .xor (fun x y => x ^^ y) ∧ BitOp .not (fun x _ => !x) ∧
  BitOp .andn (fun x y => x && !y) ∧ BitOp .mov (fun x _ => x)

/-- R174: every element of a lane shifts by that lane's one count; a count of the element's width or more gives 0, or the sign; `rotl` rotates
by the count modulo 32. -/
def Obligations.ShiftsAndRotate : Prop :=
  (∀ (f : Fields) (s : State) (is : Issue), Ready (.shl f) s is →
    WritesValue (.shl f) f s is (fun L v => ∀ k, k < f.ty.elems →
      elemBits f.ty v k = elemBits f.ty (is.val f.ty f.a L) k <<< (is.word f.b L).toNat)) ∧
  (∀ (f : Fields) (s : State) (is : Issue), Ready (.shr f) s is →
    WritesValue (.shr f) f s is (fun L v => ∀ k, k < f.ty.elems →
      let x := elemBits f.ty (is.val f.ty f.a L) k
      elemBits f.ty v k = if f.ty.signed then x.sshiftRight (is.word f.b L).toNat else x >>> (is.word f.b L).toNat)) ∧
  (∀ (f : Fields) (s : State) (is : Issue), Ready (.rotl f) s is →
    WritesWord (.rotl f) f s is (fun L v =>
      let t := (is.val32 f.ty f.b L).toNat % 32
      let u := (is.val32 f.ty f.a L).toNat
      v.toNat = (u * 2 ^ t + u / 2 ^ (32 - t)) % 2 ^ 32))

/-- R175: `popc` counts the set bits, `clz` and `ctz` the clear bits above the highest and below the lowest set bit, all of them where none is
set; `brev` moves bit i to bit w - 1 - i. -/
def Obligations.BitCounts : Prop :=
  (∀ (f : Fields) (s : State) (is : Issue), Ready (.popc f) s is →
    WritesWord (.popc f) f s is (fun L v => v.toNat =
      ((List.range f.ty.bits).filter (fun i => (is.val f.ty f.a L).getLsbD i)).length)) ∧
  (∀ (f : Fields) (s : State) (is : Issue), Ready (.clz f) s is →
    WritesWord (.clz f) f s is (fun L v => IsFirstSet f.ty.bits (fun i => (is.val f.ty f.a L).getLsbD (f.ty.bits - 1 - i)) v.toNat)) ∧
  (∀ (f : Fields) (s : State) (is : Issue), Ready (.ctz f) s is →
    WritesWord (.ctz f) f s is (fun L v => IsFirstSet f.ty.bits (fun i => (is.val f.ty f.a L).getLsbD i) v.toNat)) ∧
  (∀ (f : Fields) (s : State) (is : Issue), Ready (.brev f) s is →
    WritesValue (.brev f) f s is (fun L v => ∀ i, i < valueBits f.ty →
      v.getLsbD (valueBits f.ty - 1 - i) = (is.val f.ty f.a L).getLsbD i))

/-- R176: `bfx` extracts a field, sign-extended for `i32`, `bfi` inserts one; positions beyond bit 31 are clamped. -/
def Obligations.BitFields : Prop :=
  (∀ (f : Fields) (s : State) (is : Issue), Ready (.bfx f) s is →
    WritesWord (.bfx f) f s is (fun L v =>
      let p := min (is.word f.b L).toNat 32
      let n := min (is.word f.c L).toNat (32 - p)
      ∀ i, i < 32 → v.getLsbD i =
        if i < n then (is.val32 f.ty f.a L).getLsbD (p + i)
        else f.ty.signed && decide (n ≠ 0) && (is.val32 f.ty f.a L).getLsbD (p + n - 1))) ∧
  (∀ (f : Fields) (s : State) (is : Issue), Ready (.bfi f) s is →
    WritesWord (.bfi f) f s is (fun L v =>
      let p := (is.word f.c L).toNat % 32
      let n := min ((is.word f.c L).toNat / 256 % 64) (32 - p)
      ∀ i, i < 32 → v.getLsbD i =
        if p ≤ i ∧ i < p + n then (is.word f.b L).getLsbD (i - p) else (is.val32 f.ty f.a L).getLsbD i))

/-- R177: each element of a `cmp` is 1 where its condition holds and else 0, in a single register; R178: `pick` selects the whole value by bit
0 of its condition. -/
def Obligations.CompareAndPick : Prop :=
  (∀ (f : Fields) (s : State) (is : Issue), Ready (.cmp f) s is →
    WritesWord (.cmp f) f s is (fun L v => ∀ k, k < f.ty.elems →
      let x := elemVal f.ty (elemBits f.ty (is.val f.ty f.a L) k)
      let y := elemVal f.ty (elemBits f.ty (is.val f.ty f.b L) k)
      (condHolds f.mod.toNat x y → elemBits f.ty (v.setWidth 64) k = 1) ∧
      (¬ condHolds f.mod.toNat x y → elemBits f.ty (v.setWidth 64) k = 0))) ∧
  (∀ (f : Fields) (s : State) (is : Issue), Ready (.pick f) s is →
    Writes (.pick f) f s is (fun L => if (is.word f.a L).getLsbD 0 then is.val f.ty f.b L else is.val f.ty f.c L))

/-- R181: the source lane of each exchange, and what a lane outside ACTIVE stands for. -/
def Obligations.LaneExchanges : Prop :=
  Exchanges .xchLane (fun _ i => i % 32) ∧
  Exchanges .xchRot (fun L i => (((L : Int) - i) % 32).toNat) ∧
  Exchanges .xchPair (fun L i => L ^^^ (i % 32)) ∧
  Exchanges .xchSeg (fun L i => L - L % 2 ^ min (i / 256 % 8) 5 + i % 32 % 2 ^ min (i / 256 % 8) 5)

/-- R182: the votes, `ballot`, `elect` and `first`, over the lanes of ACTIVE. -/
def Obligations.VotesAndElection : Prop :=
  ∀ (f : Fields) (s : State) (is : Issue),
    (Ready (.voteAll f) s is → WritesWord (.voteAll f) f s is (fun _ v => v = if ∀ K, K ∈ is.active → (is.word f.a K).getLsbD 0 then 1 else 0)) ∧
    (Ready (.voteAny f) s is → WritesWord (.voteAny f) f s is (fun _ v => v = if ∃ K, K ∈ is.active ∧ (is.word f.a K).getLsbD 0 then 1 else 0)) ∧
    (Ready (.voteUni f) s is → WritesWord (.voteUni f) f s is (fun _ v =>
      v = if ∀ K, K ∈ is.active → is.word f.a K = is.word f.a is.l0 then 1 else 0)) ∧
    (Ready (.ballot f) s is → WritesWord (.ballot f) f s is (fun _ v =>
      ∀ K, K < 32 → v.getLsbD K = (is.mask.getLsbD K && (is.word f.a K).getLsbD 0))) ∧
    (Ready (.elect f) s is → WritesWord (.elect f) f s is (fun L v => v = if L = is.l0 then 1 else 0)) ∧
    (Ready (.first f) s is → Writes (.first f) f s is (fun _ => is.val f.ty f.a is.l0))

/-- R183: for `i32` and `n32`, `lred.add` adds the lanes of ACTIVE and wraps, `lred.min` and `lred.max` give the least and the greatest, and no flag
is raised; for `f32` each step is the `add`, `min` or `max` of its format, in ascending lane order, and every flag of a step counts as raised in every
lane; one lane alone gives its value after the input rules. -/
def Obligations.LaneReductions : Prop :=
  ∀ (f : Fields) (s : State) (is : Issue), is.active ≠ [] →
    let xs := is.active.map (fun K => is.val32 f.ty f.a K)
    let num := fun (x : Word) => if f.ty = .i32 then x.toInt else (x.toNat : Int)
    (f.ty = .i32 ∨ f.ty = .n32 →
      (Ready (.lredAdd f) s is → WritesWord (.lredAdd f) f s is (fun _ v => v = xs.sum)) ∧
      (Ready (.lredMin f) s is → WritesWord (.lredMin f) f s is (fun _ v => v ∈ xs ∧ ∀ x ∈ xs, num v ≤ num x)) ∧
      (Ready (.lredMax f) s is → WritesWord (.lredMax f) f s is (fun _ v => v ∈ xs ∧ ∀ x ∈ xs, num x ≤ num v))) ∧
    (f.ty = .f32 →
      let one := fun (x : Word) =>
        match fmtF32.decode x.toNat with
        | .nan sig => ({ bits := 0x7FC00000, flags := if sig then 0x10 else 0 } : FRes)
        | .inf _ => { bits := x.toNat, flags := 0 }
        | .fin neg _ _ => { bits := if is.ftz ∧ x.toNat / 2 ^ 23 % 2 ^ 8 = 0 then (if neg then 2 ^ 31 else 0) else x.toNat, flags := 0 }
      let folds := fun (i : Instr) (step : Nat → Nat → FRes) => Ready i s is →
        (∀ x, xs = [x] → RaisesOrTraps i .b32 f.dest.toNat s is (fun _ => LaneRes.ofWord (BitVec.ofNat 32 (one x).bits) (one x).flags)) ∧
        (∀ x y ys, xs = x :: y :: ys →
          let r := (y :: ys).foldl (fun (a : FRes) (z : Word) =>
            { bits := (step a.bits z.toNat).bits, flags := a.flags ||| (step a.bits z.toNat).flags }) { bits := x.toNat, flags := 0 }
          RaisesOrTraps i .b32 f.dest.toNat s is (fun _ => LaneRes.ofWord (BitVec.ofNat 32 r.bits) r.flags))
      folds (.lredAdd f) (fun a x => fmtF32.add a x f.rnd is.ftz) ∧
      folds (.lredMin f) (fun a x => fmtF32.minMax false a x is.ftz) ∧ folds (.lredMax f) (fun a x => fmtF32.minMax true a x is.ftz))

/-- R205, R208: `add`, `sub`, `mul`, `fma`, `div`, `sqrt`, `min` and `max` on each element, with the rounding of the operation and the flush mode of
the group; the union of the flags goes to c.flags, or an enabled one traps (R202, R203). -/
def Obligations.FloatArithmetic : Prop :=
  FloatOp .fAdd (fun f fl x y _ => (fmtOf f.ty).add x y f.rnd fl) ∧ FloatOp .fSub (fun f fl x y _ => (fmtOf f.ty).sub x y f.rnd fl) ∧
  FloatOp .fMul (fun f fl x y _ => (fmtOf f.ty).mul x y f.rnd fl) ∧ FloatOp .fma (fun f fl x y z => (fmtOf f.ty).fma x y z f.rnd fl) ∧
  FloatOp .fDiv (fun f fl x y _ => (fmtOf f.ty).div x y f.rnd fl) ∧ FloatOp .sqrt (fun f fl x _ _ => (fmtOf f.ty).sqrt x f.rnd fl) ∧
  FloatOp .fMin (fun f fl x y _ => (fmtOf f.ty).minMax false x y fl) ∧ FloatOp .fMax (fun f fl x y _ => (fmtOf f.ty).minMax true x y fl)

/-- R210, R212: `cmp` by the condition of `mod`, and the seven approximations, on each element, with flags as for the arithmetic. The part's own value
of an `f32` approximation is free inside its bound (log entry 7). -/
def Obligations.FloatComparesAndApproximations : Prop :=
  FloatOp .fCmp (fun f fl x y _ => (fmtOf f.ty).cmp f.mod.toNat x y fl) ∧
  FloatOp .rcp (fun f fl x _ _ => approxElem (fmtOf f.ty) .rcp fl x) ∧ FloatOp .rsqrt (fun f fl x _ _ => approxElem (fmtOf f.ty) .rsqrt fl x) ∧
  FloatOp .exp2 (fun f fl x _ _ => approxElem (fmtOf f.ty) .exp2 fl x) ∧ FloatOp .log2 (fun f fl x _ _ => approxElem (fmtOf f.ty) .log2 fl x) ∧
  FloatOp .sin (fun f fl x _ _ => approxElem (fmtOf f.ty) .sin fl x) ∧ FloatOp .cos (fun f fl x _ _ => approxElem (fmtOf f.ty) .cos fl x) ∧
  FloatOp .tanh (fun f fl x _ _ => approxElem (fmtOf f.ty) .tanh fl x)

/-- R209: `abs` clears and `neg` inverts the sign bit of each element, and no other bit changes; neither raises a flag. R211: `class` sets
exactly the bit of the element's class. -/
def Obligations.FloatSignsAndClasses : Prop :=
  ∀ (f : Fields) (s : State) (is : Issue), f.ty ∈ floatTys →
    (Ready (.fAbs f) s is → WritesValue (.fAbs f) f s is (fun L v => ∀ k, k < f.ty.elems → ∀ i, i < f.ty.bits →
      (elemBits f.ty v k).getLsbD i = (decide (i ≠ f.ty.bits - 1) && (elemBits f.ty (is.val f.ty f.a L) k).getLsbD i))) ∧
    (Ready (.fNeg f) s is → WritesValue (.fNeg f) f s is (fun L v => ∀ k, k < f.ty.elems → ∀ i, i < f.ty.bits →
      (elemBits f.ty v k).getLsbD i = (decide (i = f.ty.bits - 1) ^^ (elemBits f.ty (is.val f.ty f.a L) k).getLsbD i))) ∧
    (Ready (.fclass f) s is → WritesValue (.fclass f) f s is (fun L v => ∀ k, k < f.ty.elems →
      let x := (elemBits f.ty (is.val f.ty f.a L) k).toNat
      let p := (fmtOf f.ty).mb
      let m := x % 2 ^ p
      let e := x / 2 ^ p % 2 ^ (fmtOf f.ty).eb
      let neg := x / 2 ^ (f.ty.bits - 1) = 1
      (elemBits f.ty v k).toNat = 2 ^
        (if e = 2 ^ (fmtOf f.ty).eb - 1 then
          if m = 0 then if neg then 0 else 7
          else if 2 ^ (p - 1) ≤ m then 9 else 8
        else if e = 0 then
          if m = 0 then if neg then 3 else 4
          else if neg then 2 else 5
        else if neg then 1 else 6)))

/-- R206: NaN, infinite and zero operands of `add`, `sub`, `mul`, `fma`, `div` and `sqrt`, by the first row of the table that applies. R205, R207: the
zeros that a division by an infinity, a zero dividend and a zero radicand give, with their signs. -/
def Obligations.SpecialOperands : Prop :=
  ∀ (t : Fmt) (x y : Nat) (mode : Rnd) (flush : Bool),
    let a := t.decode (t.flushIn flush x)
    let b := t.decode (t.flushIn flush y)
    let neg := a.isNeg != b.isNeg
    (∀ r, specialNan t [a, b] = some r → t.add x y mode flush = r ∧ t.sub x y mode flush = r ∧ t.mul x y mode flush = r ∧ t.div x y mode flush = r) ∧
    (∀ r, specialNan t [a] = some r → t.sqrt x mode flush = r) ∧
    (specialNan t [a, b] = none → ∀ r, specialSum t a b = some r → t.add x y mode flush = r) ∧
    (specialNan t [a, b] = none → ∀ r, specialSum t a b.neg = some r → t.sub x y mode flush = r) ∧
    ((∃ i, a = .inf i) ∧ b.isZero ∨ a.isZero ∧ (∃ i, b = .inf i) → t.mul x y mode flush = { bits := t.nan, flags := 0x10 }) ∧
    (specialNan t [a, b] = none → (∃ i, a = .inf i) ∧ !b.isZero ∨ !a.isZero ∧ (∃ i, b = .inf i) →
      t.mul x y mode flush = { bits := t.signed neg t.inf, flags := 0 }) ∧
    (a.isZero ∧ b.isZero → t.div x y mode flush = { bits := t.nan, flags := 0x10 }) ∧
    (∀ i j, a = .inf i → b = .inf j → t.div x y mode flush = { bits := t.nan, flags := 0x10 }) ∧
    (∀ i j n e, a = .inf i → b = .fin j n e → t.div x y mode flush = { bits := t.signed neg t.inf, flags := 0 }) ∧
    (∀ i n e j, a = .fin i n e → b = .inf j → t.div x y mode flush = { bits := t.signed neg 0, flags := 0 }) ∧
    (∀ j n e, a.isZero → b = .fin j n e → n ≠ 0 → t.div x y mode flush = { bits := t.signed neg 0, flags := 0 }) ∧
    (∀ i e, a = .fin i 0 e → t.sqrt x mode flush = { bits := t.signed i 0, flags := 0 }) ∧
    (∀ i n e, a = .fin i n e → n ≠ 0 → b.isZero → t.div x y mode flush = { bits := t.signed neg t.inf, flags := 0x08 }) ∧
    (a = .inf true → t.sqrt x mode flush = { bits := t.nan, flags := 0x10 }) ∧
    (∀ n e, a = .fin true n e → n ≠ 0 → t.sqrt x mode flush = { bits := t.nan, flags := 0x10 }) ∧
    (a = .inf false → t.sqrt x mode flush = { bits := t.inf, flags := 0 }) ∧
    ∀ z : Nat,
      let c := t.decode (t.flushIn flush z)
      let zeroInf := (∃ i, a = .inf i) ∧ b.isZero ∨ a.isZero ∧ (∃ i, b = .inf i)
      let product : FVal := match a, b with | .inf _, _ => .inf neg | _, .inf _ => .inf neg | _, _ => .fin neg 0 0
      (zeroInf → t.fma x y z mode flush = { bits := t.nan, flags := 0x10 }) ∧
      (¬ zeroInf → ∀ r, specialNan t [a, b, c] = some r → t.fma x y z mode flush = r) ∧
      (¬ zeroInf → specialNan t [a, b, c] = none → ∀ r, specialSum t product c = some r → t.fma x y z mode flush = r)

/-- R218 to R221, R223: `cvt` and `cvt.pk` convert their source elements in the modes of their fields, `cvt.pk` with c as the rest of an 8-bit
result, read as an untyped word (log entry 101); the flags as for the arithmetic; the sign of a zero result is the model's choice (log entry 111). R224: each byte of `bpick`, by its control byte. -/
def Obligations.Conversions : Prop :=
  (∀ (f : Fields) (s : State) (is : Issue), Ready (.cvt f) s is →
    let src := fun L => is.cvtSource f f.a (f.spec.toNat / 16 % 8) L
    let row := fun j => if is.mask.getLsbD j then discardedOf f.ty f.srcTy is.ftz (src j) else 0
    RaisesOrTraps (.cvt f) .b32 f.dest.toNat s is (fun L =>
      let r := convertElem f.ty f.srcTy (src L) { rnd := f.rnd, sat := f.mod.getLsbD 0, flush := is.ftz, away := srAway row L 63 }
      LaneRes.ofWord (BitVec.ofNat 32 r.bits) r.flags)) ∧
  (∀ (f : Fields) (s : State) (is : Issue), Ready (.cvtPk f) s is →
    let src := fun j => is.cvtSource f (if j % 2 = 0 then f.a else f.b) 0 (j / 2)
    let row := fun j => if is.mask.getLsbD (j / 2) then discardedOf f.ty f.srcTy is.ftz (src j) else 0
    let one := fun j => convertElem f.ty f.srcTy (src j) { rnd := f.rnd, sat := f.mod.getLsbD 0, flush := is.ftz, away := srAway row j 63 }
    RaisesOrTraps (.cvtPk f) .b32 f.dest.toNat s is (fun L =>
      let p := f.spec.toNat / 16
      LaneRes.ofWord
        (if f.ty.bits = 16 then BitVec.ofNat 32 ((one (2 * L)).bits + (one (2 * L + 1)).bits * 2 ^ 16)
         else ((is.word f.c L) &&& ~~~(0xFFFF#32 <<< (16 * p))) |||
           (BitVec.ofNat 32 ((one (2 * L)).bits + (one (2 * L + 1)).bits * 256) <<< (16 * p)))
        ((one (2 * L)).flags ||| (one (2 * L + 1)).flags))) ∧
  (∀ (f : Fields) (s : State) (is : Issue), Ready (.bpick f) s is →
    WritesWord (.bpick f) f s is (fun L v => ∀ k, k < 4 →
      let ctl := (is.word f.c L).extractLsb' (8 * k) 8
      let b := (is.word f.b L ++ is.word f.a L).extractLsb' (8 * (ctl.toNat % 8)) 8
      v.extractLsb' (8 * k) 8 =
        if ctl.toNat / 8 % 4 = 0 then b else if ctl.toNat / 8 % 4 = 1 then 0 else if ctl.toNat / 8 % 4 = 2 then 0xFF
        else if b.msb then 0xFF else 0))

/-- R220: an integer converted to an integer type keeps its low bits, or with `.sat` is clamped to the type's range; no flag is raised, and the
element is zero-extended into its register. R219: a float converted to an integer: NaN gives 0 and nv; what lies outside the type's range gives its
nearest end and nv; any other value gives the integer that the rounding mode chooses next to it, with nx where it differs. -/
def Obligations.ConversionsToIntegers : Prop :=
  (∀ (f : Fields) (s : State) (is : Issue), f.ty.isInt → f.srcTy.isInt → f.srcTy.wide = false → f.ty.wide = false → Ready (.cvt f) s is →
    WritesWord (.cvt f) f s is (fun L v =>
      let k := f.spec.toNat / 16 % 8
      let x := elemVal f.srcTy (elemBits f.srcTy (is.val f.srcTy f.a L) k)
      v.toNat = ((if f.mod.getLsbD 0 then saturate f.ty x else BitVec.ofInt f.ty.bits x)).toNat)) ∧
  ∀ (dst : Ty) (rnd : Rnd), dst.isInt → rnd ≠ .sr →
    (∀ sig, cvtFloatInt dst (.nan sig) rnd = { bits := 0, flags := 0x10 }) ∧
    (∀ neg, cvtFloatInt dst (.inf neg) rnd = { bits := intBits dst (if neg then Ty.least dst else Ty.greatest dst), flags := 0x10 }) ∧
    (∀ (neg : Bool) (m : Nat) (e : Int),
      let x : Rat := (if neg then -1 else 1) * m * (2 : Rat) ^ e
      ∃ v : Int, |(v : Rat) - x| < 1 ∧
        (rnd = .rdn → (v : Rat) ≤ x) ∧ (rnd = .rup → x ≤ v) ∧ (rnd = .rtz → |(v : Rat)| ≤ |x|) ∧
        (rnd = .rne ∨ rnd = .rna → |(v : Rat) - x| ≤ 1 / 2) ∧
        (rnd = .rne → |(v : Rat) - x| = 1 / 2 → v % 2 = 0) ∧ (rnd = .rna → |(v : Rat) - x| = 1 / 2 → |x| ≤ |(v : Rat)|) ∧
        cvtFloatInt dst (.fin neg m e) rnd =
          if v < Ty.least dst then { bits := intBits dst (Ty.least dst), flags := 0x10 }
          else if Ty.greatest dst < v then { bits := intBits dst (Ty.greatest dst), flags := 0x10 }
          else { bits := intBits dst v, flags := if (v : Rat) = x then 0 else 0x01 })

/-- R197 to R200: `Round` of a nonzero real gives the value of the format's scale that the mode chooses, what the table of R198 says beyond the
greatest finite value, and a subnormal or a zero below the least normal one, with the flags; under SR it goes away from zero where the decision says
so. R205, R207: sums, differences, products, quotients, square roots and `fma` of finite numbers are `Round` of the exact result, `fma` without rounding
its product, and a zero takes its sign from R207. -/
def Obligations.Rounding : Prop :=
  ∀ t ∈ [fmtF32, fmtF16, fmtBf16, fmtE4m3, fmtE5m2], ∀ (mode : Rnd) (flush : Bool),
    (∀ (x : Exact) (v : ℝ) (zneg sat away : Bool), x.m ≠ 0 → x.Stands t v → (mode = .sr → away = true → ¬ t.OnScale v) →
      let r := t.round x zneg mode sat flush away
      ∃ y : ℝ, t.RoundsTo mode away v y ∧
        (t.greatest < |y| → r.flags = 0x05 ∧
          (sat = true ∨ mode = .rtz ∨ (mode = .rdn ∧ x.neg = false) ∨ (mode = .rup ∧ x.neg = true) → (t.decode r.bits).Is x.neg t.greatest) ∧
          (sat = false → mode ≠ .rtz → (mode = .rdn → x.neg = true) → (mode = .rup → x.neg = false) →
            if t.ieee then t.decode r.bits = .inf x.neg else r.bits = 0x7F)) ∧
        (|y| < 2 ^ (1 - (t.bias : Int)) →
          (flush = true → (t.decode r.bits).Is x.neg 0 ∧ r.flags = 0x03) ∧
          (flush = false → (t.decode r.bits).Is x.neg y ∧ (y = v → r.flags = 0) ∧ (y ≠ v → r.flags = 0x03))) ∧
        (2 ^ (1 - (t.bias : Int)) ≤ |y| → |y| ≤ t.greatest →
          (t.decode r.bits).Is x.neg y ∧ (y = v → r.flags = 0) ∧ (y ≠ v → r.flags = 0x01))) ∧
    (∀ (x : Exact) (zneg sat away : Bool), x.m = 0 → x.sticky = false →
      t.round x zneg mode sat flush away = { bits := t.signed zneg 0, flags := 0 }) ∧
    (∀ (x y : Nat) (i j : Bool) (m n : Nat) (e k : Int), t.decode (t.flushIn flush x) = .fin i m e → t.decode (t.flushIn flush y) = .fin j n k →
      let a := realOf i m e
      let b := realOf j n k
      let rounds := fun (v : ℝ) (r : FRes) => ∃ z : Exact, z.m ≠ 0 ∧ z.Stands t v ∧ r = t.round z false mode false flush false
      let zero := fun (neg : Bool) (r : FRes) => r = { bits := t.signed neg 0, flags := 0 }
      (a + b ≠ 0 → rounds (a + b) (t.add x y mode flush)) ∧
      (a + b = 0 → zero (if m = 0 ∧ i = j then i else decide (mode = .rdn)) (t.add x y mode flush)) ∧
      (a - b ≠ 0 → rounds (a - b) (t.sub x y mode flush)) ∧
      (a * b ≠ 0 → rounds (a * b) (t.mul x y mode flush)) ∧ (a * b = 0 → zero (i != j) (t.mul x y mode flush)) ∧
      (a ≠ 0 → b ≠ 0 → rounds (a / b) (t.div x y mode flush)) ∧
      (0 < a → rounds (Real.sqrt a) (t.sqrt x mode flush)) ∧
      ∀ (z : Nat) (l : Bool) (o : Nat) (h : Int), t.decode (t.flushIn flush z) = .fin l o h →
        let c := realOf l o h
        (a * b + c ≠ 0 → rounds (a * b + c) (t.fma x y z mode flush)) ∧
        (a * b + c = 0 → zero (if o = 0 ∧ (i != j) = l then l else decide (mode = .rdn)) (t.fma x y z mode flush)))

/-- R228, R233: a load gives each lane of ACTIVE the bytes of its place, extended by its type, and writes nothing else to a register; `ld.x4`
gives four registers sixteen bytes, the low address into the lowest. R310, R314: where another group has overwritten the bytes lately, it may give
the older ones (log entry 33); memory stays as it is. -/
def Obligations.Loads : Prop :=
  ∀ (f : Fields) (s s1 : State) (is : Issue) (sps : List Spot),
    let q := quals is.g f true false allSpaces
    (Ready (.ld f) s is →
      let qs := laneReqs is (is.addr f.a) (fun L => (is.word f.b L).toInt) (Ty.bytes f.ty) q true false
      FaultsOn (.ld f) s is qs ∧
      (Reaches s is (qs.map (s.watchRange is)) qs false q.scope s1 sps →
        let n := Ty.bytes f.ty
        let r := s1.loadSpots is sps 1 n
        r.1.mem = s1.mem ∧ ∃ v : Nat → Nat, (∀ L sp, spotOfLane sps L = some sp → LoadsFrom s1 is sp.pa n (v L)) ∧
        exec (.ld f) s = retires (.ld f) is ((r.1.writeLanes is (fun L l =>
          match spotOfLane sps L with
          | some _ => l.setVal f.ty f.dest.toNat
              (if f.ty.signed && !f.ty.wide then ((BitVec.ofNat f.ty.bits (v L)).signExtend 32).setWidth 64 else BitVec.ofNat 64 (v L))
          | none => l)).noteLoads is sps) false)) ∧
    (Ready (.ldX4 f) s is →
      let qs := laneReqs is (is.addr f.a) (fun L => (is.word f.b L).toInt) 16 q true false
      FaultsOn (.ldX4 f) s is qs ∧
      (Reaches s is (qs.map (s.watchRange is)) qs false q.scope s1 sps →
        let r := s1.loadSpots is sps 4 4
        r.1.mem = s1.mem ∧ ∃ v : Nat → Nat → Nat, (∀ L sp k, spotOfLane sps L = some sp → k < 4 → LoadsFrom s1 is (sp.pa + 4 * k) 4 (v L k)) ∧
        exec (.ldX4 f) s = retires (.ldX4 f) is ((r.1.writeLanes is (fun L l =>
          match spotOfLane sps L with
          | some _ =>
            let w := fun k => BitVec.ofNat 32 (v L k)
            (((l.setReg f.dest.toNat (w 0)).setReg (f.dest.toNat + 1) (w 1)).setReg (f.dest.toNat + 2) (w 2)).setReg (f.dest.toNat + 3) (w 3)
          | none => l)).noteLoads is sps) false))

/-- R229, R231, R233: a store writes the bytes of each lane of ACTIVE to its place, in ascending lane order, posted where the place is homed on
another die; every byte of memory outside the stored ranges stays, and the last lane's bytes stand at its place when that is not posted. -/
def Obligations.Stores : Prop :=
  ∀ (f : Fields) (s s1 : State) (is : Issue) (sps : List Spot),
    let q := quals is.g f false true allSpaces
    let out := fun (bytes : Nat → List Byte) => sps.foldl (fun s sp => s.writeOut is [sp] (.store sp.pa (bytes sp.req.lane))) s1
    (Ready (.st f) s is →
      let n := Ty.bytes f.ty
      let qs := laneReqs is (is.destAddr f) (fun L => (is.word f.a L).toInt) n q false true
      let bytes := fun L => bytesLE n (is.val f.ty f.b L).toNat
      FaultsOn (.st f) s is qs ∧
      (Reaches s is (qs.map (s.watchRange is)) qs q.releases q.scope s1 sps →
        exec (.st f) s = retires (.st f) is (out bytes) true ∧ SameOutside s1 (out bytes) sps n ∧
        (∀ sp, sps.getLast? = some sp → is.remote sp.pa = false → readBytes (out bytes).mem sp.pa n = bytes sp.req.lane))) ∧
    (Ready (.stX4 f) s is →
      let qs := laneReqs is (is.destAddr f) (fun L => (is.word f.a L).toInt) 16 q false true
      let bytes := is.quadBytes f.b
      FaultsOn (.stX4 f) s is qs ∧
      (Reaches s is (qs.map (s.watchRange is)) qs q.releases q.scope s1 sps →
        exec (.stX4 f) s = retires (.stX4 f) is (out bytes) true ∧ SameOutside s1 (out bytes) sps 16 ∧
        (∀ sp, sps.getLast? = some sp → is.remote sp.pa = false → readBytes (out bytes).mem sp.pa 16 = bytes sp.req.lane)))

/-- R266: the eight atomics, by their operation, their operand, and for `cas` the comparand. -/
def Obligations.Atomics : Prop :=
  let off := fun (f : Fields) (is : Issue) L => (is.word f.b L).toInt
  let val := fun (f : Fields) (is : Issue) L => (is.val f.ty f.c L).toNat
  let none_ := fun (_ : Fields) (_ : Issue) (_ : Nat) => 0
  AtomicOp .atomAdd .add off val none_ ∧ AtomicOp .atomMin .min off val none_ ∧ AtomicOp .atomMax .max off val none_ ∧
  AtomicOp .atomAnd .and off val none_ ∧ AtomicOp .atomOr .or off val none_ ∧ AtomicOp .atomXor .xor off val none_ ∧
  AtomicOp .atomXchg .xchg off val none_ ∧
  AtomicOp .atomCas .cas (fun _ _ _ => 0) val (fun f is L => (is.val f.ty f.b L).toNat)

/-- R266: what the integer operations do to a location of `w` bits. -/
def Obligations.AtomicArithmetic : Prop :=
  ∀ (ty : Ty) (rnd : Rnd) (ftz : Bool) (old v cmp : BitVec ty.bits), ty.isInt →
    let r := fun op => BitVec.ofNat ty.bits (atomStep op ty rnd ftz old.toNat v.toNat cmp.toNat).bits
    r .add = old + v ∧ r .and = old &&& v ∧ r .or = old ||| v ∧ r .xor = old ^^^ v ∧ r .xchg = v ∧ r .cas = (if old = cmp then v else old) ∧
    r .min = (if elemLess ty v old then v else old) ∧ r .max = (if elemLess ty old v then v else old) ∧
    ∀ op, (atomStep op ty rnd ftz old.toNat v.toNat cmp.toNat).flags = 0

/-- R267, R268: the six reductions. At die scope or narrower each is performed at the home of each lane's place; at package or system scope it goes
to the shadow copies of the group's die, faults with a nonzero rnd, outside the generic space, and in the lanes that no shadow copy can take. That a
nonzero rnd or another space faults for the whole mask with the first lane's address, which address a shadow-lane fault records, and that such a
reduction is loud exactly where it changes a shadow copy, are the model's reading (log entries 38, 84, 39). -/
def Obligations.Reductions : Prop :=
  ReductionOp .redAdd .add ∧ ReductionOp .redMin .min ∧ ReductionOp .redMax .max ∧ ReductionOp .redAnd .and ∧ ReductionOp .redOr .or ∧
  ReductionOp .redXor .xor

/-- R247, R248: `stag` writes the tag of the granules of each lane, `ltag` reads the tag of each lane's granule. That the contiguous granules which
one lane tags are written and acknowledged as one piece is the model's reading (log entry 37). -/
def Obligations.MemoryTags : Prop :=
  ∀ (f : Fields) (s s1 : State) (is : Issue) (sps : List Spot),
    (Ready (.stag f) s is →
      let q := quals is.g f false true [.generic, .dieStore]
      let tag := fun L => (is.word f.a L).toNat
      let n := fun L => (is.word f.b L).toNat
      let qs := is.active.flatMap (fun L => s.stagReqs is q L (is.destAddr f L) (n L))
      (∀ L ∈ is.active, addrVa (is.destAddr f L) % 32 = 0 ∧ tag L ≤ 15 ∧ n L ≠ 0 ∧ n L ≤ 4096) →
      FaultsOn (.stag f) s is qs ∧
      (Reaches s is (qs.map (s.watchRange is)) qs q.releases q.scope s1 sps →
        exec (.stag f) s = retires (.stag f) is ((joinSpots sps).foldl (fun s sp =>
          s.writeOut is [sp] (.tag (sp.pa / 32) (sp.req.n / 32) ((is.word f.a sp.req.lane).setWidth 4)))
            (sps.foldl (fun s sp => s.noteSpot is sp) s1)) true)) ∧
    (Ready (.ltag f) s is →
      let q := quals is.g f true false [.generic, .dieStore]
      let qs := is.active.map (fun L => { laneReq L (is.addr f.a L) 0 1 q true false with device := true, checked := false })
      FaultsOn (.ltag f) s is qs ∧
      (Reaches s is (qs.map (s.watchRange is)) qs false q.scope s1 sps →
        let s2 := sps.foldl (fun s sp => s.noteSpot is sp) s1
        exec (.ltag f) s = retires (.ltag f) is (s2.writeLanes is (fun L l =>
          match spotOfLane sps L with
          | some sp => l.setReg f.dest.toNat ((s2.tags.look (sp.pa / 32)).setWidth 32)
          | none => l)) false))

/-- R5, R10: bytes written at an address are read back, lowest first, and every other byte stays. -/
def Obligations.MemoryReadAfterWrite : Prop :=
  ∀ (s : State) (pa n v : Nat),
    readLE (s.storeLE pa n v).mem pa n = v % 256 ^ n ∧
    (∀ a, ¬ (pa ≤ a ∧ a < pa + n) → (s.storeLE pa n v).mem.look a = s.mem.look a) ∧
    (∀ bs, readBytes (s.storeBytes pa bs).mem pa bs.length = bs) ∧
    (∀ bs a, ¬ (pa ≤ a ∧ a < pa + bs.length) → (s.storeBytes pa bs).mem.look a = s.mem.look a)

/-- R10, R78: the retirement of an operation of a group writes no register of any lane and none of the other control registers that
only operations write; nor does the delivery of what its resolution met. Nor does it raise a flag, where no posted write is left to perform: the
implicit arrival of its lanes comes after their group's writes (R311), and a reduction among these may raise one. -/
def Obligations.RetirementKeepsRegisters : Prop :=
  ∀ (s : State) (is : Issue) (i : Instr) (loud : Bool) (k : Nat → LeaveKind) (core slot : Nat),
    (s.retire is i loud k).steady core slot = s.steady core slot ∧
    ((∀ p ∈ s.posted, p.performed = true) →
      ((s.retire is i loud k).group? core slot).map (fun g => g.flags) = (s.group? core slot).map (fun g => g.flags))

/-- R52, R66: where every lane of the mask goes on in its leaf, retirement moves each to its next operation, and writes no byte of memory, no
memory tag, no poison and no register of the hub. -/
def Obligations.StraightLineRetirement : Prop :=
  ∀ (s : State) (is : Issue) (i : Instr) (loud : Bool) (next : Nat → Nat), StaysInLeaf s is next →
    let t := s.retire is i loud (fun _ => .succ)
    t.mem = s.mem ∧ t.tags = s.tags ∧ t.poison = s.poison ∧ t.regs = s.regs ∧ t.cxRegs = s.cxRegs ∧
    ∃ g, t.group? is.g.core is.g.slot = some g ∧ ∀ L, L < 32 → g.lane L =
      if is.mask.getLsbD L then { is.g.lane L with pos := posWord (is.g.lane L).depth (next L) } else is.g.lane L

/-- R52, R53, R162 to R164: each lane that takes a leaving operation leaves as it says, the others go on; a `quit` or `next` of no loop, or of
more loops than enclose it, is a structure fault. -/
def Obligations.LeavingOperations : Prop :=
  ∀ (f : Fields) (s : State) (is : Issue),
    let n := f.spec.toNat
    let fits := n ≠ 0 ∧ n ≤ is.loopCount s
    let leaves := fun (i : Instr) (taken : Nat → Bool) (k : LeaveKind) =>
      exec i s = .next (s.retire is i false (fun L => if taken L then k else .succ))
    let faults := fun (i : Instr) =>
      exec i s = .next (s.takeHit is { cls := .badStructure, mask := is.mask, addr := 0, stage2 := false, origin := none })
    let cond := fun L => (is.word f.a L).getLsbD 0
    (Ready (.quit f) s is → (fits → leaves (.quit f) (fun _ => true) (.quit n)) ∧ (¬ fits → faults (.quit f))) ∧
    (Ready (.quitIf f) s is → (fits → leaves (.quitIf f) cond (.quit n)) ∧ (¬ fits → faults (.quitIf f))) ∧
    (Ready (.next f) s is → (fits → leaves (.next f) (fun _ => true) (.next n)) ∧ (¬ fits → faults (.next f))) ∧
    (Ready (.nextIf f) s is → (fits → leaves (.nextIf f) cond (.next n)) ∧ (¬ fits → faults (.nextIf f))) ∧
    (Ready (.ret f) s is → leaves (.ret f) (fun _ => true) .ret) ∧ (Ready (.retIf f) s is → leaves (.retIf f) cond .ret) ∧
    (Ready (.exit f) s is → leaves (.exit f) (fun _ => true) .exit) ∧ (Ready (.exitIf f) s is → leaves (.exitIf f) cond .exit)

/-- R91, R92, R102, R170: `spawn` performs the spawner's posted writes, starts groups, and gives their number with bit 31 for a full workgroup;
`launch` links an RCB once c.acks is 0, waits before that, and faults in recovery mode (R168, R319); `yield` changes no register, and makes its
group's last dispatch the most recent one. That a workgroup whose group indices
are used up counts as full is the model's reading (log entry 80). -/
def Obligations.SpawnLaunchAndYield : Prop :=
  ∀ (f : Fields) (s : State) (is : Issue),
    (Ready (.spawn f) s is →
      let h := (is.word f.a is.l0).toNat
      let n := (is.word f.b is.l0).toNat
      1 ≤ n → n ≤ 32 → is.spawnEntry s h = .ok →
      let s0 := (s.flushWhere (fun p => p.by is.g.core is.g.slot is.g.start)).visit is.w.vf is.w.ctx (s.fnEntryVa is.w is.r h)
      let r := s0.spawnGroups is.w is.r h (fun K => if is.mask.getLsbD K then is.word f.c K else 0) n
      r.2 ≤ n ∧ r.1.groups.length = s.groups.length + r.2 ∧
      exec (.spawn f) s = retires (.spawn f) is (r.1.writeLanes is (fun _ l => l.setReg f.dest.toNat
        (BitVec.ofNat 32 ((if r.1.freeSlots is.w = [] ∨ r.1.freeIndices is.w is.r.eff = [] then 2 ^ 31 else 0) + r.2)))) true) ∧
    (Ready (.launch f) s is →
      let x := is.addr f.a is.l0
      x.toNat % 256 = 0 → x.extractLsb' 56 4 = 0 →
      (s.recovery = false → is.g.acks = 0 → s.inWindow is.w.vf (addrVa x) = false →
        (∃ pa g path leaves, s.placeShared false is.w.vf is.w.ctx (addrVa x) true = .ok pa g path leaves) →
        exec (.launch f) s = retires (.launch f) is (s.linkChild is.r (addrVa x)) true) ∧
      (s.recovery = false → is.g.acks ≠ 0 →
        exec (.launch f) s = .next (s.updGroup is.g.core is.g.slot (fun g =>
          { g with wait := some (({ kind := .slot, cycles := 0, addr := 0, expired := false } : Wait).since (is.oldWait g)) }))) ∧
      (s.recovery = true → exec (.launch f) s =
        .next (s.takeHit is { cls := .operandExtent, mask := is.mask, addr := 0, stage2 := false, origin := none }))) ∧
    (Ready (.yield f) s is →
      exec (.yield f) s = retires (.yield f) is
        ({ s with seq := s.seq + 1 }.updGroup is.g.core is.g.slot (fun g => { g with lastDispatch := s.seq, yielded := true })) true)

/-- R186, R190 to R192: `ctl.get` reads the register that it names, a pair where it is 64 bits wide; `nop` does nothing; `probe` gives the word of
its address; `prof` writes a marker row while its group and the sampler ask for one. What the probed word holds, and that `prof` writes only while
the sampler's own bit is on, are the model's reading (log entries 22, 40). -/
def Obligations.ControlReads : Prop :=
  ∀ (f : Fields) (s : State) (is : Issue),
    (Ready (.ctlGet f) s is →
      exec (.ctlGet f) s = retires (.ctlGet f) is (s.writeLanes is (fun _ l =>
        if ctlWide? f.spec.toNat = some true then l.setPair f.dest.toNat (s.ctlValue is f.spec.toNat)
        else l.setReg f.dest.toNat ((s.ctlValue is f.spec.toNat).extractLsb' 0 32))) false) ∧
    (Ready (.nop f) s is → exec (.nop f) s = retires (.nop f) is s false) ∧
    (Ready (.probe f) s is → WritesReg (.probe f) f s is (fun L => s.probeWord is.w.vf is.w.ctx (is.addr f.a L) L)) ∧
    (Ready (.prof f) s is →
      let on := is.g.sample.getLsbD 1 && (s.vfReg is.w.vf 0x060).getLsbD 3
      exec (.prof f) s = retires (.prof f) is
        (if on then s.sampleRow is.w.vf is.w.ctx 1 is.pos (bytesLE 4 (is.word f.a is.l0).toNat ++ List.replicate 28 0) else s) false)

/-- R7, R8, R89, R132, R187, R348, R388, R435: `ctl.set` of the registers of its group, of a tile descriptor and of a watch unit; a reserved bit that
is set, a descriptor that fails a check, a misplaced watch range and a unit of another context make it an operand-extent fault, a read-only register
keeps its value. -/
def Obligations.ControlWrites : Prop :=
  ∀ (f : Fields) (s : State) (is : Issue), Ready (.ctlSet f) s is →
    let n := f.spec.toNat
    let x := is.addr f.a is.l0
    let w := x.extractLsb' 0 32
    let sets := fun (g : Group) => exec (.ctlSet f) s = retires (.ctlSet f) is (s.updGroup is.g.core is.g.slot (fun _ => g)) true
    let faults := exec (.ctlSet f) s =
      .next (s.takeHit is { cls := .operandExtent, mask := is.mask, addr := 0, stage2 := false, origin := none })
    (n ∈ [0, 3, 4, 8] → sets is.g) ∧
    (n = 1 → (mdefOk w → sets { is.g with mdef := w &&& 0x6FFE0000#32 }) ∧ (¬ mdefOk w → faults)) ∧
    (n = 2 → (w &&& 0xFFFFFFE0#32 = 0 → (is.g.lateAt ≠ s.now → sets { is.g with flags := w }) ∧
        (is.g.lateAt = s.now → sets { is.g with flags := w ||| is.g.lateFlags })) ∧ (w &&& 0xFFFFFFE0#32 ≠ 0 → faults)) ∧
    (n = 5 → (w &&& 0xFE#32 = 0 → (w.getLsbD 0 = false → sets { is.g with spinOff := false }) ∧
        (w.getLsbD 0 = true → sets { (if is.g.demoted = 0 then is.g else is.g.endDemotion) with spinOff := true })) ∧
      (w &&& 0xFE#32 ≠ 0 → faults)) ∧
    (n = 6 → (x &&& 0xFFFF0000FFFF73E0#64 = 0 →
        sets { is.g with trapCtl := (is.g.trapCtl &&& ~~~0xC1F#64) ||| (x &&& 0xC1F#64) }) ∧ (x &&& 0xFFFF0000FFFF73E0#64 ≠ 0 → faults)) ∧
    (n = 7 → (x &&& ~~~7#64 = 0 → sets { is.g with sample := x }) ∧ (x &&& ~~~7#64 ≠ 0 → faults)) ∧
    (0x10 ≤ n → n < 0x20 →
      (∀ en, is.w.releasing = false → is.w.engine = some en → (s.engine en).tdescOk x →
        exec (.ctlSet f) s = retires (.ctlSet f) is
          (s.putEngine { s.engine en with tdesc := (s.engine en).tdesc.put (n - 0x10) x, fill := (s.engine en).fill.put (n - 0x10) 0 }) true) ∧
      (is.w.releasing ∨ is.w.engine = none → faults) ∧
      (∀ en, is.w.releasing = false → is.w.engine = some en → (s.engine en).tdescOk x = false → faults)) ∧
    (0x20 ≤ n → watchBad x = true ∨ (∃ u, s.watchUnit? is.g.core (n - 0x20) = some u ∧ ¬ (u.vf = is.w.vf ∧ u.ctx = is.w.ctx)) → faults) ∧
    (0x20 ≤ n → (∀ u, s.watchUnit? is.g.core (n - 0x20) = some u → u.vf = is.w.vf ∧ u.ctx = is.w.ctx) → watchBad x = false →
      exec (.ctlSet f) s = retires (.ctlSet f) is (s.setWatch is (n - 0x20) x) true)

/-- R188, R189, R433: `trap`, `halt` and `brk` retire, and deliver a record of class 0x10 with a of L0 as its address, of class 0x11 and of class
0x12. -/
def Obligations.TrapHaltAndBreak : Prop :=
  ∀ (f : Fields) (s : State) (is : Issue),
    (Ready (.trap f) s is → exec (.trap f) s =
      .next (s.retireTrap is (.trap f) .softwareTrap ((is.word f.a is.l0).setWidth 64))) ∧
    (Ready (.halt f) s is → exec (.halt f) s = .next (s.retireTrap is (.halt f) .halt 0)) ∧
    (Ready (.brk f) s is → exec (.brk f) s = .next (s.retireTrap is (.brk f) .breakpoint 0))

/-- R236 to R238: `qfeed` appends an entry, `qpop` takes the word of each lane from a complete entry at the head and removes it, `qstate` gives the
state of its queue. That a fault of the queue's slice shows in bit 30 whatever the queue holds is the model's reading (log entry 81). -/
def Obligations.Queues : Prop :=
  ∀ (f : Fields) (s : State) (is : Issue),
    let q := f.spec.toNat % 8
    (Ready (.qfeed f) s is →
      let n := (is.word f.b 0).toNat
      n ≠ 0 → n ≤ 128 → (is.g.queue q).length < is.r.eff.qdepth →
      exec (.qfeed f) s = retires (.qfeed f) is
        ({ s with seq := s.seq + 1 }.updGroup is.g.core is.g.slot (fun g => { g with feeds := g.feeds ++ [is.newEntry s f] })) false) ∧
    (Ready (.qpop f) s is → ∀ e, is.g.popState q = .ready e →
      exec (.qpop f) s = retires (.qpop f) is
        ((s.writeLanes is (fun L l => l.setReg f.dest.toNat (BitVec.ofNat 32 (readLE e.bytes (4 * L) 4)))).updGroup is.g.core is.g.slot (fun g =>
          { g with feeds := g.feeds.filter (fun x => x.id != e.id), level := max g.level e.level })) true) ∧
    (Ready (.qpop f) s is → is.g.popState q = .ended →
      exec (.qpop f) s = .next (s.takeHit is
        { cls := .operandExtent, mask := is.mask, addr := 0, stage2 := false, origin := none })) ∧
    (Ready (.qstate f) s is → WritesReg (.qstate f) f s is (fun _ =>
      let es := is.g.queue q
      let fault := (match es.head? with | some e => e.fault.isSome | none => false) || is.g.sliceFault.isSome
      BitVec.ofNat 32 ((if is.g.sliceEnded then 2 ^ 31 else 0) + (if fault then 2 ^ 30 else 0) + es.length * 2 ^ 16 +
        (es.takeWhile (fun e => e.complete)).length)))

/-- R240, R245: `cp.async` starts a copy and clears its tag, a transposing one where its rows fit (R242), and else it is an operand-extent fault; R242:
the source byte of each byte of the destination, and that the runs of a chunk read it there; the tag waits go on once the mask's tags are set, all of them or any, and `tfirst`
gives the lowest one set. -/
def Obligations.AsyncCopies : Prop :=
  ∀ (f : Fields) (s : State) (is : Issue),
    (Ready (.cpAsync f) s is →
      let d := is.destAddr f is.l0
      let x := is.addr f.a is.l0
      let n := (is.word f.b is.l0).toNat
      let t := (is.word f.c is.l0).toNat
      let q := quals is.g f true true [.generic]
      let row := 16 * (f.spec.toNat + 1)
      n ≠ 0 → n ≤ 2 ^ 30 → t < is.r.eff.ctags → (f.mod.toNat % 4 ≠ 0 → n % row = 0 ∧ n / row ≤ 256) → d.extractLsb' 56 4 = 0 → x.extractLsb' 56 4 = 0 →
      s.meetsProtected is.w.vf is.w.ctx (addrVa d) n = false → is.releaseGate s q.releases q.scope = none → is.w.copies.length < is.r.eff.copies →
      s.playing is.w.vf is.w.ctx = false → is.watchHit s (copyRanges is.l0 d x n) = none →
      exec (.cpAsync f) s = retires (.cpAsync f) is ({ s with seq := s.seq + 1 }.updWg is.w.id (fun w =>
        { w with copies := w.copies ++ [is.newCopy s f d x n t q.acquires q.notag], tags := w.tags &&& ~~~(1#64 <<< t) })) true) ∧
    (Ready (.cpAsync f) s is →
      let n := (is.word f.b is.l0).toNat
      let row := 16 * (f.spec.toNat + 1)
      n ≠ 0 → n ≤ 2 ^ 30 → (is.word f.c is.l0).toNat < is.r.eff.ctags → is.r.eff.copies ≠ 0 → f.mod.toNat % 4 ≠ 0 → n % row ≠ 0 ∨ 256 < n / row →
      exec (.cpAsync f) s = .next (s.takeHit is
        { cls := .operandExtent, mask := is.mask, addr := 0, stage2 := false, origin := none })) ∧
    (∀ (c : Copy) (e i j b : Nat), c.mode = e → e = 1 ∨ e = 2 →
      let row := 16 * (c.row.toNat + 1)
      let m := c.bytes / row
      i < m → j < row / e → b < e → c.srcOff ((j * m + i) * e + b) = i * row + j * e + b) ∧
    (∀ (c : Copy) (o n i : Nat), i < n → ∃ r ∈ c.srcRuns o n, r.2.2 ≤ i ∧ i < r.2.2 + r.2.1 ∧ r.1 + (i - r.2.2) = c.srcOff (o + i)) ∧
    (let m := is.addr f.a is.l0
     let s1 := s.resumeCopies is.w m
     ∀ w, m.toNat < 2 ^ is.r.eff.ctags → s1.wg? is.w.id = some w → (∀ c ∈ w.copiesIn m, c.fault = none) →
      (Ready (.twaitAny f) s is → w.tags &&& m ≠ 0 → exec (.twaitAny f) s = retires (.twaitAny f) is s1 false) ∧
      (Ready (.twaitAll f) s is → w.tags &&& m = m → exec (.twaitAll f) s = retires (.twaitAll f) is s1 false) ∧
      (Ready (.tfirst f) s is → ∀ k, k < 64 → (w.tags &&& m).getLsbD k → (∀ j, j < k → (w.tags &&& m).getLsbD j = false) →
        exec (.tfirst f) s = retires (.tfirst f) is (s1.writeLanes is (fun _ l => l.setReg f.dest.toNat (BitVec.ofNat 32 k))) false))

/-- R250, R269: `bind` adds a binding; `unbind` merges the shadow copies of its binding into their homes, and removes it. Where the dirty log has no room
for all of them it first takes the copies, and ends when their homes are written (log entry 47). -/
def Obligations.Bindings : Prop :=
  ∀ (f : Fields) (s s1 : State) (is : Issue) (sp : Spot) (sps : List Spot),
    let x := is.destAddr f is.l0
    (Ready (.bind f) s is →
      let n := (is.word f.a is.l0).toNat
      let l := is.addr f.b is.l0
      addrFormOk x 0 → addrVa x % 32 = 0 → n ≠ 0 → n % 32 = 0 → addrVa l % 8 = 0 → s.firstBound is.w.vf is.w.ctx (addrVa x) n = none →
      (s.bindings.filter (fun b => b.vf == is.w.vf && b.ctx == is.w.ctx)).length < 4096 →
      Reaches s is [is.latchRange l true] [is.latchReq l] false .system s1 (sp :: sps) →
      let s2 := s1.noteSpot is sp
      exec (.bind f) s = retires (.bind f) is { s2 with
        bindings := s2.bindings ++ [{ vf := is.w.vf, ctx := is.w.ctx, start := addrVa x, len := n, latch := l }] } true) ∧
    (Ready (.unbind f) s is → ∀ b xs, addrFormOk x 0 → is.merged = false →
      s.bindings.find? (fun b => b.vf == is.w.vf && b.ctx == is.w.ctx && b.start == addrVa x) = some b → is.mergeGate s (s.shadowsOf [b]) = .go xs →
      (s.mergeRoom is.w.vf xs = true →
        ReachesWith s is (xs.flatMap Home.touches) [is.latchRange b.latch true] [is.latchReq b.latch] false .system s1 (sp :: sps) →
        let s2 := (s1.noteSpot is sp).merge is xs
        exec (.unbind f) s = retires (.unbind f) is { s2 with bindings := s2.bindings.filter (fun y => y != b) } true) ∧
      (s.mergeRoom is.w.vf xs = false → s.checkReqs is [is.latchReq b.latch] = .go (sp :: sps) → is.watchHit s [is.latchRange b.latch true] = none →
        exec (.unbind f) s = .next (s.oweMerge is xs))) ∧
    (Ready (.unbind f) s is → ∀ b, addrFormOk x 0 → is.merged = true →
      s.bindings.find? (fun b => b.vf == is.w.vf && b.ctx == is.w.ctx && b.start == addrVa x) = some b →
      s.spotOf is (is.latchReq b.latch) = some sp →
      EndsMerge (.unbind f) s is (touchesOf sp.pa 8 1) (fun a => { a with bindings := a.bindings.filter (fun y => y != b) })) ∧
    (Ready (.unbind f) s is → s.bindings.find? (fun b => b.vf == is.w.vf && b.ctx == is.w.ctx && b.start == addrVa x) = none →
      exec (.unbind f) s = .next (s.takeHit is
        { cls := .operandExtent, mask := is.mask, addr := x, stage2 := false, origin := none }))

/-- R251, R252: an acquire joins the latch's queue, and retires when it is granted, at once or later; a further shared hold of a latch held
shared retires at once; `rel` merges what is bound at its scope, clears one hold from the word and the table, and lets the queue go on. Where the
dirty log has no room for its merge, it first takes the shadow copies, and ends when their homes are written (log entry 47). -/
def Obligations.Latches : Prop :=
  ∀ (f : Fields) (s s1 : State) (is : Issue) (sp : Spot) (sps : List Spot),
    let x := is.destAddr f is.l0
    let acq := fun (i : Instr) (excl : Bool) =>
      Ready i s is → addrFormOk x 0 → addrVa x % 8 = 0 → (∀ w, is.g.wait = some w → w.kind ≠ .granted ∧ w.kind ≠ .latch) →
      is.g.holdOf (addrVa x) = none → is.g.holds.length < 8 →
      Reaches s is [is.latchRange x false] [is.latchWrite x] false .system s1 (sp :: sps) →
      let hold : Wait :=
        { kind := .latch, cycles := 0, addr := x, expired := false, pos := is.pos, func := (is.lane is.l0).func, mask := is.mask, note := sp.note }
      let s3 := (((s1.noteSpot is sp).updGroup is.g.core is.g.slot (fun g => { g with wait := some hold })).joinLatch sp.pa
        (.group is.g.core is.g.slot excl) Note.noted).grantAll sp.pa
      let granted := ∃ g w, s3.group? is.g.core is.g.slot = some g ∧ g.wait = some w ∧ w.kind = .granted
      (granted → exec i s = retires i is (is.granted s3 sp.pa (addrVa x)) true) ∧
      (¬ granted → exec i s = .next (s3.updGroup is.g.core is.g.slot (fun g => { g with wait := some (hold.since (is.oldWait g)) })))
    let later := fun (i : Instr) => Ready i s is → (∃ w, is.g.wait = some w ∧ w.kind = .granted) → ∀ h, is.g.holdOf (addrVa x) = some h →
      exec i s = retires i is (is.granted s h.pa (addrVa x)) true
    acq (.acqX f) true ∧ acq (.acqS f) false ∧ later (.acqX f) ∧ later (.acqS f) ∧
    (Ready (.acqS f) s is → addrFormOk x 0 → addrVa x % 8 = 0 → (∀ w, is.g.wait = some w → w.kind ≠ .granted ∧ w.kind ≠ .latch) →
      (∃ h, is.g.holdOf (addrVa x) = some h ∧ h.excl = false) →
      Reaches s is [is.latchRange x false] [is.latchWrite x] false .system s1 (sp :: sps) →
      let s2 := s1.noteSpot is sp
      (readLatch s2.mem sp.pa).x = false → exec (.acqS f) s = retires (.acqS f) is
        (is.granted ((s2.updLatch is.w.vf sp.pa Note.noted (fun l => { l with shared := l.shared + 1 })).updGroup is.g.core is.g.slot
          (Group.hold sp.pa x false sp.note)) sp.pa (addrVa x)) true) ∧
    (Ready (.rel f) s is → ∀ h xs, addrFormOk x 0 → is.g.holdOf (addrVa x) = some h → is.merged = false →
      let sc := (quals is.g f false true [.generic]).scope
      let hs := if 4 ≤ scopeRank sc then s.shadowsOf (s.bindingsTo is.w.vf is.w.ctx (addrVa x) sp.pa) else []
      is.mergeGate s hs = .go xs →
      (s.mergeRoom is.w.vf xs = true →
        ReachesWith s is (xs.flatMap Home.touches) [is.latchRange x false] [is.latchWrite x] true sc s1 (sp :: sps) →
        exec (.rel f) s = retires (.rel f) is (((s1.noteSpot is sp).merge is xs).giveUp is h sp.pa Note.noted) true) ∧
      (s.mergeRoom is.w.vf xs = false → s.checkReqs is [is.latchWrite x] = .go (sp :: sps) → is.releaseGate s true sc = none →
        is.watchHit s [is.latchRange x false] = none → exec (.rel f) s = .next (s.oweMerge is xs))) ∧
    (Ready (.rel f) s is → ∀ h, addrFormOk x 0 → is.g.holdOf (addrVa x) = some h → is.merged = true →
      EndsMerge (.rel f) s is (touchesOf h.pa 8 1) (fun a => a.giveUp is h h.pa h.note)) ∧
    (∀ (a : State) (h : Hold) (pa : Nat) (n : Note), a.giveUp is h pa n =
      ((a.clearHold is.w.vf pa (is.holdsX a pa) n).updGroup is.g.core is.g.slot (fun g =>
        { g with holds := (g.holds.map (fun y => if y.pa = h.pa then { y with count := y.count - 1 } else y)).filter (fun y => y.count != 0) })).grantAll
          pa) ∧
    (Ready (.rel f) s is → is.g.holdOf (addrVa x) = none →
      exec (.rel f) s = .next (s.takeHit is
        { cls := .operandExtent, mask := is.mask, addr := x, stage2 := false, origin := none }))

/-- R254, R307, R319: a `fence` retires without any other effect once the releases that it asks for are done, faults in recovery mode where its
release is wider than a die, and waits while a `tst` of the group runs, something of the group has still to read (log entry 46), or an acknowledgement is
outstanding; its acquire comes after the reads too. R255, R320: `wsig` writes each lane's payload and adds to its flag
at the one home of both. -/
def Obligations.FencesAndSignals : Prop :=
  ∀ (f : Fields) (s s1 : State) (is : Issue) (sps : List Spot),
    (Ready (.fence f) s is →
      let sc := (quals is.g f true true [.generic]).scope
      let release := f.mod.getLsbD 1
      let storing := is.w.storing (fun k => k == is.g.start)
      let waits := exec (.fence f) s = .next (s.updGroup is.g.core is.g.slot (fun g =>
        { g with wait := some (({ kind := .slot, cycles := 0, addr := 0, expired := false } : Wait).since (is.oldWait g)) }))
      (release = false → f.mod.getLsbD 0 = false ∨ is.reading = false → exec (.fence f) s = retires (.fence f) is s true) ∧
      (release = false → f.mod.getLsbD 0 = true → is.reading = true → waits) ∧
      (release = true → storing = false → is.reading = false → scopeRank sc < 4 ∨ s.recovery = false ∧ is.g.acks = 0 →
        exec (.fence f) s = retires (.fence f) is s true) ∧
      (release = true → 4 ≤ scopeRank sc → s.recovery = true →
        exec (.fence f) s = .next (s.takeHit is
          { cls := .operandExtent, mask := is.mask, addr := 0, stage2 := false, origin := none })) ∧
      (release = true → s.recovery = false ∨ scopeRank sc < 4 → storing = true ∨ is.reading = true ∨ 4 ≤ scopeRank sc ∧ is.g.acks ≠ 0 → waits)) ∧
    (Ready (.wsig f) s is →
      let q := quals is.g f false true [.generic, .dieStore]
      let qs := is.active.flatMap (is.signalReqs f q)
      FaultsOn (.wsig f) s is qs ∧
      (Reaches s is (qs.map (s.watchRange is)) qs false q.scope s1 sps → (∀ L ∈ is.active, homesDiffer sps L = false) →
        exec (.wsig f) s = retires (.wsig f) is (is.active.foldl (fun s L =>
          match signalSpots sps L with
          | some (p, fl) => s.writeOut is [p, fl] (.signal p.pa (is.word f.a L) fl.pa (is.word f.c L))
          | none => s) s1) true))

/-- R257 to R262: the operations on a workgroup barrier: initialising, arriving, waiting for a passed phase, expecting bytes, linking a tag. R117: a
wait that passed its limit with the phase incomplete takes the time-limit fault, even where the phase has completed since. -/
def Obligations.WorkgroupBarriers : Prop :=
  ∀ (f : Fields) (s s1 : State) (is : Issue) (sp : Spot) (sps : List Spot),
    let x := is.destAddr f is.l0
    let n := (is.word f.a is.l0).toNat
    let here := fun (kind : Nat) => is.barBad s false x = false ∧ Reaches s is [] [is.barReq false kind is.l0 x] false .workgroup s1 (sp :: sps)
    let b := readBar s1.mem sp.pa
    (Ready (.barInit f) s is → here 1 → is.w.bar? sp.pa = none → 1 ≤ n → n ≤ 65535 → is.w.bars.length < 8 →
      exec (.barInit f) s = retires (.barInit f) is
        (((s1.storeBytes sp.pa (BarFields.bytes { phase := 0, expected := n, arrivals := 0, drops := 0, linked := false, tag := 0, balance := 0 })).updWg
          is.w.id (fun w => { w with bars := w.bars ++ [{ pa := sp.pa, off := sp.pa - is.w.pa, members := s1.barMembers is.w }] })).clearMarks sp.pa)
        true) ∧
    (Ready (.barWait f) s is → here 0 → (is.w.bar? sp.pa).isSome → is.expired .barrier = false → phasePassed b.phase n →
      exec (.barWait f) s = retires (.barWait f) is s1 true) ∧
    (Ready (.barWait f) s is → here 0 → (is.w.bar? sp.pa).isSome → is.expired .barrier = false → ¬ phasePassed b.phase n →
      ¬ phasePassed (readBar (Tried s is (sp :: sps)).mem sp.pa).phase n →
      exec (.barWait f) s = .next ((Tried s is (sp :: sps)).updGroup is.g.core is.g.slot (fun g =>
        { g with wait := some (({ kind := .barrier, cycles := 0, addr := x, expired := false, phase := n } : Wait).since (is.oldWait g)) }))) ∧
    (Ready (.barWait f) s is → is.expired .barrier = true →
      exec (.barWait f) s = .next (s.takeHit is { cls := .barrierTimeLimit, mask := is.mask, addr := x, stage2 := false, origin := none })) ∧
    (Ready (.barExpect f) s is → here 1 → (is.w.bar? sp.pa).isSome → n ≤ 2 ^ 30 → b.balance + n < 2 ^ 31 →
      exec (.barExpect f) s = retires (.barExpect f) is (s1.barStep sp.pa (fun y => { y with balance := y.balance + n })) true) ∧
    (Ready (.barLink f) s is → here 1 → (is.w.bar? sp.pa).isSome → n < is.r.eff.ctags → n < 64 →
      let s2 := (is.w.bars.filter (fun y => y.pa != sp.pa)).foldl (fun s y => s.unlink y.pa (fun z => z.tag == n)) s1
      exec (.barLink f) s = retires (.barLink f) is
        (s2.storeBytes sp.pa (BarFields.bytes { readBar s2.mem sp.pa with linked := true, tag := n })) true) ∧
    (Ready (.barArrive f) s is → (∀ L ∈ is.active, is.arriveFails s (is.destAddr f L) L = none) →
      Reaches s is [] (is.active.map (fun L => is.barReq false 1 L (is.destAddr f L))) true .workgroup s1 sps →
      let as := is.active.filterMap (fun L =>
        (spotOfLane sps L).map (fun sp => { lane := L, x := is.destAddr f L, pa := sp.pa, count := (is.word f.a L).toNat : Arrival }))
      (∀ a ∈ as, (readBar s1.mem a.pa).arrivals + (arrivalsAt as a.pa).1 ≤ (readBar s1.mem a.pa).expected) →
      exec (.barArrive f) s = retires (.barArrive f) is (is.w.bars.foldl (fun s b => s.arriveOn is as b) s1) true)

/-- R257 to R261, R265: the operations on a die barrier, which lies in the die store: an arrival with a count of 0 adds and marks nothing (R116), a
wait for a phase that has not passed goes on. The address of a `dbar.arrive` that faults is the model's reading (log entry 84). -/
def Obligations.DieBarriers : Prop :=
  ∀ (f : Fields) (s s1 : State) (is : Issue) (sp : Spot) (sps : List Spot),
    let x := is.destAddr f is.l0
    let n := (is.word f.a is.l0).toNat
    let here := fun (kind : Nat) (release : Bool) =>
      is.barBad s true x = false ∧ Reaches s is [] [is.barReq true kind is.l0 x] release .die s1 (sp :: sps)
    let b := readBar s1.mem sp.pa
    (Ready (.dbarInit f) s is → here 1 false → s1.dieBar? sp.pa = none → 1 ≤ n → n ≤ 65535 →
      (s1.dieBars.filter (fun b => b.vf == is.w.vf && b.rcb == is.w.rcb && b.die == is.die)).length < 4 →
      let s2 := s1.storeBytes sp.pa (BarFields.bytes { phase := 0, expected := n, arrivals := 0, drops := 0, linked := false, tag := 0, balance := 0 })
      exec (.dbarInit f) s = retires (.dbarInit f) is { s2 with dieBars := s2.dieBars ++
        [{ pa := sp.pa, die := is.die, vf := is.w.vf, rcb := is.w.rcb, members := s1.dieMembers is.r is.die, arrived := [] }] } true) ∧
    (Ready (.dbarArrive f) s is → here 1 true → (s1.dieBar? sp.pa).isSome → n ≠ 0 → b.arrivals + n ≤ b.expected →
      exec (.dbarArrive f) s = retires (.dbarArrive f) is
        (({ s1 with dieBars := s1.dieBars.map (fun (y : DieBarrier) => if y.pa = sp.pa then y.mark is.w else y) }).barStep sp.pa
          (fun y => { y with arrivals := y.arrivals + n })) true) ∧
    (Ready (.dbarArrive f) s is → here 1 true → (s1.dieBar? sp.pa).isSome → n = 0 → b.arrivals ≤ b.expected →
      exec (.dbarArrive f) s = retires (.dbarArrive f) is s1 true) ∧
    (Ready (.dbarArrive f) s is → here 1 true →
      (∀ a, a = s1 ∨ a = Tried s is (sp :: sps) →
        (a.dieBar? sp.pa).isNone ∨ (readBar a.mem sp.pa).expected < (readBar a.mem sp.pa).arrivals + n) →
      exec (.dbarArrive f) s = .next (s.takeHit is
        { cls := .operandExtent, mask := is.mask, addr := x, stage2 := false, origin := none })) ∧
    (Ready (.dbarWait f) s is → here 0 false → (s1.dieBar? sp.pa).isSome → is.expired .dieBarrier = false → phasePassed b.phase n →
      exec (.dbarWait f) s = retires (.dbarWait f) is s1 true) ∧
    (Ready (.dbarWait f) s is → here 0 false → (∀ a, a = s1 ∨ a = Tried s is (sp :: sps) →
        (a.dieBar? sp.pa).isSome ∧ ¬ phasePassed (readBar a.mem sp.pa).phase n) → is.expired .dieBarrier = false →
      exec (.dbarWait f) s = .next ((Tried s is (sp :: sps)).updGroup is.g.core is.g.slot (fun g =>
        { g with wait := some (({ kind := .dieBarrier, cycles := 0, addr := x, expired := false, phase := n } : Wait).since (is.oldWait g)) }))) ∧
    (Ready (.dbarWait f) s is → is.expired .dieBarrier = true →
      exec (.dbarWait f) s = .next (s.takeHit is { cls := .barrierTimeLimit, mask := is.mask, addr := x, stage2 := false, origin := none }))

/-- R263: a step of a barrier whose phase completes advances the phase, clears the arrivals, takes the drops off the expected count, and clears
every arrived mark; R257: a poisoned object keeps its bytes; R261: a phase p has completed when (phase - p) modulo 2^32 is in 1 to 2^31. -/
def Obligations.BarrierPhases : Prop :=
  ∀ (s : State) (pa : Nat) (f : BarFields → BarFields),
    let b := f (readBar s.mem pa)
    (s.poisoned pa 16 → s.barStep pa f = s) ∧
    (s.poisoned pa 16 = false → b.arrivals = b.expected → b.expected ≠ 0 → b.balance = 0 →
      s.barStep pa f = (s.storeBytes pa (BarFields.bytes
        { b with phase := (b.phase + 1) % 2 ^ 32, arrivals := 0, expected := b.expected - b.drops, drops := 0 })).clearMarks pa) ∧
    (s.poisoned pa 16 = false → ¬ (b.arrivals = b.expected ∧ b.expected ≠ 0 ∧ b.balance = 0) → s.barStep pa f = s.storeBytes pa b.bytes) ∧
    (∀ p, phasePassed b.phase p ↔ 1 ≤ ((b.phase : Int) - p) % 2 ^ 32 ∧ ((b.phase : Int) - p) % 2 ^ 32 ≤ 2 ^ 31)

/-- R349: `mres` answers 1 to a workgroup that holds an engine, and to one that cancels its release; else it grants the lowest free engine of the
cluster that its mask names and no other workgroup has set aside, where the region's budget has room or one is set aside for the workgroup, or answers 0. R350: `mrel` starts the release of the engine, which ends once nothing keeps it. R353: `obres` copies
its operands into the buffer and makes the reservation; R354: `obrel` zeroes and removes one. How many engines a
workgroup may be releasing, a transfer that runs on after its engine has become free, and a reservation with the same number on an engine that is being released,
are the model's choice (log entries 18, 19, 117). -/
def Obligations.EngineAndReservations : Prop :=
  ∀ (f : Fields) (s s1 s2 : State) (is : Issue) (sp sp2 : Spot) (sps sps2 : List Spot),
    let bad := fun (i : Instr) (h : Hit) => exec i s = .next (s.takeHit is h)
    let plain := fun (a : Dword) => ({ cls := .operandExtent, mask := is.mask, addr := a, stage2 := false, origin := none } : Hit)
    (Ready (.mres f) s is →
      let m := (is.word f.a is.l0).toNat
      let answers := fun (s' : State) (v : Word) =>
        exec (.mres f) s = retires (.mres f) is (s'.writeLanes is (fun _ l => l.setReg f.dest.toNat v)) true
      (15 < m → bad (.mres f) (plain 0)) ∧
      (m ≤ 15 → is.w.held.isSome → answers s 1) ∧
      (m ≤ 15 → is.w.held = none → ∀ n, is.w.released.find? (fun n => m.testBit (n % 4)) = some n →
        answers (s.updWg is.w.id (fun x => x.takes n)) 1) ∧
      (m ≤ 15 → is.w.held = none → (∀ n ∈ is.w.released, m.testBit (n % 4) = false) →
        let mine := fun n => (s.engine n).aside = some is.w.id
        let can := fun n => m.testBit (n % 4) ∧ (s.engine n).holder = none ∧ (mine n ∨ (s.engine n).aside = none)
        ((∀ n ∈ clusterEngines is.w.core, ¬ can n) → answers s 0) ∧
        (∀ n ∈ clusterEngines is.w.core, can n → (∀ k ∈ clusterEngines is.w.core, can k → n ≤ k) →
          let s1 := (s.putEngine { s.engine n with holder := some is.w.id }).updWg is.w.id (fun x => x.takes n)
          ((∃ k ∈ clusterEngines is.w.core, mine k) ∨ 0 ≤ (s1.unusedBudget is.r).2 → answers s1 1) ∧
          ((∀ k ∈ clusterEngines is.w.core, ¬ mine k) → (s1.unusedBudget is.r).2 < 0 → answers s 0)))) ∧
    (Ready (.mrel f) s is →
      (is.w.held = none → bad (.mrel f) (plain 0)) ∧
      (is.w.held.isSome → ∀ w, (is.rerunXfers s).wg? is.w.id = some w → (∀ x ∈ w.xfers, x.failed ∨ x.rerun ≠ some is.g.start) →
        (∀ x ∈ w.xfaults, x.delivered ≠ []) →
        exec (.mrel f) s = retires (.mrel f) is
          (((is.rerunXfers s).updWg is.w.id (fun x => { x with releasing := true })).tryFreeEngine is.w.id) true)) ∧
    (Ready (.obres f) s is →
      let x := is.addr f.a is.l0
      let base := (is.word f.b is.l0).toNat
      let ext := (is.word f.c is.l0).toNat
      let n := f.spec.toNat % 16
      ∀ en r, is.w.held = some en → addrFormOk x 0 → addrVa x % 16 = 0 → base % 16 = 0 → ext ≠ 0 → ext % 16 = 0 → base + ext ≤ 262144 →
      is.outside s x (16 + ext) = none → (s.engine en).resv? n = none → (∀ y ∈ (s.engine en).resvs, meets base ext y.base y.ext = false) →
      Reaches s is [] [is.onceReq x 0 16] false .workgroup s1 (sp :: sps) → recordOf (readLE s1.mem sp.pa 16) n base ext = some r →
      is.w.readsResv n = false → Reaches s1 is [] [is.onceReq x 16 ext] false .workgroup s2 (sp2 :: sps2) →
      exec (.obres f) s = retires (.obres f) is (s2.putEngine { s2.engine en with
        resvs := r :: (s2.engine en).resvs, obuf := (s2.engine en).obuf.paste base ext (s2.mem.slice sp2.pa ext) }) true) ∧
    (Ready (.obrel f) s is →
      let n := f.spec.toNat % 16
      (s.resvEngine is.w n = none → bad (.obrel f) (plain 0)) ∧
      ∀ en, s.resvEngine is.w n = some en →
        ∀ r, (s.engine en).resv? n = some r → is.w.readsResv n = false →
          exec (.obrel f) s = retires (.obrel f) is ((s.putEngine { s.engine en with
            resvs := (s.engine en).resvs.filter (fun y => y.idx != n), obuf := (s.engine en).obuf.clearRange r.base r.ext }).tryFreeEngine
              is.w.id) true)

/-- R356: `tld` and `tst` start a transfer and retire; R357: `tclr` makes its tile zero, with fill offset 0, and marks it dirty. A strict group
that touches a tile of an operation in flight takes an operand-extent fault instead (R360). -/
def Obligations.TileOperations : Prop :=
  ∀ (f : Fields) (s : State) (is : Issue),
    let t := f.spec.toNat % 16
    let x := is.addr f.a is.l0
    let stride := (is.word f.b is.l0).toNat
    let starts := fun (i : Instr) (store : Bool) => Ready i s is → ∀ en, is.w.held = some en →
      let e := s.engine en
      let d := TDesc.of (e.tdesc.look t)
      let q := quals is.g f (!store) store [.generic]
      e.tdesc.look t ≠ 0 → d.rowBytes ≤ stride → stride < 2 ^ 24 → addrFormOk x 0 → (is.strict && is.w.touched t) = false →
      is.releaseGate s (store && q.releases) q.scope = none → s.playing is.w.vf is.w.ctx = false →
      let range : WatchRange :=
        { lane := is.l0, ds := false, va := addrVa x, n := (d.rows - 1) * stride + d.rowBytes, reads := !store, writes := store,
          report := x }
      is.watchHit s [range] = none →
      let y : TileXfer :=
        { id := s.seq, engine := en, tile := t, store := store, addr := x, stride := stride, desc := e.tdesc.look t, moved := 0, high := 0, buf := e.buf t,
          old := [], left := none, loose := false, core := is.g.core, slot := is.g.slot, start := is.g.start, pos := (is.lane is.l0).pos, func := (is.lane is.l0).func,
          notag := q.notag, touched := is.w.touched t, seen := none, failed := false, rerun := none, absent := none }
      let s1 := if store then s else s.putEngine { e with fill := e.fill.put t (BitVec.ofNat 32 d.size) }
      exec i s = retires i is ({ s1 with seq := s1.seq + 1 }.updWg is.w.id (fun w => { w with xfers := w.xfers ++ [y] })) false
    let strictFault := fun (i : Instr) => exec i s =
      .next (s.takeHit is { cls := .operandExtent, mask := is.mask, addr := 0, stage2 := false, origin := none })
    let touches := fun (i : Instr) => Ready i s is → ∀ en, is.w.held = some en →
      (s.engine en).tdesc.look t ≠ 0 → (TDesc.of ((s.engine en).tdesc.look t)).rowBytes ≤ stride → stride < 2 ^ 24 → addrFormOk x 0 →
      is.strict → is.w.touched t → strictFault i
    starts (.tld f) false ∧ starts (.tst f) true ∧ touches (.tld f) ∧ touches (.tst f) ∧
    (Ready (.tclr f) s is → ∀ en, is.w.held = some en →
      (is.strict ∧ is.w.touched t → strictFault (.tclr f)) ∧
      ((is.strict && is.w.touched t) = false →
        let busy := (is.w.xfers.filter (fun x => x.engine == en && !x.loose)).map (fun x => x.buf)
        let e1 := ((s.engine en).clearTile t busy).markDirty t
        exec (.tclr f) s = retires (.tclr f) is ((s.updWg is.w.id (fun w => (w.keepTile (s.engine en) t).leaveBuf (s.engine en) t s.seq)).putEngine e1) false ∧
        e1.fill.look t = 0 ∧ e1.dirty.getLsbD t = true))

/-- R359: `mfence.op` retires once the transfers started before it are done, and those that run again after a fault that its group took (R358; log entry
123); R364: `mlaunch` appends its operation and clears the store's tag;
R368: `mwait` passes the operations of its accumulator that were launched before it once all are finished and its tag is set, and raises their flags; R352: the word of
`mstate`. -/
def Obligations.MatrixOperations : Prop :=
  ∀ (f : Fields) (s s1 : State) (is : Issue) (sp : Spot) (sps : List Spot),
    let t1 := is.rerunXfers s
    let from_ := (is.horizon s).addr.toNat
    let calm := fun (w : Workgroup) (wide : Bool) =>
      (∀ x ∈ w.xfers, x.failed ∨ x.rerun ≠ some is.g.start ∧ (wide → from_ ≤ x.id)) ∧ (∀ x ∈ w.xfaults, x.delivered ≠ [])
    (Ready (.mfenceOp f) s is → is.w.held.isSome → ∀ w, t1.wg? is.w.id = some w → calm w true →
      exec (.mfenceOp f) s = retires (.mfenceOp f) is t1 true) ∧
    (Ready (.mlaunch f) s is → ∀ en, is.w.held = some en →
      let x := is.addr f.a is.l0
      addrFormOk x 0 → addrVa x % 64 = 0 → is.outside s x 64 = none →
      Reaches s is [] [is.onceReq x 0 64] false .workgroup s1 (sp :: sps) →
      let v := readLE s1.mem sp.pa 64
      let b := Block.ofNat v
      let e := s1.engine en
      e.blockOk v is.r.eff.ctags → (is.strict = false ∨ b.op = 1 ∨ ∀ a ∈ b.accs, is.w.record a = []) → is.blockedStore b.accs = none →
      (s1.launchQueue en).length < 8 → s1.playing is.w.vf is.w.ctx = false → is.watchHit s1 (launchRanges is.l0 b) = none →
      exec (.mlaunch f) s = retires (.mlaunch f) is ({ s1 with seq := s1.seq + 1 }.updWg is.w.id (fun w => w.launch (is.newOp s1 e b))) true ∧
      ∀ w : Workgroup, (w.launch (is.newOp s1 e b)).ops.getLast? = some (is.newOp s1 e b) ∧
        (w.launch (is.newOp s1 e b)).tags = if b.store then w.tags &&& ~~~(1#64 <<< b.tag) else w.tags) ∧
    (Ready (.mwait f) s is →
      let a := (is.word f.a is.l0).toNat
      let t := (is.word f.b is.l0).toNat
      let past := (is.horizon s).kind = .ops
      let t2 := if past then s else t1
      a ≤ 3 → t < is.r.eff.ctags → ∀ w, t2.wg? is.w.id = some w → (¬ past → calm w false) →
      let mine := (w.record a).filter (fun o => o.id < from_)
      (∀ o ∈ mine, o.fault = none ∧ o.phase = .finished) → w.tags.getLsbD t = true →
      exec (.mwait f) s = retires (.mwait f) is
        ((t2.updWg w.id (fun y => { y with ops := y.ops.filter (fun o => !mine.any (fun z => z.id == o.id)) })).raise is
          (mine.foldl (fun (fl : BitVec 5) o => fl ||| o.flags) 0)) true) ∧
    (Ready (.mstate f) s is → WritesReg (.mstate f) f s is (fun _ => s.mstateWord is.w))

/-- R325: an engine takes a tile entry that fits into its tile; R356, R357: the next chunk of a tile transfer meets what stands in memory, and then moves;
R308: it moves that, or the tile's own bytes, and only where memory has changed in between it may take another choice; R365: the head of a launch
queue commits; R367: the next chunk of a store lands; each where no older acquire copy of its group has still to read (R302). A failing access records its fault, and one that has to stay leaves the event undone. That an
operand is read at the commit, that a tile entry waits behind a running transfer of its tile, and that a chunk takes no free choice while its context
records or plays, is the model's choice (log entries 20, 21, 6). -/
def Obligations.MatrixEvents : Prop :=
  (∀ (s : State) (core slot queue en : Nat) (g : Group) (w : Workgroup) (e : QEntry) (t : BitVec 4),
    s.group? core slot = some g → g.tileHead queue = some (e, t) → s.wg? g.wg = some w → w.held = some en →
    let eng := s.engine en
    let d := TDesc.of (eng.tdesc.look t.toNat)
    let at0 := (eng.fill.look t.toNat).toNat
    let s1 := s.updGroup core slot (fun g => g.dropEntry e.id)
    eng.tdesc.look t.toNat ≠ 0 → (∀ x ∈ w.xfers, x.failed ∨ x.loose ∨ x.engine ≠ en ∨ x.buf ≠ eng.buf t.toNat) → e.fault = none →
    (g.mdef.getLsbD 30 && w.touched t.toNat) = false → at0 + e.count ≤ d.size →
    let eng1 := (eng.writeBuf (eng.buf t.toNat) at0 (readBytes e.bytes 0 e.count)).markDirty t.toNat
    exec (.tileEntryRemove core slot queue) s = .next ((s1.updWg w.id (fun y => y.keepTile eng t.toNat)).putEngine
      { eng1 with fill := eng1.fill.put t.toNat (BitVec.ofNat 32 (at0 + e.count)) })) ∧
  (∀ (s : State) (id : Nat) (w : Workgroup) (x : TileXfer) (c : Nat × Nat × Nat), s.xferOwner id = some (w, x) → x.failed = false →
    w.acquiring x.start x.id = false → (∀ y ∈ w.xfers, y.failed = false → y.loose = false → y.id < x.id → y.engine = x.engine → y.buf ≠ x.buf) →
    (xferChunks (TDesc.of x.desc) x.addr x.stride)[x.moved]? = some c →
    let ps := piecesOf x.addr (c.1 : Int) c.2.2 0 x.store
    let turn := s.xferTurn w x ps
    (∀ m, s.overwrites w x ps = some m → exec (.tileTransferChunk id) s = .next (s.seeChunk w x m)) ∧
    (s.overwrites w x ps = none →
      (x.seen = none → ∀ s1 pl, turn = .go s1 pl → exec (.tileTransferChunk id) s = .next (s1.seeChunk w x (s1.readPieces pl))) ∧
      (∀ m, x.seen = some m → ∀ s1 pl, turn = .go s1 pl →
        let now := s1.memoryNow w x c m
        let bytes := x.movedBytes c m now (s1.storedByte w x c now) (!s.recording w.vf w.ctx && !s.playing w.vf w.ctx) s.fresh
        exec (.tileTransferChunk id) s = .next ({ s1 with fresh := s1.fresh + 64 }.moveChunk w x c bytes pl)) ∧
      (∀ s1 f, turn = .fail s1 f → exec (.tileTransferChunk id) s = .next ((s1.recordXfault w f x.slot x.pos x.func (some x.id)).sweepWg w.id)) ∧
      (∀ s1, turn = .stay s1 → exec (.tileTransferChunk id) s = .next s1))) ∧
  (∀ (x : TileXfer) (c : Nat × Nat × Nat) (was now : Sparse 8) (mine : Nat → Byte) (free : Bool) (fresh k : Nat),
    free = false ∨ (∀ j, was.look j = now.look j) → x.movedBytes c was now mine free fresh k = if x.store then mine k else was.look k) ∧
  (∀ (s : State) (n : Nat) (w : Workgroup) (o : MatOp), s.queueHead n = some (w, o) → o.fault = none → w.acquiring o.start o.id = false →
    (∀ a ∈ o.blk.accs, s.retainer n a (1 - (s.engine n).committed a) = none) →
    let turn := s.chunkTurn (o.owner w) (s.blimitOf w) o.absent false false o.biasPieces
    (∀ s1 pl, turn = .go s1 pl → exec (.matrixCommit n) s =
      .next (s1.commitOp w o (if o.blk.bias then biasWords o.blk.n (s1.readPieces pl) else []))) ∧
    (∀ s1 f, turn = .fail s1 f → exec (.matrixCommit n) s = .next (s1.recordOpFault w o f)) ∧
    (∀ s1, turn = .stay s1 → exec (.matrixCommit n) s = .next s1)) ∧
  (∀ (s : State) (id : Nat) (w : Workgroup) (o : MatOp) (k : Nat), s.opOwner id = some (w, o) → o.phase = .storing → o.fault = none → w.acquiring o.start o.id = false →
    o.blk.storeBlocks[o.landed]? = some k →
    let turn := s.chunkTurn (o.owner w) (s.blimitOf w) o.absent true false (o.blk.storePieces k)
    (∀ s1 pl, turn = .go s1 pl → exec (.epilogueStoreChunk id) s =
      .next ((s1.writePieces (o.owner w) pl (o.storeByte k)).landStore w o)) ∧
    (∀ s1 f, turn = .fail s1 f → exec (.epilogueStoreChunk id) s = .next (s1.recordOpFault w o f)) ∧
    (∀ s1, turn = .stay s1 → exec (.epilogueStoreChunk id) s = .next s1))

/-- R66, R70: a group with no run that its issue slot selects dispatches the run at its least position, or its lanes retry Enter at a header (R58),
once the code that it fetches is there (R282); R87, R88: lanes of a quiet loop are demoted after 64 iterations, and come back after 4,096 cycles;
R96: a group with no live lane ends, after the arrivals that its killed lanes owe (R94, R311); R117: a barrier wait past its region's limit is a fault; R317: a wait for an absent peer at its limit makes
its last checks, of every operation that can name one. Which pages a dispatch visits, what a code access does, and that a demotion is made at the next boundary of a run are the model's
reading (log entries 12, 32, 87). -/
def Obligations.RunsAndDemotions : Prop :=
  (∀ (s : State) (core slot L : Nat) (g : Group) (is : Issue), s.group? core slot = some g →
    let s0 := s.demoteNow g
    let s1 := s0.issueAs core slot false 0
    s1.issue? = some is → g.run = 0 → s0.selects is.g → is.leastLane s1.mem (lanesOf is.g.eligible) = some L →
    let run := is.atLane s1.mem (lanesOf is.g.eligible) L
    let l := is.g.lane L
    let pages := s1.codePages is.w is.r l.func.toNat l.parcel
    ((∀ k ∈ pages, s1.busyPage is.w.vf is.w.ctx (k * 65536) = false) →
      let t := pages.foldl (fun s k => s.visit is.w.vf is.w.ctx (k * 65536)) s1
      exec (.selectRun core slot) s = .next (t.dispatchRun is L run) ∧
      (is.fetch t l ≠ .header → (∀ K, run.getLsbD K → (is.g.lane K).atStart = false) → ∀ g', (t.dispatchRun is L run).group? core slot = some g' → g'.run = run)) ∧
    ((∃ k ∈ pages, s1.busyPage is.w.vf is.w.ctx (k * 65536) = true) → ∃ t, exec (.selectRun core slot) s = .next t ∧ t.groups = s1.groups)) ∧
  (∀ (s : State) (core slot : Nat) (g : Group), s.group? core slot = some g → g.run = 0 → s.selects g →
    ∀ h ∈ s.groups, h.core = core → h.slot % 4 = slot % 4 → s.ready h →
      (h.yielded = false ∨ ∀ x ∈ s.groups, x.core = core → x.slot % 4 = slot % 4 → s.ready x → x.yielded) →
      g.lastDispatch < h.lastDispatch ∨ g.lastDispatch = h.lastDispatch ∧ g.slot ≤ h.slot) ∧
  (∀ (s : State) (core slot : Nat) (g : Group) (w : Workgroup), s.group? core slot = some g → s.wg? g.wg = some w → g.run = 0 →
    64 ≤ g.spinCount → g.spinOff = false →
    exec (.demotion core slot) s = .next ((s.updGroup g.core g.slot (Group.demote s.now)).count g.core w.vf w.ctx 0x0D 1)) ∧
  (∀ (s : State) (core slot : Nat) (g : Group), s.group? core slot = some g →
    let ended := fun (d : Demotion) => d.began + 4096 ≤ s.now ∧ (d.otherRan ∨ ¬ (d.otherEligible ∨ g.run = 0 ∧ g.eligible ≠ 0))
    ∃ t g', exec (.demotionEnd core slot) s = .next t ∧ t.mem = s.mem ∧ t.group? core slot = some g' ∧
      (∀ d, d ∈ g'.demos ↔ d ∈ g.demos ∧ ¬ ended d) ∧ ((∃ d ∈ g.demos, ended d) → g.spinCount < 64 → g'.spinCount = 0) ∧
      ((∀ d ∈ g.demos, ¬ ended d) → g' = g)) ∧
  (∀ (s0 : State) (core slot : Nat) (g : Group) (w : Workgroup) (r : Region),
    let s := s0.payAt core slot
    s.group? core slot = some g → s.wg? g.wg = some w → s.region? w.vf w.rcb = some r →
    (g.allRetired = false ∨ g.owed ≠ 0 ∨ s.releasesWait g w → exec (.groupEnd core slot) s0 = .next s) ∧
    (g.allRetired → g.owed = 0 → s.releasesWait g w = false →
      let s2 := ((g.holds.map (fun h => h.pa)).foldl (fun s pa => s.grantAll pa) (s.releaseHolds g)).recordSlice g w r
      let s3 := { s2 with groups := s2.groups.filter (fun x => !(x.core == core && x.slot == slot)) }
      ∀ w1, s3.wg? w.id = some w1 → exec (.groupEnd core slot) s0 =
        .next ((if s3.groups.any (fun x => x.wg == w.id) then s3 else s3.endWorkgroup w1 r).rejudgeVf w.vf))) ∧
  (∀ (s : State) (core slot : Nat) (g : Group) (is : Issue) (x : Dword), s.group? core slot = some g → g.run ≠ 0 →
    let s1 := s.issueAs core slot false g.run
    s1.issue? = some is → is.overdue = some x →
    exec (.barrierTimeLimit core slot) s = .next (s1.takeHit is
      { cls := .barrierTimeLimit, mask := is.mask, addr := x, stage2 := false, origin := none })) ∧
  (∀ (s : State) (core slot : Nat) (g : Group) (is : Issue) (i : Instr), s.group? core slot = some g → g.run ≠ 0 → g.park = none →
    let s1 := s.issueAs core slot false g.run
    s1.issue? = some is → is.peerLimit = true → is.fetch s (g.lane (lowest g.run)) = .op i →
    (MayNamePeer i → exec (.peerAbsent core slot) s = exec i s1 ∧ ∃ t, exec (.peerAbsent core slot) s = .next t) ∧
    (¬ MayNamePeer i → exec (.peerAbsent core slot) s = .next s1))

/-- R251: a latch is granted to its waiters, or replay mode stops the context before the grant (R445); R231, R319: a posted write is performed at its home, and acknowledged to its group; R241: a chunk of a
copy, anywhere in the window, is read and then lands whole, and the last one ends the copy; R308: it lands with what was read, and with a free
choice only where its source or its destination has been written in between; R236: the read of a feed completes its entry. Which waiter, chunk or
write comes next is the agenda's choice (log entry 1). That a chunk takes no free choice while its context records or plays, and that one event
reads a chunk and a later one lands it, are the model's reading too (log entries 6, 108). -/
def Obligations.ArrivalsAndGrants : Prop :=
  (∀ (s : State) (pa : Nat),
    let s1 := (s.grantAll pa).rejudgeAll
    (s1.grantStop pa = none → exec (.latchGrant pa) s = .next s1) ∧
    ∀ ac, s1.grantStop pa = some ac → exec (.latchGrant pa) s = .next (s1.replayStop ac)) ∧
  (∀ (s : State) (id : Nat) (p : Posted), s.posted.find? (fun p => p.id == id) = some p →
    let older := s.posted.filter (fun (q : Posted) => q.by p.core p.slot p.start && !q.performed && q.id < p.id)
    let s1 := if p.performed then s else s.performRun (Posted.before p.eff.ranges older.reverse ++ [p])
    let s2 := { s1 with posted := s1.posted.filter (fun q => q.id != id) }
    ((∃ q ∈ s1.posted, q.id = id ∧ q.performed) →
      (p.counted → exec (.acknowledge id) s = .next (s2.ackToOwner p.core p.slot p.start)) ∧
      (p.counted = false → exec (.acknowledge id) s = .next s2)) ∧
    ((∀ q ∈ s1.posted, q.id = id → q.performed = false) → exec (.acknowledge id) s = .next s1)) ∧
  (∀ (s : State) (id k : Nat) (w : Workgroup) (c0 : Copy), s.copyOwner id = some (w, c0) →
    let c := c0.serviced s
    c.open? k → w.acquiring c.start c.id = false →
    let kept := fun (s1 : State) => s1.updWg w.id (fun y => y.updCopy c.id (fun _ => c))
    (c.read.find? (fun p => p.1 == k) = none →
      let turn := s.chunkTurnOn (c.owner w (2 * k)) (s.blimitOf w) c.absent false c.notag (c.pieces k) (fun (p : Piece) => !p.write)
      (∀ s1 pl, turn = .go s1 pl → exec (.chunkLand id k) s = .next ((kept s1).readChunk w c k pl)) ∧
      (∀ s1 f, turn = .fail s1 f → exec (.chunkLand id k) s = .next (s1.recordCopyFault w c f)) ∧
      (∀ s1, turn = .stay s1 → exec (.chunkLand id k) s = .next s1)) ∧
    (∀ n m, c.read.find? (fun p => p.1 == k) = some (n, m) →
      let turn := s.chunkTurn (c.owner w (2 * k + 1)) (s.blimitOf w) c.absent false c.notag ((c.pieces k).filter (fun p => p.write))
      (∀ s1 pl, turn = .go s1 pl →
        let s2 := kept s1
        let bytes := c.landed k m (s2.sourceNow w c k m) (s2.writtenNow pl) (!s2.recording w.vf w.ctx && !s2.playing w.vf w.ctx) s.fresh
        let s3 := ((s2.writePieces (c.owner w 0) pl bytes).landOnBar w c (landedBytes w pl)).count c.core w.vf w.ctx 0x0A (c.chunk k).2
        ((c.land k).next = c.chunks → exec (.chunkLand id k) s = .next
          ((s3.updWg w.id (fun y => ({ y with copies := y.copies.filter (fun z => z.id != c.id) }).retag c.tag)).sweepWg w.id)) ∧
        ((c.land k).next ≠ c.chunks → exec (.chunkLand id k) s = .next (s3.updWg w.id (fun y => y.updCopy c.id (fun _ => c.land k))))) ∧
      (∀ s1 f, turn = .fail s1 f → exec (.chunkLand id k) s = .next (s1.recordCopyFault w c f)) ∧
      (∀ s1, turn = .stay s1 → exec (.chunkLand id k) s = .next s1))) ∧
  (∀ (c : Copy) (k fresh i : Nat) (m src dst : Sparse 8) (free : Bool),
    (free = false ∨ (c.acquire = true ∨ m.look i = src.look i) ∧ ∀ j, m.look (64 + j) = dst.look j) → c.landed k m src dst free fresh i = m.look i) ∧
  (∀ (s : State) (core slot entry : Nat) (g : Group) (e : QEntry) (w : Workgroup), s.group? core slot = some g →
    g.feeds.find? (fun e => e.id == entry) = some e → s.wg? g.wg = some w → e.complete = false ∨ e.again g → g.feedHeld entry = false →
    (s.feedPieces w e = none → exec (.feedComplete core slot entry) s = .next (s.endFeed g.core g.slot e [] 4
      (some { cls := .translation, addr := e.addr, stage2 := false }))) ∧
    (∀ ps, s.feedPieces w e = some ps →
      let turn := s.chunkTurn (feedOwner g w e) 0 none false e.notag ps
      (∀ s1 pl, turn = .go s1 pl → exec (.feedComplete core slot entry) s = .next
        ((s1.count g.core w.vf w.ctx 0x0B 1).endFeed g.core g.slot e (s1.readPieces pl)
          (if pl.any (fun x => Config.cxlBase ≤ x.2.1) then 5 else 4) none)) ∧
      (∀ s1 x, turn = .fail s1 x → exec (.feedComplete core slot entry) s = .next (s1.endFeed g.core g.slot e [] 4 (some x)))))

/-- R101: a list whose links word has changed is walked; R104: a region is judged again; R38, R111, R112: a READY region that comes first is
admitted with its first workgroup, and with the code that its image holds then, and each further workgroup of a running one is placed; R107: the
end of a quantum; R108: aging; R113: a region that can complete completes; R114: the host ends a region with its subtree. That the image's code is kept
as admission finds it, that a walk keeps its remembered head where the list's head reads zero, and when a deficit is granted its quantum, are the
model's reading (log entries 28, 53, 54). -/
def Obligations.RegionArbitration : Prop :=
  (∀ (s : State) (vf parent links head : Nat) (p : Region), s.vfEnabled vf → s.walkParent vf parent = some p →
    s.devRead vf p.ctx (p.va + 0x88) 4 = some links → s.devRead vf p.ctx (p.va + 0x78) 8 = some head →
    (BitVec.ofNat 32 links = p.lastLinks → exec (.walk vf parent) s = .next s) ∧
    (BitVec.ofNat 32 links ≠ p.lastLinks →
      let q := { p with lastLinks := BitVec.ofNat 32 links, lastHead := if head % 2 ^ 60 = 0 then p.lastHead else head % 2 ^ 56 }
      let s1 := { s.visit vf p.ctx p.va with regions := q :: s.regions.filter (fun y => !(y.vf == vf && y.rcb == p.rcb)) }
      exec (.walk vf parent) s = .next ((s1.walkLinks q p.lastHead (2 ^ 32) head).rejudgeVf vf))) ∧
  (∀ (s : State) (vf rcb : Nat), exec (.depsRecheck vf rcb) s = .next ((s.rejudge vf rcb).writePrios vf) ∧
    exec (.regionComplete vf rcb) s = .next ((s.tryComplete vf rcb).rejudgeVf vf) ∧
    exec (.regionEnd vf rcb) s = .next ((s.endSubtree vf rcb).rejudgeVf vf)) ∧
  (∀ (s : State) (vf rcb : Nat) (r : Region) (k c o : Nat),
    let t := (s.rejudge vf rcb).writePrios vf
    t.region? vf rcb = some r → t.nextPlace r = some (k, c, o) → r.st = 4 → (∀ a ∈ r.words, t.busyPage vf r.ctx a = false) → t.judge r = 4 → t.placing r → t.isFirst r →
    let q := { r with
      thin := t.thinFor r, code := t.imageParcels vf r.ctx r.eff.image, st := 5, deficit := r.deficit + r.quantumWork, quantumCycles := 0 }
    let t1 := ((t.firstAdmission r).updRegion vf rcb (fun _ => q)).writeRcbState q 5 0
    exec (.admitRegion vf rcb) s = .next ((t1.devWrite vf r.ctx (r.va + 0xC0) 8 t.hubTime).placeAt q k c o)) ∧
  (∀ (s : State) (vf rcb : Nat) (r : Region) (k c o : Nat),
    let t := s.writePrios vf
    t.region? vf rcb = some r → t.nextPlace r = some (k, c, o) → r.st = 5 → t.placing r → t.isFirst r →
    exec (.placeWorkgroup vf rcb) s = .next (t.placeAt r k c o)) ∧
  (∀ (s0 : State) (vf rcb : Nat) (r : Region),
    let s := s0.writePrios vf
    s.region? vf rcb = some r → r.isRoot = false → r.st = 5 ∨ r.st = 6 → s.regionCores r ≠ [] →
    s.quantumRuns r → r.eff.quantum * 1024 ≤ r.quantumCycles →
    let s1 := s.updRegion vf rcb (fun x => { x with quantumCycles := 0 })
    let wanted := s.regions.any (fun q => q.open_ && !(q.vf == vf && q.rcb == rcb) && s.partOf q.vf == s.partOf vf &&
      s.eprio r ≤ s.eprio q && s.waitsFor q (s.regionCores r)) && (s.regionCores r).all s.shadowFree
    (0 < r.deficit → exec (.quantumEnd vf rcb) s0 = .next s1) ∧
    (r.deficit ≤ 0 → wanted = false → exec (.quantumEnd vf rcb) s0 =
      .next (s1.updRegion vf rcb (fun x => { x with deficit := x.deficit + r.quantumWork }))) ∧
    (r.deficit ≤ 0 → wanted → ∃ t, exec (.quantumEnd vf rcb) s0 = .next t ∧
      ∀ w ∈ t.wgs, w.vf = vf → w.rcb = rcb → w.saved = false → w.ended = false → w.stopping = true)) ∧
  (∀ (s : State) (vf rcb : Nat) (r : Region), s.region? vf rcb = some r → r.st = 4 → 16 * (r.eff.quantum * 1024) ≤ r.quantumCycles →
    exec (.agedPriority vf rcb) s = .next ((s.updRegion vf rcb (fun x => { x with
      waitedQuanta := x.waitedQuanta + 16, quantumCycles := x.quantumCycles - 16 * (r.eff.quantum * 1024) })).writePrios vf))

/-- R106, R391: a workgroup whose pre-emption is under way, or whose core a descendant of its region needs, is saved once its groups have settled; R397: a saved one whose core has room comes back;
R110, R411: the tier engine promotes the page that comes next in the current context's set or for a gated region, once no promotion for which an access waits stands by, or starts a write-down, and a move that ends is followed by new
judgements. When a page is mapped, how far a walk is stale, and where a page's CXL frame lies are the model's reading (log entries 59, 88). -/
def Obligations.SavesRestoresAndMoves : Prop :=
  (∀ (s : State) (id : Nat) (w0 w : Workgroup) (r : Region), s.wg? id = some w0 → s.region? w0.vf w0.rcb = some r →
    let s1 := if !w0.stopping && s.evictable r w0 then s.evictFrom w0.core else s
    s1.wg? id = some w →
    (w.saved = false → w.ended = false → w.stopping → s1.settledForSave w →
      (∀ k, s1.slotFor w = some k → exec (.preempt id) s = .next ((s1.saveInto w k).writePrios w.vf)) ∧
      (s1.slotFor w = none → exec (.preempt id) s = .next (s1.writePrios w.vf))) ∧
    (w.saved ∨ w.ended ∨ w.stopping = false ∨ s1.settledForSave w = false → exec (.preempt id) s = .next s1)) ∧
  (∀ (s : State) (id : Nat) (w : Workgroup) (r : Region) (x : SavedWg), s.wg? id = some w → s.savedOf id = some x →
    s.region? w.vf w.rcb = some r → s.placing r → s.isFirst r → s.restorable r w x →
    exec (.restore id) s = .next (s.restoreWg r w x)) ∧
  (∀ (s : State) (vf page p dst : Nat) (l : Leaf), s.partOf vf = some p → s.s2Leaf vf (page * 65536) = some l → s.hasCxl → s.moving l.pa = false →
    let comes := ∃ y : Leaf, (s.setUp vf = some y ∨ s.gateUp p = some (vf, y)) ∧ y.pa = l.pa
    (s.fillWaits p = false → comes → exec (.tierMove vf page true) s = .next (s.startFill vf (s.curCtx vf) l.base)) ∧
    (s.fillWaits p = true ∨ ¬ comes → exec (.tierMove vf page true) s = .next s) ∧
    (∀ c, l.tier = 0 → s.downFor p vf l = some c → s.cxlFor p vf l = some dst →
      exec (.tierMove vf page false) s = .next (s.startMove vf c l dst false))) ∧
  (∀ (s : State) (id : Nat) (mv : PageMove), s.moves.find? (fun m => m.id == id) = some mv →
    exec (.pageMoveComplete id) s = .next ((s.endMove mv).rejudgeVf mv.vf))

/-- R403: the enable of a partition that passes its checks sets state 1, one that fails sets state 3 and the reason; a disable ends its regions,
zeroes what it holds and sets state 0; R402: a stop halts its cores. R408, R409: stops, resumptions and guest switches of a VF. R406: control of
parked groups. R414: the dirty log's control. The OS image measured, what a disable leaves of a VF's registers, where a halt leaves a granted acquire, and
how far one event takes a switch are the model's choice (log entries 8, 67, 68, 69). -/
def Obligations.PartitionsAndVfs : Prop :=
  (∀ (s : State) (p : Nat), p < 32 → s.partEnabled p = false → 7 ≤ s.modField 0x000 3 0 →
    (s.partReason p ≠ 0 → exec (.partitionEnable p) s = .next (s.setPartState p 3 (some (s.partReason p)))) ∧
    (s.partReason p = 0 →
      let n := (s.enables.look p).toNat
      let s1 := (s.setBit (partBase p) 0 true).setPartState p 1 none
      let s2 := { s1 with enables := s1.enables.put p (BitVec.ofNat 32 (n + 1)) }
      (p < 8 → exec (.partitionEnable p) s = .next (s2.extendMeas (8 + p) (Config.osImage p n))) ∧
      (8 ≤ p → exec (.partitionEnable p) s = .next s2))) ∧
  (∀ (s : State) (p : Nat), p < 32 → s.partEnabled p →
    let vs := s.vfsOf p
    let s2 := ((((s.topRegions vs).foldl (fun s x => s.endSubtree x.1 x.2) s).dropVfs p vs).zeroPart p).setBit (partBase p) 0 false
    exec (.partitionDisable p) s =
      .next ((vs.foldl (fun s v => s.setVfReg v 0x040 (s.vfReg v 0x040 &&& 0xFFFF0000#64)) s2).setPartState p 0 none) ∧
    exec (.partitionStop p) s = .next (((s.setBit (partBase p) 1 true).setPartState p 2 none).haltWgs (fun w => vs.contains w.vf))) ∧
  (∀ (s : State) (vf : Nat), vf < 64 →
    (s.stoppedVfs.contains vf = false →
      let s1 := ((s.setBit (vfBase vf) 2 true).stopWgs (fun w => w.vf == vf)).haltWgs (fun w => w.vf == vf)
      (s1.runningWgs (fun w => w.vf == vf)).all s1.settledForSave →
      let s2 := s1.saveAll (fun w => w.vf == vf)
      let s3 := s2.storeBytes (s2.vfReg vf 0x048).toNat (s2.saveRecord vf)
      exec (.vfStop vf) s = .next { s3 with stoppedVfs := vf :: s3.stoppedVfs }) ∧
    (s.stoppedVfs.contains vf →
      let s1 := { s.setBit (vfBase vf) 2 false with stoppedVfs := s.stoppedVfs.filter (fun v => v != vf) }
      (s1.switches.find? (fun x => x.vf == vf) = none → exec (.vfResume vf) s = .next (s1.applyCx vf (s1.curCtx vf))) ∧
      (∀ x, s1.switches.find? (fun x => x.vf == vf) = some x → x.step ≠ 0 → exec (.vfResume vf) s = .next ((s1.applyCx vf x.inc).setStep vf 3))) ∧
    (∀ inc, s.switches.find? (fun x => x.vf == vf) = none → s.vfStopped vf = false → s.switchOk vf inc →
      exec (.guestSwitch vf inc) s = .next ({ s with
        switches := s.switches ++ [({ vf := vf, out := s.curCtx vf, inc := inc, step := 1 } : Switch)] }.showSwitch vf inc 1 true)) ∧
    (∀ inc x, s.switches.find? (fun x => x.vf == vf) = some x → s.vfStopped vf = false →
      exec (.guestSwitch vf inc) s = .next (s.moveSwitch x)) ∧
    (∀ value : Dword, value.toNat < 2 → exec (.logProgram vf 0x034 value) s =
      .next (if value = 1 then (s.setVfReg vf 0x034 value).checkDirtyLog vf else s.setVfReg vf 0x034 value))) ∧
  (∀ (s : State) (vf core slot : Nat),
    (∀ w g, s.groupOf vf core slot = some (w, g) → g.park.isSome →
      exec (.groupResume vf core slot) s = .next (s.changeGroup w g Group.unpark) ∧
      exec (.groupKill vf core slot) s = .next (s.killAt w g)) ∧
    (s.groupOf vf core slot = none ∨ (∃ w g, s.groupOf vf core slot = some (w, g) ∧ g.park = none) →
      exec (.groupResume vf core slot) s = .next (s.vfErr vf 3) ∧ exec (.groupKill vf core slot) s = .next (s.vfErr vf 3)))

/-- R407: an invalidation of a context that vf.nctx reaches (R405) is in effect until it is complete, and then what the VF's accesses have posted is performed and its entries are gone; R415, R416: the states of a die that goes offline and
comes back; R419: clocks and error counts; R418: the stages of start-up. The corners of an offline command, of invalidations, of failing stages and of recovery
mode after start-up are the model's choice (log entries 63, 66, 71, 104, 120). -/
def Obligations.ModuleEvents : Prop :=
  (∀ (s : State) (vf page : Nat), vf < 64 →
    let ctx := (s.vfReg vf 0x050).toNat % 65536
    let shown := ctx < (s.vfReg vf 0x054).toNat
    (¬ shown → exec (.invalidatePageS1 vf page) s = .next s ∧ exec (.invalidateAllS1 vf) s = .next s ∧
      exec (.invalidatePageS2 vf page) s = .next s ∧ exec (.invalidateVf vf) s = .next s) ∧
    (shown → s.invals.any (fun x => x.vf == vf && x.ctx == ctx) = false →
      let adds := fun (k q : Nat) =>
        { s with invals := s.invals ++ [({ vf := vf, ctx := ctx, kind := k, page := q % 2 ^ 40 } : Inval)] }.setCxReg vf ctx 0x138 1
      exec (.invalidatePageS1 vf page) s = .next (adds 0 page) ∧ exec (.invalidateAllS1 vf) s = .next (adds 1 0) ∧
      exec (.invalidatePageS2 vf page) s = .next (adds 2 page) ∧ exec (.invalidateVf vf) s = .next (adds 3 0)) ∧
    (shown → s.invals.any (fun x => x.vf == vf && x.ctx == ctx) → exec (.invalidatePageS1 vf page) s = .next (s.vfErr vf 5)) ∧
    let s1 := if s.invals.any (fun x => x.vf == vf) then s.flushWhere (fun p => p.vf == vf) else s
    ∃ t, exec (.invalidationComplete vf) s = .next t ∧ (∀ x ∈ t.invals, x.vf ≠ vf) ∧ t.posted = s1.posted ∧ t.mem = s1.mem ∧
      t.tlb = s1.tlb.filter (fun e => !s.invals.any (fun x => x.vf == vf && x.names e))) ∧
  (∀ (s : State) (d : Nat),
    (s.offlineResult d = 0 →
      let s1 := ((s.setDieState d 1).showDie d true).tellPartitions d
      exec (.dieOffline d) s = .next ((s1.moves.foldl (fun s mv => s.redirect d mv) s1).startOff d)) ∧
    (s.offlineResult d ≠ 0 → exec (.dieOffline d) s = .next (s.setDieResult (s.offlineResult d))) ∧
    (d < 4 → s.dieState d = 1 → (∀ mv ∈ s.moves, onDie d mv.src = false ∧ onDie d mv.dst = false) → s.pagesOnDie d = [] →
      exec (.diePagesMoved d) s = .next (s.setDieState d 2)) ∧
    (d < 4 → s.dieState d = 2 → (∀ w ∈ s.wgs, w.core / 64 = d → w.ended = true) →
      exec (.dieDrained d) s = .next ((s.setDieState d 3).setDieResult 0)) ∧
    (d < 4 → s.dieState d = 3 ∨ s.dieState d = 4 →
      exec (.dieOnline d) s = .next (((s.setDieState d 0).setDieResult 0).showDie d false))) ∧
  (∀ (s : State) (mhz : Nat),
    (mhz < s.modField 0x00C 27 16 → exec (.clockLower mhz) s =
      .next (s.setReg 0x00C (BitVec.ofNat 64 (2 ^ 31 + mhz * 65536 + Config.hubMHz)))) ∧
    (s.modField 0x00C 27 16 ≤ mhz → exec (.clockLower mhz) s = .next s) ∧
    exec .clockRestore s = .next (s.setReg 0x00C nominalClk) ∧
    exec .correctedError s = .next (s.setReg 0x018 (BitVec.ofNat 64 (min (2 ^ 32 - 1) ((s.reg 0x018).toNat % 2 ^ 32 + 1)))) ∧
    let s1 := s.setReg 0x01C (BitVec.ofNat 64 (min (2 ^ 32 - 1) ((s.reg 0x01C).toNat % 2 ^ 32 + 1)))
    (∀ n, exec (.uncorrectableError (.granule n)) s = .next { s1 with poison := s1.poison.put n 1 }) ∧
    (∀ c k l r, exec (.uncorrectableError (.register c k l r)) s = .next (s1.updGroup c k (Group.poisonReg l r))) ∧
    ∀ c k r, exec (.uncorrectableError (.sliceRegister c k r)) s = .next (s1.updGroup c k (Group.poisonSlice r))) ∧
  (∀ (s : State) (ok : Bool) (bad : Nat),
    let n := s.modField 0x000 3 0 + 1
    (s.modField 0x000 31 16 = 0 → n ≤ 7 → n ≠ 2 → n ≠ 3 → ok = true ∨ n ≠ 1 ∧ n ≠ 5 →
      exec (.reset ok bad) s = .next ((s.bootStage n bad).setBoot n 0)) ∧
    (s.modField 0x000 31 16 = 0 → ok = false → n = 1 ∨ n = 5 → exec (.reset ok bad) s = .next (s.setBoot n n)) ∧
    (s.modField 0x000 31 16 = 0 → n = 2 ∨ n = 3 →
      let s1 := s.bootStage n bad
      (s1.canForm = true → exec (.reset ok bad) s = .next (s1.setBoot n 0)) ∧ (s1.canForm = false → exec (.reset ok bad) s = .next (s1.setBoot n n))) ∧
    (s.modField 0x000 31 16 = 0 → 7 < n → ok = false → bad ≠ 0 →
      exec (.reset ok bad) s = .next (s.setReg 0x004 (s.reg 0x004 ||| 0x80000000#64))) ∧
    (s.modField 0x000 31 16 = 0 → 7 < n → ok = false → bad = 0 → exec (.reset ok bad) s = .next s.clearRecovery) ∧
    (s.modField 0x000 31 16 ≠ 0 ∨ 7 < n ∧ ok = true →
      exec (.reset ok bad) s = .next { State.resetOf s.part with agenda := s.agenda, fresh := s.fresh }))

/-- R420 to R422: retraining, rollover, the retire message and the integrity check of a link that the part has; R424: each SPDM request is answered in
the mailbox that it came through, in version 1.3, with Falcon-1024 and SHAKE256 where it selects or carries them, `GET_MEASUREMENTS` with the
measurements of that mailbox, and an unsupported one with an error. How much a link has sent and how much is acknowledged is free; what the PF is
answered, the peers of SPDM and the buffers of a link are the model's choice (log entries 9, 64, 97). -/
def Obligations.LinksAndAttestation : Prop :=
  (∀ (s : State) (n : Nat), linkPresent s.part n →
    let l := s.link n
    let l1 := (s.afterSends n).1
    let s1 := (s.afterSends n).2
    (∃ k, l1 = { l with replay := l.replay ++ List.replicate k l.cur }) ∧
    (l.has l.cur → exec (.linkRetrain n) s = .next (s.putLink { l with replay := l.replay ++ [l.cur] })) ∧
    (l.retirePending → exec (.keyRollover n) s = .next (s1.putLink { l1 with busy := l.busy ++ [true] })) ∧
    (l.retirePending = false → l.has l.cur → exec (.keyRollover n) s = .next (s1.putLink
      { l1.setKey (!l.cur) true with cur := !l.cur, retirePending := true, retireSent := false, busy := l.busy ++ [false] })) ∧
    (l.retirePending = false → l.has l.cur = false →
      exec (.keyRollover n) s = .next (s1.putLink { l1.setKey l.cur true with busy := l.busy ++ [false] })) ∧
    (l.retirePending → l.retireSent = false → l.replay.contains (!l.cur) = false →
      exec (.retireMessage n) s = .next (s.putLink { l with retireSent := true })) ∧
    (l.replay.contains (!l.cur) → exec (.retireMessage n) s = .next s) ∧
    (l.retireSent → exec (.retireReceive n) s = .next (s.putLink
      { l.setKey (!l.cur) false with retirePending := false, retireSent := false })) ∧
    ∀ slot intact, (intact = true ∧ l.has slot = true → exec (.flitReceive n slot intact) s =
        .next (s1.takeFree.2.putLink { l1 with replay := l1.replay.drop s1.takeFree.1.toNat })) ∧
      (intact = false ∨ l.has slot = false → exec (.flitReceive n slot intact) s = .next ((s1.takeFree.2.putLink l1).setBit 0x024 n true))) ∧
  (∀ (s : State) (n : Nat), linkPresent s.part n = false →
    exec (.linkRetrain n) s = .next s ∧ exec (.keyRollover n) s = .next s ∧ exec (.retireMessage n) s = .next s ∧
      exec (.retireReceive n) s = .next s ∧ ∀ slot intact, exec (.flitReceive n slot intact) s = .next s) ∧
  (∀ (s : State) (via : Option Nat), (∀ v, via = some v → v < 64) →
    let ans := fun (i : Instr) (k : SpdmKind) => ∃ t : State, exec i s = .next t ∧ ∃ r : SpdmReply,
      t = { s with spdm := s.spdm ++ [r], fresh := s.fresh + 1,
                   spdmPeers := (s.peer via).after k :: s.spdmPeers.filter (fun (p : SpdmPeer) => p.via != via) } ∧
      r.via = via ∧ r.kind = k ∧ r.version = (1, 3) ∧ (r.error = true ↔ k = .unsupported) ∧ (k ≠ .getMeasurements → r.measurements = []) ∧
      (k ∈ [.negotiateAlgorithms, .challenge, .getMeasurements, .keyExchange] → r.signature = some .falcon1024 ∧ r.hash = some .shake256) ∧
      (k = .getMeasurements → via = none → r.measurements = s.meas) ∧
      (∀ v, k = .getMeasurements → via = some v → s.meas.take 8 <+: r.measurements ∧
        ∀ p, s.partOf v = some p → p < 8 → r.measurements = s.meas.take 8 ++ (s.meas.drop (8 + p)).take 1)
    ans (.getVersion via) .getVersion ∧ ans (.getCapabilities via) .getCapabilities ∧ ans (.negotiateAlgorithms via) .negotiateAlgorithms ∧
    ans (.getDigests via) .getDigests ∧ ans (.getCertificate via) .getCertificate ∧ ans (.challenge via) .challenge ∧
    ans (.getMeasurements via) .getMeasurements ∧ ans (.keyExchange via) .keyExchange ∧ ans (.finish via) .finish ∧
    ans (.heartbeat via) .heartbeat ∧ ans (.keyUpdate via) .keyUpdate ∧ ans (.endSession via) .endSession ∧
    ans (.unsupportedRequest via) .unsupported)

/-- R429: an observation facility that is set while its area passes its check starts at the area's read index, and else is cleared again with
vf.err.dbg set; R428, R430: the debugger's control of groups; R439: a periodic row; R442, R444: checkpoints and their restore; R413, R443: a read
index; R322: what the host posts. The image of a checkpoint, when the first is due, and what a restore and a host's write leave are the model's
choice (log entries 24, 72, 74). That a resume of a group that is not parked has no effect, that a park keeps the counted cycles of a wait, and
that the areas are guest physical are its reading (log entries 70, 76). -/
def Obligations.Observation : Prop :=
  (∀ (s : State) (vf : Nat), vf < 64 →
    let starts := fun (i : Instr) (b : Nat) (a : Area) (f : State → State) => s.dbgBit vf b = false →
      let s1 := s.setDbg vf b true
      (s1.areaOk vf a → exec i s = .next (f (s1.setVfReg vf a.windex (s1.vfReg vf a.rindex)))) ∧
      (s1.areaOk vf a = false → exec i s = .next ((a.uses.foldl (fun s b => s.setDbg vf b false) s1).vfErr vf 6))
    starts (.debugEnable vf) 0 debugArea id ∧
    starts (.recordEnable vf) 1 replayArea (fun s => { s with
      checkpoints := s.checkpoints.map (fun (c : Checkpoint) => if c.vf = vf then { c with live := false } else c) }) ∧
    starts (.samplerEnable vf) 3 samplerArea (fun s => { s with
      counters := s.counters.filter (fun p => p.1 / 256 != vf), macs := s.macs.put vf 0, sampled := s.sampled.put vf (BitVec.ofNat 64 s.now) }) ∧
    (s.dbgBit vf 4 = false → (s.setDbg vf 4 true).areaOk vf samplerArea → ∃ t, exec (.tagSamplingEnable vf) s = .next t ∧
      ∀ x ∈ t.lfsrs, x.core = bitsOf (s.vfReg vf 0x094).toNat 31 24 → x.v ≠ 0) ∧
    (∀ on, exec (.playEnable vf on) s = .next (s.setDbg vf 2 on)) ∧
    (∀ ck c, (s.vfReg vf 0x050).toNat % 65536 ≠ s.curCtx vf →
      (∀ w ∈ s.wgs, w.vf = vf → w.ctx = (s.vfReg vf 0x050).toNat % 65536 → w.saved = true ∨ w.ended = true) →
      (∃ w ∈ s.wgs, w.vf = vf ∧ w.ctx = (s.vfReg vf 0x050).toNat % 65536 ∧ w.saved = true) →
      s.checkpoints.find? (fun (c : Checkpoint) => c.vf == vf && c.ctx == (s.vfReg vf 0x050).toNat % 65536 && c.ck == ck) = some c →
      exec (.checkpointRestore vf ck) s = .next (s.restoreImage c)) ∧
    (let step := bitsOf (s.vfReg vf 0x094).toNat 15 0 * 1024
     let last := (s.sampled.look vf).toNat
     s.dbgBit vf 3 → step ≠ 0 → last + step ≤ s.now → exec (.samplePeriodic vf) s =
      .next (({ s with sampled := s.sampled.put vf (BitVec.ofNat 64 (last + step)) }).sampleRow vf (s.curCtx vf) 0 (s.pickedPos vf)
        ((List.range 8).flatMap (fun k => bytesLE 4 (s.rowCounter vf k))))) ∧
    (s.checkpointDue vf →
      let mine := fun (w : Workgroup) => w.vf == vf && w.ctx == s.curCtx vf
      let s1 := s.haltAll mine
      (s1.runningWgs mine).all s1.settledForSave → ∃ t, exec (.checkpoint vf) s = .next t ∧
        ((∃ c ∈ t.checkpoints, c.vf = vf ∧ c.ctx = s.curCtx vf ∧ c.taken = s1.now ∧ c.live = true ∧ (s1.runningWgs mine).map s1.savedForm <+: c.wgs) ∨
          (t.vfReg vf 0x004).getLsbD 6 = true)) ∧
    (∀ replay v, exec (.logReadIndexWrite vf replay v) s = .next (s.setVfReg vf (if replay then 0x0B8 else 0x03C) (v.setWidth 64))) ∧
    (∀ addr bytes, bytes ≠ [] →
      exec (.hostPostedWrite vf addr bytes) s = .next ((pageParts addr bytes.length).foldl (fun s x => s.hostStore vf bytes x) s))) ∧
  (∀ (s : State) (vf core slot : Nat),
    (∀ w g, s.groupOf vf core slot = some (w, g) →
      exec (.debugPark vf core slot) s = .next ((s.squashAt w g).changeGroup w g (fun g =>
        if g.park.isSome ∨ g.allRetired then g else { g with park := some .debug }.squashWait)) ∧
      exec (.debugResume vf core slot) s = .next (s.changeGroup w g (fun g => { g with park := none })) ∧
      (g.demoted ≠ 0 → exec (.debugEndDemotion vf core slot) s = .next (s.changeGroup w g (fun x =>
        if x.demos = [] then x else { x with demos := [], spinCount := if 64 ≤ x.spinCount then x.spinCount else 0 }))) ∧
      exec (.debugKill vf core slot) s = .next (s.killAt w g)) ∧
    (s.groupOf vf core slot = none → exec (.debugPark vf core slot) s = .next (s.vfErr vf 3)))

/-- R7, R8, R402 to R404: a write that sets a reserved bit, or that names a read-only register, is discarded; through a VF the registers of the
module, of partitions and of the PF's fields keep their values; a plain register takes the value written, and no other register changes; vf.err
clears the bits that are written as 1; while a partition is enabled only its p.ctl can be written. That every write is of a whole register, and
that a write of vf.root with a low bit set is discarded, are the model's choice (log entries 73, 90). -/
def Obligations.RegisterWrites : Prop :=
  ∀ (s : State) (value : Dword),
    let v := value.toNat
    let keeps := fun (viaVf : Bool) (off : Nat) => exec (.registerWrite viaVf off value) s = .next s
    (∀ viaVf off, ∃ t, exec (.registerWrite viaVf off value) s = .next t) ∧
    (∀ off, off < 0x100000 ∨ 0x140000 ≤ off → keeps true off) ∧
    (∀ vf, vf < 64 →
      (∀ o ∈ [0x000, 0x010, 0x048, 0x054], keeps true (vfBase vf + o)) ∧
      (∀ o ∈ [0x118, 0x120, 0x128], keeps true (vfBase vf + o)) ∧
      (∀ viaVf, ∀ o ∈ [0x038, 0x044, 0x074, 0x08C, 0x0B4], keeps viaVf (vfBase vf + o)) ∧
      (∀ viaVf, v % 2 ^ 8 ≠ 0 → keeps viaVf (vfBase vf + 0x008)) ∧
      (∀ viaVf, v % 2 ^ 8 = 0 → exec (.registerWrite viaVf (vfBase vf + 0x008) value) s = .next (s.setVfReg vf 0x008 value)) ∧
      (∀ viaVf, v < 0x80 → exec (.registerWrite viaVf (vfBase vf + 0x004) value) s =
        .next (s.setVfReg vf 0x004 (s.vfReg vf 0x004 &&& ~~~value))) ∧
      (v % 2 ^ 32 / 2 ^ 17 ≠ 0 → keeps false (vfBase vf + 0x054)) ∧
      (v < 2 ^ 17 → exec (.registerWrite false (vfBase vf + 0x054) value) s = .next (s.setVfReg vf 0x054 value))) ∧
    (∀ p o, p < 32 → s.partEnabled p = true → 0 < o → o < 0x1000 → keeps false (partBase p + o)) ∧
    (∀ p, p < 32 → s.partEnabled p = false →
      exec (.registerWrite false (partBase p + 0x008) value) s = .next (s.setReg (partBase p + 0x008) value)) ∧
    (∀ off, off ∈ [0x000, 0x004, 0x008, 0x00C, 0x010, 0x020, 0x104] → keeps false off) ∧
    ∀ off off' x, off' ≠ off → (s.setReg off x).reg off' = s.reg off'

/-- R119 to R147: words written out from the encoding tables decode to the operations that they stand for, one of each class. -/
def Obligations.WrittenWords : Prop :=
  let r := fun (k : Nat) => Operand.reg (BitVec.ofNat 6 k)
  let plain : Fields :=
    { pre := none, ty := .i32, dest := 0, a := r 0, b := r 0, c := r 0, mod := 0, rnd := .rne, spec := 0 }
  decode [0x10000C0C#32, 0x64000000#32] = .ok (.add { plain with dest := 12, a := r 12, b := .imm 4 }, []) ∧
  decode [0x20080706#32, 0x08000000#32] = .ok (.fAdd { plain with ty := .f32, dest := 7, a := r 6, b := r 8 }, []) ∧
  decode [0x30080A02#32, 0x00000000#32] = .ok (.cvt { plain with ty := .f32, dest := 10, a := r 2 }, []) ∧
  decode [0x4000054A#32, 0x61000000#32] = .ok (.xchLane { plain with dest := 5, a := .idx .pos, b := .imm 1 }, []) ∧
  decode [0x50030502#32, 0x66000000#32] = .ok (.ld { plain with ty := .n16, dest := 5, a := r 2, b := .imm 6 }, []) ∧
  decode [0x60000002#32, 0xF0000002#32, 0x00000080#32] =
    .ok (.qfeed { plain with a := r 2, b := .lit32 128, spec := 2 }, []) ∧
  decode [0x70800000#32, 0x00001800#32] = .ok (.fence { plain with mod := 3 }, []) ∧
  decode [0xEA100000#32, 0x80010A04#32, 0x60080000#32] =
    .ok (.atomAdd { plain with pre := some { order := .release, scope := .package, space := .priv, policy := .normal, notag := false },
                               ty := .n32, dest := 10, a := r 4, b := .imm 0, c := r 8 }, []) ∧
  decode [0x9000066F#32, 0x00000000#32] = .ok (.mres { plain with dest := 6, a := .imm 15 }, []) ∧
  decode [0xA1200000#32, 0x00000000#32] = .ok (.yield plain, []) ∧
  decode [0xB0100002#32, 0x00000006#32] = .ok (.ctlSet { plain with a := r 2, spec := 6 }, []) ∧
  decode [0xC0800000#32, 0x00000000#32] = .ok (.brk plain, []) ∧
  decode [0x00000004#32, 0x00000000#32] = .error .nodeHeader ∧ decode [0xD0000000#32, 0x00000000#32] = .error .reservedClass ∧
  decode [0xF0000000#32, 0x00000000#32] = .error .reservedClass ∧ decode [0xE0000000#32, 0xE0000000#32] = .error .badPre

/-- R119, R127, R129: the decoder reads every well-formed operation back from its parcels, whatever follows them. -/
def Obligations.EncodedIsDecoded : Prop :=
  ∀ (i : Instr) (rest : List Word), i.isOp → i.WellFormed → decode (encode i ++ rest) = .ok (i, rest)

/-- R119 to R130: what the decoder accepts is well formed, and the parcels that it took are the operation's only encoding: no bit of them is
dropped. -/
def Obligations.DecodedIsEncoded : Prop :=
  ∀ (ws rest : List Word) (i : Instr), decode ws = .ok (i, rest) → i.isOp ∧ i.WellFormed ∧ ws = encode i ++ rest

/-- R65, R66, R284: when the parcels at the position of a group's run, or of its access slice, decode to an operation, the step is that
operation's meaning with the group in issue, after the cycles that pass before it, once the code that it fetches is there; an event of the agenda is
its meaning. An access in it that has to wait leaves the state as the cycles before it did, with what has to come first (R282, R413; log entry 87), and
one that stands at the stop index of replay mode leaves it with the context stopped (R445).
Which agent moves next is the agenda's choice (log entry 1). -/
def Obligations.StepRunsDecoded : Prop :=
  ∀ (s : State) (rest : List Move) (dt core slot n : Nat) (g : Group) (is : Issue) (t : Trees) (e : FnEntry) (nd : Node) (up : List Node)
    (ws : List Nat) (i : Instr) (tail : List Word),
    let s0 := fun (w : Who) => s.before { dt := dt, who := w } rest
    let there := fun (s1 : State) (l : Lane) =>
      (s1.codePages is.w is.r l.func.toNat l.parcel).foldl (fun s k => s.visit is.w.vf is.w.ctx (k * 65536)) s1
    let stands := fun (s1 : State) (l : Lane) =>
      s1.issue? = some is ∧ (∀ k ∈ s1.codePages is.w is.r l.func.toNat l.parcel, s1.busyPage is.w.vf is.w.ctx (k * 65536) = false) ∧
      (there s1 l).readTrees is.w.vf is.w.ctx is.r.eff.image is.r.code = .ok t ∧ t.readFn l.func.toNat = .ok e ∧
      (l.parcel ≠ 0 ∨ t.fnCheck e 0 = none) ∧
      t.descend e l.parcel = (nd :: up, none) ∧ nd.p ≠ l.parcel ∧ t.opParcels e l.parcel (nd.p + nd.ext) = .ok n ∧
      t.parcels e l.parcel (min n (nd.p + nd.ext - l.parcel)) = .ok ws ∧ decode (ws.map (BitVec.ofNat 32)) = .ok (i, tail)
    let runs := fun (s0 : State) (o : Out) => step s = (match o with | .next u => .next (u.settled s0) | o => o)
    (let who : Who := .group core slot
     let s1 := (s0 who).issueAs core slot false g.run
     s.agenda = { dt := dt, who := who } :: rest → (s0 who).group? core slot = some g → g.park = none → g.run ≠ 0 →
     stands s1 (g.lane (lowest g.run)) → (is.w.stopping && notForStop i) = false →
     runs (s0 who) (exec i (there s1 (g.lane (lowest g.run))))) ∧
    (let who : Who := .access core slot
     let s1 := (s0 who).issueAs core slot true 1
     ∀ a, s.agenda = { dt := dt, who := who } :: rest → (s0 who).group? core slot = some g → g.park = none → g.acc = some a → a.ended = false →
     a.stopped = none → a.taken = none → a.lane.atStart = false → g.issued = true → g.allRetired = false → (s0 who).mayDispatch is.w = true → stands s1 a.lane →
     runs (s0 who) (exec i (there s1 a.lane))) ∧
    (∀ ev : Instr, ev.isOp = false → s.agenda = { dt := dt, who := .event ev } :: rest →
      runs (s0 (.event ev)) (exec ev (s0 (.event ev)))) ∧
    (∀ u v : State, u.held = false → u.settled v = u)

/-- Every step answers a next state: no state and no agenda stops the machine (R66; log entries 1, 78). -/
def Obligations.StepAlwaysGoes : Prop := ∀ s : State, Goes (step s)

/-- Every step keeps the canonical form of memory, of its tags and poison, and of the registers of the hub and of the contexts, and the part. -/
def Obligations.StepKeepsTables : Prop := ∀ (s t : State), s.Canonical → step s = .next t → t.Canonical ∧ t.part = s.part

/-- The state after reset is canonical. R418, R419, R404: the module is in recovery mode at boot stage 0, its clocks are nominal, and each vf.nctx
is 1; nothing runs. That the registers with no reset value in the spec read 0 is the model's choice (log entry 3), and so is what a byte of memory,
a tag and a poison mark read as before anything writes them (log entry 4). -/
def Obligations.ResetState : Prop :=
  let s := State.reset
  s.Canonical ∧ s.recovery = true ∧ s.reg 0x000 = 0 ∧ s.reg 0x00C = BitVec.ofNat 64 (3000 * 65536 + 2000) ∧ (∀ v, v < 64 → s.vfReg v 0x054 = 1) ∧
  (∀ v off, v < 64 → off < 0x1000 → off ≠ 0x054 → s.vfReg v off = 0) ∧ (∀ p off, p < 32 → off < 0x1000 → s.partReg p off = 0) ∧
  (∀ a, s.mem.look a = 0) ∧ (∀ a, s.tags.look a = 0) ∧ (∀ a, s.poison.look a = 0) ∧ s.groups = [] ∧ s.wgs = [] ∧ s.regions = []

/-- R150: an operation that fails a check of its encoding, its unit, its registers or its poison takes that fault and has no effect. R385: a domain
of policy 0 parks the group, one of policy 2 ends the region. R386: one of policy 1 starts an episode, in which the lanes stand at the handler's
first position, and c.trap shows inh 1 and act 0. R389: with act 0 the lanes that came back go on at the positions of their trap frames. Where the
frames of a trap lie is the model's choice (log entry 16). -/
def Obligations.FaultsAndHandlers : Prop :=
  (∀ (i : Instr) (s : State) (is : Issue) (h : Hit), i.isOp → s.issue? = some is → issueCheck i s is = some h →
    exec i s = .next (s.takeHit is h)) ∧
  (∀ (s : State) (core slot : Nat) (d : Delivery) (g : Group) (w : Workgroup) (r : Region), s.group? core slot = some g → s.wg? g.wg = some w →
    s.region? w.vf w.rcb = some r → d.mask ≠ 0 → d.cls ≠ .halt → d.lanes ≠ 0 → g.episode = none →
    let s1 := (s.awaitChain w r d.func (d.pos.toNat % 2 ^ 24)).count core w.vf w.ctx 0x0E 1
    let rc := deliveryRec s g w r d false
    (∀ e, s.domainFor w.vf w.ctx r.eff.domain = some (e, 0) →
      s.deliver core slot d = (s1.writeRecord w.vf w.ctx r.eff.domain rc).updGroup core slot (Group.parkFor .fault)) ∧
    (∀ e, s.domainFor w.vf w.ctx r.eff.domain = some (e, 2) →
      s.deliver core slot d = (s1.writeRecord w.vf w.ctx r.eff.domain rc).terminate r) ∧
    (∀ e, s.domainFor w.vf w.ctx r.eff.domain = some (e, 1) → canHandle (s.groupTrees w r) g r e.handler (g.maxDepth d.lanes) →
      let t := s.deliver core slot d
      t = ((s1.startEpisode g w r d e.handler rc).ringWrite w.vf w.ctx e rc).visit w.vf w.ctx (s.fnEntryVa w r e.handler) ∧
      (g.lanes.length = 32 → ∃ g', t.group? core slot = some g' ∧ g'.run = 0 ∧ g'.park = g.park ∧
        bitsOf g'.trapCtl.toNat 11 10 = 0 ∧ g'.trapCtl.getLsbD 15 = true ∧
        g'.episode = some {
          mask := d.lanes, depth := g.maxDepth d.lanes, handler := e.handler,
          starting := maskOf (fun L => d.lanes.getLsbD L && (g.lane L).atStart), isFault := decide (d.cls ≠ .softwareTrap ∧ d.cls ≠ .halt) } ∧
        ∀ L, L < 32 → g'.lane L = if d.lanes.getLsbD L then
          { g.lane L with
            pos := posWord 0 ((startParcel (s1.groupTrees w r) e.handler).getD 0), func := BitVec.ofNat 16 e.handler,
            frameBase := 8 * g.maxDepth d.lanes + 72, atStart := (startParcel (s1.groupTrees w r) e.handler).isNone }
          else g.lane L))) ∧
  (∀ (s : State) (core slot : Nat) (is : Issue) (ep : Episode),
    ({ s with cur := { s.cur with core := core, slot := slot, acc := false } }).issue? = some is → is.g.episode = some ep →
    (∀ L, L < 32 → ep.mask.getLsbD L → (is.g.lane L).life ≠ .live) → bitsOf is.g.trapCtl.toNat 11 10 = 0 → is.g.lanes.length = 32 →
    ∃ g', (s.endEpisode core slot).group? core slot = some g' ∧ g'.episode = none ∧ g'.run = 0 ∧ (s.endEpisode core slot).mem = s.mem ∧
      ∀ L, L < 32 → (is.g.lane L).life = .returned →
        let a := is.w.pa + privOff is.r.eff.lstore is.r.eff.priv is.g.grp L + 8 * ep.depth
        (g'.lane L).life = .live ∧ (g'.lane L).frameBase = 0 ∧ (g'.lane L).atStart = ep.starting.getLsbD L ∧ (g'.lane L).pos = BitVec.ofNat 32 (readLE s.mem a 4) ∧
        (g'.lane L).func = BitVec.ofNat 16 (readLE s.mem (a + 4) 4) ∧ (g'.lane L).regs = (is.g.lane L).regs)
end

