-- ==== Sys2Proof/Laws/Access.lean ====
section
/-! SUPPORT. What the shared access of memory answers: the effect where nothing holds it back, and the fault of a failed check (R228). -/

namespace Sys2Proof.Machine

variable {is : Issue} {s s1 : State} {ws : List WatchRange} {qs : List Req} {release : Bool} {scope : Scope} {sps : List Spot}
  {body : State → List Spot → Effect}

/-- An operation whose accesses reach their places does what its body says there. -/
theorem Issue.accessWith_go {more : List Touch} (h : ReachesWith s is more ws qs release scope s1 sps)
    (hp : (body s1 sps).performs = true) : is.accessWith s more ws qs release scope body = body s1 sps := by
  obtain ⟨h0, h1, h2, h3, h4, s0, h5, rfl⟩ := h
  simp only [Issue.accessWith, h1, h2]
  rw [if_neg (by simp [h0]), if_neg (by simp [h3])]
  simp only [Issue.watched, h5, h4, hp, Bool.true_or, if_true]

theorem Issue.accessOn_go (h : Reaches s is ws qs release scope s1 sps) (hp : (body s1 sps).performs = true) :
    is.accessOn s ws qs release scope body = body s1 sps :=
  Issue.accessWith_go h hp

/-- An operation whose body waits, or faults, does so in the state that nothing recorded or replayed has changed (log entry 36). -/
theorem Issue.accessWith_try {more : List Touch} (h : ReachesWith s is more ws qs release scope s1 sps)
    (hq : s.quietLog is.w.vf is.w.ctx = false) (hp : (body s1 sps).performs = false) (ht : (body (Tried s is sps) sps).performs = false) :
    is.accessWith s more ws qs release scope body = body (Tried s is sps) sps := by
  obtain ⟨h0, h1, h2, h3, h4, s0, h5, rfl⟩ := h
  simp only [Issue.accessWith, h1, h2]
  rw [if_neg (by simp [h0]), if_neg (by simp [h3])]
  unfold Tried at *
  simp only [Issue.watched, h5, h4, hp, hq, ht, Bool.or_self, Bool.false_eq_true, if_false]

/-- A fault whose turn it is comes. -/
theorem Issue.inTurn_hit {es : List ReplayEntry} {h : Hit} (ht : FaultsInTurn s is es) : is.inTurn s es h = .hit h := by
  obtain ⟨h1, h2⟩ := ht
  unfold Issue.inTurn
  split
  · rfl
  · next t hg => rw [h2 t hg, if_pos rfl]
  · next hg => exact absurd hg h1

/-- Replay mode lets every fault come where it is off. -/
theorem FaultsInTurn.of_not_playing (es : List ReplayEntry) (h : s.playing is.w.vf is.w.ctx = false) : FaultsInTurn s is es := by
  simp [FaultsInTurn, State.replayGate, h]

/-- A failed check comes before the release, the recorder and the watch units, in its turn. -/
theorem Issue.accessOn_hit {h : Hit} (ha : is.w.acquiring is.g.start s.seq = false)
    (ht : FaultsInTurn s is ((is.touches (qs.filterMap (s.spotOf is))).map (s.touchEntry is.accessor))) (hh : s.checkReqs is qs = .hit h) :
    is.accessOn s ws qs release scope body = .hit h := by
  simp only [Issue.accessOn, Issue.accessWith, ha, hh, Issue.inTurn_hit ht]; rfl

/-- An operation whose merge still owed its homes ends once they are written. -/
theorem Issue.endMerge_done {pa : Nat} {f : State → State} (hw : s.owesFolds is.g = false) (hr : s.replayFull is.accessor (touchesOf pa 8 1) = false)
    (hg : s.replayGate is.accessor.key is.w.vf is.w.ctx ((touchesOf pa 8 1).map (s.touchEntry is.accessor)) = .go s1) :
    is.endMerge s (some pa) f =
      .done ((f (s1.recordTouches is.accessor (touchesOf pa 8 1))).updGroup is.g.core is.g.slot (fun g => { g with merged := none })) true := by
  simp [Issue.endMerge, hw, hr, hg]

/-- An operation waits while an older copy of its group, whose reads are acquires, has still to read (R302). -/
theorem Issue.accessOn_acquiring (ha : is.w.acquiring is.g.start s.seq = true) : is.accessOn s ws qs release scope body = .stay s := by
  simp only [Issue.accessOn, Issue.accessWith, ha]; rfl

/-- An access with no watched range, whose effect must be whole. -/
theorem Issue.whole_done {loud : Bool} : is.whole (.done s loud) = .done s loud := rfl

end Sys2Proof.Machine
end

