-- ==== Sys2Proof/Laws/Integer.lean ====
section
/-! SUPPORT. What the element readers and the element writer of integer values do, in bits (R10, R158, R171). -/

namespace Sys2Proof

/-- The elements of a value fit in 64 bits. -/
theorem Ty.bits_elems_le (ty : Ty) : ty.bits * ty.elems ≤ 64 := by cases ty <;> decide

theorem Ty.bits_pos (ty : Ty) : 0 < ty.bits := by cases ty <;> decide

namespace Machine

theorem elemInt_eq (ty : Ty) (x : Dword) (k : Nat) :
    elemInt ty x k = if ty.signed then (x.extractLsb' (ty.bits * k) ty.bits).toInt else ((x.extractLsb' (ty.bits * k) ty.bits).toNat : Int) := by
  have hn : (x.extractLsb' (ty.bits * k) ty.bits).toNat = x.toNat / 2 ^ (ty.bits * k) % 2 ^ ty.bits := by
    simp [BitVec.extractLsb'_toNat, Nat.shiftRight_eq_div_pow]
  have hp : 2 ^ ty.bits = 2 * 2 ^ (ty.bits - 1) := by
    rw [← Nat.pow_succ']; congr 1; have := ty.bits_pos; omega
  unfold elemInt
  by_cases hs : ty.signed <;> simp only [hs, true_and, false_and, if_true, if_false, hn, Bool.false_eq_true]
  rw [BitVec.toInt_eq_toNat_cond, hn]
  split <;> split <;> first | rfl | (exfalso; omega)

/-- The running OR that builds a value keeps the elements that it has laid down and leaves the rest 0. -/
theorem ofElemInts_bit (ty : Ty) (r : Nat → Int) (n i : Nat) (hn : n ≤ ty.elems) :
    ((List.range n).foldl (fun (acc : Dword) k =>
      acc ||| BitVec.ofNat 64 ((r k % 2 ^ ty.bits).toNat * 2 ^ (ty.bits * k))) 0).getLsbD i =
      (decide (i < ty.bits * n) && (r (i / ty.bits) % 2 ^ ty.bits).toNat.testBit (i % ty.bits)) := by
  induction n with
  | zero => simp
  | succ n ih =>
    have hb := ty.bits_pos
    have h64 : ty.bits * (n + 1) ≤ 64 := le_trans (Nat.mul_le_mul_left _ hn) ty.bits_elems_le
    rw [List.range_succ, List.foldl_append, List.foldl_cons, List.foldl_nil, BitVec.getLsbD_or, ih (by omega)]
    have hlt : (r n % 2 ^ ty.bits).toNat < 2 ^ ty.bits := by
      have h1 := Int.emod_lt_of_pos (r n) (show (0 : Int) < 2 ^ ty.bits by positivity)
      have h2 := Int.emod_nonneg (r n) (show (2 : Int) ^ ty.bits ≠ 0 by positivity)
      have h3 : ((2 ^ ty.bits : Nat) : Int) = 2 ^ ty.bits := by push_cast; rfl
      omega
    simp only [BitVec.getLsbD_ofNat, Nat.testBit_mul_two_pow]
    rw [Nat.mul_succ] at h64 ⊢
    by_cases h1 : i < ty.bits * n
    · have h2 : ¬ ty.bits * n ≤ i := by omega
      simp [h1, h2]; omega
    · have hdiv : i < ty.bits * n + ty.bits → i / ty.bits = n ∧ i % ty.bits = i - ty.bits * n := fun h => by
        have : i / ty.bits = n := Nat.div_eq_of_lt_le (by rw [Nat.mul_comm]; omega) (by rw [Nat.mul_comm, Nat.mul_succ]; omega)
        exact ⟨this, by rw [Nat.mod_eq_sub_mul_div, this]⟩
      by_cases h2 : i < ty.bits * n + ty.bits
      · obtain ⟨e1, e2⟩ := hdiv h2
        have h3 : i < 64 := by omega
        have h4 : ty.bits * n ≤ i := by omega
        simp [h1, h2, h3, h4, e1, e2]
      · have h5 : (r n % 2 ^ ty.bits).toNat.testBit (i - ty.bits * n) = false :=
          Nat.testBit_lt_two_pow (lt_of_lt_of_le hlt (Nat.pow_le_pow_right (by omega) (by omega)))
        simp [h1, h2, h5]

/-- Element `k` of a written value is the result of element `k`, wrapped to the element's width. -/
theorem elem_ofElemInts (ty : Ty) (r : Nat → Int) (k : Nat) (hk : k < ty.elems) :
    (ofElemInts ty r).extractLsb' (ty.bits * k) ty.bits = BitVec.ofInt ty.bits (r k) := by
  apply BitVec.eq_of_getLsbD_eq
  intro i hi
  have hb := ty.bits_pos
  have h1 : ty.bits * k + i < ty.bits * ty.elems := by
    calc ty.bits * k + i < ty.bits * k + ty.bits := by omega
      _ = ty.bits * (k + 1) := by ring
      _ ≤ _ := Nat.mul_le_mul_left _ hk
  have h2 : (ty.bits * k + i) / ty.bits = k := by
    rw [Nat.mul_add_div hb, Nat.div_eq_of_lt hi, Nat.add_zero]
  have h3 : (ty.bits * k + i) % ty.bits = i := by rw [Nat.mul_add_mod, Nat.mod_eq_of_lt hi]
  have h4 : (BitVec.ofInt ty.bits (r k)).toNat = (r k % 2 ^ ty.bits).toNat := by
    rw [BitVec.toNat_ofInt]; push_cast; rfl
  have := ofElemInts_bit ty r ty.elems (ty.bits * k + i) le_rfl
  rw [BitVec.getLsbD_extractLsb', ← BitVec.testBit_toNat (BitVec.ofInt _ _), h4, ofElemInts, this, h2, h3]
  simp [h1, hi]

/-- A value of 64 bits written by elements is its one element. -/
theorem ofElemInts_high (ty : Ty) (r : Nat → Int) (i : Nat) (hi : ty.bits * ty.elems ≤ i) : (ofElemInts ty r).getLsbD i = false := by
  rw [ofElemInts, ofElemInts_bit ty r ty.elems i le_rfl]
  have : ¬ i < ty.bits * ty.elems := by omega
  simp [this]

end Machine
end Sys2Proof
end

