-- ==== Sys2Proof/Laws/Memory.lean ====
section
/-! SUPPORT. What the sparse tables and the bytes of memory do (R5, R10), and that every write keeps their canonical form. -/

namespace Sys2Proof

variable {w : Nat}

/-! ## Reading after writing -/

theorem Sparse.look_insert (k j : Nat) (v : BitVec w) (m : Sparse w) : (Sparse.insert k v m).look j = if k = j then v else m.look j := by
  induction m with
  | nil => simp [Sparse.insert, Sparse.look]
  | cons p m ih =>
    obtain ⟨a, u⟩ := p
    simp only [Sparse.insert]
    split
    · simp [Sparse.look]
    · split
      · rename_i h; subst h; simp only [Sparse.look]; split <;> rfl
      · rename_i h1 h2
        simp only [Sparse.look, ih]
        by_cases h3 : a = j
        · subst h3; simp [show ¬ k = a from fun h => h2 h.symm]
        · simp [h3]

theorem Sparse.look_drop (k j : Nat) (m : Sparse w) : (m.drop k).look j = if k = j then 0 else m.look j := by
  induction m with
  | nil => simp [Sparse.drop, Sparse.look]
  | cons p m ih =>
    obtain ⟨a, u⟩ := p
    simp only [Sparse.drop, List.filter_cons] at ih ⊢
    by_cases h : a = k
    · subst h
      simp only [bne_self_eq_false, Bool.false_eq_true, if_false, ih, Sparse.look]
      split <;> rfl
    · have hb : (a != k) = true := by simpa using h
      simp only [hb, if_true, Sparse.look, ih]
      by_cases h3 : a = j
      · subst h3; simp [show ¬ k = a from fun h' => h h'.symm]
      · simp [h3]

/-- A write is read back, and every other key stays. -/
theorem Sparse.look_put (m : Sparse w) (k j : Nat) (v : BitVec w) : (m.put k v).look j = if k = j then v else m.look j := by
  unfold Sparse.put
  split
  · rename_i h; rw [look_drop, h]
  · exact look_insert k j v m

theorem Sparse.look_clearRange (m : Sparse w) (a n j : Nat) :
    (m.clearRange a n).look j = if a ≤ j ∧ j < a + n then 0 else m.look j := by
  induction m with
  | nil => simp [Sparse.clearRange, Sparse.look]
  | cons p m ih =>
    obtain ⟨b, u⟩ := p
    simp only [Sparse.clearRange, List.filter_cons] at ih ⊢
    by_cases h : b < a ∨ a + n ≤ b
    · have hb : (decide (b < a) || decide (a + n ≤ b)) = true := by simpa using h
      simp only [hb, if_true, Sparse.look, ih]
      by_cases h3 : b = j
      · subst h3; simp [show ¬ (a ≤ b ∧ b < a + n) by omega]
      · simp [h3]
    · have hb : (decide (b < a) || decide (a + n ≤ b)) = false := by simp; omega
      simp only [hb, Bool.false_eq_true, if_false, ih, Sparse.look]
      by_cases h3 : b = j
      · subst h3; simp [show a ≤ b ∧ b < a + n by omega]
      · simp [h3]

theorem look_writeLE (m : Sparse 8) (a n v j : Nat) :
    (writeLE m a n v).look j = if a ≤ j ∧ j < a + n then BitVec.ofNat 8 (v / 256 ^ (j - a)) else m.look j := by
  induction n generalizing m a v with
  | zero => simp [writeLE]
  | succ n ih =>
    rw [writeLE, ih, Sparse.look_put]
    by_cases h1 : a = j
    · subst h1; simp
    · by_cases h2 : a + 1 ≤ j ∧ j < a + 1 + n
      · have h3 : a ≤ j ∧ j < a + (n + 1) := by omega
        have h4 : j - a = (j - (a + 1)) + 1 := by omega
        simp only [h2, h3, and_self, if_true]
        rw [h4, Nat.pow_succ', Nat.div_div_eq_div_mul]
      · have h3 : ¬ (a ≤ j ∧ j < a + (n + 1)) := by omega
        rw [if_neg h2, if_neg h1, if_neg h3]

theorem look_writeBytes (m : Sparse 8) (a j : Nat) (bs : List Byte) :
    (writeBytes m a bs).look j = if a ≤ j ∧ j < a + bs.length then (bs[j - a]?).getD 0 else m.look j := by
  induction bs generalizing m a with
  | nil => simp [writeBytes]
  | cons b bs ih =>
    rw [writeBytes, ih, Sparse.look_put]
    by_cases h1 : a = j
    · subst h1; simp
    · by_cases h2 : a + 1 ≤ j ∧ j < a + 1 + bs.length
      · have h3 : a ≤ j ∧ j < a + (b :: bs).length := by simp only [List.length_cons]; omega
        have h4 : j - a = (j - (a + 1)) + 1 := by omega
        simp only [h2, h3, and_self, if_true, h4, List.getElem?_cons_succ]
      · have h3 : ¬ (a ≤ j ∧ j < a + (b :: bs).length) := by simp only [List.length_cons]; omega
        rw [if_neg h2, if_neg h1, if_neg h3]

/-! ## The canonical form -/

theorem Sparse.wf_nil : Sparse.wf ([] : Sparse w) := ⟨List.Pairwise.nil, by simp⟩

/-- What is left of a table in canonical form is in canonical form. -/
theorem Sparse.wf_filter {m : Sparse w} (h : m.wf) (p : Nat × BitVec w → Bool) : Sparse.wf (m.filter p) :=
  ⟨h.1.filter p, fun q hq => h.2 q (List.mem_filter.mp hq).1⟩

theorem Sparse.wf_drop {m : Sparse w} (h : m.wf) (k : Nat) : (m.drop k).wf := Sparse.wf_filter h _

theorem Sparse.wf_clearRange {m : Sparse w} (h : m.wf) (a n : Nat) : (m.clearRange a n).wf := Sparse.wf_filter h _

theorem Sparse.mem_insert {k : Nat} {v : BitVec w} {m : Sparse w} {p : Nat × BitVec w} (h : p ∈ Sparse.insert k v m) : p = (k, v) ∨ p ∈ m := by
  induction m with
  | nil => simpa [Sparse.insert] using h
  | cons q m ih =>
    obtain ⟨a, u⟩ := q
    simp only [Sparse.insert] at h
    split at h
    · simpa using h
    · split at h
      · rcases List.mem_cons.mp h with h | h
        · exact .inl h
        · exact .inr (List.mem_cons_of_mem _ h)
      · rcases List.mem_cons.mp h with h | h
        · exact .inr (h ▸ List.mem_cons_self)
        · exact (ih h).imp id (List.mem_cons_of_mem _)

theorem Sparse.wf_insert {m : Sparse w} (h : m.wf) (k : Nat) (v : BitVec w) (hv : v ≠ 0) : Sparse.wf (Sparse.insert k v m) := by
  obtain ⟨h1, h2⟩ := h
  induction m with
  | nil => exact ⟨by simp [Sparse.insert], by simpa [Sparse.insert] using hv⟩
  | cons p m ih =>
    obtain ⟨a, u⟩ := p
    obtain ⟨ha, hm⟩ := List.pairwise_cons.mp h1
    simp only [Sparse.insert]
    split
    · rename_i hk
      refine ⟨List.pairwise_cons.mpr ⟨fun q hq => ?_, h1⟩, fun q hq => ?_⟩
      · rcases List.mem_cons.mp hq with rfl | hq
        · exact hk
        · exact Nat.lt_trans hk (ha q hq)
      · rcases List.mem_cons.mp hq with rfl | hq
        · exact hv
        · exact h2 q hq
    · split
      · rename_i hk; subst hk
        exact ⟨List.pairwise_cons.mpr ⟨ha, hm⟩, fun q hq => (List.mem_cons.mp hq).elim (fun e => e ▸ hv)
          (fun hq => h2 q (List.mem_cons_of_mem _ hq))⟩
      · rename_i hk1 hk2
        obtain ⟨i1, i2⟩ := ih hm (fun q hq => h2 q (List.mem_cons_of_mem _ hq))
        refine ⟨List.pairwise_cons.mpr ⟨fun q hq => ?_, i1⟩, fun q hq => ?_⟩
        · rcases Sparse.mem_insert hq with rfl | hq
          · show a < k; omega
          · exact ha q hq
        · rcases List.mem_cons.mp hq with rfl | hq
          · exact h2 _ List.mem_cons_self
          · exact i2 q hq

theorem Sparse.wf_put {m : Sparse w} (h : m.wf) (k : Nat) (v : BitVec w) : (m.put k v).wf := by
  unfold Sparse.put
  split
  · exact Sparse.wf_drop h k
  · rename_i hv; exact Sparse.wf_insert h k v hv

theorem Sparse.wf_foldl {α : Type} (f : Sparse w → α → Sparse w) (hf : ∀ m x, m.wf → (f m x).wf) (l : List α) {m : Sparse w} (h : m.wf) :
    (l.foldl f m).wf := by
  induction l generalizing m with
  | nil => exact h
  | cons x l ih => exact ih (hf m x h)

theorem Sparse.wf_paste {m : Sparse w} (h : m.wf) (a n : Nat) (t : Sparse w) : (m.paste a n t).wf :=
  Sparse.wf_foldl _ (fun m x hm => by split; exacts [Sparse.wf_put hm _ _, hm]) t (Sparse.wf_clearRange h a n)

theorem wf_writeLE {m : Sparse 8} (h : m.wf) (a n v : Nat) : (writeLE m a n v).wf := by
  induction n generalizing m a v with
  | zero => exact h
  | succ n ih => exact ih (Sparse.wf_put h a _) _ _

theorem wf_writeBytes {m : Sparse 8} (h : m.wf) (a : Nat) (bs : List Byte) : (writeBytes m a bs).wf := by
  induction bs generalizing m a with
  | nil => exact h
  | cons b bs ih => exact ih (Sparse.wf_put h a b) _

theorem wf_markEntry {m : Sparse 8} (h : m.wf) (bit pa : Nat) : Sparse.wf (Machine.markEntry m bit pa) := by
  simp only [Machine.markEntry]
  split
  · exact h
  · exact wf_writeLE h _ _ _

theorem wf_setLeaf {m : Sparse 8} (h : m.wf) (pa tier frame : Nat) : Sparse.wf (Machine.setLeaf m pa tier frame) := wf_writeLE h _ _ _

/-- A listed key reads its listed value. -/
theorem Sparse.look_of_mem {m : Sparse w} (hm : m.wf) {p : Nat × BitVec w} (hp : p ∈ m) : m.look p.1 = p.2 := by
  induction m with
  | nil => cases hp
  | cons q m ih =>
    obtain ⟨a, u⟩ := q
    obtain ⟨ha, hm'⟩ := List.pairwise_cons.mp hm.1
    rcases List.mem_cons.mp hp with rfl | hp
    · simp [Sparse.look]
    · have := ha p hp
      simp only [Sparse.look, if_neg (Nat.ne_of_lt this)]
      exact ih ⟨hm', fun q hq => hm.2 q (List.mem_cons_of_mem _ hq)⟩ hp

/-- A key that is not listed reads 0. -/
theorem Sparse.look_of_not_mem {m : Sparse w} {k : Nat} (hk : ∀ p ∈ m, p.1 ≠ k) : m.look k = 0 := by
  induction m with
  | nil => rfl
  | cons q m ih =>
    obtain ⟨a, u⟩ := q
    simp only [Sparse.look, if_neg (hk _ List.mem_cons_self)]
    exact ih (fun p hp => hk p (List.mem_cons_of_mem _ hp))

/-- Two tables in canonical form that read the same are the same. -/
theorem Sparse.ext_of_look {m n : Sparse w} (hm : m.wf) (hn : n.wf) (h : ∀ k, m.look k = n.look k) : m = n := by
  have key : ∀ {m n : Sparse w}, m.wf → n.wf → (∀ k, m.look k = n.look k) → ∀ p ∈ m, p ∈ n := by
    intro m n hm hn h p hp
    by_contra hc
    have h1 : n.look p.1 = p.2 := by rw [← h, Sparse.look_of_mem hm hp]
    by_cases hq : ∀ q ∈ n, q.1 ≠ p.1
    · rw [Sparse.look_of_not_mem hq] at h1; exact hm.2 p hp h1.symm
    · push Not at hq
      obtain ⟨q, hq, e⟩ := hq
      have h2 := Sparse.look_of_mem hn hq
      rw [e, h1] at h2
      exact hc ((Prod.ext e.symm h2 : p = q) ▸ hq)
  have sorted : ∀ {m : Sparse w}, m.wf → m.Pairwise (fun p q => p.1 < q.1) := fun h => h.1
  refine List.Perm.eq_of_pairwise (le := fun p q => p.1 < q.1) (fun a b _ _ h1 h2 => absurd h1 (by omega)) (sorted hm) (sorted hn)
    ((List.perm_ext_iff_of_nodup ?_ ?_).mpr (fun p => ⟨key hm hn h p, key hn hm (fun k => (h k).symm) p⟩))
  · exact hm.1.imp (fun h e => by subst e; omega)
  · exact hn.1.imp (fun h e => by subst e; omega)

namespace Machine

/-- Memory, tables of the hub and of the contexts, and what they are indexed by, after a reset. -/
theorem State.canonical_reset : State.reset.Canonical := by
  refine ⟨Sparse.wf_nil, Sparse.wf_nil, Sparse.wf_nil, ?_, Sparse.wf_nil⟩
  show Sparse.wf resetRegs
  exact ⟨by decide +kernel, by decide +kernel⟩

end Machine
end Sys2Proof
end

