-- ==== Sys2Proof/Laws/Keeps.lean ====
section
/-! SUPPORT. The writes that every other update of the state is made of keep the canonical form of its tables, and so does each update that
leaves those tables as they are. -/

namespace Sys2Proof.Machine

variable {s t : State}

/-- An update that leaves the five tables as they are. -/
theorem State.Canonical.congr (h : s.Canonical) (h1 : t.mem = s.mem) (h2 : t.tags = s.tags) (h3 : t.poison = s.poison) (h4 : t.regs = s.regs)
    (h5 : t.cxRegs = s.cxRegs) : t.Canonical := by
  unfold State.Canonical; rw [h1, h2, h3, h4, h5]; exact h

theorem State.Canonical.withMem (h : s.Canonical) {m : Memory} (hm : m.wf) : State.Canonical { s with mem := m } := ⟨hm, h.2⟩

theorem State.Canonical.withTags (h : s.Canonical) {m : Sparse 4} (hm : m.wf) : State.Canonical { s with tags := m } := ⟨h.1, hm, h.2.2⟩

theorem State.Canonical.withPoison (h : s.Canonical) {m : Sparse 1} (hm : m.wf) : State.Canonical { s with poison := m } :=
  ⟨h.1, h.2.1, hm, h.2.2.2⟩

/-- Folding updates that each keep the form keeps it. -/
theorem State.Canonical.foldl {α : Type} (f : State → α → State) (hf : ∀ s x, s.Canonical → (f s x).Canonical) (l : List α) (h : s.Canonical) :
    (l.foldl f s).Canonical := by
  induction l generalizing s with
  | nil => exact h
  | cons x xs ih => exact ih (hf _ _ h)

theorem State.Canonical.setReg (h : s.Canonical) (off : Nat) (v : Dword) : (s.setReg off v).Canonical :=
  ⟨h.1, h.2.1, h.2.2.1, Sparse.wf_put h.2.2.2.1 _ _, h.2.2.2.2⟩

theorem State.Canonical.setVfReg (h : s.Canonical) (vf off : Nat) (v : Dword) : (s.setVfReg vf off v).Canonical := h.setReg _ _

theorem State.Canonical.vfErr (h : s.Canonical) (vf b : Nat) : (s.vfErr vf b).Canonical := h.setReg _ _

theorem State.Canonical.setCxReg (h : s.Canonical) (vf ctx off : Nat) (v : Dword) : (s.setCxReg vf ctx off v).Canonical :=
  ⟨h.1, h.2.1, h.2.2.1, h.2.2.2.1, Sparse.wf_put h.2.2.2.2 _ _⟩

theorem State.Canonical.wake (h : s.Canonical) (pa n : Nat) : (s.wake pa n).Canonical := h.congr rfl rfl rfl rfl rfl

theorem State.Canonical.storeLE (h : s.Canonical) (pa n v : Nat) : (s.storeLE pa n v).Canonical :=
  (h.withMem (wf_writeLE h.1 pa n v)).wake _ _

theorem State.Canonical.storeBytes (h : s.Canonical) (pa : Nat) (bs : List Byte) : (s.storeBytes pa bs).Canonical :=
  (h.withMem (wf_writeBytes h.1 pa bs)).wake _ _

theorem State.Canonical.unpoison (h : s.Canonical) (pa n : Nat) : (s.unpoison pa n).Canonical :=
  h.withPoison (Sparse.wf_filter h.2.2.1 _)

theorem State.Canonical.zeroMem (h : s.Canonical) (pa n : Nat) : (s.zeroMem pa n).Canonical :=
  ⟨Sparse.wf_clearRange h.1 _ _, Sparse.wf_clearRange h.2.1 _ _, Sparse.wf_clearRange h.2.2.1 _ _, h.2.2.2⟩

theorem State.Canonical.setTag (h : s.Canonical) (g : Nat) (t : BitVec 4) : (s.setTag g t).Canonical :=
  (h.withTags (Sparse.wf_put h.2.1 g t)).wake _ _

theorem State.Canonical.updGroup (h : s.Canonical) (core slot : Nat) (f : Group → Group) : (s.updGroup core slot f).Canonical :=
  h.congr rfl rfl rfl rfl rfl

theorem State.Canonical.updWg (h : s.Canonical) (id : Nat) (f : Workgroup → Workgroup) : (s.updWg id f).Canonical :=
  h.congr rfl rfl rfl rfl rfl

theorem State.Canonical.updRegion (h : s.Canonical) (vf rcb : Nat) (f : Region → Region) : (s.updRegion vf rcb f).Canonical :=
  h.congr rfl rfl rfl rfl rfl

theorem State.Canonical.putEngine (h : s.Canonical) (e : Engine) : (s.putEngine e).Canonical := h.congr rfl rfl rfl rfl rfl

theorem State.Canonical.toOwner (h : s.Canonical) (core slot start : Nat) (f : Group → Group) : (s.toOwner core slot start f).Canonical :=
  h.congr rfl rfl rfl rfl rfl

theorem State.Canonical.flagsToOwner (h : s.Canonical) (core slot start : Nat) (fl : BitVec 5) :
    (s.flagsToOwner core slot start fl).Canonical := h.toOwner _ _ _ _

theorem State.Canonical.takeFree (h : s.Canonical) : s.takeFree.2.Canonical := h.congr rfl rfl rfl rfl rfl

theorem State.Canonical.takeBit (h : s.Canonical) : s.takeBit.2.Canonical := h.congr rfl rfl rfl rfl rfl

end Sys2Proof.Machine
end

