-- ==== Sys2Proof/Laws/Ops.lean ====
section
/-! SUPPORT. How an operation ends: one law for each effect that a meaning can answer with (R52, R78, R83, R150, R230). -/

namespace Sys2Proof.Machine

variable {i : Instr} {s s' : State} {is : Issue} {body : Issue → Effect}

/-- An operation that fails a check of R150 takes the fault and does nothing else. -/
theorem runOp_check {h : Hit} (h1 : s.issue? = some is) (h2 : issueCheck i s is = some h) : runOp i s body = .next (s.takeHit is h) := by
  simp [runOp, h1, h2]

/-- An operation that passes the checks does what its body says. -/
theorem runOp_body (h1 : s.issue? = some is) (h2 : issueCheck i s is = none) : runOp i s body = .next (s.finish is i (body is)) := by
  simp [runOp, h1, h2]

theorem runOp_done {loud : Bool} (h1 : s.issue? = some is) (h2 : issueCheck i s is = none) (h3 : body is = .done s' loud) :
    runOp i s body = .next (s'.retire is i loud (fun _ => .succ)) := by
  simp [runOp, h1, h2, h3, State.finish]

theorem runOp_leave {k : Nat → LeaveKind} (h1 : s.issue? = some is) (h2 : issueCheck i s is = none) (h3 : body is = .leave s' k) :
    runOp i s body = .next (s'.retire is i false k) := by
  simp [runOp, h1, h2, h3, State.finish]

theorem runOp_hit {h : Hit} (h1 : s.issue? = some is) (h2 : issueCheck i s is = none) (h3 : body is = .hit h) :
    runOp i s body = .next (s.takeHit is h) := by
  simp [runOp, h1, h2, h3, State.finish]

theorem runOp_taken {h : Hit} (h1 : s.issue? = some is) (h2 : issueCheck i s is = none) (h3 : body is = .taken s' h) :
    runOp i s body = .next (s'.takeHit (is.refresh s') h) := by
  simp [runOp, h1, h2, h3, State.finish]

theorem runOp_trap {cls : FaultClass} {addr : Dword} (h1 : s.issue? = some is) (h2 : issueCheck i s is = none)
    (h3 : body is = .trap s' cls addr) : runOp i s body = .next (s'.retireTrap is i cls addr) := by
  simp [runOp, h1, h2, h3, State.finish]

theorem runOp_wait {w : Wait} (h1 : s.issue? = some is) (h2 : issueCheck i s is = none) (h3 : body is = .wait s' w) :
    runOp i s body = .next (s'.updGroup is.g.core is.g.slot (fun g => { g with wait := some (w.since (is.oldWait g)) })) := by
  simp [runOp, h1, h2, h3, State.finish]

theorem runOp_queued {w : Wait} (h1 : s.issue? = some is) (h2 : issueCheck i s is = none) (h3 : body is = .queued s' w) :
    runOp i s body = .next (s'.updGroup is.g.core is.g.slot (fun g => { g with wait := some (w.since (is.oldWait g)) })) := by
  simp [runOp, h1, h2, h3, State.finish]

theorem runOp_stay (h1 : s.issue? = some is) (h2 : issueCheck i s is = none) (h3 : body is = .stay s') : runOp i s body = .next s' := by
  simp [runOp, h1, h2, h3, State.finish]

/-- An operation in issue always answers a next state. -/
theorem runOp_next (h1 : s.issue? = some is) : ∃ t, runOp i s body = .next t := by
  simp only [runOp, h1]
  split <;> exact ⟨_, rfl⟩

/-- The only other answer names the missing group. -/
theorem runOp_none (h1 : s.issue? = none) : runOp i s body = .fault .noGroupInIssue := by
  simp [runOp, h1]

end Sys2Proof.Machine
end

