-- ==== Sys2Proof/Laws/Registers.lean ====
section
/-! SUPPORT. Which block a write of the register space reaches (R402, R404, R428). -/

namespace Sys2Proof.Machine

/-- A write into the block of a VF reaches the context window or the block's own registers. -/
theorem State.writeRegister_vf (s : State) (viaVf : Bool) {vf o : Nat} (v : Dword) (hv : vf < 64) (ho : o < 0x1000) :
    s.writeRegister viaVf (vfBase vf + o) v =
      if 0x100 ≤ o ∧ o < 0x140 then s.writeWindow viaVf vf o v.toNat else s.writeVf viaVf vf o v.toNat := by
  unfold State.writeRegister
  have h1 : (0x100000 ≤ vfBase vf + o ∧ vfBase vf + o < 0x140000) := by simp [vfBase]; omega
  have h2 : (vfBase vf + o - 0x100000) / 0x1000 = vf := by simp [vfBase]; omega
  have h3 : (vfBase vf + o) % 0x1000 = o := by simp [vfBase]; omega
  simp only [h1, if_true, h2, h3, and_self]

/-- A write of the PF into the block of a partition. -/
theorem State.writeRegister_part (s : State) {p o : Nat} (v : Dword) (hp : p < 32) (ho : o < 0x1000) :
    s.writeRegister false (partBase p + o) v = s.writePart p o v.toNat := by
  unfold State.writeRegister
  have h1 : ¬ (0x100000 ≤ partBase p + o ∧ partBase p + o < 0x140000) := by simp [partBase]; omega
  have h2 : (0x10000 ≤ partBase p + o ∧ partBase p + o < 0x30000) := by simp [partBase]; omega
  have h3 : (partBase p + o - 0x10000) / 0x1000 = p := by simp [partBase]; omega
  have h4 : (partBase p + o) % 0x1000 = o := by simp [partBase]; omega
  rw [if_neg h1, if_neg (by simp), if_pos h2, h3, h4]

/-- A write through a VF outside the VF blocks keeps every register. -/
theorem State.writeRegister_viaVf (s : State) {off : Nat} (v : Dword) (h : off < 0x100000 ∨ 0x140000 ≤ off) :
    s.writeRegister true off v = s := by
  unfold State.writeRegister
  rw [if_neg (by omega)]; simp

end Sys2Proof.Machine
end

