-- ==== Sys2Proof/Laws/State.lean ====
section
/-! SUPPORT. One law for each field of the state that a shared update leaves as it is, and for each field that it changes. -/

namespace Sys2Proof.Machine

variable (s : State)

@[simp] theorem State.setReg_part (off : Nat) (v : Dword) : (s.setReg off v).part = s.part := rfl
@[simp] theorem State.setReg_mem (off : Nat) (v : Dword) : (s.setReg off v).mem = s.mem := rfl
@[simp] theorem State.setReg_tags (off : Nat) (v : Dword) : (s.setReg off v).tags = s.tags := rfl
@[simp] theorem State.setReg_poison (off : Nat) (v : Dword) : (s.setReg off v).poison = s.poison := rfl
@[simp] theorem State.setReg_regs (off : Nat) (v : Dword) : (s.setReg off v).regs = s.regs.put off v := rfl
@[simp] theorem State.setReg_cxRegs (off : Nat) (v : Dword) : (s.setReg off v).cxRegs = s.cxRegs := rfl
@[simp] theorem State.setReg_groups (off : Nat) (v : Dword) : (s.setReg off v).groups = s.groups := rfl
@[simp] theorem State.setReg_wgs (off : Nat) (v : Dword) : (s.setReg off v).wgs = s.wgs := rfl
@[simp] theorem State.setReg_engines (off : Nat) (v : Dword) : (s.setReg off v).engines = s.engines := rfl
@[simp] theorem State.setReg_regions (off : Nat) (v : Dword) : (s.setReg off v).regions = s.regions := rfl
@[simp] theorem State.setReg_posted (off : Nat) (v : Dword) : (s.setReg off v).posted = s.posted := rfl
@[simp] theorem State.setReg_latchQs (off : Nat) (v : Dword) : (s.setReg off v).latchQs = s.latchQs := rfl
@[simp] theorem State.setReg_bindings (off : Nat) (v : Dword) : (s.setReg off v).bindings = s.bindings := rfl
@[simp] theorem State.setReg_shadows (off : Nat) (v : Dword) : (s.setReg off v).shadows = s.shadows := rfl
@[simp] theorem State.setReg_tlb (off : Nat) (v : Dword) : (s.setReg off v).tlb = s.tlb := rfl
@[simp] theorem State.setReg_moves (off : Nat) (v : Dword) : (s.setReg off v).moves = s.moves := rfl
@[simp] theorem State.setReg_slots (off : Nat) (v : Dword) : (s.setReg off v).slots = s.slots := rfl
@[simp] theorem State.setReg_cur (off : Nat) (v : Dword) : (s.setReg off v).cur = s.cur := rfl
@[simp] theorem State.setReg_agenda (off : Nat) (v : Dword) : (s.setReg off v).agenda = s.agenda := rfl
@[simp] theorem State.setReg_now (off : Nat) (v : Dword) : (s.setReg off v).now = s.now := rfl
@[simp] theorem State.setReg_fresh (off : Nat) (v : Dword) : (s.setReg off v).fresh = s.fresh := rfl
@[simp] theorem State.setReg_seq (off : Nat) (v : Dword) : (s.setReg off v).seq = s.seq := rfl
@[simp] theorem State.setReg_held (off : Nat) (v : Dword) : (s.setReg off v).held = s.held := rfl
@[simp] theorem State.setReg_wants (off : Nat) (v : Dword) : (s.setReg off v).wants = s.wants := rfl
@[simp] theorem State.setReg_halts (off : Nat) (v : Dword) : (s.setReg off v).halts = s.halts := rfl
@[simp] theorem State.setReg_turns (off : Nat) (v : Dword) : (s.setReg off v).turns = s.turns := rfl
@[simp] theorem State.setReg_downs (off : Nat) (v : Dword) : (s.setReg off v).downs = s.downs := rfl
@[simp] theorem State.setReg_recent (off : Nat) (v : Dword) : (s.setReg off v).recent = s.recent := rfl
@[simp] theorem State.setReg_fills (off : Nat) (v : Dword) : (s.setReg off v).fills = s.fills := rfl

@[simp] theorem State.setVfReg_part (vf off : Nat) (v : Dword) : (s.setVfReg vf off v).part = s.part := rfl
@[simp] theorem State.setVfReg_mem (vf off : Nat) (v : Dword) : (s.setVfReg vf off v).mem = s.mem := rfl
@[simp] theorem State.setVfReg_tags (vf off : Nat) (v : Dword) : (s.setVfReg vf off v).tags = s.tags := rfl
@[simp] theorem State.setVfReg_poison (vf off : Nat) (v : Dword) : (s.setVfReg vf off v).poison = s.poison := rfl
@[simp] theorem State.setVfReg_regs (vf off : Nat) (v : Dword) : (s.setVfReg vf off v).regs = s.regs.put (vfBase vf + off) v := rfl
@[simp] theorem State.setVfReg_cxRegs (vf off : Nat) (v : Dword) : (s.setVfReg vf off v).cxRegs = s.cxRegs := rfl
@[simp] theorem State.setVfReg_groups (vf off : Nat) (v : Dword) : (s.setVfReg vf off v).groups = s.groups := rfl
@[simp] theorem State.setVfReg_wgs (vf off : Nat) (v : Dword) : (s.setVfReg vf off v).wgs = s.wgs := rfl
@[simp] theorem State.setVfReg_engines (vf off : Nat) (v : Dword) : (s.setVfReg vf off v).engines = s.engines := rfl
@[simp] theorem State.setVfReg_regions (vf off : Nat) (v : Dword) : (s.setVfReg vf off v).regions = s.regions := rfl
@[simp] theorem State.setVfReg_posted (vf off : Nat) (v : Dword) : (s.setVfReg vf off v).posted = s.posted := rfl
@[simp] theorem State.setVfReg_latchQs (vf off : Nat) (v : Dword) : (s.setVfReg vf off v).latchQs = s.latchQs := rfl
@[simp] theorem State.setVfReg_bindings (vf off : Nat) (v : Dword) : (s.setVfReg vf off v).bindings = s.bindings := rfl
@[simp] theorem State.setVfReg_shadows (vf off : Nat) (v : Dword) : (s.setVfReg vf off v).shadows = s.shadows := rfl
@[simp] theorem State.setVfReg_tlb (vf off : Nat) (v : Dword) : (s.setVfReg vf off v).tlb = s.tlb := rfl
@[simp] theorem State.setVfReg_moves (vf off : Nat) (v : Dword) : (s.setVfReg vf off v).moves = s.moves := rfl
@[simp] theorem State.setVfReg_slots (vf off : Nat) (v : Dword) : (s.setVfReg vf off v).slots = s.slots := rfl
@[simp] theorem State.setVfReg_cur (vf off : Nat) (v : Dword) : (s.setVfReg vf off v).cur = s.cur := rfl
@[simp] theorem State.setVfReg_agenda (vf off : Nat) (v : Dword) : (s.setVfReg vf off v).agenda = s.agenda := rfl
@[simp] theorem State.setVfReg_now (vf off : Nat) (v : Dword) : (s.setVfReg vf off v).now = s.now := rfl
@[simp] theorem State.setVfReg_fresh (vf off : Nat) (v : Dword) : (s.setVfReg vf off v).fresh = s.fresh := rfl
@[simp] theorem State.setVfReg_seq (vf off : Nat) (v : Dword) : (s.setVfReg vf off v).seq = s.seq := rfl
@[simp] theorem State.setVfReg_held (vf off : Nat) (v : Dword) : (s.setVfReg vf off v).held = s.held := rfl
@[simp] theorem State.setVfReg_wants (vf off : Nat) (v : Dword) : (s.setVfReg vf off v).wants = s.wants := rfl
@[simp] theorem State.setVfReg_halts (vf off : Nat) (v : Dword) : (s.setVfReg vf off v).halts = s.halts := rfl
@[simp] theorem State.setVfReg_turns (vf off : Nat) (v : Dword) : (s.setVfReg vf off v).turns = s.turns := rfl
@[simp] theorem State.setVfReg_downs (vf off : Nat) (v : Dword) : (s.setVfReg vf off v).downs = s.downs := rfl
@[simp] theorem State.setVfReg_recent (vf off : Nat) (v : Dword) : (s.setVfReg vf off v).recent = s.recent := rfl
@[simp] theorem State.setVfReg_fills (vf off : Nat) (v : Dword) : (s.setVfReg vf off v).fills = s.fills := rfl

@[simp] theorem State.setCxReg_part (vf ctx off : Nat) (v : Dword) : (s.setCxReg vf ctx off v).part = s.part := rfl
@[simp] theorem State.setCxReg_mem (vf ctx off : Nat) (v : Dword) : (s.setCxReg vf ctx off v).mem = s.mem := rfl
@[simp] theorem State.setCxReg_tags (vf ctx off : Nat) (v : Dword) : (s.setCxReg vf ctx off v).tags = s.tags := rfl
@[simp] theorem State.setCxReg_poison (vf ctx off : Nat) (v : Dword) : (s.setCxReg vf ctx off v).poison = s.poison := rfl
@[simp] theorem State.setCxReg_regs (vf ctx off : Nat) (v : Dword) : (s.setCxReg vf ctx off v).regs = s.regs := rfl
@[simp] theorem State.setCxReg_cxRegs (vf ctx off : Nat) (v : Dword) : (s.setCxReg vf ctx off v).cxRegs = s.cxRegs.put (cxKey vf ctx off) v := rfl
@[simp] theorem State.setCxReg_groups (vf ctx off : Nat) (v : Dword) : (s.setCxReg vf ctx off v).groups = s.groups := rfl
@[simp] theorem State.setCxReg_wgs (vf ctx off : Nat) (v : Dword) : (s.setCxReg vf ctx off v).wgs = s.wgs := rfl
@[simp] theorem State.setCxReg_engines (vf ctx off : Nat) (v : Dword) : (s.setCxReg vf ctx off v).engines = s.engines := rfl
@[simp] theorem State.setCxReg_regions (vf ctx off : Nat) (v : Dword) : (s.setCxReg vf ctx off v).regions = s.regions := rfl
@[simp] theorem State.setCxReg_posted (vf ctx off : Nat) (v : Dword) : (s.setCxReg vf ctx off v).posted = s.posted := rfl
@[simp] theorem State.setCxReg_latchQs (vf ctx off : Nat) (v : Dword) : (s.setCxReg vf ctx off v).latchQs = s.latchQs := rfl
@[simp] theorem State.setCxReg_bindings (vf ctx off : Nat) (v : Dword) : (s.setCxReg vf ctx off v).bindings = s.bindings := rfl
@[simp] theorem State.setCxReg_shadows (vf ctx off : Nat) (v : Dword) : (s.setCxReg vf ctx off v).shadows = s.shadows := rfl
@[simp] theorem State.setCxReg_tlb (vf ctx off : Nat) (v : Dword) : (s.setCxReg vf ctx off v).tlb = s.tlb := rfl
@[simp] theorem State.setCxReg_moves (vf ctx off : Nat) (v : Dword) : (s.setCxReg vf ctx off v).moves = s.moves := rfl
@[simp] theorem State.setCxReg_slots (vf ctx off : Nat) (v : Dword) : (s.setCxReg vf ctx off v).slots = s.slots := rfl
@[simp] theorem State.setCxReg_cur (vf ctx off : Nat) (v : Dword) : (s.setCxReg vf ctx off v).cur = s.cur := rfl
@[simp] theorem State.setCxReg_agenda (vf ctx off : Nat) (v : Dword) : (s.setCxReg vf ctx off v).agenda = s.agenda := rfl
@[simp] theorem State.setCxReg_now (vf ctx off : Nat) (v : Dword) : (s.setCxReg vf ctx off v).now = s.now := rfl
@[simp] theorem State.setCxReg_fresh (vf ctx off : Nat) (v : Dword) : (s.setCxReg vf ctx off v).fresh = s.fresh := rfl
@[simp] theorem State.setCxReg_seq (vf ctx off : Nat) (v : Dword) : (s.setCxReg vf ctx off v).seq = s.seq := rfl
@[simp] theorem State.setCxReg_held (vf ctx off : Nat) (v : Dword) : (s.setCxReg vf ctx off v).held = s.held := rfl
@[simp] theorem State.setCxReg_wants (vf ctx off : Nat) (v : Dword) : (s.setCxReg vf ctx off v).wants = s.wants := rfl
@[simp] theorem State.setCxReg_halts (vf ctx off : Nat) (v : Dword) : (s.setCxReg vf ctx off v).halts = s.halts := rfl
@[simp] theorem State.setCxReg_turns (vf ctx off : Nat) (v : Dword) : (s.setCxReg vf ctx off v).turns = s.turns := rfl
@[simp] theorem State.setCxReg_downs (vf ctx off : Nat) (v : Dword) : (s.setCxReg vf ctx off v).downs = s.downs := rfl
@[simp] theorem State.setCxReg_recent (vf ctx off : Nat) (v : Dword) : (s.setCxReg vf ctx off v).recent = s.recent := rfl
@[simp] theorem State.setCxReg_fills (vf ctx off : Nat) (v : Dword) : (s.setCxReg vf ctx off v).fills = s.fills := rfl

@[simp] theorem State.vfErr_part (vf b : Nat) : (s.vfErr vf b).part = s.part := rfl
@[simp] theorem State.vfErr_mem (vf b : Nat) : (s.vfErr vf b).mem = s.mem := rfl
@[simp] theorem State.vfErr_tags (vf b : Nat) : (s.vfErr vf b).tags = s.tags := rfl
@[simp] theorem State.vfErr_poison (vf b : Nat) : (s.vfErr vf b).poison = s.poison := rfl
@[simp] theorem State.vfErr_cxRegs (vf b : Nat) : (s.vfErr vf b).cxRegs = s.cxRegs := rfl
@[simp] theorem State.vfErr_groups (vf b : Nat) : (s.vfErr vf b).groups = s.groups := rfl
@[simp] theorem State.vfErr_wgs (vf b : Nat) : (s.vfErr vf b).wgs = s.wgs := rfl
@[simp] theorem State.vfErr_engines (vf b : Nat) : (s.vfErr vf b).engines = s.engines := rfl
@[simp] theorem State.vfErr_regions (vf b : Nat) : (s.vfErr vf b).regions = s.regions := rfl
@[simp] theorem State.vfErr_posted (vf b : Nat) : (s.vfErr vf b).posted = s.posted := rfl
@[simp] theorem State.vfErr_latchQs (vf b : Nat) : (s.vfErr vf b).latchQs = s.latchQs := rfl
@[simp] theorem State.vfErr_bindings (vf b : Nat) : (s.vfErr vf b).bindings = s.bindings := rfl
@[simp] theorem State.vfErr_shadows (vf b : Nat) : (s.vfErr vf b).shadows = s.shadows := rfl
@[simp] theorem State.vfErr_tlb (vf b : Nat) : (s.vfErr vf b).tlb = s.tlb := rfl
@[simp] theorem State.vfErr_moves (vf b : Nat) : (s.vfErr vf b).moves = s.moves := rfl
@[simp] theorem State.vfErr_slots (vf b : Nat) : (s.vfErr vf b).slots = s.slots := rfl
@[simp] theorem State.vfErr_cur (vf b : Nat) : (s.vfErr vf b).cur = s.cur := rfl
@[simp] theorem State.vfErr_agenda (vf b : Nat) : (s.vfErr vf b).agenda = s.agenda := rfl
@[simp] theorem State.vfErr_now (vf b : Nat) : (s.vfErr vf b).now = s.now := rfl
@[simp] theorem State.vfErr_fresh (vf b : Nat) : (s.vfErr vf b).fresh = s.fresh := rfl
@[simp] theorem State.vfErr_seq (vf b : Nat) : (s.vfErr vf b).seq = s.seq := rfl
@[simp] theorem State.vfErr_held (vf b : Nat) : (s.vfErr vf b).held = s.held := rfl
@[simp] theorem State.vfErr_wants (vf b : Nat) : (s.vfErr vf b).wants = s.wants := rfl
@[simp] theorem State.vfErr_halts (vf b : Nat) : (s.vfErr vf b).halts = s.halts := rfl
@[simp] theorem State.vfErr_turns (vf b : Nat) : (s.vfErr vf b).turns = s.turns := rfl
@[simp] theorem State.vfErr_downs (vf b : Nat) : (s.vfErr vf b).downs = s.downs := rfl
@[simp] theorem State.vfErr_recent (vf b : Nat) : (s.vfErr vf b).recent = s.recent := rfl
@[simp] theorem State.vfErr_fills (vf b : Nat) : (s.vfErr vf b).fills = s.fills := rfl

@[simp] theorem State.setBit_part (off n : Nat) (v : Bool) : (s.setBit off n v).part = s.part := rfl
@[simp] theorem State.setBit_mem (off n : Nat) (v : Bool) : (s.setBit off n v).mem = s.mem := rfl
@[simp] theorem State.setBit_tags (off n : Nat) (v : Bool) : (s.setBit off n v).tags = s.tags := rfl
@[simp] theorem State.setBit_poison (off n : Nat) (v : Bool) : (s.setBit off n v).poison = s.poison := rfl
@[simp] theorem State.setBit_cxRegs (off n : Nat) (v : Bool) : (s.setBit off n v).cxRegs = s.cxRegs := rfl
@[simp] theorem State.setBit_groups (off n : Nat) (v : Bool) : (s.setBit off n v).groups = s.groups := rfl
@[simp] theorem State.setBit_wgs (off n : Nat) (v : Bool) : (s.setBit off n v).wgs = s.wgs := rfl
@[simp] theorem State.setBit_engines (off n : Nat) (v : Bool) : (s.setBit off n v).engines = s.engines := rfl
@[simp] theorem State.setBit_regions (off n : Nat) (v : Bool) : (s.setBit off n v).regions = s.regions := rfl
@[simp] theorem State.setBit_posted (off n : Nat) (v : Bool) : (s.setBit off n v).posted = s.posted := rfl
@[simp] theorem State.setBit_latchQs (off n : Nat) (v : Bool) : (s.setBit off n v).latchQs = s.latchQs := rfl
@[simp] theorem State.setBit_bindings (off n : Nat) (v : Bool) : (s.setBit off n v).bindings = s.bindings := rfl
@[simp] theorem State.setBit_shadows (off n : Nat) (v : Bool) : (s.setBit off n v).shadows = s.shadows := rfl
@[simp] theorem State.setBit_tlb (off n : Nat) (v : Bool) : (s.setBit off n v).tlb = s.tlb := rfl
@[simp] theorem State.setBit_moves (off n : Nat) (v : Bool) : (s.setBit off n v).moves = s.moves := rfl
@[simp] theorem State.setBit_slots (off n : Nat) (v : Bool) : (s.setBit off n v).slots = s.slots := rfl
@[simp] theorem State.setBit_cur (off n : Nat) (v : Bool) : (s.setBit off n v).cur = s.cur := rfl
@[simp] theorem State.setBit_agenda (off n : Nat) (v : Bool) : (s.setBit off n v).agenda = s.agenda := rfl
@[simp] theorem State.setBit_now (off n : Nat) (v : Bool) : (s.setBit off n v).now = s.now := rfl
@[simp] theorem State.setBit_fresh (off n : Nat) (v : Bool) : (s.setBit off n v).fresh = s.fresh := rfl
@[simp] theorem State.setBit_seq (off n : Nat) (v : Bool) : (s.setBit off n v).seq = s.seq := rfl
@[simp] theorem State.setBit_held (off n : Nat) (v : Bool) : (s.setBit off n v).held = s.held := rfl
@[simp] theorem State.setBit_wants (off n : Nat) (v : Bool) : (s.setBit off n v).wants = s.wants := rfl
@[simp] theorem State.setBit_halts (off n : Nat) (v : Bool) : (s.setBit off n v).halts = s.halts := rfl
@[simp] theorem State.setBit_turns (off n : Nat) (v : Bool) : (s.setBit off n v).turns = s.turns := rfl
@[simp] theorem State.setBit_downs (off n : Nat) (v : Bool) : (s.setBit off n v).downs = s.downs := rfl
@[simp] theorem State.setBit_recent (off n : Nat) (v : Bool) : (s.setBit off n v).recent = s.recent := rfl
@[simp] theorem State.setBit_fills (off n : Nat) (v : Bool) : (s.setBit off n v).fills = s.fills := rfl

@[simp] theorem State.wake_part (pa n : Nat) : (s.wake pa n).part = s.part := rfl
@[simp] theorem State.wake_mem (pa n : Nat) : (s.wake pa n).mem = s.mem := rfl
@[simp] theorem State.wake_tags (pa n : Nat) : (s.wake pa n).tags = s.tags := rfl
@[simp] theorem State.wake_poison (pa n : Nat) : (s.wake pa n).poison = s.poison := rfl
@[simp] theorem State.wake_regs (pa n : Nat) : (s.wake pa n).regs = s.regs := rfl
@[simp] theorem State.wake_cxRegs (pa n : Nat) : (s.wake pa n).cxRegs = s.cxRegs := rfl
@[simp] theorem State.wake_groups (pa n : Nat) : (s.wake pa n).groups = s.groups.map (Group.wake (granulesOf pa n)) := rfl
@[simp] theorem State.wake_wgs (pa n : Nat) : (s.wake pa n).wgs = s.wgs := rfl
@[simp] theorem State.wake_engines (pa n : Nat) : (s.wake pa n).engines = s.engines := rfl
@[simp] theorem State.wake_regions (pa n : Nat) : (s.wake pa n).regions = s.regions := rfl
@[simp] theorem State.wake_posted (pa n : Nat) : (s.wake pa n).posted = s.posted := rfl
@[simp] theorem State.wake_latchQs (pa n : Nat) : (s.wake pa n).latchQs = s.latchQs := rfl
@[simp] theorem State.wake_bindings (pa n : Nat) : (s.wake pa n).bindings = s.bindings := rfl
@[simp] theorem State.wake_shadows (pa n : Nat) : (s.wake pa n).shadows = s.shadows := rfl
@[simp] theorem State.wake_tlb (pa n : Nat) : (s.wake pa n).tlb = s.tlb := rfl
@[simp] theorem State.wake_moves (pa n : Nat) : (s.wake pa n).moves = s.moves := rfl
@[simp] theorem State.wake_slots (pa n : Nat) : (s.wake pa n).slots = s.slots := rfl
@[simp] theorem State.wake_cur (pa n : Nat) : (s.wake pa n).cur = s.cur := rfl
@[simp] theorem State.wake_agenda (pa n : Nat) : (s.wake pa n).agenda = s.agenda := rfl
@[simp] theorem State.wake_now (pa n : Nat) : (s.wake pa n).now = s.now := rfl
@[simp] theorem State.wake_fresh (pa n : Nat) : (s.wake pa n).fresh = s.fresh := rfl
@[simp] theorem State.wake_seq (pa n : Nat) : (s.wake pa n).seq = s.seq := rfl
@[simp] theorem State.wake_held (pa n : Nat) : (s.wake pa n).held = s.held := rfl
@[simp] theorem State.wake_wants (pa n : Nat) : (s.wake pa n).wants = s.wants := rfl
@[simp] theorem State.wake_halts (pa n : Nat) : (s.wake pa n).halts = s.halts := rfl
@[simp] theorem State.wake_turns (pa n : Nat) : (s.wake pa n).turns = s.turns := rfl
@[simp] theorem State.wake_downs (pa n : Nat) : (s.wake pa n).downs = s.downs := rfl
@[simp] theorem State.wake_recent (pa n : Nat) : (s.wake pa n).recent = s.recent := rfl
@[simp] theorem State.wake_fills (pa n : Nat) : (s.wake pa n).fills = s.fills := rfl

@[simp] theorem State.storeLE_part (pa n v : Nat) : (s.storeLE pa n v).part = s.part := rfl
@[simp] theorem State.storeLE_mem (pa n v : Nat) : (s.storeLE pa n v).mem = writeLE s.mem pa n v := rfl
@[simp] theorem State.storeLE_tags (pa n v : Nat) : (s.storeLE pa n v).tags = s.tags := rfl
@[simp] theorem State.storeLE_poison (pa n v : Nat) : (s.storeLE pa n v).poison = s.poison := rfl
@[simp] theorem State.storeLE_regs (pa n v : Nat) : (s.storeLE pa n v).regs = s.regs := rfl
@[simp] theorem State.storeLE_cxRegs (pa n v : Nat) : (s.storeLE pa n v).cxRegs = s.cxRegs := rfl
@[simp] theorem State.storeLE_wgs (pa n v : Nat) : (s.storeLE pa n v).wgs = s.wgs := rfl
@[simp] theorem State.storeLE_engines (pa n v : Nat) : (s.storeLE pa n v).engines = s.engines := rfl
@[simp] theorem State.storeLE_regions (pa n v : Nat) : (s.storeLE pa n v).regions = s.regions := rfl
@[simp] theorem State.storeLE_posted (pa n v : Nat) : (s.storeLE pa n v).posted = s.posted := rfl
@[simp] theorem State.storeLE_latchQs (pa n v : Nat) : (s.storeLE pa n v).latchQs = s.latchQs := rfl
@[simp] theorem State.storeLE_bindings (pa n v : Nat) : (s.storeLE pa n v).bindings = s.bindings := rfl
@[simp] theorem State.storeLE_shadows (pa n v : Nat) : (s.storeLE pa n v).shadows = s.shadows := rfl
@[simp] theorem State.storeLE_tlb (pa n v : Nat) : (s.storeLE pa n v).tlb = s.tlb := rfl
@[simp] theorem State.storeLE_moves (pa n v : Nat) : (s.storeLE pa n v).moves = s.moves := rfl
@[simp] theorem State.storeLE_slots (pa n v : Nat) : (s.storeLE pa n v).slots = s.slots := rfl
@[simp] theorem State.storeLE_cur (pa n v : Nat) : (s.storeLE pa n v).cur = s.cur := rfl
@[simp] theorem State.storeLE_agenda (pa n v : Nat) : (s.storeLE pa n v).agenda = s.agenda := rfl
@[simp] theorem State.storeLE_now (pa n v : Nat) : (s.storeLE pa n v).now = s.now := rfl
@[simp] theorem State.storeLE_fresh (pa n v : Nat) : (s.storeLE pa n v).fresh = s.fresh := rfl
@[simp] theorem State.storeLE_seq (pa n v : Nat) : (s.storeLE pa n v).seq = s.seq := rfl
@[simp] theorem State.storeLE_held (pa n v : Nat) : (s.storeLE pa n v).held = s.held := rfl
@[simp] theorem State.storeLE_wants (pa n v : Nat) : (s.storeLE pa n v).wants = s.wants := rfl
@[simp] theorem State.storeLE_halts (pa n v : Nat) : (s.storeLE pa n v).halts = s.halts := rfl
@[simp] theorem State.storeLE_turns (pa n v : Nat) : (s.storeLE pa n v).turns = s.turns := rfl
@[simp] theorem State.storeLE_downs (pa n v : Nat) : (s.storeLE pa n v).downs = s.downs := rfl
@[simp] theorem State.storeLE_recent (pa n v : Nat) : (s.storeLE pa n v).recent = s.recent := rfl
@[simp] theorem State.storeLE_fills (pa n v : Nat) : (s.storeLE pa n v).fills = s.fills := rfl

@[simp] theorem State.storeBytes_part (pa : Nat) (bs : List Byte) : (s.storeBytes pa bs).part = s.part := rfl
@[simp] theorem State.storeBytes_mem (pa : Nat) (bs : List Byte) : (s.storeBytes pa bs).mem = writeBytes s.mem pa bs := rfl
@[simp] theorem State.storeBytes_tags (pa : Nat) (bs : List Byte) : (s.storeBytes pa bs).tags = s.tags := rfl
@[simp] theorem State.storeBytes_poison (pa : Nat) (bs : List Byte) : (s.storeBytes pa bs).poison = s.poison := rfl
@[simp] theorem State.storeBytes_regs (pa : Nat) (bs : List Byte) : (s.storeBytes pa bs).regs = s.regs := rfl
@[simp] theorem State.storeBytes_cxRegs (pa : Nat) (bs : List Byte) : (s.storeBytes pa bs).cxRegs = s.cxRegs := rfl
@[simp] theorem State.storeBytes_wgs (pa : Nat) (bs : List Byte) : (s.storeBytes pa bs).wgs = s.wgs := rfl
@[simp] theorem State.storeBytes_engines (pa : Nat) (bs : List Byte) : (s.storeBytes pa bs).engines = s.engines := rfl
@[simp] theorem State.storeBytes_regions (pa : Nat) (bs : List Byte) : (s.storeBytes pa bs).regions = s.regions := rfl
@[simp] theorem State.storeBytes_posted (pa : Nat) (bs : List Byte) : (s.storeBytes pa bs).posted = s.posted := rfl
@[simp] theorem State.storeBytes_latchQs (pa : Nat) (bs : List Byte) : (s.storeBytes pa bs).latchQs = s.latchQs := rfl
@[simp] theorem State.storeBytes_bindings (pa : Nat) (bs : List Byte) : (s.storeBytes pa bs).bindings = s.bindings := rfl
@[simp] theorem State.storeBytes_shadows (pa : Nat) (bs : List Byte) : (s.storeBytes pa bs).shadows = s.shadows := rfl
@[simp] theorem State.storeBytes_tlb (pa : Nat) (bs : List Byte) : (s.storeBytes pa bs).tlb = s.tlb := rfl
@[simp] theorem State.storeBytes_moves (pa : Nat) (bs : List Byte) : (s.storeBytes pa bs).moves = s.moves := rfl
@[simp] theorem State.storeBytes_slots (pa : Nat) (bs : List Byte) : (s.storeBytes pa bs).slots = s.slots := rfl
@[simp] theorem State.storeBytes_cur (pa : Nat) (bs : List Byte) : (s.storeBytes pa bs).cur = s.cur := rfl
@[simp] theorem State.storeBytes_agenda (pa : Nat) (bs : List Byte) : (s.storeBytes pa bs).agenda = s.agenda := rfl
@[simp] theorem State.storeBytes_now (pa : Nat) (bs : List Byte) : (s.storeBytes pa bs).now = s.now := rfl
@[simp] theorem State.storeBytes_fresh (pa : Nat) (bs : List Byte) : (s.storeBytes pa bs).fresh = s.fresh := rfl
@[simp] theorem State.storeBytes_seq (pa : Nat) (bs : List Byte) : (s.storeBytes pa bs).seq = s.seq := rfl
@[simp] theorem State.storeBytes_held (pa : Nat) (bs : List Byte) : (s.storeBytes pa bs).held = s.held := rfl
@[simp] theorem State.storeBytes_wants (pa : Nat) (bs : List Byte) : (s.storeBytes pa bs).wants = s.wants := rfl
@[simp] theorem State.storeBytes_halts (pa : Nat) (bs : List Byte) : (s.storeBytes pa bs).halts = s.halts := rfl
@[simp] theorem State.storeBytes_turns (pa : Nat) (bs : List Byte) : (s.storeBytes pa bs).turns = s.turns := rfl
@[simp] theorem State.storeBytes_downs (pa : Nat) (bs : List Byte) : (s.storeBytes pa bs).downs = s.downs := rfl
@[simp] theorem State.storeBytes_recent (pa : Nat) (bs : List Byte) : (s.storeBytes pa bs).recent = s.recent := rfl
@[simp] theorem State.storeBytes_fills (pa : Nat) (bs : List Byte) : (s.storeBytes pa bs).fills = s.fills := rfl

@[simp] theorem State.unpoison_part (pa n : Nat) : (s.unpoison pa n).part = s.part := rfl
@[simp] theorem State.unpoison_mem (pa n : Nat) : (s.unpoison pa n).mem = s.mem := rfl
@[simp] theorem State.unpoison_tags (pa n : Nat) : (s.unpoison pa n).tags = s.tags := rfl
@[simp] theorem State.unpoison_regs (pa n : Nat) : (s.unpoison pa n).regs = s.regs := rfl
@[simp] theorem State.unpoison_cxRegs (pa n : Nat) : (s.unpoison pa n).cxRegs = s.cxRegs := rfl
@[simp] theorem State.unpoison_groups (pa n : Nat) : (s.unpoison pa n).groups = s.groups := rfl
@[simp] theorem State.unpoison_wgs (pa n : Nat) : (s.unpoison pa n).wgs = s.wgs := rfl
@[simp] theorem State.unpoison_engines (pa n : Nat) : (s.unpoison pa n).engines = s.engines := rfl
@[simp] theorem State.unpoison_regions (pa n : Nat) : (s.unpoison pa n).regions = s.regions := rfl
@[simp] theorem State.unpoison_posted (pa n : Nat) : (s.unpoison pa n).posted = s.posted := rfl
@[simp] theorem State.unpoison_latchQs (pa n : Nat) : (s.unpoison pa n).latchQs = s.latchQs := rfl
@[simp] theorem State.unpoison_bindings (pa n : Nat) : (s.unpoison pa n).bindings = s.bindings := rfl
@[simp] theorem State.unpoison_shadows (pa n : Nat) : (s.unpoison pa n).shadows = s.shadows := rfl
@[simp] theorem State.unpoison_tlb (pa n : Nat) : (s.unpoison pa n).tlb = s.tlb := rfl
@[simp] theorem State.unpoison_moves (pa n : Nat) : (s.unpoison pa n).moves = s.moves := rfl
@[simp] theorem State.unpoison_slots (pa n : Nat) : (s.unpoison pa n).slots = s.slots := rfl
@[simp] theorem State.unpoison_cur (pa n : Nat) : (s.unpoison pa n).cur = s.cur := rfl
@[simp] theorem State.unpoison_agenda (pa n : Nat) : (s.unpoison pa n).agenda = s.agenda := rfl
@[simp] theorem State.unpoison_now (pa n : Nat) : (s.unpoison pa n).now = s.now := rfl
@[simp] theorem State.unpoison_fresh (pa n : Nat) : (s.unpoison pa n).fresh = s.fresh := rfl
@[simp] theorem State.unpoison_seq (pa n : Nat) : (s.unpoison pa n).seq = s.seq := rfl
@[simp] theorem State.unpoison_held (pa n : Nat) : (s.unpoison pa n).held = s.held := rfl
@[simp] theorem State.unpoison_wants (pa n : Nat) : (s.unpoison pa n).wants = s.wants := rfl
@[simp] theorem State.unpoison_halts (pa n : Nat) : (s.unpoison pa n).halts = s.halts := rfl
@[simp] theorem State.unpoison_turns (pa n : Nat) : (s.unpoison pa n).turns = s.turns := rfl
@[simp] theorem State.unpoison_downs (pa n : Nat) : (s.unpoison pa n).downs = s.downs := rfl
@[simp] theorem State.unpoison_recent (pa n : Nat) : (s.unpoison pa n).recent = s.recent := rfl
@[simp] theorem State.unpoison_fills (pa n : Nat) : (s.unpoison pa n).fills = s.fills := rfl

@[simp] theorem State.zeroMem_part (pa n : Nat) : (s.zeroMem pa n).part = s.part := rfl
@[simp] theorem State.zeroMem_mem (pa n : Nat) : (s.zeroMem pa n).mem = s.mem.clearRange pa n := rfl
@[simp] theorem State.zeroMem_tags (pa n : Nat) : (s.zeroMem pa n).tags = s.tags.clearRange (pa / 32) ((n + 31) / 32) := rfl
@[simp] theorem State.zeroMem_poison (pa n : Nat) : (s.zeroMem pa n).poison = s.poison.clearRange (pa / 32) ((n + 31) / 32) := rfl
@[simp] theorem State.zeroMem_regs (pa n : Nat) : (s.zeroMem pa n).regs = s.regs := rfl
@[simp] theorem State.zeroMem_cxRegs (pa n : Nat) : (s.zeroMem pa n).cxRegs = s.cxRegs := rfl
@[simp] theorem State.zeroMem_groups (pa n : Nat) : (s.zeroMem pa n).groups = s.groups := rfl
@[simp] theorem State.zeroMem_wgs (pa n : Nat) : (s.zeroMem pa n).wgs = s.wgs := rfl
@[simp] theorem State.zeroMem_engines (pa n : Nat) : (s.zeroMem pa n).engines = s.engines := rfl
@[simp] theorem State.zeroMem_regions (pa n : Nat) : (s.zeroMem pa n).regions = s.regions := rfl
@[simp] theorem State.zeroMem_posted (pa n : Nat) : (s.zeroMem pa n).posted = s.posted := rfl
@[simp] theorem State.zeroMem_latchQs (pa n : Nat) : (s.zeroMem pa n).latchQs = s.latchQs := rfl
@[simp] theorem State.zeroMem_bindings (pa n : Nat) : (s.zeroMem pa n).bindings = s.bindings := rfl
@[simp] theorem State.zeroMem_shadows (pa n : Nat) : (s.zeroMem pa n).shadows = s.shadows := rfl
@[simp] theorem State.zeroMem_tlb (pa n : Nat) : (s.zeroMem pa n).tlb = s.tlb := rfl
@[simp] theorem State.zeroMem_moves (pa n : Nat) : (s.zeroMem pa n).moves = s.moves := rfl
@[simp] theorem State.zeroMem_slots (pa n : Nat) : (s.zeroMem pa n).slots = s.slots := rfl
@[simp] theorem State.zeroMem_cur (pa n : Nat) : (s.zeroMem pa n).cur = s.cur := rfl
@[simp] theorem State.zeroMem_agenda (pa n : Nat) : (s.zeroMem pa n).agenda = s.agenda := rfl
@[simp] theorem State.zeroMem_now (pa n : Nat) : (s.zeroMem pa n).now = s.now := rfl
@[simp] theorem State.zeroMem_fresh (pa n : Nat) : (s.zeroMem pa n).fresh = s.fresh := rfl
@[simp] theorem State.zeroMem_seq (pa n : Nat) : (s.zeroMem pa n).seq = s.seq := rfl
@[simp] theorem State.zeroMem_held (pa n : Nat) : (s.zeroMem pa n).held = s.held := rfl
@[simp] theorem State.zeroMem_wants (pa n : Nat) : (s.zeroMem pa n).wants = s.wants := rfl
@[simp] theorem State.zeroMem_halts (pa n : Nat) : (s.zeroMem pa n).halts = s.halts := rfl
@[simp] theorem State.zeroMem_turns (pa n : Nat) : (s.zeroMem pa n).turns = s.turns := rfl
@[simp] theorem State.zeroMem_downs (pa n : Nat) : (s.zeroMem pa n).downs = s.downs := rfl
@[simp] theorem State.zeroMem_fills (pa n : Nat) : (s.zeroMem pa n).fills = s.fills := rfl

@[simp] theorem State.setTag_part (g : Nat) (t : BitVec 4) : (s.setTag g t).part = s.part := rfl
@[simp] theorem State.setTag_mem (g : Nat) (t : BitVec 4) : (s.setTag g t).mem = s.mem := rfl
@[simp] theorem State.setTag_tags (g : Nat) (t : BitVec 4) : (s.setTag g t).tags = s.tags.put g t := rfl
@[simp] theorem State.setTag_poison (g : Nat) (t : BitVec 4) : (s.setTag g t).poison = s.poison := rfl
@[simp] theorem State.setTag_regs (g : Nat) (t : BitVec 4) : (s.setTag g t).regs = s.regs := rfl
@[simp] theorem State.setTag_cxRegs (g : Nat) (t : BitVec 4) : (s.setTag g t).cxRegs = s.cxRegs := rfl
@[simp] theorem State.setTag_wgs (g : Nat) (t : BitVec 4) : (s.setTag g t).wgs = s.wgs := rfl
@[simp] theorem State.setTag_engines (g : Nat) (t : BitVec 4) : (s.setTag g t).engines = s.engines := rfl
@[simp] theorem State.setTag_regions (g : Nat) (t : BitVec 4) : (s.setTag g t).regions = s.regions := rfl
@[simp] theorem State.setTag_posted (g : Nat) (t : BitVec 4) : (s.setTag g t).posted = s.posted := rfl
@[simp] theorem State.setTag_latchQs (g : Nat) (t : BitVec 4) : (s.setTag g t).latchQs = s.latchQs := rfl
@[simp] theorem State.setTag_bindings (g : Nat) (t : BitVec 4) : (s.setTag g t).bindings = s.bindings := rfl
@[simp] theorem State.setTag_shadows (g : Nat) (t : BitVec 4) : (s.setTag g t).shadows = s.shadows := rfl
@[simp] theorem State.setTag_tlb (g : Nat) (t : BitVec 4) : (s.setTag g t).tlb = s.tlb := rfl
@[simp] theorem State.setTag_moves (g : Nat) (t : BitVec 4) : (s.setTag g t).moves = s.moves := rfl
@[simp] theorem State.setTag_slots (g : Nat) (t : BitVec 4) : (s.setTag g t).slots = s.slots := rfl
@[simp] theorem State.setTag_cur (g : Nat) (t : BitVec 4) : (s.setTag g t).cur = s.cur := rfl
@[simp] theorem State.setTag_agenda (g : Nat) (t : BitVec 4) : (s.setTag g t).agenda = s.agenda := rfl
@[simp] theorem State.setTag_now (g : Nat) (t : BitVec 4) : (s.setTag g t).now = s.now := rfl
@[simp] theorem State.setTag_fresh (g : Nat) (t : BitVec 4) : (s.setTag g t).fresh = s.fresh := rfl
@[simp] theorem State.setTag_seq (g : Nat) (t : BitVec 4) : (s.setTag g t).seq = s.seq := rfl
@[simp] theorem State.setTag_held (g : Nat) (t : BitVec 4) : (s.setTag g t).held = s.held := rfl
@[simp] theorem State.setTag_wants (g : Nat) (t : BitVec 4) : (s.setTag g t).wants = s.wants := rfl
@[simp] theorem State.setTag_halts (g : Nat) (t : BitVec 4) : (s.setTag g t).halts = s.halts := rfl
@[simp] theorem State.setTag_turns (g : Nat) (t : BitVec 4) : (s.setTag g t).turns = s.turns := rfl
@[simp] theorem State.setTag_downs (g : Nat) (t : BitVec 4) : (s.setTag g t).downs = s.downs := rfl
@[simp] theorem State.setTag_recent (g : Nat) (t : BitVec 4) : (s.setTag g t).recent = s.recent := rfl
@[simp] theorem State.setTag_fills (g : Nat) (t : BitVec 4) : (s.setTag g t).fills = s.fills := rfl

@[simp] theorem State.updGroup_part (core slot : Nat) (f : Group → Group) : (s.updGroup core slot f).part = s.part := rfl
@[simp] theorem State.updGroup_mem (core slot : Nat) (f : Group → Group) : (s.updGroup core slot f).mem = s.mem := rfl
@[simp] theorem State.updGroup_tags (core slot : Nat) (f : Group → Group) : (s.updGroup core slot f).tags = s.tags := rfl
@[simp] theorem State.updGroup_poison (core slot : Nat) (f : Group → Group) : (s.updGroup core slot f).poison = s.poison := rfl
@[simp] theorem State.updGroup_regs (core slot : Nat) (f : Group → Group) : (s.updGroup core slot f).regs = s.regs := rfl
@[simp] theorem State.updGroup_cxRegs (core slot : Nat) (f : Group → Group) : (s.updGroup core slot f).cxRegs = s.cxRegs := rfl
@[simp] theorem State.updGroup_groups (core slot : Nat) (f : Group → Group) : (s.updGroup core slot f).groups = s.groups.map (fun g => if g.core = core ∧ g.slot = slot then f g else g) := rfl
@[simp] theorem State.updGroup_wgs (core slot : Nat) (f : Group → Group) : (s.updGroup core slot f).wgs = s.wgs := rfl
@[simp] theorem State.updGroup_engines (core slot : Nat) (f : Group → Group) : (s.updGroup core slot f).engines = s.engines := rfl
@[simp] theorem State.updGroup_regions (core slot : Nat) (f : Group → Group) : (s.updGroup core slot f).regions = s.regions := rfl
@[simp] theorem State.updGroup_posted (core slot : Nat) (f : Group → Group) : (s.updGroup core slot f).posted = s.posted := rfl
@[simp] theorem State.updGroup_latchQs (core slot : Nat) (f : Group → Group) : (s.updGroup core slot f).latchQs = s.latchQs := rfl
@[simp] theorem State.updGroup_bindings (core slot : Nat) (f : Group → Group) : (s.updGroup core slot f).bindings = s.bindings := rfl
@[simp] theorem State.updGroup_shadows (core slot : Nat) (f : Group → Group) : (s.updGroup core slot f).shadows = s.shadows := rfl
@[simp] theorem State.updGroup_tlb (core slot : Nat) (f : Group → Group) : (s.updGroup core slot f).tlb = s.tlb := rfl
@[simp] theorem State.updGroup_moves (core slot : Nat) (f : Group → Group) : (s.updGroup core slot f).moves = s.moves := rfl
@[simp] theorem State.updGroup_slots (core slot : Nat) (f : Group → Group) : (s.updGroup core slot f).slots = s.slots := rfl
@[simp] theorem State.updGroup_cur (core slot : Nat) (f : Group → Group) : (s.updGroup core slot f).cur = s.cur := rfl
@[simp] theorem State.updGroup_agenda (core slot : Nat) (f : Group → Group) : (s.updGroup core slot f).agenda = s.agenda := rfl
@[simp] theorem State.updGroup_now (core slot : Nat) (f : Group → Group) : (s.updGroup core slot f).now = s.now := rfl
@[simp] theorem State.updGroup_fresh (core slot : Nat) (f : Group → Group) : (s.updGroup core slot f).fresh = s.fresh := rfl
@[simp] theorem State.updGroup_seq (core slot : Nat) (f : Group → Group) : (s.updGroup core slot f).seq = s.seq := rfl
@[simp] theorem State.updGroup_held (core slot : Nat) (f : Group → Group) : (s.updGroup core slot f).held = s.held := rfl
@[simp] theorem State.updGroup_wants (core slot : Nat) (f : Group → Group) : (s.updGroup core slot f).wants = s.wants := rfl
@[simp] theorem State.updGroup_halts (core slot : Nat) (f : Group → Group) : (s.updGroup core slot f).halts = s.halts := rfl
@[simp] theorem State.updGroup_turns (core slot : Nat) (f : Group → Group) : (s.updGroup core slot f).turns = s.turns := rfl
@[simp] theorem State.updGroup_downs (core slot : Nat) (f : Group → Group) : (s.updGroup core slot f).downs = s.downs := rfl
@[simp] theorem State.updGroup_recent (core slot : Nat) (f : Group → Group) : (s.updGroup core slot f).recent = s.recent := rfl
@[simp] theorem State.updGroup_fills (core slot : Nat) (f : Group → Group) : (s.updGroup core slot f).fills = s.fills := rfl

@[simp] theorem State.updWg_part (id : Nat) (f : Workgroup → Workgroup) : (s.updWg id f).part = s.part := rfl
@[simp] theorem State.updWg_mem (id : Nat) (f : Workgroup → Workgroup) : (s.updWg id f).mem = s.mem := rfl
@[simp] theorem State.updWg_tags (id : Nat) (f : Workgroup → Workgroup) : (s.updWg id f).tags = s.tags := rfl
@[simp] theorem State.updWg_poison (id : Nat) (f : Workgroup → Workgroup) : (s.updWg id f).poison = s.poison := rfl
@[simp] theorem State.updWg_regs (id : Nat) (f : Workgroup → Workgroup) : (s.updWg id f).regs = s.regs := rfl
@[simp] theorem State.updWg_cxRegs (id : Nat) (f : Workgroup → Workgroup) : (s.updWg id f).cxRegs = s.cxRegs := rfl
@[simp] theorem State.updWg_groups (id : Nat) (f : Workgroup → Workgroup) : (s.updWg id f).groups = s.groups := rfl
@[simp] theorem State.updWg_wgs (id : Nat) (f : Workgroup → Workgroup) : (s.updWg id f).wgs = s.wgs.map (fun w => if w.id = id then f w else w) := rfl
@[simp] theorem State.updWg_engines (id : Nat) (f : Workgroup → Workgroup) : (s.updWg id f).engines = s.engines := rfl
@[simp] theorem State.updWg_regions (id : Nat) (f : Workgroup → Workgroup) : (s.updWg id f).regions = s.regions := rfl
@[simp] theorem State.updWg_posted (id : Nat) (f : Workgroup → Workgroup) : (s.updWg id f).posted = s.posted := rfl
@[simp] theorem State.updWg_latchQs (id : Nat) (f : Workgroup → Workgroup) : (s.updWg id f).latchQs = s.latchQs := rfl
@[simp] theorem State.updWg_bindings (id : Nat) (f : Workgroup → Workgroup) : (s.updWg id f).bindings = s.bindings := rfl
@[simp] theorem State.updWg_shadows (id : Nat) (f : Workgroup → Workgroup) : (s.updWg id f).shadows = s.shadows := rfl
@[simp] theorem State.updWg_tlb (id : Nat) (f : Workgroup → Workgroup) : (s.updWg id f).tlb = s.tlb := rfl
@[simp] theorem State.updWg_moves (id : Nat) (f : Workgroup → Workgroup) : (s.updWg id f).moves = s.moves := rfl
@[simp] theorem State.updWg_slots (id : Nat) (f : Workgroup → Workgroup) : (s.updWg id f).slots = s.slots := rfl
@[simp] theorem State.updWg_cur (id : Nat) (f : Workgroup → Workgroup) : (s.updWg id f).cur = s.cur := rfl
@[simp] theorem State.updWg_agenda (id : Nat) (f : Workgroup → Workgroup) : (s.updWg id f).agenda = s.agenda := rfl
@[simp] theorem State.updWg_now (id : Nat) (f : Workgroup → Workgroup) : (s.updWg id f).now = s.now := rfl
@[simp] theorem State.updWg_fresh (id : Nat) (f : Workgroup → Workgroup) : (s.updWg id f).fresh = s.fresh := rfl
@[simp] theorem State.updWg_seq (id : Nat) (f : Workgroup → Workgroup) : (s.updWg id f).seq = s.seq := rfl
@[simp] theorem State.updWg_held (id : Nat) (f : Workgroup → Workgroup) : (s.updWg id f).held = s.held := rfl
@[simp] theorem State.updWg_wants (id : Nat) (f : Workgroup → Workgroup) : (s.updWg id f).wants = s.wants := rfl
@[simp] theorem State.updWg_halts (id : Nat) (f : Workgroup → Workgroup) : (s.updWg id f).halts = s.halts := rfl
@[simp] theorem State.updWg_turns (id : Nat) (f : Workgroup → Workgroup) : (s.updWg id f).turns = s.turns := rfl
@[simp] theorem State.updWg_downs (id : Nat) (f : Workgroup → Workgroup) : (s.updWg id f).downs = s.downs := rfl
@[simp] theorem State.updWg_recent (id : Nat) (f : Workgroup → Workgroup) : (s.updWg id f).recent = s.recent := rfl
@[simp] theorem State.updWg_fills (id : Nat) (f : Workgroup → Workgroup) : (s.updWg id f).fills = s.fills := rfl

@[simp] theorem State.updRegion_part (vf rcb : Nat) (f : Region → Region) : (s.updRegion vf rcb f).part = s.part := rfl
@[simp] theorem State.updRegion_mem (vf rcb : Nat) (f : Region → Region) : (s.updRegion vf rcb f).mem = s.mem := rfl
@[simp] theorem State.updRegion_tags (vf rcb : Nat) (f : Region → Region) : (s.updRegion vf rcb f).tags = s.tags := rfl
@[simp] theorem State.updRegion_poison (vf rcb : Nat) (f : Region → Region) : (s.updRegion vf rcb f).poison = s.poison := rfl
@[simp] theorem State.updRegion_regs (vf rcb : Nat) (f : Region → Region) : (s.updRegion vf rcb f).regs = s.regs := rfl
@[simp] theorem State.updRegion_cxRegs (vf rcb : Nat) (f : Region → Region) : (s.updRegion vf rcb f).cxRegs = s.cxRegs := rfl
@[simp] theorem State.updRegion_groups (vf rcb : Nat) (f : Region → Region) : (s.updRegion vf rcb f).groups = s.groups := rfl
@[simp] theorem State.updRegion_wgs (vf rcb : Nat) (f : Region → Region) : (s.updRegion vf rcb f).wgs = s.wgs := rfl
@[simp] theorem State.updRegion_engines (vf rcb : Nat) (f : Region → Region) : (s.updRegion vf rcb f).engines = s.engines := rfl
@[simp] theorem State.updRegion_regions (vf rcb : Nat) (f : Region → Region) : (s.updRegion vf rcb f).regions = s.regions.map (fun r => if r.vf = vf ∧ r.rcb = rcb then f r else r) := rfl
@[simp] theorem State.updRegion_posted (vf rcb : Nat) (f : Region → Region) : (s.updRegion vf rcb f).posted = s.posted := rfl
@[simp] theorem State.updRegion_latchQs (vf rcb : Nat) (f : Region → Region) : (s.updRegion vf rcb f).latchQs = s.latchQs := rfl
@[simp] theorem State.updRegion_bindings (vf rcb : Nat) (f : Region → Region) : (s.updRegion vf rcb f).bindings = s.bindings := rfl
@[simp] theorem State.updRegion_shadows (vf rcb : Nat) (f : Region → Region) : (s.updRegion vf rcb f).shadows = s.shadows := rfl
@[simp] theorem State.updRegion_tlb (vf rcb : Nat) (f : Region → Region) : (s.updRegion vf rcb f).tlb = s.tlb := rfl
@[simp] theorem State.updRegion_moves (vf rcb : Nat) (f : Region → Region) : (s.updRegion vf rcb f).moves = s.moves := rfl
@[simp] theorem State.updRegion_slots (vf rcb : Nat) (f : Region → Region) : (s.updRegion vf rcb f).slots = s.slots := rfl
@[simp] theorem State.updRegion_cur (vf rcb : Nat) (f : Region → Region) : (s.updRegion vf rcb f).cur = s.cur := rfl
@[simp] theorem State.updRegion_agenda (vf rcb : Nat) (f : Region → Region) : (s.updRegion vf rcb f).agenda = s.agenda := rfl
@[simp] theorem State.updRegion_now (vf rcb : Nat) (f : Region → Region) : (s.updRegion vf rcb f).now = s.now := rfl
@[simp] theorem State.updRegion_fresh (vf rcb : Nat) (f : Region → Region) : (s.updRegion vf rcb f).fresh = s.fresh := rfl
@[simp] theorem State.updRegion_seq (vf rcb : Nat) (f : Region → Region) : (s.updRegion vf rcb f).seq = s.seq := rfl
@[simp] theorem State.updRegion_held (vf rcb : Nat) (f : Region → Region) : (s.updRegion vf rcb f).held = s.held := rfl
@[simp] theorem State.updRegion_wants (vf rcb : Nat) (f : Region → Region) : (s.updRegion vf rcb f).wants = s.wants := rfl
@[simp] theorem State.updRegion_halts (vf rcb : Nat) (f : Region → Region) : (s.updRegion vf rcb f).halts = s.halts := rfl
@[simp] theorem State.updRegion_turns (vf rcb : Nat) (f : Region → Region) : (s.updRegion vf rcb f).turns = s.turns := rfl
@[simp] theorem State.updRegion_downs (vf rcb : Nat) (f : Region → Region) : (s.updRegion vf rcb f).downs = s.downs := rfl
@[simp] theorem State.updRegion_recent (vf rcb : Nat) (f : Region → Region) : (s.updRegion vf rcb f).recent = s.recent := rfl
@[simp] theorem State.updRegion_fills (vf rcb : Nat) (f : Region → Region) : (s.updRegion vf rcb f).fills = s.fills := rfl

@[simp] theorem State.putEngine_part (e : Engine) : (s.putEngine e).part = s.part := rfl
@[simp] theorem State.putEngine_mem (e : Engine) : (s.putEngine e).mem = s.mem := rfl
@[simp] theorem State.putEngine_tags (e : Engine) : (s.putEngine e).tags = s.tags := rfl
@[simp] theorem State.putEngine_poison (e : Engine) : (s.putEngine e).poison = s.poison := rfl
@[simp] theorem State.putEngine_regs (e : Engine) : (s.putEngine e).regs = s.regs := rfl
@[simp] theorem State.putEngine_cxRegs (e : Engine) : (s.putEngine e).cxRegs = s.cxRegs := rfl
@[simp] theorem State.putEngine_groups (e : Engine) : (s.putEngine e).groups = s.groups := rfl
@[simp] theorem State.putEngine_wgs (e : Engine) : (s.putEngine e).wgs = s.wgs := rfl
@[simp] theorem State.putEngine_engines (e : Engine) : (s.putEngine e).engines = e :: s.engines.filter (fun x => x.idx != e.idx) := rfl
@[simp] theorem State.putEngine_regions (e : Engine) : (s.putEngine e).regions = s.regions := rfl
@[simp] theorem State.putEngine_posted (e : Engine) : (s.putEngine e).posted = s.posted := rfl
@[simp] theorem State.putEngine_latchQs (e : Engine) : (s.putEngine e).latchQs = s.latchQs := rfl
@[simp] theorem State.putEngine_bindings (e : Engine) : (s.putEngine e).bindings = s.bindings := rfl
@[simp] theorem State.putEngine_shadows (e : Engine) : (s.putEngine e).shadows = s.shadows := rfl
@[simp] theorem State.putEngine_tlb (e : Engine) : (s.putEngine e).tlb = s.tlb := rfl
@[simp] theorem State.putEngine_moves (e : Engine) : (s.putEngine e).moves = s.moves := rfl
@[simp] theorem State.putEngine_slots (e : Engine) : (s.putEngine e).slots = s.slots := rfl
@[simp] theorem State.putEngine_cur (e : Engine) : (s.putEngine e).cur = s.cur := rfl
@[simp] theorem State.putEngine_agenda (e : Engine) : (s.putEngine e).agenda = s.agenda := rfl
@[simp] theorem State.putEngine_now (e : Engine) : (s.putEngine e).now = s.now := rfl
@[simp] theorem State.putEngine_fresh (e : Engine) : (s.putEngine e).fresh = s.fresh := rfl
@[simp] theorem State.putEngine_seq (e : Engine) : (s.putEngine e).seq = s.seq := rfl
@[simp] theorem State.putEngine_held (e : Engine) : (s.putEngine e).held = s.held := rfl
@[simp] theorem State.putEngine_wants (e : Engine) : (s.putEngine e).wants = s.wants := rfl
@[simp] theorem State.putEngine_halts (e : Engine) : (s.putEngine e).halts = s.halts := rfl
@[simp] theorem State.putEngine_turns (e : Engine) : (s.putEngine e).turns = s.turns := rfl
@[simp] theorem State.putEngine_downs (e : Engine) : (s.putEngine e).downs = s.downs := rfl
@[simp] theorem State.putEngine_recent (e : Engine) : (s.putEngine e).recent = s.recent := rfl
@[simp] theorem State.putEngine_fills (e : Engine) : (s.putEngine e).fills = s.fills := rfl

@[simp] theorem State.toOwner_part (core slot start : Nat) (f : Group → Group) : (s.toOwner core slot start f).part = s.part := rfl
@[simp] theorem State.toOwner_mem (core slot start : Nat) (f : Group → Group) : (s.toOwner core slot start f).mem = s.mem := rfl
@[simp] theorem State.toOwner_tags (core slot start : Nat) (f : Group → Group) : (s.toOwner core slot start f).tags = s.tags := rfl
@[simp] theorem State.toOwner_poison (core slot start : Nat) (f : Group → Group) : (s.toOwner core slot start f).poison = s.poison := rfl
@[simp] theorem State.toOwner_regs (core slot start : Nat) (f : Group → Group) : (s.toOwner core slot start f).regs = s.regs := rfl
@[simp] theorem State.toOwner_cxRegs (core slot start : Nat) (f : Group → Group) : (s.toOwner core slot start f).cxRegs = s.cxRegs := rfl
@[simp] theorem State.toOwner_wgs (core slot start : Nat) (f : Group → Group) : (s.toOwner core slot start f).wgs = s.wgs := rfl
@[simp] theorem State.toOwner_engines (core slot start : Nat) (f : Group → Group) : (s.toOwner core slot start f).engines = s.engines := rfl
@[simp] theorem State.toOwner_regions (core slot start : Nat) (f : Group → Group) : (s.toOwner core slot start f).regions = s.regions := rfl
@[simp] theorem State.toOwner_posted (core slot start : Nat) (f : Group → Group) : (s.toOwner core slot start f).posted = s.posted := rfl
@[simp] theorem State.toOwner_latchQs (core slot start : Nat) (f : Group → Group) : (s.toOwner core slot start f).latchQs = s.latchQs := rfl
@[simp] theorem State.toOwner_bindings (core slot start : Nat) (f : Group → Group) : (s.toOwner core slot start f).bindings = s.bindings := rfl
@[simp] theorem State.toOwner_shadows (core slot start : Nat) (f : Group → Group) : (s.toOwner core slot start f).shadows = s.shadows := rfl
@[simp] theorem State.toOwner_tlb (core slot start : Nat) (f : Group → Group) : (s.toOwner core slot start f).tlb = s.tlb := rfl
@[simp] theorem State.toOwner_moves (core slot start : Nat) (f : Group → Group) : (s.toOwner core slot start f).moves = s.moves := rfl
@[simp] theorem State.toOwner_cur (core slot start : Nat) (f : Group → Group) : (s.toOwner core slot start f).cur = s.cur := rfl
@[simp] theorem State.toOwner_agenda (core slot start : Nat) (f : Group → Group) : (s.toOwner core slot start f).agenda = s.agenda := rfl
@[simp] theorem State.toOwner_now (core slot start : Nat) (f : Group → Group) : (s.toOwner core slot start f).now = s.now := rfl
@[simp] theorem State.toOwner_fresh (core slot start : Nat) (f : Group → Group) : (s.toOwner core slot start f).fresh = s.fresh := rfl
@[simp] theorem State.toOwner_seq (core slot start : Nat) (f : Group → Group) : (s.toOwner core slot start f).seq = s.seq := rfl
@[simp] theorem State.toOwner_held (core slot start : Nat) (f : Group → Group) : (s.toOwner core slot start f).held = s.held := rfl
@[simp] theorem State.toOwner_wants (core slot start : Nat) (f : Group → Group) : (s.toOwner core slot start f).wants = s.wants := rfl
@[simp] theorem State.toOwner_halts (core slot start : Nat) (f : Group → Group) : (s.toOwner core slot start f).halts = s.halts := rfl
@[simp] theorem State.toOwner_turns (core slot start : Nat) (f : Group → Group) : (s.toOwner core slot start f).turns = s.turns := rfl
@[simp] theorem State.toOwner_downs (core slot start : Nat) (f : Group → Group) : (s.toOwner core slot start f).downs = s.downs := rfl
@[simp] theorem State.toOwner_recent (core slot start : Nat) (f : Group → Group) : (s.toOwner core slot start f).recent = s.recent := rfl
@[simp] theorem State.toOwner_fills (core slot start : Nat) (f : Group → Group) : (s.toOwner core slot start f).fills = s.fills := rfl

@[simp] theorem State.issueAs_part (core slot : Nat) (acc : Bool) (mask : Mask) : (s.issueAs core slot acc mask).part = s.part := rfl
@[simp] theorem State.issueAs_mem (core slot : Nat) (acc : Bool) (mask : Mask) : (s.issueAs core slot acc mask).mem = s.mem := rfl
@[simp] theorem State.issueAs_tags (core slot : Nat) (acc : Bool) (mask : Mask) : (s.issueAs core slot acc mask).tags = s.tags := rfl
@[simp] theorem State.issueAs_poison (core slot : Nat) (acc : Bool) (mask : Mask) : (s.issueAs core slot acc mask).poison = s.poison := rfl
@[simp] theorem State.issueAs_regs (core slot : Nat) (acc : Bool) (mask : Mask) : (s.issueAs core slot acc mask).regs = s.regs := rfl
@[simp] theorem State.issueAs_cxRegs (core slot : Nat) (acc : Bool) (mask : Mask) : (s.issueAs core slot acc mask).cxRegs = s.cxRegs := rfl
@[simp] theorem State.issueAs_groups (core slot : Nat) (acc : Bool) (mask : Mask) : (s.issueAs core slot acc mask).groups = s.groups := rfl
@[simp] theorem State.issueAs_wgs (core slot : Nat) (acc : Bool) (mask : Mask) : (s.issueAs core slot acc mask).wgs = s.wgs := rfl
@[simp] theorem State.issueAs_engines (core slot : Nat) (acc : Bool) (mask : Mask) : (s.issueAs core slot acc mask).engines = s.engines := rfl
@[simp] theorem State.issueAs_regions (core slot : Nat) (acc : Bool) (mask : Mask) : (s.issueAs core slot acc mask).regions = s.regions := rfl
@[simp] theorem State.issueAs_posted (core slot : Nat) (acc : Bool) (mask : Mask) : (s.issueAs core slot acc mask).posted = s.posted := rfl
@[simp] theorem State.issueAs_latchQs (core slot : Nat) (acc : Bool) (mask : Mask) : (s.issueAs core slot acc mask).latchQs = s.latchQs := rfl
@[simp] theorem State.issueAs_bindings (core slot : Nat) (acc : Bool) (mask : Mask) : (s.issueAs core slot acc mask).bindings = s.bindings := rfl
@[simp] theorem State.issueAs_shadows (core slot : Nat) (acc : Bool) (mask : Mask) : (s.issueAs core slot acc mask).shadows = s.shadows := rfl
@[simp] theorem State.issueAs_tlb (core slot : Nat) (acc : Bool) (mask : Mask) : (s.issueAs core slot acc mask).tlb = s.tlb := rfl
@[simp] theorem State.issueAs_moves (core slot : Nat) (acc : Bool) (mask : Mask) : (s.issueAs core slot acc mask).moves = s.moves := rfl
@[simp] theorem State.issueAs_slots (core slot : Nat) (acc : Bool) (mask : Mask) : (s.issueAs core slot acc mask).slots = s.slots := rfl
@[simp] theorem State.issueAs_cur (core slot : Nat) (acc : Bool) (mask : Mask) : (s.issueAs core slot acc mask).cur = { core := core, slot := slot, acc := acc, mask := mask } := rfl
@[simp] theorem State.issueAs_agenda (core slot : Nat) (acc : Bool) (mask : Mask) : (s.issueAs core slot acc mask).agenda = s.agenda := rfl
@[simp] theorem State.issueAs_now (core slot : Nat) (acc : Bool) (mask : Mask) : (s.issueAs core slot acc mask).now = s.now := rfl
@[simp] theorem State.issueAs_fresh (core slot : Nat) (acc : Bool) (mask : Mask) : (s.issueAs core slot acc mask).fresh = s.fresh := rfl
@[simp] theorem State.issueAs_seq (core slot : Nat) (acc : Bool) (mask : Mask) : (s.issueAs core slot acc mask).seq = s.seq := rfl
@[simp] theorem State.issueAs_held (core slot : Nat) (acc : Bool) (mask : Mask) : (s.issueAs core slot acc mask).held = s.held := rfl
@[simp] theorem State.issueAs_wants (core slot : Nat) (acc : Bool) (mask : Mask) : (s.issueAs core slot acc mask).wants = s.wants := rfl
@[simp] theorem State.issueAs_halts (core slot : Nat) (acc : Bool) (mask : Mask) : (s.issueAs core slot acc mask).halts = s.halts := rfl
@[simp] theorem State.issueAs_turns (core slot : Nat) (acc : Bool) (mask : Mask) : (s.issueAs core slot acc mask).turns = s.turns := rfl
@[simp] theorem State.issueAs_downs (core slot : Nat) (acc : Bool) (mask : Mask) : (s.issueAs core slot acc mask).downs = s.downs := rfl
@[simp] theorem State.issueAs_recent (core slot : Nat) (acc : Bool) (mask : Mask) : (s.issueAs core slot acc mask).recent = s.recent := rfl
@[simp] theorem State.issueAs_fills (core slot : Nat) (acc : Bool) (mask : Mask) : (s.issueAs core slot acc mask).fills = s.fills := rfl

@[simp] theorem State.writeLanes_part (is : Issue) (f : Nat → Lane → Lane) : (s.writeLanes is f).part = s.part := rfl
@[simp] theorem State.writeLanes_mem (is : Issue) (f : Nat → Lane → Lane) : (s.writeLanes is f).mem = s.mem := rfl
@[simp] theorem State.writeLanes_tags (is : Issue) (f : Nat → Lane → Lane) : (s.writeLanes is f).tags = s.tags := rfl
@[simp] theorem State.writeLanes_poison (is : Issue) (f : Nat → Lane → Lane) : (s.writeLanes is f).poison = s.poison := rfl
@[simp] theorem State.writeLanes_regs (is : Issue) (f : Nat → Lane → Lane) : (s.writeLanes is f).regs = s.regs := rfl
@[simp] theorem State.writeLanes_cxRegs (is : Issue) (f : Nat → Lane → Lane) : (s.writeLanes is f).cxRegs = s.cxRegs := rfl
@[simp] theorem State.writeLanes_wgs (is : Issue) (f : Nat → Lane → Lane) : (s.writeLanes is f).wgs = s.wgs := rfl
@[simp] theorem State.writeLanes_engines (is : Issue) (f : Nat → Lane → Lane) : (s.writeLanes is f).engines = s.engines := rfl
@[simp] theorem State.writeLanes_regions (is : Issue) (f : Nat → Lane → Lane) : (s.writeLanes is f).regions = s.regions := rfl
@[simp] theorem State.writeLanes_posted (is : Issue) (f : Nat → Lane → Lane) : (s.writeLanes is f).posted = s.posted := rfl
@[simp] theorem State.writeLanes_latchQs (is : Issue) (f : Nat → Lane → Lane) : (s.writeLanes is f).latchQs = s.latchQs := rfl
@[simp] theorem State.writeLanes_bindings (is : Issue) (f : Nat → Lane → Lane) : (s.writeLanes is f).bindings = s.bindings := rfl
@[simp] theorem State.writeLanes_shadows (is : Issue) (f : Nat → Lane → Lane) : (s.writeLanes is f).shadows = s.shadows := rfl
@[simp] theorem State.writeLanes_tlb (is : Issue) (f : Nat → Lane → Lane) : (s.writeLanes is f).tlb = s.tlb := rfl
@[simp] theorem State.writeLanes_moves (is : Issue) (f : Nat → Lane → Lane) : (s.writeLanes is f).moves = s.moves := rfl
@[simp] theorem State.writeLanes_slots (is : Issue) (f : Nat → Lane → Lane) : (s.writeLanes is f).slots = s.slots := rfl
@[simp] theorem State.writeLanes_cur (is : Issue) (f : Nat → Lane → Lane) : (s.writeLanes is f).cur = s.cur := rfl
@[simp] theorem State.writeLanes_agenda (is : Issue) (f : Nat → Lane → Lane) : (s.writeLanes is f).agenda = s.agenda := rfl
@[simp] theorem State.writeLanes_now (is : Issue) (f : Nat → Lane → Lane) : (s.writeLanes is f).now = s.now := rfl
@[simp] theorem State.writeLanes_fresh (is : Issue) (f : Nat → Lane → Lane) : (s.writeLanes is f).fresh = s.fresh := rfl
@[simp] theorem State.writeLanes_seq (is : Issue) (f : Nat → Lane → Lane) : (s.writeLanes is f).seq = s.seq := rfl
@[simp] theorem State.writeLanes_held (is : Issue) (f : Nat → Lane → Lane) : (s.writeLanes is f).held = s.held := rfl
@[simp] theorem State.writeLanes_wants (is : Issue) (f : Nat → Lane → Lane) : (s.writeLanes is f).wants = s.wants := rfl
@[simp] theorem State.writeLanes_halts (is : Issue) (f : Nat → Lane → Lane) : (s.writeLanes is f).halts = s.halts := rfl
@[simp] theorem State.writeLanes_turns (is : Issue) (f : Nat → Lane → Lane) : (s.writeLanes is f).turns = s.turns := rfl
@[simp] theorem State.writeLanes_downs (is : Issue) (f : Nat → Lane → Lane) : (s.writeLanes is f).downs = s.downs := rfl
@[simp] theorem State.writeLanes_recent (is : Issue) (f : Nat → Lane → Lane) : (s.writeLanes is f).recent = s.recent := rfl
@[simp] theorem State.writeLanes_fills (is : Issue) (f : Nat → Lane → Lane) : (s.writeLanes is f).fills = s.fills := rfl

@[simp] theorem State.raise_part (is : Issue) (fl : BitVec 5) : (s.raise is fl).part = s.part := rfl
@[simp] theorem State.raise_mem (is : Issue) (fl : BitVec 5) : (s.raise is fl).mem = s.mem := rfl
@[simp] theorem State.raise_tags (is : Issue) (fl : BitVec 5) : (s.raise is fl).tags = s.tags := rfl
@[simp] theorem State.raise_poison (is : Issue) (fl : BitVec 5) : (s.raise is fl).poison = s.poison := rfl
@[simp] theorem State.raise_regs (is : Issue) (fl : BitVec 5) : (s.raise is fl).regs = s.regs := rfl
@[simp] theorem State.raise_cxRegs (is : Issue) (fl : BitVec 5) : (s.raise is fl).cxRegs = s.cxRegs := rfl
@[simp] theorem State.raise_wgs (is : Issue) (fl : BitVec 5) : (s.raise is fl).wgs = s.wgs := rfl
@[simp] theorem State.raise_engines (is : Issue) (fl : BitVec 5) : (s.raise is fl).engines = s.engines := rfl
@[simp] theorem State.raise_regions (is : Issue) (fl : BitVec 5) : (s.raise is fl).regions = s.regions := rfl
@[simp] theorem State.raise_posted (is : Issue) (fl : BitVec 5) : (s.raise is fl).posted = s.posted := rfl
@[simp] theorem State.raise_latchQs (is : Issue) (fl : BitVec 5) : (s.raise is fl).latchQs = s.latchQs := rfl
@[simp] theorem State.raise_bindings (is : Issue) (fl : BitVec 5) : (s.raise is fl).bindings = s.bindings := rfl
@[simp] theorem State.raise_shadows (is : Issue) (fl : BitVec 5) : (s.raise is fl).shadows = s.shadows := rfl
@[simp] theorem State.raise_tlb (is : Issue) (fl : BitVec 5) : (s.raise is fl).tlb = s.tlb := rfl
@[simp] theorem State.raise_moves (is : Issue) (fl : BitVec 5) : (s.raise is fl).moves = s.moves := rfl
@[simp] theorem State.raise_slots (is : Issue) (fl : BitVec 5) : (s.raise is fl).slots = s.slots := rfl
@[simp] theorem State.raise_cur (is : Issue) (fl : BitVec 5) : (s.raise is fl).cur = s.cur := rfl
@[simp] theorem State.raise_agenda (is : Issue) (fl : BitVec 5) : (s.raise is fl).agenda = s.agenda := rfl
@[simp] theorem State.raise_now (is : Issue) (fl : BitVec 5) : (s.raise is fl).now = s.now := rfl
@[simp] theorem State.raise_fresh (is : Issue) (fl : BitVec 5) : (s.raise is fl).fresh = s.fresh := rfl
@[simp] theorem State.raise_seq (is : Issue) (fl : BitVec 5) : (s.raise is fl).seq = s.seq := rfl
@[simp] theorem State.raise_held (is : Issue) (fl : BitVec 5) : (s.raise is fl).held = s.held := rfl
@[simp] theorem State.raise_wants (is : Issue) (fl : BitVec 5) : (s.raise is fl).wants = s.wants := rfl
@[simp] theorem State.raise_halts (is : Issue) (fl : BitVec 5) : (s.raise is fl).halts = s.halts := rfl
@[simp] theorem State.raise_turns (is : Issue) (fl : BitVec 5) : (s.raise is fl).turns = s.turns := rfl
@[simp] theorem State.raise_downs (is : Issue) (fl : BitVec 5) : (s.raise is fl).downs = s.downs := rfl
@[simp] theorem State.raise_recent (is : Issue) (fl : BitVec 5) : (s.raise is fl).recent = s.recent := rfl
@[simp] theorem State.raise_fills (is : Issue) (fl : BitVec 5) : (s.raise is fl).fills = s.fills := rfl

@[simp] theorem State.reach_part (is : Issue) (sps : List Spot) : (s.reach is sps).part = s.part := rfl
@[simp] theorem State.reach_mem (is : Issue) (sps : List Spot) : (s.reach is sps).mem = s.mem := rfl
@[simp] theorem State.reach_tags (is : Issue) (sps : List Spot) : (s.reach is sps).tags = s.tags := rfl
@[simp] theorem State.reach_poison (is : Issue) (sps : List Spot) : (s.reach is sps).poison = s.poison := rfl
@[simp] theorem State.reach_regs (is : Issue) (sps : List Spot) : (s.reach is sps).regs = s.regs := rfl
@[simp] theorem State.reach_cxRegs (is : Issue) (sps : List Spot) : (s.reach is sps).cxRegs = s.cxRegs := rfl
@[simp] theorem State.reach_wgs (is : Issue) (sps : List Spot) : (s.reach is sps).wgs = s.wgs := rfl
@[simp] theorem State.reach_engines (is : Issue) (sps : List Spot) : (s.reach is sps).engines = s.engines := rfl
@[simp] theorem State.reach_regions (is : Issue) (sps : List Spot) : (s.reach is sps).regions = s.regions := rfl
@[simp] theorem State.reach_posted (is : Issue) (sps : List Spot) : (s.reach is sps).posted = s.posted := rfl
@[simp] theorem State.reach_latchQs (is : Issue) (sps : List Spot) : (s.reach is sps).latchQs = s.latchQs := rfl
@[simp] theorem State.reach_bindings (is : Issue) (sps : List Spot) : (s.reach is sps).bindings = s.bindings := rfl
@[simp] theorem State.reach_shadows (is : Issue) (sps : List Spot) : (s.reach is sps).shadows = s.shadows := rfl
@[simp] theorem State.reach_tlb (is : Issue) (sps : List Spot) : (s.reach is sps).tlb = s.tlb := rfl
@[simp] theorem State.reach_moves (is : Issue) (sps : List Spot) : (s.reach is sps).moves = s.moves := rfl
@[simp] theorem State.reach_slots (is : Issue) (sps : List Spot) : (s.reach is sps).slots = s.slots := rfl
@[simp] theorem State.reach_cur (is : Issue) (sps : List Spot) : (s.reach is sps).cur = s.cur := rfl
@[simp] theorem State.reach_agenda (is : Issue) (sps : List Spot) : (s.reach is sps).agenda = s.agenda := rfl
@[simp] theorem State.reach_now (is : Issue) (sps : List Spot) : (s.reach is sps).now = s.now := rfl
@[simp] theorem State.reach_fresh (is : Issue) (sps : List Spot) : (s.reach is sps).fresh = s.fresh := rfl
@[simp] theorem State.reach_seq (is : Issue) (sps : List Spot) : (s.reach is sps).seq = s.seq := rfl
@[simp] theorem State.reach_held (is : Issue) (sps : List Spot) : (s.reach is sps).held = s.held := rfl
@[simp] theorem State.reach_wants (is : Issue) (sps : List Spot) : (s.reach is sps).wants = s.wants := rfl
@[simp] theorem State.reach_halts (is : Issue) (sps : List Spot) : (s.reach is sps).halts = s.halts := rfl
@[simp] theorem State.reach_turns (is : Issue) (sps : List Spot) : (s.reach is sps).turns = s.turns := rfl
@[simp] theorem State.reach_downs (is : Issue) (sps : List Spot) : (s.reach is sps).downs = s.downs := rfl
@[simp] theorem State.reach_recent (is : Issue) (sps : List Spot) : (s.reach is sps).recent = s.recent := rfl
@[simp] theorem State.reach_fills (is : Issue) (sps : List Spot) : (s.reach is sps).fills = s.fills := rfl

@[simp] theorem State.putLink_part (l : Link) : (s.putLink l).part = s.part := rfl
@[simp] theorem State.putLink_mem (l : Link) : (s.putLink l).mem = s.mem := rfl
@[simp] theorem State.putLink_tags (l : Link) : (s.putLink l).tags = s.tags := rfl
@[simp] theorem State.putLink_poison (l : Link) : (s.putLink l).poison = s.poison := rfl
@[simp] theorem State.putLink_cxRegs (l : Link) : (s.putLink l).cxRegs = s.cxRegs := rfl
@[simp] theorem State.putLink_groups (l : Link) : (s.putLink l).groups = s.groups := rfl
@[simp] theorem State.putLink_wgs (l : Link) : (s.putLink l).wgs = s.wgs := rfl
@[simp] theorem State.putLink_engines (l : Link) : (s.putLink l).engines = s.engines := rfl
@[simp] theorem State.putLink_regions (l : Link) : (s.putLink l).regions = s.regions := rfl
@[simp] theorem State.putLink_posted (l : Link) : (s.putLink l).posted = s.posted := rfl
@[simp] theorem State.putLink_latchQs (l : Link) : (s.putLink l).latchQs = s.latchQs := rfl
@[simp] theorem State.putLink_bindings (l : Link) : (s.putLink l).bindings = s.bindings := rfl
@[simp] theorem State.putLink_shadows (l : Link) : (s.putLink l).shadows = s.shadows := rfl
@[simp] theorem State.putLink_tlb (l : Link) : (s.putLink l).tlb = s.tlb := rfl
@[simp] theorem State.putLink_moves (l : Link) : (s.putLink l).moves = s.moves := rfl
@[simp] theorem State.putLink_slots (l : Link) : (s.putLink l).slots = s.slots := rfl
@[simp] theorem State.putLink_cur (l : Link) : (s.putLink l).cur = s.cur := rfl
@[simp] theorem State.putLink_agenda (l : Link) : (s.putLink l).agenda = s.agenda := rfl
@[simp] theorem State.putLink_now (l : Link) : (s.putLink l).now = s.now := rfl
@[simp] theorem State.putLink_fresh (l : Link) : (s.putLink l).fresh = s.fresh := rfl
@[simp] theorem State.putLink_seq (l : Link) : (s.putLink l).seq = s.seq := rfl
@[simp] theorem State.putLink_held (l : Link) : (s.putLink l).held = s.held := rfl
@[simp] theorem State.putLink_wants (l : Link) : (s.putLink l).wants = s.wants := rfl
@[simp] theorem State.putLink_halts (l : Link) : (s.putLink l).halts = s.halts := rfl
@[simp] theorem State.putLink_turns (l : Link) : (s.putLink l).turns = s.turns := rfl
@[simp] theorem State.putLink_downs (l : Link) : (s.putLink l).downs = s.downs := rfl
@[simp] theorem State.putLink_recent (l : Link) : (s.putLink l).recent = s.recent := rfl
@[simp] theorem State.putLink_fills (l : Link) : (s.putLink l).fills = s.fills := rfl

@[simp] theorem State.setTurns_part (key k : Nat) : (s.setTurns key k).part = s.part := rfl
@[simp] theorem State.setTurns_mem (key k : Nat) : (s.setTurns key k).mem = s.mem := rfl
@[simp] theorem State.setTurns_tags (key k : Nat) : (s.setTurns key k).tags = s.tags := rfl
@[simp] theorem State.setTurns_poison (key k : Nat) : (s.setTurns key k).poison = s.poison := rfl
@[simp] theorem State.setTurns_regs (key k : Nat) : (s.setTurns key k).regs = s.regs := rfl
@[simp] theorem State.setTurns_cxRegs (key k : Nat) : (s.setTurns key k).cxRegs = s.cxRegs := rfl
@[simp] theorem State.setTurns_groups (key k : Nat) : (s.setTurns key k).groups = s.groups := rfl
@[simp] theorem State.setTurns_wgs (key k : Nat) : (s.setTurns key k).wgs = s.wgs := rfl
@[simp] theorem State.setTurns_engines (key k : Nat) : (s.setTurns key k).engines = s.engines := rfl
@[simp] theorem State.setTurns_regions (key k : Nat) : (s.setTurns key k).regions = s.regions := rfl
@[simp] theorem State.setTurns_posted (key k : Nat) : (s.setTurns key k).posted = s.posted := rfl
@[simp] theorem State.setTurns_latchQs (key k : Nat) : (s.setTurns key k).latchQs = s.latchQs := rfl
@[simp] theorem State.setTurns_bindings (key k : Nat) : (s.setTurns key k).bindings = s.bindings := rfl
@[simp] theorem State.setTurns_shadows (key k : Nat) : (s.setTurns key k).shadows = s.shadows := rfl
@[simp] theorem State.setTurns_tlb (key k : Nat) : (s.setTurns key k).tlb = s.tlb := rfl
@[simp] theorem State.setTurns_moves (key k : Nat) : (s.setTurns key k).moves = s.moves := rfl
@[simp] theorem State.setTurns_slots (key k : Nat) : (s.setTurns key k).slots = s.slots := rfl
@[simp] theorem State.setTurns_cur (key k : Nat) : (s.setTurns key k).cur = s.cur := rfl
@[simp] theorem State.setTurns_agenda (key k : Nat) : (s.setTurns key k).agenda = s.agenda := rfl
@[simp] theorem State.setTurns_now (key k : Nat) : (s.setTurns key k).now = s.now := rfl
@[simp] theorem State.setTurns_fresh (key k : Nat) : (s.setTurns key k).fresh = s.fresh := rfl
@[simp] theorem State.setTurns_seq (key k : Nat) : (s.setTurns key k).seq = s.seq := rfl
@[simp] theorem State.setTurns_held (key k : Nat) : (s.setTurns key k).held = s.held := rfl
@[simp] theorem State.setTurns_wants (key k : Nat) : (s.setTurns key k).wants = s.wants := rfl
@[simp] theorem State.setTurns_halts (key k : Nat) : (s.setTurns key k).halts = s.halts := rfl
@[simp] theorem State.setTurns_downs (key k : Nat) : (s.setTurns key k).downs = s.downs := rfl
@[simp] theorem State.setTurns_recent (key k : Nat) : (s.setTurns key k).recent = s.recent := rfl
@[simp] theorem State.setTurns_fills (key k : Nat) : (s.setTurns key k).fills = s.fills := rfl

@[simp] theorem State.haltAt_part (ac : Accessor) : (s.haltAt ac).part = s.part := rfl
@[simp] theorem State.haltAt_mem (ac : Accessor) : (s.haltAt ac).mem = s.mem := rfl
@[simp] theorem State.haltAt_tags (ac : Accessor) : (s.haltAt ac).tags = s.tags := rfl
@[simp] theorem State.haltAt_poison (ac : Accessor) : (s.haltAt ac).poison = s.poison := rfl
@[simp] theorem State.haltAt_regs (ac : Accessor) : (s.haltAt ac).regs = s.regs := rfl
@[simp] theorem State.haltAt_cxRegs (ac : Accessor) : (s.haltAt ac).cxRegs = s.cxRegs := rfl
@[simp] theorem State.haltAt_groups (ac : Accessor) : (s.haltAt ac).groups = s.groups := rfl
@[simp] theorem State.haltAt_wgs (ac : Accessor) : (s.haltAt ac).wgs = s.wgs := rfl
@[simp] theorem State.haltAt_engines (ac : Accessor) : (s.haltAt ac).engines = s.engines := rfl
@[simp] theorem State.haltAt_regions (ac : Accessor) : (s.haltAt ac).regions = s.regions := rfl
@[simp] theorem State.haltAt_posted (ac : Accessor) : (s.haltAt ac).posted = s.posted := rfl
@[simp] theorem State.haltAt_latchQs (ac : Accessor) : (s.haltAt ac).latchQs = s.latchQs := rfl
@[simp] theorem State.haltAt_bindings (ac : Accessor) : (s.haltAt ac).bindings = s.bindings := rfl
@[simp] theorem State.haltAt_shadows (ac : Accessor) : (s.haltAt ac).shadows = s.shadows := rfl
@[simp] theorem State.haltAt_tlb (ac : Accessor) : (s.haltAt ac).tlb = s.tlb := rfl
@[simp] theorem State.haltAt_moves (ac : Accessor) : (s.haltAt ac).moves = s.moves := rfl
@[simp] theorem State.haltAt_slots (ac : Accessor) : (s.haltAt ac).slots = s.slots := rfl
@[simp] theorem State.haltAt_cur (ac : Accessor) : (s.haltAt ac).cur = s.cur := rfl
@[simp] theorem State.haltAt_agenda (ac : Accessor) : (s.haltAt ac).agenda = s.agenda := rfl
@[simp] theorem State.haltAt_now (ac : Accessor) : (s.haltAt ac).now = s.now := rfl
@[simp] theorem State.haltAt_fresh (ac : Accessor) : (s.haltAt ac).fresh = s.fresh := rfl
@[simp] theorem State.haltAt_seq (ac : Accessor) : (s.haltAt ac).seq = s.seq := rfl
@[simp] theorem State.haltAt_held (ac : Accessor) : (s.haltAt ac).held = true := rfl
@[simp] theorem State.haltAt_wants (ac : Accessor) : (s.haltAt ac).wants = s.wants := rfl
@[simp] theorem State.haltAt_halts (ac : Accessor) : (s.haltAt ac).halts = some ac := rfl
@[simp] theorem State.haltAt_turns (ac : Accessor) : (s.haltAt ac).turns = s.turns := rfl
@[simp] theorem State.haltAt_downs (ac : Accessor) : (s.haltAt ac).downs = s.downs := rfl
@[simp] theorem State.haltAt_recent (ac : Accessor) : (s.haltAt ac).recent = s.recent := rfl
@[simp] theorem State.haltAt_fills (ac : Accessor) : (s.haltAt ac).fills = s.fills := rfl

@[simp] theorem State.hold_part  : (s.hold ).part = s.part := rfl
@[simp] theorem State.hold_mem  : (s.hold ).mem = s.mem := rfl
@[simp] theorem State.hold_tags  : (s.hold ).tags = s.tags := rfl
@[simp] theorem State.hold_poison  : (s.hold ).poison = s.poison := rfl
@[simp] theorem State.hold_regs  : (s.hold ).regs = s.regs := rfl
@[simp] theorem State.hold_cxRegs  : (s.hold ).cxRegs = s.cxRegs := rfl
@[simp] theorem State.hold_groups  : (s.hold ).groups = s.groups := rfl
@[simp] theorem State.hold_wgs  : (s.hold ).wgs = s.wgs := rfl
@[simp] theorem State.hold_engines  : (s.hold ).engines = s.engines := rfl
@[simp] theorem State.hold_regions  : (s.hold ).regions = s.regions := rfl
@[simp] theorem State.hold_posted  : (s.hold ).posted = s.posted := rfl
@[simp] theorem State.hold_latchQs  : (s.hold ).latchQs = s.latchQs := rfl
@[simp] theorem State.hold_bindings  : (s.hold ).bindings = s.bindings := rfl
@[simp] theorem State.hold_shadows  : (s.hold ).shadows = s.shadows := rfl
@[simp] theorem State.hold_tlb  : (s.hold ).tlb = s.tlb := rfl
@[simp] theorem State.hold_moves  : (s.hold ).moves = s.moves := rfl
@[simp] theorem State.hold_slots  : (s.hold ).slots = s.slots := rfl
@[simp] theorem State.hold_cur  : (s.hold ).cur = s.cur := rfl
@[simp] theorem State.hold_agenda  : (s.hold ).agenda = s.agenda := rfl
@[simp] theorem State.hold_now  : (s.hold ).now = s.now := rfl
@[simp] theorem State.hold_fresh  : (s.hold ).fresh = s.fresh := rfl
@[simp] theorem State.hold_seq  : (s.hold ).seq = s.seq := rfl
@[simp] theorem State.hold_held  : (s.hold ).held = true := rfl
@[simp] theorem State.hold_wants  : (s.hold ).wants = s.wants := rfl
@[simp] theorem State.hold_halts  : (s.hold ).halts = s.halts := rfl
@[simp] theorem State.hold_turns  : (s.hold ).turns = s.turns := rfl
@[simp] theorem State.hold_downs  : (s.hold ).downs = s.downs := rfl
@[simp] theorem State.hold_recent  : (s.hold ).recent = s.recent := rfl
@[simp] theorem State.hold_fills  : (s.hold ).fills = s.fills := rfl

@[simp] theorem State.holdFill_part (vf ctx gpa : Nat) : (s.holdFill vf ctx gpa).part = s.part := rfl
@[simp] theorem State.holdFill_mem (vf ctx gpa : Nat) : (s.holdFill vf ctx gpa).mem = s.mem := rfl
@[simp] theorem State.holdFill_tags (vf ctx gpa : Nat) : (s.holdFill vf ctx gpa).tags = s.tags := rfl
@[simp] theorem State.holdFill_poison (vf ctx gpa : Nat) : (s.holdFill vf ctx gpa).poison = s.poison := rfl
@[simp] theorem State.holdFill_regs (vf ctx gpa : Nat) : (s.holdFill vf ctx gpa).regs = s.regs := rfl
@[simp] theorem State.holdFill_cxRegs (vf ctx gpa : Nat) : (s.holdFill vf ctx gpa).cxRegs = s.cxRegs := rfl
@[simp] theorem State.holdFill_groups (vf ctx gpa : Nat) : (s.holdFill vf ctx gpa).groups = s.groups := rfl
@[simp] theorem State.holdFill_wgs (vf ctx gpa : Nat) : (s.holdFill vf ctx gpa).wgs = s.wgs := rfl
@[simp] theorem State.holdFill_engines (vf ctx gpa : Nat) : (s.holdFill vf ctx gpa).engines = s.engines := rfl
@[simp] theorem State.holdFill_regions (vf ctx gpa : Nat) : (s.holdFill vf ctx gpa).regions = s.regions := rfl
@[simp] theorem State.holdFill_posted (vf ctx gpa : Nat) : (s.holdFill vf ctx gpa).posted = s.posted := rfl
@[simp] theorem State.holdFill_latchQs (vf ctx gpa : Nat) : (s.holdFill vf ctx gpa).latchQs = s.latchQs := rfl
@[simp] theorem State.holdFill_bindings (vf ctx gpa : Nat) : (s.holdFill vf ctx gpa).bindings = s.bindings := rfl
@[simp] theorem State.holdFill_shadows (vf ctx gpa : Nat) : (s.holdFill vf ctx gpa).shadows = s.shadows := rfl
@[simp] theorem State.holdFill_tlb (vf ctx gpa : Nat) : (s.holdFill vf ctx gpa).tlb = s.tlb := rfl
@[simp] theorem State.holdFill_moves (vf ctx gpa : Nat) : (s.holdFill vf ctx gpa).moves = s.moves := rfl
@[simp] theorem State.holdFill_slots (vf ctx gpa : Nat) : (s.holdFill vf ctx gpa).slots = s.slots := rfl
@[simp] theorem State.holdFill_cur (vf ctx gpa : Nat) : (s.holdFill vf ctx gpa).cur = s.cur := rfl
@[simp] theorem State.holdFill_agenda (vf ctx gpa : Nat) : (s.holdFill vf ctx gpa).agenda = s.agenda := rfl
@[simp] theorem State.holdFill_now (vf ctx gpa : Nat) : (s.holdFill vf ctx gpa).now = s.now := rfl
@[simp] theorem State.holdFill_fresh (vf ctx gpa : Nat) : (s.holdFill vf ctx gpa).fresh = s.fresh := rfl
@[simp] theorem State.holdFill_seq (vf ctx gpa : Nat) : (s.holdFill vf ctx gpa).seq = s.seq := rfl
@[simp] theorem State.holdFill_held (vf ctx gpa : Nat) : (s.holdFill vf ctx gpa).held = true := rfl
@[simp] theorem State.holdFill_wants (vf ctx gpa : Nat) : (s.holdFill vf ctx gpa).wants = some (vf, ctx, gpa) := rfl
@[simp] theorem State.holdFill_halts (vf ctx gpa : Nat) : (s.holdFill vf ctx gpa).halts = s.halts := rfl
@[simp] theorem State.holdFill_turns (vf ctx gpa : Nat) : (s.holdFill vf ctx gpa).turns = s.turns := rfl
@[simp] theorem State.holdFill_downs (vf ctx gpa : Nat) : (s.holdFill vf ctx gpa).downs = s.downs := rfl
@[simp] theorem State.holdFill_recent (vf ctx gpa : Nat) : (s.holdFill vf ctx gpa).recent = s.recent := rfl
@[simp] theorem State.holdFill_fills (vf ctx gpa : Nat) : (s.holdFill vf ctx gpa).fills = s.fills := rfl

/-! ## Registers -/

theorem State.reg_setReg (off off' : Nat) (v : Dword) : (s.setReg off v).reg off' = if off = off' then v else s.reg off' :=
  Sparse.look_put s.regs off off' v

theorem State.vfReg_setReg (off vf o : Nat) (v : Dword) : (s.setReg off v).vfReg vf o = if off = vfBase vf + o then v else s.vfReg vf o :=
  Sparse.look_put s.regs off _ v

theorem State.cxReg_setCxReg (vf ctx off vf' ctx' off' : Nat) (v : Dword) :
    (s.setCxReg vf ctx off v).cxReg vf' ctx' off' = if cxKey vf ctx off = cxKey vf' ctx' off' then v else s.cxReg vf' ctx' off' :=
  Sparse.look_put s.cxRegs _ _ v

/-! ## Groups and workgroups -/

/-- The group of a slot after a change of the group in a slot that keeps its place. -/
theorem State.group?_updGroup (core slot : Nat) (f : Group → Group) (hf : ∀ g, (f g).core = g.core ∧ (f g).slot = g.slot) (c k : Nat) :
    (s.updGroup core slot f).group? c k = (s.group? c k).map (fun g => if g.core = core ∧ g.slot = slot then f g else g) := by
  simp only [State.group?, State.updGroup]
  induction s.groups with
  | nil => rfl
  | cons g gs ih =>
    simp only [List.map_cons, List.find?_cons]
    by_cases h : g.core = core ∧ g.slot = slot
    · simp only [h, and_self, if_true, (hf g).1, (hf g).2]
      split
      · simp [h]
      · exact ih
    · simp only [if_neg h]
      split
      · simp [if_neg h]
      · exact ih

theorem State.group?_place {core slot : Nat} {g : Group} (h : s.group? core slot = some g) : g.core = core ∧ g.slot = slot := by
  have := List.find?_some h
  simpa using this

theorem State.wg?_id {id : Nat} {w : Workgroup} (h : s.wg? id = some w) : w.id = id := by
  have := List.find?_some h
  simpa using this

/-- What the group of the operation in issue holds after a write to the lanes of ACTIVE. -/
theorem State.group?_writeLanes (is : Issue) (f : Nat → Lane → Lane) (h : s.group? is.g.core is.g.slot = some is.g) (ha : is.acc = false) :
    (s.writeLanes is f).group? is.g.core is.g.slot = some { is.g with lanes := mapLanes f is.mask is.g.lanes } := by
  unfold State.writeLanes
  rw [State.group?_updGroup]
  · simp [h, ha]
  · intro g; split <;> exact ⟨rfl, rfl⟩

end Sys2Proof.Machine
end

