-- ==== Sys2Proof/Laws/Step.lean ====
section
/-! SUPPORT. What one step of the machine can do: a move after the cycles before it, or a wait for what its accesses need (R65, R282). -/

namespace Sys2Proof.Machine

variable {s t : State} {w : Who}

/-- A move whose accesses all reached their places stands as it was made. -/
theorem State.orWait_made (h : t.held = false) : t.orWait s = t := by
  simp [State.orWait, h]

/-- A move in which an access had to wait leaves the state before it, or starts the promotion that it waits for. -/
theorem State.orWait_waits (h : t.held = true) :
    t.orWait s = s ∨ ∃ vf ctx gpa, t.wants = some (vf, ctx, gpa) ∧ t.orWait s = s.startFill vf ctx gpa := by
  simp only [State.orWait, h, if_true]
  split
  · exact .inr ⟨_, _, _, by assumption, rfl⟩
  · exact .inl rfl

/-- A move settles as it was made, or as its wait leaves it, where no replay stop has come. -/
theorem State.settled_goes (h : t.halts = none) : t.settled s = t.orWait s := by
  simp [State.settled, h]

theorem State.settled_made (h : t.held = false) : t.settled s = t := by
  simp [State.settled, State.orWait, h]

/-- A move in which an access stands at the stop index leaves the state before it, with the context stopped. -/
theorem State.settled_stops {ac : Accessor} (h : t.held = true) (hs : t.halts = some ac) : t.settled s = s.replayStop ac := by
  simp [State.settled, h, hs]

/-- A move that goes on makes the step go on. -/
theorem State.make_next (h : s.move w = .next t) : s.make w = .next (t.settled s) := by
  simp [State.make, h]

/-- A step is the next move of the agenda, the default move, or one cycle in which nothing moves. -/
theorem State.takeStep_cases (s : State) :
    (∃ m rest, s.agenda = m :: rest ∧ s.takeStep = (s.before m rest).make m.who) ∨
    (∃ w, s.agenda = [] ∧ s.defaultWho = some w ∧ s.takeStep = (s.before { dt := 1, who := w } []).make w) ∨
    (s.agenda = [] ∧ s.defaultWho = none ∧ s.takeStep = .next (s.advance 1)) := by
  unfold State.takeStep
  split
  · exact .inl ⟨_, _, by assumption, rfl⟩
  · rename_i h
    split
    · exact .inr (.inl ⟨_, h, by assumption, rfl⟩)
    · exact .inr (.inr ⟨h, by assumption, rfl⟩)

/-- A fetch waits for the pages of its code, or goes on with their touch bits set. -/
theorem State.onCode_cases (s : State) (wg : Workgroup) (r : Region) (func p : Nat) (f : State → Out) :
    (∃ t, s.onCode wg r func p f = .next t) ∨
    s.onCode wg r func p f = f ((s.codePages wg r func p).foldl (fun s k => s.visit wg.vf wg.ctx (k * 65536)) s) := by
  simp only [State.onCode]
  split
  · exact .inl ⟨_, rfl⟩
  · exact .inr rfl

end Sys2Proof.Machine
end

