-- ==== Sys2Proof/Tests/Slice0.lean ====
section
/-! SUPPORT. Tests: words of the spec's encodings, ill-formed instructions, effects on small states, and for every statement with hypotheses a
state that meets them. Expected values come from the spec's own examples and tables, or from them by hand. -/

namespace Sys2Proof.Machine

/-! ## Small states -/

/-- Fields without a prefix parcel, whose operands are registers. -/
def regF (ty : Ty) (dest a b c mod : Nat) (rnd : Rnd) (spec : Nat) : Fields :=
  { pre := none, ty := ty, dest := BitVec.ofNat 6 dest, a := .reg (BitVec.ofNat 6 a), b := .reg (BitVec.ofNat 6 b), c := .reg (BitVec.ofNat 6 c),
    mod := BitVec.ofNat 5 mod, rnd := rnd, spec := BitVec.ofNat 8 spec }

/-- The placed state of log entry 23, with the operation `i` at its group's position. -/
def placed (i : Instr) : State := State.reset.withParcels (encode i)

/-- The placed group in issue with its whole mask. -/
def inIssue (s : State) : State := s.issueAs 0 0 false 0xFFFFFFFF

/-- Registers of the lanes of every group, by lane. -/
def withRegs (rs : Nat → Sparse 32) (s : State) : State :=
  { s with groups := s.groups.map (fun g => { g with lanes := (List.range 32).map (fun L => { g.lane L with regs := rs L }) }) }

/-- The placed state in issue with registers, and the lanes `m` of its group in the run. -/
def standIn (m : Mask) (i : Instr) (rs : Nat → Sparse 32) : State := (withRegs rs (placed i)).issueAs 0 0 false m

/-- The same with all lanes. -/
def stand (i : Instr) (rs : Nat → Sparse 32) : State := standIn 0xFFFFFFFF i rs

def nextOf (o : Out) : Option State :=
  match o with
  | .next t => some t
  | _ => none

/-- Register `k` of lane `L` after `i` of the lanes `m`. -/
def landsIn (m : Mask) (i : Instr) (rs : Nat → Sparse 32) (L k : Nat) : Option Word :=
  (nextOf (exec i (standIn m i rs))).bind (fun t => (t.group? 0 0).map (fun g => (g.lane L).reg k))

/-- Register `k` of lane `L` after `i` of that lane alone. -/
def lands (i : Instr) (rs : Nat → Sparse 32) (L k : Nat) : Option Word := landsIn (1#32 <<< L) i rs L k

/-- The same registers in every lane. -/
def each (m : Sparse 32) (_ : Nat) : Sparse 32 := m

/-- The operation in issue of a state. -/
def isOf (s : State) : Issue :=
  s.issue?.getD { g := Group.fresh 0 0 0 0 0 0 [] none, w := placedWg 0, r := placedRegion, mask := 0, acc := false }

/-- The operation in issue passes the checks of R150. -/
def readyB (i : Instr) (s : State) : Bool := s.issue?.isSome && (issueCheck i s (isOf s)).isNone

theorem ready_of {i : Instr} {s : State} (h : readyB i s = true) : Ready i s (isOf s) := by
  simp only [readyB, Bool.and_eq_true, Option.isNone_iff_eq_none] at h
  refine ⟨?_, h.2⟩
  have h1 := h.1
  unfold isOf
  cases hi : s.issue? with
  | none => simp [hi] at h1
  | some x => rfl

/-! ## Decoding: one word of each operation, written out from the tables of R119 to R147 -/

/-- Each pair of parcels decodes to the operation beside it, which is well formed and has those parcels. -/
def reads (xs : List (Word × Word × Instr)) : Bool :=
  xs.all (fun x => decide (decode [x.1, x.2.1] = .ok (x.2.2, [])) && decide (encode x.2.2 = [x.1, x.2.1]) && decide x.2.2.WellFormed)

/-- Each operation of the table passes the checks of R150 in the placed state: the hypothesis of every statement about it can be met. -/
def allReady (xs : List (Word × Word × Instr)) : Bool := xs.all (fun x => readyB x.2.2 (inIssue (placed x.2.2)))

/-- Class 0x1 (R136). -/
def words_integer : List (Word × Word × Instr) := [
  (0x10000102#32, 0x03000000#32, .add (regF .i32 1 2 3 0 0 .rne 0x0)),
  (0x10110102#32, 0x03000000#32, .sub (regF .n32 1 2 3 0 0 .rne 0x0)),
  (0x10220102#32, 0x03000000#32, .mul (regF .i16 1 2 3 0 0 .rne 0x0)),
  (0x10310102#32, 0x03000000#32, .mulhi (regF .n32 1 2 3 0 0 .rne 0x0)),
  (0x10440102#32, 0x03040000#32, .mad (regF .i8 1 2 3 4 0 .rne 0x0)),
  (0x10510102#32, 0x03000000#32, .div (regF .n32 1 2 3 0 0 .rne 0x0)),
  (0x10660406#32, 0x08000000#32, .rem (regF .i64 4 6 8 0 0 .rne 0x0)),
  (0x10770406#32, 0x08000000#32, .min (regF .n64 4 6 8 0 0 .rne 0x0)),
  (0x10800102#32, 0x03000000#32, .max (regF .i32 1 2 3 0 0 .rne 0x0)),
  (0x10920102#32, 0x00000000#32, .abs (regF .i16 1 2 0 0 0 .rne 0x0)),
  (0x10A40102#32, 0x00000000#32, .neg (regF .i8 1 2 0 0 0 .rne 0x0)),
  (0x10B30102#32, 0x03000000#32, .adds (regF .n16 1 2 3 0 0 .rne 0x0)),
  (0x10C40102#32, 0x03000000#32, .subs (regF .i8 1 2 3 0 0 .rne 0x0)),
  (0x11040102#32, 0x03000000#32, .and (regF .i8 1 2 3 0 0 .rne 0x0)),
  (0x11150102#32, 0x03000000#32, .or (regF .n8 1 2 3 0 0 .rne 0x0)),
  (0x11260406#32, 0x08000000#32, .xor (regF .i64 4 6 8 0 0 .rne 0x0)),
  (0x11370406#32, 0x00000000#32, .not (regF .n64 4 6 0 0 0 .rne 0x0)),
  (0x114F0102#32, 0x03000000#32, .andn (regF .b32 1 2 3 0 0 .rne 0x0)),
  (0x11820102#32, 0x03000000#32, .shl (regF .i16 1 2 3 0 0 .rne 0x0)),
  (0x11930102#32, 0x03000000#32, .shr (regF .n16 1 2 3 0 0 .rne 0x0)),
  (0x11A00102#32, 0x03000000#32, .rotl (regF .i32 1 2 3 0 0 .rne 0x0)),
  (0x12070106#32, 0x00000000#32, .popc (regF .n64 1 6 0 0 0 .rne 0x0)),
  (0x12110102#32, 0x00000000#32, .clz (regF .n32 1 2 0 0 0 .rne 0x0)),
  (0x12270106#32, 0x00000000#32, .ctz (regF .n64 1 6 0 0 0 .rne 0x0)),
  (0x12310102#32, 0x00000000#32, .brev (regF .n32 1 2 0 0 0 .rne 0x0)),
  (0x12410102#32, 0x03040000#32, .bfx (regF .n32 1 2 3 4 0 .rne 0x0)),
  (0x12510102#32, 0x03040000#32, .bfi (regF .n32 1 2 3 4 0 .rne 0x0)),
  (0x12830102#32, 0x03001800#32, .cmp (regF .n16 1 2 3 0 3 .rne 0x0)),
  (0x12910102#32, 0x03040000#32, .pick (regF .n32 1 2 3 4 0 .rne 0x0)),
  (0x12A20102#32, 0x00000000#32, .mov (regF .i16 1 2 0 0 0 .rne 0x0))]

/-- Class 0x2 (R137). -/
def words_float : List (Word × Word × Instr) := [
  (0x20080102#32, 0x03000300#32, .fAdd (regF .f32 1 2 3 0 0 .rup 0x0)),
  (0x20190102#32, 0x03000000#32, .fSub (regF .f16 1 2 3 0 0 .rne 0x0)),
  (0x202A0102#32, 0x03000000#32, .fMul (regF .bf16 1 2 3 0 0 .rne 0x0)),
  (0x20380102#32, 0x03040300#32, .fma (regF .f32 1 2 3 4 0 .rup 0x0)),
  (0x20480102#32, 0x03000300#32, .fDiv (regF .f32 1 2 3 0 0 .rup 0x0)),
  (0x20580102#32, 0x00000000#32, .sqrt (regF .f32 1 2 0 0 0 .rne 0x0)),
  (0x20680102#32, 0x03000000#32, .fMin (regF .f32 1 2 3 0 0 .rne 0x0)),
  (0x20790102#32, 0x03000000#32, .fMax (regF .f16 1 2 3 0 0 .rne 0x0)),
  (0x208A0102#32, 0x00000000#32, .fAbs (regF .bf16 1 2 0 0 0 .rne 0x0)),
  (0x20980102#32, 0x00000000#32, .fNeg (regF .f32 1 2 0 0 0 .rne 0x0)),
  (0x20A90102#32, 0x03003800#32, .fCmp (regF .f16 1 2 3 0 7 .rne 0x0)),
  (0x20BA0102#32, 0x00000000#32, .fclass (regF .bf16 1 2 0 0 0 .rne 0x0)),
  (0x21080102#32, 0x00000000#32, .rcp (regF .f32 1 2 0 0 0 .rne 0x0)),
  (0x21190102#32, 0x00000000#32, .rsqrt (regF .f16 1 2 0 0 0 .rne 0x0)),
  (0x21280102#32, 0x00000000#32, .exp2 (regF .f32 1 2 0 0 0 .rne 0x0)),
  (0x21390102#32, 0x00000000#32, .log2 (regF .f16 1 2 0 0 0 .rne 0x0)),
  (0x21480102#32, 0x00000000#32, .sin (regF .f32 1 2 0 0 0 .rne 0x0)),
  (0x21580102#32, 0x00000000#32, .cos (regF .f32 1 2 0 0 0 .rne 0x0)),
  (0x21680102#32, 0x00000000#32, .tanh (regF .f32 1 2 0 0 0 .rne 0x0))]

/-- Class 0x3 (R138). -/
def words_conversion : List (Word × Word × Instr) := [
  (0x30080102#32, 0x00000019#32, .cvt (regF .f32 1 2 0 0 0 .rne 0x19)),
  (0x301B0102#32, 0x03040018#32, .cvtPk (regF .e4m3 1 2 3 4 0 .rne 0x18)),
  (0x302F0102#32, 0x03040000#32, .bpick (regF .b32 1 2 3 4 0 .rne 0x0))]

/-- Class 0x4 (R139). -/
def words_lane : List (Word × Word × Instr) := [
  (0x40010102#32, 0x03000000#32, .xchLane (regF .n32 1 2 3 0 0 .rne 0x0)),
  (0x40160406#32, 0x03000000#32, .xchRot (regF .i64 4 6 3 0 0 .rne 0x0)),
  (0x40270406#32, 0x03000000#32, .xchPair (regF .n64 4 6 3 0 0 .rne 0x0)),
  (0x40380102#32, 0x03000000#32, .xchSeg (regF .f32 1 2 3 0 0 .rne 0x0)),
  (0x40800102#32, 0x00000000#32, .voteAll (regF .i32 1 2 0 0 0 .rne 0x0)),
  (0x40900102#32, 0x00000000#32, .voteAny (regF .i32 1 2 0 0 0 .rne 0x0)),
  (0x40A00102#32, 0x00000000#32, .voteUni (regF .i32 1 2 0 0 0 .rne 0x0)),
  (0x40B00102#32, 0x00000000#32, .ballot (regF .i32 1 2 0 0 0 .rne 0x0)),
  (0x40C00100#32, 0x00000000#32, .elect (regF .i32 1 0 0 0 0 .rne 0x0)),
  (0x40DF0102#32, 0x00000000#32, .first (regF .b32 1 2 0 0 0 .rne 0x0)),
  (0x41000102#32, 0x00000000#32, .lredAdd (regF .i32 1 2 0 0 0 .rne 0x0)),
  (0x41110102#32, 0x00000000#32, .lredMin (regF .n32 1 2 0 0 0 .rne 0x0)),
  (0x41280102#32, 0x00000000#32, .lredMax (regF .f32 1 2 0 0 0 .rne 0x0))]

/-- Class 0x5 (R140). -/
def words_load_store : List (Word × Word × Instr) := [
  (0x50030106#32, 0x03000000#32, .ld (regF .n16 1 6 3 0 0 .rne 0x0)),
  (0x50140402#32, 0x03000000#32, .st (regF .i8 4 2 3 0 0 .rne 0x0)),
  (0x502F0C06#32, 0x03000000#32, .ldX4 (regF .b32 12 6 3 0 0 .rne 0x0)),
  (0x503F0402#32, 0x10000000#32, .stX4 (regF .b32 4 2 16 0 0 .rne 0x0))]

/-- Class 0x6 (R141). -/
def words_queue_copy : List (Word × Word × Instr) := [
  (0x60000002#32, 0x03000852#32, .qfeed (regF .i32 0 2 3 0 1 .rne 0x52)),
  (0x60100100#32, 0x00000006#32, .qpop (regF .i32 1 0 0 0 0 .rne 0x6)),
  (0x60200100#32, 0x00000006#32, .qstate (regF .i32 1 0 0 0 0 .rne 0x6)),
  (0x60800406#32, 0x0304100F#32, .cpAsync (regF .i32 4 6 3 4 2 .rne 0xF)),
  (0x60900006#32, 0x00000000#32, .twaitAny (regF .i32 0 6 0 0 0 .rne 0x0)),
  (0x60A00006#32, 0x00000000#32, .twaitAll (regF .i32 0 6 0 0 0 .rne 0x0)),
  (0x60B00106#32, 0x00000000#32, .tfirst (regF .i32 1 6 0 0 0 .rne 0x0))]

/-- Class 0x7 (R142). -/
def words_sync : List (Word × Word × Instr) := [
  (0x70000402#32, 0x08000000#32, .bind (regF .i32 4 2 8 0 0 .rne 0x0)),
  (0x70100400#32, 0x00000000#32, .unbind (regF .i32 4 0 0 0 0 .rne 0x0)),
  (0x70200400#32, 0x00000000#32, .acqX (regF .i32 4 0 0 0 0 .rne 0x0)),
  (0x70300400#32, 0x00000000#32, .acqS (regF .i32 4 0 0 0 0 .rne 0x0)),
  (0x70400400#32, 0x00000000#32, .rel (regF .i32 4 0 0 0 0 .rne 0x0)),
  (0x70800000#32, 0x00001000#32, .fence (regF .i32 0 0 0 0 2 .rne 0x0)),
  (0x70900402#32, 0x08040000#32, .wsig (regF .i32 4 2 8 4 0 .rne 0x0)),
  (0x71000402#32, 0x00000000#32, .barInit (regF .i32 4 2 0 0 0 .rne 0x0)),
  (0x71100402#32, 0x00000000#32, .barArrive (regF .i32 4 2 0 0 0 .rne 0x0)),
  (0x71200402#32, 0x00000000#32, .barWait (regF .i32 4 2 0 0 0 .rne 0x0)),
  (0x71300402#32, 0x00000000#32, .barExpect (regF .i32 4 2 0 0 0 .rne 0x0)),
  (0x71400402#32, 0x00000000#32, .barLink (regF .i32 4 2 0 0 0 .rne 0x0)),
  (0x71800402#32, 0x00000000#32, .dbarInit (regF .i32 4 2 0 0 0 .rne 0x0)),
  (0x71900402#32, 0x00000000#32, .dbarArrive (regF .i32 4 2 0 0 0 .rne 0x0)),
  (0x71A00402#32, 0x00000000#32, .dbarWait (regF .i32 4 2 0 0 0 .rne 0x0))]

/-- Class 0x8 (R143). -/
def words_atomic : List (Word × Word × Instr) := [
  (0x80010106#32, 0x03040000#32, .atomAdd (regF .n32 1 6 3 4 0 .rne 0x0)),
  (0x80160406#32, 0x030A0000#32, .atomMin (regF .i64 4 6 3 10 0 .rne 0x0)),
  (0x80270406#32, 0x030A0000#32, .atomMax (regF .n64 4 6 3 10 0 .rne 0x0)),
  (0x80310106#32, 0x03040000#32, .atomAnd (regF .n32 1 6 3 4 0 .rne 0x0)),
  (0x80470406#32, 0x030A0000#32, .atomOr (regF .n64 4 6 3 10 0 .rne 0x0)),
  (0x80510106#32, 0x03040000#32, .atomXor (regF .n32 1 6 3 4 0 .rne 0x0)),
  (0x80610106#32, 0x03040000#32, .atomXchg (regF .n32 1 6 3 4 0 .rne 0x0)),
  (0x80770406#32, 0x080A0000#32, .atomCas (regF .n64 4 6 8 10 0 .rne 0x0)),
  (0x81080402#32, 0x03000000#32, .redAdd (regF .f32 4 2 3 0 0 .rne 0x0)),
  (0x81160402#32, 0x08000000#32, .redMin (regF .i64 4 2 8 0 0 .rne 0x0)),
  (0x81270402#32, 0x08000000#32, .redMax (regF .n64 4 2 8 0 0 .rne 0x0)),
  (0x81310402#32, 0x03000000#32, .redAnd (regF .n32 4 2 3 0 0 .rne 0x0)),
  (0x81470402#32, 0x08000000#32, .redOr (regF .n64 4 2 8 0 0 .rne 0x0)),
  (0x81510402#32, 0x03000000#32, .redXor (regF .n32 4 2 3 0 0 .rne 0x0))]

/-- Class 0x9 (R144). -/
def words_matrix : List (Word × Word × Instr) := [
  (0x90000102#32, 0x00000000#32, .mres (regF .i32 1 2 0 0 0 .rne 0x0)),
  (0x90100000#32, 0x00000000#32, .mrel (regF .i32 0 0 0 0 0 .rne 0x0)),
  (0x90200006#32, 0x0304000B#32, .obres (regF .i32 0 6 3 4 0 .rne 0xB)),
  (0x90300000#32, 0x0000000B#32, .obrel (regF .i32 0 0 0 0 0 .rne 0xB)),
  (0x90400006#32, 0x0300000B#32, .tld (regF .i32 0 6 3 0 0 .rne 0xB)),
  (0x90500006#32, 0x0300000B#32, .tst (regF .i32 0 6 3 0 0 .rne 0xB)),
  (0x90600000#32, 0x0000000B#32, .tclr (regF .i32 0 0 0 0 0 .rne 0xB)),
  (0x90800000#32, 0x00000000#32, .mfenceOp (regF .i32 0 0 0 0 0 .rne 0x0)),
  (0x90900006#32, 0x00000000#32, .mlaunch (regF .i32 0 6 0 0 0 .rne 0x0)),
  (0x90A00002#32, 0x03000000#32, .mwait (regF .i32 0 2 3 0 0 .rne 0x0)),
  (0x90B00100#32, 0x00000000#32, .mstate (regF .i32 1 0 0 0 0 .rne 0x0))]

/-- Class 0xA (R145). -/
def words_control : List (Word × Word × Instr) := [
  (0xA0000000#32, 0x00000002#32, .quit (regF .i32 0 0 0 0 0 .rne 0x2)),
  (0xA0100002#32, 0x00000002#32, .quitIf (regF .i32 0 2 0 0 0 .rne 0x2)),
  (0xA0200000#32, 0x00000002#32, .next (regF .i32 0 0 0 0 0 .rne 0x2)),
  (0xA0300002#32, 0x00000002#32, .nextIf (regF .i32 0 2 0 0 0 .rne 0x2)),
  (0xA0400000#32, 0x00000000#32, .ret (regF .i32 0 0 0 0 0 .rne 0x0)),
  (0xA0500002#32, 0x00000000#32, .retIf (regF .i32 0 2 0 0 0 .rne 0x0)),
  (0xA0600000#32, 0x00000000#32, .exit (regF .i32 0 0 0 0 0 .rne 0x0)),
  (0xA0700002#32, 0x00000000#32, .exitIf (regF .i32 0 2 0 0 0 .rne 0x0)),
  (0xA1000102#32, 0x03040000#32, .spawn (regF .i32 1 2 3 4 0 .rne 0x0)),
  (0xA1100006#32, 0x00000000#32, .launch (regF .i32 0 6 0 0 0 .rne 0x0)),
  (0xA1200000#32, 0x00000000#32, .yield (regF .i32 0 0 0 0 0 .rne 0x0))]

/-- Class 0xB (R146). -/
def words_system : List (Word × Word × Instr) := [
  (0xB0000400#32, 0x00000006#32, .ctlGet (regF .i32 4 0 0 0 0 .rne 0x6)),
  (0xB0100002#32, 0x00000002#32, .ctlSet (regF .i32 0 2 0 0 0 .rne 0x2)),
  (0xB0200002#32, 0x00000000#32, .trap (regF .i32 0 2 0 0 0 .rne 0x0)),
  (0xB0300000#32, 0x00000000#32, .halt (regF .i32 0 0 0 0 0 .rne 0x0)),
  (0xB0400000#32, 0x00000000#32, .nop (regF .i32 0 0 0 0 0 .rne 0x0)),
  (0xB0800106#32, 0x00000000#32, .probe (regF .i32 1 6 0 0 0 .rne 0x0)),
  (0xB0900002#32, 0x00000000#32, .prof (regF .i32 0 2 0 0 0 .rne 0x0))]

/-- Class 0xC (R147). -/
def words_tag_debug : List (Word × Word × Instr) := [
  (0xC0000402#32, 0x03000000#32, .stag (regF .i32 4 2 3 0 0 .rne 0x0)),
  (0xC0100106#32, 0x00000000#32, .ltag (regF .i32 1 6 0 0 0 .rne 0x0)),
  (0xC0800000#32, 0x00000000#32, .brk (regF .i32 0 0 0 0 0 .rne 0x0))]

set_option maxRecDepth 10000
set_option Elab.async false

theorem test_decode_integer : reads words_integer = true := by decide +kernel
theorem test_decode_float : reads words_float = true := by decide +kernel
theorem test_decode_conversion : reads words_conversion = true := by decide +kernel
theorem test_decode_lane : reads words_lane = true := by decide +kernel
theorem test_decode_load_store : reads words_load_store = true := by decide +kernel
theorem test_decode_queue_copy : reads words_queue_copy = true := by decide +kernel
theorem test_decode_sync : reads words_sync = true := by decide +kernel
theorem test_decode_atomic : reads words_atomic = true := by decide +kernel
theorem test_decode_matrix : reads words_matrix = true := by decide +kernel
theorem test_decode_control : reads words_control = true := by decide +kernel
theorem test_decode_system : reads words_system = true := by decide +kernel
theorem test_decode_tag_debug : reads words_tag_debug = true := by decide +kernel

theorem witness_ready_integer : allReady words_integer = true := by decide +kernel
theorem witness_ready_float : allReady words_float = true := by decide +kernel
theorem witness_ready_conversion : allReady words_conversion = true := by decide +kernel
theorem witness_ready_lane : allReady words_lane = true := by decide +kernel
theorem witness_ready_load_store : allReady words_load_store = true := by decide +kernel
theorem witness_ready_queue_copy : allReady words_queue_copy.tail = true := by decide +kernel

/-- `qfeed` stands in an access slice (R149). -/
theorem witness_ready_qfeed :
    readyB (.qfeed (regF .i32 0 2 3 0 1 .rne 0x52)) (State.issueAs (placed (.qfeed (regF .i32 0 2 3 0 1 .rne 0x52))) 0 0 true 1) = true := by
  decide +kernel
theorem witness_ready_sync : allReady words_sync = true := by decide +kernel
theorem witness_ready_atomic : allReady words_atomic = true := by decide +kernel
theorem witness_ready_matrix : allReady words_matrix = true := by decide +kernel
theorem witness_ready_control : allReady words_control = true := by decide +kernel
theorem witness_ready_system : allReady words_system = true := by decide +kernel
theorem witness_ready_tag_debug : allReady words_tag_debug = true := by decide +kernel

/-- Words with literals, immediates, index operands and prefix parcels, from "Encodings by example" of the encodings file. -/
def examples : List (List Word × Instr) := [
  ([0x10000102, 0x67000000], .add { regF .i32 1 2 0 0 0 .rne 0 with b := .imm 7 }),
  ([0x10400A40, 0xF0680000, 0x18], .mad { regF .i32 10 0 0 0 0 .rne 0 with a := .idx .lane, b := .lit32 24, c := .imm 8 }),
  ([0x12810D40, 0xF0002800, 0x10], .cmp { regF .n32 13 0 0 0 5 .rne 0 with a := .idx .lane, b := .lit32 16 }),
  ([0x10020102, 0x7F000000], .add { regF .i16 1 2 0 0 0 .rne 0 with b := .imm 31 }),
  ([0x10070602, 0xF0000000, 0x10], .add { regF .n64 6 2 0 0 0 .rne 0 with b := .lit32 16 }),
  ([0x12A704F1, 0x00000000, 0x9ABCDEF0, 0x12345678], .mov { regF .n64 4 0 0 0 0 .rne 0 with a := .lit64 0x123456789ABCDEF0 }),
  ([0x20280605, 0xF0000000, 0x3F400000], .fMul { regF .f32 6 5 0 0 0 .rne 0 with b := .lit32 0x3F400000 }),
  ([0x20380605, 0x06620100], .fma { regF .f32 6 5 6 0 0 .rtz 0 with c := .imm 2 }),
  ([0x300B0706, 0x00000908], .cvt (regF .e4m3 7 6 0 0 1 .rtz 8)),
  ([0xE5800000, 0x50000702, 0x0C000000], .ld { regF .i32 7 2 12 0 0 .rne 0 with
    pre := some { order := .acquire, scope := .die, space := .generic, policy := .normal, notag := false } }),
  ([0x5010026C, 0x0C000000], .st { regF .i32 2 0 12 0 0 .rne 0 with a := .imm 12 }),
  ([0x60800200, 0xF0600000, 0x78], .cpAsync { regF .i32 2 0 0 0 0 .rne 0 with b := .lit32 120, c := .imm 0 }),
  ([0x60800208, 0xF063100F, 0x1000], .cpAsync { regF .i32 2 8 0 0 2 .rne 15 with b := .lit32 4096, c := .imm 3 }),
  ([0x60A00061, 0x00000000], .twaitAll { regF .i32 0 0 0 0 0 .rne 0 with a := .imm 1 }),
  ([0x71100609, 0x00000000], .barArrive (regF .i32 6 9 0 0 0 .rne 0)),
  ([0xA0100009, 0x00000002], .quitIf (regF .i32 0 9 0 0 0 .rne 2)),
  ([0xB0000400, 0x00000001], .ctlGet (regF .i32 4 0 0 0 0 .rne 1)),
  ([0xB0400000, 0x00000000], .nop (regF .i32 0 0 0 0 0 .rne 0)),
  ([0x10800D0D, 0x64000000], .max { regF .i32 13 13 0 0 0 .rne 0 with b := .imm 4 })]

theorem test_decode_examples : examples.all (fun x => decide (decode x.1 = .ok (x.2, [])) && decide (encode x.2 = x.1)) = true := by
  decide +kernel

/-- Decoding by table word: 64 bits of `add.i32 v1, v2, 7`, the first parcel in the low bits. -/
theorem test_decode_table_word :
    decodeTableWord 64 0x6700000010000102 = some (.add { regF .i32 1 2 0 0 0 .rne 0 with b := .imm 7 }) := by decide +kernel

/-! ## Ill-formed instructions, one or more for each check of R119 to R148 -/

def preF (o : Order) (sc : Scope) (sp : Space) (po : Policy) (nt : Bool) (f : Fields) : Fields :=
  { f with pre := some { order := o, scope := sc, space := sp, policy := po, notag := nt } }

theorem test_refuses_type :
    (Instr.add (regF .f32 1 2 3 0 0 .rne 0)).formError = some .badType ∧ (Instr.nop (regF .n32 0 0 0 0 0 .rne 0)).formError = some .badType ∧
    (Instr.popc (regF .i32 1 2 0 0 0 .rne 0)).formError = some .badType := by decide +kernel

theorem test_refuses_dest :
    (Instr.add (regF .i64 5 2 4 0 0 .rne 0)).formError = some .badDest ∧ (Instr.nop (regF .i32 3 0 0 0 0 .rne 0)).formError = some .badDest ∧
    (Instr.st (regF .i32 3 0 4 0 0 .rne 0)).formError = some .badDest ∧ (Instr.ldX4 (regF .b32 6 2 3 0 0 .rne 0)).formError = some .badDest := by
  decide +kernel

theorem test_refuses_operand :
    (Instr.mov (regF .i32 1 2 3 0 0 .rne 0)).formError = some .badOperand ∧ (Instr.ld (regF .i32 1 3 0 0 0 .rne 0)).formError = some .badOperand ∧
    (Instr.add { regF .i32 1 2 0 0 0 .rne 0 with b := .lit64 1 }).formError = some .badOperand ∧
    (Instr.stX4 (regF .b32 2 0 6 0 0 .rne 0)).formError = some .badOperand ∧
    (Instr.cvt { regF .f32 1 0 0 0 0 .rne 0xB with a := .imm 1 }).formError = some .badOperand := by decide +kernel

theorem test_refuses_rounding :
    (Instr.max (regF .i32 13 13 4 0 0 .rup 0)).formError = some .badRnd ∧ (Instr.fAdd (regF .f32 1 2 3 0 0 .sr 0)).formError = some .badRnd ∧
    (Instr.lredAdd (regF .i32 1 2 0 0 0 .rtz 0)).formError = some .badRnd ∧ (Instr.redMin (regF .i32 2 3 4 0 0 .rtz 0)).formError = some .badRnd := by
  decide +kernel

theorem test_refuses_modifier :
    (Instr.cmp (regF .i32 1 2 3 0 6 .rne 0)).formError = some .badMod ∧ (Instr.fCmp (regF .f32 1 2 3 0 8 .rne 0)).formError = some .badMod ∧
    (Instr.fence (regF .i32 0 0 0 0 0 .rne 0)).formError = some .badMod ∧ (Instr.cpAsync (regF .i32 2 4 6 8 3 .rne 0)).formError = some .badMod ∧
    (Instr.qpop (regF .i32 1 0 0 0 1 .rne 0)).formError = some .badMod := by decide +kernel

theorem test_refuses_spec :
    (Instr.qpop (regF .i32 1 0 0 0 0 .rne 8)).formError = some .badSpec ∧ (Instr.ctlGet (regF .i32 1 0 0 0 0 .rne 9)).formError = some .badSpec ∧
    (Instr.cvt (regF .f16 1 2 0 0 0 .rne 0x18)).formError = some .badSpec ∧ (Instr.obrel (regF .i32 0 0 0 0 0 .rne 16)).formError = some .badSpec ∧
    (Instr.cpAsync (regF .i32 2 4 6 8 0 .rne 1)).formError = some .badSpec ∧ (Instr.qfeed (regF .i32 0 2 3 0 0 .rne 0x10)).formError = some .badSpec := by
  decide +kernel

theorem test_refuses_prefix_parcel :
    (Instr.add (preF .relaxed .workgroup .generic .normal false (regF .i32 1 2 3 0 0 .rne 0))).formError = some .badPre ∧
    (Instr.ld (preF .release .workgroup .generic .normal false (regF .i32 1 2 3 0 0 .rne 0))).formError = some .badPre ∧
    (Instr.st (preF .acquire .workgroup .generic .normal false (regF .i32 2 3 4 0 0 .rne 0))).formError = some .badPre ∧
    (Instr.cpAsync (preF .relaxed .workgroup .priv .normal false (regF .i32 2 4 6 8 0 .rne 0))).formError = some .badPre ∧
    (Instr.fence (preF .relaxed .system .generic .streaming false (regF .i32 0 0 0 0 1 .rne 0))).formError = some .badPre ∧
    (Instr.barWait (preF .relaxed .workgroup .generic .normal false (regF .i32 2 3 0 0 0 .rne 0))).formError = some .badPre := by decide +kernel

/-- What the decoder refuses before the fields: no parcels, a missing second parcel or literal, an opcode absent from its table, an operand code
of a reserved range, a reserved bit of a prefix parcel, an index register as destination. -/
theorem test_refuses_parcels :
    decode [] = .error .truncated ∧ decode [0x10000102] = .error .truncated ∧ decode [0x10000102, 0xF0000000] = .error .truncated ∧
    decode [0x10F00102, 0x03000000] = .error .unknownOpcode ∧ decode [0x10000150, 0x03000000] = .error .badOperand ∧
    decode [0x1000014D, 0x03000000] = .error .badOperand ∧ decode [0x10004002, 0x03000000] = .error .badDest ∧
    decode [0xE5800001, 0x50000702, 0x0C000000] = .error .badPre ∧ decode [0xE3800000, 0x50000702, 0x0C000000] = .error .badPre ∧
    decode [0x20080102, 0x03000600] = .error .badRnd := by decide +kernel

/-! ## Effects: registers -/

/-- Bits of c.flags after `i`. -/
def flagsAfter (i : Instr) (rs : Nat → Sparse 32) : Option Word :=
  (nextOf (exec i (standIn 1 i rs))).bind (fun t => (t.group? 0 0).map (fun g => g.flags))

/-- Examples of R171: `adds.i8` of 100 and 100 gives 127, `subs.n16` of 3 and 5 gives 0. -/
theorem test_adds_subs_clamp :
    lands (.adds (regF .i8 1 2 3 0 0 .rne 0)) (each [(2, 0x64), (3, 0x64)]) 0 1 = some 0x7F ∧
    lands (.subs (regF .n16 1 2 3 0 0 .rne 0)) (each [(2, 0x00090003), (3, 0x00040005)]) 31 1 = some 0x00050000 := by decide +kernel

/-- R171: each half of an `i16` value adds alone, and a small immediate -1 is placed in both halves (R126). -/
theorem test_add_halves :
    lands (.add { regF .i16 1 2 0 0 0 .rne 0 with b := .imm 31 }) (each [(2, 0x00010000)]) 3 1 = some 0x0000FFFF ∧
    lands (.sub (regF .i64 4 2 6 0 0 .rne 0)) (each [(6, 1)]) 3 5 = some 0xFFFFFFFF := by decide +kernel

/-- R171: `mul` keeps the low bits, `mulhi` the high ones, signed for `i32`; `mad` of `%lane`. -/
theorem test_mul_family :
    lands (.mul (regF .n32 1 2 3 0 0 .rne 0)) (each [(2, 0x10001), (3, 0x10001)]) 0 1 = some 0x00020001 ∧
    lands (.mulhi (regF .i32 1 2 3 0 0 .rne 0)) (each [(2, 0xFFFFFFFF), (3, 2)]) 0 1 = some 0xFFFFFFFF ∧
    lands (.mulhi (regF .n32 1 2 3 0 0 .rne 0)) (each [(2, 0xFFFFFFFF), (3, 2)]) 0 1 = some 1 ∧
    lands (.mad { regF .i32 10 0 0 0 0 .rne 0 with a := .idx .lane, b := .lit32 24, c := .imm 8 }) (each []) 31 10 = some 752 := by decide +kernel

/-- The table of R172. -/
theorem test_div_rem :
    lands (.div (regF .i32 1 2 3 0 0 .rne 0)) (each [(2, 0xFFFFFFF9), (3, 2)]) 0 1 = some 0xFFFFFFFD ∧
    lands (.rem (regF .i32 1 2 3 0 0 .rne 0)) (each [(2, 7), (3, 0xFFFFFFFE)]) 0 1 = some 1 ∧
    lands (.div (regF .i32 1 2 3 0 0 .rne 0)) (each [(2, 0x80000000), (3, 0xFFFFFFFF)]) 0 1 = some 0x80000000 ∧
    lands (.div (regF .n32 1 2 3 0 0 .rne 0)) (each [(2, 7)]) 0 1 = some 0xFFFFFFFF ∧
    lands (.rem (regF .i32 1 2 3 0 0 .rne 0)) (each [(2, 5)]) 0 1 = some 5 := by decide +kernel

/-- R171: order of signed and unsigned elements, `abs` and `neg` of the most negative value. -/
theorem test_min_max_abs_neg :
    lands (.min (regF .i8 1 2 3 0 0 .rne 0)) (each [(2, 0x80), (3, 0x7F)]) 0 1 = some 0x80 ∧
    lands (.max (regF .n8 1 2 3 0 0 .rne 0)) (each [(2, 0x80), (3, 0x7F)]) 0 1 = some 0x80 ∧
    lands (.abs (regF .i32 1 2 0 0 0 .rne 0)) (each [(2, 0x80000000)]) 0 1 = some 0x80000000 ∧
    lands (.neg (regF .i16 1 2 0 0 0 .rne 0)) (each [(2, 0x00010001)]) 0 1 = some 0xFFFFFFFF := by decide +kernel

theorem test_bitwise :
    lands (.and (regF .b32 1 2 3 0 0 .rne 0)) (each [(2, 0xF0F0), (3, 0xFF00)]) 0 1 = some 0xF000 ∧
    lands (.or (regF .b32 1 2 3 0 0 .rne 0)) (each [(2, 0xF0F0), (3, 0xFF00)]) 0 1 = some 0xFFF0 ∧
    lands (.xor (regF .b32 1 2 3 0 0 .rne 0)) (each [(2, 0xF0F0), (3, 0xFF00)]) 0 1 = some 0x0FF0 ∧
    lands (.not (regF .n64 4 2 0 0 0 .rne 0)) (each [(2, 1)]) 0 5 = some 0xFFFFFFFF ∧
    lands (.andn (regF .b32 1 2 3 0 0 .rne 0)) (each [(2, 0xF0F0), (3, 0xFF00)]) 0 1 = some 0x00F0 := by decide +kernel

/-- R174: `shl.n8` by 2, an arithmetic `shr` by more than the width, `rotl` by 33. -/
theorem test_shifts :
    lands (.shl { regF .n8 1 2 0 0 0 .rne 0 with b := .imm 2 }) (each [(2, 0x81818181)]) 0 1 = some 0x04040404 ∧
    lands (.shr { regF .i16 1 2 0 0 0 .rne 0 with b := .lit32 20 }) (each [(2, 0x80007FFF)]) 0 1 = some 0xFFFF0000 ∧
    lands (.rotl { regF .n32 1 2 0 0 0 .rne 0 with b := .lit32 33 }) (each [(2, 0x80000001)]) 0 1 = some 3 := by decide +kernel

/-- R175 at zero and at the top of a pair. -/
theorem test_bit_counts :
    lands (.popc (regF .n64 1 2 0 0 0 .rne 0)) (each [(2, 0xFF), (3, 0x80000001)]) 0 1 = some 10 ∧
    lands (.clz (regF .n32 1 2 0 0 0 .rne 0)) (each []) 0 1 = some 32 ∧
    lands (.ctz (regF .n64 1 2 0 0 0 .rne 0)) (each [(3, 0x80000000)]) 0 1 = some 63 ∧
    lands (.brev (regF .n32 1 2 0 0 0 .rne 0)) (each [(2, 0x3)]) 0 1 = some 0xC0000000 := by decide +kernel

/-- R176: a field that runs past bit 31 is cut, and sign-extended for `i32`; `bfi` places its field at c[4:0]. -/
theorem test_bit_fields :
    lands (.bfx { regF .i32 1 2 0 0 0 .rne 0 with b := .lit32 28, c := .lit32 12 }) (each [(2, 0x80000000)]) 0 1 = some 0xFFFFFFF8 ∧
    lands (.bfi { regF .n32 1 2 3 0 0 .rne 0 with c := .lit32 0x0804 }) (each [(2, 0xFFFFFFFF), (3, 0x12)]) 0 1 = some 0xFFFFF12F := by
  decide +kernel

/-- R177 by element, R178 by bit 0 of the condition. -/
theorem test_cmp_pick_mov :
    lands (.cmp (regF .i16 1 2 3 0 2 .rne 0)) (each [(2, 0x8000FFFF), (3, 0x00000000)]) 0 1 = some 0x00010001 ∧
    lands (.cmp (regF .n16 1 2 3 0 2 .rne 0)) (each [(2, 0x8000FFFF), (3, 0x00000000)]) 0 1 = some 0 ∧
    lands (.pick (regF .b32 1 2 3 4 0 .rne 0)) (each [(2, 2), (3, 7), (4, 9)]) 0 1 = some 9 ∧
    lands (.mov { regF .i64 4 0 0 0 0 .rne 0 with a := .lit32 0x80000000 }) (each []) 0 5 = some 0xFFFFFFFF := by decide +kernel

/-- R206, R207: an infinity less itself, a quotient by zero, and what they leave in c.flags. -/
theorem test_float_special :
    lands (.fSub (regF .f32 1 2 2 0 0 .rne 0)) (each [(2, 0x7F800000)]) 0 1 = some 0x7FC00000 ∧
    flagsAfter (.fSub (regF .f32 1 2 2 0 0 .rne 0)) (each [(2, 0x7F800000)]) = some 0x10 ∧
    lands (.fDiv (regF .f32 1 2 3 0 0 .rne 0)) (each [(2, 0x3F800000), (3, 0x80000000)]) 0 1 = some 0xFF800000 ∧
    flagsAfter (.fDiv (regF .f32 1 2 3 0 0 .rne 0)) (each [(2, 0x3F800000), (3, 0x80000000)]) = some 0x08 := by decide +kernel

/-- Binary arithmetic by hand: 2 * 0.75, 1 + 2^-24 to even and up, 1.5 * 1.5 - 2.25, the square root of 4, halves of `f16`. -/
theorem test_float_arithmetic :
    lands (.fMul { regF .f32 6 5 0 0 0 .rne 0 with b := .lit32 0x3F400000 }) (each [(5, 0x40000000)]) 0 6 = some 0x3FC00000 ∧
    lands (.fAdd (regF .f32 1 2 3 0 0 .rne 0)) (each [(2, 0x3F800000), (3, 0x33800000)]) 0 1 = some 0x3F800000 ∧
    lands (.fAdd (regF .f32 1 2 3 0 0 .rup 0)) (each [(2, 0x3F800000), (3, 0x33800000)]) 0 1 = some 0x3F800001 ∧
    lands (.fma (regF .f32 1 2 2 3 0 .rne 0)) (each [(2, 0x3FC00000), (3, 0xC0100000)]) 0 1 = some 0 ∧
    lands (.sqrt (regF .f32 1 2 0 0 0 .rne 0)) (each [(2, 0x40800000)]) 0 1 = some 0x40000000 ∧
    lands (.fAdd (regF .f16 1 2 3 0 0 .rne 0)) (each [(2, 0x3C004000), (3, 0x3C003C00)]) 0 1 = some 0x40004200 := by decide +kernel

/-- R208: -0 is less than +0, and a quiet NaN yields to a number; R209; R210: unordered; R211. -/
theorem test_float_signs :
    lands (.fMin (regF .f32 1 2 3 0 0 .rne 0)) (each [(3, 0x80000000)]) 0 1 = some 0x80000000 ∧
    lands (.fMax (regF .f32 1 2 3 0 0 .rne 0)) (each [(2, 0x7FC00000), (3, 0xBF800000)]) 0 1 = some 0xBF800000 ∧
    lands (.fAbs (regF .f16 1 2 0 0 0 .rne 0)) (each [(2, 0xFE00BC00)]) 0 1 = some 0x7E003C00 ∧
    lands (.fNeg (regF .f32 1 2 0 0 0 .rne 0)) (each [(2, 0x7FC00000)]) 0 1 = some 0xFFC00000 ∧
    lands (.fCmp (regF .f32 1 2 3 0 1 .rne 0)) (each [(2, 0x7FC00000)]) 0 1 = some 1 ∧
    lands (.fCmp (regF .f32 1 2 3 0 0 .rne 0)) (each [(3, 0x80000000)]) 0 1 = some 1 ∧
    lands (.fclass (regF .f32 1 2 0 0 0 .rne 0)) (each [(2, 0x80000000)]) 0 1 = some 8 := by decide +kernel

/-- Rows of R214. -/
theorem test_approximations_at_special_inputs :
    lands (.rcp (regF .f32 1 2 0 0 0 .rne 0)) (each [(2, 0x80000000)]) 0 1 = some 0xFF800000 ∧
    lands (.rsqrt (regF .f32 1 2 0 0 0 .rne 0)) (each [(2, 0x7F800000)]) 0 1 = some 0 ∧
    lands (.exp2 (regF .f32 1 2 0 0 0 .rne 0)) (each [(2, 0x43000000)]) 0 1 = some 0x7F800000 ∧
    lands (.log2 (regF .f32 1 2 0 0 0 .rne 0)) (each [(2, 0x3F800000)]) 0 1 = some 0 ∧
    lands (.sin (regF .f32 1 2 0 0 0 .rne 0)) (each [(2, 0x80000000)]) 0 1 = some 0x80000000 ∧
    lands (.cos (regF .f32 1 2 0 0 0 .rne 0)) (each []) 0 1 = some 0x3F800000 ∧
    lands (.tanh (regF .f32 1 2 0 0 0 .rne 0)) (each [(2, 0xFF800000)]) 0 1 = some 0xBF800000 := by decide +kernel

/-- Examples of R220; R219: a NaN gives 0, 3.5 to the nearest even. -/
theorem test_cvt :
    lands (.cvt (regF .i8 1 2 0 0 0 .rne 0)) (each [(2, 300)]) 0 1 = some 0x2C ∧
    lands (.cvt (regF .i8 1 2 0 0 1 .rne 0)) (each [(2, 300)]) 0 1 = some 0x7F ∧
    lands (.cvt (regF .n32 1 2 0 0 1 .rne 0)) (each [(2, 0xFFFFFFFB)]) 0 1 = some 0 ∧
    lands (.cvt (regF .i32 1 2 0 0 0 .rne 8)) (each [(2, 0x7FC00000)]) 0 1 = some 0 ∧
    lands (.cvt (regF .i32 1 2 0 0 0 .rne 8)) (each [(2, 0x40600000)]) 0 1 = some 4 ∧
    lands (.cvt (regF .f32 1 2 0 0 0 .rne 0x19)) (each [(2, 0x3C000000)]) 0 1 = some 0x3F800000 := by decide +kernel

/-- `cvt.pk` into position 1 of c (R223), and the examples of R224. -/
theorem test_pack_and_bpick :
    lands (.cvtPk (regF .i8 1 2 3 4 0 .rne 0x18)) (each [(2, 0x3F800000), (3, 0xBF800000), (4, 0x11112222)]) 0 1 = some 0xFF012222 ∧
    lands (.bpick { regF .b32 1 2 3 0 0 .rne 0 with c := .lit32 0x05010400 }) (each [(2, 0x44332211), (3, 0x88776655)]) 0 1 = some 0x66225511 ∧
    lands (.bpick { regF .b32 1 2 3 0 0 .rne 0 with c := .lit32 0x18181800 }) (each [(2, 0x80)]) 0 1 = some 0xFFFFFF80 := by decide +kernel

/-- The lane's own number in register 2. -/
def laneNumbers (L : Nat) : Sparse 32 := if L = 0 then [] else [(2, BitVec.ofNat 32 L)]

/-- R181: neighbours swap, `xch.rot` by 1 wraps at lane 0, `xch.seg` with 0x0302 gives lane 2 of the 8 lanes, and a lane outside ACTIVE is not
read. -/
theorem test_exchanges :
    landsIn 0x30 (.xchPair { regF .i32 1 2 0 0 0 .rne 0 with b := .imm 1 }) laneNumbers 4 1 = some 5 ∧
    landsIn 0x80000001 (.xchRot { regF .i32 1 2 0 0 0 .rne 0 with b := .imm 1 }) laneNumbers 0 1 = some 31 ∧
    landsIn 0x2400 (.xchSeg { regF .i32 1 2 0 0 0 .rne 0 with b := .lit32 0x0302 }) laneNumbers 13 1 = some 10 ∧
    landsIn 0x108 (.xchLane { regF .i32 1 2 0 0 0 .rne 0 with b := .lit32 40 }) laneNumbers 3 1 = some 8 ∧
    landsIn 0x8 (.xchLane { regF .i32 1 2 0 0 0 .rne 0 with b := .lit32 40 }) laneNumbers 3 1 = some 3 := by decide +kernel

/-- R182 over the lanes 1, 2 and 3: the votes read bit 0 alone. -/
theorem test_votes :
    landsIn 0xE (.voteAll (regF .i32 1 2 0 0 0 .rne 0)) laneNumbers 2 1 = some 0 ∧
    landsIn 0xE (.voteAny (regF .i32 1 2 0 0 0 .rne 0)) laneNumbers 2 1 = some 1 ∧
    landsIn 0xE (.voteUni (regF .i32 1 2 0 0 0 .rne 0)) (each [(2, 6)]) 2 1 = some 1 ∧
    landsIn 0xE (.ballot (regF .i32 1 2 0 0 0 .rne 0)) laneNumbers 2 1 = some 0xA ∧
    landsIn 0xE (.elect (regF .i32 1 0 0 0 0 .rne 0)) laneNumbers 1 1 = some 1 ∧
    landsIn 0xE (.elect (regF .i32 1 0 0 0 0 .rne 0)) (each [(1, 7)]) 2 1 = some 0 ∧
    landsIn 0xE (.first (regF .b32 1 2 0 0 0 .rne 0)) laneNumbers 3 1 = some 1 := by decide +kernel

/-- R183 over the lanes 1, 2 and 3. -/
theorem test_lane_reductions :
    landsIn 0xE (.lredAdd (regF .i32 1 2 0 0 0 .rne 0)) laneNumbers 2 1 = some 6 ∧
    landsIn 0xE (.lredMax (regF .n32 1 2 0 0 0 .rne 0)) laneNumbers 2 1 = some 3 ∧
    landsIn 0xE (.lredMin (regF .i32 1 2 0 0 0 .rne 0)) (fun L => if L = 3 then [(2, 0xFFFFFFFF)] else laneNumbers L) 2 1 =
      some 0xFFFFFFFF := by
  decide +kernel

/-! ## Hypotheses that can be met: accesses -/

/-- What an operation's accesses reach, where they pass every check and nothing holds the operation back. -/
def reachOf (s : State) (is : Issue) (ws : List WatchRange) (qs : List Req) (release : Bool) (scope : Scope) : Option (State × List Spot) :=
  match s.checkReqs is qs with
  | .go sps =>
    let a := s.flushSpots is sps
    if is.w.acquiring is.g.start s.seq = false ∧ (is.releaseGate s release scope).isNone ∧
        s.replayFull is.accessor (is.touches sps) = false ∧ (is.watchHit a ws).isNone then
      match a.replayGate is.accessor.key is.w.vf is.w.ctx ((is.touches sps).map (a.touchEntry is.accessor)) with
      | .go s0 => some ((s0.recordTouches is.accessor (is.touches sps)).reach is sps, sps)
      | _ => none
    else none
  | _ => none

theorem reaches_of {s s1 : State} {is : Issue} {ws : List WatchRange} {qs : List Req} {release : Bool} {scope : Scope} {sps : List Spot}
    (h : reachOf s is ws qs release scope = some (s1, sps)) : Reaches s is ws qs release scope s1 sps := by
  unfold reachOf at h
  split at h
  · rename_i sps' hq
    simp only at h
    split at h
    · rename_i hc
      split at h
      · rename_i s0 hg
        simp only [Option.some.injEq, Prod.mk.injEq] at h
        obtain ⟨h1, rfl⟩ := h
        exact ⟨hc.1, hq, Option.isNone_iff_eq_none.mp hc.2.1, hc.2.2.1, Option.isNone_iff_eq_none.mp hc.2.2.2, s0, hg, h1.symm⟩
      · cases h
    · cases h
  · cases h

/-- A concrete reach, with what else is asked of it. -/
theorem reach_with {s : State} {is : Issue} {ws : List WatchRange} {qs : List Req} {release : Bool} {scope : Scope} (P : State → List Spot → Bool)
    (h : (reachOf s is ws qs release scope).any (fun x => P x.1 x.2) = true) :
    ∃ s1 sps, Reaches s is ws qs release scope s1 sps ∧ P s1 sps = true := by
  cases hx : reachOf s is ws qs release scope with
  | none => simp [hx] at h
  | some x => exact ⟨x.1, x.2, reaches_of (by rw [hx]), by simpa [hx] using h⟩

/-- A merge that passes its checks, for the homes of which the dirty log has room, or has none. -/
def mergesIn (s : State) (vf : Nat) (room : Bool) (m : MergeGate) : Bool := match m with | .go xs => s.mergeRoom vf xs == room | .no _ => false

/-- Asked of a reach: that it has a first place. -/
def someSpot (_ : State) (sps : List Spot) : Bool := !sps.isEmpty

/-- Asked of nothing. -/
def anyReach (_ : State) (_ : List Spot) : Bool := true

/-- The accesses fail a check, outside replay mode, and no older acquire copy comes first. -/
def fails (s : State) (is : Issue) (qs : List Req) : Bool :=
  !is.w.acquiring is.g.start s.seq && !s.playing is.w.vf is.w.ctx &&
  match s.checkReqs is qs with
  | .hit _ => true
  | _ => false

/-- `FaultsOn`: such a fault comes in its turn. -/
theorem faultsInTurn_of_fails {s : State} {is : Issue} {qs : List Req} (es : List ReplayEntry) (h : fails s is qs = true) : FaultsInTurn s is es := by
  simp only [fails, Bool.and_eq_true, Bool.not_eq_true'] at h
  exact FaultsInTurn.of_not_playing es h.1.2

/-- Pair v2:v3 holds an address of the flat window, offset 0x100 of the workgroup's local store; of device memory; one that no table maps. -/
def addr2 : Nat → Sparse 32 := each [(2, 0x100), (3, 0x1000)]
def dev2 : Nat → Sparse 32 := each [(2, 0x30000)]
def badAddr2 : Nat → Sparse 32 := each [(2, 0x30000), (3, 0x100)]

/-- `Loads`: an `ld` whose lane reaches its place, one whose address does not translate, and an `ld.x4`. -/
theorem witness_Loads :
    (let f := { regF .i16 4 2 0 0 0 .rne 0 with b := .imm 6 }
     let s := standIn 1 (.ld f) addr2
     let is := isOf s
     let q := quals is.g f true false allSpaces
     let qs := laneReqs is (is.addr f.a) (fun L => (is.word f.b L).toInt) (Ty.bytes f.ty) q true false
     Ready (.ld f) s is ∧ ∃ s1 sps, Reaches s is (qs.map (s.watchRange is)) qs false q.scope s1 sps ∧ someSpot s1 sps = true) ∧
    (let f := { regF .i16 4 2 0 0 0 .rne 0 with b := .imm 6 }
     let s := standIn 1 (.ld f) badAddr2
     let is := isOf s
     let q := quals is.g f true false allSpaces
     fails s is (laneReqs is (is.addr f.a) (fun L => (is.word f.b L).toInt) (Ty.bytes f.ty) q true false) = true) ∧
    (let f := { regF .b32 8 2 0 0 0 .rne 0 with b := .imm 0 }
     let s := standIn 1 (.ldX4 f) addr2
     let is := isOf s
     let q := quals is.g f true false allSpaces
     let qs := laneReqs is (is.addr f.a) (fun L => (is.word f.b L).toInt) 16 q true false
     Ready (.ldX4 f) s is ∧ ∃ s1 sps, Reaches s is (qs.map (s.watchRange is)) qs false q.scope s1 sps ∧ someSpot s1 sps = true) :=
  ⟨⟨ready_of (by decide +kernel), reach_with someSpot (by decide +kernel)⟩, by decide +kernel,
    ready_of (by decide +kernel), reach_with someSpot (by decide +kernel)⟩

/-- A reach whose last place is homed on the group's own die. -/
def lastHere (is : Issue) (_ : State) (sps : List Spot) : Bool := sps.getLast?.any (fun sp => !is.remote sp.pa)

/-- `Stores`: an `st` and an `st.x4` of two lanes. -/
theorem witness_Stores :
    (let f := { regF .n8 2 0 5 0 0 .rne 0 with a := .imm 1 }
     let s := standIn 3 (.st f) addr2
     let is := isOf s
     let q := quals is.g f false true allSpaces
     let qs := laneReqs is (is.destAddr f) (fun L => (is.word f.a L).toInt) (Ty.bytes f.ty) q false true
     Ready (.st f) s is ∧ ∃ s1 sps, Reaches s is (qs.map (s.watchRange is)) qs q.releases q.scope s1 sps ∧ lastHere is s1 sps = true) ∧
    (let f := { regF .b32 2 0 8 0 0 .rne 0 with a := .imm 0 }
     let s := standIn 3 (.stX4 f) addr2
     let is := isOf s
     let q := quals is.g f false true allSpaces
     let qs := laneReqs is (is.destAddr f) (fun L => (is.word f.a L).toInt) 16 q false true
     Ready (.stX4 f) s is ∧ ∃ s1 sps, Reaches s is (qs.map (s.watchRange is)) qs q.releases q.scope s1 sps ∧ lastHere is s1 sps = true) :=
  ⟨⟨ready_of (by decide +kernel), reach_with (lastHere _) (by decide +kernel)⟩,
    ready_of (by decide +kernel), reach_with (lastHere _) (by decide +kernel)⟩

/-- `Atomics`: an `atom.add` of two lanes at one place, and an `atom.cas`, neither of which traps. -/
theorem witness_Atomics :
    (let f := { regF .i32 4 2 0 5 0 .rne 0 with b := .imm 0 }
     let s := standIn 3 (.atomAdd f) addr2
     let is := isOf s
     let q := quals is.g f true true allSpaces
     let qs := laneReqs is (is.addr f.a) (fun L => (is.word f.b L).toInt) (Ty.bytes f.ty) q true true
     Ready (.atomAdd f) s is ∧ ∃ s1 sps, Reaches s is (qs.map (s.watchRange is)) qs q.releases q.scope s1 sps ∧
       (is.numericTrap (byLane 0 (sps.foldl (is.atomLane f .add (fun L => (is.val f.ty f.c L).toNat) (fun _ => 0))
         { s := s1, olds := [], flags := [], changed := false }).flags)).isNone = true) ∧
    (let f := regF .n32 4 2 5 8 0 .rne 0
     let s := standIn 1 (.atomCas f) addr2
     let is := isOf s
     let q := quals is.g f true true allSpaces
     let qs := laneReqs is (is.addr f.a) (fun _ => 0) (Ty.bytes f.ty) q true true
     Ready (.atomCas f) s is ∧ ∃ s1 sps, Reaches s is (qs.map (s.watchRange is)) qs q.releases q.scope s1 sps ∧
       (is.numericTrap (byLane 0 (sps.foldl (is.atomLane f .cas (fun L => (is.val f.ty f.c L).toNat) (fun L => (is.val f.ty f.b L).toNat))
         { s := s1, olds := [], flags := [], changed := false }).flags)).isNone = true) :=
  ⟨⟨ready_of (by decide +kernel), reach_with (fun s1 sps => Option.isNone _) (by decide +kernel)⟩,
    ready_of (by decide +kernel), reach_with (fun s1 sps => Option.isNone _) (by decide +kernel)⟩

/-- The prefix parcel of a scope. -/
def scopeF (sc : Scope) (f : Fields) : Fields := preF .relaxed sc .generic .normal false f

/-- A binding of the page at 0x30000 to the latch at 0x31000. -/
def boundHere : Binding := { vf := 0, ctx := 0, start := 0x30000, len := 4096, latch := 0x31000 }

/-- `Reductions`: one at workgroup scope, and one at package scope on a bound location. -/
theorem witness_Reductions :
    (let f := { regF .n32 2 0 5 0 0 .rne 0 with a := .imm 0 }
     let s := standIn 3 (.redMax f) addr2
     let is := isOf s
     let q := quals is.g f false true allSpaces
     let qs := laneReqs is (is.destAddr f) (fun L => (is.word f.a L).toInt) (Ty.bytes f.ty) q false true
     (scopeRank q.scope < 4 ∧ Ready (.redMax f) s is) ∧
       ∃ s1 sps, Reaches s is (qs.map (s.watchRange is)) qs q.releases q.scope s1 sps ∧ someSpot s1 sps = true) ∧
    (let f := scopeF .package { regF .n32 2 0 5 0 0 .rne 0 with a := .imm 0 }
     let s := { (standIn 3 (.redAdd f) dev2).setCxReg 0 0 0x120 0x101 with bindings := [boundHere] }
     let is := isOf s
     let q := quals is.g f false true allSpaces
     let qs := (laneReqs is (is.destAddr f) (fun L => (is.word f.a L).toInt) (Ty.bytes f.ty) q false true).map
       (fun q => { q with device := true, kind := 3 })
     (4 ≤ scopeRank q.scope ∧ q.space = .generic ∧ f.rnd = .rne ∧ Ready (.redAdd f) s is) ∧
       ∃ s1 sps, Reaches s is (qs.map (s.watchRange is)) qs q.releases q.scope s1 sps ∧
         (!sps.isEmpty && ((s1.shadowLanes is f .add sps).2).isEmpty) = true) :=
  ⟨⟨⟨by decide +kernel, ready_of (by decide +kernel)⟩, reach_with someSpot (by decide +kernel)⟩,
    ⟨by decide +kernel, by decide +kernel, rfl, ready_of (by decide +kernel)⟩, reach_with (fun s1 sps => _) (by decide +kernel)⟩

/-- `Reductions`: at package scope, a rounding other than nearest-even, and a lane whose location has a live shadow of another operation. -/
theorem witness_Reductions_faults :
    (let f := scopeF .package { regF .f32 2 0 5 0 0 .rtz 0 with a := .imm 0 }
     let s := standIn 3 (.redAdd f) dev2
     4 ≤ scopeRank (quals (isOf s).g f false true allSpaces).scope ∧ f.rnd ≠ .rne ∧ readyB (.redAdd f) s = true) ∧
    (let f := scopeF .package { regF .n32 2 0 5 0 0 .rne 0 with a := .imm 0 }
     let s := { (standIn 3 (.redAdd f) dev2).setCxReg 0 0 0x120 0x101 with
       bindings := [boundHere], shadows := [Shadow.fresh 0 0 0 0x30000 .max .n32 1] }
     let is := isOf s
     let qs := (laneReqs is (is.destAddr f) (fun L => (is.word f.a L).toInt) (Ty.bytes f.ty) (quals is.g f false true allSpaces) false true).map
       (fun q => { q with device := true, kind := 3 })
     readyB (.redAdd f) s = true ∧ (match s.checkReqs is qs with | .go sps => (s.shadowLanes is f .add sps).2 == [0, 1] | _ => false) = true) := by
  decide +kernel

/-- `MemoryTags`: the tag 9 for the two granules at 0x30000, and an `ltag` there. -/
theorem witness_MemoryTags :
    (let f := { regF .i32 2 0 0 0 0 .rne 0 with a := .imm 9, b := .imm 2 }
     let s := standIn 1 (.stag f) dev2
     let is := isOf s
     let q := quals is.g f false true [.generic, .dieStore]
     let qs := is.active.flatMap (fun L => s.stagReqs is q L (is.destAddr f L) (is.word f.b L).toNat)
     (Ready (.stag f) s is ∧ ∀ L ∈ is.active, addrVa (is.destAddr f L) % 32 = 0 ∧ (is.word f.a L).toNat ≤ 15 ∧ (is.word f.b L).toNat ≠ 0 ∧
       (is.word f.b L).toNat ≤ 4096) ∧
       ∃ s1 sps, Reaches s is (qs.map (s.watchRange is)) qs q.releases q.scope s1 sps ∧ someSpot s1 sps = true) ∧
    (let f := regF .i32 4 2 0 0 0 .rne 0
     let s := standIn 1 (.ltag f) dev2
     let is := isOf s
     let q := quals is.g f true false [.generic, .dieStore]
     let qs := is.active.map (fun L => { laneReq L (is.addr f.a L) 0 1 q true false with device := true, checked := false })
     Ready (.ltag f) s is ∧ ∃ s1 sps, Reaches s is (qs.map (s.watchRange is)) qs false q.scope s1 sps ∧ someSpot s1 sps = true) :=
  ⟨⟨⟨ready_of (by decide +kernel), by decide +kernel⟩, reach_with someSpot (by decide +kernel)⟩,
    ready_of (by decide +kernel), reach_with someSpot (by decide +kernel)⟩

/-! ## Effects: memory -/

/-- The `n` bytes at offset 0x100 of the placed workgroup's local store after `i` of the lanes `m`. -/
def storeAfter (m : Mask) (i : Instr) (rs : Nat → Sparse 32) (old n : Nat) : Option Nat :=
  let s := standIn m i rs
  (nextOf (exec i { s with mem := writeLE s.mem (slicePa 0 0x100) 8 old })).map (fun t => readLE t.mem (slicePa 0 0x100) n)

/-- Register `k` of lane 0 after `i` with those bytes there. -/
def loadAfter (i : Instr) (old k : Nat) : Option Word :=
  let s := standIn 1 i addr2
  (nextOf (exec i { s with mem := writeLE s.mem (slicePa 0 0x100) 8 old })).bind (fun t => (t.group? 0 0).map (fun g => (g.lane 0).reg k))

/-- R233: a load extends by its type, a store writes the low bytes alone. -/
theorem test_load_extends :
    loadAfter (.ld { regF .i16 4 2 0 0 0 .rne 0 with b := .imm 0 }) 0x8001 4 = some 0xFFFF8001 ∧
    loadAfter (.ld { regF .n8 4 2 0 0 0 .rne 0 with b := .imm 1 }) 0x8001 4 = some 0x80 ∧
    loadAfter (.ld { regF .i64 4 2 0 0 0 .rne 0 with b := .imm 0 }) 0x1122334455667788 5 = some 0x11223344 ∧
    loadAfter (.ldX4 { regF .b32 8 2 0 0 0 .rne 0 with b := .imm 0 }) 0x1122334455667788 9 = some 0x11223344 := by decide +kernel

theorem test_store_bytes :
    storeAfter 1 (.st { regF .n16 2 0 5 0 0 .rne 0 with a := .imm 2 }) (each [(2, 0x100), (3, 0x1000), (5, 0xABCD1234)]) 0x1122334455667788 8 =
      some 0x1122334412347788 ∧
    storeAfter 1 (.stX4 { regF .b32 2 0 8 0 0 .rne 0 with a := .imm 0 }) (each [(2, 0x100), (3, 0x1000), (8, 1), (9, 2)]) 0x1122334455667788 8 =
      some 0x0000000200000001 := by decide +kernel

/-- R229, R266: two lanes at one place add in ascending order, and the second one's old value is the first one's sum; `cas`. -/
theorem test_atomics :
    storeAfter 3 (.atomAdd { regF .i32 4 2 0 5 0 .rne 0 with b := .imm 0 }) (each [(2, 0x100), (3, 0x1000), (5, 7)]) 1 4 = some 15 ∧
    loadAfter (.atomXchg { regF .n32 4 2 0 0 0 .rne 0 with b := .imm 0, c := .imm 3 }) 9 4 = some 9 ∧
    storeAfter 1 (.atomCas { regF .n32 4 2 0 0 0 .rne 0 with b := .imm 9, c := .imm 3 }) addr2 9 4 = some 3 ∧
    storeAfter 1 (.atomCas { regF .n32 4 2 0 0 0 .rne 0 with b := .imm 8, c := .imm 3 }) addr2 9 4 = some 9 ∧
    storeAfter 1 (.redMin { regF .i32 2 0 0 0 0 .rne 0 with a := .imm 0, b := .imm 31 }) addr2 9 4 = some 0xFFFFFFFF := by decide +kernel

/-- R248: `stag` gives two granules the tag 9, and `ltag` reads it. -/
theorem test_tags :
    (let i := Instr.stag { regF .i32 2 0 0 0 0 .rne 0 with a := .imm 9, b := .imm 2 }
     (nextOf (exec i (standIn 1 i dev2))).map (fun t => t.tags)) = some [(0x1800, 9), (0x1801, 9)] ∧
    (let i := Instr.ltag (regF .i32 4 2 0 0 0 .rne 0)
     (nextOf (exec i { standIn 1 i dev2 with tags := [(0x1800, 9)] })).bind (fun t => (t.group? 0 0).map (fun g => (g.lane 0).reg 4))) = some 9 := by
  decide +kernel

/-! ## Hypotheses that can be met: control, queues, copies, synchronisation -/

/-- An image of functions, each its kind and its parcels (R34, R35). -/
def imageOf (fns : List (Nat × List Word)) : List Byte :=
  let n := fns.length
  let starts := (List.range n).map (fun k => ((fns.take k).map (fun x => x.2.length)).foldl (· + ·) 0)
  let code := fns.flatMap (fun x => x.2)
  let head : List Nat := [0x4F5A494D, 1, n, 32, 32 + 16 * n, code.length, 0, 0]
  let table := (List.range n).flatMap (fun k =>
    let x := (fns[k]?).getD (0, [])
    [k + 65536 * x.1, (starts[k]?).getD 0, x.2.length, 0])
  (head ++ table ++ code.map (fun w => w.toNat)).flatMap (bytesLE 4)

/-- The placed state with an image of those functions, the lanes of its group at parcel `p` of function 0, and registers. -/
def inImage (fns : List (Nat × List Word)) (p : Nat) (rs : Nat → Sparse 32) : State :=
  let s := withRegs rs (placed (.nop (regF .i32 0 0 0 0 0 .rne 0)))
  { s with mem := writeBytes (oneTables []) placeImage (imageOf fns),
           groups := s.groups.map (fun g => { g with lanes := g.lanes.map (fun l => { l with pos := posWord 0 p }) }) }

def nopWords : List Word := [0xB0400000, 0]

/-- Outside recovery mode, in which an operation that releases at package scope faults (R319). -/
def calm (s : State) : State := s.setReg 0x004 0

/-- A `seq` of one leaf that holds three `nop` operations, at parcels 4, 6 and 8. -/
def threeNops : List (Nat × List Word) := [(0, [10, 0, 0x01000008, 3] ++ nopWords ++ nopWords ++ nopWords)]

/-- A `seq` of one `loop` of one leaf that holds the operation `ws`, at parcel 6, and a `nop`. -/
def loopOf (ws : List Word) : List (Nat × List Word) := [(0, [10, 0, 0x04000008, 0, 0x01000006, 2] ++ ws ++ nopWords)]

/-- `StaysInLeaf`: at parcel 4 of three `nop` operations, the next one is at parcel 6. -/
theorem witness_StraightLineRetirement :
    let s := (inImage threeNops 4 (each [])).issueAs 0 0 false 5
    ∃ t, s.groupTrees (isOf s).w (isOf s).r = some t ∧ StaysInLeaf s (isOf s) (fun _ => 6) := by
  intro s
  have hl : ∀ L, L < 32 → (isOf s).g.lane L = { placedLane with regs := [] } := by decide +kernel
  cases ht : s.groupTrees (isOf s).w (isOf s).r with
  | none => exact absurd ht (by decide +kernel)
  | some t =>
    refine ⟨t, rfl, by decide +kernel, by decide +kernel, by decide +kernel, by decide +kernel, by decide +kernel, t, ht, ?_⟩
    have hx : ((s.groupTrees (isOf s).w (isOf s).r).any (fun t => (t.fn? 0).any (fun e =>
        match t.descend e 4 with
        | (nd :: _, none) => decide (nd.ops.find? (fun o => 4 < o) = some 6)
        | _ => false))) = true := by decide +kernel
    rw [ht] at hx
    simp only [Option.any_some] at hx
    intro L _ hL
    rw [hl L hL]
    cases he : t.fn? 0 with
    | none => simp [he] at hx
    | some e =>
      simp only [he, Option.any_some] at hx
      split at hx
      · rename_i nd up hd
        exact ⟨e, nd, up, he, hd, of_decide_eq_true hx⟩
      · cases hx

/-- A leaving operation in a loop: it fits with n = 1, and not with n = 0 or n = 2. -/
theorem witness_LeavingOperations :
    ∀ n ∈ [0, 1, 2],
      let i := Instr.quitIf (regF .i32 0 2 0 0 0 .rne n)
      let s := (inImage (loopOf (encode i)) 6 (each [(2, 1)])).issueAs 0 0 false 3
      readyB i s = true ∧ (isOf s).loopCount s = 1 := by decide +kernel

/-- After `quit.if` the lanes whose condition holds leave the loop and the function, and have retired; the others stand at the next operation. -/
theorem test_quit_if :
    let i := Instr.quitIf (regF .i32 0 2 0 0 0 .rne 1)
    let s := (inImage (loopOf (encode i)) 6 (fun L => if L = 0 then [(2, 1)] else [])).issueAs 0 0 false 3
    (nextOf (exec i s)).map (fun t => (t.groups.map (fun g => ((g.lane 0).life, (g.lane 1).life, (g.lane 1).pos)))) =
      some [(.retired, .live, posWord 0 8)] := by decide +kernel

/-- `SpawnLaunchAndYield`: a `launch` that waits for an acknowledgement, and one in recovery mode. -/
theorem witness_SpawnLaunchAndYield_launch :
    let f := regF .i32 0 2 0 0 0 .rne 0
    let s := calm (standIn 1 (.launch f) dev2)
    let a := { s with groups := s.groups.map (fun g => { g with acks := 1 }) }
    (readyB (.launch f) a = true ∧ a.recovery = false ∧ (isOf a).g.acks ≠ 0 ∧ ((isOf a).addr f.a (isOf a).l0).toNat % 256 = 0) ∧
    readyB (.launch f) (standIn 1 (.launch f) dev2) = true ∧ (standIn 1 (.launch f) dev2).recovery = true := by decide +kernel

/-- `SpawnLaunchAndYield`: a count of 1 of the placed function; an RCB address that translates; `yield` stands in `witness_ready_control`. -/
theorem witness_SpawnLaunchAndYield :
    (let i := Instr.spawn { regF .i32 4 2 0 5 0 .rne 0 with b := .imm 1 }
     let s := standIn 1 i (each [])
     readyB i s = true ∧ ((s.groupTrees (isOf s).w (isOf s).r).any (fun t => decide (t.fnKind 0 0))) = true) ∧
    (let f := regF .i32 0 2 0 0 0 .rne 0
     let s := calm (standIn 1 (.launch f) dev2)
     let is := isOf s
     let x := is.addr f.a is.l0
     readyB (.launch f) s = true ∧ x.toNat % 256 = 0 ∧ x.extractLsb' 56 4 = 0 ∧ (is.releaseGate s true .package).isNone = true ∧
       s.inWindow is.w.vf (addrVa x) = false ∧
       (match s.placeDevice is.w.vf is.w.ctx (addrVa x) true with | .ok .. => true | _ => false) = true) := by decide +kernel

/-- `ControlReads`: every register number that `ctl.get` may name, at both ends of each range; `prof` while its group and the sampler ask. -/
theorem witness_ControlReads :
    (∀ n ∈ [0, 1, 2, 4, 5], let i := Instr.ctlGet (regF .i32 4 0 0 0 0 .rne n)
      readyB i (standIn 1 i (each [])) = true) ∧
    (∀ n ∈ [3, 6, 7, 8, 0x10, 0x1F, 0x20, 0x2F], let i := Instr.ctlGet (regF .i32 4 0 0 0 0 .rne n)
      readyB i (standIn 1 i (each [])) = true) := by decide +kernel

/-- `ControlWrites`: for each register a value that it accepts, and one with a reserved bit. -/
theorem witness_ControlWrites :
    (∀ n ∈ [0, 1, 2, 3, 4, 5, 6, 7, 8, 0x10, 0x1F, 0x20, 0x2F], let i := Instr.ctlSet (regF .i32 0 2 0 0 0 .rne n)
      readyB i (standIn 1 i (each [])) = true) ∧
    mdefOk 0x20800000 = true ∧ mdefOk 0x03000000 = false ∧ (0x1F#32 &&& 0xFFFFFFE0#32 = 0) ∧ (0x20#32 &&& 0xFFFFFFE0#32 ≠ 0) ∧
    (0xC1F#64 &&& 0xFFFF0000FFFF73E0#64 = 0) ∧ (0x20#64 &&& 0xFFFF0000FFFF73E0#64 ≠ 0) ∧ State.reset.hasMx = true ∧
    (State.reset.engine 0).tdescOk 0 = true ∧ watchBad 0 = false ∧ (0x01#32 &&& 0xFE#32 = 0) ∧ (0x02#32 &&& 0xFE#32 ≠ 0) ∧
    (∀ n ∈ [0, 1], let s := { standIn 1 (.ctlSet (regF .i32 0 2 0 0 0 .rne 2)) (each []) with now := n }
      readyB (.ctlSet (regF .i32 0 2 0 0 0 .rne 2)) s = true ∧ ((isOf s).g.lateAt == s.now) = (n == 0)) := by decide +kernel

/-- `ControlWrites`: a tile descriptor that fails a check of the engine held, an engine that is being released, and a watch range out of place; a unit that
another context has set. -/
theorem witness_ControlWrites_faults :
    (let i := Instr.ctlSet (regF .i32 0 2 0 0 0 .rne 0x13)
     let s := standIn 1 i (each [(2, 1)])
     let held := fun (r : Bool) => { s with wgs := s.wgs.map (fun w => { w with engine := some 0, releasing := r }),
                                            engines := [{ Engine.zero 0 with holder := some 0 }] }
     (∀ r ∈ [true, false], readyB i (held r) = true ∧ (isOf (held r)).w.engine = some 0 ∧ (isOf (held r)).w.releasing = r) ∧
       ((held false).engine 0).tdescOk 1 = false) ∧
    (let i := Instr.ctlSet (regF .i32 0 2 0 0 0 .rne 0x2F)
     let s := standIn 1 i (each [])
     let t := { s with watch := [{ core := 0, unit := 15, value := 0, vf := 0, ctx := 1, rcb := 0, lane := 0, slot := 0, wg := 0, start := 0,
                                      copyOf := none }] }
     readyB i t = true ∧ watchBad (1 <<< 56) = true ∧ watchBad (6 <<< 61) = true ∧ (s.watchUnit? 0 15).isNone = true ∧
       (t.watchUnit? 0 15).any (fun u => u.vf == 0 && u.ctx != 0) = true) := by decide +kernel

/-- A demotion of the lanes `m` from cycle 0 on, while which other lanes have run, or not. -/
def demotionOf (m : Mask) (ran : Bool) : Demotion := { lanes := m, watched := [], began := 0, otherRan := ran, otherEligible := ran }

/-- R187: flags that an asynchronous operation raises in the cycle of a `ctl.set` of c.flags are not lost; R89: a demotion ends where c.spin.off is set. -/
theorem test_ctl_set_beside :
    (let i := Instr.ctlSet (regF .i32 0 2 0 0 0 .rne 2)
     let s := standIn 1 i (each [(2, 4)])
     (nextOf (exec i { s with groups := s.groups.map (fun (g : Group) => { g with lateFlags := 1 }) })).map
       (fun t => t.groups.map (fun g => g.flags))) = some [5] ∧
    (let i := Instr.ctlSet (regF .i32 0 2 0 0 0 .rne 5)
     let s := standIn 1 i (each [(2, 1)])
     (nextOf (exec i { s with groups := s.groups.map (fun (g : Group) => { g with demos := [demotionOf 2 true] }) })).map
       (fun t => t.groups.map (fun g => (g.demoted, g.spinOff)))) = some [(0, true)] := by decide +kernel

/-- What `ctl.set` leaves: the writable bits of c.mdef and of c.trap (R132, R388). -/
theorem test_ctl_set :
    (nextOf (exec (.ctlSet (regF .i32 0 2 0 0 0 .rne 1)) (standIn 1 (.ctlSet (regF .i32 0 2 0 0 0 .rne 1)) (each [(2, 0x20800000)])))).map
      (fun t => t.groups.map (fun g => g.mdef)) = some [0x20800000] ∧
    (nextOf (exec (.ctlSet (regF .i32 0 2 0 0 0 .rne 6)) (standIn 1 (.ctlSet (regF .i32 0 2 0 0 0 .rne 6)) (each [(2, 0x41F)])))).map
      (fun t => t.groups.map (fun g => g.trapCtl)) = some [0x41F] := by decide +kernel

/-- A complete entry of queue 2 that holds the numbers 1 and 7 in its first two words. -/
def fullEntry : QEntry :=
  { id := 50, queue := 2, tile := none, addr := 0x30000, count := 128, pos := 0, func := 0, acquire := false, notag := false,
    bytes := [(0, 1), (4, 7)], level := 4, complete := true, fault := none, delivered := false }

/-- The placed state whose group holds the entry. -/
def withEntry (s : State) : State := { s with groups := s.groups.map (fun g => { g with feeds := [fullEntry] }) }

def popI : Instr := .qpop (regF .i32 1 0 0 0 0 .rne 2)

/-- `Queues`: a `qfeed` with room and a legal count, a `qpop` of a complete entry, and one of a queue whose slice has ended. -/
theorem witness_Queues :
    (let i := Instr.qfeed { regF .i32 0 2 0 0 0 .rne 2 with b := .lit32 128 }
     let s := (placed i).issueAs 0 0 true 1
     readyB i s = true ∧ (((isOf s).word (.lit32 128) 0).toNat = 128) ∧ ((isOf s).g.queue 2).length < (isOf s).r.eff.qdepth) ∧
    (let s := withEntry (standIn 3 popI (each []))
     readyB popI s = true ∧ (match (isOf s).g.popState 2 with | .ready _ => true | _ => false) = true) ∧
    (let s := standIn 3 popI (each [])
     readyB popI s = true ∧ (match (isOf s).g.popState 2 with | .ended => true | _ => false) = true) := by decide +kernel

/-- R237: each lane takes its word, and the entry goes. -/
theorem test_qpop :
    (nextOf (exec popI (withEntry (standIn 3 popI (each []))))).map
      (fun t => t.groups.map (fun g => ((g.lane 0).reg 1, (g.lane 1).reg 1, g.feeds.length))) = some [(1, 7, 0)] := by decide +kernel

/-- `AsyncCopies`: a copy of 120 bytes with tag 0; tag waits on set tags. -/
theorem witness_AsyncCopies :
    (let f := { regF .i32 2 6 0 0 0 .rne 0 with b := .lit32 120, c := .imm 0 }
     let s := standIn 1 (.cpAsync f) (each [(2, 0x30000), (6, 0x30100)])
     let is := isOf s
     let d := is.destAddr f is.l0
     let x := is.addr f.a is.l0
     let q := quals is.g f true true [.generic]
     readyB (.cpAsync f) s = true ∧ (is.word f.b is.l0).toNat = 120 ∧ 0 < is.r.eff.ctags ∧ d.extractLsb' 56 4 = 0 ∧ x.extractLsb' 56 4 = 0 ∧
       s.meetsProtected is.w.vf is.w.ctx (addrVa d) 120 = false ∧ (is.releaseGate s q.releases q.scope).isNone = true ∧
       is.w.copies.length < is.r.eff.copies ∧ s.playing is.w.vf is.w.ctx = false ∧ (is.watchHit s (copyRanges is.l0 d x 120)).isNone = true) ∧
    (∀ i ∈ [Instr.twaitAny { regF .i32 0 0 0 0 0 .rne 0 with a := .imm 3 }, .twaitAll { regF .i32 0 0 0 0 0 .rne 0 with a := .imm 3 },
        .tfirst { regF .i32 1 0 0 0 0 .rne 0 with a := .imm 2 }],
      let s := standIn 1 i (each [])
      readyB i s = true ∧ ((s.resumeCopies (isOf s).w 3).wg? (isOf s).w.id).any (fun w => w.tags == 0xFF && w.copies.isEmpty) = true) := by
  decide +kernel

/-- `AsyncCopies`: transposing copies of rows of 16 bytes, in elements of 1 byte and of 2, of which the length is not a multiple of the row, or has more
than 256 rows, and one that fits. -/
theorem witness_AsyncCopies_transposing :
    ∀ m ∈ [1, 2],
      let f := fun (n : Nat) => { regF .i32 2 6 0 0 m .rne 0 with b := .lit32 (BitVec.ofNat 32 n), c := .imm 0 }
      (∀ n ∈ [120, 16 * 257, 32],
        let s := standIn 1 (.cpAsync (f n)) (each [(2, 0x30000), (6, 0x30100)])
        readyB (.cpAsync (f n)) s = true ∧ ((isOf s).word (f n).b (isOf s).l0).toNat = n ∧ 0 < (isOf s).r.eff.ctags ∧ (isOf s).r.eff.copies ≠ 0) ∧
      (f 32).mod.toNat % 4 ≠ 0 ∧ 120 % (16 * ((f 120).spec.toNat + 1)) ≠ 0 ∧ 256 < 16 * 257 / (16 * ((f 120).spec.toNat + 1)) ∧
      32 % (16 * ((f 32).spec.toNat + 1)) = 0 ∧ 32 / (16 * ((f 32).spec.toNat + 1)) ≤ 256 := by decide +kernel

/-- R240: a copy has started and its tag is clear; R245: `tfirst` gives the lowest tag set. -/
theorem test_copy_and_tags :
    (let i := Instr.cpAsync { regF .i32 2 6 0 0 0 .rne 0 with b := .lit32 120, c := .imm 5 }
     (nextOf (exec i (standIn 1 i (each [(2, 0x30000), (6, 0x30100)])))).map (fun t => t.wgs.map (fun w => (w.copies.length, w.tags)))) =
      some [(1, 0xDF)] ∧
    lands (.tfirst { regF .i32 1 0 0 0 0 .rne 0 with a := .imm 6 }) (each []) 0 1 = some 1 := by decide +kernel

/-- `Bindings`: a `bind` of 4,096 bytes, an `unbind` of it, and an `unbind` of what is not bound. -/
theorem witness_Bindings :
    (let f := { regF .i32 2 0 6 0 0 .rne 0 with a := .lit32 4096 }
     let s := standIn 1 (.bind f) (each [(2, 0x30000), (6, 0x31000)])
     let is := isOf s
     let x := is.destAddr f is.l0
     let l := is.addr f.b is.l0
     (readyB (.bind f) s = true ∧ s.bindings = [] ∧ addrFormOk x 0 = true ∧ addrVa x % 32 = 0 ∧ (is.word f.a is.l0).toNat = 4096 ∧ addrVa l % 8 = 0 ∧
       (s.firstBound is.w.vf is.w.ctx (addrVa x) 4096).isNone = true) ∧
     ∃ s1 sps, Reaches s is [is.latchRange l true] [is.latchReq l] false .system s1 sps ∧ someSpot s1 sps = true) ∧
    (let f := regF .i32 2 0 0 0 0 .rne 0
     let s := { standIn 1 (.unbind f) dev2 with bindings := [boundHere] }
     let is := isOf s
     let x := is.destAddr f is.l0
     (readyB (.unbind f) s = true ∧
       s.bindings.find? (fun b => b.vf == is.w.vf && b.ctx == is.w.ctx && b.start == addrVa x) = some boundHere ∧
       is.merged = false ∧ mergesIn s is.w.vf true (is.mergeGate s (s.shadowsOf [boundHere])) = true) ∧
     ∃ s1 sps, Reaches s is [is.latchRange boundHere.latch true] [is.latchReq boundHere.latch] false .system s1 sps ∧ someSpot s1 sps = true) :=
  ⟨⟨by decide +kernel, reach_with someSpot (by decide +kernel)⟩, by decide +kernel, reach_with someSpot (by decide +kernel)⟩

/-- `Latches`: an acquire of a free latch that is granted at once, one of a latch that is held exclusively, and a `rel` of a latch held. -/
def latchHold : Hold := { pa := 0x30000, va := 0x30000, excl := true, count := 1, note := Note.noted }
def holding (s : State) : State :=
  { s with mem := writeLE s.mem 0x30000 8 1, groups := s.groups.map (fun g => { g with holds := [latchHold] }) }

theorem witness_Latches :
    (let f := regF .i32 2 0 0 0 0 .rne 0
     let s := standIn 1 (.acqX f) dev2
     let is := isOf s
     let x := is.destAddr f is.l0
     (readyB (.acqX f) s = true ∧ addrFormOk x 0 = true ∧ addrVa x % 8 = 0 ∧ is.g.wait = none ∧ (is.g.holdOf (addrVa x)).isNone = true ∧
       is.g.holds.length < 8) ∧
     ∃ s1 sps, Reaches s is [is.latchRange x false] [is.latchWrite x] false .system s1 sps ∧ someSpot s1 sps = true) ∧
    (let f := regF .i32 2 0 0 0 0 .rne 0
     let s := { standIn 1 (.acqX f) dev2 with mem := writeLE (placed (.acqX f)).mem 0x30000 8 0x1 }
     let is := isOf s
     readyB (.acqX f) s = true ∧
     ∃ s1 sps, Reaches s is [is.latchRange (is.destAddr f is.l0) false] [is.latchWrite (is.destAddr f is.l0)] false .system s1 sps ∧
       someSpot s1 sps = true) ∧
    (let f := regF .i32 2 0 0 0 0 .rne 0
     let s := holding (standIn 1 (.rel f) dev2)
     let is := isOf s
     let x := is.destAddr f is.l0
     let sc := (quals is.g f false true [.generic]).scope
     (readyB (.rel f) s = true ∧ addrFormOk x 0 = true ∧ is.g.holdOf (addrVa x) = some latchHold ∧ scopeRank sc < 4 ∧
       is.merged = false ∧ mergesIn s is.w.vf true (is.mergeGate s []) = true) ∧
     ∃ s1 sps, Reaches s is [is.latchRange x false] [is.latchWrite x] true sc s1 sps ∧ someSpot s1 sps = true) :=
  ⟨⟨by decide +kernel, reach_with someSpot (by decide +kernel)⟩, ⟨by decide +kernel, reach_with someSpot (by decide +kernel)⟩,
    by decide +kernel, reach_with someSpot (by decide +kernel)⟩

/-- A location with a shadow copy of its die, bound to the latch at 0x31000, which the placed group holds; no room in the dirty log for its home. -/
def owing (s : State) : State :=
  { calm ((s.setCxReg 0 0 0x120 0x101).setVfReg 0 0x034 1) with
    bindings := [boundHere], shadows := [Shadow.fresh 0 0 0 0x30000 .add .n32 1],
    groups := s.groups.map (fun g => { g with holds := [{ latchHold with pa := 0x31000, va := 0x31000 }] }), mem := writeLE s.mem 0x31000 8 (2 ^ 63) }
def relF : Fields := scopeF .package (regF .i32 2 0 0 0 0 .rne 0)

/-- `Bindings` and `Latches`: an `unbind` and a `rel` that have to owe the homes of their merge. -/
theorem witness_Merges_owed :
    (let f := regF .i32 2 0 0 0 0 .rne 0
     let s := owing (standIn 1 (.unbind f) dev2)
     let is := isOf s
     readyB (.unbind f) s = true ∧ is.merged = false ∧ mergesIn s is.w.vf false (is.mergeGate s (s.shadowsOf [boundHere])) = true ∧
       (match s.checkReqs is [is.latchReq boundHere.latch] with | .go sps => !sps.isEmpty | _ => false) = true ∧
       (is.watchHit s [is.latchRange boundHere.latch true]).isNone = true) ∧
    (let s := owing (standIn 1 (.rel relF) (each [(2, 0x31000)]))
     let is := isOf s
     let x := is.destAddr relF is.l0
     let sc := (quals is.g relF false true [.generic]).scope
     readyB (.rel relF) s = true ∧ is.merged = false ∧ (is.g.holdOf (addrVa x)).isSome = true ∧ 4 ≤ scopeRank sc ∧
       (match s.checkReqs is [is.latchWrite x] with
        | .go (sp :: _) => mergesIn s is.w.vf false (is.mergeGate s (s.shadowsOf (s.bindingsTo is.w.vf is.w.ctx (addrVa x) sp.pa)))
        | _ => false) = true ∧
       (is.releaseGate s true sc).isNone = true ∧ (is.watchHit s [is.latchRange x false]).isNone = true) := by decide +kernel

/-- The same operations once they have taken the shadow copies, with the homes still to be written, and without. -/
def owed (i : Instr) (rs : Nat → Sparse 32) : State :=
  match nextOf (exec i (owing (standIn 1 i rs))) with
  | some t => t.issueAs 0 0 false 1
  | none => placed i

theorem witness_Merges_ending :
    ∀ x ∈ [(Instr.unbind (regF .i32 2 0 0 0 0 .rne 0), dev2), (.rel relF, each [(2, 0x31000)])],
      let s := owed x.1 x.2
      let is := isOf s
      readyB x.1 s = true ∧ is.merged = true ∧ s.owesFolds is.g = true ∧ ({ s with posted := [] } : State).owesFolds is.g = false ∧
        s.quietLog is.w.vf is.w.ctx = true ∧ (s.spotOf is (is.latchReq 0x31000)).isSome = true ∧ s.shadows = [] := by decide +kernel

/-- A group that holds the latch shared, in issue with an `acq.s` of it. -/
def sharedAcq : Fields := regF .i32 2 0 0 0 0 .rne 0
def sharedState : State :=
  let s := holding (standIn 1 (.acqS sharedAcq) dev2)
  { s with groups := s.groups.map (fun (g : Group) => { g with holds := [{ latchHold with excl := false }] }) }

/-- Asked of a reach: that the latch word at its places is not held exclusively. -/
def notHeldX (is : Issue) (s1 : State) (sps : List Spot) : Bool :=
  sps.all (fun sp => !(readLatch (s1.noteSpot is sp).mem sp.pa).x) && someSpot s1 sps

/-- `Latches`: a further shared hold of a latch that the group holds shared. -/
theorem witness_Latches_shared :
    let is := isOf sharedState
    let x := is.destAddr sharedAcq is.l0
    (readyB (.acqS sharedAcq) sharedState = true ∧ addrFormOk x 0 = true ∧ addrVa x % 8 = 0 ∧ is.g.wait = none ∧
      is.g.holdOf (addrVa x) = some { latchHold with excl := false }) ∧
    ∃ s1 sps, Reaches sharedState is [is.latchRange x false] [is.latchWrite x] false .system s1 sps ∧ notHeldX is s1 sps = true :=
  ⟨by decide +kernel, reach_with (notHeldX (isOf sharedState)) (by decide +kernel)⟩

/-- A wait of a kind that has counted no cycle. -/
def plainWait (k : WaitKind) : Wait := { kind := k, cycles := 0, addr := 0, expired := false }

/-- `Latches`: an acquire that has been granted, and one that is dispatched again while its group waits elsewhere. -/
theorem witness_Latches_granted :
    (∀ i ∈ [Instr.acqX sharedAcq, .acqS sharedAcq],
      let s := standIn 1 i dev2
      let s1 := { s with groups := s.groups.map (fun (g : Group) => { g with wait := some (plainWait .granted) }) }
      readyB i s1 = true ∧ (isOf s1).g.wait.any (fun w => w.kind == .granted) = true) ∧
    (plainWait .other).kind ≠ .granted ∧ (plainWait .other).kind ≠ .latch := by decide +kernel

/-- R249: the word of a latch that core 0, slot 0 holds exclusively, and of one held shared once; R252: it is clear again after `rel`. -/
theorem test_latch_words :
    let word := fun (i : Instr) (s : State) => (nextOf (exec i s)).map (fun t => readLE t.mem 0x30000 8)
    let f := regF .i32 2 0 0 0 0 .rne 0
    word (.acqX f) (standIn 1 (.acqX f) dev2) = some (2 ^ 63) ∧ word (.acqS f) (standIn 1 (.acqS f) dev2) = some 1 ∧
    word (.rel f) (holding (standIn 1 (.rel f) dev2)) = some 0 := by decide +kernel

/-- `FencesAndSignals`: an acquire fence, a release fence at workgroup scope, one at package scope in and outside recovery mode, one with an
acknowledgement outstanding, and a signal to the workgroup's own store. -/
theorem witness_FencesAndSignals :
    (let s := standIn 1 (.fence (regF .i32 0 0 0 0 1 .rne 0)) (each [])
     readyB (.fence (regF .i32 0 0 0 0 1 .rne 0)) s = true) ∧
    (let f := regF .i32 0 0 0 0 3 .rne 0
     let s := standIn 1 (.fence f) (each [])
     readyB (.fence f) s = true ∧ (isOf s).w.storing (fun k => k == (isOf s).g.start) = false ∧ scopeRank (quals (isOf s).g f true true [.generic]).scope < 4) ∧
    (let f := scopeF .system (regF .i32 0 0 0 0 3 .rne 0)
     let s := standIn 1 (.fence f) (each [])
     readyB (.fence f) s = true ∧ s.recovery = true ∧ (calm s).recovery = false ∧ readyB (.fence f) (calm s) = true ∧ (isOf (calm s)).g.acks = 0 ∧
       4 ≤ scopeRank (quals (isOf s).g f true true [.generic]).scope) ∧
    (let f := regF .i32 2 5 4 8 0 .rne 0
     let s := standIn 1 (.wsig f) (each [(2, 0x100), (3, 0x1000), (4, 0x104), (5, 0x1000)])
     let is := isOf s
     let q := quals is.g f false true [.generic, .dieStore]
     let qs := is.active.flatMap (is.signalReqs f q)
     Ready (.wsig f) s is ∧ ∃ s1 sps, Reaches s is (qs.map (s.watchRange is)) qs false q.scope s1 sps ∧
       (decide (sps ≠ [] ∧ ∀ L ∈ is.active, homesDiffer sps L = false)) = true) :=
  ⟨by decide +kernel, by decide +kernel, by decide +kernel, ready_of (by decide +kernel), reach_with (fun s1 sps => decide _) (by decide +kernel)⟩

/-- `FencesAndSignals`: an acquire fence that waits, for a copy of its group has still to read. -/
theorem witness_FencesAndSignals_reading :
    let i := Instr.fence (regF .i32 0 0 0 0 1 .rne 0)
    let s := standIn 1 i (each [])
    let c : Copy := { id := 70, core := 0, slot := 0, start := (isOf s).g.start, dest := 0x30000, src := 0x30100, bytes := 120, tag := 2, linked := none,
                      mode := 0, row := 0, next := 0, done := 0, read := [], acquire := false, pos := 0, func := 0, fault := none, delivered := [],
                      notag := false, absent := none }
    let t := { s with wgs := s.wgs.map (fun w => { w with copies := [c] }) }
    readyB i t = true ∧ (isOf t).reading = true := by decide +kernel

/-- A workgroup barrier of the placed workgroup at offset 0x100 of its allocation, with the fields `b`. -/
def barAt (pa : Nat) (b : BarFields) (s : State) : State :=
  { s with mem := writeBytes s.mem pa (BarFields.bytes b),
           wgs := s.wgs.map (fun w => { w with bars := [{ pa := pa, off := pa - w.pa, members := [(0, 0xFFFFFFFF)] }] }) }

def freshBar (n : Nat) : BarFields := { phase := 0, expected := n, arrivals := 0, drops := 0, linked := false, tag := 0, balance := 0 }

def barPa : Nat := slicePa 0 0x100

/-- `WorkgroupBarriers`: an object to initialise, and a live one to wait for, to expect on, to link and to arrive at. -/
theorem witness_WorkgroupBarriers :
    (let f := { regF .i32 2 0 0 0 0 .rne 0 with a := .imm 4 }
     let s := standIn 1 (.barInit f) addr2
     let is := isOf s
     (readyB (.barInit f) s = true ∧ is.barBad s false (is.destAddr f is.l0) = false ∧ (is.w.bar? barPa).isNone = true ∧ is.w.bars.length < 8) ∧
     ∃ s1 sps, Reaches s is [] [is.barReq false 1 is.l0 (is.destAddr f is.l0)] false .workgroup s1 sps ∧
       (sps.head?.any (fun sp => sp.pa == barPa)) = true) ∧
    (∀ n ∈ [0, 31], ∀ i ∈ [Instr.barWait { regF .i32 2 0 0 0 0 .rne 0 with a := .imm (BitVec.ofNat 5 n) },
        .barExpect { regF .i32 2 0 0 0 0 .rne 0 with a := .imm 8 }, .barLink { regF .i32 2 0 0 0 0 .rne 0 with a := .imm 7 }],
      let s := barAt barPa (freshBar 32) (standIn 1 i addr2)
      let is := isOf s
      readyB i s = true ∧ is.barBad s false (is.destAddr (regF .i32 2 0 0 0 0 .rne 0) is.l0) = false ∧ (is.w.bar? barPa).isSome = true ∧
        phasePassed 0 (2 ^ 32 - 1) = true ∧ phasePassed 0 0 = false ∧ 7 < is.r.eff.ctags) ∧
    (let f := { regF .i32 2 0 0 0 0 .rne 0 with a := .imm 1 }
     let s := barAt barPa (freshBar 32) (standIn 3 (.barArrive f) addr2)
     let is := isOf s
     (readyB (.barArrive f) s = true ∧ ∀ L ∈ is.active, (is.arriveFails s (is.destAddr f L) L).isNone = true) ∧
     ∃ s1 sps, Reaches s is [] (is.active.map (fun L => is.barReq false 1 L (is.destAddr f L))) true .workgroup s1 sps ∧
       (decide (sps.length = 2)) = true) :=
  ⟨⟨by decide +kernel, reach_with (fun s1 sps => _) (by decide +kernel)⟩, by decide +kernel, by decide +kernel,
    reach_with (fun s1 sps => decide _) (by decide +kernel)⟩

/-- The operation `i` before a `nop`, with the lanes `m` of the group in issue at it. -/
def thenNop (m : Mask) (i : Instr) (rs : Nat → Sparse 32) : State :=
  (inImage [(0, [8, 0, 0x01000006, 2] ++ encode i ++ nopWords)] 4 rs).issueAs 0 0 false m

/-- R258, R263: two lanes of two arrive, and the phase completes; R262: `bar.link` records its tag. -/
theorem test_barrier_phase :
    (let i := Instr.barArrive { regF .i32 2 0 0 0 0 .rne 0 with a := .imm 1 }
     (nextOf (exec i (barAt barPa (freshBar 2) (thenNop 3 i addr2)))).map (fun t =>
       ((readBar t.mem barPa).phase, (readBar t.mem barPa).arrivals, (readBar t.mem barPa).expected)) = some (1, 0, 2)) ∧
    (let i := Instr.barLink { regF .i32 2 0 0 0 0 .rne 0 with a := .imm 7 }
     (nextOf (exec i (barAt barPa (freshBar 2) (standIn 1 i addr2)))).map (fun t =>
       ((readBar t.mem barPa).linked, (readBar t.mem barPa).tag)) = some (true, 7)) := by decide +kernel

/-- Offset 0x40 of the die store, of which the context's share holds one unit of 64 KiB. -/
def dieAddr : Nat → Sparse 32 := each [(2, 0x40)]
def withDie (s : State) : State := s.setCxReg 0 0 0x120 1

/-- A live die barrier of the placed region there. -/
def dieBarAt (b : BarFields) (s : State) : State :=
  { s with mem := writeBytes s.mem (dieStorePa 0 0 0x40) (BarFields.bytes b),
           dieBars := [{ pa := dieStorePa 0 0 0x40, die := 0, vf := 0, rcb := placeRcb, members := [0], arrived := [] }] }

/-- `DieBarriers`: an object to initialise, to arrive at, to arrive at once too often, and to wait for. -/
theorem witness_DieBarriers :
    (let f := { regF .i32 2 0 0 0 0 .rne 0 with a := .imm 4 }
     let s := withDie (standIn 1 (.dbarInit f) dieAddr)
     let is := isOf s
     (readyB (.dbarInit f) s = true ∧ is.barBad s true (is.destAddr f is.l0) = false) ∧
     ∃ s1 sps, Reaches s is [] [is.barReq true 1 is.l0 (is.destAddr f is.l0)] false .die s1 sps ∧
       (sps.head?.any (fun sp => (s1.dieBar? sp.pa).isNone)) = true) ∧
    (let f := { regF .i32 2 0 0 0 0 .rne 0 with a := .imm 1 }
     let s := dieBarAt (freshBar 2) (withDie (standIn 1 (.dbarArrive f) dieAddr))
     let is := isOf s
     (readyB (.dbarArrive f) s = true ∧ is.barBad s true (is.destAddr f is.l0) = false) ∧
     ∃ s1 sps, Reaches s is [] [is.barReq true 1 is.l0 (is.destAddr f is.l0)] true .die s1 sps ∧
       (sps.head?.any (fun sp => (s1.dieBar? sp.pa).isSome && decide ((readBar s1.mem sp.pa).arrivals + 1 ≤ (readBar s1.mem sp.pa).expected)))
         = true) ∧
    (let f := { regF .i32 2 0 0 0 0 .rne 0 with a := .imm 31 }
     let s := dieBarAt (freshBar 2) (withDie (standIn 1 (.dbarWait f) dieAddr))
     let is := isOf s
     (readyB (.dbarWait f) s = true ∧ is.barBad s true (is.destAddr f is.l0) = false) ∧
     ∃ s1 sps, Reaches s is [] [is.barReq true 0 is.l0 (is.destAddr f is.l0)] false .die s1 sps ∧
       (sps.head?.any (fun sp => (s1.dieBar? sp.pa).isSome && phasePassed (readBar s1.mem sp.pa).phase 0xFFFFFFFF)) = true) :=
  ⟨⟨by decide +kernel, reach_with (fun s1 sps => _) (by decide +kernel)⟩,
    ⟨by decide +kernel, reach_with (fun s1 sps => _) (by decide +kernel)⟩, by decide +kernel, reach_with (fun s1 sps => _) (by decide +kernel)⟩

/-- `DieBarriers`: an arrival with a count of 0; one that would arrive too often; a wait for the phase that is not complete. -/
theorem witness_DieBarriers_corners :
    (∀ n ∈ [0, 3],
      let f := { regF .i32 2 0 0 0 0 .rne 0 with a := .imm (BitVec.ofNat 5 n) }
      let s := dieBarAt (freshBar 2) (withDie (standIn 1 (.dbarArrive f) dieAddr))
      let is := isOf s
      readyB (.dbarArrive f) s = true ∧ is.barBad s true (is.destAddr f is.l0) = false ∧
        (reachOf s is [] [is.barReq true 1 is.l0 (is.destAddr f is.l0)] true .die).any (fun x => x.2.head?.any (fun sp =>
          (x.1.dieBar? sp.pa).isSome &&
            (if n = 0 then decide ((readBar x.1.mem sp.pa).arrivals ≤ (readBar x.1.mem sp.pa).expected)
             else decide (∀ a ∈ [x.1, Tried s is x.2], (readBar a.mem sp.pa).expected < (readBar a.mem sp.pa).arrivals + n)))) = true) ∧
    (let f := { regF .i32 2 0 0 0 0 .rne 0 with a := .imm 0 }
     let s := dieBarAt (freshBar 2) (withDie (standIn 1 (.dbarWait f) dieAddr))
     let is := isOf s
     readyB (.dbarWait f) s = true ∧ is.expired .dieBarrier = false ∧ is.barBad s true (is.destAddr f is.l0) = false ∧
       (reachOf s is [] [is.barReq true 0 is.l0 (is.destAddr f is.l0)] false .die).any (fun x => x.2.head?.any (fun sp =>
         decide (∀ a ∈ [x.1, Tried s is x.2], (a.dieBar? sp.pa).isSome ∧ phasePassed (readBar a.mem sp.pa).phase 0 = false))) = true) := by
  decide +kernel

/-- `BarrierPhases`: a phase that completes, one that does not, a poisoned object; phases 1 and 2^31 ahead and one beyond (R261). -/
theorem witness_BarrierPhases :
    State.reset.poisoned 0 16 = false ∧ ({ State.reset with poison := [(0, 1)] } : State).poisoned 0 16 = true ∧
    phasePassed 1 0 = true ∧ phasePassed (2 ^ 31) 0 = true ∧ phasePassed (2 ^ 31 + 1) 0 = false ∧ phasePassed 0 0 = false := by decide +kernel

/-! ## Hypotheses that can be met: the matrix engines -/

/-- Tile 3 described as 2 rows of 16 `e4m3` elements (R347). -/
def smallDesc : Dword := 0x0010020B
def heldEngine : Engine := { Engine.zero 0 with holder := some 0, tdesc := [(3, smallDesc)] }
def smallResv : Resv := { idx := 5, base := 0, ext := 32, format := 11, glen := 0, soff := 0, zoff := 0 }

/-- The placed workgroup holds engine 0. -/
def withEngine (s : State) : State := { s with wgs := s.wgs.map (fun w => { w with engine := some 0 }), engines := [heldEngine] }

/-- It is releasing that engine. -/
def withRelease (s : State) : State :=
  { s with wgs := s.wgs.map (fun w => { w with engine := some 0, releasing := true }), engines := [heldEngine] }

def mresI (m : BitVec 5) : Instr := .mres { regF .i32 1 0 0 0 0 .rne 0 with a := .imm m }

/-- What `mres` finds: an illegal mask, an engine held, one being released with its bit set and clear, none free, and one granted. -/
theorem witness_EngineAndReservations_mres :
    readyB (.mres (regF .i32 1 2 0 0 0 .rne 0)) (standIn 1 (.mres (regF .i32 1 2 0 0 0 .rne 0)) (each [(2, 16)])) = true ∧
    (readyB (mresI 15) (withEngine (standIn 1 (mresI 15) (each []))) = true ∧ (isOf (withEngine (standIn 1 (mresI 15) (each [])))).w.held = some 0) ∧
    (let s := withRelease (standIn 1 (mresI 1) (each []))
     readyB (mresI 1) s = true ∧ (isOf s).w.engine = some 0 ∧ (isOf s).w.releasing = true ∧ (1 : Nat).testBit (0 % 4) = true) ∧
    (let s := withRelease (standIn 1 (mresI 2) (each []))
     readyB (mresI 2) s = true ∧ (isOf s).w.engine = some 0 ∧ (2 : Nat).testBit (0 % 4) = false) ∧
    (let s := standIn 1 (mresI 0) (each [])
     readyB (mresI 0) s = true ∧ (isOf s).w.engine = none ∧ ∀ n ∈ clusterEngines (isOf s).w.core, (0 : Nat).testBit (n % 4) = false) ∧
    (let s := standIn 1 (mresI 1) (each [])
     readyB (mresI 1) s = true ∧ (isOf s).w.engine = none ∧ (s.grantEngine (isOf s).w (isOf s).r 1).2 = true) := by decide +kernel

/-- A released engine without transfers; a record of 16 zero bytes but for its format, and its operands, to reserve from; a reservation. -/
theorem witness_EngineAndReservations_buffer :
    (let i := Instr.mrel (regF .i32 0 0 0 0 0 .rne 0)
     let s := withEngine (standIn 1 i (each []))
     readyB i s = true ∧ (isOf s).w.held = some 0 ∧ (((isOf s).rerunXfers s).wg? (isOf s).w.id).any (fun w => w.xfers.isEmpty && w.xfaults.isEmpty) = true) ∧
    (let f := { regF .i32 0 2 0 0 0 .rne 5 with b := .imm 0, c := .lit32 32 }
     let s0 := withEngine (standIn 1 (.obres f) addr2)
     let s := { s0 with mem := writeLE s0.mem (slicePa 0 0x100) 16 11 }
     let is := isOf s
     let x := is.addr f.a is.l0
     (readyB (.obres f) s = true ∧ is.w.held = some 0 ∧ addrFormOk x 0 = true ∧ addrVa x % 16 = 0 ∧ (is.outside s x 48).isNone = true ∧
       ((s.engine 0).resv? 5).isNone = true ∧ (s.engine 0).resvs = [] ∧ is.w.readsResv 5 = false) ∧
     ∃ s1 sps, Reaches s is [] [is.onceReq x 0 16] false .workgroup s1 sps ∧
       (sps.head?.any (fun sp => (recordOf (readLE s1.mem sp.pa 16) 5 0 32).isSome) &&
         (reachOf s1 is [] [is.onceReq x 16 32] false .workgroup).any (fun y => !y.2.isEmpty)) = true) ∧
    (let i := Instr.obrel (regF .i32 0 0 0 0 0 .rne 5)
     let s := { withEngine (standIn 1 i (each [])) with engines := [{ heldEngine with resvs := [smallResv] }] }
     readyB i s = true ∧ (isOf s).w.engine = some 0 ∧ ((s.engine 0).resv? 5) = some smallResv ∧ (isOf s).w.readsResv 5 = false ∧
       ((s.engine 0).resv? 6).isNone = true) :=
  ⟨by decide +kernel, ⟨by decide +kernel, reach_with (fun s1 sps => _) (by decide +kernel)⟩, by decide +kernel⟩

/-- `TileOperations`: transfers of tile 3, a `tclr` of it, and a strict group that touches it. -/
theorem witness_TileOperations :
    (∀ i ∈ [Instr.tld { regF .i32 0 2 0 0 0 .rne 3 with b := .lit32 64 }, .tst { regF .i32 0 2 0 0 0 .rne 3 with b := .lit32 64 }],
      let s := withEngine (standIn 1 i dev2)
      let is := isOf s
      let d := TDesc.of ((s.engine 0).tdesc.look 3)
      readyB i s = true ∧ is.w.held = some 0 ∧ (s.engine 0).tdesc.look 3 ≠ 0 ∧ d.rowBytes = 16 ∧ addrFormOk (is.addr (.reg 2) is.l0) 0 = true ∧
        is.strict = false ∧ (is.releaseGate s false .workgroup).isNone = true ∧ s.playing is.w.vf is.w.ctx = false ∧
        (is.watchHit s [{ lane := is.l0, ds := false, va := 0x30000, n := 80, reads := true, writes := true, report := 0x30000 }]).isNone = true) ∧
    (let i := Instr.tclr (regF .i32 0 0 0 0 0 .rne 3)
     let s := withEngine (standIn 1 i (each []))
     readyB i s = true ∧ (isOf s).w.held = some 0 ∧ (isOf s).strict = false) := by decide +kernel

/-- R357: the bytes of a cleared tile, its fill offset and its dirty mark. -/
theorem test_tclr :
    (let i := Instr.tclr (regF .i32 0 0 0 0 0 .rne 3)
     let e := { heldEngine with tiles := [(tileKey 3 0, 9)], fill := [(3, 16)] }
     let s := { withEngine (standIn 1 i (each [])) with engines := [e] }
     (nextOf (exec i s)).map (fun t => ((t.engine 0).tiles, (t.engine 0).fill, (t.engine 0).dirty))) = some ([], [], 8) := by decide +kernel

/-- An operation block: an epilogue of accumulator 0 to `f32`, with a store to device memory at 0x30000 of rows 256 bytes apart, tag 2. -/
def storeBlock : Nat := 3 + 8 * 2 ^ 32 + 2 ^ 45 + 2 * 2 ^ 48 + 0x30000 * 2 ^ 192 + 256 * 2 ^ 256

/-- `MatrixOperations`: the waits of a workgroup without transfers, and an `mlaunch` of a block in the local store. -/
theorem witness_MatrixOperations :
    (∀ i ∈ [Instr.mfenceOp (regF .i32 0 0 0 0 0 .rne 0), .mwait { regF .i32 0 0 0 0 0 .rne 0 with a := .imm 3, b := .imm 7 },
        .mstate (regF .i32 1 0 0 0 0 .rne 0)],
      let s := withEngine (standIn 1 i (each []))
      readyB i s = true ∧ (isOf s).w.held = some 0 ∧
        (((isOf s).rerunXfers s).wg? (isOf s).w.id).any (fun w => w.xfers.isEmpty && w.xfaults.isEmpty && (w.record 3).isEmpty && w.tags.getLsbD 7)
          = true) ∧
    (let f := regF .i32 0 2 0 0 0 .rne 0
     let s0 := withEngine (standIn 1 (.mlaunch f) addr2)
     let s := { s0 with mem := writeLE s0.mem (slicePa 0 0x100) 64 storeBlock }
     let is := isOf s
     let x := is.addr f.a is.l0
     (readyB (.mlaunch f) s = true ∧ is.w.held = some 0 ∧ addrFormOk x 0 = true ∧ addrVa x % 64 = 0 ∧ (is.outside s x 64).isNone = true ∧
       is.strict = false) ∧
     ∃ s1 sps, Reaches s is [] [is.onceReq x 0 64] false .workgroup s1 sps ∧
       (sps.head?.any (fun sp => (s1.engine 0).blockOk (readLE s1.mem sp.pa 64) is.r.eff.ctags &&
          (is.blockedStore (Block.ofNat (readLE s1.mem sp.pa 64)).accs).isNone && decide ((s1.launchQueue 0).length < 8) &&
          !s1.playing is.w.vf is.w.ctx && (is.watchHit s1 (launchRanges is.l0 (Block.ofNat (readLE s1.mem sp.pa 64)))).isNone)) = true) :=
  ⟨by decide +kernel, by decide +kernel, reach_with (fun s1 sps => _) (by decide +kernel)⟩

/-- A launched operation with that block, in a phase; a tile transfer; a tile entry. -/
def launched (ph : OpPhase) : MatOp :=
  { id := 60, engine := 0, blk := Block.ofNat storeBlock, descA := 0, descB := 0, bytesA := [], bytesB := [], followed := [], resA := none,
    resB := none, core := 0, slot := 0, start := 1, pos := 0, func := 0, phase := ph, flags := 0, fault := none, delivered := [], resumed := false, landed := 0, buf0 := 0, buf1 := 0,
    bias := [], values := [], snaps := [], absent := none }
def transfer (store : Bool) : TileXfer :=
  { id := 61, engine := 0, tile := 3, store := store, addr := 0x30000, stride := 64, desc := smallDesc, moved := 0, buf := 3, old := [],
    left := none, high := 0, loose := false, core := 0, slot := 0, start := 1, pos := 0, func := 0, notag := false, touched := false,
    seen := none, failed := false, rerun := none, absent := none }
def tileEntry : QEntry := { fullEntry with tile := some 3, count := 16 }

def goes (t : ChunkTurn) : Bool := match t with | .go .. => true | _ => false

/-- `MatrixEvents`: an entry that fits into its tile, a transfer's next chunk, the head of a launch queue, and a store's next chunk. -/
theorem witness_MatrixEvents :
    (let s0 : State := withEngine (placed popI)
     let s : State := { s0 with groups := s0.groups.map (fun (g : Group) => { g with feeds := [tileEntry] }) }
     ((s.group? 0 0).any (fun g => g.tileHead 2 == some (tileEntry, 3) && (s.wg? g.wg).any (fun w => w.held == some 0 && w.xfers.isEmpty))) = true ∧
       (TDesc.of ((s.engine 0).tdesc.look 3)).size = 32) ∧
    (∀ st ∈ [true, false],
      let s0 : State := withEngine (placed popI)
      let s : State := { s0 with wgs := s0.wgs.map (fun (w : Workgroup) => { w with xfers := [transfer st] }) }
      ((s.xferOwner 61).any (fun p =>
        ((xferChunks (TDesc.of p.2.desc) p.2.addr p.2.stride)[0]?).any (fun c =>
          (if st then s.overwrites p.1 p.2 (piecesOf p.2.addr (c.1 : Int) c.2.2 0 st) == some []
           else goes (s.xferTurn p.1 p.2 (piecesOf p.2.addr (c.1 : Int) c.2.2 0 st)))))) = true) ∧
    (∀ st ∈ [true, false],
      let s0 : State := withEngine (placed popI)
      let s : State := { s0 with wgs := s0.wgs.map (fun (w : Workgroup) => { w with xfers := [{ transfer st with seen := some [] }] }) }
      ((s.xferOwner 61).any (fun p =>
        ((xferChunks (TDesc.of p.2.desc) p.2.addr p.2.stride)[0]?).any (fun c =>
          (s.overwrites p.1 p.2 (piecesOf p.2.addr (c.1 : Int) c.2.2 0 st)).isNone &&
          goes (s.xferTurn p.1 p.2 (piecesOf p.2.addr (c.1 : Int) c.2.2 0 st))))) = true) ∧
    (let s0 : State := withEngine (placed popI)
     let s : State := { s0 with wgs := s0.wgs.map (fun (w : Workgroup) => { w with ops := [launched .queued] }) }
     ((s.queueHead 0).any (fun p => p.2.fault.isNone && p.2.blk.accs.all (fun a => (s.retainer 0 a (1 - (s.engine 0).committed a)).isNone) &&
        goes (s.chunkTurn (p.2.owner p.1) (s.blimitOf p.1) p.2.absent false false p.2.biasPieces))) = true) ∧
    (let s0 : State := withEngine (placed popI)
     let s : State := { s0 with wgs := s0.wgs.map (fun (w : Workgroup) => { w with ops := [launched .storing] }) }
     ((s.opOwner 60).any (fun p => p.2.blk.storeBlocks[0]? == some 0 &&
        goes (s.chunkTurn (p.2.owner p.1) (s.blimitOf p.1) p.2.absent true false (p.2.blk.storePieces 0)))) = true) := by decide +kernel

/-- `TileOperations`: a strict group that touches tile 3, which an operation in flight names. -/
theorem witness_TileOperations_strict :
    ∀ i ∈ [Instr.tld { regF .i32 0 2 0 0 0 .rne 3 with b := .lit32 64 }, .tst { regF .i32 0 2 0 0 0 .rne 3 with b := .lit32 64 },
        .tclr (regF .i32 0 0 0 0 0 .rne 3)],
      let s0 := withEngine (standIn 1 i dev2)
      let o := { launched .queued with blk := { Block.ofNat storeBlock with op := 1, ta := 3 } }
      let s := { s0 with wgs := s0.wgs.map (fun (w : Workgroup) => { w with ops := [o] }),
                         groups := s0.groups.map (fun (g : Group) => { g with mdef := 0x40000000 }) }
      readyB i s = true ∧ (isOf s).w.held = some 0 ∧ (isOf s).strict = true ∧ (isOf s).w.touched 3 = true ∧ (isOf s).w.touched 4 = false := by
  decide +kernel

/-- R356: the second part of a `tld` chunk writes to the tile what the chunk met in memory. -/
theorem test_tld_chunk :
    let s0 : State := withEngine (placed popI)
    let s : State := { s0 with mem := writeLE s0.mem 0x30000 1 7,
                               wgs := s0.wgs.map (fun (w : Workgroup) => { w with xfers := [{ transfer false with seen := some [(0, 7)] }] }) }
    (nextOf (exec (.tileTransferChunk 61) s)).map (fun t => ((t.engine 0).tiles, t.wgs.map (fun w => w.xfers.map (fun x => (x.moved, x.seen.isNone))))) =
      some ([(tileKey 3 0, 7)], [[(1, true)]]) := by decide +kernel

/-- R325: the entry's bytes stand in the tile, and its fill offset has moved on. -/
theorem test_tile_entry :
    (let s0 : State := withEngine (placed popI)
     let s : State := { s0 with groups := s0.groups.map (fun (g : Group) => { g with feeds := [tileEntry] }) }
     (nextOf (exec (.tileEntryRemove 0 0 2) s)).map (fun t => ((t.engine 0).tiles, (t.engine 0).fill))) =
      some ([(tileKey 3 0, 1), (tileKey 3 4, 7)], [(3, 16)]) := by decide +kernel

/-! ## Hypotheses that can be met: events -/

/-- Changes every group of a state, every workgroup, every region. -/
def onGroups (f : Group → Group) (s : State) : State := { s with groups := s.groups.map f }
def onWgs (f : Workgroup → Workgroup) (s : State) : State := { s with wgs := s.wgs.map f }
def onRegions (f : Region → Region) (s : State) : State := { s with regions := s.regions.map f }

/-- A group at a run boundary, at parcel `p` of three `nop` operations. -/
def atBoundary (p : Nat) : State := onGroups (fun g => { g with run := 0 }) (inImage threeNops p (each []))

/-- `RunsAndDemotions`: a choice of a run at an operation and at a header; a count of 64; a demotion before and after its 4,096 cycles; a group
whose lanes have retired, without and with a release to wait for. -/
theorem witness_RunsAndDemotions :
    (∀ x ∈ [(4, false), (2, true)],
      let s := atBoundary x.1
      (s.group? 0 0).any (fun g =>
        let s0 := (s.demoteNow g).issueAs 0 0 false 0
        s0.issue?.any (fun is => is.g.run == 0 && is.g.park.isNone && s.mayDispatch is.w && is.g.eligible != 0 &&
          (is.leastLane s0.mem (lanesOf is.g.eligible)).any (fun L => decide (is.fetch s0 (is.g.lane L) = .header) == x.2))) = true) ∧
    (let s := onGroups (fun g => { g with spinCount := 64 }) (atBoundary 4)
     (s.group? 0 0).any (fun g => (s.wg? g.wg).isSome && g.run == 0 && decide (64 ≤ g.spinCount) && !g.spinOff) = true) ∧
    (∀ n ∈ [4095, 4096],
      let s := { onGroups (fun g => { g with demos := [demotionOf 1 true] }) (atBoundary 4) with now := n }
      (s.group? 0 0).any (fun g => g.demoted != 0 && g.run == 0 && g.demos.all (fun d => d.otherRan && d.began == 0)) = true) ∧
    (let s := onGroups (fun g => { g with lanes := g.lanes.map (fun l => { l with life := .retired }) }) (atBoundary 4)
     (s.group? 0 0).any (fun g => g.allRetired && (s.wg? g.wg).any (fun w => !s.releasesWait g w && (s.region? w.vf w.rcb).isSome &&
       (({ s with groups := [] } : State).wg? w.id).isSome)) = true) ∧
    (let s := calm (onGroups (fun g => { g with holds := [latchHold], acks := 1, lanes := g.lanes.map (fun l => { l with life := .retired }) })
       (atBoundary 4))
     (s.group? 0 0).any (fun g => g.allRetired && (s.wg? g.wg).any (fun w => s.releasesWait g w)) = true) := by decide +kernel

/-- A barrier wait that has counted its region's limit, and a load that has waited its limit for an absent peer. -/
theorem witness_RunsAndDemotions_limits :
    (let i := Instr.barWait { regF .i32 2 0 0 0 0 .rne 0 with a := .imm 0 }
     let s := onRegions (fun r => { r with eff := { r.eff with blimit := 1 } })
       (onGroups (fun g => { g with wait := some { kind := .barrier, cycles := 1024, addr := 0x100000000100, expired := true } })
         (barAt barPa (freshBar 2) (withRegs addr2 (placed i))))
     (s.group? 0 0).any (fun g => g.run != 0 && ((s.issueAs 0 0 false g.run).issue?.any (fun is => is.overdue.isSome)))
       = true) ∧
    (let f := { regF .n32 4 2 0 0 0 .rne 0 with b := .imm 0 }
     let s := onRegions (fun r => { r with eff := { r.eff with blimit := 1 } })
       (onGroups (fun g => { g with wait := some { kind := .peer, cycles := 1024, addr := 0, expired := false } }) (withRegs addr2 (placed (.ld f))))
     (s.group? 0 0).any (fun g => g.run != 0 && g.park.isNone && ((s.issueAs 0 0 false g.run).issue?.any (fun is => is.peerLimit &&
       decide (is.fetch s (g.lane (lowest g.run)) = .op (.ld f))))) = true) := by decide +kernel

/-- `RunsAndDemotions`: of the operations that can name a peer, a store that has waited its limit; and a `nop`, which cannot. -/
theorem witness_RunsAndDemotions_peers :
    ∀ i ∈ [Instr.st (regF .n32 2 0 5 0 0 .rne 0), .redAdd (regF .n32 2 0 5 0 0 .rne 0), .acqX (regF .i32 2 0 0 0 0 .rne 0), .rel (regF .i32 2 0 0 0 0 .rne 0),
        .nop (regF .i32 0 0 0 0 0 .rne 0)],
      let s := onRegions (fun r => { r with eff := { r.eff with blimit := 1 } })
        (onGroups (fun g => { g with wait := some { plainWait .peer with cycles := 1024 } }) (withRegs addr2 (placed i)))
      (s.group? 0 0).any (fun g => g.run != 0 && g.park.isNone && ((s.issueAs 0 0 false g.run).issue?.any (fun is => is.peerLimit &&
        decide (is.fetch s (g.lane (lowest g.run)) = .op i)))) = true := by decide +kernel

theorem witness_MayNamePeer : MayNamePeer (.st (regF .n32 2 0 5 0 0 .rne 0)) ∧ ¬ MayNamePeer (.nop (regF .i32 0 0 0 0 0 .rne 0)) := by
  simp [MayNamePeer]

/-- `RunsAndDemotions`: a group without live lanes whose killed lanes still owe their arrival, for a `tst` of the group runs; and one that can pay. -/
theorem witness_RunsAndDemotions_owed :
    ∀ b ∈ [true, false],
      let s0 := onGroups (fun g => { g with owed := 3, lanes := g.lanes.map (fun l => { l with life := .retired }) }) (atBoundary 4)
      let s := if b then onWgs (fun w => { w with bars := [{ pa := barPa, off := 0x100, members := [(0, 3)] }], xfers := [transfer true] }) s0 else s0
      ((s.payAt 0 0).group? 0 0).any (fun g => g.allRetired && (g.owed != 0) == b) = true := by decide +kernel

/-- A copy in flight of 120 bytes, a posted store, a feed not complete. -/
def flying : Copy :=
  { id := 70, core := 0, slot := 0, start := 1, dest := 0x30000, src := 0x30100, bytes := 120, tag := 2, linked := none, mode := 0, row := 0,
    next := 0, done := 0, read := [], acquire := false, pos := 0, func := 0, fault := none, delivered := [], notag := false, absent := none }
def onItsWay (counted : Bool) : Posted :=
  { id := 71, core := 0, slot := 0, start := 1, vf := 0, ctx := 0, rcb := placeRcb, pos := 0, func := 0, mask := 1,
    counted := counted, notes := [], performed := false, eff := .store 0x30000 [5] }
def openFeed : QEntry := { fullEntry with complete := false, bytes := [] }

/-- `FencesAndSignals`: a release that waits for a `tst` of its group, and one at package scope that waits for an acknowledgement. -/
theorem witness_FencesAndSignals_waits :
    (let f := regF .i32 0 0 0 0 3 .rne 0
     let s := onWgs (fun w => { w with xfers := [transfer true] }) (standIn 1 (.fence f) (each []))
     readyB (.fence f) s = true ∧ (isOf s).w.storing (fun k => k == (isOf s).g.start) = true ∧ scopeRank (quals (isOf s).g f true true [.generic]).scope < 4) ∧
    (let f := scopeF .system (regF .i32 0 0 0 0 3 .rne 0)
     let s := calm (onGroups (fun g => { g with acks := 1 }) (standIn 1 (.fence f) (each [])))
     readyB (.fence f) s = true ∧ s.recovery = false ∧ (isOf s).g.acks ≠ 0) := by decide +kernel

/-- A group whose wait of kind `k` has passed its limit. -/
def late (k : WaitKind) (s : State) : State := onGroups (fun g => { g with wait := some { plainWait k with cycles := 1025, expired := true } }) s

/-- `WorkgroupBarriers` and `DieBarriers`: a wait that passed its limit, and one that did not. -/
theorem witness_Barriers_expired :
    (let f := { regF .i32 2 0 0 0 0 .rne 0 with a := .imm 31 }
     let s := late .barrier (barAt barPa (freshBar 32) (standIn 1 (.barWait f) addr2))
     let is := isOf s
     readyB (.barWait f) s = true ∧ is.expired .barrier = true ∧ is.expired .dieBarrier = false ∧ (is.w.bar? barPa).isSome = true ∧
       is.barBad s false (is.destAddr f is.l0) = false ∧
       (reachOf s is [] [is.barReq false 0 is.l0 (is.destAddr f is.l0)] false .workgroup).isSome = true) ∧
    (let f := { regF .i32 2 0 0 0 0 .rne 0 with a := .imm 31 }
     let s := late .dieBarrier (dieBarAt (freshBar 2) (withDie (standIn 1 (.dbarWait f) dieAddr)))
     let is := isOf s
     readyB (.dbarWait f) s = true ∧ is.expired .dieBarrier = true ∧ is.expired .barrier = false ∧
       is.barBad s true (is.destAddr f is.l0) = false ∧
       (reachOf s is [] [is.barReq true 0 is.l0 (is.destAddr f is.l0)] false .die).isSome = true) := by decide +kernel

/-- The placed workgroup is releasing engine 1 too, or has engine 2 set aside; another workgroup has taken engine 0, or has it set aside. -/
def enginesOf (w : Workgroup → Workgroup) (es : List Engine) (s : State) : State := { s with wgs := s.wgs.map w, engines := es }

/-- What `mres` finds: an engine that it is still releasing beside another, engines that it is releasing but does not ask for, none free, one set
aside for it, a free one with room in its region's budget, and one without. -/
theorem witness_EngineAndReservations_grants :
    (let s := enginesOf (fun w => { w with engine := some 0, releasing := true, leaving := [1] }) [heldEngine] (standIn 1 (mresI 2) (each []))
     readyB (mresI 2) s = true ∧ (isOf s).w.released.find? (fun n => (2 : Nat).testBit (n % 4)) = some 1) ∧
    (let s := enginesOf (fun w => { w with engine := some 0, releasing := true }) [heldEngine] (standIn 1 (mresI 2) (each []))
     readyB (mresI 2) s = true ∧ (∀ n ∈ (isOf s).w.released, (2 : Nat).testBit (n % 4) = false) ∧
       (s.grantEngine (isOf s).w (isOf s).r 2).2 = true) ∧
    (let s := enginesOf id [{ Engine.zero 0 with holder := some 9 }, { Engine.zero 1 with aside := some 9 }] (standIn 1 (mresI 3) (each []))
     readyB (mresI 3) s = true ∧ (∀ n ∈ clusterEngines (isOf s).w.core, ¬ ((3 : Nat).testBit (n % 4) ∧ (s.engine n).holder = none ∧
       ((s.engine n).aside = some (isOf s).w.id ∨ (s.engine n).aside = none)))) ∧
    (let s := enginesOf id [{ Engine.zero 2 with aside := some 0 }] (standIn 1 (mresI 15) (each []))
     readyB (mresI 15) s = true ∧ (s.engine 2).aside = some (isOf s).w.id ∧ (s.grantEngine (isOf s).w (isOf s).r 4).2 = true) ∧
    (let s := onRegions (fun r => { r with eff := { r.eff with engines := 0 } }) (standIn 1 (mresI 1) (each []))
     readyB (mresI 1) s = true ∧ (s.engine 0).holder = none ∧ (s.grantEngine (isOf s).w (isOf s).r 1).2 = false) := by decide +kernel

/-- R349: of the free engines of its cluster a workgroup is given the lowest that its mask names, also while it releases another one. -/
theorem test_mres_lowest :
    (let s := enginesOf (fun w => { w with engine := some 0, releasing := true }) [heldEngine] (standIn 1 (mresI 12) (each []))
     (nextOf (exec (mresI 12) s)).map (fun t => t.wgs.map (fun w => (w.engine, w.releasing, w.leaving)))) = some [(some 2, false, [0])] := by
  decide +kernel

/-- `EngineAndReservations`: a reservation in an engine that its workgroup is still releasing. -/
theorem witness_EngineAndReservations_leaving :
    (let i := Instr.obrel (regF .i32 0 0 0 0 0 .rne 5)
     let s := enginesOf (fun w => { w with engine := some 1, leaving := [0] }) [{ heldEngine with resvs := [smallResv] }, { Engine.zero 1 with holder := some 0 }]
       (standIn 1 i (each []))
     readyB i s = true ∧ s.resvEngine (isOf s).w 5 = some 0 ∧ s.resvEngine (isOf s).w 6 = none ∧ (isOf s).w.readsResv 5 = false) := by
  decide +kernel

/-- `MatrixEvents`: no older copy of the group, nor an older transfer of the buffer, comes first; and a chunk whose address does not translate. -/
theorem witness_MatrixEvents_turns :
    (let s0 : State := withEngine (placed popI)
     let s : State := { s0 with wgs := s0.wgs.map (fun (w : Workgroup) => { w with xfers := [transfer true, { transfer true with id := 62, buf := 4 }] }) }
     (s.xferOwner 62).any (fun p => !p.1.acquiring p.2.start p.2.id &&
       p.1.xfers.all (fun y => y.failed || y.loose || decide (62 ≤ y.id) || y.engine != p.2.engine || y.buf != p.2.buf)) = true) ∧
    (let s0 : State := withEngine (placed popI)
     let s : State := { s0 with wgs := s0.wgs.map (fun (w : Workgroup) => { w with xfers := [{ transfer false with addr := 0x10000000000 }] }) }
     (s.xferOwner 61).any (fun p =>
        ((xferChunks (TDesc.of p.2.desc) p.2.addr p.2.stride)[0]?).any (fun c =>
          (match s.xferTurn p.1 p.2 (piecesOf p.2.addr (c.1 : Int) c.2.2 0 p.2.store) with
           | .fail .. => true
           | _ => false))) = true) ∧
    (let s : State := { placed popI with stoppedVfs := [0] }
     (match s.chunkTurn (flying.owner (placedWg 0) 0) 0 none false false (flying.pieces 0) with | .stay _ => true | _ => false) = true) := by
  decide +kernel

/-- `ArrivalsAndGrants`. -/
theorem witness_ArrivalsAndGrants :
    (∀ c ∈ [true, false], ({ State.reset with posted := [onItsWay c] } : State).posted.find? (fun p => p.id == 71) = some (onItsWay c)) ∧
    (let s := onWgs (fun w => { w with copies := [flying] }) (placed popI)
     (s.copyOwner 70).any (fun p => p.2.open? 0 && goes (s.chunkTurn (p.2.owner p.1 1) (s.blimitOf p.1) p.2.absent false p.2.notag (p.2.pieces 0)) &&
       decide ((p.2.land 0).next = 1) && p.2.chunks == 2) = true) ∧
    (let s := onGroups (fun g => { g with feeds := [openFeed] }) (placed popI)
     (s.group? 0 0).any (fun g => (g.feeds.find? (fun e => e.id == 50)) == some openFeed && !g.feedHeld 50 &&
       (s.wg? g.wg).any (fun w => (s.feedPieces w openFeed).any (fun ps =>
         goes (s.chunkTurn (feedOwner g w openFeed) 0 none false openFeed.notag ps)))) = true) := by decide +kernel

/-- `RetirementKeepsRegisters`: what is posted has been performed. -/
theorem witness_RetirementKeepsRegisters :
    ∀ p ∈ ({ placed popI with posted := [{ onItsWay true with performed := true }] } : State).posted, p.performed = true := by decide +kernel

/-- A page move under way of the first GiB: every access to it waits. -/
def firstGibMoves : PageMove := { id := 80, vf := 0, ctx := 0, gpa := 0, bits := 30, leaf := 0x2000, src := 0, dst := Config.cxlBase, up := false }
def inTransit (s : State) : State := { s with moves := [firstGibMoves], mem := writeLE s.mem 0x2000 8 0x8D }

/-- `RunsAndDemotions`: the slot selects the group, whose code is there, and is not while it moves. -/
theorem witness_RunsAndDemotions_code :
    (∀ p ∈ [2, 4],
      let s := atBoundary p
      (s.group? 0 0).any (fun g =>
        let s1 := (s.demoteNow g).issueAs 0 0 false 0
        (s.demoteNow g).selects g && s1.issue?.any (fun is => (s1.codePages is.w is.r 0 p).all (fun k => !s1.busyPage 0 0 (k * 65536)) &&
          (s1.codePages is.w is.r 0 p).any (fun k => (inTransit s1).busyPage 0 0 (k * 65536)) && !(inTransit s).ready g)) = true) := by decide +kernel

/-- The group of slot 0 and a second one on its issue slot, in slot 4, that has dispatched before it, or has yielded. -/
def twoOnSlot (f : Group → Group) : State :=
  let s := onGroups (fun g => { g with lastDispatch := 9 }) (atBoundary 4)
  { s with groups := s.groups ++ s.groups.map (fun g => f { g with slot := 4, lastDispatch := 7 }) }

/-- `RunsAndDemotions`: of two ready groups on an issue slot the one of the older dispatch is selected, and not one that has yielded (R70, R170). -/
theorem witness_RunsAndDemotions_order :
    (let s := twoOnSlot id
     (s.group? 0 4).any (fun g => s.selects g && s.ready g) = true ∧ (s.group? 0 0).any (fun g => !s.selects g && s.ready g) = true) ∧
    (let s := twoOnSlot (fun g => { g with yielded := true })
     (s.group? 0 0).any (fun g => s.selects g) = true ∧ (s.group? 0 4).any (fun g => !s.selects g && s.ready g) = true) := by decide +kernel

/-- A demotion of the lanes `m` at its end, where other lanes have run or not. -/
def demotedState (m : Mask) (ran : Bool) : State :=
  { onGroups (fun g => { g with demos := [demotionOf m ran] }) (atBoundary 4) with now := 4096 }

/-- `RunsAndDemotions`: a demotion past its cycles, where other lanes have run, have still to run, and do not exist. -/
theorem witness_RunsAndDemotions_others :
    ((demotedState 1 true).group? 0 0).any (fun g => g.demos.any (fun d => decide (d.began + 4096 ≤ (demotedState 1 true).now) && d.otherRan)) = true ∧
    ((demotedState 1 false).group? 0 0).any (fun g => g.demos.any (fun d => !d.otherRan) && g.run == 0 && g.eligible != 0) = true ∧
    ((demotedState 0xFFFFFFFF false).group? 0 0).any (fun g => g.demos.any (fun d => !d.otherRan && !d.otherEligible) && g.eligible == 0) = true := by
  decide +kernel

/-- What a copy keeps of its chunk 0 once it has read it: 64 bytes of its source, and of its destination. -/
def readState : State :=
  match nextOf (exec (.chunkLand 70 0) (onWgs (fun w => { w with copies := [flying] })
      { placed popI with mem := writeLE (writeLE (placed popI).mem 0x30100 4 0x0A0B0C0D) 0x30000 4 0x01020304 })) with
  | some t => t
  | none => placed popI

/-- `ArrivalsAndGrants`: a chunk to read, a chunk that has been read, one whose source fails, and one that waits for a page. -/
theorem witness_ArrivalsAndGrants_phases :
    (let s := onWgs (fun w => { w with copies := [flying] }) (placed popI)
     (s.copyOwner 70).any (fun p =>
       let c := p.2.serviced s
       c.open? 0 && !p.1.acquiring c.start c.id && (c.read.find? (fun x => x.1 == 0)).isNone &&
         goes (s.chunkTurnOn (c.owner p.1 0) (s.blimitOf p.1) c.absent false c.notag (c.pieces 0) (fun (x : Piece) => !x.write)) &&
         (match (inTransit s).chunkTurnOn (c.owner p.1 0) 0 c.absent false c.notag (c.pieces 0) (fun (x : Piece) => !x.write) with
          | .stay _ => true
          | _ => false)) = true) ∧
    ((readState.copyOwner 70).any (fun p =>
       let c := p.2.serviced readState
       c.open? 0 && (c.read.find? (fun x => x.1 == 0)).isSome && decide ((c.land 0).next ≠ c.chunks) &&
         goes (readState.chunkTurn (c.owner p.1 1) (readState.blimitOf p.1) c.absent false c.notag ((c.pieces 0).filter (fun x => x.write)))) = true) ∧
    (let s := onWgs (fun w => { w with copies := [{ flying with src := 0x10000000000 }] }) (placed popI)
     (s.copyOwner 70).any (fun p =>
       (match s.chunkTurnOn (p.2.owner p.1 0) 0 none false false (p.2.pieces 0) (fun (x : Piece) => !x.write) with
        | .fail .. => true
        | _ => false)) = true) := by decide +kernel

/-- R308: a chunk whose source and destination have not changed since it was read lands with what was read. -/
theorem test_chunk_lands :
    (nextOf (exec (.chunkLand 70 0) readState)).map (fun t => readLE t.mem 0x30000 4) = some 0x0A0B0C0D ∧
    (∀ m : Sparse 8, ∀ i, flying.landed 0 m m [] false 0 i = m.look i) := by
  refine ⟨by decide +kernel, fun m i => ?_⟩
  simp [Copy.landed]

/-- R241: the last of the two chunks, once it has been read, ends the copy and sets its tag. -/
theorem test_copy_ends :
    (let s := onWgs (fun w => { w with copies := [{ flying with next := 1, read := [(1, [])] }], tags := 0xFB }) (placed popI)
     (nextOf (exec (.chunkLand 70 1) s)).map (fun t => t.wgs.map (fun w => (w.copies.length, w.tags)))) = some [(0, 0xFF)] := by decide +kernel

/-- The placed region before its first workgroup, in state `st`, with its RCB's table mapped; a root whose list is empty. -/
def waitingRegion (st : Nat) : Region := { placedRegion with st := st, latch := .granted, parent := 0x21000, placed := 0, begun := [], deficit := 0 }
def rootOf : Region := { placedRegion with rcb := 0x21000, isRoot := true, eff := { placedEff with cores := 4, engines := 4 } }
def alone (st : Nat) : State :=
  let s := (placed popI).setVfReg 0 0x008 0x21000
  { s with groups := [], wgs := [], regions := [waitingRegion st, rootOf] }

/-- `RegionArbitration`: a root to walk; a READY region and a running one that come first; the end of a quantum; a region that has waited 16. -/
theorem witness_RegionArbitration :
    ((alone 4).vfEnabled 0 = true ∧ ((alone 4).walkParent 0 0x21000).any (fun p => ((alone 4).devRead 0 p.ctx (p.va + 0x88) 4).isSome &&
      ((alone 4).devRead 0 p.ctx (p.va + 0x78) 8).isSome) = true) ∧
    (((alone 4).rejudge 0 placeRcb).region? 0 placeRcb).any (fun r => ((alone 4).rejudge 0 placeRcb).nextPlace r != none && r.st == 4 &&
      ((alone 4).rejudge 0 placeRcb).placing r && ((alone 4).rejudge 0 placeRcb).isFirst r) = true ∧
    ((alone 5).region? 0 placeRcb).any (fun r => ((alone 5).nextPlace r) != none && (alone 5).placing r && (alone 5).isFirst r) = true ∧
    (∀ d ∈ [(1 : Int), 0],
      let s := onRegions (fun r => { r with quantumCycles := 1024, deficit := d }) (placed popI)
      (s.region? 0 placeRcb).any (fun r => !r.isRoot && r.st == 5 && s.regionCores r != [] && s.quantumRuns r &&
        decide (r.eff.quantum * 1024 ≤ r.quantumCycles)) = true) ∧
    (let s := onRegions (fun r => { r with quantumCycles := 16 * 1024 }) (alone 4)
     (s.region? 0 placeRcb).any (fun r => r.st == 4 && decide (16 * (r.eff.quantum * 1024) ≤ r.quantumCycles)) = true) := by decide +kernel

/-- The region of `alone` whose turn it is: judged READY, or running already, with a place for its first workgroup. -/
theorem witness_RegionArbitration_place :
    (let t := ((alone 4).rejudge 0 placeRcb).writePrios 0
     (t.region? 0 placeRcb).any (fun r => (t.nextPlace r).isSome && r.st == 4 && t.placing r && t.isFirst r) = true) ∧
    (let t := (alone 5).writePrios 0
     (t.region? 0 placeRcb).any (fun r => (t.nextPlace r).isSome && r.st == 5 && t.placing r && t.isFirst r) = true) := by decide +kernel

/-- A second region that asks for all the engines of the cluster, of which the placed workgroup holds one. -/
def rival : Region := { waitingRegion 4 with rcb := 0x22000, eff := { placedEff with wgeng := 4, engines := 4 }, ring := 5 }

/-- `RegionArbitration`: the end of a quantum with work left, with nothing else to run, and with a region that waits for the core. -/
theorem witness_RegionArbitration_quantum :
    (∀ x ∈ [((1 : Int), false, false), (0, false, false), (0, true, true)],
      let s0 := onRegions (fun r => { r with quantumCycles := 1024, deficit := x.1, parent := 0x21000 }) (withEngine (placed popI))
      let s := ({ s0 with regions := s0.regions ++ [{ rootOf with eff := { placedEff with cores := 4, engines := 8 } }] ++
        (if x.2.1 then [rival] else []) } : State).writePrios 0
      (s.region? 0 placeRcb).any (fun r => !r.isRoot && r.st == 5 && s.regionCores r != [] && s.quantumRuns r &&
        decide (r.eff.quantum * 1024 ≤ r.quantumCycles) &&
        ((s.regions.any (fun q => q.open_ && !(q.vf == 0 && q.rcb == placeRcb) && s.partOf q.vf == s.partOf 0 &&
          decide (s.eprio r ≤ s.eprio q) && s.waitsFor q (s.regionCores r)) && (s.regionCores r).all s.shadowFree) == x.2.2)) = true) := by
  decide +kernel

/-- The placed workgroup saved in shadow slot 0 of its core. -/
def savedState : State :=
  let s := placed popI
  { s with groups := [], wgs := s.wgs.map (fun w => { w with saved := true }),
           slots := [{ core := 0, slot := 0, vf := 0, ctx := 0, savedAt := 0, spilled := false,
                       wgs := [{ wg := { placedWg 0 with saved := true }, groups := s.groups, alloc := [], allocTags := [], allocPoison := [],
                                 engine := none, leaving := [] }] }] }

/-- Memory that holds only tables, with the second GiB of the guest's device memory in the frame `frame` of tier `tier`. -/
def secondGib (tier frame : Nat) (s : State) : State :=
  { (s.setReg (partBase 0 + 0x30) 16) with mem := writeLE (oneTables []) 0x2008 8 (frame + tier * 64 + 0xD) }

/-- A workgroup whose pre-emption is under way; both shadow slots of its core held; a page in the capacity tier. -/
def stoppingState : State := onWgs (fun w => { w with stopping := true }) (placed popI)
def crowded : State :=
  { stoppingState with
    slots := (List.range 2).map (fun k => { core := 0, slot := k, vf := 1, ctx := 0, savedAt := 0, spilled := false, wgs := [] }) }
def promotable : State := (secondGib 1 Config.cxlBase (placed popI)).setCxReg 0 0 0x118 512


theorem witness_SavesRestoresAndMoves_preempt :
    ((stoppingState.wg? 0).any (fun w => (stoppingState.region? w.vf w.rcb).isSome && !w.saved && !w.ended && w.stopping &&
      stoppingState.settledForSave w && (stoppingState.slotFor w) == some 0)) = true ∧ crowded.slotFor (placedWg 0) = none := by decide +kernel

theorem witness_SavesRestoresAndMoves_restore :
    ((savedState.wg? 0).any (fun w => (savedState.savedOf 0).any (fun x => (savedState.region? w.vf w.rcb).any (fun r =>
      savedState.placing r && savedState.isFirst r && savedState.restorable r w x)))) = true := by decide +kernel

/-- Context 1 of the VF, with a set that holds the page at address 0. -/
def otherSet (s : State) : State :=
  { ((s.setCxReg 0 1 0x108 0x3800).setCxReg 0 1 0x110 0x60000) with
    mem := [(0x3800, 0x4009), (0x4000, 0x5009), (0x5000, 0x0D), (0x60000, 1)].foldl (fun m x => writeLE m x.1 8 x.2) s.mem }

/-- The first GiB in the fast tier, in that set, with a frame in the CXL range; it has been outgoing since the change to the current context. -/
def movableSet : State :=
  otherSet { placed popI with tierPages := [{ vf := 0, gpa := 0, bits := 30, cxl := Config.cxlBase, holder := some 1 }], downs := [(0, 1, 0)] }

/-- `SavesRestoresAndMoves`: a page to write down, and one that the tier engine does not promote, for no context names it in a set. -/
theorem witness_SavesRestoresAndMoves_moves :
    (movableSet.hasCxl = true ∧ movableSet.partOf 0 = some 0 ∧ (movableSet.s2Leaf 0 0).any (fun l => l.tier == 0 && !movableSet.moving l.pa &&
      movableSet.downFor 0 0 l == some 1 && movableSet.cxlFor 0 0 l == some Config.cxlBase) = true) ∧
    (promotable.hasCxl = true ∧ (promotable.s2Leaf 0 (16384 * 65536)).any (fun l => !promotable.moving l.pa && l.tier == 1) = true ∧
      promotable.setUp 0 = none ∧ promotable.gateUp 0 = none) := by decide +kernel

/-- The placed region has only descendants left, and one of them needs its core. -/
def neededState : State :=
  let s := onRegions (fun r => { r with st := 6, eff := { r.eff with cores := 4, engines := 8 } }) (withEngine (placed popI))
  { s with regions := s.regions ++ [{ rival with parent := placeRcb }] }

/-- `SavesRestoresAndMoves`: a workgroup that a descendant of its region needs gone. -/
theorem witness_SavesRestoresAndMoves_needed :
    ((neededState.wg? 0).any (fun w => (neededState.region? w.vf w.rcb).any (fun r => !w.stopping && neededState.evictable r w &&
      ((neededState.evictFrom w.core).wg? 0).any (fun x => x.stopping)))) = true := by decide +kernel

/-- Stage-one tables of their own, which map two GiB to themselves; the set at 0x60000 of 1,024 pages, of which the first is at 1 GiB. -/
def withSet (s : State) : State :=
  { (s.setCxReg 0 0 0x108 0x3800).setCxReg 0 0 0x110 0x60000 with
    mem := [(0x3800, 0x4009), (0x4000, 0x5009), (0x5000, 0x0D), (0x5008, 0x4000000D), (0x60000, 1024), (0x60010, 0x40000000)].foldl
      (fun m x => writeLE m x.1 8 x.2) s.mem }

/-- The second GiB of the guest in the capacity tier, at its own address there; the first is held by no context. -/
def promotableSet : State :=
  { withSet ((secondGib 1 Config.cxlBase (placed popI)).setCxReg 0 0 0x118 1024) with
    tierPages := [{ vf := 0, gpa := 0, bits := 30, cxl := Config.cxlBase + 2 ^ 30, holder := none }] }

/-- `SavesRestoresAndMoves`: the page that comes next in the current context's set. -/
theorem witness_SavesRestoresAndMoves_set :
    promotableSet.hasCxl = true ∧ promotableSet.partOf 0 = some 0 ∧
    ((promotableSet.s2Leaf 0 (16384 * 65536)).any (fun l => !promotableSet.moving l.pa && (promotableSet.setUp 0).any (fun y => y.pa == l.pa))) = true := by decide +kernel

/-- The module after the last stage of start-up, with the registers of partition 1 as R403 asks. -/
def booted : State :=
  [(0x008, 2), (0x010, 3), (0x020, 3), (0x03C, 1)].foldl (fun s x => s.setReg (partBase 1 + x.1) x.2) (State.reset.setReg 0x000 7)

/-- The placed group parked; its VF stopped; a switch of its VF under way; a second context that can come in. -/
def parkedState : State := onGroups (fun g => { g with park := some .fault, run := 0 }) (placed popI)
def stoppedState : State := { placed popI with stoppedVfs := [0] }
def twoContexts : State := ((placed popI).setVfReg 0 0x054 2).setCxReg 0 1 0x100 1
def switching : State := { twoContexts with switches := [{ vf := 0, out := 0, inc := 1, step := 1 }] }

/-- `PartitionsAndVfs`. -/
theorem witness_PartitionsAndVfs :
    (booted.partEnabled 1 = false ∧ 7 ≤ booted.modField 0x000 3 0 ∧ booted.partReason 1 = 0 ∧ booted.partReason 2 ≠ 0 ∧ booted.partEnabled 2 = false) ∧
    (placed popI).partEnabled 0 = true ∧
    ((placed popI).stoppedVfs.contains 0 = false ∧
      (let s := placed popI
       let s1 := ((s.setBit (vfBase 0) 2 true).stopWgs (fun w => w.vf == 0)).haltWgs (fun w => w.vf == 0)
       (s1.runningWgs (fun w => w.vf == 0)).all s1.settledForSave) = true) ∧
    (stoppedState.stoppedVfs.contains 0 = true ∧
      ({ stoppedState with switches := switching.switches } : State).switches.find? (fun x => x.vf == 0) = some { vf := 0, out := 0, inc := 1, step := 1 }) ∧
    (twoContexts.switches.find? (fun x => x.vf == 0) = none ∧ twoContexts.vfStopped 0 = false ∧ twoContexts.switchOk 0 1 = true ∧
      switching.vfStopped 0 = false) ∧
    ((parkedState.groupOf 0 0 0).any (fun x => x.2.park.isSome) = true ∧ ((placed popI).groupOf 0 0 0).any (fun x => x.2.park.isNone) = true ∧
      (parkedState.groupOf 0 0 9).isNone = true) := by decide +kernel

/-- R403: the states 1 and 3 of p.stat, and the reason 0x01 of a partition without clusters. -/
theorem test_partition_enable :
    (nextOf (exec (.partitionEnable 1) booted)).map (fun t => t.partReg 1 0x004) = some 1 ∧
    (nextOf (exec (.partitionEnable 2) booted)).map (fun t => t.partReg 2 0x004) = some 0x01000003 := by decide +kernel

/-- `ModuleEvents`: the only context of the VF, and one that vf.nctx does not reach. -/
theorem witness_ModuleEvents_contexts :
    (((placed popI).vfReg 0 0x050).toNat % 65536 = 0 ∧ (((placed popI).setVfReg 0 0x050 1).vfReg 0 0x050).toNat % 65536 = 1) ∧
      ((placed popI).setVfReg 0 0x050 1).vfReg 0 0x054 = 1 := by decide +kernel

/-- `ModuleEvents`: an invalidation to start, one in effect, a die that can go offline, one that cannot, and each state of a die. -/
theorem witness_ModuleEvents :
    ((placed popI).invals = [] ∧ ({ placed popI with invals := [{ vf := 0, ctx := 0, kind := 1, page := 0 }] } : State).invals.any
      (fun x => x.vf == 0 && x.ctx == ((placed popI).vfReg 0 0x050).toNat % 65536) = true) ∧
    (State.reset.offlineResult 0 = 0 ∧ State.reset.offlineResult 4 = 4) ∧
    ((State.reset.setDieState 1 1).dieState 1 = 1 ∧ (State.reset.setDieState 1 1).pagesOnDie 1 = [] ∧ (State.reset.setDieState 3 2).dieState 3 = 2 ∧
      (State.reset.setDieState 0 3).dieState 0 = 3 ∧ (State.reset.setDieState 0 4).dieState 0 = 4) ∧
    (2999 < State.reset.modField 0x00C 27 16) ∧
    (State.reset.modField 0x000 31 16 = 0 ∧ State.reset.modField 0x000 3 0 + 1 = 1 ∧ booted.modField 0x000 3 0 + 1 = 8 ∧
      booted.modField 0x000 31 16 = 0) := by decide +kernel

/-- `LinksAndAttestation`: the states of a link. -/
theorem witness_LinksAndAttestation :
    (State.reset.link 0).has false = false ∧
    (let l := { Link.zero 6 with key0 := true }
     let s := State.reset.putLink l
     (s.link 6).has (s.link 6).cur = true ∧ (s.link 6).retirePending = false) ∧
    (let s := State.reset.putLink { Link.zero 6 with key0 := true, key1 := true, retirePending := true }
     (s.link 6).retirePending = true ∧ (s.link 6).retireSent = false ∧ (s.link 6).replay.contains true = false) ∧
    (let s := State.reset.putLink { Link.zero 6 with key0 := true, key1 := true, retirePending := true, replay := [true] }
     (s.link 6).replay.contains (!(s.link 6).cur) = true) := by decide +kernel

/-- R424: the PF's mailbox reports all 16 measurements, VF 0 of partition 0 the first eight and its own. -/
theorem test_measurements :
    (nextOf (exec (.getMeasurements none) (placed popI))).map (fun t => t.spdm.map (fun r => r.measurements.length)) = some [16] ∧
    (nextOf (exec (.getMeasurements (some 0)) (placed popI))).map (fun t => t.spdm.map (fun r => r.measurements.length)) = some [9] := by
  decide +kernel

/-- Observation areas of VF 0 that pass their checks. -/
def watched : State :=
  [(0x068, 0x100000), (0x070, 4), (0x080, 0x200000), (0x088, 6), (0x0A8, 0x300000), (0x0B0, 10)].foldl (fun s x => s.setVfReg 0 x.1 x.2) (placed popI)

/-- Its sampler runs with an interval of 1,024 cycles; its recorder runs. -/
def sampling : State := { (watched.setDbg 0 3 true).setVfReg 0 0x094 1 with now := 1024 }
def recording : State := watched.setDbg 0 1 true

/-- `Observation`. -/
theorem witness_Observation :
    (∀ x ∈ [(0, debugArea), (1, replayArea), (3, samplerArea), (4, samplerArea)],
      watched.dbgBit 0 x.1 = false ∧ (watched.setDbg 0 x.1 true).areaOk 0 x.2 = true ∧ ((placed popI).setDbg 0 x.1 true).areaOk 0 x.2 = false) ∧
    (sampling.dbgBit 0 3 = true ∧ bitsOf (sampling.vfReg 0 0x094).toNat 15 0 * 1024 = 1024 ∧ (sampling.sampled.look 0).toNat + 1024 ≤ sampling.now) ∧
    (((placed popI).groupOf 0 0 0).isSome = true ∧ ((placed popI).groupOf 0 0 1).isNone = true) ∧
    ((pageParts 0x3FFFF 2).length = 2 ∧
      (pageParts 0x3FFFF 2).all (fun x => (placed popI).placeDevice 0 ((placed popI).curCtx 0) x.1 true != .transit) = true) := by decide +kernel

/-- Observation of VF 0 records, and its replay log of 64 entries is full; a store to the slice of core 0 is on its way. -/
def logFullState : State :=
  let s := ((recording).setVfReg 0 0x0B0 6).setVfReg 0 0x0B4 64
  { s with posted := [{ onItsWay true with eff := .store (slicePa 0 0x100) [5] }] }

/-- `ArrivalsAndGrants`: a posted write that is performed, and one that the recorder holds back. -/
theorem witness_ArrivalsAndGrants_posted :
    (let s : State := { placed popI with posted := [onItsWay true] }
     (s.performRun (Posted.before (onItsWay true).eff.ranges [] ++ [onItsWay true])).posted.any (fun q => q.id == 71 && q.performed) = true) ∧
    (∀ p ∈ logFullState.posted, (logFullState.performRun (Posted.before p.eff.ranges [] ++ [p])).posted.all (fun q => q.id != 71 || !q.performed) = true) := by
  decide +kernel

/-- The placed group waits for a free latch. The replay log holds its grant, at which replay mode stands with the stop index `stop`. -/
def replayedGrant (stop : Nat) : State :=
  let s0 := onGroups (fun g => { g with wait := some { plainWait .latch with addr := 0x30000, mask := 1 } }) recording
  let s := { s0 with latchQs := [{ pa := 0x30000, waiters := [.group 0 0 true] }] }
  let t := ((s.waiters 0x30000).head?.bind s.grantEntry).elim s (fun x => s.logReplay 0 x.2)
  ((t.setDbg 0 1 false).setDbg 0 2 true).setVfReg 0 0x0BC (BitVec.ofNat 64 stop)

/-- `ArrivalsAndGrants`: replay mode stops before the grant, and lets it take its turn. -/
theorem witness_ArrivalsAndGrants_stop :
    ((((replayedGrant 0).grantAll 0x30000).rejudgeAll).grantStop 0x30000).isSome = true ∧
    ((((replayedGrant 5).grantAll 0x30000).rejudgeAll).grantStop 0x30000).isNone = true ∧
    ((replayedGrant 5).grantAll 0x30000).waiters 0x30000 = [] := by decide +kernel

/-- `ModuleEvents`: stages 2 and 3 of start-up with what fails fenced, where every partition can still be formed, and where none can; and a stop. -/
theorem witness_ModuleEvents_boot :
    ((State.reset.setReg 0x000 1).modField 0x000 3 0 + 1 = 2 ∧ ((State.reset.setReg 0x000 1).bootStage 2 0).canForm = true ∧
      ((State.reset.setReg 0x000 1).bootStage 2 0xFFF).canForm = false) ∧
    ((State.reset.setReg 0x000 2).modField 0x000 3 0 + 1 = 3 ∧ ((State.reset.setReg 0x000 2).bootStage 3 0).canForm = true) ∧
    (State.reset.setReg 0x000 0x20002).modField 0x000 31 16 ≠ 0 := by decide +kernel

/-- `LinksAndAttestation`: the links of an OZ-9620, which has no link of CXL port 3; and a request of a VF. -/
theorem witness_LinksAndAttestation_present :
    linkPresent State.reset.part 6 = true ∧ linkPresent .oz9620 0 = true ∧ linkPresent .oz9620 6 = false ∧
      (State.resetOf .oz9620).part = .oz9620 := by decide +kernel

/-- `Observation`: a checkpoint's workgroups have nothing left to retire once they halt. -/
theorem witness_Observation_checkpoint :
    recording.checkpointDue 0 = true ∧
      (let mine := fun (w : Workgroup) => w.vf == 0 && w.ctx == recording.curCtx 0
       let s1 := recording.haltAll mine
       (s1.runningWgs mine).all s1.settledForSave = true ∧ (s1.runningWgs mine).length = 1) := by decide +kernel

/-- `RetirementKeepsRegisters` and the frame of an operation read the group of the slot. -/
theorem witness_steady : ((placed popI).steady 0 0).isSome = true := by decide +kernel

/-- A checkpoint of context 1 whose workgroup is saved. -/
def savedElsewhere : State :=
  let s := savedState.setVfReg 0 0x050 1
  { s with wgs := s.wgs.map (fun w => { w with ctx := 1 }),
           checkpoints := [{ vf := 0, ctx := 1, ck := 3, time := 0, taken := 0, rplw := 0, wgs := [], captured := [], live := true }] }

theorem witness_Observation_restore :
    let c := (savedElsewhere.vfReg 0 0x050).toNat % 65536
    c ≠ savedElsewhere.curCtx 0 ∧ (∀ w ∈ savedElsewhere.wgs, w.vf = 0 → w.ctx = c → w.saved = true ∨ w.ended = true) ∧
    (∃ w ∈ savedElsewhere.wgs, w.vf = 0 ∧ w.ctx = c ∧ w.saved = true) ∧
    (savedElsewhere.checkpoints.find? (fun (k : Checkpoint) => k.vf == 0 && k.ctx == c && k.ck == 3)).isSome = true := by decide +kernel

/-- `RegisterWrites`: both ends of the ranges that its clauses name, and partitions enabled and not. -/
theorem witness_RegisterWrites :
    (0xFFFFF < 0x100000 ∧ 0x140000 ≤ 0x140000) ∧ (0xFF : Nat) % 2 ^ 8 ≠ 0 ∧ (0x100 : Nat) % 2 ^ 8 = 0 ∧ 0x7F < 0x80 ∧ (2 ^ 17) % 2 ^ 32 / 2 ^ 17 ≠ 0 ∧
    2 ^ 17 - 1 < 2 ^ 17 ∧ (placed popI).partEnabled 0 = true ∧ State.reset.partEnabled 31 = false := by decide +kernel

/-- `StepRunsDecoded`: the placed state and its operation; the code that it fetches is there, and the agenda's move is that of its group. -/
theorem witness_StepRunsDecoded :
    (let s := placed (.nop (regF .i32 0 0 0 0 0 .rne 0))
     let s0 := s.before { dt := 1, who := .group 0 0 } []
     (s0.group? 0 0).any (fun (g : Group) =>
       let s1 := s0.issueAs 0 0 false g.run
       s1.issue?.any (fun (is : Issue) =>
         let l := g.lane (lowest g.run)
         let pages := s1.codePages is.w is.r l.func.toNat l.parcel
         let t := pages.foldl (fun (s : State) k => s.visit is.w.vf is.w.ctx (k * 65536)) s1
         pages.all (fun k => !s1.busyPage is.w.vf is.w.ctx (k * 65536)) && !is.w.stopping && (t.groupTrees is.w is.r).isSome &&
           decide (is.fetch t l = .op (.nop (regF .i32 0 0 0 0 0 .rne 0))))) = true) := by decide +kernel

/-- `StepRunsDecoded`: a step whose accesses need not wait. -/
theorem witness_StepRunsDecoded_settled :
    (nextOf (exec (.nop (regF .i32 0 0 0 0 0 .rne 0)) (stand (.nop (regF .i32 0 0 0 0 0 .rne 0)) (each [])))).any (fun u => !u.held && u.halts.isNone) = true := by
  decide +kernel

/-- A step of the placed state runs the placed operation: the first instruction after `withFetchWord`. -/
theorem test_step_runs_word :
    (nextOf (step (State.reset.withFetchWord 64 0x6700000010000102))).map (fun t => t.groups.map (fun g => ((g.lane 0).reg 1, (g.lane 31).reg 1))) =
      some [(7, 7)] := by decide +kernel

/-- Function 1 of the image is a trap handler. A domain table at 0x40000 has one usable entry with a policy and handler 1. -/
def withDomain (policy : Nat) : State :=
  let s := inImage (threeNops ++ [(2, [6, 0, 0x01000004, 1] ++ nopWords)]) 4 (each [])
  let entry := bytesLE 4 (policy * 65536 + 1) ++ bytesLE 4 16 ++ bytesLE 8 0x50000
  { (s.setVfReg 0 0x018 0x40000).setVfReg 0 0x020 1 with mem := writeBytes s.mem 0x40000 entry }

def badLoad : Delivery :=
  { cls := .translation, mask := 5, lanes := 5, addr := 9, stage2 := false, pos := 4, func := 0, asl := false, origin := none }

/-- `FaultsAndHandlers`: each policy; a handler that can run; an operation that fails a check. -/
theorem witness_FaultsAndHandlers :
    (let i := Instr.add (regF .i32 1 2 3 0 0 .rne 0)
     let s := onRegions (fun r => { r with eff := { r.eff with regs := 3 } }) (stand i (each []))
     i.isOp = true ∧ s.issue?.any (fun is => (issueCheck i s is).isSome) = true) ∧
    (∀ p ∈ [0, 1, 2],
      let s := withDomain p
      (s.group? 0 0).any (fun g => g.episode.isNone && g.lanes.length == 32 && (s.wg? g.wg).any (fun w => (s.region? w.vf w.rcb).any (fun r =>
        (s.domainFor w.vf w.ctx r.eff.domain).any (fun e => e.2 == p && canHandle (s.groupTrees w r) g r e.1.handler (g.maxDepth badLoad.lanes)))))
        = true) := by decide +kernel

/-- R386: the lanes of the fault stand at the handler, the others where they were. -/
theorem test_handler_starts :
    let s := withDomain 1
    (s.group? 0 0).any (fun g => (s.wg? g.wg).any (fun w => (s.region? w.vf w.rcb).any (fun r =>
      (s.startEpisode g w r badLoad 1 (deliveryRec s g w r badLoad false)).groups.map
        (fun g => (((g.lane 0).func, (g.lane 0).pos), ((g.lane 1).func, (g.lane 1).pos))) == [((1, posWord 0 4), (0, posWord 0 4))]))) = true := by
  decide +kernel

/-- An episode whose lanes have returned. -/
def handled : State :=
  onGroups (fun g => { g with episode := some { mask := 5, depth := 0, handler := 1, starting := 4, isFault := true },
                              lanes := g.lanes.map (fun l => { l with life := .returned }) }) (withDomain 1)

theorem witness_FaultsAndHandlers_end :
    ({ handled with cur := { handled.cur with core := 0, slot := 0, acc := false } } : State).issue?.any (fun is =>
      is.g.episode.isSome && decide (∀ L, L < 32 → (5#32).getLsbD L → (is.g.lane L).life ≠ .live) && bitsOf is.g.trapCtl.toNat 11 10 == 0 &&
        is.g.lanes.length == 32) = true := by decide +kernel

/-! ## Hypotheses that can be met: values -/

/-- Hypotheses of the statements about values: a lane of ACTIVE, each class of operand, integer and float types, conditions. -/
theorem witness_values :
    (isOf (stand (.lredAdd (regF .i32 1 2 0 0 0 .rne 0)) (each []))).active ≠ [] ∧ Ty.f16 ∈ floatTys ∧ Ty.i8.isInt = true ∧ Ty.i8.wide = false ∧
    condHolds 0 1 1 ∧ ¬ condHolds 5 0 1 := by
  refine ⟨by decide +kernel, by decide, by decide, by decide, rfl, by simp [condHolds]⟩

/-- `SpecialOperands` in binary32: a signalling and a quiet NaN, infinities of both signs, zeros, finite values below and above zero. -/
theorem witness_SpecialOperands :
    let t := fmtOf .f32
    specialNan t [t.decode 0x7F800001, t.decode 0] = some { bits := 0x7FC00000, flags := 0x10 } ∧
    specialNan t [t.decode 0x7FC00000, t.decode 0] = some { bits := 0x7FC00000, flags := 0 } ∧
    specialNan t [t.decode 0x7F800000, t.decode 0xFF800000] = none ∧
    specialSum t (t.decode 0x7F800000) (t.decode 0xFF800000) = some { bits := 0x7FC00000, flags := 0x10 } ∧
    specialSum t (t.decode 0x7F800000) (t.decode 0x3F800000) = some { bits := 0x7F800000, flags := 0 } ∧
    t.decode 0x7F800000 = .inf false ∧ t.decode 0xFF800000 = .inf true ∧ (t.decode 0x80000000).isZero = true ∧
    t.decode 0xBF800000 = .fin true 0x800000 (-23) ∧ t.decode 0x3F800000 = .fin false 0x800000 (-23) := by decide +kernel

/-- `SpecialOperands`, of `fma`: zero by infinity with a NaN as its addend; an infinite product and an infinite addend of the other sign. -/
theorem witness_SpecialOperands_fma :
    let t := fmtOf .f32
    ((t.decode 0).isZero = true ∧ t.decode 0x7F800000 = .inf false ∧ (t.decode 0x7FC00000).isNan = true) ∧
    specialNan t [t.decode 0x7F800000, t.decode 0x3F800000, t.decode 0xFF800000] = none ∧
    specialSum t (.inf false) (t.decode 0xFF800000) = some { bits := 0x7FC00000, flags := 0x10 } ∧
    specialNan t [t.decode 0x3F800000, t.decode 0x3F800000, t.decode 0x7FC00000] = some { bits := 0x7FC00000, flags := 0 } := by decide +kernel

/-- R206: zero by infinity is nv whatever the addend; R205: `fma` rounds once: 1 + 2^-12 squared less 1 + 2^-11 is 2^-24. -/
theorem test_fma :
    (fmtOf .f32).fma 0 0x7F800000 0x7FC00000 .rne false = { bits := 0x7FC00000, flags := 0x10 } ∧
    (fmtOf .f32).fma 0x3F800800 0x3F800800 0xBF801000 .rne false = { bits := 0x33800000, flags := 0 } := by decide +kernel

/-- `LaneReductions` in binary32: two lanes of ACTIVE, and one. -/
theorem witness_LaneReductions :
    (let i := Instr.lredAdd (regF .f32 1 2 0 0 0 .rne 0)
     readyB i (standIn 3 i laneNumbers) = true ∧ (isOf (standIn 3 i laneNumbers)).active = [0, 1] ∧
       (isOf (standIn 1 i laneNumbers)).active = [0] ∧ readyB i (standIn 1 i laneNumbers) = true) := by decide +kernel

/-- R183: 1.5 and 2.25 of two lanes; a signalling NaN of one lane alone. -/
theorem test_lane_reductions_f32 :
    landsIn 3 (.lredAdd (regF .f32 1 2 0 0 0 .rne 0)) (fun L => [(2, if L = 0 then 0x3FC00000 else 0x40100000)]) 1 1 = some 0x40700000 ∧
    (let i := Instr.lredMax (regF .f32 1 2 0 0 0 .rne 0)
     (nextOf (exec i (standIn 1 i (each [(2, 0x7F800001)])))).map (fun t => t.groups.map (fun g => ((g.lane 0).reg 1, g.flags)))) =
       some [(0x7FC00000, 0x10)] := by decide +kernel

/-- `Rounding`: an exact real, one known by its first bits, and the finite values 1 and -1. -/
theorem witness_Rounding :
    ({ neg := false, m := 3, e := 0, sticky := false } : Exact).Stands fmtF32 3 ∧
    ({ neg := false, m := 16, e := -4, sticky := true } : Exact).Stands fmtE4m3 (33 / 32) ∧
    (fmtF32.decode (fmtF32.flushIn true 0x3F800000) = .fin false 0x800000 (-23) ∧ fmtF32.decode (fmtF32.flushIn true 0xBF800000) = .fin true 0x800000 (-23)) ∧
    0 < realOf false 0x800000 (-23) ∧ realOf false 0x800000 (-23) + realOf false 0x800000 (-23) ≠ 0 ∧
    realOf false 0x800000 (-23) + realOf true 0x800000 (-23) = 0 ∧
    realOf false 0x800000 (-23) * realOf false 0x800000 (-23) + realOf false 0x800000 (-23) ≠ 0 ∧
    realOf false 0x800000 (-23) * realOf false 0x800000 (-23) + realOf true 0x800000 (-23) = 0 := by
  refine ⟨⟨by norm_num, by norm_num, ?_⟩, ⟨by norm_num, by norm_num, ?_⟩, by decide +kernel, ?_, ?_, ?_, ?_, ?_⟩
  · norm_num
  · norm_num [fmtE4m3, abs_of_pos]
  · norm_num [realOf]
  · norm_num [realOf]
  · norm_num [realOf]
  · norm_num [realOf]
  · norm_num [realOf]

/-- R197 to R199: halves to even and away from zero, overflow of binary16 to an infinity and to the greatest value, and a tiny result. -/
theorem test_rounding :
    fmtF32.round { neg := false, m := 0x1000001, e := 0, sticky := false } false .rne false false false = { bits := 0x4B800000, flags := 0x01 } ∧
    fmtF32.round { neg := false, m := 0x1000001, e := 0, sticky := false } false .rna false false false = { bits := 0x4B800001, flags := 0x01 } ∧
    fmtF16.round { neg := true, m := 65536, e := 0, sticky := false } false .rne false false false = { bits := 0xFC00, flags := 0x05 } ∧
    fmtF16.round { neg := true, m := 65536, e := 0, sticky := false } false .rup false false false = { bits := 0xFBFF, flags := 0x05 } ∧
    fmtF32.round { neg := true, m := 1, e := -151, sticky := false } false .rne false false false = { bits := 0x80000000, flags := 0x03 } := by decide +kernel

/-- An enabled flag that an operation raises: invalid, with its trap enabled in c.trap (R203). -/
theorem witness_numeric_trap :
    let i := Instr.fSub (regF .f32 1 2 2 0 0 .rne 0)
    let s := onGroups (fun g => { g with trapCtl := 0x10 }) (standIn 1 i (each [(2, 0x7F800000)]))
    readyB i s = true ∧ (isOf s).g.enables &&& ((fmtOf .f32).sub 0x7F800000 0x7F800000 .rne false).flags ≠ 0 := by decide +kernel

/-- R203: the operation that traps writes nothing, and raises no flag. -/
theorem test_numeric_trap :
    (let i := Instr.fSub (regF .f32 1 2 2 0 0 .rne 0)
     let s := onGroups (fun g => { g with trapCtl := 0x10 }) (standIn 1 i (each [(2, 0x7F800000)]))
     (nextOf (exec i s)).map (fun t => t.groups.map (fun g => ((g.lane 0).reg 1, g.flags)))) = some [(0, 0)] := by decide +kernel

end Sys2Proof.Machine
end

section
/-! Bytes written and read back (R5, R10). -/

namespace Sys2Proof

/-- Reading bytes that are those of `v`, lowest first, gives the low bytes of `v`. -/
theorem readLE_of_look {m : Sparse 8} {a n v : Nat} (h : ∀ i < n, m.look (a + i) = BitVec.ofNat 8 (v / 256 ^ i)) :
    readLE m a n = v % 256 ^ n := by
  induction n generalizing a v with
  | zero => simp [readLE, Nat.mod_one]
  | succ n ih =>
    have h0 : m.look a = BitVec.ofNat 8 v := by simpa using h 0 n.succ_pos
    have hs : readLE m (a + 1) n = v / 256 % 256 ^ n := ih fun i hi => by
      rw [Nat.add_assoc, Nat.add_comm 1, h (i + 1) (by omega), Nat.pow_succ', Nat.div_div_eq_div_mul]
    rw [readLE, h0, hs, BitVec.toNat_ofNat, show 256 ^ (n + 1) = 256 * 256 ^ n from Nat.pow_succ', Nat.mod_mul]

theorem readLE_writeLE (m : Sparse 8) (a n v : Nat) : readLE (writeLE m a n v) a n = v % 256 ^ n :=
  readLE_of_look fun i hi => by rw [look_writeLE, if_pos (by omega), Nat.add_sub_cancel_left]

theorem readBytes_writeBytes (m : Sparse 8) (a : Nat) (bs : List Byte) : readBytes (writeBytes m a bs) a bs.length = bs := by
  refine List.ext_getElem (by simp [readBytes]) fun i _ hi => ?_
  simp [readBytes, look_writeBytes, hi]

namespace Machine

/-- Settles O24: reading and writing go through the same bytes, lowest first. -/
theorem memoryReadAfterWrite : Obligations.MemoryReadAfterWrite := fun s pa n v =>
  ⟨readLE_writeLE s.mem pa n v, fun a ha => (look_writeLE s.mem pa n v a).trans (if_neg ha),
    readBytes_writeBytes s.mem pa, fun bs a ha => (look_writeBytes s.mem pa a bs).trans (if_neg ha)⟩

end Machine
end Sys2Proof
end

section
/-! What a write of the register space reaches (R7, R8, R402 to R404). -/

namespace Sys2Proof.Machine

/-- The bits of a field's mask are those of the numbers that fit the field. -/
theorem and_fieldMask {hi lo x : Nat} (h : lo ≤ hi) : x &&& fieldMask hi lo = x ↔ x % 2 ^ lo = 0 ∧ x < 2 ^ (hi + 1) := by
  have hand : x &&& fieldMask hi lo = x / 2 ^ lo % 2 ^ (hi + 1 - lo) * 2 ^ lo := by
    refine Nat.eq_of_testBit_eq fun i => ?_
    rw [fieldMask, Nat.testBit_and, Nat.testBit_mul_two_pow, Nat.testBit_mul_two_pow, Nat.testBit_mod_two_pow, Nat.testBit_two_pow_sub_one,
      Nat.testBit_div_two_pow]
    by_cases hi : lo ≤ i
    · simp [hi, Bool.and_comm]
    · simp [hi]
  have hpow : 2 ^ (hi + 1) = 2 ^ lo * 2 ^ (hi + 1 - lo) := by rw [← Nat.pow_add]; congr 1; omega
  rw [hand, Nat.mul_comm]
  constructor
  · intro e
    refine ⟨by rw [← e]; exact Nat.mul_mod_right _ _, ?_⟩
    rw [← e, hpow]
    exact Nat.mul_lt_mul_of_pos_left (Nat.mod_lt _ (Nat.two_pow_pos _)) (Nat.two_pow_pos _)
  · rintro ⟨h0, h1⟩
    rw [Nat.mod_eq_of_lt (Nat.div_lt_of_lt_mul (hpow ▸ h1))]
    exact Nat.mul_div_cancel' (Nat.dvd_of_mod_eq_zero h0)

/-- A write reaches no register where its offset has none that can be written from there. -/
theorem reached_eq_none {rs : List RegSpec} {viaVf : Bool} {off v : Nat}
    (h : ∀ r ∈ rs, r.off = off → r.acc = .ro ∨ viaVf = true ∧ r.acc = .pf) : reached rs viaVf off v = none := by
  refine List.find?_eq_none.2 fun r hr hc => ?_
  simp only [Bool.and_eq_true, beq_iff_eq, bne_iff_ne, Bool.not_eq_true', Bool.and_eq_false_iff, beq_eq_false_iff_ne] at hc
  obtain ⟨⟨⟨hoff, hro⟩, hpf⟩, -⟩ := hc
  rcases h r hr hoff with e | ⟨hvia, e⟩
  · exact hro e
  · exact hpf.elim (by simp [hvia]) (· e)

/-- A write reaches the only register at its offset, if that can be written from there, where it sets no reserved bit. -/
theorem reached_only {rs : List RegSpec} {viaVf : Bool} {v : Nat} (r : RegSpec) (hr : r ∈ rs) (honly : ∀ q ∈ rs, q.off = r.off → q = r)
    (hro : r.acc ≠ .ro) (hpf : r.acc = .pf → viaVf = false) :
    reached rs viaVf r.off v = if v % 2 ^ r.width &&& r.mask = v % 2 ^ r.width then some r else none := by
  have hacc : (viaVf && r.acc == .pf) = false := by cases viaVf <;> simp_all
  cases hf : reached rs viaVf r.off v with
  | none =>
    have hno := List.find?_eq_none.1 hf r hr
    simp only [hacc, beq_self_eq_true, bne_iff_ne, Bool.true_and, Bool.and_eq_true, beq_iff_eq, not_and] at hno
    rw [if_neg (hno ⟨hro, rfl⟩)]
  | some q =>
    have hq := List.find?_some hf
    simp only [Bool.and_eq_true, beq_iff_eq] at hq
    obtain rfl := honly q (List.mem_of_find?_eq_some hf) hq.1.1.1
    rw [if_pos hq.2]

namespace State

variable {s : State} {viaVf : Bool} {vf p o v : Nat}

theorem writeVf_of_unreached (h : reached (vfRegs ++ debugRegs) viaVf o v = none) : s.writeVf viaVf vf o v = s := by
  rw [State.writeVf, h]

theorem writeWindow_of_unreached (h : reached windowRegs viaVf o v = none) : s.writeWindow viaVf vf o v = s := by
  rw [State.writeWindow, h]

/-- A write of the PF into the block of the module. -/
theorem writeRegister_module (s : State) {off : Nat} (value : Dword) (h : off < 0x1000) :
    s.writeRegister false off value = s.writeModule off value.toNat := by
  rw [State.writeRegister, if_neg (by omega), if_neg (by decide), if_neg (by omega), if_pos h]

theorem writeModule_of_unreached (h : reached moduleRegs false o v = none) : s.writeModule o v = s := by
  rw [State.writeModule, h]

/-- A register that describes no area is written without a check of the areas (R429). -/
theorem recheckAreas_of_plain (h : ∀ a ∈ [debugArea, samplerArea, replayArea], o ≠ a.base ∧ o ≠ a.size) : s.recheckAreas vf o = s := by
  have hskip {s : State} {a : Area} (ha : a ∈ [debugArea, samplerArea, replayArea]) : ¬ ((o = a.base ∨ o = a.size) ∧
      a.uses.any (fun b => s.dbgBit vf b) = true) := fun hc => hc.1.elim (h a ha).1 (h a ha).2
  rw [State.recheckAreas, List.foldl_cons, if_neg (hskip (by simp)), List.foldl_cons, if_neg (hskip (by simp)), List.foldl_cons,
    if_neg (hskip (by simp)), List.foldl_nil]

/-- vf.root takes a block-aligned address (R404; log entry 90). -/
theorem writeVf_root (hv : v < 2 ^ 64) : s.writeVf viaVf vf 0x008 v = if v % 2 ^ 8 = 0 then s.setVfReg vf 0x008 (BitVec.ofNat 64 v) else s := by
  have hmask : v % 2 ^ 64 &&& fieldMask 63 8 = v % 2 ^ 64 ↔ v % 2 ^ 8 = 0 := by rw [and_fieldMask (by decide)]; omega
  rw [State.writeVf, reached_only { off := 0x008, width := 64, acc := .rw, mask := fieldMask 63 8 } (by decide) (by decide) (by decide) nofun]
  by_cases h : v % 2 ^ 8 = 0
  · rw [if_pos (hmask.2 h), if_pos h]
    exact (recheckAreas_of_plain (by decide)).trans (by rw [Nat.mod_eq_of_lt hv])
  · rw [if_neg (mt hmask.1 h), if_neg h]

/-- vf.err clears the bits that are written as 1 (R404). -/
theorem writeVf_err (hv : v < 0x80) : s.writeVf viaVf vf 0x004 v = s.setVfReg vf 0x004 (s.vfReg vf 0x004 &&& ~~~(BitVec.ofNat 64 v)) := by
  have hmask : v % 2 ^ 32 &&& fieldMask 6 0 = v % 2 ^ 32 := by rw [and_fieldMask (by decide)]; omega
  rw [State.writeVf, reached_only { off := 0x004, width := 32, acc := .w1c, mask := fieldMask 6 0 } (by decide) (by decide) (by decide) nofun,
    if_pos hmask]
  show s.setVfReg vf 0x004 (s.vfReg vf 0x004 &&& ~~~(BitVec.ofNat 64 (v % 2 ^ 32))) = _
  rw [Nat.mod_eq_of_lt (by omega)]

/-- vf.nctx takes a number of contexts through the PF (R404). -/
theorem writeVf_nctx : s.writeVf false vf 0x054 v =
    if v % 2 ^ 32 / 2 ^ 17 = 0 then s.setVfReg vf 0x054 (BitVec.ofNat 64 (v % 2 ^ 32)) else s := by
  have hmask : v % 2 ^ 32 &&& fieldMask 16 0 = v % 2 ^ 32 ↔ v % 2 ^ 32 / 2 ^ 17 = 0 := by rw [and_fieldMask (by decide)]; omega
  rw [State.writeVf, reached_only { off := 0x054, width := 32, acc := .pf, mask := fieldMask 16 0 } (by decide) (by decide) (by decide) fun _ => rfl]
  by_cases h : v % 2 ^ 32 / 2 ^ 17 = 0
  · rw [if_pos (hmask.2 h), if_pos h]
    exact recheckAreas_of_plain (by decide)
  · rw [if_neg (mt hmask.1 h), if_neg h]

/-- While a partition is enabled, only p.ctl can be written (R403). -/
theorem writePart_of_enabled (h : s.partEnabled p = true) (ho : 0 < o) : s.writePart p o v = s := by
  rw [State.writePart]
  split
  · rfl
  · rw [if_neg (by omega), if_pos h]

/-- A partition's register at 0x008 takes every value while the partition is not enabled (R402, R403). -/
theorem writePart_plain (h : s.partEnabled p = false) (hv : v < 2 ^ 64) :
    s.writePart p 0x008 v = s.setReg (partBase p + 0x008) (BitVec.ofNat 64 v) := by
  have hmask : v % 2 ^ 64 &&& fieldMask 63 0 = v % 2 ^ 64 := by rw [and_fieldMask (by decide)]; omega
  rw [State.writePart, reached_only { off := 0x008, width := 64, acc := .rw, mask := fieldMask 63 0 } (by decide) (by decide) (by decide) nofun,
    if_pos hmask]
  simp only [Nat.reduceEqDiff, if_false, h, Bool.false_eq_true, Nat.mod_eq_of_lt hv]

end State

theorem exec_registerWrite (s : State) (viaVf : Bool) (off : Nat) (value : Dword) :
    exec (.registerWrite viaVf off value) s = .next (s.writeRegister viaVf off value) := rfl

/-- A write to an offset of a VF's block outside its context window. -/
theorem exec_registerWrite_vf (s : State) (viaVf : Bool) {vf o : Nat} (value : Dword) (hvf : vf < 64) (ho : o < 0x100) :
    exec (.registerWrite viaVf (vfBase vf + o) value) s = .next (s.writeVf viaVf vf o value.toNat) := by
  rw [exec_registerWrite, State.writeRegister_vf s viaVf value hvf (by omega), if_neg (by omega)]

/-- Settles O52: each write reaches the register at its offset, if that can be written from there and no reserved bit is set. -/
theorem registerWrites : Obligations.RegisterWrites := by
  intro s value v keeps
  have hv : v < 2 ^ 64 := value.isLt
  have hvalue : BitVec.ofNat 64 v = value := by simp [v]
  refine ⟨fun viaVf off => ⟨_, exec_registerWrite s viaVf off value⟩,
    fun off h => congrArg _ (State.writeRegister_viaVf s value h), fun vf hvf => ?_, fun p o hp hen ho ho' => ?_, fun p hp hen => ?_,
    fun off hoff => ?_, fun off off' x h => by rw [State.reg_setReg, if_neg (Ne.symm h)]⟩
  · have hvfw {viaVf o} (ho : o < 0x100) := exec_registerWrite_vf s viaVf value hvf ho
    refine ⟨fun o ho => ?_, fun o ho => ?_, fun viaVf o ho => ?_, fun viaVf h => ?_, fun viaVf h => ?_, fun viaVf h => ?_, fun h => ?_,
      fun h => ?_⟩
    · have hpf : ∀ o ∈ [0x000, 0x010, 0x048, 0x054], o < 0x100 ∧ ∀ r ∈ vfRegs ++ debugRegs, r.off = o → r.acc = .pf := by decide
      exact (hvfw (hpf o ho).1).trans (congrArg _ (State.writeVf_of_unreached (reached_eq_none fun r hr e => .inr ⟨rfl, (hpf o ho).2 r hr e⟩)))
    · have hpf : ∀ o ∈ [0x118, 0x120, 0x128], (0x100 ≤ o ∧ o < 0x140) ∧ ∀ r ∈ windowRegs, r.off = o → r.acc = .pf := by decide
      show Host.Outcome.next (s.writeRegister true (vfBase vf + o) value) = .next s
      rw [State.writeRegister_vf s true value hvf (by have := hpf o ho; omega), if_pos (hpf o ho).1,
        State.writeWindow_of_unreached (reached_eq_none fun r hr e => .inr ⟨rfl, (hpf o ho).2 r hr e⟩)]
    · have hro : ∀ o ∈ [0x038, 0x044, 0x074, 0x08C, 0x0B4], o < 0x100 ∧ ∀ r ∈ vfRegs ++ debugRegs, r.off ≠ o := by decide
      exact (hvfw (hro o ho).1).trans (congrArg _ (State.writeVf_of_unreached (reached_eq_none fun r hr e => absurd e ((hro o ho).2 r hr))))
    · exact (hvfw (by omega)).trans (by rw [State.writeVf_root hv, if_neg h])
    · exact (hvfw (by omega)).trans (by rw [State.writeVf_root hv, if_pos h, hvalue])
    · exact (hvfw (by omega)).trans (by rw [State.writeVf_err h, hvalue])
    · exact (hvfw (by omega)).trans (by rw [State.writeVf_nctx, if_neg h])
    · exact (hvfw (by omega)).trans (by rw [State.writeVf_nctx, if_pos (by omega), Nat.mod_eq_of_lt (by omega), hvalue])
  · exact congrArg _ ((State.writeRegister_part s value hp ho').trans (State.writePart_of_enabled hen ho))
  · exact congrArg _ ((State.writeRegister_part s value hp (by decide)).trans (by rw [State.writePart_plain hen hv, hvalue]))
  · have hro : ∀ off ∈ [0x000, 0x004, 0x008, 0x00C, 0x010, 0x020, 0x104], off < 0x1000 ∧ ∀ r ∈ moduleRegs, r.off ≠ off := by decide
    obtain ⟨hlt, hno⟩ := hro off hoff
    exact congrArg _ ((State.writeRegister_module s value hlt).trans
      (State.writeModule_of_unreached (reached_eq_none fun r hr e => absurd e (hno r hr))))

end Sys2Proof.Machine
end

section
/-! `ctl.set` of each kind of control register (R187, R348, R435). -/

namespace Sys2Proof.Machine

variable {f : Fields} {s : State} {is : Issue}

theorem exec_ctlSet_group {g : Group} (h : Ready (.ctlSet f) s is) (hn : f.spec.toNat < 0x10)
    (hg : setGroupReg s.now f.spec.toNat (is.addr f.a is.l0) is.g = some g) :
    exec (.ctlSet f) s = retires (.ctlSet f) is (s.updGroup is.g.core is.g.slot (fun _ => g)) true :=
  runOp_done h.1 h.2 (by simp [hn, hg])

theorem exec_ctlSet_reserved (h : Ready (.ctlSet f) s is) (hn : f.spec.toNat < 0x10)
    (hg : setGroupReg s.now f.spec.toNat (is.addr f.a is.l0) is.g = none) :
    exec (.ctlSet f) s = .next (s.takeHit is (Hit.plain .operandExtent is.mask 0)) :=
  runOp_hit h.1 h.2 (by simp [hn, hg])

/-- A descriptor that the engine of the workgroup takes. -/
theorem exec_ctlSet_tdesc {en : Nat} (h : Ready (.ctlSet f) s is) (hlo : 0x10 ≤ f.spec.toNat) (hhi : f.spec.toNat < 0x20)
    (hr : is.w.releasing = false) (he : is.w.engine = some en) (hok : (s.engine en).tdescOk (is.addr f.a is.l0) = true) :
    exec (.ctlSet f) s = retires (.ctlSet f) is (s.putEngine { s.engine en with
      tdesc := (s.engine en).tdesc.put (f.spec.toNat - 0x10) (is.addr f.a is.l0), fill := (s.engine en).fill.put (f.spec.toNat - 0x10) 0 }) true :=
  runOp_done h.1 h.2 (by simp [show ¬ f.spec.toNat < 0x10 by omega, hhi, hr, he, hok])

theorem exec_ctlSet_tdesc_bad {en : Nat} (h : Ready (.ctlSet f) s is) (hlo : 0x10 ≤ f.spec.toNat) (hhi : f.spec.toNat < 0x20)
    (hr : is.w.releasing = false) (he : is.w.engine = some en) (hok : (s.engine en).tdescOk (is.addr f.a is.l0) = false) :
    exec (.ctlSet f) s = .next (s.takeHit is (Hit.plain .operandExtent is.mask 0)) :=
  runOp_hit h.1 h.2 (by simp [show ¬ f.spec.toNat < 0x10 by omega, hhi, hr, he, hok])

/-- A workgroup that holds no engine sets no descriptor. -/
theorem exec_ctlSet_tdesc_unheld (h : Ready (.ctlSet f) s is) (hlo : 0x10 ≤ f.spec.toNat) (hhi : f.spec.toNat < 0x20)
    (hr : is.w.releasing = true ∨ is.w.engine = none) : exec (.ctlSet f) s = .next (s.takeHit is (Hit.plain .operandExtent is.mask 0)) :=
  runOp_hit h.1 h.2 (by
    simp only [show ¬ f.spec.toNat < 0x10 by omega, hhi, if_true, if_false]
    rcases hr with hr | hr
    · rw [hr]
    · rw [hr]; cases is.w.releasing <;> rfl)

/-- A misplaced range, or a unit of another context (R435). -/
theorem exec_ctlSet_watch_bad (h : Ready (.ctlSet f) s is) (hn : 0x20 ≤ f.spec.toNat)
    (hbad : watchBad (is.addr f.a is.l0) = true ∨
      ∃ u, s.watchUnit? is.g.core (f.spec.toNat - 0x20) = some u ∧ ¬ (u.vf = is.w.vf ∧ u.ctx = is.w.ctx)) :
    exec (.ctlSet f) s = .next (s.takeHit is (Hit.plain .operandExtent is.mask 0)) :=
  runOp_hit h.1 h.2 (by
    simp only [show ¬ f.spec.toNat < 0x10 by omega, show ¬ f.spec.toNat < 0x20 by omega, if_false]
    refine if_pos ?_
    rcases hbad with hbad | ⟨u, hu, hx⟩
    · rw [hbad]; rfl
    · simp only [hu, Bool.or_eq_true, Bool.not_eq_true', Bool.and_eq_false_iff, beq_eq_false_iff_ne]
      exact .inr (Classical.not_and_iff_not_or_not.1 hx))

theorem exec_ctlSet_watch (h : Ready (.ctlSet f) s is) (hn : 0x20 ≤ f.spec.toNat)
    (hown : ∀ u, s.watchUnit? is.g.core (f.spec.toNat - 0x20) = some u → u.vf = is.w.vf ∧ u.ctx = is.w.ctx)
    (hok : watchBad (is.addr f.a is.l0) = false) :
    exec (.ctlSet f) s = retires (.ctlSet f) is (s.setWatch is (f.spec.toNat - 0x20) (is.addr f.a is.l0)) true :=
  runOp_done h.1 h.2 (by
    simp only [show ¬ f.spec.toNat < 0x10 by omega, show ¬ f.spec.toNat < 0x20 by omega, if_false, hok, Bool.false_or]
    refine if_neg ?_
    cases hu : s.watchUnit? is.g.core (f.spec.toNat - 0x20) with
    | none => exact Bool.false_ne_true
    | some u => obtain ⟨h1, h2⟩ := hown u hu; simp [h1, h2])

/-- Settles O30: what `setGroupReg` answers for each register of the group, the checks of a descriptor, and those of a watch range. -/
theorem controlWrites : Obligations.ControlWrites := by
  intro f s is h n x w sets faults
  have hset {g} (hn : n < 0x10) (hg : setGroupReg s.now n x is.g = some g) : sets g := exec_ctlSet_group h hn hg
  have hbad (hn : n < 0x10) (hg : setGroupReg s.now n x is.g = none) : faults := exec_ctlSet_reserved h hn hg
  refine ⟨fun hn => ?_, fun hn => ?_, fun hn => ?_, fun hn => ?_, fun hn => ?_, fun hn => ?_, fun hlo hhi => ⟨?_, ?_, ?_⟩, ?_, ?_⟩
  · have hro : ∀ n ∈ [0, 3, 4, 8], n < 0x10 ∧ setGroupReg s.now n x is.g = some is.g := by simp [setGroupReg]
    exact hset (hro n hn).1 (hro n hn).2
  · exact ⟨fun hw => hset (by omega) (by rw [hn]; exact if_pos hw), fun hw => hbad (by omega) (by rw [hn]; exact if_neg hw)⟩
  · refine ⟨fun hw => ?_, fun hw => hbad (by omega) (by rw [hn]; exact if_neg hw)⟩
    have hflags : setGroupReg s.now n x is.g = some { is.g with flags := w ||| (if is.g.lateAt = s.now then is.g.lateFlags else 0) } := by
      rw [hn]; exact if_pos hw
    exact ⟨fun hl => hset (by omega) (by simpa [hl] using hflags), fun hl => hset (by omega) (by simpa [hl] using hflags)⟩
  · refine ⟨fun hw => ?_, fun hw => hbad (by omega) (by rw [hn]; exact if_neg hw)⟩
    exact ⟨fun hl => hset (by omega) (by rw [hn]; exact (if_pos hw).trans (if_neg (ne_true_of_eq_false hl))),
      fun hl => hset (by omega) (by rw [hn]; exact (if_pos hw).trans (if_pos hl))⟩
  · exact ⟨fun hx => hset (by omega) (by rw [hn]; exact if_pos hx), fun hx => hbad (by omega) (by rw [hn]; exact if_neg hx)⟩
  · exact ⟨fun hx => hset (by omega) (by rw [hn]; exact if_pos hx), fun hx => hbad (by omega) (by rw [hn]; exact if_neg hx)⟩
  · exact fun en => exec_ctlSet_tdesc h hlo hhi
  · exact exec_ctlSet_tdesc_unheld h hlo hhi
  · exact fun en => exec_ctlSet_tdesc_bad h hlo hhi
  · exact exec_ctlSet_watch_bad h
  · exact exec_ctlSet_watch h

end Sys2Proof.Machine
end

section
/-! SUPPORT. What every update of the machine keeps: the canonical form of its tables, the part, and, of the updates that a retirement makes,
the registers and the flags of its groups (R10, R78, R402). -/

namespace Sys2Proof.Machine

/-- What `State.Keeps` looks at: an update that leaves these fields as they are keeps all of it. -/
def State.kept (s : State) :=
  (s.part, s.mem, s.tags, s.poison, s.regs, s.cxRegs, s.groups, s.posted)

/-- The fields that `State.Canonical` speaks of, and the part. -/
def State.tables (s : State) := (s.part, s.mem, s.tags, s.poison, s.regs, s.cxRegs)

/-- Every posted write has been performed at its home (R231). -/
def State.allPerformed (s : State) : Prop := ∀ p ∈ s.posted, p.performed = true

/-- c.flags of the group in a slot. -/
def State.flagsAt (s : State) (core slot : Nat) : Option Word := (s.group? core slot).map (fun g => g.flags)

/-- `t` comes from `s` by updates that keep the canonical form of the tables, and the part. Where `regs` is set they also write no register of
a group and none of its steady control registers; where `flags` is set they raise no flag as long as no posted write is left to perform. -/
def State.Keeps (regs flags : Bool) (s t : State) : Prop :=
  (s.Canonical → t.Canonical) ∧ t.part = s.part ∧ (regs = true → ∀ core slot, t.steady core slot = s.steady core slot) ∧
  (flags = true → s.allPerformed → t.allPerformed ∧ ∀ core slot, t.flagsAt core slot = s.flagsAt core slot)

/-- `t` comes from `s` by updates that keep the canonical form of the tables, and the part. -/
abbrev State.Sound (s t : State) : Prop := State.Keeps false false s t

/-- What of a group a retirement leaves alone: its slot, its steady registers and its flags. -/
def Group.still (g : Group) := (g.core, g.slot, g.steady, g.flags)

/-- A change of a group that leaves all of these alone. -/
def Group.Like (g' g : Group) : Prop := g'.still = g.still

/-- The states that an effect carries come from `s₀` soundly. -/
def Effect.Sound (s₀ : State) : Effect → Prop
  | .done s _ | .leave s _ | .taken s _ | .wait s _ | .queued s _ | .trap s _ _ | .stay s => s₀.Sound s
  | .hit _ | .watch _ _ _ => True

/-- A next state comes from `s₀` soundly. -/
def Out.Sound (s₀ : State) : Out → Prop
  | .next s => s₀.Sound s
  | _ => True

/-! ## Groups that stand as they did -/

/-- `F` on the groups of one slot, as `State.updGroup` changes them. -/
def Group.inSlot (core slot : Nat) (F : Group → Group) (g : Group) : Group := if g.core = core ∧ g.slot = slot then F g else g

/-- The registers of a lane and their poison. -/
def Lane.bank (l : Lane) : Sparse 32 × Sparse 1 := (l.regs, l.bad)

namespace Group

theorem Like.refl (g : Group) : g.Like g := rfl

theorem Like.trans {g₁ g₂ g₃ : Group} (h : g₁.Like g₂) (h' : g₂.Like g₃) : g₁.Like g₃ := Eq.trans h h'

theorem like_iff {g' g : Group} : g'.Like g ↔ g'.core = g.core ∧ g'.slot = g.slot ∧ g'.steady = g.steady ∧ g'.flags = g.flags := by
  simp [Like, still]

theorem endDemotions_like (p : Demotion → Bool) (g : Group) : (g.endDemotions p).Like g := by
  unfold endDemotions; split <;> rfl

theorem endPending_like (g : Group) : g.endPending.Like g := by
  unfold endPending; split <;> rfl

theorem parkFor_like (why : ParkReason) (g : Group) : (g.parkFor why).Like g := rfl

theorem enterLoop_like (m : Mask) (l : LoopId) (g : Group) : (g.enterLoop m l).Like g := rfl

theorem endIteration_like (m : Mask) (l : LoopId) (g : Group) : (g.endIteration m l).Like g := rfl

theorem Like.foldl {α : Type} {F : Group → α → Group} (hF : ∀ g x, (F g x).Like g) (l : List α) (g : Group) : (l.foldl F g).Like g := by
  induction l generalizing g with
  | nil => rfl
  | cons x xs ih => exact (ih (F g x)).trans (hF g x)

theorem enterLoops_like (m : Mask) (ls : List LoopId) (g : Group) : (g.enterLoops m ls).Like g :=
  Like.foldl (fun g l => enterLoop_like m l g) ls g

theorem follow_like (repeated entered : List (Nat × LoopId)) (g : Group) : (g.follow repeated entered).Like g := by
  unfold follow
  split
  · rfl
  · exact (Like.foldl (fun g _ => enterLoop_like _ _ g) _ _).trans (Like.foldl (fun g _ => endIteration_like _ _ g) _ g)

theorem detect_like (g : Group) (mask : Mask) (before : List Lane) (loud : Bool) (repeated entered : List (Nat × LoopId)) (written : List Lane) :
    (g.detect mask before loud repeated entered written).Like g := by
  unfold detect
  split
  · rfl
  · exact follow_like _ _ _

theorem ranOthers_like (mask : Mask) (g : Group) : (g.ranOthers mask).Like g := by
  unfold ranOthers; split <;> rfl

/-- A change of the lanes that leaves their registers alone. -/
theorem map_bank_mapLanes {F : Nat → Lane → Lane} (hF : ∀ L l, (F L l).bank = l.bank) (m : Mask) (ls : List Lane) :
    (mapLanes F m ls).map Lane.bank = ls.map Lane.bank := by
  refine List.ext_getElem (by simp [mapLanes]) fun L h1 h2 => ?_
  simp only [mapLanes, List.getElem_map, List.getElem_mapIdx]
  split
  · exact hF _ _
  · rfl

/-- A group with other lanes, whose registers are the same, and other fields as they stood. -/
theorem like_of_bank {g' g : Group} (hb : g'.lanes.map Lane.bank = g.lanes.map Lane.bank) (h : { g' with lanes := g.lanes }.Like g) :
    g'.Like g := by
  simp only [like_iff, steady, Prod.mk.injEq] at h ⊢
  exact ⟨h.1, h.2.1, ⟨hb, h.2.2.1.2⟩, h.2.2.2⟩

theorem wake_like (gs : List Nat) (g : Group) : (g.wake gs).Like g := by
  unfold wake
  split
  · exact (endDemotions_like _ _).trans (endPending_like g)
  · exact endDemotions_like _ g

end Group

/-- The state in which replay mode lets an access go on, or leaves it, keeps what `State.Keeps` says (R445). -/
def Gate.Keeps (rg fl : Bool) (s₀ : State) : Gate → Prop
  | .go s | .stay s => s₀.Keeps rg fl s
  | .stop => True

/-- The states of a chunk's turn come from `s₀` soundly. -/
def ChunkTurn.Sound (s₀ : State) : ChunkTurn → Prop
  | .go s _ | .fail s _ | .absent s | .stay s => s₀.Sound s

/-- A merge that cannot go on ends in an effect whose states come from `s₀` soundly. -/
def MergeGate.Sound (s₀ : State) : MergeGate → Prop
  | .go _ => True
  | .no e => e.Sound s₀

theorem Gate.Keeps.go {rg fl : Bool} {s₀ s : State} {g : Gate} (h : g.Keeps rg fl s₀) (e : g = .go s) : s₀.Keeps rg fl s := by
  subst e; exact h

theorem Gate.Keeps.stay {rg fl : Bool} {s₀ s : State} {g : Gate} (h : g.Keeps rg fl s₀) (e : g = .stay s) : s₀.Keeps rg fl s := by
  subst e; exact h

/-- Where every posted write has been performed, none is left for a flush. -/
theorem State.flushWhere_of_allPerformed {s : State} {P : Posted → Bool} (ha : s.allPerformed) : s.flushWhere P = s := by
  have : s.posted.filter (fun q => !q.performed && P q) = [] := List.filter_eq_nil_iff.2 fun q hq => by simp [ha q hq]
  rw [State.flushWhere, this, List.foldl_nil]

theorem settledLane_bank (l : Lane) (r : Resolving) (e : ResolveEnd) : (settledLane l r e).bank = l.bank := by
  cases e <;> rfl

/-- The lanes of a group hold the same registers when they have been resolved. -/
theorem Issue.settleLanes_bank (is : Issue) (s : State) (t : Trees) (active mask : Mask) (skip : List Skip) (k : Nat → LeaveKind) :
    (is.settleLanes s t active mask skip k).lanes.map Lane.bank = is.g.lanes.map Lane.bank := by
  have hset : ∀ (a : Settled) (L : Nat), a.lanes.map Lane.bank = is.g.lanes.map Lane.bank →
      (is.settleLane s t active skip k a L).lanes.map Lane.bank = is.g.lanes.map Lane.bank := fun a L h => by
    show (a.lanes.set L (settledLane (is.g.lane L) _ _)).map Lane.bank = _
    rw [List.map_set, settledLane_bank, h]
    by_cases hL : L < is.g.lanes.length
    · rw [Group.lane, List.getElem?_eq_getElem hL, Option.getD_some, ← List.getElem_map (f := Lane.bank) (h := by simpa using hL),
        List.set_getElem_self]
    · exact List.set_eq_of_length_le (by simpa using hL)
  suffices ∀ (ls : List Nat) (a : Settled), a.lanes.map Lane.bank = is.g.lanes.map Lane.bank →
      (ls.foldl (fun a L => is.settleLane s t active skip k a L) a).lanes.map Lane.bank = is.g.lanes.map Lane.bank from this _ _ rfl
  intro ls
  induction ls with
  | nil => exact fun _ h => h
  | cons L ls ih => exact fun a h => ih _ (hset a L h)

/-- The group of an issue stands in the slot of the state's current operation. -/
theorem State.group?_of_issue? {s : State} {is : Issue} (h : s.issue? = some is) : s.group? s.cur.core s.cur.slot = some is.g := by
  unfold State.issue? at h
  split at h
  · cases h
  · split at h
    · cases h
    · split at h
      · cases h
      · cases h; assumption

theorem Issue.refresh_of_some {s : State} {is : Issue} {g : Group} (h : s.group? is.g.core is.g.slot = some g) :
    is.refresh s = { is with g := g } := by
  rw [Issue.refresh, h]

theorem Issue.refresh_place (is : Issue) (s : State) :
    (is.refresh s).g.core = is.g.core ∧ (is.refresh s).g.slot = is.g.slot := by
  unfold Issue.refresh
  split
  · next h => exact s.group?_place h
  · exact ⟨rfl, rfl⟩

/-- A lane that has returned from the handler of an episode, as it goes on at the position of its trap frame (R389). -/
def Issue.resumedLane (is : Issue) (s : State) (ep : Episode) (L : Nat) (l : Lane) : Lane :=
  let a := is.w.pa + privOff is.r.eff.lstore is.r.eff.priv is.g.grp L + 8 * ep.depth
  { l with life := .live, pos := BitVec.ofNat 32 (readLE s.mem a 4), func := BitVec.ofNat 16 (readLE s.mem (a + 4) 4), frameBase := 0,
           atStart := ep.starting.getLsbD L }

/-- A group at the end of its episode (R389). -/
def Issue.resumedGroup (is : Issue) (s : State) (ep : Episode) : Group :=
  { is.g with
    lanes := mapLanes (is.resumedLane s ep) (is.g.lifeMask .returned) is.g.lanes, episode := none,
    trapCtl := setTrap is.g.trapCtl 0 false 0, run := 0 }

/-- c.trap keeps its numeric trap enables where the hardware sets its other fields (R388). -/
theorem setTrap_enables (c : Dword) (at0 : Nat) (inh : Bool) (act : Nat) :
    (setTrap c at0 inh act).extractLsb' 0 5 = c.extractLsb' 0 5 := by
  have hk : at0 % 65536 * 2 ^ 32 + (if inh then 2 ^ 15 else 0) + act % 4 * 2 ^ 10 =
      2 ^ 5 * (at0 % 65536 * 2 ^ 27 + (if inh then 2 ^ 10 else 0) + act % 4 * 2 ^ 5) := by split <;> omega
  refine BitVec.eq_of_getLsbD_eq fun i hi => ?_
  have h1 : (0x1F#64).getLsbD i = true := by interval_cases i <;> rfl
  have h2 : (BitVec.ofNat 64 (2 ^ 5 * (at0 % 65536 * 2 ^ 27 + (if inh then 2 ^ 10 else 0) + act % 4 * 2 ^ 5))).getLsbD i = false := by
    simp only [BitVec.getLsbD_ofNat, Nat.testBit_two_pow_mul, ge_iff_le, show ¬ 5 ≤ i by omega, decide_false, Bool.false_and, Bool.and_false]
  rw [setTrap, hk, BitVec.getLsbD_extractLsb', BitVec.getLsbD_or, Nat.zero_add, h2, BitVec.getLsbD_and, h1, BitVec.getLsbD_extractLsb',
    Nat.zero_add, Bool.or_false, Bool.and_true]

theorem Issue.resumedGroup_like (is : Issue) (s : State) (ep : Episode) : (is.resumedGroup s ep).Like is.g :=
  Group.like_of_bank (Group.map_bank_mapLanes (by exact fun _ _ => rfl) _ _)
    (by simp [Issue.resumedGroup, Group.like_iff, Group.steady, Group.enables, setTrap_enables])

namespace State.Keeps

variable {rg fl : Bool} {s₀ s t : State}

theorem refl (s : State) : s.Keeps rg fl s := ⟨id, rfl, fun _ _ _ => rfl, fun _ h => ⟨h, fun _ _ => rfl⟩⟩

theorem trans (h : s₀.Keeps rg fl s) (h' : s.Keeps rg fl t) : s₀.Keeps rg fl t := by
  obtain ⟨hc, hp, hs, hf⟩ := h
  obtain ⟨hc', hp', hs', hf'⟩ := h'
  refine ⟨hc' ∘ hc, hp'.trans hp, fun hr c k => (hs' hr c k).trans (hs hr c k), fun hf0 ha => ?_⟩
  obtain ⟨ha1, hf1⟩ := hf hf0 ha
  obtain ⟨ha2, hf2⟩ := hf' hf0 ha1
  exact ⟨ha2, fun c k => (hf2 c k).trans (hf1 c k)⟩

/-- The state of a pair that a function answers. -/
theorem fst {α : Type} {x : State × α} {a : α} (h : s₀.Keeps rg fl x.1) (e : x = (s, a)) : s₀.Keeps rg fl s := by subst e; exact h

theorem snd {α : Type} {x : α × State} {a : α} (h : s₀.Keeps rg fl x.2) (e : x = (a, s)) : s₀.Keeps rg fl s := by subst e; exact h

theorem congr (h : s₀.Keeps rg fl s) (e : t.kept = s.kept) : s₀.Keeps rg fl t := by
  simp only [State.kept, Prod.mk.injEq] at e
  obtain ⟨e1, e2, e3, e4, e5, e6, e7, e8⟩ := e
  simpa only [State.Keeps, State.Canonical, State.steady, State.allPerformed, State.flagsAt, State.group?, e1, e2, e3, e4, e5, e6, e7, e8] using h

/-- An update of anything but the tables and the part. -/
theorem of_tables (h : s₀.Sound s) (e : t.tables = s.tables) : s₀.Sound t := by
  simp only [State.tables, Prod.mk.injEq] at e
  obtain ⟨e1, e2, e3, e4, e5, e6⟩ := e
  exact ⟨by simpa only [State.Canonical, e2, e3, e4, e5, e6] using h.1, e1.trans h.2.1, nofun, nofun⟩

/-- An update of the tables that keeps their form, and leaves the part, the groups and the posted writes alone. -/
theorem of_canonical (h : s₀.Keeps rg fl s) (hc : s.Canonical → t.Canonical) (hp : t.part = s.part) (hg : t.groups = s.groups)
    (hq : t.posted = s.posted) : s₀.Keeps rg fl t :=
  h.trans ⟨hc, hp, fun _ _ _ => by rw [State.steady, State.group?, hg]; rfl, fun _ ha =>
    ⟨by rwa [State.allPerformed, hq], fun _ _ => by rw [State.flagsAt, State.group?, hg]; rfl⟩⟩

theorem foldl {α : Type} {g : State → α → State} {l : List α} (h : s₀.Keeps rg fl s) (hg : ∀ s x, s₀.Keeps rg fl s → s₀.Keeps rg fl (g s x)) :
    s₀.Keeps rg fl (l.foldl g s) := by
  induction l generalizing s with
  | nil => exact h
  | cons x xs ih => exact ih (hg _ _ h)

/-- A change of the groups that leaves each in its slot, its steady registers as they stand where these count, and its flags where those count. -/
theorem mapGroupsBut {F : Group → Group} (h : s₀.Keeps rg fl s) (hp : ∀ g, (F g).core = g.core ∧ (F g).slot = g.slot)
    (hs : rg = true → ∀ g, (F g).steady = g.steady) (hf : fl = true → ∀ g, (F g).flags = g.flags) :
    s₀.Keeps rg fl { s with groups := s.groups.map F } := by
  have hg : ∀ core slot, ({ s with groups := s.groups.map F } : State).group? core slot = (s.group? core slot).map F := fun core slot => by
    have hq : (fun g : Group => g.core == core && g.slot == slot) ∘ F = fun g => g.core == core && g.slot == slot :=
      funext fun g => by simp [(hp g).1, (hp g).2]
    simp only [State.group?, List.find?_map, hq]
  refine h.trans ⟨id, rfl, fun hr core slot => ?_, fun hr ha => ⟨ha, fun core slot => ?_⟩⟩
  · simp only [State.steady, hg, Option.map_map]
    exact congrFun (congrArg _ (funext (hs hr))) _
  · simp only [State.flagsAt, hg, Option.map_map]
    exact congrFun (congrArg _ (funext (hf hr))) _

/-- A change of the groups that leaves each as it stands. -/
theorem mapGroups {F : Group → Group} (h : s₀.Keeps rg fl s) (hF : ∀ g, (F g).Like g) :
    s₀.Keeps rg fl { s with groups := s.groups.map F } := by
  simp only [Group.like_iff] at hF
  exact h.mapGroupsBut (fun g => ⟨(hF g).1, (hF g).2.1⟩) (fun _ g => (hF g).2.2.1) fun _ g => (hF g).2.2.2

/-- A change of the groups in one slot that keeps them there, and that leaves the first of them as it stands where that counts. -/
theorem updFound {core slot : Nat} {F : Group → Group} (h : s₀.Keeps rg fl s)
    (hp : ∀ g, g.core = core → g.slot = slot → (F g).core = core ∧ (F g).slot = slot)
    (hs : rg = true → ∀ g, s.group? core slot = some g → (F g).steady = g.steady)
    (hf : fl = true → ∀ g, s.group? core slot = some g → (F g).flags = g.flags) : s₀.Keeps rg fl (s.updGroup core slot F) := by
  have hg : ∀ c k, (s.updGroup core slot F).group? c k = (s.group? c k).map (Group.inSlot core slot F) := fun c k => by
    have hq : (fun g : Group => g.core == c && g.slot == k) ∘ Group.inSlot core slot F = fun g => g.core == c && g.slot == k :=
      funext fun g => by
        simp only [Function.comp, Group.inSlot]
        split
        · next hc => obtain ⟨rfl, rfl⟩ := hc; simp [(hp g rfl rfl).1, (hp g rfl rfl).2]
        · rfl
    show (s.groups.map (Group.inSlot core slot F)).find? _ = _
    rw [List.find?_map, hq, State.group?]
  have hG : ∀ {α : Type} (u : Group → α), (∀ g, s.group? core slot = some g → u (F g) = u g) →
      ∀ c k, ((s.updGroup core slot F).group? c k).map u = (s.group? c k).map u := fun u hu c k => by
    rw [hg, Option.map_map]
    refine Option.map_congr fun g hk => ?_
    obtain ⟨rfl, rfl⟩ := s.group?_place hk
    simp only [Function.comp, Group.inSlot]
    split
    · next hc => obtain ⟨rfl, rfl⟩ := hc; exact hu g hk
    · rfl
  exact h.trans ⟨id, rfl, fun hr => hG _ (hs hr), fun hr ha => ⟨ha, hG _ (hf hr)⟩⟩

/-- A change of the groups in one slot that leaves each as it stands. -/
theorem updLike {core slot : Nat} {F : Group → Group} (h : s₀.Keeps rg fl s) (hF : ∀ g, (F g).Like g) :
    s₀.Keeps rg fl (s.updGroup core slot F) :=
  h.mapGroups fun g => by split; exacts [hF g, .refl g]

/-! ### The registers, and the bytes, the tags and the poison of memory -/

theorem setReg {off : Nat} {x : Dword} (h : s₀.Keeps rg fl s) : s₀.Keeps rg fl (s.setReg off x) :=
  h.of_canonical (fun hc => hc.setReg off x) rfl rfl rfl

theorem setVfReg {vf off : Nat} {x : Dword} (h : s₀.Keeps rg fl s) : s₀.Keeps rg fl (s.setVfReg vf off x) := h.setReg

theorem vfErr {vf b : Nat} (h : s₀.Keeps rg fl s) : s₀.Keeps rg fl (s.vfErr vf b) := h.setReg

theorem setBit {off n : Nat} {b : Bool} (h : s₀.Keeps rg fl s) : s₀.Keeps rg fl (s.setBit off n b) := h.setReg

theorem setCxReg {vf ctx off : Nat} {x : Dword} (h : s₀.Keeps rg fl s) : s₀.Keeps rg fl (s.setCxReg vf ctx off x) :=
  h.of_canonical (fun hc => hc.setCxReg vf ctx off x) rfl rfl rfl

theorem withMem {m : Memory} (h : s₀.Keeps rg fl s) (hm : s.mem.wf → m.wf) : s₀.Keeps rg fl { s with mem := m } :=
  h.of_canonical (fun hc => hc.withMem (hm hc.1)) rfl rfl rfl

/-- A write performed to watched bytes ends demotions, and nothing else of a group (R88). -/
theorem wake {pa n : Nat} (h : s₀.Keeps rg fl s) : s₀.Keeps rg fl (s.wake pa n) :=
  h.mapGroups fun g => Group.wake_like _ g

theorem storeLE {pa n x : Nat} (h : s₀.Keeps rg fl s) : s₀.Keeps rg fl (s.storeLE pa n x) :=
  (h.withMem fun hm => wf_writeLE hm pa n x).wake

theorem storeBytes {pa : Nat} {bs : List Byte} (h : s₀.Keeps rg fl s) : s₀.Keeps rg fl (s.storeBytes pa bs) :=
  (h.withMem fun hm => wf_writeBytes hm pa bs).wake

theorem setTag {k : Nat} {x : BitVec 4} (h : s₀.Keeps rg fl s) : s₀.Keeps rg fl (s.setTag k x) :=
  (h.of_canonical (t := { s with tags := s.tags.put k x }) (fun hc => hc.withTags (Sparse.wf_put hc.2.1 k x)) rfl rfl rfl).wake

theorem unpoison {pa n : Nat} (h : s₀.Keeps rg fl s) : s₀.Keeps rg fl (s.unpoison pa n) :=
  h.of_canonical (fun hc => hc.unpoison pa n) rfl rfl rfl

theorem zeroMem {pa n : Nat} (h : s₀.Keeps rg fl s) : s₀.Keeps rg fl (s.zeroMem pa n) :=
  h.of_canonical (fun hc => hc.zeroMem pa n) rfl rfl rfl

/-! ### The lists of groups, workgroups, regions and engines -/

theorem updGroup {core slot : Nat} {F : Group → Group} (h : s₀.Sound s) : s₀.Sound (s.updGroup core slot F) := h.of_tables rfl

theorem updWg {id : Nat} {F : Workgroup → Workgroup} (h : s₀.Keeps rg fl s) : s₀.Keeps rg fl (s.updWg id F) := h.congr rfl

theorem updRegion {vf rcb : Nat} {F : Region → Region} (h : s₀.Keeps rg fl s) : s₀.Keeps rg fl (s.updRegion vf rcb F) := h.congr rfl

theorem putEngine {e : Engine} (h : s₀.Keeps rg fl s) : s₀.Keeps rg fl (s.putEngine e) := h.congr rfl

theorem updSavedGroups {P : Group → Bool} {F : Group → Group} (h : s₀.Keeps rg fl s) : s₀.Keeps rg fl (s.updSavedGroups P F) := h.congr rfl

theorem toOwner {core slot start : Nat} {F : Group → Group} (h : s₀.Sound s) : s₀.Sound (s.toOwner core slot start F) := h.of_tables rfl

/-- A change of the owner of an asynchronous effect that leaves it as it stands. -/
theorem toOwnerLike {core slot start : Nat} {F : Group → Group} (h : s₀.Keeps rg fl s) (hF : ∀ g, (F g).Like g) :
    s₀.Keeps rg fl (s.toOwner core slot start F) :=
  updSavedGroups (h.mapGroups fun g => by split; exacts [hF g, .refl g])

end State.Keeps
end Sys2Proof.Machine
end

section
/-! SUPPORT. What a retirement keeps, update by update: the tables, the registers of the groups, and their flags (R10, R78). -/

namespace Sys2Proof.Machine
namespace State.Keeps

variable {rg fl : Bool} {s₀ s t : State} {vf ctx va gpa pa n v off core slot start id k p rcb func : Nat} {w : Workgroup} {r : Region}
  {is : Issue} {g : Group} {mask : Mask} {ac : Accessor} {addr : Dword} {cls : FaultClass}

/-! ### Memory and the free choices -/

theorem takeFree (h : s₀.Keeps rg fl s) : s₀.Keeps rg fl s.takeFree.2 := h.congr rfl

theorem flagsToOwner {x : BitVec 5} (h : s₀.Keeps rg false s) : s₀.Keeps rg false (s.flagsToOwner core slot start x) :=
  updSavedGroups (h.mapGroupsBut (fun g => by split <;> exact ⟨rfl, rfl⟩) (fun _ g => by split <;> rfl) nofun)

/-! ### Frames and the moves of pages -/

theorem dropPage {bits : Nat} (h : s₀.Keeps rg fl s) : s₀.Keeps rg fl (s.dropPage vf gpa bits) :=
  h.congr rfl

theorem startMove {l : Leaf} {dst : Nat} {up : Bool} (h : s₀.Keeps rg fl s) : s₀.Keeps rg fl (s.startMove vf ctx l dst up) :=
  dropPage ((h.withMem (m := setLeaf s.mem l.pa 2 l.frame) fun hm => wf_setLeaf hm _ _ _).congr rfl)

theorem freeVictim (h : s₀.Keeps rg fl s) : s₀.Keeps rg fl (s.freeVictim p) := by
  unfold State.freeVictim
  split
  · exact h
  · split
    · split
      exacts [h.startMove, h]
    · exact h

theorem startFill (h : s₀.Keeps rg fl s) : s₀.Keeps rg fl (s.startFill vf ctx gpa) := by
  unfold State.startFill
  split
  · split
    · exact h
    · split
      exacts [h.startMove, freeVictim (h.congr rfl)]
  · exact h

theorem hold (h : s₀.Keeps rg fl s) : s₀.Keeps rg fl (s.hold) :=
  h.congr rfl

theorem holdFill (h : s₀.Keeps rg fl s) : s₀.Keeps rg fl (s.holdFill vf ctx gpa) :=
  h.congr rfl

theorem markedPath {path : List Nat} (h : s₀.Keeps rg fl s) : s₀.Keeps rg fl { s with mem := markPath s.mem path } :=
  h.withMem (Sparse.wf_foldl _ (fun _ _ hm => wf_markEntry hm _ _) path)

theorem markedLeaves {path leaves : List Nat} (h : s₀.Keeps rg fl s) :
    s₀.Keeps rg fl { s with mem := markLeaves (markPath s.mem path) leaves } :=
  h.markedPath.withMem (Sparse.wf_foldl _ (fun _ _ hm => wf_markEntry hm _ _) leaves)

/-! ### Translation and the dirty log -/

theorem logDirty {gpage : Nat} (h : s₀.Keeps rg fl s) : s₀.Keeps rg fl (s.logDirty vf gpage) := by
  unfold State.logDirty
  split
  · exact h.hold
  · split
    · split
      split
      exacts [h.markedLeaves.storeLE.setVfReg, h.vfErr, h.holdFill, h.hold]
    · split
      exacts [h.vfErr, h]

theorem noteAccess {gpage : Option Nat} {path leaves : List Nat} {write : Bool} (h : s₀.Keeps rg fl s) :
    s₀.Keeps rg fl (s.noteAccess vf gpage path leaves write) := by
  cases write with
  | false => cases gpage <;> exact h.markedPath
  | true =>
    cases gpage with
    | none => exact h.markedLeaves
    | some g => exact h.markedLeaves.logDirty

theorem noteWrite {n : Note} (h : s₀.Keeps rg fl s) : s₀.Keeps rg fl (s.noteWrite vf pa n) := by
  unfold State.noteWrite
  split
  · exact h
  · split
    exacts [h.hold, h.noteAccess]

theorem fillTlb (h : s₀.Keeps rg fl s) : s₀.Keeps rg fl (s.fillTlb vf ctx va) := by
  unfold State.fillTlb
  split
  · exact h
  · split
    exacts [h, h.congr rfl]

/-! ### Groups and latch words -/

theorem clearMarks (h : s₀.Keeps rg fl s) : s₀.Keeps rg fl (s.clearMarks pa) :=
  (h.mapGroups (F := fun g => { g with arrived := g.arrived.filter (fun p => p.1 != pa) }) fun _ => rfl).congr rfl

theorem barStep {f : BarFields → BarFields} (h : s₀.Keeps rg fl s) : s₀.Keeps rg fl (s.barStep pa f) := by
  unfold State.barStep
  dsimp only
  split
  · exact h
  · split
    exacts [h.storeBytes.clearMarks, h.storeBytes]

theorem serveCopies (h : s₀.Keeps rg fl s) : s₀.Keeps rg fl (s.serveCopies id) :=
  h.updWg

theorem updLatch {n : Note} {f : LatchWord → LatchWord} (h : s₀.Keeps rg fl s) : s₀.Keeps rg fl (s.updLatch vf pa n f) :=
  h.storeLE.noteWrite

theorem setWaiters {ws : List Waiter} (h : s₀.Keeps rg fl s) : s₀.Keeps rg fl (s.setWaiters pa ws) :=
  h.congr rfl

theorem leaveLatch {w : Waiter} (h : s₀.Keeps rg fl s) : s₀.Keeps rg fl (s.leaveLatch pa w) := by
  unfold State.leaveLatch
  split
  exacts [h.setWaiters.updLatch, h]

theorem clearHold {excl : Bool} {n : Note} (h : s₀.Keeps rg fl s) : s₀.Keeps rg fl (s.clearHold vf pa excl n) :=
  h.updLatch

/-! ### Regions -/

theorem visit (h : s₀.Keeps rg fl s) : s₀.Keeps rg fl (s.visit vf ctx va) := by
  unfold State.visit
  split
  exacts [h.noteAccess.fillTlb, h.hold, h.holdFill, h]

theorem fillPages {vas : List Nat} (h : s₀.Keeps rg fl s) : s₀.Keeps rg fl (s.fillPages vf ctx vas) := by
  unfold State.fillPages
  refine h.foldl fun s x h => ?_
  split
  exacts [h.startFill, h]

theorem devWrite (h : s₀.Keeps rg fl s) : s₀.Keeps rg fl (s.devWrite vf ctx va n v) := by
  unfold State.devWrite
  split
  exacts [h.storeLE.noteAccess, h.hold, h.holdFill, h]

theorem devWriteBytes {bs : List Byte} (h : s₀.Keeps rg fl s) : s₀.Keeps rg fl (s.devWriteBytes vf ctx va bs) :=
  h.foldl fun _ _ h => h.devWrite

theorem gpaWrite (h : s₀.Keeps rg fl s) : s₀.Keeps rg fl (s.gpaWrite vf gpa n v) := by
  unfold State.gpaWrite
  split
  exacts [h.storeLE.noteAccess, h.holdFill, h, h.hold]

theorem gpaVisit (h : s₀.Keeps rg fl s) : s₀.Keeps rg fl (s.gpaVisit vf gpa) := by
  unfold State.gpaVisit
  split
  exacts [h.noteAccess, h.holdFill, h, h.hold]

theorem gpaWriteBytes {bs : List Byte} (h : s₀.Keeps rg fl s) : s₀.Keeps rg fl (s.gpaWriteBytes vf gpa bs) :=
  h.foldl fun _ _ h => h.gpaWrite

theorem writeRcbState {st : Nat} {fcode : Nat} (h : s₀.Keeps rg fl s) : s₀.Keeps rg fl (s.writeRcbState r st fcode) :=
  h.devWrite

theorem setRegionState {st : Nat} (h : s₀.Keeps rg fl s) : s₀.Keeps rg fl (s.setRegionState r st) :=
  h.updRegion.writeRcbState

theorem discardShadows {h' : Hold} (h : s₀.Keeps rg fl s) : s₀.Keeps rg fl (s.discardShadows vf ctx h') :=
  h.congr rfl

theorem dropRegionLatch (h : s₀.Keeps rg fl s) : s₀.Keeps rg fl (s.dropRegionLatch r) := by
  unfold State.dropRegionLatch
  split
  exacts [h.clearHold, h.leaveLatch, h]

theorem decSignal (h : s₀.Keeps rg fl s) : s₀.Keeps rg fl (s.decSignal r) := by
  unfold State.decSignal
  dsimp only
  split
  · exact h
  · split
    exacts [h.devWrite, h]

theorem completeRegion (h : s₀.Keeps rg fl s) : s₀.Keeps rg fl (s.completeRegion r) :=
  h.devWrite.devWrite.setRegionState.dropRegionLatch.updRegion.decSignal.congr rfl

theorem onRegion {F : State → State} (h : s₀.Keeps rg fl s) (hF : ∀ s, s₀.Keeps rg fl s → s₀.Keeps rg fl (F s)) :
    s₀.Keeps rg fl (s.onRegion r F) := by
  unfold State.onRegion
  split
  exacts [h.fillPages, hF _ (h.foldl fun _ _ h => h.visit)]

theorem tryComplete (h : s₀.Keeps rg fl s) : s₀.Keeps rg fl (s.tryComplete vf rcb) := by
  unfold State.tryComplete
  split
  · split
    exacts [h.onRegion fun _ h => h.completeRegion, h]
  · exact h

/-! ### Recorded accesses, posted writes and the end of lanes -/

theorem logReplay {e : ReplayEntry} (h : s₀.Keeps rg fl s) : s₀.Keeps rg fl (s.logReplay vf e) := by
  unfold State.logReplay
  split
  exact h.gpaWriteBytes.setVfReg

theorem recordTouches {ts : List Touch} (h : s₀.Keeps rg fl s) : s₀.Keeps rg fl (s.recordTouches ac ts) := by
  unfold State.recordTouches
  split
  exacts [h.foldl fun _ _ h => h.logReplay, h]

theorem visitReplay {r : Nat} (h : s₀.Keeps rg fl s) : s₀.Keeps rg fl (s.visitReplay vf r k) := by
  unfold State.visitReplay
  split
  exact h.foldl fun _ _ h => h.gpaVisit

theorem setTurns {key : Nat} (h : s₀.Keeps rg fl s) : s₀.Keeps rg fl (s.setTurns key k) :=
  h.congr rfl

theorem haltAt (h : s₀.Keeps rg fl s) : s₀.Keeps rg fl (s.haltAt ac) :=
  h.congr rfl

theorem replayGate {key : Nat} {es : List ReplayEntry} (h : s₀.Keeps rg fl s) : (s.replayGate key vf ctx es).Keeps rg fl s₀ := by
  have h1 {rd b x k : Nat} : s₀.Keeps rg fl ((((s.visitReplay vf rd b).setVfReg vf 0x0B8 (BitVec.ofNat 64 x)).setTurns key k)) :=
    h.visitReplay.setVfReg.setTurns
  unfold State.replayGate
  split
  · dsimp only
    split
    · exact h.setTurns
    · split
      · trivial
      · split
        · exact h1
        · show s₀.Keeps rg fl (if _ then _ else _)
          split
          exacts [h, h1]
  · exact h

theorem logged {ts : List Touch} {F : State → State} (h : s₀.Keeps rg fl s) (hF : ∀ s, s₀.Keeps rg fl s → s₀.Keeps rg fl (F s)) :
    s₀.Keeps rg fl (s.logged ac ts F) := by
  unfold State.logged
  split
  · exact h.hold
  · split
    · next hg => exact hF _ (h.replayGate.go hg).recordTouches
    · exact h.hold
    · exact h.haltAt

theorem noteRecent {old : List Byte} (h : s₀.Keeps rg fl s) : s₀.Keeps rg fl (s.noteRecent start pa old) := by
  unfold State.noteRecent
  split
  exacts [h.congr rfl, h]

theorem applyPosted {p : Posted} (h : s₀.Keeps rg false s) : s₀.Keeps rg false (s.applyPosted p) := by
  unfold State.applyPosted
  split
  · exact h.storeBytes.noteRecent
  · exact h.storeLE.storeLE.noteRecent.noteRecent
  · refine (noteRecent ?_).flagsToOwner
    split
    exacts [h, h.storeLE]
  · exact h.foldl fun _ _ h => h.setTag
  · exact h.storeLE.noteRecent.flagsToOwner

/-- The flags of the groups do not count: a posted reduction raises them, and it is one posted write less that is left to perform. -/
theorem performNow {p : Posted} (h : s₀.Keeps rg false s) : s₀.Keeps rg false (s.performNow p) := by
  obtain ⟨hc, hp, hs, -⟩ := h.applyPosted (p := p).foldl (l := p.eff.ranges.zip p.notes) (g := fun s x => s.noteWrite p.vf x.1.1 x.2)
    fun _ _ h => h.noteWrite
  exact ⟨hc, hp, hs, nofun⟩

theorem postedGate {p : Posted} (h : s₀.Keeps rg fl s) : (s.postedGate p).Keeps rg fl s₀ := by
  unfold State.postedGate
  split
  · exact h
  · split
    · next hg => exact (h.replayGate.go hg).recordTouches
    · exact h.replayGate

theorem performPosted {p : Posted} (h : s₀.Keeps rg false s) : s₀.Keeps rg false (s.performPosted p) := by
  unfold State.performPosted
  split
  · exact h
  · split
    · next hg => exact (h.postedGate.go hg).performNow
    · exact h.hold
    · exact h.haltAt

theorem flushWhere {P : Posted → Bool} (h : s₀.Keeps rg fl s) : s₀.Keeps rg fl (s.flushWhere P) := by
  have h0 : s.Keeps rg false (s.flushWhere P) := (refl s).foldl fun _ _ h => h.performPosted
  exact h.trans ⟨h0.1, h0.2.1, h0.2.2.1, fun _ ha => by rw [State.flushWhere_of_allPerformed ha]; exact ⟨ha, fun _ _ => rfl⟩⟩

theorem arriveLanes (h : s₀.Keeps rg fl s) : s₀.Keeps rg fl (s.arriveLanes g w mask) := by
  unfold State.arriveLanes
  refine State.Keeps.updWg ?_
  refine h.foldl fun s x h => ?_
  dsimp only
  split
  exacts [h, h.logged fun _ h => h.barStep]

theorem arriveWorkgroup (h : s₀.Keeps rg fl s) : s₀.Keeps rg fl (s.arriveWorkgroup w ac) :=
  h.foldl fun _ _ h => h.logged fun _ h => h.barStep

theorem dropWorkgroup (h : s₀.Keeps rg fl s) : s₀.Keeps rg fl (s.dropWorkgroup w ac) := by
  unfold State.dropWorkgroup
  split
  exacts [h.flushWhere.arriveWorkgroup, h]

theorem dropLanes (h : s₀.Keeps rg fl s) : s₀.Keeps rg fl (s.dropLanes g w mask) := by
  unfold State.dropLanes
  split
  exacts [h.flushWhere.arriveLanes, h]

theorem arriveFor {k : Mask} (h : s₀.Keeps rg fl s) : s₀.Keeps rg fl (s.arriveFor g k) := by
  unfold State.arriveFor
  dsimp only
  split
  · exact h
  · split
    exacts [h.dropLanes.dropWorkgroup, h.dropLanes]

theorem endLanes {k : Mask} (h : s₀.Keeps rg fl s) : s₀.Keeps rg fl (s.endLanes core slot k) :=
  h.updLike fun _ => Group.like_of_bank (Group.map_bank_mapLanes (by exact fun _ _ => rfl) _ _) rfl

theorem retireLanes (h : s₀.Keeps rg fl s) : s₀.Keeps rg fl (s.retireLanes core slot mask) := by
  unfold State.retireLanes
  dsimp only
  split
  · exact h
  · split
    exacts [h, h.endLanes.arriveFor]

theorem killLanes (h : s₀.Keeps rg fl s) : s₀.Keeps rg fl (s.killLanes core slot) := by
  unfold State.killLanes
  dsimp only
  split
  · exact h
  · split
    · exact h
    · split
      exacts [h.endLanes.updLike fun _ => rfl, h.endLanes.arriveFor]

theorem releaseHolds (h : s₀.Keeps rg fl s) : s₀.Keeps rg fl (s.releaseHolds g) := by
  unfold State.releaseHolds
  split
  exacts [h, h.foldl fun _ _ h => h.logged fun _ h => h.foldl fun _ _ h => h.clearHold]

/-! ### The sampler -/

theorem count {code : Nat} (h : s₀.Keeps rg fl s) : s₀.Keeps rg fl (s.count core vf ctx code n) := by
  unfold State.count
  split
  exacts [h.congr rfl, h]

theorem sampleRow {kind : Nat} {pos : Word} {data : List Byte} (h : s₀.Keeps rg fl s) : s₀.Keeps rg fl (s.sampleRow vf ctx kind pos data) := by
  unfold State.sampleRow
  dsimp only
  split
  exacts [h, h.gpaWriteBytes.setVfReg]

theorem putLfsr {x : Lfsr} (h : s₀.Keeps rg fl s) : s₀.Keeps rg fl (s.putLfsr x) :=
  h.congr rfl

theorem tagRow {depth level : Nat} {squashed faulted : Bool} (h : s₀.Keeps rg fl s) :
    s₀.Keeps rg fl (s.tagRow g w r depth func p level squashed faulted) := by
  have h1 : s₀.Keeps rg fl (s.updGroup g.core g.slot (fun g => { g with tagged := none })) := h.updLike fun _ => rfl
  unfold State.tagRow
  dsimp only
  split
  exacts [h1, h1.takeFree.takeFree.putLfsr.sampleRow]

theorem squashFrom {depth : Nat} {faulted : Bool} (h : s₀.Keeps rg fl s) : s₀.Keeps rg fl (s.squashFrom core slot depth func p faulted) := by
  unfold State.squashFrom
  dsimp only
  split
  · exact h
  · split
    · exact h
    · split
      · exact h
      · split
        · split
          exacts [h.count.tagRow, h.count]
        · exact h.count

theorem squash {faulted : Bool} (h : s₀.Keeps rg fl s) : s₀.Keeps rg fl (s.squash core slot faulted) := by
  unfold State.squash
  dsimp only
  split
  · exact h
  · split
    exacts [h, h.squashFrom]

/-! ### Fault records and policies -/

theorem awaitFault {f : TreeFault} (h : s₀.Keeps rg fl s) : s₀.Keeps rg fl (s.awaitFault vf ctx f) := by
  unfold State.awaitFault
  split
  exacts [h.visit, h]

theorem awaitChain (h : s₀.Keeps rg fl s) : s₀.Keeps rg fl (s.awaitChain w r func p) := by
  unfold State.awaitChain
  split
  · exact h.awaitFault
  · split
    · exact h.awaitFault
    · split
      exacts [h.awaitFault, h]

theorem ringWrite {e : Domain} {r : Rec} (h : s₀.Keeps rg fl s) : s₀.Keeps rg fl (s.ringWrite vf ctx e r) := by
  unfold State.ringWrite
  dsimp only
  split
  · split
    exacts [h.devWriteBytes.devWrite.congr rfl, h.devWriteBytes.devWrite]
  · exact h.devWrite

theorem writeRecord {d : Nat} {r : Rec} (h : s₀.Keeps rg fl s) : s₀.Keeps rg fl (s.writeRecord vf ctx d r) := by
  unfold State.writeRecord
  split
  exacts [h.ringWrite, h.vfErr]

theorem recordUntaken {f : FaultInfo} {taken : List Taker} {origin : Word} (h : s₀.Keeps rg fl s) :
    s₀.Keeps rg fl (s.recordUntaken r f taken func origin core slot) := by
  unfold State.recordUntaken
  split
  exacts [h.writeRecord, h]

theorem recordPending (h : s₀.Keeps rg fl s) : s₀.Keeps rg fl (s.recordPending r w) := by
  unfold State.recordPending
  refine State.Keeps.foldl ?_ fun s x h => ?_
  · refine State.Keeps.foldl ?_ fun s x h => ?_
    · refine h.foldl fun s x h => ?_
      split
      exacts [h.recordUntaken, h]
    · split
      exacts [h.recordUntaken, h]
  · exact h.recordUntaken

theorem killGroup (h : s₀.Keeps rg fl s) : s₀.Keeps rg fl (s.killGroup core slot) := by
  unfold State.killGroup
  dsimp only
  split
  exacts [h.squash, (h.squash.foldl fun _ _ h => h.leaveLatch.leaveLatch).killLanes.updLike fun _ => rfl]

theorem dropHolds {gs : List Group} (h : s₀.Keeps rg fl s) : s₀.Keeps rg fl (s.dropHolds r gs) :=
  h.foldl fun _ _ h => (h.flushWhere.releaseHolds.foldl fun _ _ h => h.discardShadows).toOwnerLike fun _ => rfl

theorem recordSlice (h : s₀.Keeps rg fl s) : s₀.Keeps rg fl (s.recordSlice g w r) := by
  unfold State.recordSlice
  dsimp only
  split
  exacts [h.awaitChain.writeRecord, h]

theorem discardSaved (h : s₀.Keeps rg fl s) : s₀.Keeps rg fl (s.discardSaved r w) :=
  (h.dropHolds.recordPending.foldl fun _ _ h => h.recordSlice).dropWorkgroup.congr rfl

theorem endOne (h : s₀.Keeps rg fl s) : s₀.Keeps rg fl (s.endOne r) := by
  unfold State.endOne
  dsimp only
  split
  exacts [h, (h.updRegion.dropHolds.foldl fun _ _ h => h.killGroup).foldl fun _ _ h => h.discardSaved]

theorem adoptLinks {p : Region} {stop : Nat} : ∀ {n link : Nat} {s : State}, s₀.Keeps rg fl s → s₀.Keeps rg fl (s.adoptLinks p stop n link)
  | 0, _, _, h => h
  | n + 1, _, _, h => by
    unfold State.adoptLinks
    dsimp only
    split
    · exact h
    · exact adoptLinks (writeRcbState (devWriteBytes (h.congr rfl)))

theorem adopt {p : Region} (h : s₀.Keeps rg fl s) : s₀.Keeps rg fl (s.adopt p) := by
  unfold State.adopt
  dsimp only
  split
  exacts [h, h.updRegion.adoptLinks]

theorem endSubtree (h : s₀.Keeps rg fl s) : s₀.Keeps rg fl (s.endSubtree vf rcb) := by
  unfold State.endSubtree
  dsimp only
  split
  exacts [h, ((h.foldl fun _ _ h => h.adopt).foldl fun _ _ h => h.endOne).foldl fun _ _ h => h.tryComplete]

theorem terminate (h : s₀.Keeps rg fl s) : s₀.Keeps rg fl (s.terminate r) :=
  h.endSubtree

theorem trapFrames {d : Delivery} {depth : Nat} {rc : Rec} (h : s₀.Keeps rg fl s) : s₀.Keeps rg fl (s.trapFrames g w r d depth rc) :=
  h.logged fun _ h => h.foldl fun _ _ h => h.storeBytes

theorem startEpisode {d : Delivery} {x : Nat} {rc : Rec} (h : s₀.Keeps rg fl s) : s₀.Keeps rg fl (s.startEpisode g w r d x rc) := by
  refine h.trapFrames.updLike fun g => ?_
  refine Group.Like.trans ?_ (Group.enterLoops_like d.lanes (startLoops (s.groupTrees w r) x (startParcel (s.groupTrees w r) x)) g)
  refine Group.like_of_bank (Group.map_bank_mapLanes (by exact fun _ _ => rfl) _ _) ?_
  simp [Group.like_iff, Group.steady, Group.enables, setTrap_enables]

theorem deliver {d : Delivery} (h : s₀.Keeps rg fl s) : s₀.Keeps rg fl (s.deliver core slot d) := by
  unfold State.deliver
  dsimp only
  split
  · exact h
  · split
    · exact h
    · split
      · exact h
      · split
        · exact h.awaitChain.count.writeRecord
        · split
          · split
            exacts [h.awaitChain.count.writeRecord, h.awaitChain.count.writeRecord.updLike fun _ => rfl]
          · split
            · split
              exacts [h.awaitChain.count.writeRecord.terminate, h.awaitChain.count.writeRecord]
            · split
              · exact h.awaitChain.count.writeRecord.updLike fun _ => rfl
              · split
                · split
                  exacts [h.awaitChain.count.startEpisode.ringWrite.visit, visit (h.awaitChain.count.writeRecord.updLike fun _ => rfl)]
                · exact h.awaitChain.count.writeRecord.terminate
                · exact h.awaitChain.count.writeRecord.updLike fun _ => rfl

theorem debugWrite {rc : Rec} (h : s₀.Keeps rg fl s) : s₀.Keeps rg fl (s.debugWrite r rc) := by
  unfold State.debugWrite
  dsimp only
  split
  · split
    exacts [h, h.gpaWriteBytes.setVfReg.congr rfl]
  · exact h.writeRecord

theorem debugStop {unit : Nat} {pos : Word} (h : s₀.Keeps rg fl s) : s₀.Keeps rg fl (s.debugStop core slot cls unit mask addr pos func) := by
  unfold State.debugStop
  dsimp only
  split
  · exact h.squash
  · split
    · exact h.squash
    · split
      · exact h.squash
      · exact h.squash.awaitChain.debugWrite.updLike fun g => by split <;> rfl

/-! ### The life of an operation -/

theorem treeFault {fs : List (Nat × TreeFault)} (h : s₀.Keeps rg fl s) : s₀.Keeps rg fl (s.treeFault core slot fs) := by
  unfold State.treeFault
  dsimp only
  split
  · exact h
  · split
    · exact h.squash
    · split
      · exact h.squash
      · split
        exacts [h.squash, h.squash.deliver]

theorem takeEdges : ∀ {n : Nat} {es : List (Nat × Edge)} {s : State}, s₀.Keeps rg fl s → s₀.Keeps rg fl (s.takeEdges core slot n es)
  | 0, _, _, h => h
  | _ + 1, [], _, h => h
  | n + 1, (L, x) :: rest, s, h => by
    unfold State.takeEdges
    dsimp only
    split
    · exact h
    · refine takeEdges ?_
      split
      exacts [h.debugStop, h.debugStop.updLike fun _ => rfl]

/-- The lanes that a group is given hold the registers that its lanes held, where these count. -/
theorem applySettled {a : Settled} {run : Mask} (h : s₀.Keeps rg fl s)
    (ha : rg = true → ∀ x, s.steady is.g.core is.g.slot = some x → a.lanes.map Lane.bank = x.1) : s₀.Keeps rg fl (s.applySettled is a run) := by
  have hl {s₁ : State} (h1 : s₁.Keeps rg fl s) : s₁.Keeps rg fl
      (s.logged (is.g.accessor is.w is.mask) (a.frames.flatMap (fun pa => touchesOf pa 8 1)) (fun s =>
        a.frames.foldl (fun s pa => s.storeBytes pa (readBytes a.m pa 8)) s)) :=
    h1.logged fun _ h => h.foldl fun _ _ h => h.storeBytes
  have h2 : s₀.Keeps rg fl ((s.logged (is.g.accessor is.w is.mask) (a.frames.flatMap (fun pa => touchesOf pa 8 1)) (fun s =>
        a.frames.foldl (fun s pa => s.storeBytes pa (readBytes a.m pa 8)) s)).updGroup is.g.core is.g.slot (fun g =>
      { g with lanes := a.lanes, run := run })) := by
    refine (hl h).updFound (fun _ hc hk => ⟨hc, hk⟩) (fun hr g hg => ?_) fun _ _ _ => rfl
    have hs := (hl (.refl s)).2.2.1 hr is.g.core is.g.slot
    rw [State.steady, hg] at hs
    have := ha hr _ hs.symm
    exact congrArg (·, g.steady.2) this
  unfold State.applySettled
  dsimp only
  split
  · exact h2
  · refine retireLanes ?_
    split
    exacts [h2.hold, h2.serveCopies]

theorem codeRead {pages : List Nat} {faults : List TreeFault} (h : s₀.Keeps rg fl s) : s₀.Keeps rg fl (s.codeRead w pages faults) :=
  (h.foldl fun _ _ h => h.visit).foldl fun _ _ h => h.awaitFault

theorem settle {active : Mask} {skip : List Skip} {k : Nat → LeaveKind} {run : Mask} (h : s₀.Keeps rg fl s)
    (hb : rg = true → ∀ x, s.steady is.g.core is.g.slot = some x → is.g.steady = x) :
    s₀.Keeps rg fl (s.settle is active mask skip k run).1 := by
  unfold State.settle
  split
  · exact h.awaitFault
  · exact (h.applySettled fun hr x hx => (Issue.settleLanes_bank ..).trans (congrArg Prod.fst (hb hr x hx))).codeRead

theorem afterSettle {a : Settled} (h : s₀.Keeps rg fl s) : s₀.Keeps rg fl (s.afterSettle is a) := by
  unfold State.afterSettle
  split
  exacts [h.treeFault, h.takeEdges]

/-- A group that takes the place of the group of an issue, and stands as that one does. -/
theorem replaced {g' : Group} (h : s₀.Keeps rg fl s) (hg : s.group? core slot = some g) (hL : g'.Like g) :
    s₀.Keeps rg fl (s.updGroup core slot (fun _ => g')) := by
  obtain ⟨hc, hk⟩ := s.group?_place hg
  obtain ⟨h1, h2, h3, h4⟩ := Group.like_iff.1 hL
  refine h.updFound (fun _ _ _ => ⟨h1.trans hc, h2.trans hk⟩) (fun _ g₁ e => ?_) (fun _ g₁ e => ?_) <;>
    obtain rfl := Option.some.inj (hg.symm.trans e)
  exacts [h3, h4]

theorem steady_replaced {g' : Group} {x} (hg : s.group? core slot = some g) (hL : g'.Like g)
    (hx : (s.updGroup core slot (fun _ => g')).steady g'.core g'.slot = some x) : g'.steady = x := by
  obtain ⟨hc, hk⟩ := s.group?_place hg
  obtain ⟨h1, h2, h3, -⟩ := Group.like_iff.1 hL
  have hs := ((refl (rg := true) (fl := true) s).replaced hg hL).2.2.1 rfl core slot
  rw [h1.trans hc, h2.trans hk, hs, State.steady, hg] at hx
  exact h3.trans (Option.some.inj hx)

theorem endEpisode (h : s₀.Keeps rg fl s) : s₀.Keeps rg fl (s.endEpisode core slot) := by
  unfold State.endEpisode
  dsimp only
  split
  · exact h
  · next is hi =>
    split
    · exact h
    · next ep _ =>
      split
      · exact h
      · have hg : s.group? core slot = some is.g := State.group?_of_issue? hi
        have hL := is.resumedGroup_like s ep
        have h1 : s₀.Keeps rg fl (s.updGroup core slot (fun _ => is.resumedGroup s ep)) := h.replaced hg hL
        split
        · split
          · exact afterSettle (h1.settle (is := { is with g := is.resumedGroup s ep, acc := false, mask := is.g.lifeMask .returned })
              fun _ _ hx => steady_replaced hg hL hx)
          · exact h1
        · exact h1.updLike fun g => g.parkFor_like _
        · exact h1.terminate
        · exact h1

theorem tagRetired {i : Instr} (h : s₀.Keeps rg fl s) : s₀.Keeps rg fl (s.tagRetired is i) := by
  unfold State.tagRetired
  dsimp only
  split
  exacts [h.tagRow, h]

theorem retireSlice {k : Nat → LeaveKind} (h : s₀.Keeps rg fl s) : s₀.Keeps rg fl (s.retireSlice is k) := by
  unfold State.retireSlice
  dsimp only
  split
  · exact h.awaitFault
  · next a t ha ht =>
    refine codeRead (h.updFound (fun _ hc hk => ⟨hc, hk⟩) (fun _ g hg => ?_) fun _ _ _ => rfl)
    rw [Issue.refresh_of_some hg] at ha
    replace ha : g.acc = some a := ha
    have hb : ∀ x : AccessSlice, x.lane.bank = a.lane.bank → Group.steady { g with acc := some x } = g.steady := fun x hx => by
      simp only [Group.steady, ha, Option.map_some]
      rw [show (x.lane.regs, x.lane.bad) = (a.lane.regs, a.lane.bad) from hx]
      rfl
    refine hb _ ?_
    split <;> exact settledLane_bank ..
  · exact h

theorem retireLeaf {i : Instr} {loud : Bool} {k : Nat → LeaveKind} (h : s₀.Keeps rg fl s) :
    s₀.Keeps rg fl (s.retireLeaf is i loud k).1 := by
  have hb : ∀ x, (s.tagRetired (is.refresh s) i).steady (is.refresh s).g.core (is.refresh s).g.slot = some x →
      (is.refresh s).g.steady = x := fun x hx => by
    rw [(refl (rg := true) (fl := true) s).tagRetired.2.2.1 rfl, (is.refresh_place s).1, (is.refresh_place s).2, State.steady] at hx
    obtain ⟨g, hg, rfl⟩ := Option.map_eq_some_iff.1 hx
    rw [Issue.refresh_of_some hg]
  have h1 {active mask skip run} : s₀.Keeps rg fl ((s.tagRetired (is.refresh s) i).settle (is.refresh s) active mask skip k run).1 :=
    h.tagRetired.settle fun _ => hb
  have h2 {F : Group → Group} {m run a b c d} (hF : ∀ g, (F g).Like g) :
      s₀.Keeps rg fl (((((s.tagRetired (is.refresh s) i).settle (is.refresh s) is.mask m [] k run).1.updGroup is.g.core is.g.slot F).count
        is.g.core is.w.vf is.w.ctx a b).count is.g.core is.w.vf is.w.ctx c d) := (h1.updLike hF).count.count
  unfold State.retireLeaf
  extract_lets is1 l0 next stays run
  clear_value next
  cases next with
  | none => exact h2 fun g => (Group.ranOthers_like ..).trans (Group.detect_like ..)
  | some p =>
    dsimp only
    split
    · exact squashFrom (h2 fun g => (Group.ranOthers_like ..).trans (Group.detect_like ..))
    · exact h2 fun g => (Group.ranOthers_like ..).trans (Group.detect_like ..)

theorem retire {i : Instr} {loud : Bool} {k : Nat → LeaveKind} (h : s₀.Keeps rg fl s) : s₀.Keeps rg fl (s.retire is i loud k) := by
  unfold State.retire
  split
  exacts [h.retireSlice, h.retireLeaf.afterSettle.endEpisode]

end State.Keeps

/-- Settles O25: each update that a retirement makes leaves the registers of the groups alone, and their flags where no posted write is left. -/
theorem retirementKeepsRegisters : Obligations.RetirementKeepsRegisters := by
  intro s is i loud k core slot
  obtain ⟨-, -, hsteady, hflags⟩ := (State.Keeps.refl (rg := true) (fl := true) s).retire (is := is) (i := i) (loud := loud) (k := k)
  exact ⟨hsteady rfl core slot, fun hp => (hflags rfl hp).2 core slot⟩

end Sys2Proof.Machine
end

section
/-! SUPPORT. What each step of the machine keeps: the canonical form of the tables, and the part (R402). -/

namespace Sys2Proof.Machine

/-! ## The states that a result carries -/

theorem Out.Sound.next {s₀ s : State} {o : Out} (h : Out.Sound s₀ o) (e : o = .next s) : s₀.Sound s := by
  subst e; exact h

theorem Effect.Sound.stay {s₀ s : State} {e : Effect} (h : e.Sound s₀) (he : e = .stay s) : s₀.Sound s := by
  subst he; exact h

theorem ChunkTurn.Sound.go {s₀ s : State} {t : ChunkTurn} {pl} (h : t.Sound s₀) (e : t = .go s pl) : s₀.Sound s := by
  subst e; exact h

theorem ChunkTurn.Sound.fail {s₀ s : State} {t : ChunkTurn} {x} (h : t.Sound s₀) (e : t = .fail s x) : s₀.Sound s := by
  subst e; exact h

theorem ChunkTurn.Sound.absent {s₀ s : State} {t : ChunkTurn} (h : t.Sound s₀) (e : t = .absent s) : s₀.Sound s := by
  subst e; exact h

theorem ChunkTurn.Sound.stay {s₀ s : State} {t : ChunkTurn} (h : t.Sound s₀) (e : t = .stay s) : s₀.Sound s := by
  subst e; exact h

theorem MergeGate.Sound.no {s₀ : State} {m : MergeGate} {x : Effect} (h : m.Sound s₀) (e : m = .no x) : x.Sound s₀ := by
  subst e; exact h

namespace State.Keeps

variable {s₀ s t : State} {vf ctx va gpa pa n v off core slot start id k p rcb func : Nat} {w : Workgroup} {r : Region}
  {is : Issue} {g : Group} {mask : Mask} {ac : Accessor} {addr : Dword} {cls : FaultClass}

/-- An update of the tables that keeps their form, and the part. -/
theorem of_wf (h : s₀.Sound s) (hc : s.Canonical → t.Canonical) (hp : t.part = s.part) : s₀.Sound t :=
  h.trans ⟨hc, hp, nofun, nofun⟩

/-! ### Memory and the free choices -/

theorem takeBit (h : s₀.Sound s) : s₀.Sound s.takeBit.2 := h.congr rfl

theorem ackToOwner (h : s₀.Sound s) : s₀.Sound (s.ackToOwner core slot start) :=
  h.toOwner

/-! ### Frames and the moves of pages -/

theorem serveFills (h : s₀.Sound s) : s₀.Sound (s.serveFills) :=
  h.foldl fun _ _ h1 => startFill (h1.congr rfl)

theorem orWait (h : s₀.Sound t) (h' : s₀.Sound s) : s₀.Sound (t.orWait s) := by
  cases hh : t.held with
  | false => rw [State.orWait_made hh]; exact h
  | true =>
    obtain e | ⟨_, _, _, _, e⟩ := State.orWait_waits (s := s) hh
    · rw [e]; exact h'
    · rw [e]; exact h'.startFill

/-! ### Groups and latch words -/

theorem joinLatch {w : Waiter} {n : Note} (h : s₀.Sound s) : s₀.Sound (s.joinLatch pa w n) :=
  h.setWaiters.updLatch

theorem grantTo {w : Waiter} (h : s₀.Sound s) : s₀.Sound (s.grantTo pa w) := by
  unfold State.grantTo
  extract_lets s0
  have h0 : s₀.Sound s0 := h.setWaiters
  split
  · exact h0.updLatch.updGroup
  · extract_lets s1
    have h1 : s₀.Sound s1 := h0.updLatch
    split
    exacts [h1.updRegion, h1.congr rfl]

/-! ### Regions -/

theorem settleRegion (h : s₀.Sound s) : s₀.Sound (s.settleRegion vf rcb) := by
  unfold State.settleRegion
  split
  · split
    exacts [h.onRegion fun _ h1 => h1.setRegionState, h]
  · exact h

/-! ### Recorded accesses, posted writes and the end of lanes -/

theorem performBefore {rs : List (Nat × Nat)} (h : s₀.Sound s) : s₀.Sound (s.performBefore core slot start n rs) :=
  h.foldl fun _ _ h1 => h1.performPosted

theorem performInOrder {p : Posted} (h : s₀.Sound s) : s₀.Sound (s.performInOrder p) :=
  h.performBefore.performPosted

theorem flushOwner (h : s₀.Sound s) : s₀.Sound (s.flushOwner core slot start pa n) :=
  h.performBefore

theorem payOwed (h : s₀.Sound s) : s₀.Sound (s.payOwed g) := by
  unfold State.payOwed
  split
  exacts [h, h.updGroup.arriveFor]

/-! ### The sampler -/

theorem countMacs (h : s₀.Sound s) : s₀.Sound (s.countMacs core vf ctx n) := by
  unfold State.countMacs
  dsimp only
  split
  exacts [count (h.congr rfl), h]

theorem countMiss (h : s₀.Sound s) : s₀.Sound (s.countMiss core vf ctx) := by
  unfold State.countMiss
  split
  exacts [h.takeBit.count, h]

theorem tagRun {run : Mask} (h : s₀.Sound s) : s₀.Sound (s.tagRun g w r run) := by
  unfold State.tagRun
  dsimp only
  split
  · exact h
  · split
    exacts [h, h.putLfsr.updGroup]

/-! ### Fault records and policies -/

theorem launchFault {d : Nat} (h : s₀.Sound s) : s₀.Sound (s.launchFault r d addr) :=
  h.writeRecord

theorem stopRecord (h : s₀.Sound s) : s₀.Sound (s.stopRecord ac) := by
  unfold State.stopRecord
  dsimp only
  split
  · exact h
  · refine debugWrite ?_
    split
    exacts [h.awaitChain, h]

theorem replayStop (h : s₀.Sound s) : s₀.Sound (s.replayStop ac) :=
  stopRecord (updSavedGroups (h.foldl fun _ _ h1 => h1.squash.updGroup))

/-! ### Registers -/

theorem writeLanes {f : Nat → Lane → Lane} (h : s₀.Sound s) : s₀.Sound (s.writeLanes is f) :=
  h.updGroup

/-! ### The life of an operation -/

theorem takeHit {h' : Hit} (h : s₀.Sound s) : s₀.Sound (s.takeHit is h') := by
  unfold State.takeHit
  dsimp only
  split
  exacts [h.updGroup, h.squash.updGroup.deliver]

theorem noteLoad (h : s₀.Sound s) : s₀.Sound (s.noteLoad is pa n) :=
  h.updGroup

theorem retireTrap {i : Instr} (h : s₀.Sound s) : s₀.Sound (s.retireTrap is i cls addr) := by
  unfold State.retireTrap
  dsimp only
  split
  exacts [h.retireLeaf.squash.updGroup.takeEdges.debugStop.endEpisode, h.retireLeaf.squash.updGroup.takeEdges.deliver.endEpisode]

theorem finish {i : Instr} {e : Effect} (h : s₀.Sound s) (he : e.Sound s₀) : s₀.Sound (s.finish is i e) := by
  cases e with
  | done s' loud => exact retire he
  | leave s' k => exact retire he
  | hit x => exact h.takeHit
  | taken s' x => exact takeHit he
  | trap s' c a => exact retireTrap he
  | watch us m a => exact h.debugStop.updGroup
  | wait s' x => exact updGroup he
  | queued s' x => exact updGroup he
  | stay s' => exact he

theorem runOp {i : Instr} {body : Issue → Effect} (h : s₀.Sound s) (hb : ∀ is, (body is).Sound s₀) : Out.Sound s₀ (Machine.runOp i s body) := by
  unfold Machine.runOp
  split
  · trivial
  · split
    exacts [h.takeHit, h.finish (hb _)]

/-! ### Flags -/

theorem raise {fl' : BitVec 5} (h : s₀.Sound s) : s₀.Sound (s.raise is fl') :=
  h.updGroup

theorem numeric {ty : Ty} {dest : Nat} {f : Nat → LaneRes} (h : s₀.Sound s) : Effect.Sound s₀ (Issue.numeric is s ty dest f) := by
  unfold Issue.numeric
  split
  exacts [trivial, h.writeLanes.raise]

theorem writes {ty : Ty} {dest : Nat} {f : Nat → Dword} (h : s₀.Sound s) : Effect.Sound s₀ (Issue.writes is s ty dest f) :=
  h.writeLanes

theorem writesWord {dest : Nat} {f : Nat → Word} (h : s₀.Sound s) : Effect.Sound s₀ (Issue.writesWord is s dest f) :=
  h.writeLanes

/-! ### Grants, gates and the accesses of an operation -/

theorem grantGate {w : Waiter} (h : s₀.Sound s) : (s.grantGate w).Keeps false false s₀ := by
  unfold State.grantGate
  split
  · exact h
  · split
    · split
      split
      exacts [h, h.logReplay]
    · exact h.replayGate

theorem grant {m : Nat} (h : s₀.Sound s) : s₀.Sound (s.grant pa m) := by
  induction m generalizing s with
  | zero => exact h
  | succ m ih =>
    rw [State.grant]
    split
    · exact h
    · split
      · split
        exacts [ih (h.grantGate.go ‹_›).grantTo, h]
      · exact h

theorem grantAll (h : s₀.Sound s) : s₀.Sound (s.grantAll pa) :=
  h.grant

theorem releaseGate {release : Bool} {scope : Scope} {e : Effect} (h : s₀.Sound s) (he : is.releaseGate s release scope = some e) :
    e.Sound s₀ := by
  unfold Issue.releaseGate at he
  dsimp only at he
  split at he
  · cases he
  · split at he
    · cases he; trivial
    · split at he
      · cases he; exact h
      · cases he

theorem inTurn {es : List ReplayEntry} {h' : Hit} (h : s₀.Sound s) : Effect.Sound s₀ (Issue.inTurn is s es h') := by
  unfold Issue.inTurn
  split
  · trivial
  · split
    exacts [trivial, Gate.Keeps.stay h.replayGate ‹_›]
  · exact h.replayStop

theorem watched {rs : List WatchRange} {es : List ReplayEntry} {body : State → Effect} (h : s₀.Sound s)
    (hb : ∀ s, s₀.Sound s → (body s).Sound s₀) : (is.watched s rs es body).Sound s₀ := by
  have hg := h.replayGate (key := is.accessor.key) (vf := is.w.vf) (ctx := is.w.ctx) (es := es)
  unfold Issue.watched
  split
  · exact h.replayStop
  · split
    · trivial
    · split
      · exact hb _ (hg.go ‹_›)
      · split
        exacts [trivial, hg.stay ‹_›]
      · exact h

theorem reach {sps : List Spot} (h : s₀.Sound s) : s₀.Sound (s.reach is sps) :=
  h.updGroup

theorem flushOwn (h : s₀.Sound s) : s₀.Sound (s.flushOwn is pa n) :=
  h.flushOwner

theorem flushSpots {sps : List Spot} (h : s₀.Sound s) : s₀.Sound (s.flushSpots is sps) :=
  h.foldl fun _ _ h1 => h1.flushOwn

theorem accessWith {more : List Touch} {ws : List WatchRange} {qs : List Req} {release : Bool} {scope : Scope} {body : State → List Spot → Effect}
    (h : s₀.Sound s) (hb : ∀ s sps, s₀.Sound s → (body s sps).Sound s₀) : (is.accessWith s more ws qs release scope body).Sound s₀ := by
  unfold Issue.accessWith
  split
  · exact h
  · split
    · exact h.inTurn
    · exact h
    · exact h
    · exact h.holdFill
    · split
      · exact h.releaseGate ‹_›
      · dsimp only
        split
        · exact h
        · refine h.flushSpots.watched fun s' h' => ?_
          split
          · exact hb _ _ h'.recordTouches.reach
          · split
            exacts [h, hb _ _ h.flushSpots.reach]

theorem accessOn {ws : List WatchRange} {qs : List Req} {release : Bool} {scope : Scope} {body : State → List Spot → Effect}
    (h : s₀.Sound s) (hb : ∀ s sps, s₀.Sound s → (body s sps).Sound s₀) : (is.accessOn s ws qs release scope body).Sound s₀ :=
  h.accessWith hb

theorem access {qs : List Req} {release : Bool} {scope : Scope} {body : State → List Spot → Effect}
    (h : s₀.Sound s) (hb : ∀ s sps, s₀.Sound s → (body s sps).Sound s₀) : (is.access s qs release scope body).Sound s₀ :=
  h.accessOn hb

theorem whole {e : Effect} (he : e.Sound s₀) : (is.whole e).Sound s₀ := by
  unfold Issue.whole
  split
  exacts [trivial, he]

theorem post {eff : PostedEffect} {notes : List Note} {performed : Bool} (h : s₀.Sound s) : s₀.Sound (s.post is eff notes performed) := by
  unfold State.post
  dsimp only
  split
  exacts [updGroup (h.of_tables rfl), h.of_tables rfl]

theorem writeOut {sps : List Spot} {eff : PostedEffect} (h : s₀.Sound s) : s₀.Sound (s.writeOut is sps eff) := by
  unfold State.writeOut
  dsimp only
  split
  exacts [h.post, h.applyPosted]

theorem noteSpot {sp : Spot} (h : s₀.Sound s) : s₀.Sound (s.noteSpot is sp) := by
  unfold State.noteSpot
  dsimp only
  split
  exacts [h.noteAccess.fillTlb, h.noteAccess]

theorem countLoads {sps : List Spot} (h : s₀.Sound s) : s₀.Sound (s.countLoads is sps) := by
  unfold State.countLoads
  refine foldl h fun s1 sp h1 => ?_
  split
  · exact h1
  · split <;> exact h1.count

/-! ### Loads and stores -/

theorem noteLoads {sps : List Spot} (h : s₀.Sound s) : s₀.Sound (s.noteLoads is sps) :=
  countLoads (h.foldl fun _ _ h1 => h1.noteLoad)

theorem loadedAt (h : s₀.Sound s) : s₀.Sound (s.loadedAt is pa n).2 := by
  unfold State.loadedAt
  dsimp only
  split
  exacts [h, h.updGroup]

theorem readHere (h : s₀.Sound s) : s₀.Sound (s.readHere is pa n) := by
  unfold State.readHere
  split
  exacts [h.updGroup, h]

theorem foldlFst {α β : Type} {F : State × β → α → State × β} {l : List α} {a : State × β} (h : s₀.Sound a.1)
    (hF : ∀ a x, s₀.Sound a.1 → s₀.Sound (F a x).1) : s₀.Sound (l.foldl F a).1 := by
  induction l generalizing a with
  | nil => exact h
  | cons x xs ih => exact ih (hF _ _ h)

theorem loadSpots {sps : List Spot} (h : s₀.Sound s) : s₀.Sound (s.loadSpots is sps k n).1 :=
  foldlFst h fun a _ ha => foldlFst (a := (a.1, [])) ha fun _ _ hb => hb.loadedAt

theorem execLd {f : Fields} (h : s₀.Sound s) : Out.Sound s₀ (Machine.execLd f s) :=
  h.runOp fun _ => h.access fun _ _ h1 => h1.loadSpots.writeLanes.noteLoads

theorem execLdX4 {f : Fields} (h : s₀.Sound s) : Out.Sound s₀ (Machine.execLdX4 f s) :=
  h.runOp fun _ => h.access fun _ _ h1 => h1.loadSpots.writeLanes.noteLoads

theorem storeLanes {sps : List Spot} {bytes : Nat → List Byte} (h : s₀.Sound s) : s₀.Sound (s.storeLanes is sps bytes) :=
  h.foldl fun _ _ h1 => h1.writeOut

theorem execSt {f : Fields} (h : s₀.Sound s) : Out.Sound s₀ (Machine.execSt f s) :=
  h.runOp fun _ => h.access fun _ _ h1 => h1.storeLanes

theorem execStX4 {f : Fields} (h : s₀.Sound s) : Out.Sound s₀ (Machine.execStX4 f s) :=
  h.runOp fun _ => h.access fun _ _ h1 => h1.storeLanes

/-! ### Atomics and reductions -/

theorem atomLane {f : Fields} {op : AtomOp} {v cmp : Nat → Nat} {a : AtomRun} {sp : Spot} (h : s₀.Sound a.s) :
    s₀.Sound (is.atomLane f op v cmp a sp).s := by
  unfold Issue.atomLane
  extract_lets n L s1 old r s2
  have h1 : s₀.Sound s1 := h.flushOwn
  have h2 : s₀.Sound s2 := by
    refine readHere ?_
    split
    exacts [h1, h1.storeLE.noteRecent]
  dsimp only
  split
  exacts [h2.post, h2]

theorem atomLanes {f : Fields} {op : AtomOp} {v cmp : Nat → Nat} {a : AtomRun} {sps : List Spot} (h : s₀.Sound a.s) :
    s₀.Sound (sps.foldl (is.atomLane f op v cmp) a).s := by
  induction sps generalizing a with
  | nil => exact h
  | cons sp sps ih => exact ih h.atomLane

theorem atomic {f : Fields} {op : AtomOp} {off : Issue → Nat → Int} {v cmp : Issue → Nat → Nat} (h : s₀.Sound s) :
    (Machine.atomic f op off v cmp s is).Sound s₀ := by
  refine h.access fun s' sps h' => ?_
  have ha := atomLanes (is := is) (f := f) (op := op) (v := v is) (cmp := cmp is) (sps := sps)
    (a := { s := s', olds := [], flags := [], changed := false }) h'
  dsimp only
  split
  exacts [trivial, ha.writeLanes.noteLoads.raise]

theorem atomicOff {f : Fields} {op : AtomOp} (h : s₀.Sound s) : Effect.Sound s₀ (Machine.atomicOff f op s is) :=
  h.atomic

theorem execAtomCas {f : Fields} (h : s₀.Sound s) : Out.Sound s₀ (Machine.execAtomCas f s) :=
  h.runOp fun _ => h.atomic

theorem shadowReduce {f : Fields} {op : AtomOp} {q : Quals} (h : s₀.Sound s) : Effect.Sound s₀ (Machine.shadowReduce f op q s is) := by
  unfold Machine.shadowReduce
  dsimp only
  split
  · trivial
  · split
    · split
      exacts [h.access fun _ _ h1 => h1.congr rfl, trivial]
    · exact h.access fun _ _ h1 => h1.congr rfl

theorem reduce {f : Fields} {op : AtomOp} (h : s₀.Sound s) : (Machine.reduce f op s is).Sound s₀ := by
  unfold Machine.reduce
  dsimp only
  split
  · exact h.shadowReduce
  · exact h.access fun s' _ h' => foldlFst (a := (s', false)) h' fun _ _ ha => ha.writeOut

/-! ### Fetching -/

theorem onCode {f : State → Out} (h : s₀.Sound s) (hf : ∀ s, s₀.Sound s → Out.Sound s₀ (f s)) : Out.Sound s₀ (s.onCode w r func p f) := by
  unfold State.onCode
  dsimp only
  split
  exacts [h.fillPages, hf _ (h.foldl fun _ _ h => h.visit)]

theorem issueAs {acc : Bool} (h : s₀.Sound s) : s₀.Sound (s.issueAs core slot acc mask) :=
  h.congr rfl

/-! ### The turns of asynchronous agents -/

theorem openPieces {o : Owner} {ps : List (Piece × Nat × Option Nat × List Nat × List Nat)} (h : s₀.Sound s) : s₀.Sound (s.openPieces o ps) := by
  unfold State.openPieces
  refine foldl h fun s1 x h1 => ?_
  dsimp only
  split
  exacts [h1.flushOwner.noteAccess.fillTlb, h1.flushOwner.noteAccess]

theorem writePieces {o : Owner} {ps : List (Piece × Nat × Option Nat × List Nat × List Nat)} {bytes : Nat → Byte} (h : s₀.Sound s) :
    s₀.Sound (s.writePieces o ps bytes) := by
  unfold State.writePieces
  refine foldl h fun s1 x h1 => ?_
  dsimp only
  split
  · split
    exacts [h1.storeBytes.unpoison, h1.storeBytes]
  · exact h1

theorem chunkTurnOn {o : Owner} {blimit : Nat} {counted : Option Nat} {guarded : Bool} {notag : Bool} {ps : List Piece} {seen : Piece → Bool} (h : s₀.Sound s) :
    (s.chunkTurnOn o blimit counted guarded notag ps seen).Sound s₀ := by
  unfold State.chunkTurnOn
  extract_lets s0
  have h0 : s₀.Sound s0 := h.congr rfl
  split
  · exact h
  · split
    · split
      · exact h0
      · split
        exacts [h0, Gate.Keeps.stay h0.replayGate ‹_›]
      · exact h0.replayStop
    · exact h0
    · exact h0.holdFill
    · split <;> exact h0
    · extract_lets mine ts
      split
      · exact h0
      · split
        exacts [(Gate.Keeps.go h0.replayGate ‹_›).recordTouches.openPieces, Gate.Keeps.stay h0.replayGate ‹_›, h0.replayStop]

theorem chunkTurn {o : Owner} {blimit : Nat} {counted : Option Nat} {guarded : Bool} {notag : Bool} {ps : List Piece} (h : s₀.Sound s) :
    (s.chunkTurn o blimit counted guarded notag ps).Sound s₀ :=
  h.chunkTurnOn

/-! ### Control operations -/

theorem leaveIf {taken : Nat → Bool} {k : LeaveKind} (h : s₀.Sound s) : Effect.Sound s₀ (Machine.leaveIf s taken k) :=
  h

theorem leaveLoops {taken : Nat → Bool} {k : LeaveKind} (h : s₀.Sound s) : Effect.Sound s₀ (Machine.leaveLoops s is n taken k) := by
  unfold Machine.leaveLoops
  split
  exacts [trivial, h.leaveIf]

theorem startGroup {grp : Nat} {arg : Nat → Word} (h : s₀.Sound s) : s₀.Sound (s.startGroup w r slot grp func arg) :=
  h.of_tables rfl

theorem spawnGroups {arg : Nat → Word} {m : Nat} (h : s₀.Sound s) : s₀.Sound (s.spawnGroups w r func arg m).1 := by
  induction m generalizing s with
  | zero => exact h
  | succ m ih =>
    rw [State.spawnGroups]
    split
    exacts [ih h.startGroup, h]

theorem execSpawn {f : Fields} (h : s₀.Sound s) : Out.Sound s₀ (Machine.execSpawn f s) := by
  unfold Machine.execSpawn
  refine h.runOp fun is => ?_
  dsimp only
  split
  · trivial
  · split
    · trivial
    · split
      exacts [h.visit, trivial]
    · exact h.flushWhere.visit.spawnGroups.writeLanes

theorem arbiterAcquire (h : s₀.Sound s) : s₀.Sound (s.arbiterAcquire pa vf rcb) :=
  h.joinLatch.grant

theorem linkChild {x : Nat} (h : s₀.Sound s) : s₀.Sound (s.linkChild r x) := by
  unfold State.linkChild
  dsimp only
  split
  exacts [h.devWrite.devWrite.devWrite.devWrite.arbiterAcquire, h.devWrite.devWrite.devWrite.devWrite]

theorem launchGate {e : Effect} (h : s₀.Sound s) (he : is.launchGate s = some e) : e.Sound s₀ := by
  unfold Issue.launchGate at he
  split at he
  · cases he; trivial
  · split at he
    · cases he; exact h
    · cases he

theorem execLaunch {f : Fields} (h : s₀.Sound s) : Out.Sound s₀ (Machine.execLaunch f s) := by
  unfold Machine.execLaunch
  refine h.runOp fun is => ?_
  dsimp only
  split
  · trivial
  · split
    · exact h.launchGate ‹_›
    · split
      exacts [h.linkChild, trivial, h.holdFill, h]

/-! ### Integer and conversion operations -/

theorem intElems {f : Fields} {r : Int → Int → Int → Int} (h : s₀.Sound s) : Effect.Sound s₀ (Machine.intElems f r s is) :=
  h.writes

theorem bitOp {f : Fields} {r : Dword → Dword → Dword} (h : s₀.Sound s) : Effect.Sound s₀ (Machine.bitOp f r s is) :=
  h.writes

theorem shiftOp {f : Fields} {r : Nat → Int → Int} (h : s₀.Sound s) : Effect.Sound s₀ (Machine.shiftOp f r s is) :=
  h.writes

theorem bitCount {f : Fields} {r : List Bool → Nat} (h : s₀.Sound s) : Effect.Sound s₀ (Machine.bitCount f r s is) :=
  h.writesWord

/-! ### Matrix operations -/

theorem tryFreeEngine (h : s₀.Sound s) : s₀.Sound (s.tryFreeEngine id) := by
  unfold State.tryFreeEngine
  dsimp only
  split
  · exact h
  · split
    exacts [h, updWg (h.foldl fun _ _ h1 => h1.putEngine)]

theorem grantEngine {m : Nat} (h : s₀.Sound s) : s₀.Sound (s.grantEngine w r m).1 := by
  unfold State.grantEngine
  dsimp only
  split
  · exact h
  · split
    · exact h.updWg
    · split
      · exact h
      · split
        exacts [h.putEngine.updWg, h]

theorem execMres {f : Fields} (h : s₀.Sound s) : Out.Sound s₀ (Machine.execMres f s) := by
  unfold Machine.execMres
  refine h.runOp fun is => ?_
  dsimp only
  split
  exacts [trivial, h.grantEngine.writeLanes]

theorem rerunXfers (h : s₀.Sound s) : s₀.Sound (Issue.rerunXfers is s) :=
  h.updWg

theorem xferGate {hold : Wait} {wide : Bool} {body : State → Effect} (h : s₀.Sound s) (hb : ∀ s, s₀.Sound s → (body s).Sound s₀) :
    (is.xferGate s hold wide body).Sound s₀ := by
  unfold Issue.xferGate
  dsimp only
  split
  · exact hb _ h.rerunXfers
  · split
    · exact h.rerunXfers
    · split
      exacts [h.rerunXfers.updWg, hb _ h.rerunXfers]

theorem execMrel {f : Fields} (h : s₀.Sound s) : Out.Sound s₀ (Machine.execMrel f s) := by
  unfold Machine.execMrel
  refine h.runOp fun is => ?_
  split
  exacts [trivial, h.xferGate fun _ h1 => h1.updWg.tryFreeEngine]

/-- The scales of a block are read from the bytes that its record and its range name (R353). -/
theorem readScales {e : State → Spot → Engine} {x : Dword} {m : Nat} {bad : Hit} (h : s₀.Sound s) :
    (is.whole (is.accessOn s [] [is.onceReq x 16 m] false .workgroup fun s2 sps2 =>
      match sps2.head? with
      | none => .hit bad
      | some sp2 => .done (s2.putEngine (e s2 sp2)) true)).Sound s₀ := by
  refine whole (h.accessOn fun s2 sps2 h2 => ?_)
  split
  exacts [trivial, h2.putEngine]

theorem execObres {f : Fields} (h : s₀.Sound s) : Out.Sound s₀ (Machine.execObres f s) := by
  unfold Machine.execObres
  refine h.runOp fun is => ?_
  extract_lets x base ext n bad
  have hbad {a} : (bad a).Sound s₀ := trivial
  split
  · exact hbad
  · extract_lets e
    split
    · exact hbad
    · split
      · exact hbad
      · split
        · exact hbad
        · refine whole (h.accessOn fun s1 sps h1 => ?_)
          split
          · exact hbad
          · split
            · exact hbad
            · split
              exacts [h, readScales h1]

theorem execObrel {f : Fields} (h : s₀.Sound s) : Out.Sound s₀ (Machine.execObrel f s) := by
  unfold Machine.execObrel
  refine h.runOp fun is => ?_
  dsimp only
  split
  · trivial
  · split
    · trivial
    · split
      exacts [h, h.putEngine.tryFreeEngine]

theorem tileTransfer {f : Fields} {store : Bool} (h : s₀.Sound s) : (Machine.tileTransfer f store s is).Sound s₀ := by
  unfold Machine.tileTransfer
  extract_lets x stride t q bad
  have hbad {a} : (bad a).Sound s₀ := trivial
  split
  · exact hbad
  · extract_lets e v d
    split
    · exact hbad
    · split
      · exact hbad
      · split
        · exact h.releaseGate ‹_›
        · refine h.watched fun s1 h1 => ?_
          extract_lets y s2
          have h2 : s₀.Sound s2 := by
            unfold s2
            split
            exacts [h1, h1.putEngine]
          exact updWg (h2.congr rfl)

theorem execTclr {f : Fields} (h : s₀.Sound s) : Out.Sound s₀ (Machine.execTclr f s) := by
  unfold Machine.execTclr
  refine h.runOp fun is => ?_
  dsimp only
  split
  · trivial
  · split
    exacts [trivial, h.updWg.putEngine]

theorem execMfenceOp {f : Fields} (h : s₀.Sound s) : Out.Sound s₀ (Machine.execMfenceOp f s) := by
  unfold Machine.execMfenceOp
  refine h.runOp fun is => ?_
  split
  exacts [trivial, h.xferGate fun _ h1 => h1]

theorem takeOpFault {o : MatOp} {x : FaultInfo} (h : s₀.Sound s) : Effect.Sound s₀ (Issue.takeOpFault is s o x) :=
  h.updWg

theorem launchBlock {en : Nat} {x : Dword} (h : s₀.Sound s) : Effect.Sound s₀ (Issue.launchBlock is s en x v) := by
  unfold Issue.launchBlock
  dsimp only
  split
  · trivial
  · split
    · trivial
    · split
      · split
        · split
          · exact h.takeOpFault
          · split
            exacts [h.updWg, h]
        · exact h
      · split
        exacts [h, h.watched fun _ h1 => updWg (h1.congr rfl)]

theorem execMlaunch {f : Fields} (h : s₀.Sound s) : Out.Sound s₀ (Machine.execMlaunch f s) := by
  unfold Machine.execMlaunch
  refine h.runOp fun is => ?_
  dsimp only
  split
  · trivial
  · split
    · trivial
    · refine whole ?_
      refine h.accessOn fun s1 sps h1 => ?_
      split
      exacts [trivial, h1.launchBlock]

theorem sweepWg (h : s₀.Sound s) : s₀.Sound (s.sweepWg id) := by
  unfold State.sweepWg
  dsimp only
  split
  · exact h.tryFreeEngine
  · split
    exacts [h.tryFreeEngine.congr rfl, h.tryFreeEngine]

theorem waitOps {a : Nat} {t : Nat} {hold : Wait} (h : s₀.Sound s) : Effect.Sound s₀ (Issue.waitOps is a t hold s) := by
  unfold Issue.waitOps
  dsimp only
  split
  · exact h
  · split
    · split
      exacts [h.takeOpFault, h]
    · split
      exacts [h.updWg.updWg.raise, h.updWg]

theorem execMwait {f : Fields} (h : s₀.Sound s) : Out.Sound s₀ (Machine.execMwait f s) := by
  unfold Machine.execMwait
  refine h.runOp fun is => ?_
  dsimp only
  split
  · trivial
  · split
    exacts [h.waitOps, h.xferGate fun _ h1 => h1.waitOps]

/-! ### Queues -/

theorem execQfeed {f : Fields} (h : s₀.Sound s) : Out.Sound s₀ (Machine.execQfeed f s) := by
  unfold Machine.execQfeed
  refine h.runOp fun is => ?_
  dsimp only
  split
  · trivial
  · split
    exacts [h, updGroup (h.congr rfl)]

theorem takeSlice {x : FaultInfo} (h : s₀.Sound s) : s₀.Sound (s.takeSlice is x) := by
  unfold State.takeSlice
  split
  exacts [h, h.squash.updGroup.deliver]

theorem pop {dest : Nat} {p : PopState} (h : s₀.Sound s) : Effect.Sound s₀ (Issue.pop is s dest p) := by
  unfold Issue.pop
  dsimp only
  split
  exacts [trivial, trivial, h, h.updGroup, h.updGroup, h.writeLanes.updGroup]

theorem execQpop {f : Fields} (h : s₀.Sound s) : Out.Sound s₀ (Machine.execQpop f s) := by
  unfold Machine.execQpop
  dsimp only
  split
  · trivial
  · split
    exacts [h.takeSlice, h.runOp fun _ => h.pop]

theorem endFeed {e : QEntry} {bytes : Sparse 8} {level : Nat} {x : Option FaultInfo} (h : s₀.Sound s) :
    s₀.Sound (s.endFeed core slot e bytes level x) :=
  h.updGroup

theorem runFeed {e : QEntry} (h : s₀.Sound s) : s₀.Sound (s.runFeed g w e) := by
  unfold State.runFeed
  dsimp only
  split
  · exact h.endFeed
  · split
    · exact (h.chunkTurn.go ‹_›).count.endFeed
    · exact (h.chunkTurn.fail ‹_›).endFeed
    · exact h.chunkTurn.absent ‹_›
    · exact h.chunkTurn.stay ‹_›

theorem execFeedComplete {entry : Nat} (h : s₀.Sound s) : Out.Sound s₀ (Machine.execFeedComplete core slot entry s) := by
  unfold Machine.execFeedComplete
  show s₀.Sound _
  split
  · exact h
  · split
    · split
      exacts [h, h.runFeed]
    · exact h

/-! ### Residency sets and the ends of moves -/

theorem startSlice (h : s₀.Sound s) : s₀.Sound (s.startSlice vf ctx) := by
  unfold State.startSlice
  split
  · exact h
  · exact of_wf h (fun hc => hc.withMem (Sparse.wf_foldl _ (fun _ _ hm => by split; exacts [wf_writeLE hm _ _ _, hm]) _ hc.1)) rfl

theorem engineWrite (h : s₀.Sound s) : s₀.Sound (s.engineWrite vf ctx va n v) := by
  unfold State.engineWrite
  split
  exacts [h.storeLE.noteAccess, h.hold, h.holdFill, h]

theorem endSlice (h : s₀.Sound s) : s₀.Sound (s.endSlice vf ctx) := by
  unfold State.endSlice
  dsimp only
  split
  · exact h.congr rfl
  · split
    exacts [vfErr (h.congr rfl), foldl (h.congr rfl) (fun _ _ h1 => h1.engineWrite)]

theorem copyPage {src dst : Nat} (h : s₀.Sound s) : s₀.Sound (s.copyPage src dst n) :=
  of_wf h (fun ⟨hm, ht, hp, hr⟩ => ⟨Sparse.wf_paste hm _ _ _, Sparse.wf_paste ht _ _ _, Sparse.wf_paste hp _ _ _, hr⟩) rfl

theorem learn {mv : PageMove} (h : s₀.Sound s) : s₀.Sound (s.learn mv) := by
  unfold State.learn
  dsimp only
  split <;> exact h.congr rfl

theorem follow {mv : PageMove} (h : s₀.Sound s) : s₀.Sound (s.follow mv) :=
  h.of_tables rfl

theorem endMove {mv : PageMove} (h : s₀.Sound s) : s₀.Sound (s.endMove mv) := by
  unfold State.endMove
  extract_lets n s1 s2 m m1 s3
  have h1 : s₀.Sound s1 := by
    unfold s1
    split
    exacts [h.copyPage, h]
  have h2 : s₀.Sound s2 := by
    unfold s2
    split
    exacts [h1, h1.zeroMem]
  have hm1 : s2.mem.wf → m1.wf := fun hm => by
    unfold m1
    split
    exacts [wf_writeLE (wf_setLeaf hm _ _ _) _ _ _, wf_setLeaf hm _ _ _]
  have h3 : s₀.Sound s3 := h2.of_wf (fun hc => hc.withMem (hm1 hc.1)) rfl
  exact h3.learn.follow.dropPage.serveFills

theorem outgoing {out : Nat} {inc : Nat} (h : s₀.Sound s) : s₀.Sound (s.outgoing vf out inc) :=
  h.congr rfl

/-! ### The readiness of regions -/

theorem enterRing {e : Nat} (h : s₀.Sound s) : s₀.Sound (s.enterRing r e) := by
  unfold State.enterRing
  split
  exacts [updRegion (h.congr rfl), h]

theorem writePrio (h : s₀.Sound s) : s₀.Sound (s.writePrio r) := by
  unfold State.writePrio
  dsimp only
  split
  exacts [h.enterRing.onRegion fun _ h1 => h1.devWrite, h.enterRing]

theorem writePrios (h : s₀.Sound s) : s₀.Sound (s.writePrios vf) :=
  h.foldl fun _ _ h1 => h1.writePrio

theorem launchFail {fcode : Nat} (h : s₀.Sound s) : s₀.Sound (s.launchFail r fcode) :=
  h.writeRcbState.writeRcbState.updRegion.dropRegionLatch.updRegion.decSignal.launchFault

theorem judgeNow (h : s₀.Sound s) : s₀.Sound (s.judgeNow r) := by
  unfold State.judgeNow
  dsimp only
  split
  · exact h.launchFail
  · split
    · exact h
    · split
      exacts [updRegion (h.setRegionState.congr rfl), h.setRegionState]

theorem rejudge (h : s₀.Sound s) : s₀.Sound (s.rejudge vf rcb) := by
  unfold State.rejudge
  split
  · exact h
  · split
    exacts [h, h.onRegion fun _ h1 => h1.judgeNow]

theorem rejudgeVf (h : s₀.Sound s) : s₀.Sound (s.rejudgeVf vf) :=
  writePrios (foldl (h.foldl fun _ _ h1 => h1.rejudge) (fun _ _ h1 => h1.settleRegion))

theorem rejudgeAll (h : s₀.Sound s) : s₀.Sound (s.rejudgeAll) :=
  h.foldl fun _ _ h1 => h1.rejudgeVf

/-! ### Bindings, latches, fences and barriers -/

theorem onLatch {more : List Touch} {x : Dword} {q : Req} {wr release : Bool} {scope : Scope} {body : State → Spot → Effect} (h : s₀.Sound s)
    (hb : ∀ s sp, s₀.Sound s → (body s sp).Sound s₀) : (is.onLatch s more x q wr release scope body).Sound s₀ := by
  refine whole (h.accessWith fun s1 sps h1 => ?_)
  split
  exacts [hb _ _ h1.noteSpot, trivial]

theorem execBind {f : Fields} (h : s₀.Sound s) : Out.Sound s₀ (Machine.execBind f s) := by
  unfold Machine.execBind
  refine h.runOp fun is => ?_
  dsimp only
  split
  · trivial
  · split
    · trivial
    · split
      exacts [trivial, h.onLatch fun _ _ h1 => h1.congr rfl]

theorem mergeGate {hs : List Shadow} (h : s₀.Sound s) : (Issue.mergeGate is s hs).Sound s₀ := by
  unfold Issue.mergeGate
  split
  · exact h
  · split
    · exact h
    · split
      exacts [h.holdFill, trivial, trivial]

theorem takeShadow {h' : Shadow} (h : s₀.Sound s) : s₀.Sound (s.takeShadow h') :=
  h.congr rfl

theorem mergeOne {x : Home} (h : s₀.Sound s) : s₀.Sound (s.mergeOne is x) :=
  h.flushOwn.noteAccess.storeLE.noteRecent.flagsToOwner.takeShadow

theorem merge {xs : List Home} (h : s₀.Sound s) : s₀.Sound (s.merge is xs) :=
  h.foldl fun _ _ h1 => h1.mergeOne

theorem oweMerge {xs : List Home} (h : s₀.Sound s) : s₀.Sound (s.oweMerge is xs) :=
  updGroup (h.foldl fun _ _ h => takeShadow (of_tables h.noteAccess rfl))

theorem endMerge {pa : Option Nat} {body : State → State} (h : s₀.Sound s) (hb : ∀ s, s₀.Sound s → s₀.Sound (body s)) :
    (is.endMerge s pa body).Sound s₀ := by
  have hg {es} := h.replayGate (key := is.accessor.key) (vf := is.w.vf) (ctx := is.w.ctx) (es := es)
  unfold Issue.endMerge
  extract_lets ts
  split
  · exact h
  · split
    · exact updGroup (hb _ (hg.go ‹_›).recordTouches)
    · exact hg.stay ‹_›
    · exact h.replayStop

theorem merging {rs : List WatchRange} {hs : List Shadow} {body : List Home → Effect} (h : s₀.Sound s) (hb : ∀ xs, (body xs).Sound s₀) :
    (is.merging s rs hs body).Sound s₀ := by
  unfold Issue.merging
  split
  · exact h.inTurn
  · exact h.mergeGate.no ‹_›
  · split
    · exact hb _
    · split
      exacts [trivial, h.oweMerge]

theorem execUnbind {f : Fields} (h : s₀.Sound s) : Out.Sound s₀ (Machine.execUnbind f s) := by
  unfold Machine.execUnbind
  refine h.runOp fun is => ?_
  extract_lets x
  split
  · extract_lets remove
    have hr : ∀ s, s₀.Sound s → s₀.Sound (remove s) := fun _ h => h.congr rfl
    split
    · exact h.endMerge hr
    · split
      · exact h.merging fun _ => h.onLatch fun _ _ h1 => hr _ h1.merge
      · exact h.onLatch fun _ _ h1 => h1
  · trivial

theorem granted (h : s₀.Sound s) : s₀.Sound (Issue.granted is s pa va) :=
  h.foldl fun _ _ h1 => h1.readHere

theorem join {sp : Spot} {x : Dword} {excl : Bool} (h : s₀.Sound s) : Effect.Sound s₀ (Issue.join is s sp x excl) := by
  unfold Issue.join
  dsimp only
  split
  · split
    exacts [h.updGroup.joinLatch.grantAll.granted, h.updGroup.joinLatch.grantAll]
  · exact h.updGroup.joinLatch.grantAll

theorem acquire {f : Fields} {excl : Bool} (h : s₀.Sound s) : Effect.Sound s₀ (Machine.acquire f excl s is) := by
  unfold Machine.acquire
  dsimp only
  split
  · exact h.granted
  · split
    · exact h
    · split
      · trivial
      · split
        · split
          · trivial
          · refine h.onLatch fun s1 sp h1 => ?_
            split
            exacts [h1.updLatch.updGroup.granted, h1.join]
        · split
          · trivial
          · refine h.onLatch fun s1 sp h1 => ?_
            split
            exacts [h1.updLatch.updGroup.granted, h1.join]

theorem execAcqX {f : Fields} (h : s₀.Sound s) : Out.Sound s₀ (Machine.execAcqX f s) :=
  h.runOp fun _ => h.acquire

theorem execAcqS {f : Fields} (h : s₀.Sound s) : Out.Sound s₀ (Machine.execAcqS f s) :=
  h.runOp fun _ => h.acquire

theorem giveUp {h' : Hold} {n : Note} (h : s₀.Sound s) : s₀.Sound (s.giveUp is h' pa n) :=
  h.clearHold.updGroup.grantAll

theorem execRel {f : Fields} (h : s₀.Sound s) : Out.Sound s₀ (Machine.execRel f s) := by
  unfold Machine.execRel
  refine h.runOp fun is => ?_
  extract_lets x sc
  split
  · split
    · exact h.endMerge fun _ h1 => h1.giveUp
    · split
      · exact h.merging fun _ => h.onLatch fun _ _ h1 => h1.merge.giveUp
      · exact h.onLatch fun _ _ h1 => h1
  · trivial

theorem execFence {f : Fields} (h : s₀.Sound s) : Out.Sound s₀ (Machine.execFence f s) := by
  unfold Machine.execFence
  refine h.runOp fun is => ?_
  split
  · exact h.releaseGate ‹_›
  · split <;> exact h

theorem execWsig {f : Fields} (h : s₀.Sound s) : Out.Sound s₀ (Machine.execWsig f s) := by
  unfold Machine.execWsig
  refine h.runOp fun is => ?_
  dsimp only
  split
  · split
    · trivial
    · refine h.access fun s1 sps h1 => ?_
      show s₀.Sound _
      refine foldl h1 fun s2 L h2 => ?_
      split
      exacts [h2.writeOut, h2]
  · refine h.access fun s1 sps h1 => ?_
    show s₀.Sound _
    refine foldl h1 fun s2 L h2 => ?_
    split
    exacts [h2.writeOut, h2]

theorem onBar {die : Bool} {kind : Nat} {x : Dword} {release : Bool} {body : State → Nat → Effect} (h : s₀.Sound s)
    (hb : ∀ s pa, s₀.Sound s → (body s pa).Sound s₀) : (is.onBar s die kind x release body).Sound s₀ := by
  unfold Issue.onBar
  split
  · trivial
  · refine whole (h.accessOn fun s1 sps h1 => ?_)
    split
    exacts [hb _ _ h1, trivial]

theorem execBarInit {f : Fields} (h : s₀.Sound s) : Out.Sound s₀ (Machine.execBarInit f s) := by
  unfold Machine.execBarInit
  refine h.runOp fun is => ?_
  refine h.onBar fun s1 pa h1 => ?_
  split
  · split
    · exact h1
    · split
      exacts [h1.updWg.clearMarks, trivial]
  · split
    exacts [trivial, h1.storeBytes.updWg.clearMarks]

theorem arriveOn {as : List Arrival} {b : Barrier} (h : s₀.Sound s) : s₀.Sound (s.arriveOn is as b) := by
  unfold State.arriveOn
  split
  split
  exacts [h, h.updGroup.barStep]

theorem execBarArrive {f : Fields} (h : s₀.Sound s) : Out.Sound s₀ (Machine.execBarArrive f s) := by
  unfold Machine.execBarArrive
  refine h.runOp fun is => ?_
  dsimp only
  split
  · exact h.inTurn
  · refine h.accessOn fun s1 sps h1 => ?_
    split
    exacts [trivial, h1.foldl fun _ _ h2 => h2.arriveOn]

theorem barWait {f : Fields} {die : Bool} {live : State → Nat → Bool} (h : s₀.Sound s) : (Machine.barWait f die live s is).Sound s₀ := by
  unfold Machine.barWait
  extract_lets x kind hold
  split
  · trivial
  · have hw : (is.onBar s die 0 x false (fun s1 pa =>
        if !live s1 pa then .hit (Hit.plain .operandExtent is.mask x)
        else if phasePassed (readBar s1.mem pa).phase (is.word f.a is.l0).toNat then .done s1 true
        else .wait s1 hold)).Sound s₀ := by
      refine h.onBar fun s1 pa h1 => ?_
      split
      · trivial
      · split <;> exact h1
    split
    · split <;> exact hw.stay ‹_›
    · exact hw

theorem execBarExpect {f : Fields} (h : s₀.Sound s) : Out.Sound s₀ (Machine.execBarExpect f s) := by
  unfold Machine.execBarExpect
  refine h.runOp fun is => ?_
  refine h.onBar fun s1 pa h1 => ?_
  split
  exacts [trivial, h1.barStep]

theorem unlink {p : BarFields → Bool} (h : s₀.Sound s) : s₀.Sound (s.unlink pa p) := by
  unfold State.unlink
  dsimp only
  split
  exacts [h.storeBytes, h]

theorem execBarLink {f : Fields} (h : s₀.Sound s) : Out.Sound s₀ (Machine.execBarLink f s) := by
  unfold Machine.execBarLink
  refine h.runOp fun is => ?_
  refine h.onBar fun s1 pa h1 => ?_
  dsimp only
  split
  · trivial
  · split
    · exact h1.unlink
    · split
      exacts [trivial, storeBytes (h1.foldl fun _ _ h2 => h2.unlink)]

theorem execDbarInit {f : Fields} (h : s₀.Sound s) : Out.Sound s₀ (Machine.execDbarInit f s) := by
  unfold Machine.execDbarInit
  refine h.runOp fun is => ?_
  refine h.onBar fun s1 pa h1 => ?_
  dsimp only
  split
  · split
    · exact h1
    · split
      exacts [h1.congr rfl, trivial]
  · split
    exacts [trivial, h1.storeBytes.congr rfl]

theorem execDbarArrive {f : Fields} (h : s₀.Sound s) : Out.Sound s₀ (Machine.execDbarArrive f s) := by
  unfold Machine.execDbarArrive
  refine h.runOp fun is => ?_
  refine h.onBar fun s1 pa h1 => ?_
  dsimp only
  split
  · trivial
  · split
    exacts [h1, barStep (h1.congr rfl)]

/-! ### Memory tags -/

theorem execStag {f : Fields} (h : s₀.Sound s) : Out.Sound s₀ (Machine.execStag f s) := by
  unfold Machine.execStag
  refine h.runOp fun is => ?_
  dsimp only
  split
  exacts [trivial, h.access fun _ _ h1 => foldl (h1.foldl fun _ _ h2 => h2.noteSpot) (fun _ _ h2 => h2.writeOut)]

theorem execLtag {f : Fields} (h : s₀.Sound s) : Out.Sound s₀ (Machine.execLtag f s) :=
  h.runOp fun _ => h.access fun _ _ h1 => writeLanes (h1.foldl fun _ _ h2 => h2.noteSpot)

/-! ### The events of groups, latches and posted writes -/

theorem demoteNow (h : s₀.Sound s) : s₀.Sound (s.demoteNow g) := by
  unfold State.demoteNow
  split
  · split
    exacts [h.updGroup.count, h]
  · exact h

theorem endYields (h : s₀.Sound s) : s₀.Sound (s.endYields core slot) :=
  h.of_tables rfl

theorem beginLanes {m : Mask} (h : s₀.Sound s) : s₀.Sound (s.beginLanes is m) := by
  unfold State.beginLanes
  split
  · exact h.awaitFault
  · split
    · exact h.awaitFault
    · split
      exacts [h.updGroup.codeRead, h.updGroup.treeFault.codeRead]

theorem dispatchRun {L : Nat} {run : Mask} (h : s₀.Sound s) : s₀.Sound (s.dispatchRun is L run) := by
  unfold State.dispatchRun
  extract_lets core slot waiting is1 src s1 s2
  split
  · exact h.beginLanes
  · split
    · exact endEpisode (afterSettle (updGroup (h.settle nofun)))
    · have h1 : s₀.Sound s1 := of_tables (s := s.endYields core slot) h.endYields rfl
      exact h1.updWg.count.tagRun.countMiss

theorem execSelectRun (h : s₀.Sound s) : Out.Sound s₀ (Machine.execSelectRun core slot s) := by
  unfold Machine.execSelectRun
  dsimp only
  split
  · exact h
  · split
    · exact h
    · split
      · exact h
      · split
        · exact h.demoteNow
        · split
          exacts [h.demoteNow.issueAs.onCode fun _ h1 => h1.dispatchRun, h.demoteNow]

theorem execDemotion (h : s₀.Sound s) : Out.Sound s₀ (Machine.execDemotion core slot s) := by
  unfold Machine.execDemotion
  show s₀.Sound _
  split
  · exact h
  · split
    exacts [h.demoteNow, h]

theorem unsetAside (h : s₀.Sound s) : s₀.Sound (s.unsetAside id) :=
  h.congr rfl

theorem releaseResvs (h : s₀.Sound s) : s₀.Sound (s.releaseResvs w) :=
  h.foldl fun _ _ h1 => h1.putEngine

theorem endWorkgroup (h : s₀.Sound s) : s₀.Sound (s.endWorkgroup w r) :=
  settleRegion (sweepWg (h.flushWhere.recordPending.releaseResvs.unsetAside.updWg.zeroMem.congr rfl))

theorem payAt (h : s₀.Sound s) : s₀.Sound (s.payAt core slot) := by
  unfold State.payAt
  split
  exacts [h.payOwed, h]

theorem execGroupEnd (h : s₀.Sound s) : Out.Sound s₀ (Machine.execGroupEnd core slot s) := by
  unfold Machine.execGroupEnd
  show s₀.Sound _
  dsimp only
  split
  · exact h.payAt
  · split
    · exact h.payAt
    · split
      · exact h.payAt
      · split
        · exact h.payAt
        · split
          · refine rejudgeVf ?_
            split
            · exact of_tables (recordSlice (h.payAt.releaseHolds.foldl fun _ _ h1 => h1.grantAll)) rfl
            · exact endWorkgroup (of_tables (recordSlice (h.payAt.releaseHolds.foldl fun _ _ h1 => h1.grantAll)) rfl)
          · exact of_tables (recordSlice (h.payAt.releaseHolds.foldl fun _ _ h1 => h1.grantAll)) rfl

theorem execBarrierTimeLimit (h : s₀.Sound s) : Out.Sound s₀ (Machine.execBarrierTimeLimit core slot s) := by
  unfold Machine.execBarrierTimeLimit
  show s₀.Sound _
  dsimp only
  split
  · exact h
  · split
    · exact h
    · split
      · split
        exacts [h, h.issueAs.takeHit]
      · exact h

theorem peerOp {i : Instr} (h : s₀.Sound s) : Out.Sound s₀ (Machine.peerOp i s) := by
  have ha {i f op} : Out.Sound s₀ (Machine.runOp i s (Machine.atomicOff f op s)) := h.runOp fun _ => h.atomicOff
  have hr {i f op} : Out.Sound s₀ (Machine.runOp i s (Machine.reduce f op s)) := h.runOp fun _ => h.reduce
  unfold Machine.peerOp
  split
  exacts [h.execLd, h.execSt, h.execLdX4, h.execStX4, ha, ha, ha, ha, ha, ha, ha, h.execAtomCas, hr, hr, hr, hr, hr, hr, h.execStag,
    h.execLtag, h.execWsig, h.execBind, h.execUnbind, h.execAcqX, h.execAcqS, h.execRel, h]

theorem execPeerAbsent (h : s₀.Sound s) : Out.Sound s₀ (Machine.execPeerAbsent core slot s) := by
  unfold Machine.execPeerAbsent
  dsimp only
  split
  · exact h
  · split
    · exact h
    · split
      · split
        exacts [h, h.issueAs.peerOp]
      · exact h

theorem execLatchGrant {latch : Nat} (h : s₀.Sound s) : Out.Sound s₀ (Machine.execLatchGrant latch s) := by
  unfold Machine.execLatchGrant
  show s₀.Sound _
  split
  exacts [h.grantAll.rejudgeAll.replayStop, h.grantAll.rejudgeAll]

theorem performRun {ps : List Posted} (h : s₀.Sound s) : s₀.Sound (s.performRun ps) := by
  induction ps generalizing s with
  | nil => exact h
  | cons p ps ih =>
    rw [State.performRun]
    split
    exacts [ih (h.postedGate.go ‹_›).performNow, h.postedGate.stay ‹_›, h.replayStop]

theorem execAcknowledge {write : Nat} (h : s₀.Sound s) : Out.Sound s₀ (Machine.execAcknowledge write s) := by
  unfold Machine.execAcknowledge
  show s₀.Sound _
  dsimp only
  split
  · exact h
  · split
    · split
      · split
        exacts [ackToOwner (h.of_tables rfl), h.of_tables rfl]
      · exact h
    · split
      · split
        exacts [ackToOwner (h.performRun.of_tables rfl), h.performRun.of_tables rfl]
      · exact h.performRun

/-! ### Watch units and control registers -/

theorem copyWatch {u : WatchUnit} {c : Nat} (h : s₀.Sound s) : s₀.Sound (s.copyWatch u c) := by
  unfold State.copyWatch
  split
  · split
    exacts [h.congr rfl, h]
  · exact h.congr rfl

theorem setWatch {v : Dword} (h : s₀.Sound s) : s₀.Sound (s.setWatch is k v) :=
  foldl (h.congr rfl) (fun _ _ h1 => h1.copyWatch)

theorem execCtlSet {f : Fields} (h : s₀.Sound s) : Out.Sound s₀ (Machine.execCtlSet f s) := by
  unfold Machine.execCtlSet
  refine h.runOp fun is => ?_
  dsimp only
  split
  · split
    exacts [h.updGroup, trivial]
  · split
    · split
      · split
        exacts [h.putEngine, trivial]
      · trivial
    · split
      · split
        exacts [trivial, h.setWatch]
      · split
        exacts [trivial, h.setWatch]

theorem execProf {f : Fields} (h : s₀.Sound s) : Out.Sound s₀ (Machine.execProf f s) := by
  unfold Machine.execProf
  refine h.runOp fun is => ?_
  split
  exacts [h.sampleRow, h]

/-! ### The events of the region arbiter -/

theorem readRcb {p : Region} {x : Nat} (h : s₀.Sound s) : s₀.Sound (s.readRcb p x) := by
  unfold State.readRcb
  dsimp only
  split
  · exact launchFail (devWriteBytes (congr (h.foldl fun _ _ h1 => h1.visit) rfl))
  · split
    · split
      · split
        · exact arbiterAcquire (updRegion (setRegionState (devWriteBytes (congr (h.foldl fun _ _ h1 => h1.visit) rfl))))
        · exact setRegionState (devWriteBytes (congr (h.foldl fun _ _ h1 => h1.visit) rfl))
      · exact setRegionState (devWriteBytes (congr (h.foldl fun _ _ h1 => h1.visit) rfl))
    · split
      · split
        · exact arbiterAcquire (updRegion (setRegionState (devWriteBytes (congr (h.foldl fun _ _ h1 => h1.visit) rfl))))
        · exact setRegionState (devWriteBytes (congr (h.foldl fun _ _ h1 => h1.visit) rfl))
      · exact setRegionState (devWriteBytes (congr (h.foldl fun _ _ h1 => h1.visit) rfl))

theorem walkLinks {q : Region} {stop m link : Nat} (h : s₀.Sound s) : s₀.Sound (s.walkLinks q stop m link) := by
  induction m generalizing s link with
  | zero => exact h
  | succ m ih =>
    rw [State.walkLinks]
    split
    · exact h
    · split
      exacts [ih h.readRcb, h.launchFault]

theorem execWalk {parent : Nat} (h : s₀.Sound s) : Out.Sound s₀ (Machine.execWalk vf parent s) := by
  unfold Machine.execWalk
  show s₀.Sound _
  dsimp only
  split
  · split
    · split
      exacts [h, rejudgeVf (walkLinks (h.visit.congr rfl))]
    · exact h
  · exact h

theorem watchArrives {c : Nat} (h : s₀.Sound s) : s₀.Sound (s.watchArrives r c) :=
  h.foldl fun _ _ h1 => h1.copyWatch

theorem setAside {es : List Nat} (h : s₀.Sound s) : s₀.Sound (s.setAside id n es) :=
  h.foldl fun _ _ h1 => h1.putEngine

theorem placeAt {c : Nat} (h : s₀.Sound s) : s₀.Sound (s.placeAt r k c off) := by
  unfold State.placeAt
  refine writePrios ?_
  refine startSlice ?_
  refine watchArrives ?_
  refine foldl (updRegion (h.setAside.congr rfl)) fun s1 g h1 => ?_
  split
  exacts [h1.startGroup, h1]

theorem firstAdmission (h : s₀.Sound s) : s₀.Sound (s.firstAdmission r) := by
  unfold State.firstAdmission
  split
  exacts [h, h.congr rfl]

theorem execAdmitRegion (h : s₀.Sound s) : Out.Sound s₀ (Machine.execAdmitRegion vf rcb s) := by
  unfold Machine.execAdmitRegion
  show s₀.Sound _
  dsimp only
  split
  · exact h.rejudge.writePrios
  · split
    · split
      exacts [h.rejudge.writePrios.firstAdmission.updRegion.writeRcbState.devWrite.placeAt, h.rejudge.writePrios]
    · exact h.rejudge.writePrios

theorem execPlaceWorkgroup (h : s₀.Sound s) : Out.Sound s₀ (Machine.execPlaceWorkgroup vf rcb s) := by
  unfold Machine.execPlaceWorkgroup
  show s₀.Sound _
  split
  · exact h.writePrios
  · split
    · split
      exacts [h.writePrios.placeAt, h.writePrios]
    · exact h.writePrios

theorem stopWgs {p : Workgroup → Bool} (h : s₀.Sound s) : s₀.Sound (s.stopWgs p) :=
  h.congr rfl

theorem execQuantumEnd (h : s₀.Sound s) : Out.Sound s₀ (Machine.execQuantumEnd vf rcb s) := by
  unfold Machine.execQuantumEnd
  extract_lets s'
  have h' : s₀.Sound s' := h.writePrios
  show s₀.Sound _
  split
  · exact h'
  · extract_lets cs
    split
    · exact h'
    · split
      · exact h'.updRegion
      · split
        · exact updRegion (stopWgs (of_tables h' rfl))
        · exact h'.updRegion.updRegion

theorem execAgedPriority (h : s₀.Sound s) : Out.Sound s₀ (Machine.execAgedPriority vf rcb s) := by
  unfold Machine.execAgedPriority
  show s₀.Sound _
  split
  · exact h
  · split
    exacts [h.updRegion.writePrios, h]

/-! ### Async copies -/

theorem execCpAsync {f : Fields} (h : s₀.Sound s) : Out.Sound s₀ (Machine.execCpAsync f s) := by
  unfold Machine.execCpAsync
  refine h.runOp fun is => ?_
  dsimp only
  split
  · trivial
  · split
    · trivial
    · split
      · trivial
      · split
        · trivial
        · split
          · trivial
          · split
            · trivial
            · split
              · exact h.releaseGate ‹_›
              · split
                exacts [h, h.watched fun _ h1 => updWg (h1.congr rfl)]

theorem recordCopyFault {c : Copy} {x : FaultInfo} (h : s₀.Sound s) : s₀.Sound (s.recordCopyFault w c x) := by
  unfold State.recordCopyFault
  split
  · split
    exacts [h.recordUntaken.updWg.sweepWg, h]
  · exact h.updWg

theorem landOnBar {c : Copy} (h : s₀.Sound s) : s₀.Sound (s.landOnBar w c n) := by
  unfold State.landOnBar
  split
  · exact h
  · split
    · split
      exacts [h, h.logged fun _ h1 => h1.barStep]
    · exact h

theorem readChunk {c : Copy} {pl : List Placed} (h : s₀.Sound s) : s₀.Sound (s.readChunk w c k pl) :=
  h.updWg

theorem landChunk {c : Copy} {bytes : Nat → Byte} {pl : List Placed} (h : s₀.Sound s) : s₀.Sound (s.landChunk w c k bytes pl) := by
  unfold State.landChunk
  dsimp only
  split
  exacts [h.writePieces.landOnBar.count.updWg.sweepWg, h.writePieces.landOnBar.count.updWg]

theorem landRead {c : Copy} {m : Sparse 8} {fresh : Nat} {pl : List Placed} (h : s₀.Sound s) : s₀.Sound (s.landRead w c k m fresh pl) :=
  h.landChunk

theorem landIfRead (h : s₀.Sound s) : s₀.Sound (s.landIfRead id k) := by
  unfold State.landIfRead
  dsimp only
  split
  · exact h
  · split
    · split
      · exact h
      · split
        exacts [(Gate.Keeps.go h.replayGate ‹_›).recordTouches.openPieces.landRead, h]
    · exact h

theorem execChunkLand {copy : Nat} {chunk : Nat} (h : s₀.Sound s) : Out.Sound s₀ (Machine.execChunkLand copy chunk s) := by
  unfold Machine.execChunkLand
  show s₀.Sound _
  split
  · exact h
  · extract_lets c found turn
    clear_value found
    have ht : turn.Sound s₀ := by
      unfold turn
      split
      exacts [h.chunkTurnOn, h.chunkTurn]
    clear_value turn
    split
    · split
      · split
        exacts [readChunk (updWg ht), landRead (updWg ht)]
      · exact recordCopyFault ht
      · exact updWg ht
      · exact ht
    · exact h

theorem resumeCopies {m : Dword} (h : s₀.Sound s) : s₀.Sound (s.resumeCopies w m) :=
  h.updWg

theorem tagWait {f : Fields} {all : Bool} {done : Issue → State → Dword → State} (h : s₀.Sound s)
    (hd : ∀ is s m, s₀.Sound s → s₀.Sound (done is s m)) : (Machine.tagWait f all done s is).Sound s₀ := by
  unfold Machine.tagWait
  extract_lets m s1
  split
  · trivial
  · have h1 : s₀.Sound s1 := h.resumeCopies
    split
    · exact h1
    · split
      · exact h1.updWg
      · extract_lets m1
        split <;> split
        exacts [hd _ _ _ h1, h1, hd _ _ _ h1, h1]

/-! ### Float operations -/

theorem floatElems {f : Fields} {r : Nat → Nat → Nat → FRes} (h : s₀.Sound s) : Effect.Sound s₀ (Machine.floatElems f r s is) :=
  h.numeric

/-! ### Saving and restoring -/

theorem leaveQueues (h : s₀.Sound s) : s₀.Sound (s.leaveQueues g) :=
  h.foldl fun _ _ h1 => h1.leaveLatch.leaveLatch

theorem fillSlot {x : SavedWg} (h : s₀.Sound s) : s₀.Sound (s.fillSlot x k) := by
  unfold State.fillSlot
  split <;> exact h.congr rfl

theorem spill (h : s₀.Sound s) : s₀.Sound (s.spill w) := by
  unfold State.spill
  split
  · exact h
  · split
    · extract_lets s1
      have h1 : s₀.Sound s1 := foldl h fun _ _ h => congr h.storeBytes rfl
      clear_value s1
      exact h1.congr rfl
    · exact h

theorem flushInto (h : s₀.Sound s) : s₀.Sound (s.flushInto w) :=
  h.flushWhere

theorem landReads (h : s₀.Sound s) : s₀.Sound (s.landReads w) :=
  h.foldl fun _ _ h1 => h1.foldl fun _ _ h2 => h2.landIfRead

theorem quiet (h : s₀.Sound s) : s₀.Sound (s.quiet w) :=
  h.flushInto.foldl fun _ _ h1 => h1.squash.leaveQueues

theorem saveInto {w0 : Workgroup} (h : s₀.Sound s) : s₀.Sound (s.saveInto w0 k) := by
  unfold State.saveInto
  dsimp only
  split
  · exact zeroMem (unsetAside (foldl (updWg (h.landReads.quiet.fillSlot.of_tables rfl)) (fun _ _ h1 => h1.putEngine)))
  · exact endSlice (zeroMem (unsetAside (foldl (updWg (h.landReads.quiet.fillSlot.of_tables rfl)) (fun _ _ h1 => h1.putEngine))))

theorem saveWg (h : s₀.Sound s) : s₀.Sound (s.saveWg w) := by
  unfold State.saveWg
  split
  exacts [h.saveInto, h]

theorem evictFrom (h : s₀.Sound s) : s₀.Sound (s.evictFrom core) :=
  h.stopWgs

theorem execPreempt {wg : Nat} (h : s₀.Sound s) : Out.Sound s₀ (Machine.execPreempt wg s) := by
  unfold Machine.execPreempt
  show s₀.Sound _
  dsimp only
  split
  · exact h
  · split
    · exact h
    · split
      · exact h
      · split
        · split
          exacts [h.evictFrom, h.evictFrom.saveWg.writePrios]
        · split
          exacts [h, h.saveWg.writePrios]

theorem placeEngines {es : List Engine} {x : State × List (Nat × Nat)} (h : s₀.Sound s) (hx : s.placeEngines w es = some x) :
    s₀.Sound x.1 := by
  induction es generalizing s x with
  | nil => cases hx; exact h
  | cons e es ih =>
    rw [State.placeEngines] at hx
    split at hx
    · cases hx
    · obtain ⟨y, hy, rfl⟩ := Option.map_eq_some_iff.1 hx
      exact ih (x := y) (putEngine h) hy

theorem dropKilled (h : s₀.Sound s) : s₀.Sound (s.dropKilled id) :=
  h.of_tables rfl

theorem applyCx (h : s₀.Sound s) : s₀.Sound (s.applyCx vf ctx) :=
  foldl (h.congr rfl) (fun _ _ h1 => h1.setCxReg)

theorem withEngines {x : SavedWg} (h : s₀.Sound s) : s₀.Sound (s.withEngines w x).1 := by
  unfold State.withEngines
  cases hx : s.placeEngines w x.engines with
  | none => exact h
  | some y => exact placeEngines h hx

theorem restoreWg {x : SavedWg} (h : s₀.Sound s) : s₀.Sound (s.restoreWg r w x) := by
  unfold State.restoreWg
  extract_lets s'
  have hx : s₀.Sound (s'.withEngines w x).1 := h.applyCx.withEngines
  split
  extract_lets held s2 s3 s4 s5
  have h1 := fst hx ‹_›
  have h2 : s₀.Sound s2 := h1.setAside
  have h3 : s₀.Sound s3 :=
    h2.of_wf (fun ⟨hm, ht, hp, hr⟩ => ⟨Sparse.wf_paste hm _ _ _, Sparse.wf_paste ht _ _ _, Sparse.wf_paste hp _ _ _, hr⟩) rfl
  have h4 : s₀.Sound s4 := h3.updWg
  have h5 : s₀.Sound s5 := by
    unfold s5
    split
    exacts [h4.updRegion, h4]
  exact h5.dropKilled.watchArrives.startSlice.writePrios

theorem execRestore {wg : Nat} (h : s₀.Sound s) : Out.Sound s₀ (Machine.execRestore wg s) := by
  unfold Machine.execRestore
  show s₀.Sound _
  split
  · split
    · split
      exacts [h.restoreWg, h]
    · exact h
  · exact h

/-! ### The events of the hub -/

theorem extendMeas {x : List Byte} (h : s₀.Sound s) : s₀.Sound (s.extendMeas k x) :=
  h.congr rfl

theorem setBoot {stage : Nat} {code : Nat} (h : s₀.Sound s) : s₀.Sound (s.setBoot stage code) :=
  h.setReg

theorem fenceChannels {bad : Nat} (h : s₀.Sound s) : s₀.Sound (s.fenceChannels bad) :=
  h.congr rfl

theorem clearRecovery (h : s₀.Sound s) : s₀.Sound (s.clearRecovery) :=
  setReg (h.foldl fun _ _ h1 => h1.performInOrder)

theorem bootStage {bad : Nat} (h : s₀.Sound s) : s₀.Sound (s.bootStage n bad) := by
  unfold State.bootStage
  dsimp only
  split
  exacts [h.extendMeas.extendMeas, h.setReg, h.fenceChannels, h.clearRecovery.foldl fun _ _ h1 => h1.extendMeas, h.setReg, h.setReg, h]

theorem setRecovery {on : Bool} (h : s₀.Sound s) : s₀.Sound (s.setRecovery on) := by
  unfold State.setRecovery
  split
  exacts [h.setReg, h.clearRecovery]

theorem execReset {ok : Bool} {bad : Nat} (h : s₀.Sound s) : Out.Sound s₀ (Machine.execReset ok bad s) := by
  show s₀.Sound _
  split
  · exact h.setRecovery
  · split
    · exact of_wf h (fun _ => State.canonical_reset) rfl
    · split
      · exact h.bootStage.setBoot
      · split
        exacts [h.setBoot, h.bootStage.setBoot]

theorem execClockLower {coreMHz : Nat} (h : s₀.Sound s) : Out.Sound s₀ (Machine.execClockLower coreMHz s) := by
  unfold Machine.execClockLower
  show s₀.Sound _
  split
  exacts [h.setReg, h]

theorem countError (h : s₀.Sound s) : s₀.Sound (s.countError off) :=
  h.setReg

theorem execUncorrectableError {site : ErrorSite} (h : s₀.Sound s) : Out.Sound s₀ (Machine.execUncorrectableError site s) := by
  have h1 {x} : s₀.Sound (s.countError x) := h.countError
  cases site with
  | granule m => exact of_wf h1 (fun ⟨hm, ht, hp, hr⟩ => ⟨hm, ht, Sparse.wf_put hp m 1, hr⟩) rfl
  | register core slot lane r => exact h1.updGroup
  | sliceRegister core slot r => exact h1.updGroup

theorem putLink {l : Link} (h : s₀.Sound s) : s₀.Sound (s.putLink l) :=
  setBit (h.congr rfl)

theorem execLinkRetrain {link : Nat} (h : s₀.Sound s) : Out.Sound s₀ (Machine.execLinkRetrain link s) := by
  unfold Machine.execLinkRetrain
  show s₀.Sound _
  split
  exacts [h.putLink, h]

theorem afterSends {link : Nat} (h : s₀.Sound s) : s₀.Sound (s.afterSends link).2 := h.takeFree

theorem execKeyRollover {link : Nat} (h : s₀.Sound s) : Out.Sound s₀ (Machine.execKeyRollover link s) := by
  unfold Machine.execKeyRollover
  show s₀.Sound _
  dsimp only
  split
  · exact h
  · split
    · exact h.afterSends.putLink
    · split <;> exact h.afterSends.putLink

theorem execRetireMessage {link : Nat} (h : s₀.Sound s) : Out.Sound s₀ (Machine.execRetireMessage link s) := by
  unfold Machine.execRetireMessage
  show s₀.Sound _
  split
  exacts [h.putLink, h]

theorem execRetireReceive {link : Nat} (h : s₀.Sound s) : Out.Sound s₀ (Machine.execRetireReceive link s) := by
  unfold Machine.execRetireReceive
  show s₀.Sound _
  dsimp only
  split
  exacts [h.putLink, h]

theorem execFlitReceive {link : Nat} {slot : Bool} {intact : Bool} (h : s₀.Sound s) : Out.Sound s₀ (Machine.execFlitReceive link slot intact s) := by
  unfold Machine.execFlitReceive
  show s₀.Sound _
  split
  · exact h
  · split
    split
    split
    exacts [(snd (snd h.afterSends ‹_›).takeFree ‹_›).putLink, (snd (snd h.afterSends ‹_›).takeFree ‹_›).putLink.setBit]

theorem answer {kind : SpdmKind} {via : Option Nat} (h : s₀.Sound s) : s₀.Sound (s.answer kind via) := by
  unfold State.answer
  dsimp only
  split
  · split
    exacts [h.congr rfl, h]
  · exact h.congr rfl

/-! ### Lane operations -/

theorem exchange {f : Fields} {src : Issue → Nat → Nat} (h : s₀.Sound s) : Effect.Sound s₀ (Machine.exchange f src s is) :=
  h.writes

theorem groupWord {f : Fields} {r : Issue → Word} (h : s₀.Sound s) : Effect.Sound s₀ (Machine.groupWord f r s is) :=
  h.writesWord

theorem laneReduce {f : Fields} {ri : Int → Int → Int} {rf : Bool → Nat → Nat → FRes} (h : s₀.Sound s) :
    Effect.Sound s₀ (Machine.laneReduce f ri rf s is) :=
  h.numeric

/-! ### The events of the matrix engines -/

theorem recordXfault {f : FaultInfo} {pos : Word} {func : BitVec 16} {xfer : Option Nat} (h : s₀.Sound s) :
    s₀.Sound (s.recordXfault w f slot pos func xfer) := by
  unfold State.recordXfault
  split
  · split
    exacts [h.recordUntaken.updWg, h]
  · exact h.updWg

theorem execTileEntryRemove {queue : Nat} (h : s₀.Sound s) : Out.Sound s₀ (Machine.execTileEntryRemove core slot queue s) := by
  unfold Machine.execTileEntryRemove
  show s₀.Sound _
  dsimp only
  split
  · exact h
  · split
    · split
      · exact h
      · split
        · exact h
        · split
          · exact h.updGroup.recordXfault
          · split
            exacts [h.updGroup.recordXfault, h.updGroup.updWg.putEngine]
    · exact h

theorem endXfer {x : TileXfer} (h : s₀.Sound s) : s₀.Sound (s.endXfer w x) :=
  h.updWg.sweepWg

theorem seeChunk {x : TileXfer} {m : Sparse 8} (h : s₀.Sound s) : s₀.Sound (s.seeChunk w x m) :=
  h.updWg

theorem moveChunk {x : TileXfer} {c : Nat × Nat × Nat} {bytes : Nat → Byte} {pl : List Placed} (h : s₀.Sound s) :
    s₀.Sound (s.moveChunk w x c bytes pl) := by
  unfold State.moveChunk
  dsimp only
  split
  · refine endXfer ?_
    refine updWg ?_
    split
    · exact h.writePieces
    · split
      exacts [h, h.putEngine]
  · refine updWg ?_
    split
    · exact h.writePieces
    · split
      exacts [h, h.putEngine]

theorem xferTurn {x : TileXfer} {ps : List Piece} (h : s₀.Sound s) : (s.xferTurn w x ps).Sound s₀ := by
  unfold State.xferTurn
  split <;> exact h.chunkTurn

theorem execTileTransferChunk {xfer : Nat} (h : s₀.Sound s) : Out.Sound s₀ (Machine.execTileTransferChunk xfer s) := by
  unfold Machine.execTileTransferChunk
  show s₀.Sound _
  split
  · exact h
  · next w x _ =>
    split
    · exact h
    · split
      · exact h.endXfer
      · extract_lets ps
        have ht : (s.xferTurn w x ps).Sound s₀ := h.xferTurn
        split
        · exact h.seeChunk
        · split
          · have h1 := ht.go ‹_›
            split
            · exact h1.seeChunk
            · exact moveChunk (h1.congr rfl)
          · exact (ht.fail ‹_›).recordXfault.sweepWg
          · exact (ht.absent ‹_›).updWg
          · exact ht.stay ‹_›

theorem recordOpFault {o : MatOp} {f : FaultInfo} (h : s₀.Sound s) : s₀.Sound (s.recordOpFault w o f) := by
  unfold State.recordOpFault
  split
  · split
    exacts [h.recordUntaken.updWg.sweepWg, h]
  · exact h.updWg

theorem commitOp {o : MatOp} {bias : List Word} (h : s₀.Sound s) : s₀.Sound (s.commitOp w o bias) :=
  sweepWg (countMacs (updWg (putEngine (h.congr rfl))))

theorem execMatrixCommit {engine : Nat} (h : s₀.Sound s) : Out.Sound s₀ (Machine.execMatrixCommit engine s) := by
  unfold Machine.execMatrixCommit
  show s₀.Sound _
  dsimp only
  split
  · exact h
  · split
    · exact h
    · split
      · exact (h.chunkTurn.go ‹_›).commitOp
      · exact (h.chunkTurn.fail ‹_›).recordOpFault
      · exact (h.chunkTurn.absent ‹_›).updWg
      · exact h.chunkTurn.stay ‹_›

theorem landStore {o : MatOp} (h : s₀.Sound s) : s₀.Sound (s.landStore w o) :=
  h.updWg.sweepWg

theorem execEpilogueStoreChunk {op : Nat} (h : s₀.Sound s) : Out.Sound s₀ (Machine.execEpilogueStoreChunk op s) := by
  unfold Machine.execEpilogueStoreChunk
  show s₀.Sound _
  split
  · exact h
  · split
    · split
      · exact (h.chunkTurn.go ‹_›).writePieces.landStore
      · exact (h.chunkTurn.fail ‹_›).recordOpFault
      · exact (h.chunkTurn.absent ‹_›).updWg
      · exact h.chunkTurn.stay ‹_›
    · exact h

/-! ### Tiers, partitions, dies and VFs -/

theorem execTierMove {page : Nat} {up : Bool} (h : s₀.Sound s) : Out.Sound s₀ (Machine.execTierMove vf page up s) := by
  unfold Machine.execTierMove
  show s₀.Sound _
  dsimp only
  split
  · split
    · exact h
    · split
      · split
        · split
          exacts [h.startFill, h]
        · split
          exacts [h.startFill, h]
      · split
        · split
          exacts [h.startMove, h]
        · exact h
  · exact h

theorem execPageMoveComplete {move : Nat} (h : s₀.Sound s) : Out.Sound s₀ (Machine.execPageMoveComplete move s) := by
  unfold Machine.execPageMoveComplete
  show s₀.Sound _
  split
  exacts [h.endMove.rejudgeVf, h]

theorem setDieState {d : Nat} {st : Nat} (h : s₀.Sound s) : s₀.Sound (s.setDieState d st) :=
  h.setReg

theorem setDieResult {r : Nat} (h : s₀.Sound s) : s₀.Sound (s.setDieResult r) :=
  h.setReg

theorem showDie {d : Nat} {v : Bool} (h : s₀.Sound s) : s₀.Sound (s.showDie d v) :=
  h.foldl fun _ _ h1 => h1.setBit

theorem tellPartitions {d : Nat} (h : s₀.Sound s) : s₀.Sound (s.tellPartitions d) :=
  h.congr rfl

theorem startOff {d : Nat} (h : s₀.Sound s) : s₀.Sound (s.startOff d) := by
  unfold State.startOff
  refine foldl h fun s1 x h1 => ?_
  split
  split
  exacts [h1.startMove, h1]

theorem redirect {d : Nat} {mv : PageMove} (h : s₀.Sound s) : s₀.Sound (s.redirect d mv) := by
  unfold State.redirect
  split
  · exact h
  · extract_lets l dst
    split
    · exact serveFills (of_wf h (fun hc => hc.withMem (wf_setLeaf hc.1 _ _ _)) rfl)
    · exact h.congr rfl

theorem execDieOffline {die : Nat} (h : s₀.Sound s) : Out.Sound s₀ (Machine.execDieOffline die s) := by
  unfold Machine.execDieOffline
  show s₀.Sound _
  dsimp only
  split
  exacts [h.setDieResult, startOff (h.setDieState.showDie.tellPartitions.foldl fun _ _ h1 => h1.redirect)]

theorem execDiePagesMoved {die : Nat} (h : s₀.Sound s) : Out.Sound s₀ (Machine.execDiePagesMoved die s) := by
  unfold Machine.execDiePagesMoved
  show s₀.Sound _
  split
  · exact h
  · split
    · exact h.setDieState
    · split
      exacts [h.startOff, h.setDieState.setDieResult.tellPartitions]

theorem execDieDrained {die : Nat} (h : s₀.Sound s) : Out.Sound s₀ (Machine.execDieDrained die s) := by
  unfold Machine.execDieDrained
  show s₀.Sound _
  split
  exacts [h.setDieState.setDieResult, h]

theorem execDieOnline {die : Nat} (h : s₀.Sound s) : Out.Sound s₀ (Machine.execDieOnline die s) := by
  unfold Machine.execDieOnline
  show s₀.Sound _
  split
  exacts [h.setDieState.setDieResult.showDie, h]

theorem setPartState {st : Nat} {reason : Option Nat} (h : s₀.Sound s) : s₀.Sound (s.setPartState p st reason) :=
  h.setReg

theorem withEnables {x : Sparse 32} (h : s₀.Sound s) : s₀.Sound { s with enables := x } := h.congr rfl

theorem execPartitionEnable (h : s₀.Sound s) : Out.Sound s₀ (Machine.execPartitionEnable p s) := by
  unfold Machine.execPartitionEnable
  extract_lets m s1 s2
  have h1 : s₀.Sound s1 := h.setBit.setPartState
  have h2 : s₀.Sound s2 := withEnables h1
  show s₀.Sound _
  split
  · exact h
  · split
    · exact h.setPartState
    · split
      exacts [h2.extendMeas, h2]

theorem zeroPart (h : s₀.Sound s) : s₀.Sound (s.zeroPart p) :=
  foldl (foldl (foldl (h.foldl fun _ _ h1 => h1.zeroMem) (fun _ _ h1 => h1.zeroMem)) (fun _ _ h1 => h1.zeroMem)) (fun _ _ h1 => h1.zeroMem)

theorem dropVfs {vs : List Nat} (h : s₀.Sound s) : s₀.Sound (s.dropVfs p vs) :=
  of_wf h (fun ⟨hm, ht, hp, hr, hx⟩ => ⟨hm, ht, hp, hr, Sparse.wf_filter hx _⟩) rfl

theorem execPartitionDisable (h : s₀.Sound s) : Out.Sound s₀ (Machine.execPartitionDisable p s) := by
  unfold Machine.execPartitionDisable
  show s₀.Sound _
  dsimp only
  split
  exacts [h, setPartState (foldl (setBit (zeroPart (dropVfs (h.foldl fun _ _ h1 => h1.endSubtree)))) (fun _ _ h1 => h1.setVfReg))]

theorem retireGranted (h : s₀.Sound s) : s₀.Sound (s.retireGranted g) := by
  unfold State.retireGranted
  dsimp only
  split
  · exact h
  · split
    · exact h
    · split
      · split
        exacts [h.issueAs.execAcqX.next ‹_›, h]
      · split
        exacts [h.issueAs.execAcqS.next ‹_›, h]
      · exact h

theorem haltGroup (h : s₀.Sound s) : s₀.Sound (s.haltGroup core slot) := by
  unfold State.haltGroup
  dsimp only
  split
  · exact h
  · split
    exacts [h.retireGranted.squash, h.retireGranted.squash.leaveQueues.updGroup]

theorem tryGroupEnd (h : s₀.Sound s) : s₀.Sound (s.tryGroupEnd core slot) := by
  unfold State.tryGroupEnd
  split
  exacts [h.execGroupEnd.next ‹_›, h]

theorem haltWgs {p : Workgroup → Bool} (h : s₀.Sound s) : s₀.Sound (s.haltWgs p) :=
  foldl (h.foldl fun _ _ h1 => h1.haltGroup) (fun _ _ h1 => h1.tryGroupEnd)

theorem saveAll {p : Workgroup → Bool} (h : s₀.Sound s) : s₀.Sound (s.saveAll p) :=
  h.foldl fun _ _ h1 => h1.spill.saveWg

theorem execPartitionStop (h : s₀.Sound s) : Out.Sound s₀ (Machine.execPartitionStop p s) := by
  unfold Machine.execPartitionStop
  show s₀.Sound _
  dsimp only
  split
  exacts [h, h.setBit.setPartState.haltWgs]

theorem showSwitch {inc : Nat} {step : Nat} {go : Bool} (h : s₀.Sound s) : s₀.Sound (s.showSwitch vf inc step go) :=
  h.setVfReg

theorem setStep {step : Nat} (h : s₀.Sound s) : s₀.Sound (s.setStep vf step) := by
  unfold State.setStep
  split
  exacts [showSwitch (h.congr rfl), h]

theorem requestSwitch {inc : Nat} (h : s₀.Sound s) : s₀.Sound (s.requestSwitch vf inc) := by
  unfold State.requestSwitch
  dsimp only
  split
  · exact h.vfErr
  · split
    exacts [h.vfErr, showSwitch (h.congr rfl)]

theorem endSwitch {x : Switch} (h : s₀.Sound s) : s₀.Sound (s.endSwitch x) :=
  rejudgeVf (h.outgoing.setVfReg.showSwitch.congr rfl)

theorem moveSwitch {x : Switch} (h : s₀.Sound s) : s₀.Sound (s.moveSwitch x) := by
  unfold State.moveSwitch
  dsimp only
  split
  · split
    exacts [h.stopWgs.haltWgs.setStep, h.stopWgs.haltWgs]
  · split
    exacts [h.spill.saveWg, h.applyCx.setStep]
  · split
    exacts [h.restoreWg, h.setStep]
  · exact h.endSwitch
  · exact h

theorem execGuestSwitch {incoming : Nat} (h : s₀.Sound s) : Out.Sound s₀ (Machine.execGuestSwitch vf incoming s) := by
  unfold Machine.execGuestSwitch
  show s₀.Sound _
  split
  · exact h
  · split
    · split
      exacts [h, h.moveSwitch]
    · exact h.requestSwitch

theorem execVfStop (h : s₀.Sound s) : Out.Sound s₀ (Machine.execVfStop vf s) := by
  unfold Machine.execVfStop
  show s₀.Sound _
  split
  · exact h
  · extract_lets mine s1 s2 s3
    have h1 : s₀.Sound s1 := h.setBit.stopWgs.haltWgs
    split
    · have h3 : s₀.Sound s3 := h1.saveAll.storeBytes
      clear_value s3
      exact congr h3 rfl
    · exact h1

theorem execVfResume (h : s₀.Sound s) : Out.Sound s₀ (Machine.execVfResume vf s) := by
  unfold Machine.execVfResume
  show s₀.Sound _
  dsimp only
  split
  · exact h
  · split
    · split
      exacts [requestSwitch (showSwitch (h.setBit.congr rfl)), setStep (applyCx (h.setBit.congr rfl))]
    · exact applyCx (h.setBit.congr rfl)

theorem changeGroup {f : Group → Group} (h : s₀.Sound s) : s₀.Sound (s.changeGroup w g f) := by
  unfold State.changeGroup
  split
  exacts [h.updGroup, h.updSavedGroups]

theorem killAt (h : s₀.Sound s) : s₀.Sound (s.killAt w g) := by
  unfold State.killAt
  split
  exacts [h.killGroup, h.changeGroup]

theorem execGroupResume (h : s₀.Sound s) : Out.Sound s₀ (Machine.execGroupResume vf core slot s) := by
  unfold Machine.execGroupResume
  show s₀.Sound _
  split
  · split
    exacts [h.changeGroup, h.vfErr]
  · exact h.vfErr

theorem execGroupKill (h : s₀.Sound s) : Out.Sound s₀ (Machine.execGroupKill vf core slot s) := by
  unfold Machine.execGroupKill
  show s₀.Sound _
  split
  · split
    exacts [h.killAt, h.vfErr]
  · exact h.vfErr

theorem checkDirtyLog (h : s₀.Sound s) : s₀.Sound (s.checkDirtyLog vf) := by
  unfold State.checkDirtyLog
  split
  exacts [h.setVfReg.setBit, h.setBit.vfErr.setBit]

theorem execLogProgram {value : Dword} (h : s₀.Sound s) : Out.Sound s₀ (Machine.execLogProgram vf off value s) := by
  unfold Machine.execLogProgram
  show s₀.Sound _
  dsimp only
  split
  · exact h
  · split
    · split
      · split
        exacts [h.setVfReg.checkDirtyLog, h.setVfReg]
      · exact h
    · split
      · split
        exacts [h.setVfReg.checkDirtyLog, h.setVfReg]
      · exact h

theorem invalidate {kind : Nat} {page : Nat} (h : s₀.Sound s) : s₀.Sound (s.invalidate vf kind page) := by
  unfold State.invalidate
  dsimp only
  split
  · exact h
  · split
    exacts [h.vfErr, setCxReg (h.congr rfl)]

theorem execInvalidatePageS1 {page : Nat} (h : s₀.Sound s) : Out.Sound s₀ (Machine.execInvalidatePageS1 vf page s) :=
  h.invalidate

theorem execInvalidateAllS1 (h : s₀.Sound s) : Out.Sound s₀ (Machine.execInvalidateAllS1 vf s) :=
  h.invalidate

theorem execInvalidatePageS2 {page : Nat} (h : s₀.Sound s) : Out.Sound s₀ (Machine.execInvalidatePageS2 vf page s) :=
  h.invalidate

theorem execInvalidateVf (h : s₀.Sound s) : Out.Sound s₀ (Machine.execInvalidateVf vf s) :=
  h.invalidate

theorem execInvalidationComplete (h : s₀.Sound s) : Out.Sound s₀ (Machine.execInvalidationComplete vf s) := by
  unfold Machine.execInvalidationComplete
  show s₀.Sound _
  refine foldl ?_ fun s1 x h1 => ?_
  · split
    exacts [h, h.flushWhere]
  · exact setCxReg (h1.congr rfl)

/-! ### Observation -/

theorem setDbg {b : Nat} {v : Bool} (h : s₀.Sound s) : s₀.Sound (s.setDbg vf b v) :=
  h.setBit

theorem checkArea {a : Area} (h : s₀.Sound s) : s₀.Sound (s.checkArea vf a) := by
  unfold State.checkArea
  split
  exacts [h.setVfReg, vfErr (h.foldl fun _ _ h1 => h1.setDbg)]

theorem enableArea {b : Nat} {a : Area} {F : State → State} (h : s₀.Sound s) (hF : ∀ s, s₀.Sound s → s₀.Sound (F s)) :
    s₀.Sound (s.enableArea vf b a F) := by
  unfold State.enableArea
  split
  · exact h
  · dsimp only
    split
    exacts [hF _ h.setDbg.checkArea, h.setDbg.checkArea]

theorem enableDebug (h : s₀.Sound s) : s₀.Sound (s.enableDebug vf) := h.enableArea fun _ h => h

theorem enableRecord (h : s₀.Sound s) : s₀.Sound (s.enableRecord vf) :=
  h.enableArea fun _ h1 => h1.congr rfl

theorem setPlay {on : Bool} (h : s₀.Sound s) : s₀.Sound (s.setPlay vf on) := by
  unfold State.setPlay
  split
  exacts [h, h.setDbg]

theorem enableSampler (h : s₀.Sound s) : s₀.Sound (s.enableSampler vf) :=
  h.enableArea fun _ h1 => h1.congr rfl

theorem loadLfsrs (h : s₀.Sound s) : s₀.Sound (s.loadLfsrs vf) :=
  h.congr rfl

theorem enableTagging (h : s₀.Sound s) : s₀.Sound (s.enableTagging vf) :=
  h.enableArea fun _ h1 => h1.loadLfsrs

theorem writeSmpi {v : Dword} (h : s₀.Sound s) : s₀.Sound (s.writeSmpi vf v) := by
  unfold State.writeSmpi
  dsimp only
  split
  exacts [h.setVfReg.loadLfsrs, h.setVfReg]

theorem squashAt (h : s₀.Sound s) : s₀.Sound (s.squashAt w g) := by
  unfold State.squashAt
  split
  exacts [h.squash, h]

theorem execDebugPark (h : s₀.Sound s) : Out.Sound s₀ (Machine.execDebugPark vf core slot s) := by
  unfold Machine.execDebugPark
  show s₀.Sound _
  split
  exacts [h.squashAt.changeGroup, h.vfErr]

theorem execDebugResume (h : s₀.Sound s) : Out.Sound s₀ (Machine.execDebugResume vf core slot s) := by
  unfold Machine.execDebugResume
  show s₀.Sound _
  split
  exacts [h.changeGroup, h.vfErr]

theorem execDebugEndDemotion (h : s₀.Sound s) : Out.Sound s₀ (Machine.execDebugEndDemotion vf core slot s) := by
  unfold Machine.execDebugEndDemotion
  show s₀.Sound _
  split
  · split
    exacts [h, h.changeGroup]
  · exact h.vfErr

theorem execDebugKill (h : s₀.Sound s) : Out.Sound s₀ (Machine.execDebugKill vf core slot s) := by
  unfold Machine.execDebugKill
  show s₀.Sound _
  split
  exacts [h.killAt, h.vfErr]

theorem execSamplePeriodic (h : s₀.Sound s) : Out.Sound s₀ (Machine.execSamplePeriodic vf s) := by
  unfold Machine.execSamplePeriodic
  show s₀.Sound _
  split
  exacts [h, sampleRow (h.congr rfl)]

theorem visitCapture (h : s₀.Sound s) : s₀.Sound (s.visitCapture vf ctx) :=
  h.visit.visit.foldl fun _ _ h1 => h1.visit

theorem writeImage {c : Checkpoint} (h : s₀.Sound s) : s₀.Sound (s.writeImage c) :=
  h.gpaWriteBytes.congr rfl

theorem turnover {p : Workgroup → Bool} (h : s₀.Sound s) : s₀.Sound (s.turnover p) :=
  h.of_tables rfl

theorem haltAll {p : Workgroup → Bool} (h : s₀.Sound s) : s₀.Sound (s.haltAll p) :=
  h.haltWgs.foldl fun _ _ h1 => h1.landReads.flushInto

theorem execCheckpoint (h : s₀.Sound s) : Out.Sound s₀ (Machine.execCheckpoint vf s) := by
  unfold Machine.execCheckpoint
  extract_lets ctx mine s' s1 saved c s2
  show s₀.Sound _
  split
  · exact h
  · have h' : s₀.Sound s' := h.haltAll
    split
    · exact h'
    · have h2 : s₀.Sound s2 := h'.visitCapture.gpaVisit.turnover
      clear_value s2
      split
      · exact writeImage (congr h2 rfl)
      · exact h2.setDbg.vfErr

theorem imageBytes {a : Nat} {bs : List Byte} (h : s₀.Sound s) : s₀.Sound (s.imageBytes vf a bs).2 :=
  foldl h fun _ _ h => h.gpaVisit

theorem rewriteRanges {a : Nat} {l : List (Nat × List Byte)} (h : s₀.Sound s) : s₀.Sound (s.rewriteRanges vf ctx a l) := by
  induction l generalizing s a with
  | nil => exact h
  | cons x l ih => exact ih h.imageBytes.devWriteBytes

theorem restoreImage {c : Checkpoint} (h : s₀.Sound s) : s₀.Sound (s.restoreImage c) :=
  setDbg (setVfReg (rewriteRanges (gpaVisit (h.congr rfl))))

theorem restoreCheckpoint {ck : Nat} (h : s₀.Sound s) : s₀.Sound (s.restoreCheckpoint vf ck) := by
  unfold State.restoreCheckpoint
  dsimp only
  split
  · exact h
  · split
    · exact h.vfErr
    · split
      exacts [h.restoreImage, h]

/-! ### Writes of the register space -/

theorem stateOr {o : Out} (h : s₀.Sound s) (ho : Out.Sound s₀ o) : s₀.Sound (Machine.stateOr s o) := by
  unfold Machine.stateOr
  split
  exacts [ho, h]

theorem writePartCtl (h : s₀.Sound s) : s₀.Sound (s.writePartCtl p v) := by
  unfold State.writePartCtl
  dsimp only
  split
  · split
    · split
      · split
        · exact (h.setReg.stateOr h.setReg.execPartitionEnable).stateOr (h.setReg.stateOr h.setReg.execPartitionEnable).execPartitionStop
        · exact h.setReg.stateOr h.setReg.execPartitionEnable
      · split
        · exact (h.setReg.stateOr h.setReg.execPartitionEnable).stateOr (h.setReg.stateOr h.setReg.execPartitionEnable).execPartitionStop
        · exact h.setReg.stateOr h.setReg.execPartitionEnable
    · exact h.setReg
  · split
    · exact (h.stateOr h.execPartitionDisable).setBit
    · split
      · split
        exacts [h, h.stateOr h.execPartitionStop]
      · split
        exacts [h.setBit.setPartState, h]

theorem writePart (h : s₀.Sound s) : s₀.Sound (s.writePart p off v) := by
  unfold State.writePart
  split
  · exact h
  · split
    · exact h.writePartCtl
    · split
      exacts [h, h.setReg]

theorem writeModule (h : s₀.Sound s) : s₀.Sound (s.writeModule off v) := by
  unfold State.writeModule
  split
  · exact h
  · split
    · split
      exacts [h.stateOr h.execDieOffline, h.stateOr h.execDieOnline, h]
    · split <;> exact h.setReg

theorem writeVfCtl (h : s₀.Sound s) : s₀.Sound (s.writeVfCtl vf v) := by
  unfold State.writeVfCtl
  dsimp only
  split
  · split
    exacts [h.setBit, h.setBit.stateOr h.setBit.execVfStop]
  · split
    exacts [h.setBit.stateOr h.setBit.execVfResume, h.setBit.setBit]

theorem writeGrp (h : s₀.Sound s) : s₀.Sound (s.writeGrp vf v) := by
  unfold State.writeGrp
  dsimp only
  split
  exacts [h.stateOr h.execGroupResume, h.stateOr h.execGroupKill, h.vfErr]

theorem writeDbgg (h : s₀.Sound s) : s₀.Sound (s.writeDbgg vf v) := by
  unfold State.writeDbgg
  dsimp only
  split
  exacts [h.stateOr h.execDebugPark, h.stateOr h.execDebugResume, h.stateOr h.execDebugEndDemotion, h.stateOr h.execDebugKill, h.vfErr]

theorem writeSw (h : s₀.Sound s) : s₀.Sound (s.writeSw vf v) := by
  unfold State.writeSw
  split
  exacts [h.requestSwitch, h.setVfReg]

theorem writeDbgc (h : s₀.Sound s) : s₀.Sound (s.writeDbgc vf v) := by
  unfold State.writeDbgc
  extract_lets put s1 s2 s3 s4 s5
  have hput {s : State} {b : Nat} (F : State → State) (h : s₀.Sound s) (hF : s₀.Sound (F s)) : s₀.Sound (put s b F) := by
    unfold put
    split
    exacts [hF, h.setDbg]
  have h1 : s₀.Sound s1 := hput (·.enableDebug vf) h h.enableDebug
  have h2 : s₀.Sound s2 := hput (·.enableRecord vf) h1 h1.enableRecord
  have h3 : s₀.Sound s3 := h2.setPlay.setDbg
  have h4 : s₀.Sound s4 := hput (·.enableSampler vf) h3 h3.enableSampler
  have h5 : s₀.Sound s5 := hput (·.enableTagging vf) h4 h4.enableTagging
  split
  · exact h.vfErr
  · split
    exacts [h5.restoreCheckpoint, h5]

theorem recheckAreas (h : s₀.Sound s) : s₀.Sound (s.recheckAreas vf off) := by
  unfold State.recheckAreas
  refine foldl h fun s1 a h1 => ?_
  split
  exacts [h1.checkArea, h1]

theorem writeVf {viaVf : Bool} (h : s₀.Sound s) : s₀.Sound (s.writeVf viaVf vf off v) := by
  unfold State.writeVf
  dsimp only
  split
  · exact h
  · split
    · exact h.writeVfCtl
    · exact h.setVfReg
    · exact h.writeGrp
    · exact h.stateOr h.execLogProgram
    · exact h.stateOr h.execLogProgram
    · exact h.stateOr h.execLogProgram
    · exact h.writeSw
    · exact h.writeDbgc
    · exact h.writeDbgg
    · exact h.writeSmpi
    · split
      exacts [h, h.setVfReg]
    · exact h.setVfReg.recheckAreas

theorem writeDs (h : s₀.Sound s) : s₀.Sound (s.writeDs vf ctx v) := by
  unfold State.writeDs
  split
  exact setCxReg (congr (h.foldl fun _ _ h1 => h1.foldl fun _ _ h2 => h2.zeroMem) rfl)

theorem writeInv {viaVf : Bool} (h : s₀.Sound s) : s₀.Sound (s.writeInv viaVf vf v) := by
  unfold State.writeInv
  dsimp only
  split
  · exact h.stateOr h.execInvalidatePageS1
  · exact h.stateOr h.execInvalidateAllS1
  · split
    exacts [h.vfErr, h.stateOr h.execInvalidatePageS2]
  · split
    exacts [h.vfErr, h.stateOr h.execInvalidateVf]

theorem setCxLater {v : Dword} (h : s₀.Sound s) : s₀.Sound (s.setCxLater vf ctx off v) := by
  unfold State.setCxLater
  dsimp only
  split
  exacts [setCxReg (h.congr rfl), h.congr rfl]

theorem writeWindow {viaVf : Bool} (h : s₀.Sound s) : s₀.Sound (s.writeWindow viaVf vf off v) := by
  unfold State.writeWindow
  dsimp only
  split
  · exact h
  · split
    · exact h
    · split
      · exact h.setCxReg.setCxLater
      · exact h.setCxLater
      · exact h.setCxLater
      · split
        exacts [h.writeDs, h]
      · exact h.writeInv
      · exact h.setCxReg

theorem writeRegister {viaVf : Bool} {value : Dword} (h : s₀.Sound s) : s₀.Sound (s.writeRegister viaVf off value) := by
  unfold State.writeRegister
  dsimp only
  split
  · split
    exacts [h.writeWindow, h.writeVf]
  · split
    · exact h
    · split
      · exact h.writePart
      · split
        exacts [h.writeModule, h]

theorem execLogReadIndexWrite {replay : Bool} {value : Word} (h : s₀.Sound s) : Out.Sound s₀ (Machine.execLogReadIndexWrite vf replay value s) := by
  unfold Machine.execLogReadIndexWrite
  show s₀.Sound _
  split
  exacts [h, h.setVfReg]

theorem hostStore {bytes : List Byte} {x : Nat × Nat × Nat} (h : s₀.Sound s) : s₀.Sound (s.hostStore vf bytes x) := by
  unfold State.hostStore
  split
  exacts [h.storeBytes.noteAccess, h.hold, h.holdFill, h]

theorem execHostPostedWrite {addr : Nat} {bytes : List Byte} (h : s₀.Sound s) : Out.Sound s₀ (Machine.execHostPostedWrite vf addr bytes s) := by
  unfold Machine.execHostPostedWrite
  show s₀.Sound _
  split
  exacts [h, h.foldl fun _ _ h1 => h1.hostStore]

/-! ### The meaning of every instruction -/

theorem exec {i : Instr} (h : s₀.Sound s) : Out.Sound s₀ (Machine.exec i s) := by
  cases i with
  | add | sub | mul | mulhi | mad | div | rem | min | max | abs | neg | adds | subs => exact h.runOp fun _ => h.intElems
  | and | or | xor | not | andn | brev | mov => exact h.runOp fun _ => h.bitOp
  | shl | shr => exact h.runOp fun _ => h.shiftOp
  | rotl | bfx | bfi | cmp | bpick | elect | qstate | mstate | probe => exact h.runOp fun _ => h.writesWord
  | popc | clz | ctz => exact h.runOp fun _ => h.bitCount
  | pick | first => exact h.runOp fun _ => h.writes
  | fAdd | fSub | fMul | fma | fDiv | sqrt | fMin | fMax | fAbs | fNeg | fCmp | fclass | rcp | rsqrt | exp2 | log2 | sin | cos
  | tanh => exact h.runOp fun _ => h.floatElems
  | cvt | cvtPk => exact h.runOp fun _ => h.numeric
  | xchLane | xchRot | xchPair | xchSeg => exact h.runOp fun _ => h.exchange
  | voteAll | voteAny | voteUni | ballot => exact h.runOp fun _ => h.groupWord
  | lredAdd | lredMin | lredMax => exact h.runOp fun _ => h.laneReduce
  | ld => exact h.execLd
  | st => exact h.execSt
  | ldX4 => exact h.execLdX4
  | stX4 => exact h.execStX4
  | qfeed => exact h.execQfeed
  | qpop => exact h.execQpop
  | cpAsync => exact h.execCpAsync
  | twaitAny | twaitAll => exact h.runOp fun _ => h.tagWait fun _ _ _ h1 => h1
  | tfirst => exact h.runOp fun _ => h.tagWait fun _ _ _ h1 => h1.writeLanes
  | bind => exact h.execBind
  | unbind => exact h.execUnbind
  | acqX => exact h.execAcqX
  | acqS => exact h.execAcqS
  | rel => exact h.execRel
  | fence => exact h.execFence
  | wsig => exact h.execWsig
  | barInit => exact h.execBarInit
  | barArrive => exact h.execBarArrive
  | barWait | dbarWait => exact h.runOp fun _ => h.barWait
  | barExpect => exact h.execBarExpect
  | barLink => exact h.execBarLink
  | dbarInit => exact h.execDbarInit
  | dbarArrive => exact h.execDbarArrive
  | atomAdd | atomMin | atomMax | atomAnd | atomOr | atomXor | atomXchg => exact h.runOp fun _ => h.atomicOff
  | redAdd | redMin | redMax | redAnd | redOr | redXor => exact h.runOp fun _ => h.reduce
  | atomCas => exact h.execAtomCas
  | mres => exact h.execMres
  | mrel => exact h.execMrel
  | obres => exact h.execObres
  | obrel => exact h.execObrel
  | tld | tst => exact h.runOp fun _ => h.tileTransfer
  | tclr => exact h.execTclr
  | mfenceOp => exact h.execMfenceOp
  | mlaunch => exact h.execMlaunch
  | mwait => exact h.execMwait
  | quit | quitIf | next | nextIf => exact h.runOp fun _ => h.leaveLoops
  | ret | retIf | exit | exitIf => exact h.runOp fun _ => h.leaveIf
  | spawn => exact h.execSpawn
  | launch => exact h.execLaunch
  | yield => exact h.runOp fun _ => updGroup (h.congr rfl)
  | ctlGet => exact h.runOp fun _ => h.writeLanes
  | ctlSet => exact h.execCtlSet
  | trap | halt | nop | brk => exact h.runOp fun _ => h
  | prof => exact h.execProf
  | stag => exact h.execStag
  | ltag => exact h.execLtag
  | selectRun => exact h.execSelectRun
  | demotion => exact h.execDemotion
  | demotionEnd => exact h.updGroup
  | groupEnd => exact h.execGroupEnd
  | barrierTimeLimit => exact h.execBarrierTimeLimit
  | peerAbsent => exact h.execPeerAbsent
  | chunkLand => exact h.execChunkLand
  | feedComplete => exact h.execFeedComplete
  | tileEntryRemove => exact h.execTileEntryRemove
  | tileTransferChunk => exact h.execTileTransferChunk
  | matrixCommit => exact h.execMatrixCommit
  | epilogueStoreChunk => exact h.execEpilogueStoreChunk
  | latchGrant => exact h.execLatchGrant
  | acknowledge => exact h.execAcknowledge
  | walk => exact h.execWalk
  | depsRecheck => exact h.rejudge.writePrios
  | admitRegion => exact h.execAdmitRegion
  | placeWorkgroup => exact h.execPlaceWorkgroup
  | quantumEnd => exact h.execQuantumEnd
  | agedPriority => exact h.execAgedPriority
  | preempt => exact h.execPreempt
  | restore => exact h.execRestore
  | regionComplete => exact h.tryComplete.rejudgeVf
  | regionEnd => exact h.endSubtree.rejudgeVf
  | pageMoveComplete => exact h.execPageMoveComplete
  | tierMove => exact h.execTierMove
  | partitionEnable => exact h.execPartitionEnable
  | partitionDisable => exact h.execPartitionDisable
  | partitionStop => exact h.execPartitionStop
  | vfStop => exact h.execVfStop
  | vfResume => exact h.execVfResume
  | groupResume => exact h.execGroupResume
  | groupKill => exact h.execGroupKill
  | logProgram => exact h.execLogProgram
  | guestSwitch => exact h.execGuestSwitch
  | invalidatePageS1 => exact h.execInvalidatePageS1
  | invalidateAllS1 => exact h.execInvalidateAllS1
  | invalidatePageS2 => exact h.execInvalidatePageS2
  | invalidateVf => exact h.execInvalidateVf
  | invalidationComplete => exact h.execInvalidationComplete
  | dieOffline => exact h.execDieOffline
  | dieOnline => exact h.execDieOnline
  | diePagesMoved => exact h.execDiePagesMoved
  | dieDrained => exact h.execDieDrained
  | registerWrite => exact h.writeRegister
  | reset => exact h.execReset
  | clockLower => exact h.execClockLower
  | uncorrectableError => exact h.execUncorrectableError
  | correctedError => exact h.countError
  | linkRetrain => exact h.execLinkRetrain
  | keyRollover => exact h.execKeyRollover
  | retireMessage => exact h.execRetireMessage
  | retireReceive => exact h.execRetireReceive
  | flitReceive => exact h.execFlitReceive
  | getVersion | getCapabilities | negotiateAlgorithms | getDigests | getCertificate | challenge | getMeasurements | keyExchange
  | finish | heartbeat | keyUpdate | endSession | unsupportedRequest => exact h.answer
  | debugEnable => exact h.enableDebug
  | recordEnable => exact h.enableRecord
  | playEnable => exact h.setPlay
  | samplerEnable => exact h.enableSampler
  | tagSamplingEnable => exact h.enableTagging
  | checkpointRestore => exact h.restoreCheckpoint
  | debugPark => exact h.execDebugPark
  | debugResume => exact h.execDebugResume
  | debugEndDemotion => exact h.execDebugEndDemotion
  | debugKill => exact h.execDebugKill
  | samplePeriodic => exact h.execSamplePeriodic
  | checkpoint => exact h.execCheckpoint
  | clockRestore => exact h.setReg
  | logReadIndexWrite => exact h.execLogReadIndexWrite
  | hostPostedWrite => exact h.execHostPostedWrite

/-! ### The moves of the machine and its step -/

theorem passCounters {dt : Nat} (h : s₀.Sound s) : s₀.Sound (s.passCounters dt vf) := by
  unfold State.passCounters
  dsimp only
  split
  exacts [h.count.count, h]

theorem advance {dt : Nat} (h : s₀.Sound s) : s₀.Sound (s.advance dt) :=
  foldl (h.of_tables rfl) (fun _ _ h1 => h1.passCounters)

theorem badPosition {stage2 : Bool} (h : s₀.Sound s) : s₀.Sound (s.badPosition is cls addr stage2) :=
  h.takeHit

theorem dropRun (h : s₀.Sound s) : s₀.Sound (s.dropRun core slot) :=
  h.squash.updGroup

theorem performAt {l : Lane} (h : s₀.Sound s) : Out.Sound s₀ (s.performAt core slot is l) := by
  unfold State.performAt
  split
  · split
    exacts [h.dropRun, h.exec]
  · exact h.dropRun
  · exact h.badPosition

theorem groupMove (h : s₀.Sound s) : Out.Sound s₀ (s.groupMove core slot) := by
  unfold State.groupMove
  dsimp only
  split
  · exact h
  · split
    · exact h
    · split
      · exact h.exec
      · split
        exacts [h, h.issueAs.onCode fun _ h1 => h1.performAt]

theorem beginSlice {a : AccessSlice} (h : s₀.Sound s) : s₀.Sound (s.beginSlice is a) := by
  unfold State.beginSlice
  dsimp only
  split
  · exact h.awaitFault
  · split
    · exact h.awaitFault
    · split <;> exact h.updGroup.codeRead

theorem sliceMove (h : s₀.Sound s) : Out.Sound s₀ (s.sliceMove core slot) := by
  unfold State.sliceMove
  split
  · exact h
  · extract_lets again s' s1
    have h' : s₀.Sound s' := by
      unfold s'
      split
      exacts [h.updGroup, h]
    have h1 : s₀.Sound s1 := h'.issueAs
    split
    · split
      · exact h'
      · refine h1.onCode fun t ht => ?_
        split
        · exact ht.beginSlice
        · split
          exacts [ht.exec, ht.retireSlice, ht.badPosition]
    · exact h'

theorem move {w : Who} (h : s₀.Sound s) : Out.Sound s₀ (s.move w) := by
  unfold State.move
  split
  · exact h.groupMove
  · exact h.sliceMove
  · split
    exacts [h, h.exec]

theorem before {m : Move} {rest : List Move} (h : s₀.Sound s) : s₀.Sound (s.before m rest) :=
  advance (h.congr rfl)

theorem settled (h : s₀.Sound t) (h' : s₀.Sound s) : s₀.Sound (t.settled s) := by
  unfold State.settled
  split
  exacts [h'.replayStop, h.orWait h']

theorem make {x : Who} (h : s₀.Sound s) : Out.Sound s₀ (s.make x) := by
  have hm : Out.Sound s₀ (s.move x) := h.move
  unfold State.make
  split
  exacts [(hm.next ‹_›).settled h, hm]

theorem takeStep (h : s₀.Sound s) : Out.Sound s₀ (s.takeStep) := by
  unfold State.takeStep
  split
  · exact h.before.make
  · split
    exacts [h.before.make, h.advance]

theorem step (h : s₀.Sound s) : Out.Sound s₀ (Machine.step s) :=
  h.takeStep

end State.Keeps

/-- Settles O58: every update that a step makes keeps the canonical form of the tables, and the part. -/
theorem stepKeepsTables : Obligations.StepKeepsTables := by
  intro s t hs ht
  obtain ⟨hcanonical, hpart, -, -⟩ := Out.Sound.next (State.Keeps.refl s).step ht
  exact ⟨hcanonical hs, hpart⟩

end Sys2Proof.Machine
end

section
/-! SUPPORT. How the leaving operations end (R52, R53, R162 to R164). -/

namespace Sys2Proof.Machine

/-! ## Leaving operations (R52, R53, R162 to R164) -/

section Leaving

variable {i : Instr} {s : State} {is : Issue} {body : Issue → Effect} {taken : Nat → Bool} {k : LeaveKind} {n : Nat}

/-- A leaving operation that passes its checks: the lanes that take it leave as `k`, the others go on. -/
theorem runOp_leaveIf (h : Ready i s is) (hb : body is = leaveIf s taken k) :
    runOp i s body = .next (s.retire is i false (fun L => if taken L then k else .succ)) :=
  runOp_leave h.1 h.2 hb

/-- An operation that leaves as many loops as enclose it, or fewer. -/
theorem runOp_leaveLoops (h : Ready i s is) (hn : n ≠ 0 ∧ n ≤ is.loopCount s) (hb : body is = leaveLoops s is n taken k) :
    runOp i s body = .next (s.retire is i false (fun L => if taken L then k else .succ)) := by
  refine runOp_leaveIf h (hb.trans (if_neg ?_))
  omega

/-- An operation that leaves no loop, or more than enclose it. -/
theorem runOp_leaveLoops_unfit (h : Ready i s is) (hn : ¬ (n ≠ 0 ∧ n ≤ is.loopCount s)) (hb : body is = leaveLoops s is n taken k) :
    runOp i s body = .next (s.takeHit is (Hit.plain .badStructure is.mask 0)) := by
  refine runOp_hit h.1 h.2 (hb.trans (if_pos ?_))
  omega

end Leaving

/-- Settles O27: an operation on loops that fit leaves them, one on loops that do not fit takes the fault, and a return or an exit always leaves. -/
theorem leavingOperations : Obligations.LeavingOperations := by
  intro f s is n fits leaves faults cond
  refine ⟨fun h => ?quit, fun h => ?quitIf, fun h => ?next, fun h => ?nextIf, fun h => ?ret, fun h => ?retIf, fun h => ?exit, fun h => ?exitIf⟩
  case quit | quitIf | next | nextIf => exact ⟨fun hn => runOp_leaveLoops h hn rfl, fun hn => runOp_leaveLoops_unfit h hn rfl⟩
  case ret | retIf | exit | exitIf => exact runOp_leaveIf h rfl

end Sys2Proof.Machine
end

section
/-! SUPPORT. The events of groups: the choice of a run, demotions, the end of a group, and the limits of its waits (R66, R70, R87, R88, R96, R117, R282,
R317). -/

namespace Sys2Proof.Machine

section Selection

variable {s t : State} {core slot vf ctx func p L : Nat} {g g' : Group} {is : Issue} {w : Workgroup} {r : Region} {run : Mask}

/-! ## Promotions, and the code that a fetch reads (R282) -/

theorem State.dropPage_groups (s : State) (vf gpa bits : Nat) : (s.dropPage vf gpa bits).groups = s.groups := rfl

theorem State.startMove_groups (s : State) (vf ctx : Nat) (l : Leaf) (dst : Nat) (up : Bool) : (s.startMove vf ctx l dst up).groups = s.groups := by
  rw [State.startMove, State.dropPage_groups]

theorem State.freeVictim_groups (s : State) (p : Nat) : (s.freeVictim p).groups = s.groups := by
  unfold State.freeVictim
  split
  · rfl
  · split
    · split
      · exact State.startMove_groups ..
      · rfl
    · rfl

theorem State.startFill_groups (s : State) (vf ctx gpa : Nat) : (s.startFill vf ctx gpa).groups = s.groups := by
  unfold State.startFill
  split
  · split
    · rfl
    · split
      · exact State.startMove_groups ..
      · exact State.freeVictim_groups ..
  · rfl

theorem State.fillPages_groups (s : State) (vf ctx : Nat) (vas : List Nat) : (s.fillPages vf ctx vas).groups = s.groups := by
  unfold State.fillPages
  induction vas generalizing s with
  | nil => rfl
  | cons a vas ih =>
    rw [List.foldl_cons, ih]
    split
    · exact State.startFill_groups ..
    · rfl

/-- A fetch from pages none of which moves goes on, once they have been visited. -/
theorem State.onCode_free {f : State → Out} (h : ∀ k ∈ s.codePages w r func p, s.busyPage w.vf w.ctx (k * 65536) = false) :
    s.onCode w r func p f = f ((s.codePages w r func p).foldl (fun s k => s.visit w.vf w.ctx (k * 65536)) s) :=
  if_neg (by simpa using h)

/-- A fetch from a page that moves waits, and calls for the promotions that it needs. -/
theorem State.onCode_busy {f : State → Out} (h : ∃ k ∈ s.codePages w r func p, s.busyPage w.vf w.ctx (k * 65536) = true) :
    s.onCode w r func p f = .next (s.fillPages w.vf w.ctx ((s.codePages w r func p).map (fun k => k * 65536))) :=
  if_pos (by simpa using h)

/-! ## The choice of a run (R66, R70) -/

/-- A group that its issue slot selects fetches at its least position, and dispatches the lanes there. -/
theorem exec_selectRun (hg : s.group? core slot = some g) (hi : ((s.demoteNow g).issueAs core slot false 0).issue? = some is) (hr : g.run = 0)
    (hs : (s.demoteNow g).selects is.g = true)
    (hL : is.leastLane ((s.demoteNow g).issueAs core slot false 0).mem (lanesOf is.g.eligible) = some L) :
    exec (.selectRun core slot) s = ((s.demoteNow g).issueAs core slot false 0).onCode is.w is.r (is.g.lane L).func.toNat (is.g.lane L).parcel
      (fun t => .next (t.dispatchRun is L
        (is.atLane ((s.demoteNow g).issueAs core slot false 0).mem (lanesOf is.g.eligible) L))) := by
  show execSelectRun core slot s = _
  simp only [execSelectRun, hg, hr, ne_eq, not_true_eq_false, if_false, hi, hs, Bool.not_true, Bool.false_eq_true, Issue.nextRun, hL,
    Option.map_some]

theorem maskOf_eq_zero {P : Nat → Bool} (h : ∀ K, P K = false) : maskOf P = 0 := by
  obtain rfl : P = fun _ => false := funext h
  decide

/-- The run of the group in a slot. -/
def State.runAt (s : State) (core slot : Nat) : Option Mask := (s.group? core slot).map Group.run

theorem State.runAt_of_groups (h : t.groups = s.groups) (core slot : Nat) : t.runAt core slot = s.runAt core slot := by
  rw [State.runAt, State.group?, h]
  rfl

/-- An update of one slot's group that keeps its place and its run. -/
theorem State.runAt_updGroup {F : Group → Group} (hF : ∀ g, (F g).core = g.core ∧ (F g).slot = g.slot) (hr : ∀ g, (F g).run = g.run)
    (c k : Nat) : (s.updGroup core slot F).runAt c k = s.runAt c k := by
  rw [State.runAt, State.group?_updGroup s core slot F hF, Option.map_map, State.runAt]
  refine congrFun (congrArg Option.map (funext fun g => ?_)) _
  rw [Function.comp_apply]
  split
  · exact hr g
  · rfl

@[simp] theorem State.count_groups (s : State) (core vf ctx code n : Nat) : (s.count core vf ctx code n).groups = s.groups := by
  unfold State.count
  split <;> rfl

@[simp] theorem State.countMiss_groups (s : State) (core vf ctx : Nat) : (s.countMiss core vf ctx).groups = s.groups := by
  unfold State.countMiss
  split
  · exact State.count_groups ..
  · rfl

theorem State.tagRun_runAt (s : State) (g : Group) (w : Workgroup) (r : Region) (run : Mask) (c k : Nat) :
    (s.tagRun g w r run).runAt c k = s.runAt c k := by
  unfold State.tagRun
  split
  · rfl
  · split
    · rfl
    · exact (State.runAt_updGroup (by exact fun _ => ⟨rfl, rfl⟩) (by exact fun _ => rfl) c k).trans (State.runAt_of_groups rfl c k)

/-- Where an operation stands, and no lane of the run waits at the start of its function, the run of the group is the one that it dispatches. -/
theorem State.dispatchRun_runAt (hf : is.fetch s (is.g.lane L) ≠ .header) (hw : ∀ K, run.getLsbD K → (is.g.lane K).atStart = false) :
    (s.dispatchRun is L run).runAt is.g.core is.g.slot =
      ((s.endYields is.g.core is.g.slot).group? is.g.core is.g.slot).map (fun _ => run) := by
  have hz : maskOf (fun K => run.getLsbD K && (is.g.lane K).atStart) = 0 := maskOf_eq_zero fun K => by
    cases hK : run.getLsbD K with
    | false => rfl
    | true => exact hw K hK
  unfold State.dispatchRun
  extract_lets core slot waiting is1 s1 s2 s3
  rw [if_neg (not_not.2 hz)]
  split
  case h_1 h => exact absurd h hf
  rw [State.runAt_of_groups (State.countMiss_groups ..), State.tagRun_runAt, State.runAt_of_groups (State.count_groups ..)]
  show (State.updGroup _ core slot (Group.dispatch s.seq run)).runAt core slot = _
  rw [State.runAt, State.group?_updGroup _ core slot (Group.dispatch s.seq run) (fun _ => ⟨rfl, rfl⟩), Option.map_map]
  refine Option.map_congr fun g hg => ?_
  rw [Function.comp_apply, if_pos (State.group?_place _ hg)]
  rfl

/-- The group that an issue slot selects comes before every ready group there, unless that one has yielded while another has not (R70, R170). -/
theorem State.older_of_selects {h : Group} (hs : s.selects g = true) (hh : h ∈ (s.onSlot g.core g.slot).filter s.ready)
    (hy : h.yielded = false ∨ ∀ x ∈ (s.onSlot g.core g.slot).filter s.ready, x.yielded = true) : g.older h = true := by
  unfold State.selects at hs
  simp only [Bool.and_eq_true, List.all_eq_true] at hs
  refine hs.2 h ?_
  split
  · exact hh
  · next hn =>
    rcases hy with hy | hy
    · exact List.mem_filter.2 ⟨hh, by simp [hy]⟩
    · exact absurd (List.all_eq_true.2 hy) (by simpa using hn)

theorem Group.older_iff {h : Group} :
    g.older h = true ↔ g.lastDispatch < h.lastDispatch ∨ g.lastDispatch = h.lastDispatch ∧ g.slot ≤ h.slot := by
  simp [Group.older]

theorem State.mem_readyOnSlot {x : Group} :
    x ∈ (s.onSlot core slot).filter s.ready ↔ x ∈ s.groups ∧ x.core = core ∧ x.slot % 4 = slot % 4 ∧ s.ready x = true := by
  simp only [State.onSlot, List.mem_filter, Bool.and_eq_true, beq_iff_eq, and_assoc]

/-! ## Demotions (R87, R88) -/

theorem State.demoteNow_of_count (hw : s.wg? g.wg = some w) (hc : 64 ≤ g.spinCount) (ho : g.spinOff = false) :
    s.demoteNow g = (s.updGroup g.core g.slot (Group.demote s.now)).count g.core w.vf w.ctx 0x0D 1 := by
  simp [State.demoteNow, hw, hc, ho]

theorem Demotion.over_iff {now : Nat} {d : Demotion} :
    d.over now g = true ↔ d.began + 4096 ≤ now ∧ (d.otherRan = true ∨ ¬ (d.otherEligible = true ∨ g.run = 0 ∧ g.eligible ≠ 0)) := by
  simp only [Demotion.over, Bool.and_eq_true, decide_eq_true_eq, Bool.or_eq_true, Bool.not_eq_true', ← Bool.not_eq_true, beq_iff_eq, bne_iff_ne]

theorem Group.mem_demos_endDemotions {P : Demotion → Bool} {d : Demotion} : d ∈ (g.endDemotions P).demos ↔ d ∈ g.demos ∧ ¬ P d = true := by
  unfold Group.endDemotions
  split
  · simp
  · next h => exact ⟨fun hd => ⟨hd, fun hp => h (List.any_eq_true.2 ⟨d, hd, hp⟩)⟩, And.left⟩

theorem Group.endDemotions_spinCount {P : Demotion → Bool} (h : ∃ d ∈ g.demos, P d = true) (hc : g.spinCount < 64) :
    (g.endDemotions P).spinCount = 0 := by
  rw [Group.endDemotions, if_pos (List.any_eq_true.2 h)]
  exact if_neg (by omega)

theorem Group.endDemotions_eq_self {P : Demotion → Bool} (h : ∀ d ∈ g.demos, ¬ P d = true) : g.endDemotions P = g :=
  if_neg fun ha => by
    obtain ⟨d, hd, hp⟩ := List.any_eq_true.1 ha
    exact h d hd hp

/-- The group in the slot, as the end of its demotions leaves it. -/
theorem State.group?_endDemotions (hg : s.group? core slot = some g) :
    (s.updGroup core slot (fun g => g.endDemotions (Demotion.over s.now g))).group? core slot = some (g.endDemotions (Demotion.over s.now g)) := by
  rw [State.group?_updGroup, hg, Option.map_some, if_pos (s.group?_place hg)]
  intro g
  unfold Group.endDemotions
  split <;> exact ⟨rfl, rfl⟩

/-! ## The end of a group, and the limits of its waits (R96, R117, R317) -/

theorem exec_groupEnd_waits (hg : (s.payAt core slot).group? core slot = some g) (hw : (s.payAt core slot).wg? g.wg = some w)
    (hr : (s.payAt core slot).region? w.vf w.rcb = some r)
    (h : g.allRetired = false ∨ g.owed ≠ 0 ∨ (s.payAt core slot).releasesWait g w = true) :
    exec (.groupEnd core slot) s = .next (s.payAt core slot) := by
  show execGroupEnd core slot s = _
  simp only [execGroupEnd, hg, hw, hr]
  rw [if_pos (by simpa using h)]

theorem exec_groupEnd_ends (ht : t = s.payAt core slot) (hg : t.group? core slot = some g) (hw : t.wg? g.wg = some w)
    (hr : t.region? w.vf w.rcb = some r) (ha : g.allRetired = true) (ho : g.owed = 0) (hl : t.releasesWait g w = false) :
    let s2 := ((g.holds.map (fun h => h.pa)).foldl (fun s pa => s.grantAll pa) (t.releaseHolds g)).recordSlice g w r
    let s3 := { s2 with groups := s2.groups.filter (fun x => !(x.core == core && x.slot == slot)) }
    ∀ w1, s3.wg? w.id = some w1 → exec (.groupEnd core slot) s =
      .next ((if s3.groups.any (fun x => x.wg == w.id) then s3 else s3.endWorkgroup w1 r).rejudgeVf w.vf) := by
  intro s2 s3 w1 h1
  show execGroupEnd core slot s = _
  simp only [execGroupEnd, ← ht, hg, hw, hr]
  rw [if_neg (by simp [ha, ho, hl])]
  simp only [s3, s2] at h1
  simp only [h1]
  rfl

theorem exec_barrierTimeLimit {x : Dword} (hg : s.group? core slot = some g) (hr : g.run ≠ 0)
    (hi : (s.issueAs core slot false g.run).issue? = some is) (hx : is.overdue = some x) :
    exec (.barrierTimeLimit core slot) s = .next ((s.issueAs core slot false g.run).takeHit is (Hit.plain .barrierTimeLimit is.mask x)) := by
  show execBarrierTimeLimit core slot s = _
  simp only [execBarrierTimeLimit, hg, hi, hx, if_neg hr]

/-- A wait for an absent peer at its limit makes the last checks of its operation. -/
theorem exec_peerAbsent {i : Instr} (hg : s.group? core slot = some g) (hr : g.run ≠ 0) (hp : g.park = none)
    (hi : (s.issueAs core slot false g.run).issue? = some is) (hl : is.peerLimit = true) (hf : is.fetch s (g.lane (lowest g.run)) = .op i) :
    exec (.peerAbsent core slot) s = peerOp i (s.issueAs core slot false g.run) := by
  show execPeerAbsent core slot s = _
  simp only [execPeerAbsent, hg, hi, hl, hf]
  exact if_neg (by simpa [hp] using hr)

/-- The operations that can name a peer do what their meanings say. -/
theorem peerOp_of_mayNamePeer {i : Instr} (h : MayNamePeer i) (s : State) : peerOp i s = exec i s := by
  unfold MayNamePeer at h
  split at h
  case h_27 => exact h.elim
  all_goals rfl

/-- Each of them is one operation of the group in issue, and so answers a next state. -/
theorem exec_next_of_mayNamePeer {i : Instr} (h : MayNamePeer i) (hi : s.issue? = some is) : ∃ t, exec i s = .next t := by
  unfold MayNamePeer at h
  split at h
  case h_27 => exact h.elim
  all_goals exact runOp_next hi

theorem peerOp_of_not_mayNamePeer {i : Instr} (h : ¬ MayNamePeer i) (s : State) : peerOp i s = .next s := by
  unfold peerOp
  split
  case h_27 => rfl
  all_goals exact absurd trivial h

end Selection

/-- Settles O44: each event of a group answers the state of its one law above, where the conditions of the statement choose the branch. -/
theorem runsAndDemotions : Obligations.RunsAndDemotions := by
  refine ⟨?dispatch, ?selection, ?demotion, ?demotionEnd, ?groupEnd, ?barrier, ?peer⟩
  case dispatch =>
    intro s core slot L g is hg s0 s1 hi hr hs hL run l pages
    have he := exec_selectRun hg hi hr hs hL
    refine ⟨fun hfree => ⟨he.trans (State.onCode_free hfree), fun hf hw g' hg' => ?_⟩, fun hbusy =>
      ⟨_, he.trans (State.onCode_busy hbusy), State.fillPages_groups ..⟩⟩
    obtain ⟨hc, hk⟩ : is.g.core = core ∧ is.g.slot = slot := s1.group?_place (State.group?_of_issue? hi)
    have hrun := State.dispatchRun_runAt hf hw
    rw [hc, hk, State.runAt, hg'] at hrun
    obtain ⟨-, -, hrun⟩ := Option.map_eq_some_iff.1 hrun.symm
    exact hrun.symm
  case selection =>
    intro s core slot g hg _ hs h hh hc hk hrdy hy
    obtain ⟨rfl, rfl⟩ := s.group?_place hg
    refine Group.older_iff.1 (State.older_of_selects hs (State.mem_readyOnSlot.2 ⟨hh, hc, hk, hrdy⟩) (hy.imp_right fun hy x hx => ?_))
    obtain ⟨hx, hxc, hxk, hxr⟩ := State.mem_readyOnSlot.1 hx
    exact hy x hx hxc hxk hxr
  case demotion =>
    intro s core slot g w hg hw hr hc ho
    show execDemotion core slot s = _
    rw [execDemotion, hg]
    exact congrArg Host.Outcome.next ((if_pos hr).trans (State.demoteNow_of_count hw hc ho))
  case demotionEnd =>
    intro s core slot g hg ended
    refine ⟨_, _, rfl, rfl, State.group?_endDemotions hg, fun d => ?_, fun h hc => ?_, fun h => ?_⟩
    · rw [Group.mem_demos_endDemotions, Demotion.over_iff]
    · exact Group.endDemotions_spinCount (by simpa only [Demotion.over_iff] using h) hc
    · exact Group.endDemotions_eq_self fun d hd ho => h d hd (Demotion.over_iff.1 ho)
  case groupEnd =>
    intro s0 core slot g w r s hg hw hr
    exact ⟨exec_groupEnd_waits hg hw hr, exec_groupEnd_ends rfl hg hw hr⟩
  case barrier =>
    intro s core slot g is x hg hr s1 hi hx
    exact exec_barrierTimeLimit hg hr hi hx
  case peer =>
    intro s core slot g is i hg hr hp s1 hi hl hf
    have he := exec_peerAbsent hg hr hp hi hl hf
    refine ⟨fun hm => ?_, fun hm => he.trans (peerOp_of_not_mayNamePeer hm s1)⟩
    rw [he, peerOp_of_mayNamePeer hm]
    exact ⟨rfl, exec_next_of_mayNamePeer hm hi⟩

end Sys2Proof.Machine
end

section
/-! SUPPORT. The events of the region arbiter: walks, admission, placement, quanta and aging (R101 to R114). -/

namespace Sys2Proof.Machine

section Arbiter

variable {s t : State} {vf rcb : Nat} {r : Region} {k c o : Nat}

/-! ## The events of the region arbiter (R101 to R114) -/

/-- A list whose links word reads as the last walk left it is not walked. -/
theorem exec_walk_unchanged {parent links head : Nat} {p : Region} (hv : s.vfEnabled vf = true) (hp : s.walkParent vf parent = some p)
    (hl : s.devRead vf p.ctx (p.va + 0x88) 4 = some links) (hh : s.devRead vf p.ctx (p.va + 0x78) 8 = some head)
    (hu : BitVec.ofNat 32 links = p.lastLinks) : exec (.walk vf parent) s = .next s := by
  show execWalk vf parent s = _
  simp only [execWalk, hv, hp, hl, hh, if_pos hu]

/-- A list whose links word has changed is walked up to the head of the last walk. -/
theorem exec_walk_changed {parent links head : Nat} {p : Region} (hv : s.vfEnabled vf = true) (hp : s.walkParent vf parent = some p)
    (hl : s.devRead vf p.ctx (p.va + 0x88) 4 = some links) (hh : s.devRead vf p.ctx (p.va + 0x78) 8 = some head)
    (hu : BitVec.ofNat 32 links ≠ p.lastLinks) :
    let q := { p with lastLinks := BitVec.ofNat 32 links, lastHead := if head % 2 ^ 60 = 0 then p.lastHead else head % 2 ^ 56 }
    let s1 := { s.visit vf p.ctx p.va with regions := q :: s.regions.filter (fun y => !(y.vf == vf && y.rcb == p.rcb)) }
    exec (.walk vf parent) s = .next ((s1.walkLinks q p.lastHead (2 ^ 32) head).rejudgeVf vf) := by
  show execWalk vf parent s = _
  simp only [execWalk, hv, hp, hl, hh, if_neg hu]

/-- A READY region that comes first is admitted with its first workgroup. -/
theorem exec_admitRegion (ht : t = (s.rejudge vf rcb).writePrios vf) (hr : t.region? vf rcb = some r) (hk : t.nextPlace r = some (k, c, o))
    (hst : r.st = 4) (hw : ∀ a ∈ r.words, t.busyPage vf r.ctx a = false) (hj : t.judge r = 4) (hp : t.placing r = true)
    (hf : t.isFirst r = true) :
    let q := { r with
      thin := t.thinFor r, code := t.imageParcels vf r.ctx r.eff.image, st := 5, deficit := r.deficit + r.quantumWork, quantumCycles := 0 }
    let t1 := ((t.firstAdmission r).updRegion vf rcb (fun _ => q)).writeRcbState q 5 0
    exec (.admitRegion vf rcb) s = .next ((t1.devWrite vf r.ctx (r.va + 0xC0) 8 t.hubTime).placeAt q k c o) := by
  have hw' : (!r.words.any (t.busyPage vf r.ctx)) = true := by simpa using hw
  show execAdmitRegion vf rcb s = _
  simp only [execAdmitRegion, ← ht, hr, hk]
  rw [if_pos ⟨hst, hw', hj, hp, hf⟩]

/-- The next workgroup of a running region that comes first is placed. -/
theorem exec_placeWorkgroup (ht : t = s.writePrios vf) (hr : t.region? vf rcb = some r) (hk : t.nextPlace r = some (k, c, o))
    (hst : r.st = 5) (hp : t.placing r = true) (hf : t.isFirst r = true) :
    exec (.placeWorkgroup vf rcb) s = .next (t.placeAt r k c o) := by
  show execPlaceWorkgroup vf rcb s = _
  simp only [execPlaceWorkgroup, ← ht, hr, hk]
  rw [if_pos ⟨hst, hp, hf⟩]

/-- The quantum of the region `r` has ended: `r` is no root, it runs or drains on some core, its quantum runs, and its cycles are over (R107). -/
def State.quantumOver (t : State) (r : Region) : Prop :=
  r.isRoot = false ∧ (r.st = 5 ∨ r.st = 6) ∧ t.regionCores r ≠ [] ∧ t.quantumRuns r = true ∧ r.eff.quantum * 1024 ≤ r.quantumCycles

/-- Another region that does not come after `r` waits for one of its cores, and each of these has a shadow slot free (R107, R395). -/
def State.coresWanted (t : State) (vf rcb : Nat) (r : Region) : Bool :=
  t.regions.any (fun q => q.open_ && !(q.vf == vf && q.rcb == rcb) && t.partOf q.vf == t.partOf vf &&
    t.eprio r ≤ t.eprio q && t.waitsFor q (t.regionCores r)) && (t.regionCores r).all t.shadowFree

/-- The region begins a new quantum. -/
def State.newQuantum (t : State) (vf rcb : Nat) : State := t.updRegion vf rcb (fun x => { x with quantumCycles := 0 })

/-- What the end of a quantum does: nothing more where the deficit is positive, a pre-emption where the cores are wanted, and else the deficit is
granted the work of a quantum (R107). -/
theorem exec_quantumEnd (ht : t = s.writePrios vf) (hr : t.region? vf rcb = some r) (ho : t.quantumOver r) :
    exec (.quantumEnd vf rcb) s = .next (
      if 0 < r.deficit then t.newQuantum vf rcb
      else if t.coresWanted vf rcb r = true then
        ({ t.newQuantum vf rcb with seq := (t.newQuantum vf rcb).seq + 1 }.stopWgs (fun w => w.vf == vf && w.rcb == rcb)).updRegion vf rcb
          (fun x => { x with ring := (t.newQuantum vf rcb).seq })
      else (t.newQuantum vf rcb).updRegion vf rcb (fun x => { x with deficit := x.deficit + r.quantumWork })) := by
  obtain ⟨hroot, hst, hc, hq, hcyc⟩ := ho
  show execQuantumEnd vf rcb s = _
  simp only [execQuantumEnd, ← ht, hr]
  rw [if_neg]
  · rfl
  · rintro (h | h | h | h | h)
    · simp [hroot] at h
    · rcases hst with hst | hst <;> simp [hst] at h
    · exact hc h
    · simp [hq] at h
    · omega

/-- After a stop every running workgroup that it names is stopping. -/
theorem State.stopWgs_stopping {p : Workgroup → Bool} {w : Workgroup} (hw : w ∈ (t.stopWgs p).wgs)
    (h : p w = true) (hs : w.saved = false) (he : w.ended = false) : w.stopping = true := by
  obtain ⟨x, -, rfl⟩ := List.mem_map.1 hw
  split
  · rfl
  · next hn =>
    rw [if_neg hn] at h hs he
    simpa [h, hs, he] using hn

/-- A region that has waited 16 quanta for its start ages by them (R108). -/
theorem exec_agedPriority (hr : s.region? vf rcb = some r) (hst : r.st = 4) (hc : 16 * (r.eff.quantum * 1024) ≤ r.quantumCycles) :
    exec (.agedPriority vf rcb) s = .next ((s.updRegion vf rcb (fun x => { x with
      waitedQuanta := x.waitedQuanta + 16, quantumCycles := x.quantumCycles - 16 * (r.eff.quantum * 1024) })).writePrios vf) := by
  show execAgedPriority vf rcb s = _
  simp only [execAgedPriority, hr]
  rw [if_pos ⟨hst, hc⟩]

end Arbiter

/-- Settles O46: each event of the arbiter answers the state of its one law above; a quantum's end has three, by the deficit and the waiting regions. -/
theorem regionArbitration : Obligations.RegionArbitration := by
  refine ⟨?walk, fun s vf rcb => ⟨rfl, rfl, rfl⟩, ?admission, ?placement, ?quantum, ?aging⟩
  case walk =>
    intro s vf parent links head p hv hp hl hh
    exact ⟨exec_walk_unchanged hv hp hl hh, exec_walk_changed hv hp hl hh⟩
  case admission =>
    intro s vf rcb r k c o t hr hk hst hw hj hp hf
    exact exec_admitRegion rfl hr hk hst hw hj hp hf
  case placement =>
    intro s vf rcb r k c o t hr hk hst hp hf
    exact exec_placeWorkgroup rfl hr hk hst hp hf
  case quantum =>
    intro s0 vf rcb r s hr hroot hst hc hq hcyc s1 wanted
    have h := exec_quantumEnd (s := s0) rfl hr ⟨hroot, hst, hc, hq, hcyc⟩
    refine ⟨fun hd => ?_, fun hd hw => ?_, fun hd hw => ⟨_, h, ?_⟩⟩
    · rw [h, if_pos hd]; rfl
    · rw [h, if_neg (by omega), if_neg]
      · rfl
      · exact Bool.not_eq_true _ ▸ hw
    · rw [if_neg (by omega), if_pos (show State.coresWanted _ vf rcb r = true from hw)]
      intro w hm hvf hrcb hs he
      exact State.stopWgs_stopping hm (by simp [hvf, hrcb]) hs he
  case aging =>
    intro s vf rcb r hr hst hc
    exact exec_agedPriority hr hst hc

end Sys2Proof.Machine
end

section
/-! SUPPORT. Retirement inside a leaf (R52, R66). -/

namespace Sys2Proof.Machine

/-! ## Trees that read the same parcels -/

namespace Trees

section

variable {t t' : Trees} (h : ∀ e p, t'.parcel e p = t.parcel e p)
include h

theorem opParcels_congr (e : FnEntry) (p stop : Nat) : t'.opParcels e p stop = t.opParcels e p stop := by
  simp only [opParcels, h]

theorem leafOps_congr (e : FnEntry) (hdr stop n p : Nat) : t'.leafOps e hdr stop n p = t.leafOps e hdr stop n p := by
  induction n generalizing p with
  | zero => rfl
  | succ n ih => simp only [leafOps, opParcels_congr h, ih]

theorem children_congr (e : FnEntry) (hdr stop n p : Nat) : t'.children e hdr stop n p = t.children e hdr stop n p := by
  induction n generalizing p with
  | zero => rfl
  | succ n ih => simp only [children, h, ih]

theorem parcels_congr (e : FnEntry) (p n : Nat) : t'.parcels e p n = t.parcels e p n := by
  induction n with
  | zero => rfl
  | succ n ih => simp only [parcels, h, ih]

theorem node_congr (e : FnEntry) (p level : Nat) : t'.node e p level = t.node e p level := by
  simp only [node, h, leafOps_congr h, children_congr h, parcels_congr h]

theorem descendFrom_congr (e : FnEntry) (p n : Nat) (c : List Node) : t'.descendFrom e p n c = t.descendFrom e p n c := by
  induction n generalizing c with
  | zero => rfl
  | succ n ih =>
    cases c with
    | nil => rfl
    | cons nd c => simp only [descendFrom, node_congr h, ih]

theorem descend_congr (e : FnEntry) (p : Nat) : t'.descend e p = t.descend e p := by
  simp only [descend, node_congr h, descendFrom_congr h]

end
end Trees

/-- In the leaf of function `func` that holds the operation at parcel `p`, the next one is at parcel `o` (R52). -/
def Trees.NextInLeaf (t : Trees) (func p o : Nat) : Prop :=
  ∃ e nd up, t.fn? func = some e ∧ t.descend e p = (nd :: up, none) ∧ nd.ops.find? (fun x => p < x) = some o

/-- A lane that has gone on to the operation at parcel `p` of its leaf: it stands there, and waits for no first position (R33, R52). -/
def Lane.movedTo (l : Lane) (p : Nat) : Lane := { l with pos := posWord l.depth p, atStart := false }

/-- The lanes of a group after those of the mask have each gone on to the parcel that `next` gives. -/
def Issue.movedLanes (is : Issue) (next : Nat → Nat) : List Lane :=
  (lanesOf is.mask).foldl (fun ls L => ls.set L ((is.g.lane L).movedTo (next L))) is.g.lanes

theorem mem_lanesOf {m : Mask} {L : Nat} : L ∈ lanesOf m ↔ L < 32 ∧ m.getLsbD L = true := by
  simp [lanesOf]

theorem getElem?_foldl_set {α : Type} (f : Nat → α) (L : Nat) (ks : List Nat) (ls : List α) (hL : L < ls.length) :
    (ks.foldl (fun ls K => ls.set K (f K)) ls)[L]? = if L ∈ ks then some (f L) else ls[L]? := by
  induction ks generalizing ls with
  | nil => rfl
  | cons K ks ih =>
    rw [List.foldl_cons, ih _ (by simpa using hL), List.getElem?_set]
    rcases eq_or_ne K L with rfl | hK
    · simp [hL]
    · simp [hK, hK.symm]

theorem ok_of_toOption {ε α : Type} {x : Except ε α} {a : α} (h : x.toOption = some a) : x = .ok a := by
  cases x with
  | error e => cases h
  | ok b => cases h; rfl

section Straight

variable {s : State} {core slot vf ctx : Nat} {g : Group} {is : Issue} {w : Workgroup} {r : Region} {run : Mask} {F : Group → Group}
  {next : Nat → Nat} {t : Trees} {i : Instr} {loud : Bool}

theorem Issue.lane_movedLanes {L : Nat} (h32 : is.g.lanes.length = 32) (hL : L < 32) {g' : Group} (hg : g'.lanes = is.movedLanes next) :
    g'.lane L = if is.mask.getLsbD L then (is.g.lane L).movedTo (next L) else is.g.lane L := by
  rw [Group.lane, hg, Issue.movedLanes, getElem?_foldl_set (fun K => (is.g.lane K).movedTo (next K)) L _ _ (h32 ▸ hL)]
  simp only [mem_lanesOf, hL, true_and]
  split <;> rfl

/-! ## Resolutions that stay in the leaf -/

/-- What a fetch reads does not depend on the groups. -/
theorem State.placeShared_updGroup (through : Bool) (vf ctx va : Nat) (write : Bool) :
    (s.updGroup core slot F).placeShared through vf ctx va write = s.placeShared through vf ctx va write := rfl

theorem State.codeView_updGroup (through : Bool) (vf ctx image : Nat) (old : Option (Sparse 33)) :
    (s.updGroup core slot F).codeView through vf ctx image old = s.codeView through vf ctx image old := by
  simp only [State.codeView, State.placeShared_updGroup]

theorem State.codeBytes_updGroup (cv : CodeView) (va : Nat) : (s.updGroup core slot F).codeBytes cv va = s.codeBytes cv va := by
  simp only [State.codeBytes, State.placeShared_updGroup, State.updGroup_mem]

theorem State.codeWord_updGroup (cv : CodeView) (va : Nat) : (s.updGroup core slot F).codeWord cv va = s.codeWord cv va := by
  rw [State.codeWord, State.codeBytes_updGroup, State.updGroup_fresh]
  rfl

theorem State.codeWords_updGroup (cv : CodeView) (va n : Nat) : (s.updGroup core slot F).codeWords cv va n = s.codeWords cv va n := by
  induction n with
  | zero => rfl
  | succ n ih => simp only [State.codeWords, ih, State.codeWord_updGroup]

theorem State.imageHeader_updGroup (cv : CodeView) : (s.updGroup core slot F).imageHeader cv = s.imageHeader cv := by
  rw [State.imageHeader, State.codeWords_updGroup, State.imageHeader]

/-- The trees of an image are read alike after a change of a group. -/
theorem State.readTrees_updGroup {image : Nat} {old : Option (Sparse 33)} (h : s.readTrees vf ctx image old = .ok t) :
    (s.updGroup core slot F).readTrees vf ctx image old = .ok { t with s := s.updGroup core slot F } := by
  simp only [State.readTrees, State.codeView_updGroup, State.imageHeader_updGroup] at h ⊢
  cases hh : s.imageHeader (s.codeView false vf ctx image old) with
  | error x =>
    simp only [hh] at h
    cases h
  | ok x =>
    simp only [hh] at h
    cases h
    rfl

theorem State.readTrees_s {image : Nat} {old : Option (Sparse 33)} (h : s.readTrees vf ctx image old = .ok t) : t.s = s := by
  unfold State.readTrees at h
  cases hh : s.imageHeader (s.codeView false vf ctx image old) with
  | error x =>
    simp only [hh] at h
    cases h
  | ok x =>
    simp only [hh] at h
    cases h
    rfl

/-- A tree reads the same function table and the same parcels after a change of a group. -/
theorem Trees.readFn_updGroup (t : Trees) (func : Nat) : Trees.readFn { t with s := t.s.updGroup core slot F } func = t.readFn func := by
  simp only [Trees.readFn, State.codeWords_updGroup]
  rfl

theorem Trees.parcel_updGroup (t : Trees) (e : FnEntry) (p : Nat) : Trees.parcel { t with s := t.s.updGroup core slot F } e p = t.parcel e p := by
  simp only [Trees.parcel, State.codeWord_updGroup]
  rfl

theorem Trees.NextInLeaf.updGroup {func p o : Nat} (h : t.NextInLeaf func p o) :
    ({ t with s := t.s.updGroup core slot F } : Trees).NextInLeaf func p o := by
  obtain ⟨e, nd, up, he, hd, ho⟩ := h
  exact ⟨e, nd, up, (congrArg Except.toOption (t.readFn_updGroup func)).trans he, (Trees.descend_congr t.parcel_updGroup e p).trans hd, ho⟩

/-- The resolution of a lane whose leaf goes on ends at the next operation of the leaf, and reads and writes nothing. -/
theorem ResolveEnv.resolve_succ {v : ResolveEnv} {func p o : Nat} (h : v.t.NextInLeaf func p o) (m : Memory) (depth : Nat) :
    ∃ e c, v.resolve m func depth p .succ = (Resolving.start m func depth e c, .op o) := by
  obtain ⟨e, nd, up, he, hd, ho⟩ := h
  exact ⟨e, nd :: up, by simp only [ResolveEnv.resolve, ok_of_toOption he, hd, ho]⟩

theorem settledLane_op (l : Lane) (m : Memory) (e : FnEntry) (c : List Node) (p : Nat) :
    settledLane l (Resolving.start m l.func.toNat l.depth e c) (.op p) = l.movedTo p := by
  simp [settledLane, Resolving.start, Lane.movedTo]

/-- A lane that goes on in its leaf: nothing but its own position is settled. -/
theorem Issue.settleLane_start {L : Nat} (h : t.NextInLeaf (is.g.lane L).func.toNat (is.g.lane L).parcel (next L)) (active : Mask) (skip : List Skip)
    (m : Memory) (ls : List Lane) :
    is.settleLane s t active skip (fun _ => .succ) (Settled.start m ls) L = Settled.start m (ls.set L ((is.g.lane L).movedTo (next L))) := by
  obtain ⟨e, c, hr⟩ := ResolveEnv.resolve_succ (v := is.resolveEnv s t active skip L) h m (is.g.lane L).depth
  unfold Issue.settleLane
  simp only [Settled.start, hr, settledLane_op]
  rfl

theorem Issue.settleLanes_start (h : ∀ L ∈ lanesOf is.mask, t.NextInLeaf (is.g.lane L).func.toNat (is.g.lane L).parcel (next L)) (active : Mask)
    (skip : List Skip) : is.settleLanes s t active is.mask skip (fun _ => .succ) = Settled.start s.mem (is.movedLanes next) := by
  unfold Issue.settleLanes Issue.movedLanes
  generalize lanesOf is.mask = ks at h
  generalize is.g.lanes = ls
  induction ks generalizing ls with
  | nil => rfl
  | cons L ks ih =>
    rw [List.foldl_cons, List.foldl_cons, Issue.settleLane_start (h L List.mem_cons_self), ih fun K hK => h K (List.mem_cons_of_mem L hK)]

/-! ## What a retirement in a leaf leaves as it is -/

/-- Where a group stands, its workgroup, its episode and its lanes. -/
def Group.seat (g : Group) := (g.core, g.slot, g.wg, g.episode, g.lanes)

theorem Group.follow_seat (repeated entered : List (Nat × LoopId)) (g : Group) : (g.follow repeated entered).seat = g.seat := by
  have fold : ∀ (f : Group → LoopId → Group) (_ : ∀ g l, (f g l).seat = g.seat) (ls : List LoopId) (g : Group), (ls.foldl f g).seat = g.seat :=
    fun f hf ls => by
      induction ls with
      | nil => exact fun _ => rfl
      | cons l ls ih => exact fun g => (ih (f g l)).trans (hf g l)
  unfold Group.follow
  split
  · rfl
  · exact (fold (fun g l => Group.enterLoop (lanesAt entered l) l g) (fun _ _ => rfl) _ _).trans
      (fold (fun g l => Group.endIteration (lanesAt repeated l) l g) (fun _ _ => rfl) _ g)

theorem Group.detect_seat (g : Group) (mask : Mask) (before : List Lane) (loud : Bool) (repeated entered : List (Nat × LoopId))
    (written : List Lane) : (g.detect mask before loud repeated entered written).seat = g.seat := by
  unfold Group.detect
  split
  · rfl
  · exact Group.follow_seat ..

theorem Group.ranOthers_seat (mask : Mask) (g : Group) : (g.ranOthers mask).seat = g.seat := by
  unfold Group.ranOthers
  split <;> rfl

/-- The memory, its tags and poison, the registers of the hub, the workgroups, and where the group of a slot stands. -/
def State.leafView (s : State) (core slot : Nat) :=
  (s.mem, s.tags, s.poison, s.regs, s.cxRegs, s.wgs, (s.group? core slot).map Group.seat)

theorem State.leafView_updGroup (hF : ∀ g, (F g).seat = g.seat) (c k : Nat) : (s.updGroup core slot F).leafView c k = s.leafView c k := by
  have hp : ∀ g, (F g).core = g.core ∧ (F g).slot = g.slot := fun g => ⟨congrArg Prod.fst (hF g), congrArg (fun x => x.2.1) (hF g)⟩
  have hg : ((s.updGroup core slot F).group? c k).map Group.seat = (s.group? c k).map Group.seat := by
    rw [State.group?_updGroup s core slot F hp, Option.map_map]
    refine congrFun (congrArg Option.map (funext fun g => ?_)) _
    rw [Function.comp_apply]
    split
    · exact hF g
    · rfl
  rw [State.leafView, hg]
  rfl

theorem State.leafView_count (core vf ctx code n c k : Nat) : (s.count core vf ctx code n).leafView c k = s.leafView c k := by
  unfold State.count
  split <;> rfl

/-- A VF that samples no tagged operations has no LFSR. -/
theorem State.lfsr?_eq_none (h : (s.vfReg vf 0x060).getLsbD 4 = false) (g : Group) : s.lfsr? vf g = none := by
  rw [State.lfsr?, h]
  rfl

theorem State.tagRow_unsampled (h : (s.vfReg w.vf 0x060).getLsbD 4 = false) (depth func p level : Nat) (squashed faulted : Bool) :
    s.tagRow g w r depth func p level squashed faulted = s.updGroup g.core g.slot (fun g => { g with tagged := none }) := by
  unfold State.tagRow
  extract_lets s1
  rw [State.lfsr?_eq_none h]

/-- The squash of what is left of the run of a group, whose VF samples no tagged operations. -/
theorem State.leafView_squashFrom (h : ∀ g, s.group? core slot = some g → ∀ w, s.wg? g.wg = some w → (s.vfReg w.vf 0x060).getLsbD 4 = false)
    (depth func p : Nat) (faulted : Bool) (c k : Nat) : (s.squashFrom core slot depth func p faulted).leafView c k = s.leafView c k := by
  unfold State.squashFrom
  split
  · rfl
  next g hg =>
  split
  · rfl
  next w hw =>
  split
  · rfl
  next r hr =>
  extract_lets ops s1
  have h1 : s1.leafView c k = s.leafView c k := State.leafView_count ..
  split
  · split
    · have hregs : s1.regs = s.regs := congrArg (fun x => x.2.2.2.1) h1
      have hv : (s1.vfReg w.vf 0x060).getLsbD 4 = false := by
        rw [State.vfReg, State.reg, hregs]
        exact h g hg w hw
      rw [State.tagRow_unsampled hv, State.leafView_updGroup (by exact fun _ => rfl), h1]
    · exact h1
  · exact h1

/-- The row of a retiring operation of a VF that samples none: at most the group's mark goes. -/
theorem State.tagRetired_unsampled (h : (s.vfReg is.w.vf 0x060).getLsbD 4 = false) (i : Instr) :
    ∃ F : Group → Group, (∀ g, (F g).seat = g.seat) ∧ s.tagRetired is i = s.updGroup is.g.core is.g.slot F := by
  unfold State.tagRetired
  extract_lets l
  split
  · exact ⟨fun g => { g with tagged := none }, fun _ => rfl, State.tagRow_unsampled h ..⟩
  · exact ⟨id, fun _ => rfl, by simp [State.updGroup]⟩

/-- Without accesses there is nothing to log, and nothing that replay mode could wait for. -/
theorem State.logged_nil (s : State) (ac : Accessor) (f : State → State) : ∃ turns, s.logged ac [] f = f { s with turns := turns } := by
  have hrec : ∀ t : State, t.recordTouches ac [] = t := fun t => by
    unfold State.recordTouches
    split <;> rfl
  have hfull : s.replayFull ac [] = false := by simp [State.replayFull]
  have hgate : ∃ turns, s.replayGate ac.key ac.vf ac.ctx [] = .go { s with turns := turns } := by
    unfold State.replayGate
    split
    · exact ⟨_, by simp [State.setTurns]; rfl⟩
    · exact ⟨s.turns, rfl⟩
  obtain ⟨turns, hgate⟩ := hgate
  refine ⟨turns, ?_⟩
  simp only [State.logged, hfull, Bool.false_eq_true, if_false, List.map_nil, hgate, hrec]

/-- `State.leafView` of a state that is as `s`, but that the lanes of the group of `is` have moved. -/
def Issue.movedView (is : Issue) (s : State) (next : Nat → Nat) :=
  (s.mem, s.tags, s.poison, s.regs, s.cxRegs, s.wgs, some ({ is.g with lanes := is.movedLanes next } : Group).seat)

/-- A group whose lanes have moved, with what is left of its run. -/
def Issue.takeMoved (is : Issue) (next : Nat → Nat) (run : Mask) (g : Group) : Group := { g with lanes := is.movedLanes next, run := run }

/-- Lanes that go on in their leaf take their positions, and nothing else is settled. -/
theorem State.settle_straight (hg : (s.group? is.g.core is.g.slot).map Group.seat = some is.g.seat)
    (ht : s.readTrees is.w.vf is.w.ctx is.r.eff.image is.r.code = .ok t)
    (h : ∀ L ∈ lanesOf is.mask, t.NextInLeaf (is.g.lane L).func.toNat (is.g.lane L).parcel (next L)) (active : Mask) (skip : List Skip) (run : Mask) :
    ∃ u, s.settle is active is.mask skip (fun _ => .succ) run = (u, Settled.start s.mem (is.movedLanes next)) ∧
      u.leafView is.g.core is.g.slot = is.movedView s next := by
  obtain ⟨g, hg, hseat⟩ := Option.map_eq_some_iff.1 hg
  obtain ⟨turns, hl⟩ := s.logged_nil (is.g.accessor is.w is.mask) id
  let u := ({ s with turns := turns } : State).updGroup is.g.core is.g.slot (is.takeMoved next run)
  refine ⟨u, ?_, ?_⟩
  · have hu : (s.logged (is.g.accessor is.w is.mask) [] id).updGroup is.g.core is.g.slot (is.takeMoved next run) = u := by
      rw [hl]
      rfl
    rw [← hu]
    unfold State.settle
    simp only [ht, Issue.settleLanes_start h]
    rfl
  · have hug : u.group? is.g.core is.g.slot = some (is.takeMoved next run g) := by
      rw [State.group?_updGroup _ _ _ (is.takeMoved next run) (fun _ => ⟨rfl, rfl⟩),
        show ({ s with turns := turns } : State).group? is.g.core is.g.slot = some g from hg, Option.map_some, if_pos (s.group?_place hg)]
    rw [State.leafView, hug]
    simp only [Group.seat, Prod.mk.injEq] at hseat
    obtain ⟨hc, hk, hw, he, -⟩ := hseat
    simp only [Issue.movedView, Issue.takeMoved, Group.seat, Option.map_some, hc, hk, hw, he]
    rfl

/-- The VF of the workgroup, as it stands then, samples no tagged operations where it did not before. -/
theorem Issue.unsampled_of_movedView {v : State} (h : v.leafView is.g.core is.g.slot = is.movedView s next) (hw : s.wg? is.g.wg = some is.w)
    (hv : (s.vfReg is.w.vf 0x060).getLsbD 4 = false) :
    ∀ g, v.group? is.g.core is.g.slot = some g → ∀ w, v.wg? g.wg = some w → (v.vfReg w.vf 0x060).getLsbD 4 = false := by
  intro g hg w hwv
  simp only [State.leafView, Issue.movedView, hg, Option.map_some, Option.some.injEq, Group.seat, Prod.mk.injEq] at h
  obtain ⟨-, -, -, hregs, -, hwgs, -, -, hgw, -⟩ := h
  rw [State.wg?, hwgs, hgw] at hwv
  obtain rfl := Option.some.inj (hw.symm.trans hwv)
  rwa [State.vfReg, State.reg, hregs]

/-- No episode of the group in the slot ends where it is in none. -/
theorem State.endEpisode_of_none (h : ∀ g, s.group? core slot = some g → g.episode = none) : s.endEpisode core slot = s := by
  unfold State.endEpisode
  split
  · rfl
  · next is hi =>
    have he : is.g.episode = none := h is.g (State.group?_of_issue? hi)
    simp only [he]

/-- Where every lane of the mask goes on in its leaf, the retirement of the operation moves the lanes, and no lane meets an edge or a fault. -/
theorem State.retireLeaf_straight (h : StaysInLeaf s is next) (hw : s.wg? is.g.wg = some is.w) (i : Instr) (loud : Bool) :
    ∃ v m, s.retireLeaf is i loud (fun _ => .succ) = (v, Settled.start m (is.movedLanes next)) ∧
      v.leafView is.g.core is.g.slot = is.movedView s next := by
  obtain ⟨-, hv, hg, -, -, t, ht, hnext⟩ := h
  replace hnext : ∀ L ∈ lanesOf is.mask, t.NextInLeaf (is.g.lane L).func.toNat (is.g.lane L).parcel (next L) := fun L hL =>
    hnext L (mem_lanesOf.1 hL).2 (mem_lanesOf.1 hL).1
  replace ht := ok_of_toOption ht
  obtain ⟨F, hF, htag⟩ := State.tagRetired_unsampled hv i
  have hview : (s.updGroup is.g.core is.g.slot F).leafView is.g.core is.g.slot = s.leafView is.g.core is.g.slot := State.leafView_updGroup hF ..
  have hg' : ((s.updGroup is.g.core is.g.slot F).group? is.g.core is.g.slot).map Group.seat = some is.g.seat := by
    refine (congrArg (fun x => x.2.2.2.2.2.2) hview).trans ?_
    exact congrArg (Option.map Group.seat) hg
  have ht' := State.readTrees_updGroup (core := is.g.core) (slot := is.g.slot) (F := F) ht
  obtain rfl := State.readTrees_s ht
  unfold State.retireLeaf
  rw [show is.refresh t.s = is from Issue.refresh_of_some hg]
  extract_lets is1 l0 nx stays run
  subst is1
  obtain ⟨u, hs, hu⟩ := State.settle_straight hg' ht' (fun L hL => (hnext L hL).updGroup) is.mask [] run
  rw [htag, hs]
  dsimp -zeta only
  extract_lets s2 s3
  have h2 : s2.leafView is.g.core is.g.slot = u.leafView is.g.core is.g.slot :=
    State.leafView_updGroup (by exact fun g => (Group.ranOthers_seat is.mask _).trans (Group.detect_seat g ..)) ..
  have h3 : s3.leafView is.g.core is.g.slot = is.movedView t.s next :=
    (State.leafView_count ..).trans ((State.leafView_count ..).trans (h2.trans hu))
  clear_value run s3 stays nx
  cases nx with
  | none => exact ⟨_, _, rfl, h3⟩
  | some p =>
    refine ⟨_, _, rfl, ?_⟩
    split
    · exact (State.leafView_squashFrom (Issue.unsampled_of_movedView h3 hw hv) ..).trans h3
    · exact h3

/-- Where every lane of the mask goes on in its leaf, and the workgroup of the issue is that of its group, a retirement moves each lane to its next
operation, where it waits for no first position, and writes no byte of memory, no memory tag, no poison and no register of the hub (R52, R66). -/
theorem State.retire_straight (h : StaysInLeaf s is next) (hw : s.wg? is.g.wg = some is.w) (i : Instr) (loud : Bool) :
    let t := s.retire is i loud (fun _ => .succ)
    t.mem = s.mem ∧ t.tags = s.tags ∧ t.poison = s.poison ∧ t.regs = s.regs ∧ t.cxRegs = s.cxRegs ∧
    ∃ g, t.group? is.g.core is.g.slot = some g ∧
      ∀ L, L < 32 → g.lane L = if is.mask.getLsbD L then (is.g.lane L).movedTo (next L) else is.g.lane L := by
  obtain ⟨v, m, hr, hview⟩ := State.retireLeaf_straight h hw i loud
  obtain ⟨hacc, -, -, hep, h32, -⟩ := h
  intro t
  simp only [State.leafView, Issue.movedView, Prod.mk.injEq] at hview
  obtain ⟨hmem, htags, hpoison, hregs, hcx, -, hg⟩ := hview
  obtain ⟨g, hg, hseat⟩ := Option.map_eq_some_iff.1 hg
  simp only [Group.seat, Prod.mk.injEq] at hseat
  obtain ⟨-, -, -, he, hlanes⟩ := hseat
  have ht : t = v := by
    have hend : v.endEpisode is.g.core is.g.slot = v := State.endEpisode_of_none fun g' hg' => by
      obtain rfl := Option.some.inj (hg.symm.trans hg')
      exact he.trans hep
    simp only [t, State.retire, hacc, hr, Bool.false_eq_true, if_false]
    exact hend
  rw [ht]
  exact ⟨hmem, htags, hpoison, hregs, hcx, g, hg, fun L hL => Issue.lane_movedLanes h32 hL hlanes⟩

end Straight

/-! ## A lane that waits for its first position -/

/-- `Trees.NextInLeaf`, as a test. -/
def Trees.nextIs (t : Trees) (func p o : Nat) : Bool :=
  (t.fn? func).any (fun e => match t.descend e p with
    | (nd :: _, none) => decide (nd.ops.find? (fun x => p < x) = some o)
    | _ => false)

theorem Trees.nextIs_iff {t : Trees} {func p o : Nat} : t.nextIs func p o = true ↔ t.NextInLeaf func p o := by
  unfold Trees.nextIs Trees.NextInLeaf
  rw [Option.any_eq_true]
  refine exists_congr fun e => ?_
  split
  · next nd up hd => simp [hd]
  · next hd =>
    simp only [Bool.false_eq_true, and_false, false_iff]
    rintro ⟨nd, up, -, h, -⟩
    exact hd nd up h

/-- Lanes 0 and 2 of the placed group at the first of three `nop` operations, lane 0 marked as still waiting for its first position (R33). -/
def leafWithWaitingLane : State :=
  onGroups (fun g => { g with lanes := g.lanes.set 0 { g.lane 0 with atStart := true } }) ((inImage threeNops 4 (each [])).issueAs 0 0 false 5)

theorem staysInLeaf_waitingLane : StaysInLeaf leafWithWaitingLane (isOf leafWithWaitingLane) (fun _ => 6) := by
  have hlane : ∀ L, L < 32 → ((isOf leafWithWaitingLane).g.lane L).func.toNat = 0 ∧ ((isOf leafWithWaitingLane).g.lane L).parcel = 4 := by
    decide +kernel
  have hnext : (leafWithWaitingLane.groupTrees (isOf leafWithWaitingLane).w (isOf leafWithWaitingLane).r).any (fun t => t.nextIs 0 4 6) = true := by
    decide +kernel
  obtain ⟨t, ht, hnext⟩ := (Option.any_eq_true _ _).1 hnext
  refine ⟨by decide +kernel, by decide +kernel, by decide +kernel, by decide +kernel, by decide +kernel, t, ht, fun L _ hL => ?_⟩
  rw [(hlane L hL).1, (hlane L hL).2]
  exact Trees.nextIs_iff.1 hnext

/-- Refutes O26: a retirement also clears the mark of a lane that waits for its first position (R33), where the statement has it change the position
alone. `StaysInLeaf` does not say that no lane of the mask carries the mark; `State.retire_straight` says what a retirement does of every such lane,
where the issue names the workgroup of its group. -/
theorem not_straightLineRetirement : ¬ Obligations.StraightLineRetirement := by
  intro h
  let s := leafWithWaitingLane
  let is := isOf leafWithWaitingLane
  let i := Instr.nop (regF .i32 0 0 0 0 0 .rne 0)
  have hwg : s.wg? is.g.wg = some is.w := by decide +kernel
  have hmask : is.mask.getLsbD 0 = true := by decide +kernel
  have hmark : (is.g.lane 0).atStart = true := by decide +kernel
  obtain ⟨-, -, -, -, -, g, hg, hclaim⟩ := h s is i false _ staysInLeaf_waitingLane
  obtain ⟨-, -, -, -, -, g', hg', hmoved⟩ := State.retire_straight staysInLeaf_waitingLane hwg i false
  obtain rfl := Option.some.inj (hg.symm.trans hg')
  have hset : (g.lane 0).atStart = true := by
    rw [hclaim 0 (by decide), if_pos hmask]
    exact hmark
  have hclear : (g.lane 0).atStart = false := by
    rw [hmoved 0 (by decide), if_pos hmask]
    rfl
  exact Bool.false_ne_true (hclear.symm.trans hset)

end Sys2Proof.Machine
end

section
/-! SUPPORT. `spawn`, `launch` and `yield` (R91, R92, R168 to R170). -/

namespace Sys2Proof.Machine

section Starting

variable {s t : State} {is : Issue} {f : Fields}

/-! ## No write that a flush performs starts or ends a group -/

theorem State.storeLE_groups_length (s : State) (pa n v : Nat) : (s.storeLE pa n v).groups.length = s.groups.length := List.length_map ..

theorem State.storeBytes_groups_length (s : State) (pa : Nat) (bs : List Byte) : (s.storeBytes pa bs).groups.length = s.groups.length :=
  List.length_map ..

theorem State.setTag_groups_length (s : State) (g : Nat) (t : BitVec 4) : (s.setTag g t).groups.length = s.groups.length := List.length_map ..

theorem State.flagsToOwner_groups_length (s : State) (core slot start : Nat) (fl : BitVec 5) :
    (s.flagsToOwner core slot start fl).groups.length = s.groups.length := List.length_map ..

/-- Updates each of which keeps the number of groups keep it together. -/
theorem State.foldl_groups_length {α : Type} {g : State → α → State} (hg : ∀ s x, (g s x).groups.length = s.groups.length) (l : List α)
    (s : State) : (l.foldl g s).groups.length = s.groups.length := by
  induction l generalizing s with
  | nil => rfl
  | cons x xs ih => exact (ih (g s x)).trans (hg s x)

theorem State.logDirty_groups_length (s : State) (vf gpage : Nat) : (s.logDirty vf gpage).groups.length = s.groups.length := by
  unfold State.logDirty
  split
  · rfl
  · split
    · split
      split
      exacts [State.storeLE_groups_length .., rfl, rfl, rfl]
    · split <;> rfl

theorem State.noteAccess_groups_length (s : State) (vf : Nat) (gpage : Option Nat) (path leaves : List Nat) (write : Bool) :
    (s.noteAccess vf gpage path leaves write).groups.length = s.groups.length := by
  unfold State.noteAccess
  dsimp only
  split
  exacts [State.logDirty_groups_length .., rfl]

theorem State.noteWrite_groups_length (s : State) (vf pa : Nat) (n : Note) : (s.noteWrite vf pa n).groups.length = s.groups.length := by
  unfold State.noteWrite
  split
  · rfl
  · split
    exacts [rfl, State.noteAccess_groups_length ..]

theorem State.gpaWriteBytes_groups_length (s : State) (vf gpa : Nat) (bs : List Byte) :
    (s.gpaWriteBytes vf gpa bs).groups.length = s.groups.length := by
  refine State.foldl_groups_length (fun s i => ?_) ..
  unfold State.gpaWrite
  split
  exacts [(State.noteAccess_groups_length ..).trans (State.storeLE_groups_length ..), rfl, rfl, rfl]

theorem State.recordTouches_groups_length (s : State) (ac : Accessor) (ts : List Touch) :
    (s.recordTouches ac ts).groups.length = s.groups.length := by
  unfold State.recordTouches
  split
  · refine State.foldl_groups_length (fun s t => ?_) ..
    unfold State.logReplay
    exact State.gpaWriteBytes_groups_length ..
  · rfl

theorem State.visitReplay_groups_length (s : State) (vf r k : Nat) : (s.visitReplay vf r k).groups.length = s.groups.length := by
  refine State.foldl_groups_length (fun s i => ?_) ..
  unfold State.gpaVisit
  split
  exacts [State.noteAccess_groups_length .., rfl, rfl, rfl]

theorem State.replayGate_groups_length {key vf ctx : Nat} {es : List ReplayEntry} (h : s.replayGate key vf ctx es = .go t) :
    t.groups.length = s.groups.length := by
  unfold State.replayGate at h
  split at h
  · dsimp only at h
    split at h
    · cases h; rfl
    · split at h
      · cases h
      · split at h
        · cases h; exact State.visitReplay_groups_length ..
        · cases h
  · cases h; rfl

theorem State.noteRecent_groups_length (s : State) (start pa : Nat) (old : List Byte) :
    (s.noteRecent start pa old).groups.length = s.groups.length := by
  unfold State.noteRecent
  split <;> rfl

theorem State.applyPosted_groups_length (s : State) (p : Posted) : (s.applyPosted p).groups.length = s.groups.length := by
  unfold State.applyPosted
  split
  · simp only [State.noteRecent_groups_length, State.storeBytes_groups_length]
  · simp only [State.noteRecent_groups_length, State.storeLE_groups_length]
  · rw [State.flagsToOwner_groups_length, State.noteRecent_groups_length]
    split
    exacts [rfl, State.storeLE_groups_length ..]
  · exact State.foldl_groups_length (fun s i => State.setTag_groups_length ..) ..
  · simp only [State.flagsToOwner_groups_length, State.noteRecent_groups_length, State.storeLE_groups_length]

theorem State.performNow_groups_length (s : State) (p : Posted) : (s.performNow p).groups.length = s.groups.length :=
  (State.foldl_groups_length (fun _ _ => State.noteWrite_groups_length ..) ..).trans (State.applyPosted_groups_length s p)

theorem State.postedGate_groups_length {p : Posted} (h : s.postedGate p = .go t) : t.groups.length = s.groups.length := by
  unfold State.postedGate at h
  split at h
  · cases h
  · split at h
    · next hg =>
      cases h
      exact (State.recordTouches_groups_length ..).trans (State.replayGate_groups_length hg)
    · next hn => exact absurd h (hn t)

theorem State.performPosted_groups_length (s : State) (p : Posted) : (s.performPosted p).groups.length = s.groups.length := by
  unfold State.performPosted
  split
  · rfl
  · split
    · next hg => exact (State.performNow_groups_length ..).trans (State.postedGate_groups_length hg)
    · rfl
    · rfl

theorem State.flushWhere_groups_length (s : State) (P : Posted → Bool) : (s.flushWhere P).groups.length = s.groups.length :=
  State.foldl_groups_length (fun _ _ => State.performPosted_groups_length ..) ..

theorem State.fillTlb_groups (s : State) (vf ctx va : Nat) : (s.fillTlb vf ctx va).groups = s.groups := by
  unfold State.fillTlb
  split
  · rfl
  · split <;> rfl

theorem State.visit_groups_length (s : State) (vf ctx va : Nat) : (s.visit vf ctx va).groups.length = s.groups.length := by
  unfold State.visit
  split
  · rw [State.fillTlb_groups, State.noteAccess_groups_length]
  all_goals rfl

/-! ## The groups that `spawn` starts (R91) -/

theorem State.startGroup_groups_length (s : State) (w : Workgroup) (r : Region) (slot grp func : Nat) (arg : Nat → Word) :
    (s.startGroup w r slot grp func arg).groups.length = s.groups.length + 1 := List.length_append

/-- At most `n` groups start, and each is one group more. -/
theorem State.spawnGroups_count (w : Workgroup) (r : Region) (func : Nat) (arg : Nat → Word) (n : Nat) (s : State) :
    (s.spawnGroups w r func arg n).2 ≤ n ∧
      (s.spawnGroups w r func arg n).1.groups.length = s.groups.length + (s.spawnGroups w r func arg n).2 := by
  induction n generalizing s with
  | zero => exact ⟨le_rfl, rfl⟩
  | succ n ih =>
    unfold State.spawnGroups
    split
    · next k _ i _ _ _ =>
      obtain ⟨hle, hlen⟩ := ih (s.startGroup w r k i func arg)
      rw [State.startGroup_groups_length] at hlen
      exact ⟨Nat.succ_le_succ hle, hlen.trans (by rw [Nat.add_assoc, Nat.add_comm 1])⟩
    · exact ⟨Nat.zero_le _, rfl⟩

/-! ## How the three operations end -/

/-- The state in which a `spawn` of function `h` starts its groups: the spawner's posted writes have been performed, and the table entry is read. -/
def Issue.spawnFrom (is : Issue) (s : State) (h : Nat) : State :=
  (s.flushWhere (fun p => p.by is.g.core is.g.slot is.g.start)).visit is.w.vf is.w.ctx (s.fnEntryVa is.w is.r h)

theorem Issue.spawnFrom_groups_length (is : Issue) (s : State) (h : Nat) : (is.spawnFrom s h).groups.length = s.groups.length :=
  (State.visit_groups_length ..).trans (State.flushWhere_groups_length ..)

/-- The groups that a `spawn` of `n` groups of function `h` starts: the state, and their number. -/
def Issue.spawned (is : Issue) (s : State) (f : Fields) (h n : Nat) : State × Nat :=
  (is.spawnFrom s h).spawnGroups is.w is.r h (fun K => if is.mask.getLsbD K then is.word f.c K else 0) n

/-- A `spawn` of a number in range, of a function of kind 0, gives the number of groups that it started, with bit 31 where no slot or no index is
left. -/
theorem exec_spawn {h n : Nat} (hr : Ready (.spawn f) s is) (hh : (is.word f.a is.l0).toNat = h) (hn : (is.word f.b is.l0).toNat = n) (h1 : 1 ≤ n)
    (h32 : n ≤ 32) (he : is.spawnEntry s h = .ok) :
    let r := is.spawned s f h n
    exec (.spawn f) s = retires (.spawn f) is (r.1.writeLanes is (fun _ l => l.setReg f.dest.toNat
      (BitVec.ofNat 32 ((if r.1.freeSlots is.w = [] ∨ r.1.freeIndices is.w is.r.eff = [] then 2 ^ 31 else 0) + r.2)))) true := by
  refine runOp_done hr.1 hr.2 ?_
  dsimp only
  rw [hh, hn, if_neg (by omega), he]
  simp only [Bool.or_eq_true, List.isEmpty_iff]
  rfl

section Launch

variable (hr : Ready (.launch f) s is) (ha : (is.addr f.a is.l0).toNat % 256 = 0) (ht : (is.addr f.a is.l0).extractLsb' 56 4 = 0)

include hr ha ht

/-- A `launch` of an aligned, untagged address ends as its gate says. -/
theorem runOp_launch_gate {e : Effect} (hg : is.launchGate s = some e) : exec (.launch f) s = .next (s.finish is (.launch f) e) := by
  refine (runOp_body hr.1 hr.2).trans ?_
  dsimp only
  rw [if_neg (by simp [ha, ht]), hg]

/-- Where its gate lets it, it links the RCB if the address translates. -/
theorem exec_launch_links {pa : Nat} {g : Option Nat} {path leaves : List Nat} (hg : is.launchGate s = none)
    (hw : s.inWindow is.w.vf (addrVa (is.addr f.a is.l0)) = false)
    (hp : s.placeShared false is.w.vf is.w.ctx (addrVa (is.addr f.a is.l0)) true = .ok pa g path leaves) :
    exec (.launch f) s = retires (.launch f) is (s.linkChild is.r (addrVa (is.addr f.a is.l0))) true := by
  refine runOp_done hr.1 hr.2 ?_
  dsimp only
  rw [if_neg (by simp [ha, ht]), hg]
  simp only [hw, Bool.false_eq_true, if_false, hp]

end Launch

theorem Issue.launchGate_recovery (h : s.recovery = true) : is.launchGate s = some (.hit (Hit.plain .operandExtent is.mask 0)) := if_pos h

theorem Issue.launchGate_acks (h : s.recovery = false) (ha : is.g.acks ≠ 0) :
    is.launchGate s = some (.wait s { kind := .slot, cycles := 0, addr := 0, expired := false }) := by
  simp [Issue.launchGate, h, ha]

theorem Issue.launchGate_go (h : s.recovery = false) (ha : is.g.acks = 0) : is.launchGate s = none := by
  simp [Issue.launchGate, h, ha]

end Starting

/-- Settles O28: a flush and a visit leave the number of groups, so that it rises by what `spawn` starts; a `launch` ends as its gate says. -/
theorem spawnLaunchAndYield : Obligations.SpawnLaunchAndYield := by
  intro f s is
  refine ⟨?spawn, ?launch, ?yield⟩
  case spawn =>
    intro hr h n h1 h32 he s0 r
    obtain ⟨hle, hlen⟩ := State.spawnGroups_count is.w is.r h (fun K => if is.mask.getLsbD K then is.word f.c K else 0) n s0
    rw [show s0.groups.length = s.groups.length from is.spawnFrom_groups_length s h] at hlen
    exact ⟨hle, hlen, exec_spawn hr rfl rfl h1 h32 he⟩
  case launch =>
    intro hr x ha ht
    refine ⟨fun hrec hacks hw ⟨_, _, _, _, hp⟩ => ?_, fun hrec hacks => ?_, fun hrec => ?_⟩
    · exact exec_launch_links hr ha ht (Issue.launchGate_go hrec hacks) hw hp
    · exact runOp_launch_gate hr ha ht (Issue.launchGate_acks hrec hacks)
    · exact runOp_launch_gate hr ha ht (Issue.launchGate_recovery hrec)
  case yield =>
    intro hr
    exact runOp_done hr.1 hr.2 rfl

end Sys2Proof.Machine
end

section
/-! SUPPORT. What a step runs, and that it always runs something (R65, R66, R150, R284). -/

namespace Sys2Proof.Machine

section Moves

variable {s : State} {is : Issue} {core slot : Nat} {g : Group} {l : Lane} {i : Instr}

/-! ## A fetch leaves the operation in issue -/

theorem State.fillTlb_issue? (s : State) (vf ctx va : Nat) : (s.fillTlb vf ctx va).issue? = s.issue? := by
  unfold State.fillTlb
  split
  · rfl
  · split <;> rfl

theorem State.noteAccess_read_issue? (s : State) (vf : Nat) (gpage : Option Nat) (path leaves : List Nat) :
    (s.noteAccess vf gpage path leaves false).issue? = s.issue? := by
  cases gpage <;> rfl

theorem State.visit_issue? (s : State) (vf ctx va : Nat) : (s.visit vf ctx va).issue? = s.issue? := by
  unfold State.visit
  split
  · rw [State.fillTlb_issue?, State.noteAccess_read_issue?]
  all_goals rfl

theorem State.visitPages_issue? (vf ctx : Nat) (ps : List Nat) (s : State) :
    (ps.foldl (fun s k => s.visit vf ctx (k * 65536)) s).issue? = s.issue? := by
  induction ps generalizing s with
  | nil => rfl
  | cons k ps ih => exact (ih _).trans (State.visit_issue? ..)

/-- What follows a fetch is done with the same operation in issue. -/
theorem State.onCode_goes {w : Workgroup} {r : Region} {func p : Nat} {f : State → Out} (hf : ∀ t, t.issue? = s.issue? → Goes (f t)) :
    Goes (s.onCode w r func p f) := by
  obtain ⟨t, ht⟩ | h := s.onCode_cases w r func p f
  · exact ⟨t, ht⟩
  · rw [h]
    exact hf _ (State.visitPages_issue? ..)

/-! ## Every meaning answers a next state -/

theorem execSelectRun_goes (core slot : Nat) (s : State) : Goes (execSelectRun core slot s) := by
  unfold execSelectRun
  split
  · exact ⟨_, rfl⟩
  split
  · exact ⟨_, rfl⟩
  dsimp only
  split
  · exact ⟨_, rfl⟩
  split
  · exact ⟨_, rfl⟩
  split
  · exact State.onCode_goes fun _ _ => ⟨_, rfl⟩
  · exact ⟨_, rfl⟩

theorem peerOp_goes (hi : s.issue? = some is) : Goes (peerOp i s) := by
  by_cases hm : MayNamePeer i
  · rw [peerOp_of_mayNamePeer hm]
    exact exec_next_of_mayNamePeer hm hi
  · exact ⟨s, peerOp_of_not_mayNamePeer hm s⟩

theorem execPeerAbsent_goes (core slot : Nat) (s : State) : Goes (execPeerAbsent core slot s) := by
  unfold execPeerAbsent
  split
  · exact ⟨_, rfl⟩
  dsimp only
  split
  · exact ⟨_, rfl⟩
  next hi =>
  split
  · split
    exacts [⟨_, rfl⟩, peerOp_goes hi]
  · exact ⟨_, rfl⟩

/-- `qpop` takes the fault of its access slice, or is one operation of the group in issue. -/
theorem execQpop_goes (f : Fields) (hi : s.issue? = some is) : Goes (execQpop f s) := by
  simp only [execQpop, hi]
  split
  exacts [⟨_, rfl⟩, runOp_next hi]

/-- An event always answers a next state, and so does an operation while a group is in issue. -/
theorem exec_goes (i : Instr) (h : (∃ is, s.issue? = some is) ∨ i.isOp = false) : Goes (exec i s) := by
  cases i with
  | selectRun core slot => exact execSelectRun_goes core slot s
  | peerAbsent core slot => exact execPeerAbsent_goes core slot s
  | demotion | demotionEnd | groupEnd | barrierTimeLimit | chunkLand | feedComplete | tileEntryRemove | tileTransferChunk | matrixCommit
  | epilogueStoreChunk | latchGrant | acknowledge | walk | depsRecheck | admitRegion | placeWorkgroup | quantumEnd | agedPriority | preempt
  | restore | regionComplete | regionEnd | pageMoveComplete | tierMove | partitionEnable | partitionDisable | partitionStop | vfStop | vfResume
  | groupResume | groupKill | logProgram | guestSwitch | invalidatePageS1 | invalidateAllS1 | invalidatePageS2 | invalidateVf
  | invalidationComplete | dieOffline | dieOnline | diePagesMoved | dieDrained | registerWrite | reset | clockLower | uncorrectableError
  | correctedError | linkRetrain | keyRollover | retireMessage | retireReceive | flitReceive | getVersion | getCapabilities
  | negotiateAlgorithms | getDigests | getCertificate | challenge | getMeasurements | keyExchange | finish | heartbeat | keyUpdate | endSession
  | unsupportedRequest | debugEnable | recordEnable | playEnable | samplerEnable | tagSamplingEnable | checkpointRestore | debugPark
  | debugResume | debugEndDemotion | debugKill | samplePeriodic | checkpoint | clockRestore | logReadIndexWrite
  | hostPostedWrite => exact ⟨_, rfl⟩
  | qpop f =>
    obtain ⟨is, hi⟩ | hev := h
    exacts [execQpop_goes f hi, nomatch hev]
  | _ =>
    obtain ⟨is, hi⟩ | hev := h
    exacts [runOp_next hi, nomatch hev]

theorem State.performAt_goes (hi : s.issue? = some is) : Goes (s.performAt core slot is l) := by
  unfold State.performAt
  split
  · split
    exacts [⟨_, rfl⟩, exec_goes _ (.inl ⟨is, hi⟩)]
  all_goals exact ⟨_, rfl⟩

/-! ## Every move answers a next state -/

theorem State.groupMove_goes (s : State) (core slot : Nat) : Goes (s.groupMove core slot) := by
  unfold State.groupMove
  split
  · exact ⟨_, rfl⟩
  split
  · exact ⟨_, rfl⟩
  split
  · exact exec_goes _ (.inr rfl)
  dsimp only
  split
  · exact ⟨_, rfl⟩
  next hi => exact State.onCode_goes fun t ht => State.performAt_goes (ht.trans hi)

theorem State.sliceMove_goes (s : State) (core slot : Nat) : Goes (s.sliceMove core slot) := by
  unfold State.sliceMove
  split
  · exact ⟨_, rfl⟩
  extract_lets again s' s1
  split
  case h_1 hi =>
    split
    · exact ⟨_, rfl⟩
    refine State.onCode_goes fun t ht => ?_
    split
    · exact ⟨_, rfl⟩
    split
    exacts [exec_goes _ (.inl ⟨_, ht.trans hi⟩), ⟨_, rfl⟩, ⟨_, rfl⟩]
  case h_2 => exact ⟨_, rfl⟩

theorem State.move_goes (s : State) (w : Who) : Goes (s.move w) := by
  cases w with
  | group core slot => exact s.groupMove_goes core slot
  | access core slot => exact s.sliceMove_goes core slot
  | event i =>
    show Goes (if i.isOp then .next s else exec i s)
    split
    · exact ⟨_, rfl⟩
    · exact exec_goes _ (.inr (Bool.eq_false_of_not_eq_true ‹_›))

theorem State.make_goes (s : State) (w : Who) : Goes (s.make w) := by
  obtain ⟨t, ht⟩ := s.move_goes w
  exact ⟨_, State.make_next ht⟩

/-! ## What stands at a position, and who performs it -/

/-- Parcels that decode, at a position inside a leaf, are the operation there. -/
theorem Issue.fetch_of_decode {t : Trees} {e : FnEntry} {nd : Node} {up : List Node} {n : Nat} {ws : List Nat} {tail : List Word}
    (ht : s.readTrees is.w.vf is.w.ctx is.r.eff.image is.r.code = .ok t) (he : t.readFn l.func.toNat = .ok e)
    (hc : l.parcel ≠ 0 ∨ t.fnCheck e 0 = none) (hd : t.descend e l.parcel = (nd :: up, none)) (hp : nd.p ≠ l.parcel)
    (hn : t.opParcels e l.parcel (nd.p + nd.ext) = .ok n) (hw : t.parcels e l.parcel (min n (nd.p + nd.ext - l.parcel)) = .ok ws)
    (hi : decode (ws.map (BitVec.ofNat 32)) = .ok (i, tail)) : is.fetch s l = .op i := by
  have hc' : (if l.parcel = 0 then t.fnCheck e 0 else none) = none := by
    split
    · next h0 => exact hc.resolve_left (not_not.2 h0)
    · rfl
  unfold Issue.fetch
  simp only [ht, Trees.fetch, he, hc', hd, if_neg hp, Trees.fetchAt, hn, hw, hi]

/-- The state in which a fetch of the lane goes on, with the touch bits of its pages set. -/
def Issue.fetched (is : Issue) (s : State) (l : Lane) : State :=
  (s.codePages is.w is.r l.func.toNat l.parcel).foldl (fun s k => s.visit is.w.vf is.w.ctx (k * 65536)) s

theorem State.onCode_fetched {f : State → Out}
    (h : ∀ k ∈ s.codePages is.w is.r l.func.toNat l.parcel, s.busyPage is.w.vf is.w.ctx (k * 65536) = false) :
    s.onCode is.w is.r l.func.toNat l.parcel f = f (is.fetched s l) :=
  State.onCode_free h

theorem State.performAt_op (hf : is.fetch s l = .op i) (hs : (is.w.stopping && notForStop i) = false) : s.performAt core slot is l = exec i s := by
  unfold State.performAt
  rw [hf]
  exact if_neg (by simp [hs])

/-- A group in a run performs the operation at the position of its lanes. -/
theorem State.groupMove_op {s1 : State} (h1 : s1 = s.issueAs core slot false g.run) (hl : l = g.lane (lowest g.run))
    (hg : s.group? core slot = some g) (hp : g.park = none) (hr : g.run ≠ 0) (hi : s1.issue? = some is)
    (hfree : ∀ k ∈ s1.codePages is.w is.r l.func.toNat l.parcel, s1.busyPage is.w.vf is.w.ctx (k * 65536) = false)
    (hf : is.fetch (is.fetched s1 l) l = .op i) (hs : (is.w.stopping && notForStop i) = false) :
    s.groupMove core slot = exec i (is.fetched s1 l) := by
  unfold State.groupMove
  simp only [hg, hp, Option.isSome_none, Bool.false_eq_true, if_false, if_neg hr, ← h1, hi, ← hl, State.onCode_fetched hfree,
    State.performAt_op hf hs]

/-- An access slice that may move, and does not wait for the start of its function, performs the operation at the position of its lane. -/
theorem State.sliceMove_op {s1 : State} {a : AccessSlice} (h1 : s1 = s.issueAs core slot true 1) (hg : s.group? core slot = some g)
    (hacc : g.acc = some a) (htaken : a.taken = none) (hstart : a.lane.atStart = false) (hi : s1.issue? = some is)
    (hgoes : ¬ (a.ended ∨ a.stopped.isSome ∨ !g.issued ∨ g.park.isSome ∨ g.allRetired ∨ !s.mayDispatch is.w))
    (hfree : ∀ k ∈ s1.codePages is.w is.r a.lane.func.toNat a.lane.parcel, s1.busyPage is.w.vf is.w.ctx (k * 65536) = false)
    (hf : is.fetch (is.fetched s1 a.lane) a.lane = .op i) : s.sliceMove core slot = exec i (is.fetched s1 a.lane) := by
  unfold State.sliceMove
  simp only [hg, hacc, Group.takenServiced, htaken, Bool.false_eq_true, if_false, Option.bind_some, ← h1, hi, if_neg hgoes,
    State.onCode_fetched hfree, hstart, hf]

/-- What a move that answers `o` in `s` has led to. -/
def State.outcome (s : State) (o : Out) : Out :=
  match o with
  | .next t => .next (t.settled s)
  | o => o

/-- A step makes the first move of the agenda. -/
theorem step_of_move {m : Move} {rest : List Move} {o : Out} (ha : s.agenda = m :: rest) (hm : (s.before m rest).move m.who = o) :
    step s = (s.before m rest).outcome o := by
  subst hm
  simp only [step, State.takeStep, ha]
  rfl

end Moves

/-- Settles O57: an operation runs only while a group is in issue, and every other branch of a step answers a next state itself. -/
theorem stepAlwaysGoes : Obligations.StepAlwaysGoes := by
  intro s
  unfold step
  obtain ⟨m, rest, -, h⟩ | ⟨w, -, -, h⟩ | ⟨-, -, h⟩ := s.takeStep_cases
  · rw [h]; exact State.make_goes ..
  · rw [h]; exact State.make_goes ..
  · exact ⟨_, h⟩

/-- Settles O56: the parcels of the hypotheses are what the fetch of the move finds, and the move performs what the fetch finds. -/
theorem stepRunsDecoded : Obligations.StepRunsDecoded := by
  intro s rest dt core slot n g is t e nd up ws i tail s0 there stands runs
  have fetches : ∀ {s1 : State} {l : Lane}, stands s1 l → is.fetch (is.fetched s1 l) l = .op i :=
    fun ⟨_, _, ht, he, hc, hd, hp, hn, hw, hi⟩ => Issue.fetch_of_decode ht he hc hd hp hn hw hi
  refine ⟨?group, ?access, ?event, ?settled⟩
  case group =>
    intro who s1 ha hg hp hr hstands hs
    exact step_of_move ha (State.groupMove_op rfl rfl hg hp hr hstands.1 hstands.2.1 (fetches hstands) hs)
  case access =>
    intro who s1 a ha hg hp hacc hend hstop htaken hstart hissued hret hdis hstands
    have hgoes : ¬ (a.ended ∨ a.stopped.isSome ∨ !g.issued ∨ g.park.isSome ∨ g.allRetired ∨ !(s0 who).mayDispatch is.w) := by
      simp [hend, hstop, hissued, hp, hret, hdis]
    exact step_of_move ha (State.sliceMove_op rfl hg hacc htaken hstart hstands.1 hgoes hstands.2.1 (fetches hstands))
  case event =>
    intro ev hev ha
    exact step_of_move ha (if_neg (by simp [hev]))
  case settled =>
    exact fun _ _ => State.settled_made

end Sys2Proof.Machine
end

section
/-! SUPPORT. The events of pre-emption and restore, and of the tier engine (R106, R110, R391, R397, R411). -/

namespace Sys2Proof.Machine

section SaveAndMove

variable {s t : State} {id vf page p dst c : Nat} {w0 w : Workgroup} {r : Region} {x : SavedWg} {l : Leaf} {mv : PageMove}

/-! ## Pre-emption and restore (R106, R391, R397) -/

/-- The pre-emption of `w` is under way, and its groups have settled: the context engine can save it (R391). -/
def State.saveable (s : State) (w : Workgroup) : Bool := !w.saved && !w.ended && w.stopping && s.settledForSave w

theorem State.saveable_iff :
    s.saveable w = true ↔ w.saved = false ∧ w.ended = false ∧ w.stopping = true ∧ s.settledForSave w = true := by
  simp [State.saveable, and_assoc]

theorem State.not_saveable_iff :
    ¬ s.saveable w = true ↔ w.saved = true ∨ w.ended = true ∨ w.stopping = false ∨ s.settledForSave w = false := by
  simp only [State.saveable_iff, not_and_or, Bool.not_eq_false, Bool.not_eq_true]

theorem State.saveWg_of_slot {k : Nat} (h : s.slotFor w = some k) : s.saveWg w = s.saveInto w k := by
  rw [State.saveWg, h]

theorem State.saveWg_of_full (h : s.slotFor w = none) : s.saveWg w = s := by
  rw [State.saveWg, h]

/-- A pre-emption that is not under way begins, in `t`, where a descendant of the region needs the core; then a workgroup that can be saved is saved, and
the priorities are written. -/
theorem exec_preempt (h0 : s.wg? id = some w0) (hr : s.region? w0.vf w0.rcb = some r)
    (ht : t = if !w0.stopping && s.evictable r w0 then s.evictFrom w0.core else s) (hw : t.wg? id = some w) :
    exec (.preempt id) s = .next (if t.saveable w = true then (t.saveWg w).writePrios w.vf else t) := by
  show execPreempt id s = _
  simp only [execPreempt, h0, hr, ← ht, hw]
  by_cases hs : t.saveable w = true
  · obtain ⟨hsaved, hended, hstop, hset⟩ := State.saveable_iff.1 hs
    rw [if_pos hs, if_neg (by simp [hsaved, hended, hstop, hset])]
  · rw [if_neg hs, if_pos (by simpa using State.not_saveable_iff.1 hs)]

/-- A saved workgroup comes back where its region may place workgroups and comes first, and its core has room. -/
theorem exec_restore (hw : s.wg? id = some w) (hx : s.savedOf id = some x) (hr : s.region? w.vf w.rcb = some r)
    (hp : s.placing r = true) (hf : s.isFirst r = true) (hroom : s.restorable r w x = true) :
    exec (.restore id) s = .next (s.restoreWg r w x) := by
  show execRestore id s = _
  simp only [execRestore, hw, hx, hr]
  rw [if_pos ⟨hp, hf, hroom⟩]

/-! ## Page moves (R110, R411) -/

/-- The page of the leaf comes next for the current context's set, or for the gated regions of the partition. -/
def State.comesNext (s : State) (vf p : Nat) (l : Leaf) : Bool :=
  (s.setUp vf).any (fun y => y.pa == l.pa) || (s.gateUp p).any (fun x => x.1 == vf && x.2.pa == l.pa)

theorem State.comesNext_iff :
    s.comesNext vf p l = true ↔ ∃ y : Leaf, (s.setUp vf = some y ∨ s.gateUp p = some (vf, y)) ∧ y.pa = l.pa := by
  simp only [State.comesNext, Bool.or_eq_true, Option.any_eq_true, Bool.and_eq_true, beq_iff_eq]
  constructor
  · rintro (⟨y, hy, e⟩ | ⟨⟨_, y⟩, hy, rfl, e⟩)
    · exact ⟨y, .inl hy, e⟩
    · exact ⟨y, .inr hy, e⟩
  · rintro ⟨y, hy | hy, e⟩
    · exact .inl ⟨y, hy, e⟩
    · exact .inr ⟨(vf, y), hy, rfl, e⟩

/-- The tier engine promotes the page that comes next, once no promotion for which an access waits stands by. -/
theorem exec_tierMove_up (hp : s.partOf vf = some p) (hl : s.s2Leaf vf (page * 65536) = some l) (hc : s.hasCxl = true)
    (hm : s.moving l.pa = false) :
    exec (.tierMove vf page true) s =
      .next (if s.fillWaits p = false ∧ s.comesNext vf p l = true then s.startFill vf (s.curCtx vf) l.base else s) := by
  show execTierMove vf page true s = _
  simp only [execTierMove, hp, hl, if_true]
  rw [if_neg (by simp [hc, hm])]
  refine congrArg _ (if_congr (and_congr (by simp) ?comes) rfl rfl)
  simp only [State.comesNext, Bool.or_eq_true]
  refine or_congr ?set ?gate
  case set => cases s.setUp vf <;> rfl
  case gate => cases s.gateUp p <;> rfl

/-- The tier engine starts to write a fast-tier page down for the context for which it goes down, into the page's frame in the CXL range. -/
theorem exec_tierMove_down (hp : s.partOf vf = some p) (hl : s.s2Leaf vf (page * 65536) = some l) (hc : s.hasCxl = true)
    (hm : s.moving l.pa = false) (ht : l.tier = 0) (hd : s.downFor p vf l = some c) (hx : s.cxlFor p vf l = some dst) :
    exec (.tierMove vf page false) s = .next (s.startMove vf c l dst false) := by
  show execTierMove vf page false s = _
  simp only [execTierMove, hp, hl, hd, hx, Bool.false_eq_true, if_false]
  rw [if_neg (by simp [hc, hm]), if_pos ht]

/-- A move that ends is followed by new judgements of its VF's regions. -/
theorem exec_pageMoveComplete (h : s.moves.find? (fun m => m.id == id) = some mv) :
    exec (.pageMoveComplete id) s = .next ((s.endMove mv).rejudgeVf mv.vf) := by
  show execPageMoveComplete id s = _
  simp only [execPageMoveComplete, h]

end SaveAndMove

/-- Settles O47: a pre-emption saves what can be saved where a slot takes it, and each other event answers the state of its one law above. -/
theorem savesRestoresAndMoves : Obligations.SavesRestoresAndMoves := by
  refine ⟨?preempt, ?restore, ?moves, ?ends⟩
  case preempt =>
    intro s id w0 w r h0 hr s1 hw
    have h := exec_preempt (t := s1) h0 hr rfl hw
    refine ⟨fun hsaved hended hstop hset => ?_, fun hnot => ?_⟩
    · rw [h, if_pos (State.saveable_iff.2 ⟨hsaved, hended, hstop, hset⟩)]
      exact ⟨fun k hk => by rw [State.saveWg_of_slot hk], fun hk => by rw [State.saveWg_of_full hk]⟩
    · rw [h, if_neg (State.not_saveable_iff.2 hnot)]
  case restore =>
    intro s id w r x hw hx hr hp hf hroom
    exact exec_restore hw hx hr hp hf hroom
  case moves =>
    intro s vf page p dst l hp hl hc hm comes
    have h := exec_tierMove_up hp hl hc hm
    refine ⟨fun hfree hcomes => ?_, fun hnot => ?_, fun c ht hd hx => exec_tierMove_down hp hl hc hm ht hd hx⟩
    · rw [h, if_pos ⟨hfree, State.comesNext_iff.2 hcomes⟩]
    · rw [h, if_neg]
      rintro ⟨hfree, hcomes⟩
      exact hnot.elim (by simp [hfree]) (· (State.comesNext_iff.1 hcomes))
  case ends =>
    intro s id mv h
    exact exec_pageMoveComplete h

end Sys2Proof.Machine
end

section
/-! SUPPORT. The operations on workgroup barriers and on die barriers (R115 to R117, R257 to R265). -/

namespace Sys2Proof.Machine

section Barriers

variable {s s1 t : State} {is : Issue} {sp : Spot} {sps : List Spot} {x : Dword} {die : Bool} {kind : Nat}

/-! ## Registers that a posted write leaves as they are -/

/-- What a posted write may change in the registers of a VF: vf.err, the write index of the dirty log, and the indices of the replay log (R404, R413,
R443). -/
def logRegs : List Nat := [0x004, 0x038, 0x0B4, 0x0B8]

/-- Every other register of the VFs, those that switch the recorder and replay mode on among them. -/
def State.setup (s : State) (vf o : Nat) : Dword := if o < 0x1000 ∧ o ∉ logRegs then s.vfReg vf o else 0

theorem State.setup_congr (h : t.regs = s.regs) : t.setup = s.setup := by
  unfold State.setup State.vfReg State.reg
  rw [h]

theorem State.setup_setVfReg (s : State) (vf : Nat) {o : Nat} (v : Dword) (ho : o ∈ logRegs) : (s.setVfReg vf o v).setup = s.setup := by
  have hlt : o < 0x1000 := (by decide : ∀ o ∈ logRegs, o < 0x1000) o ho
  funext vf' o'
  unfold State.setup
  split
  · next h =>
    have hne : o ≠ o' := fun e => h.2 (e ▸ ho)
    refine (State.vfReg_setReg ..).trans (if_neg ?_)
    simp only [vfBase]
    omega
  · rfl

theorem State.setup_foldl {α : Type} {g : State → α → State} (hg : ∀ s x, (g s x).setup = s.setup) (l : List α) (s : State) :
    (l.foldl g s).setup = s.setup := by
  induction l generalizing s with
  | nil => rfl
  | cons x xs ih => exact (ih (g s x)).trans (hg s x)

theorem State.vfErr_setup (s : State) (vf b : Nat) : (s.vfErr vf b).setup = s.setup := State.setup_setVfReg s vf _ (by decide)

theorem State.logDirty_setup (s : State) (vf gpage : Nat) : (s.logDirty vf gpage).setup = s.setup := by
  unfold State.logDirty
  split
  · rfl
  · split
    · split
      split
      exacts [State.setup_setVfReg _ vf _ (by decide), State.vfErr_setup .., rfl, rfl]
    · split
      exacts [State.vfErr_setup .., rfl]

theorem State.noteAccess_setup (s : State) (vf : Nat) (gpage : Option Nat) (path leaves : List Nat) (write : Bool) :
    (s.noteAccess vf gpage path leaves write).setup = s.setup := by
  unfold State.noteAccess
  dsimp only
  split
  exacts [State.logDirty_setup .., rfl]

theorem State.noteWrite_setup (s : State) (vf pa : Nat) (n : Note) : (s.noteWrite vf pa n).setup = s.setup := by
  unfold State.noteWrite
  split
  · rfl
  · split
    exacts [rfl, State.noteAccess_setup ..]

theorem State.gpaWriteBytes_setup (s : State) (vf gpa : Nat) (bs : List Byte) : (s.gpaWriteBytes vf gpa bs).setup = s.setup := by
  refine State.setup_foldl (fun s i => ?_) ..
  unfold State.gpaWrite
  split
  exacts [State.noteAccess_setup .., rfl, rfl, rfl]

theorem State.recordTouches_setup (s : State) (ac : Accessor) (ts : List Touch) : (s.recordTouches ac ts).setup = s.setup := by
  unfold State.recordTouches
  split
  · exact State.setup_foldl (fun s t => (State.setup_setVfReg _ ac.vf _ (by decide)).trans (State.gpaWriteBytes_setup ..)) ..
  · rfl

theorem State.visitReplay_setup (s : State) (vf r k : Nat) : (s.visitReplay vf r k).setup = s.setup := by
  refine State.setup_foldl (fun s i => ?_) ..
  unfold State.gpaVisit
  split
  exacts [State.noteAccess_setup .., rfl, rfl, rfl]

theorem State.replayGate_setup {key vf ctx : Nat} {es : List ReplayEntry} (h : s.replayGate key vf ctx es = .go t) : t.setup = s.setup := by
  unfold State.replayGate at h
  split at h
  · dsimp only at h
    split at h
    · cases h; rfl
    · split at h
      · cases h
      · split at h
        · cases h; exact (State.setup_setVfReg _ vf _ (by decide)).trans (State.visitReplay_setup ..)
        · cases h
  · cases h; rfl

theorem State.noteRecent_setup (s : State) (start pa : Nat) (old : List Byte) : (s.noteRecent start pa old).setup = s.setup := by
  unfold State.noteRecent
  split <;> rfl

theorem State.applyPosted_setup (s : State) (p : Posted) : (s.applyPosted p).setup = s.setup := by
  unfold State.applyPosted
  split
  · exact State.noteRecent_setup ..
  · exact (State.noteRecent_setup ..).trans (State.noteRecent_setup ..)
  · refine (State.noteRecent_setup ..).trans ?_
    split <;> rfl
  · exact State.setup_foldl (fun s _ => State.setup_congr (State.setTag_regs s ..)) ..
  · exact State.noteRecent_setup ..

theorem State.performNow_setup (s : State) (p : Posted) : (s.performNow p).setup = s.setup :=
  (State.setup_foldl (fun _ _ => State.noteWrite_setup ..) ..).trans (State.applyPosted_setup s p)

theorem State.postedGate_setup {p : Posted} (h : s.postedGate p = .go t) : t.setup = s.setup := by
  unfold State.postedGate at h
  split at h
  · cases h
  · split at h
    · next hg =>
      cases h
      exact (State.recordTouches_setup ..).trans (State.replayGate_setup hg)
    · next hn => exact absurd h (hn t)

theorem State.performPosted_setup (s : State) (p : Posted) : (s.performPosted p).setup = s.setup := by
  unfold State.performPosted
  split
  · rfl
  · split
    · next hg => exact (State.performNow_setup ..).trans (State.postedGate_setup hg)
    · rfl
    · rfl

theorem State.flushSpots_setup (s : State) (is : Issue) (sps : List Spot) : (s.flushSpots is sps).setup = s.setup :=
  State.setup_foldl (fun _ _ => State.setup_foldl (fun _ _ => State.performPosted_setup ..) ..) ..

/-! ## A try that does not perform its operation (log entry 36) -/

theorem State.vfReg_of_setup (h : t.setup = s.setup) (vf : Nat) {o : Nat} (ho : o < 0x1000 ∧ o ∉ logRegs) : t.vfReg vf o = s.vfReg vf o := by
  have e := congrFun (congrFun h vf) o
  simpa only [State.setup, if_pos ho] using e

theorem State.quietLog_of_setup (h : t.setup = s.setup) (vf ctx : Nat) : t.quietLog vf ctx = s.quietLog vf ctx := by
  have mode := State.vfReg_of_setup h vf (o := 0x060) (by decide)
  have cur := State.vfReg_of_setup h vf (o := 0x044) (by decide)
  simp only [State.quietLog, State.recording, State.playing, State.curCtx, mode, cur]

theorem State.quietLog_iff {vf ctx : Nat} : s.quietLog vf ctx = true ↔ s.recording vf ctx = false ∧ s.playing vf ctx = false := by
  simp [State.quietLog]

section Trying

variable {ws : List WatchRange} {qs : List Req} {release : Bool} {scope : Scope} {body : State → List Spot → Effect}

/-- Where neither the recorder nor replay mode is on, an operation takes effect in the state that a try of it finds. -/
theorem Reaches.eq_tried (h : Reaches s is ws qs release scope s1 sps) (hq : s.quietLog is.w.vf is.w.ctx = true) : s1 = Tried s is sps := by
  obtain ⟨-, -, -, -, -, s0, hgate, rfl⟩ := h
  rw [← State.quietLog_of_setup (State.flushSpots_setup s is sps)] at hq
  obtain ⟨hrec, hplay⟩ := State.quietLog_iff.1 hq
  have hs0 : s0 = s.flushSpots is sps := by simpa [State.replayGate, hplay] using hgate.symm
  have hrec0 : s0.recording is.accessor.vf is.accessor.ctx = false := hs0 ▸ hrec
  rw [State.recordTouches, hrec0, if_neg Bool.false_ne_true, hs0, Tried]

/-- Where neither is on, the operation does what its body says, also where that does not perform it. -/
theorem Issue.accessWith_quiet {more : List Touch} (h : ReachesWith s is more ws qs release scope s1 sps)
    (hq : s.quietLog is.w.vf is.w.ctx = true) : is.accessWith s more ws qs release scope body = body s1 sps := by
  obtain ⟨hacq, hreqs, hrel, hroom, hwatch, s0, hgate, rfl⟩ := h
  simp only [Issue.accessWith, hacq, hreqs, hrel, hroom, Bool.false_eq_true, if_false]
  simp only [Issue.watched, hgate, hwatch, hq, Bool.or_true, if_true]

/-- An operation whose body performs it neither where it takes effect nor where it is tried ends as the try does. -/
theorem Issue.accessOn_try (h : Reaches s is ws qs release scope s1 sps) (hp : (body s1 sps).performs = false)
    (ht : (body (Tried s is sps) sps).performs = false) : is.accessOn s ws qs release scope body = body (Tried s is sps) sps := by
  cases hq : s.quietLog is.w.vf is.w.ctx with
  | false => exact Issue.accessWith_try h hq hp ht
  | true => rw [Issue.accessOn, Issue.accessWith_quiet h hq, h.eq_tried hq]

end Trying

/-! ## An operation on one object -/

theorem not_isNone_of_isSome {α : Type} {o : Option α} (h : o.isSome = true) : ¬ o.isNone = true :=
  ne_true_of_eq_false (Option.isNone_eq_false_iff.2 h)

/-- A barrier operation performed once reaches the object at `x`, whose place is `sp`; it takes effect in `s1` (R229, R257). -/
def ReachesBar (s : State) (is : Issue) (die : Bool) (kind : Nat) (x : Dword) (release : Bool) (s1 : State) (sp : Spot) (sps : List Spot) : Prop :=
  is.barBad s die x = false ∧ Reaches s is [] [is.barReq die kind is.l0 x] release (if die then .die else .workgroup) s1 (sp :: sps)

section OneObject

variable {release loud : Bool} {body : State → Nat → Effect}

theorem Issue.onBar_done (h : ReachesBar s is die kind x release s1 sp sps) (hb : body s1 sp.pa = .done t loud) :
    is.onBar s die kind x release body = .done t loud := by
  obtain ⟨hx, hr⟩ := h
  rw [Issue.onBar, if_neg (by simp [hx])]
  show is.whole _ = is.whole (.done t loud)
  refine congrArg is.whole ((Issue.accessOn_go hr ?_).trans ?_)
  exacts [congrArg Effect.performs hb, hb]

/-- An operation that waits or faults in both states does so as it is tried. -/
theorem Issue.onBar_try {e : Effect} (h : ReachesBar s is die kind x release s1 sp sps) (hp : (body s1 sp.pa).performs = false)
    (ht : body (Tried s is (sp :: sps)) sp.pa = e) (he : e.performs = false) : is.onBar s die kind x release body = is.whole e := by
  obtain ⟨hx, hr⟩ := h
  rw [Issue.onBar, if_neg (by simp [hx])]
  exact congrArg is.whole ((Issue.accessOn_try hr hp ((congrArg Effect.performs ht).trans he)).trans ht)

end OneObject

/-! ## The waits for a phase (R117, R261) -/

section Waits

variable {f : Fields} {live : State → Nat → Bool}

theorem barWait_expired (he : is.expired (if die then .dieBarrier else .barrier) = true) :
    barWait f die live s is = .hit (Hit.plain .barrierTimeLimit is.mask (is.destAddr f is.l0)) := by
  rw [barWait, if_pos he]

theorem barWait_passed (h : ReachesBar s is die 0 (is.destAddr f is.l0) false s1 sp sps)
    (he : is.expired (if die then .dieBarrier else .barrier) = false) (hl : live s1 sp.pa = true)
    (hp : phasePassed (readBar s1.mem sp.pa).phase (is.word f.a is.l0).toNat = true) : barWait f die live s is = .done s1 true := by
  rw [barWait, if_neg (by simp [he]), Issue.onBar_done h (t := s1) (loud := true) (by simp [hl, hp])]

/-- A wait for a phase that has not passed, on an object that is live, goes on. -/
theorem barWait_open (h : ReachesBar s is die 0 (is.destAddr f is.l0) false s1 sp sps)
    (he : is.expired (if die then .dieBarrier else .barrier) = false)
    (ho : ∀ a, a = s1 ∨ a = Tried s is (sp :: sps) →
      live a sp.pa = true ∧ ¬ phasePassed (readBar a.mem sp.pa).phase (is.word f.a is.l0).toNat = true) :
    barWait f die live s is = .wait (Tried s is (sp :: sps))
      { kind := if die then .dieBarrier else .barrier, cycles := 0, addr := is.destAddr f is.l0, expired := false,
        phase := (is.word f.a is.l0).toNat } := by
  obtain ⟨hl, hp⟩ := ho s1 (.inl rfl)
  obtain ⟨hlt, hpt⟩ := ho _ (.inr rfl)
  rw [barWait, if_neg (by simp [he]), Issue.onBar_try h (by simp [hl, hp, Effect.performs]) (by simp [hlt, hpt]; rfl) rfl]
  rfl

end Waits

/-! ## `bar.arrive` (R115, R260) -/

/-- The arrivals of the active lanes at the places `sps`. -/
def Issue.arrivals (is : Issue) (f : Fields) (sps : List Spot) : List Arrival :=
  is.active.filterMap (fun L =>
    (spotOfLane sps L).map (fun sp => { lane := L, x := is.destAddr f L, pa := sp.pa, count := (is.word f.a L).toNat : Arrival }))

theorem chooseFault_nil : chooseFault [] = none := by decide

/-- Lanes none of which fails a check arrive on every barrier of the workgroup, where no count goes past what its barrier expects. -/
theorem exec_barArrive {f : Fields} (hr : Ready (.barArrive f) s is) (hf : ∀ L ∈ is.active, is.arriveFails s (is.destAddr f L) L = none)
    (h : Reaches s is [] (is.active.map (fun L => is.barReq false 1 L (is.destAddr f L))) true .workgroup s1 sps)
    (hn : ∀ a ∈ is.arrivals f sps, (readBar s1.mem a.pa).arrivals + (arrivalsAt (is.arrivals f sps) a.pa).1 ≤ (readBar s1.mem a.pa).expected) :
    exec (.barArrive f) s = retires (.barArrive f) is (is.w.bars.foldl (fun s b => s.arriveOn is (is.arrivals f sps) b) s1) true := by
  have nofault : is.active.filterMap (fun L => is.arriveFails s (is.destAddr f L) L) = [] := List.filterMap_eq_nil_iff.2 hf
  have fits : (is.arrivals f sps).find? (fun a =>
      decide ((readBar s1.mem a.pa).expected < (readBar s1.mem a.pa).arrivals + (arrivalsAt (is.arrivals f sps) a.pa).1)) = none :=
    List.find?_eq_none.2 fun a ha => by simpa using hn a ha
  refine runOp_done hr.1 hr.2 ?_
  unfold Issue.arrivals at fits
  simp only [nofault, chooseFault_nil]
  refine (Issue.accessOn_go h ?_).trans ?_
  all_goals
    simp only [fits]
    rfl

end Barriers

/-- Settles O37: each operation performed once does in the state that reaches its object what its arm says there; a wait that goes on does so in the
state of a try, and one that passed its limit faults before it reaches anything. -/
theorem workgroupBarriers : Obligations.WorkgroupBarriers := by
  intro f s s1 is sp sps x n here b
  refine ⟨?init, ?passed, ?goesOn, ?expired, ?expect, ?link, ?arrive⟩
  case init =>
    intro hr (h : ReachesBar s is false 1 x false s1 sp sps) hnew h1 hmax hroom
    have hfit : ¬ (n = 0 ∨ 65535 < n ∨ 8 ≤ is.w.bars.length) := by omega
    refine runOp_done hr.1 hr.2 (Issue.onBar_done h ?_)
    simp only [hnew]
    exact if_neg hfit
  case passed =>
    intro hr (h : ReachesBar s is false 0 x false s1 sp sps) hlive hexp hp
    exact runOp_done hr.1 hr.2 (barWait_passed h hexp hlive hp)
  case goesOn =>
    intro hr (h : ReachesBar s is false 0 x false s1 sp sps) hlive hexp hp hpt
    refine runOp_wait hr.1 hr.2 (barWait_open h hexp ?_)
    rintro a (rfl | rfl)
    exacts [⟨hlive, hp⟩, ⟨hlive, hpt⟩]
  case expired =>
    intro hr hexp
    exact runOp_hit hr.1 hr.2 (barWait_expired hexp)
  case expect =>
    intro hr (h : ReachesBar s is false 1 x false s1 sp sps) hlive hn hbal
    have hfit : ¬ ((is.w.bar? sp.pa).isNone ∨ 2 ^ 30 < n ∨ 2 ^ 31 ≤ b.balance + n) :=
      not_or.2 ⟨not_isNone_of_isSome hlive, not_or.2 ⟨Nat.not_lt.2 hn, Int.not_le.2 hbal⟩⟩
    exact runOp_done hr.1 hr.2 (Issue.onBar_done h (if_neg hfit))
  case link =>
    intro hr (h : ReachesBar s is false 1 x false s1 sp sps) hlive htags h64
    have hall : is.word f.a is.l0 ≠ 0xFFFFFFFF := fun e => absurd h64 (by simp [n, e])
    refine runOp_done hr.1 hr.2 (Issue.onBar_done h ?_)
    rw [if_neg (not_isNone_of_isSome hlive), if_neg hall, if_neg (Nat.not_le.2 htags)]
  case arrive =>
    intro hr hf h as hn
    exact exec_barArrive hr hf h hn

/-- Settles O38: as for a workgroup barrier, with what is live looked up in the state that each step finds. -/
theorem dieBarriers : Obligations.DieBarriers := by
  intro f s s1 is sp sps x n here b
  refine ⟨?init, ?arrive, ?none, ?unfit, ?passed, ?goesOn, ?expired⟩
  case init =>
    intro hr (h : ReachesBar s is true 1 x false s1 sp sps) hnew h1 hmax hroom s2
    refine runOp_done hr.1 hr.2 (Issue.onBar_done h ?_)
    simp only [hnew]
    exact if_neg (by omega)
  case arrive =>
    intro hr (h : ReachesBar s is true 1 x true s1 sp sps) hlive h0 hn
    have hfit : ¬ ((s1.dieBar? sp.pa).isNone ∨ b.expected < b.arrivals + n) := not_or.2 ⟨not_isNone_of_isSome hlive, Nat.not_lt.2 hn⟩
    exact runOp_done hr.1 hr.2 (Issue.onBar_done h ((if_neg hfit).trans (if_neg h0)))
  case none =>
    intro hr (h : ReachesBar s is true 1 x true s1 sp sps) hlive h0 hn
    have hfit : ¬ ((s1.dieBar? sp.pa).isNone ∨ b.expected < b.arrivals + n) := not_or.2 ⟨not_isNone_of_isSome hlive, Nat.not_lt.2 (h0 ▸ hn)⟩
    exact runOp_done hr.1 hr.2 (Issue.onBar_done h ((if_neg hfit).trans (if_pos h0)))
  case unfit =>
    intro hr (h : ReachesBar s is true 1 x true s1 sp sps) hbad
    refine runOp_hit hr.1 hr.2 ((Issue.onBar_try h ?_ (if_pos (hbad _ (.inr rfl))) rfl).trans rfl)
    exact congrArg Effect.performs (if_pos (hbad s1 (.inl rfl)))
  case passed =>
    intro hr (h : ReachesBar s is true 0 x false s1 sp sps) hlive hexp hp
    exact runOp_done hr.1 hr.2 (barWait_passed h hexp hlive hp)
  case goesOn =>
    intro hr (h : ReachesBar s is true 0 x false s1 sp sps) hopen hexp
    exact runOp_wait hr.1 hr.2 (barWait_open h hexp hopen)
  case expired =>
    intro hr hexp
    exact runOp_hit hr.1 hr.2 (barWait_expired hexp)

end Sys2Proof.Machine
end

section
/-! SUPPORT. The encoder and the decoder, part by part: codes, operands, prefixes, the two parcels of an operation, and the opcode map (R119 to
R147). -/

namespace Sys2Proof

/-! ## Fields of a parcel -/

/-- Two bit strings make up a field where they are its high bits and its low bits. -/
theorem append_eq_field_iff {k m n s : Nat} {x : BitVec m} {y : BitVec n} {w : BitVec k} :
    x ++ y = w.extractLsb' s (m + n) ↔ x = w.extractLsb' (s + n) m ∧ y = w.extractLsb' s n := by
  rw [← BitVec.extractLsb'_append_extractLsb'_eq_extractLsb' (rfl : s + n = s + n)]
  constructor
  · intro h
    have hx := congrArg (BitVec.extractLsb' n m) h
    have hy := congrArg (BitVec.extractLsb' 0 n) h
    simp only [BitVec.extractLsb'_append_eq_of_le (Nat.le_refl n), BitVec.extractLsb'_append_eq_of_add_le (Nat.le_of_eq (Nat.zero_add n)),
      Nat.sub_self, BitVec.extractLsb'_eq_self] at hx hy
    exact ⟨hx, hy⟩
  · rintro ⟨rfl, rfl⟩; rfl

theorem append_eq_iff {m n : Nat} {x : BitVec m} {y : BitVec n} {w : BitVec (m + n)} :
    x ++ y = w ↔ x = w.extractLsb' n m ∧ y = w.extractLsb' 0 n := by
  rw [← BitVec.extractLsb'_eq_self (x := w), append_eq_field_iff, BitVec.extractLsb'_eq_self, Nat.zero_add]

theorem ofNat_eq_iff_toNat {n k : Nat} (h : k < 2 ^ n) {x : BitVec n} : BitVec.ofNat n k = x ↔ x.toNat = k := by
  rw [← BitVec.toNat_inj, BitVec.toNat_ofNat, Nat.mod_eq_of_lt h, eq_comm]

/-! ## Codes (R62, R121, R128, R129) -/

theorem Ty.code_lt (t : Ty) : t.code < 16 := by cases t <;> decide

@[simp] theorem Ty.ofCode_code (t : Ty) : Ty.ofCode t.code = t := by cases t <;> rfl

theorem Ty.code_ofCode : ∀ n < 16, (Ty.ofCode n).code = n := by decide

theorem Ty.ofCode_eq {n : Nat} (h : n < 16) {t : Ty} : Ty.ofCode n = t ↔ n = t.code :=
  ⟨fun e => e ▸ (Ty.code_ofCode n h).symm, fun e => e ▸ t.ofCode_code⟩

theorem IndexReg.ofCode_eq_some {c : BitVec 8} {x : IndexReg} : IndexReg.ofCode c = some x ↔ x.code = c := by
  have hall : ∀ c, ∀ x ∈ IndexReg.ofCode c, x.code = c := by decide
  exact ⟨hall c x, fun h => h ▸ by cases x <;> rfl⟩

theorem Rnd.ofCode_eq_some {c : BitVec 3} {x : Rnd} : Rnd.ofCode c = some x ↔ x.code = c := by
  have hall : ∀ c, ∀ x ∈ Rnd.ofCode c, x.code = c := by decide
  exact ⟨hall c x, fun h => h ▸ by cases x <;> rfl⟩

theorem Order.ofCode_eq {c : BitVec 2} {x : Order} : Order.ofCode c = x ↔ x.code = c := by
  have hall : ∀ c, (Order.ofCode c).code = c := by decide
  exact ⟨fun h => h ▸ hall c, fun h => h ▸ by cases x <;> rfl⟩

theorem Scope.ofCode_eq_some {c : BitVec 3} {x : Scope} : Scope.ofCode c = some x ↔ x.code = c := by
  have hall : ∀ c, ∀ x ∈ Scope.ofCode c, x.code = c := by decide
  exact ⟨hall c x, fun h => h ▸ by cases x <;> rfl⟩

theorem Space.ofCode_eq_some {c : BitVec 3} {x : Space} : Space.ofCode c = some x ↔ x.code = c := by
  have hall : ∀ c, ∀ x ∈ Space.ofCode c, x.code = c := by decide
  exact ⟨hall c x, fun h => h ▸ by cases x <;> rfl⟩

theorem Policy.ofCode_eq_some {c : BitVec 3} {x : Policy} : Policy.ofCode c = some x ↔ x.code = c := by
  have hall : ∀ c, ∀ x ∈ Policy.ofCode c, x.code = c := by decide
  exact ⟨hall c x, fun h => h ▸ by cases x <;> rfl⟩

/-! ## Operands and their literals (R123, R127) -/

/-- The decoder reads an operand from its code and its literals. -/
theorem decodeOperand_encode (o : Operand) (ws : List Word) : decodeOperand o.code (o.literals ++ ws) = .ok (o, ws) := by
  cases o with
  | reg k =>
    obtain ⟨htop, hlow⟩ : 0#2 = (Operand.reg k).code.extractLsb' 6 2 ∧ k = (Operand.reg k).code.extractLsb' 0 6 := append_eq_iff.1 rfl
    rw [decodeOperand.eq_def, if_pos htop.symm, ← hlow]; rfl
  | idx i => cases i <;> rfl
  | imm v =>
    obtain ⟨htop, hlow⟩ : 3#3 = (Operand.imm v).code.extractLsb' 5 3 ∧ v = (Operand.imm v).code.extractLsb' 0 5 := append_eq_iff.1 rfl
    have hreg : (Operand.imm v).code.extractLsb' 6 2 ≠ 0#2 := by
      rw [show (Operand.imm v).code.extractLsb' 6 2 = (3#3).extractLsb' 1 2 from BitVec.extractLsb'_append_eq_of_le (by decide)]; decide
    rw [decodeOperand.eq_def, if_neg hreg, if_pos htop.symm, ← hlow]; rfl
  | lit32 v => simp [decodeOperand.eq_def, Operand.code, Operand.literals]
  | lit64 v =>
    have hv : v.extractLsb' 32 32 ++ v.extractLsb' 0 32 = v := append_eq_iff.2 ⟨rfl, rfl⟩
    simp [decodeOperand.eq_def, Operand.code, Operand.literals, hv]

/-- What the decoder reads as an operand is the operand's code with its literals. -/
theorem encode_of_decodeOperand {c : BitVec 8} {ws rest : List Word} {o : Operand} (h : decodeOperand c ws = .ok (o, rest)) :
    o.code = c ∧ ws = o.literals ++ rest := by
  unfold decodeOperand at h
  split at h
  · next hc => cases h; exact ⟨append_eq_iff.2 ⟨hc.symm, rfl⟩, rfl⟩
  split at h
  · next hc => cases h; exact ⟨append_eq_iff.2 ⟨hc.symm, rfl⟩, rfl⟩
  split at h
  · next hc =>
    split at h
    · cases h; exact ⟨hc.symm, rfl⟩
    · cases h
  split at h
  · next hc =>
    split at h
    · next lo hi rest =>
      cases h
      obtain ⟨hhi, hlo⟩ := append_eq_iff.1 (rfl : hi ++ lo = (hi ++ lo : Dword))
      exact ⟨hc.symm, by rw [Operand.literals, ← hhi, ← hlo]; rfl⟩
    · cases h
  split at h
  · next hi => cases h; exact ⟨IndexReg.ofCode_eq_some.1 hi, rfl⟩
  · cases h

/-! ## Prefix parcels (R129) -/

/-- The parcel of a `Prefix` is the word that holds its codes. -/
theorem Prefix.parcel_eq_iff {p : Prefix} {w : Word} : p.parcel = w ↔
    14#4 = w.extractLsb' 28 4 ∧ p.order.code = w.extractLsb' 26 2 ∧ p.scope.code = w.extractLsb' 23 3 ∧ p.space.code = w.extractLsb' 20 3 ∧
      p.policy.code = w.extractLsb' 17 3 ∧ BitVec.ofBool p.notag = w.extractLsb' 16 1 ∧ 0#16 = w.extractLsb' 0 16 := by
  rw [Prefix.parcel, append_eq_iff (m := 16), append_eq_field_iff (m := 15), append_eq_field_iff (m := 12), append_eq_field_iff (m := 9),
    append_eq_field_iff (m := 6), append_eq_field_iff (m := 4)]
  simp only [and_assoc]

/-- What the decoder reads as a `Prefix`, in the parcels that it takes for one. -/
theorem Prefix.ofParcel_eq_some {p : Prefix} {w : Word} (h14 : parcelClass w = 14) : Prefix.ofParcel w = some p ↔ p.parcel = w := by
  have hbool : ∀ x : BitVec 1, ∀ b, (x == 1#1) = b ↔ BitVec.ofBool b = x := by decide
  have h28 : 14#4 = w.extractLsb' 28 4 := (ofNat_eq_iff_toNat (by decide)).2 h14
  rw [Prefix.parcel_eq_iff, ← Order.ofCode_eq, ← Scope.ofCode_eq_some, ← Space.ofCode_eq_some, ← Policy.ofCode_eq_some, ← hbool,
    Prefix.ofParcel]
  obtain ⟨order, scope, space, policy, notag⟩ := p
  split
  · next hlow => exact ⟨nofun, fun ⟨_, _, _, _, _, _, h0⟩ => (hlow h0.symm).elim⟩
  · next hlow =>
    split
    · next hsc hsp hpo => simp [hsc, hsp, hpo, ← h28, not_not.1 hlow]
    · next hno => exact ⟨nofun, fun ⟨_, _, hsc, hsp, hpo, _⟩ => (hno _ _ _ hsc hsp hpo).elim⟩

/-! ## The two parcels of an operation (R119) -/

/-- Parcel 0 of an operation. -/
def headParcel (cls opc : Nat) (f : Fields) : Word :=
  BitVec.ofNat 4 cls ++ BitVec.ofNat 8 opc ++ BitVec.ofNat 4 f.ty.code ++ 0#2 ++ f.dest ++ f.a.code

/-- Parcel 1 of an operation. -/
def Fields.tailParcel (f : Fields) : Word := f.b.code ++ f.c.code ++ f.mod ++ f.rnd.code ++ f.spec

/-- The literals of an operation, in the order of its operands. -/
def Fields.literals (f : Fields) : List Word := f.a.literals ++ f.b.literals ++ f.c.literals

theorem headParcel_eq_iff {cls opc : Nat} {f : Fields} {w : Word} (hc : cls < 16) (ho : opc < 256) : headParcel cls opc f = w ↔
    parcelClass w = cls ∧ (w.extractLsb' 20 8).toNat = opc ∧ (w.extractLsb' 16 4).toNat = f.ty.code ∧ 0#2 = w.extractLsb' 14 2 ∧
      f.dest = w.extractLsb' 8 6 ∧ f.a.code = w.extractLsb' 0 8 := by
  rw [headParcel, append_eq_iff (m := 24), append_eq_field_iff (m := 18), append_eq_field_iff (m := 16), append_eq_field_iff (m := 12),
    append_eq_field_iff (m := 4), ofNat_eq_iff_toNat hc, ofNat_eq_iff_toNat ho, ofNat_eq_iff_toNat f.ty.code_lt]
  simp only [and_assoc, parcelClass]

theorem Fields.tailParcel_eq_iff {f : Fields} {w : Word} : f.tailParcel = w ↔
    f.b.code = w.extractLsb' 24 8 ∧ f.c.code = w.extractLsb' 16 8 ∧ f.mod = w.extractLsb' 11 5 ∧ f.rnd.code = w.extractLsb' 8 3 ∧
      f.spec = w.extractLsb' 0 8 := by
  rw [Fields.tailParcel, append_eq_iff (m := 24), append_eq_field_iff (m := 21), append_eq_field_iff (m := 16), append_eq_field_iff (m := 8)]
  simp only [and_assoc]

/-- The fields that the decoder reads from two parcels and what follows them are those that have these parcels and literals. -/
theorem decodeFields_eq_ok {pre : Option Prefix} {p0 p1 : Word} {ws rest : List Word} {f : Fields} :
    decodeFields pre p0 p1 ws = .ok (f, rest) ↔
      f.pre = pre ∧ headParcel (parcelClass p0) (p0.extractLsb' 20 8).toNat f = p0 ∧ f.tailParcel = p1 ∧ ws = f.literals ++ rest := by
  rw [headParcel_eq_iff (w := p0) (BitVec.isLt _) (BitVec.isLt _), Fields.tailParcel_eq_iff]
  constructor
  · intro h
    unfold decodeFields at h
    split at h
    · cases h
    next hres =>
    split at h
    · cases h
    next rnd hrnd =>
    split at h
    · cases h
    next a ws1 ha =>
    split at h
    · cases h
    next b ws2 hb =>
    split at h
    · cases h
    next c ws3 hc =>
    cases h
    obtain ⟨hca, rfl⟩ := encode_of_decodeOperand ha
    obtain ⟨hcb, rfl⟩ := encode_of_decodeOperand hb
    obtain ⟨hcc, rfl⟩ := encode_of_decodeOperand hc
    exact ⟨rfl, ⟨rfl, rfl, ((Ty.ofCode_eq (BitVec.isLt _)).1 rfl), (not_not.1 hres).symm, rfl, hca⟩,
      ⟨hcb, hcc, rfl, Rnd.ofCode_eq_some.1 hrnd, rfl⟩, by simp [Fields.literals]⟩
  · rintro ⟨rfl, ⟨-, -, hty, hres, hdest, ha⟩, ⟨hb, hc, hmod, hrnd, hspec⟩, rfl⟩
    simp only [decodeFields, ← hres, ne_eq, not_true, if_false, Rnd.ofCode_eq_some.2 hrnd, ← ha, ← hb, ← hc, Fields.literals,
      List.append_assoc, decodeOperand_encode, (Ty.ofCode_eq (BitVec.isLt _)).2 hty, ← hdest, ← hmod, ← hspec]

/-! ## The opcode map (R136 to R147) -/

/-- The rows of a class. -/
def classRows : Nat → List Row
  | 1 => integerRows | 2 => floatRows | 3 => convertRows | 4 => laneRows | 5 => loadStoreRows | 6 => queueRows | 7 => syncRows
  | 8 => atomicRows | 9 => matrixRows | 10 => controlRows | 11 => systemRows | 12 => tagRows | _ => []

theorem classRows_of_le {k : Nat} (h : 13 ≤ k) : classRows k = [] := by
  obtain ⟨k, rfl⟩ := Nat.exists_eq_add_of_le' h; rfl

theorem opcodeRows_eq_flatMap : opcodeRows = (List.range 13).flatMap classRows := by
  simp [opcodeRows, classRows, List.range_succ]

theorem classRows_cls (k : Nat) : ∀ r ∈ classRows k, r.cls = k := by
  rw [← List.map_inj_left (g := fun _ => k)]
  match k with
  | 0 | 1 | 2 | 3 | 4 | 5 | 6 | 7 | 8 | 9 | 10 | 11 | 12 => rfl
  | k + 13 => rfl

theorem opcodeRows_range : ∀ r ∈ opcodeRows, 0 < r.cls ∧ r.cls < 13 ∧ r.opc < 256 := by
  have hall : opcodeRows.all (fun r => Nat.blt 0 r.cls && Nat.blt r.cls 13 && Nat.blt r.opc 256) = true := rfl
  simpa [and_assoc] using hall

/-- The operation of a row has the class and the opcode of the row. -/
theorem opcodeRows_code (f : Fields) : ∀ r ∈ opcodeRows, (r.ctor f).code = some (r.cls, r.opc, f) := List.map_inj_left.1 rfl

theorem findSome?_of_only {α : Type} (k : Nat) (x : Option α) (l : List Nat) :
    l.findSome? (fun j => if j = k then x else none) = if k ∈ l then x else none := by
  induction l with
  | nil => rfl
  | cons j l ih =>
    rw [List.findSome?_cons, ih]
    by_cases h : j = k
    · subst h; cases x <;> simp
    · simp [h, Ne.symm h]

/-- The row of a class and an opcode is looked up among the rows of the class. -/
theorem findRow_eq_find? (c o : Nat) : findRow c o = (classRows c).find? (fun r => r.opc == o) := by
  have hclass (k : Nat) : (classRows k).find? (fun r => r.cls == c && r.opc == o) =
      if k = c then (classRows c).find? (fun r => r.opc == o) else none := by
    split
    · next h =>
      subst h
      exact List.find?_congr fun r hr => by simp [classRows_cls k r hr]
    · next h => exact List.find?_eq_none.2 fun r hr => by simp [classRows_cls k r hr, h]
  simp only [findRow, opcodeRows_eq_flatMap, List.find?_flatMap, hclass, findSome?_of_only, List.mem_range]
  split
  · rfl
  · rw [classRows_of_le (by omega)]; rfl

theorem findRow_key {c o : Nat} {r : Row} (h : findRow c o = some r) : r ∈ opcodeRows ∧ r.cls = c ∧ r.opc = o := by
  have hkey := List.find?_some h
  simp only [Bool.and_eq_true, beq_iff_eq] at hkey
  exact ⟨List.mem_of_find?_eq_some h, hkey⟩

theorem findRow_range {c o : Nat} {r : Row} (h : findRow c o = some r) : 0 < c ∧ c < 13 ∧ o < 256 := by
  obtain ⟨hr, rfl, rfl⟩ := findRow_key h
  exact opcodeRows_range r hr

theorem findRow_code {c o : Nat} {r : Row} (h : findRow c o = some r) (f : Fields) : (r.ctor f).code = some (c, o, f) := by
  obtain ⟨hr, rfl, rfl⟩ := findRow_key h
  exact opcodeRows_code f r hr

/-- The row that an operation's class and opcode find is the operation's own. -/
theorem ctor_of_findRow {i : Instr} {c o : Nat} {f : Fields} {r : Row} (hi : i.code = some (c, o, f)) (h : findRow c o = some r) :
    r.ctor f = i := by
  have hrow : ((classRows c).find? (fun r => r.opc == o)).map (fun r => r.ctor f) = some i := by
    cases i <;> cases hi <;> rfl
  rw [← findRow_eq_find?, h] at hrow
  exact Option.some.inj hrow

/-- An operation is well formed where its fields pass the checks of its row. -/
theorem Instr.wellFormed_iff {i : Instr} {c o : Nat} {f : Fields} (h : i.code = some (c, o, f)) :
    i.WellFormed ↔ ∃ r, findRow c o = some r ∧ r.check f = none := by
  unfold Instr.WellFormed Instr.formError
  simp only [h]
  cases findRow c o <;> simp

/-! ## Whole operations (R119, R120, R129, R130) -/

/-- The parcel of a `Prefix`, if there is one. -/
def prefixParcels (pre : Option Prefix) : List Word := pre.toList.map Prefix.parcel

theorem encodeFields_eq (cls opc : Nat) (f : Fields) :
    encodeFields cls opc f = prefixParcels f.pre ++ headParcel cls opc f :: f.tailParcel :: f.literals := by
  unfold encodeFields
  cases f.pre <;> simp [prefixParcels, headParcel, Fields.tailParcel, Fields.literals]

theorem encode_of_code {i : Instr} {c o : Nat} {f : Fields} (h : i.code = some (c, o, f)) : encode i = encodeFields c o f := by
  simp only [encode, h]

theorem parcelClass_headParcel {c o : Nat} (f : Fields) (hc : c < 16) (ho : o < 256) : parcelClass (headParcel c o f) = c :=
  ((headParcel_eq_iff hc ho).1 rfl).1

/-- What the decoder reads behind a `Prefix` is an operation of the opcode map, with its parcels and its literals. -/
theorem decodeBody_eq_ok {pre : Option Prefix} {p0 : Word} {ws rest : List Word} {i : Instr} :
    decodeBody pre p0 ws = .ok (i, rest) ↔ ∃ c o f, i.code = some (c, o, f) ∧ i.WellFormed ∧ f.pre = pre ∧ p0 = headParcel c o f ∧
      ws = f.tailParcel :: (f.literals ++ rest) := by
  constructor
  · intro h
    unfold decodeBody at h
    split at h
    · cases h
    next r hr =>
    split at h
    · cases h
    next p1 ws =>
    split at h
    · cases h
    next f ws' hf =>
    split at h
    · cases h
    next hcheck =>
    cases h
    obtain ⟨hpre, hhead, rfl, rfl⟩ := decodeFields_eq_ok.1 hf
    have hcode := findRow_code hr f
    exact ⟨_, _, f, hcode, (Instr.wellFormed_iff hcode).2 ⟨r, hr, hcheck⟩, hpre, hhead.symm, rfl⟩
  · rintro ⟨c, o, f, hcode, hwf, hpre, rfl, rfl⟩
    obtain ⟨r, hr, hcheck⟩ := (Instr.wellFormed_iff hcode).1 hwf
    obtain ⟨-, hc, ho⟩ := findRow_range hr
    obtain ⟨hcls, hopc, -⟩ := (headParcel_eq_iff (f := f) (show c < 16 by omega) ho).1 rfl
    have hf : decodeFields pre (headParcel c o f) f.tailParcel (f.literals ++ rest) = .ok (f, rest) :=
      decodeFields_eq_ok.2 ⟨hpre, by rw [hcls, hopc], rfl, rfl⟩
    simp only [decodeBody, hcls, hopc, hr, hf, hcheck, ctor_of_findRow hcode hr]

theorem parcelClass_parcel (p : Prefix) : parcelClass p.parcel = 14 :=
  (ofNat_eq_iff_toNat (by decide)).1 (Prefix.parcel_eq_iff.1 rfl).1

/-- What the decoder reads is a `Prefix`, if there is one, and an operation of a class that can stand behind it. -/
theorem decode_eq_ok {ws rest : List Word} {i : Instr} : decode ws = .ok (i, rest) ↔ ∃ pre p0 ws', ws = prefixParcels pre ++ p0 :: ws' ∧
    parcelClass p0 ≠ 0 ∧ parcelClass p0 ≠ 14 ∧ decodeBody pre p0 ws' = .ok (i, rest) := by
  constructor
  · intro h
    unfold decode at h
    split at h
    · cases h
    next p0 ws =>
    split at h
    · cases h
    next h0 =>
    split at h
    · next h14 =>
      split at h
      · next p q0 ws hp =>
        split at h
        · cases h
        next hq =>
        obtain ⟨hq0, hq14⟩ := not_or.1 hq
        exact ⟨some p, q0, ws, by rw [← (Prefix.ofParcel_eq_some h14).1 hp]; rfl, hq0, hq14, h⟩
      · cases h
    · next h14 => exact ⟨none, p0, ws, rfl, h0, h14, h⟩
  · rintro ⟨pre, p0, ws, rfl, h0, h14, h⟩
    cases pre with
    | none => simp [prefixParcels, decode, h0, h14, h]
    | some p =>
      have hp := parcelClass_parcel p
      simp [prefixParcels, decode, hp, (Prefix.ofParcel_eq_some hp).2 rfl, h0, h14, h]

/-- The decoder accepts the encodings of the well-formed operations, and nothing else. -/
theorem decode_eq_ok_iff_encode {ws rest : List Word} {i : Instr} :
    decode ws = .ok (i, rest) ↔ i.isOp ∧ i.WellFormed ∧ ws = encode i ++ rest := by
  rw [decode_eq_ok]
  constructor
  · rintro ⟨pre, p0, ws', rfl, -, -, h⟩
    obtain ⟨c, o, f, hcode, hwf, rfl, rfl, rfl⟩ := decodeBody_eq_ok.1 h
    exact ⟨by rw [Instr.isOp, hcode]; rfl, hwf, by simp [encode_of_code hcode, encodeFields_eq]⟩
  · rintro ⟨hop, hwf, rfl⟩
    obtain ⟨⟨c, o, f⟩, hcode⟩ := Option.isSome_iff_exists.1 hop
    obtain ⟨r, hr, -⟩ := (Instr.wellFormed_iff hcode).1 hwf
    obtain ⟨hc0, hc, ho⟩ := findRow_range hr
    have hcls := parcelClass_headParcel f (show c < 16 by omega) ho
    exact ⟨f.pre, headParcel c o f, _, by rw [encode_of_code hcode, encodeFields_eq, List.append_assoc]; rfl, by omega, by omega,
      decodeBody_eq_ok.2 ⟨c, o, f, hcode, hwf, rfl, rfl, rfl⟩⟩

namespace Machine

/-- Settles O54: the decoder accepts the encoding of every well-formed operation, and reads the operation from it. -/
theorem encodedIsDecoded : Obligations.EncodedIsDecoded := fun _ _ hop hwf => decode_eq_ok_iff_encode.2 ⟨hop, hwf, rfl⟩

/-- Settles O55: the decoder accepts nothing else. -/
theorem decodedIsEncoded : Obligations.DecodedIsEncoded := fun _ _ _ => decode_eq_ok_iff_encode.1

/-- Settles O53: the words of each operation are its encoding, and the others have a class that no operation has, or a second `Prefix`. -/
theorem writtenWords : Obligations.WrittenWords := by
  have hword {ws : List Word} {i : Instr} (hop : i.isOp) (hwf : i.WellFormed) (h : ws = encode i) : decode ws = .ok (i, []) :=
    decode_eq_ok_iff_encode.2 ⟨hop, hwf, h.trans (List.append_nil _).symm⟩
  refine ⟨hword ?_ ?_ ?_, hword ?_ ?_ ?_, hword ?_ ?_ ?_, hword ?_ ?_ ?_, hword ?_ ?_ ?_, hword ?_ ?_ ?_, hword ?_ ?_ ?_, hword ?_ ?_ ?_,
    hword ?_ ?_ ?_, hword ?_ ?_ ?_, hword ?_ ?_ ?_, hword ?_ ?_ ?_, ?_, ?_, ?_, ?_⟩ <;> rfl

end Machine
end Sys2Proof
end

section
/-! SUPPORT. Operations that fail a check, the policies of a fault's domain, and the episodes of handlers with their end (R150, R385, R386, R389). -/

namespace Sys2Proof.Machine

/-! ## Groups but for their demotions -/

/-- A group but for its demotions, which a write to a granule that they watch ends (R88). -/
def Group.calm (g : Group) : Group := { g with demos := [], watched := [], spinCount := 0, demotions := 0 }

/-- The groups of a state but for their demotions. -/
def State.calmGroups (s : State) : List Group := s.groups.map Group.calm

theorem Group.calm_wake (gs : List Nat) (g : Group) : (g.wake gs).calm = g.calm := by
  have hpending : g.endPending.calm = g.calm := by unfold Group.endPending; split <;> rfl
  have hdemotions (p : Demotion → Bool) (g : Group) : (g.endDemotions p).calm = g.calm := by unfold Group.endDemotions; split <;> rfl
  unfold Group.wake
  split
  exacts [(hdemotions ..).trans hpending, hdemotions ..]

section

variable {s t : State}

theorem State.calmGroups_congr (h : t.groups = s.groups) : t.calmGroups = s.calmGroups := by rw [State.calmGroups, h, State.calmGroups]

theorem State.calmGroups_foldl {α : Type} {f : State → α → State} (hf : ∀ s x, (f s x).calmGroups = s.calmGroups) (l : List α) (s : State) :
    (l.foldl f s).calmGroups = s.calmGroups := by
  induction l generalizing s with
  | nil => rfl
  | cons x xs ih => exact (ih (f s x)).trans (hf s x)

theorem State.wake_calmGroups (s : State) (pa n : Nat) : (s.wake pa n).calmGroups = s.calmGroups := by
  simp [State.wake, State.calmGroups, Group.calm_wake]

theorem State.storeLE_calmGroups (s : State) (pa n v : Nat) : (s.storeLE pa n v).calmGroups = s.calmGroups := State.wake_calmGroups ..

theorem State.storeBytes_calmGroups (s : State) (pa : Nat) (bs : List Byte) : (s.storeBytes pa bs).calmGroups = s.calmGroups :=
  State.wake_calmGroups ..

theorem State.logDirty_calmGroups (s : State) (vf gpage : Nat) : (s.logDirty vf gpage).calmGroups = s.calmGroups := by
  unfold State.logDirty
  split
  · rfl
  · split
    · split
      split
      exacts [State.storeLE_calmGroups .., rfl, rfl, rfl]
    · split <;> rfl

theorem State.noteAccess_calmGroups (s : State) (vf : Nat) (gpage : Option Nat) (path leaves : List Nat) (write : Bool) :
    (s.noteAccess vf gpage path leaves write).calmGroups = s.calmGroups := by
  unfold State.noteAccess
  dsimp only
  split
  exacts [State.logDirty_calmGroups .., rfl]

theorem State.fillTlb_calmGroups (s : State) (vf ctx va : Nat) : (s.fillTlb vf ctx va).calmGroups = s.calmGroups := by
  unfold State.fillTlb
  split
  · rfl
  · split <;> rfl

theorem State.visit_calmGroups (s : State) (vf ctx va : Nat) : (s.visit vf ctx va).calmGroups = s.calmGroups := by
  unfold State.visit
  split
  exacts [(State.fillTlb_calmGroups ..).trans (State.noteAccess_calmGroups ..), rfl, rfl, rfl]

theorem State.devWrite_calmGroups (s : State) (vf ctx va n v : Nat) : (s.devWrite vf ctx va n v).calmGroups = s.calmGroups := by
  unfold State.devWrite
  split
  exacts [(State.noteAccess_calmGroups ..).trans (State.storeLE_calmGroups ..), rfl, rfl, rfl]

theorem State.devWriteBytes_calmGroups (s : State) (vf ctx va : Nat) (bs : List Byte) :
    (s.devWriteBytes vf ctx va bs).calmGroups = s.calmGroups :=
  State.calmGroups_foldl (fun _ _ => State.devWrite_calmGroups ..) ..

theorem State.gpaWriteBytes_calmGroups (s : State) (vf gpa : Nat) (bs : List Byte) : (s.gpaWriteBytes vf gpa bs).calmGroups = s.calmGroups := by
  refine State.calmGroups_foldl (fun s i => ?_) ..
  unfold State.gpaWrite
  split
  exacts [(State.noteAccess_calmGroups ..).trans (State.storeLE_calmGroups ..), rfl, rfl, rfl]

theorem State.visitReplay_calmGroups (s : State) (vf r k : Nat) : (s.visitReplay vf r k).calmGroups = s.calmGroups := by
  refine State.calmGroups_foldl (fun s i => ?_) ..
  unfold State.gpaVisit
  split
  exacts [State.noteAccess_calmGroups .., rfl, rfl, rfl]

theorem State.recordTouches_calmGroups (s : State) (ac : Accessor) (ts : List Touch) : (s.recordTouches ac ts).calmGroups = s.calmGroups := by
  unfold State.recordTouches
  split
  · refine State.calmGroups_foldl (fun s t => ?_) ..
    unfold State.logReplay
    exact State.gpaWriteBytes_calmGroups ..
  · rfl

theorem State.replayGate_calmGroups {key vf ctx : Nat} {es : List ReplayEntry} (h : s.replayGate key vf ctx es = .go t) :
    t.calmGroups = s.calmGroups := by
  unfold State.replayGate at h
  split at h
  · dsimp only at h
    split at h
    · cases h; rfl
    · split at h
      · cases h
      · split at h
        · cases h; exact State.visitReplay_calmGroups ..
        · cases h
  · cases h; rfl

theorem State.logged_calmGroups {ac : Accessor} {ts : List Touch} {f : State → State} (hf : ∀ s, (f s).calmGroups = s.calmGroups) (s : State) :
    (s.logged ac ts f).calmGroups = s.calmGroups := by
  unfold State.logged
  split
  · rfl
  · split
    · next hgo => exact (hf _).trans ((State.recordTouches_calmGroups ..).trans (State.replayGate_calmGroups hgo))
    · rfl
    · rfl

theorem State.awaitFault_calmGroups (s : State) (vf ctx : Nat) (f : TreeFault) : (s.awaitFault vf ctx f).calmGroups = s.calmGroups := by
  unfold State.awaitFault
  split
  exacts [State.visit_calmGroups .., rfl]

theorem State.awaitChain_calmGroups (s : State) (w : Workgroup) (r : Region) (func p : Nat) :
    (s.awaitChain w r func p).calmGroups = s.calmGroups := by
  unfold State.awaitChain
  split
  · exact State.awaitFault_calmGroups ..
  · split
    · exact State.awaitFault_calmGroups ..
    · split
      exacts [State.awaitFault_calmGroups .., rfl]

theorem State.count_calmGroups (s : State) (core vf ctx code n : Nat) : (s.count core vf ctx code n).calmGroups = s.calmGroups :=
  State.calmGroups_congr (State.count_groups ..)

theorem State.ringWrite_calmGroups (s : State) (vf ctx : Nat) (e : Domain) (r : Rec) : (s.ringWrite vf ctx e r).calmGroups = s.calmGroups := by
  have hrow {a b c d : Nat} {bs : List Byte} : ((s.devWriteBytes vf ctx a bs).devWrite vf ctx b c d).calmGroups = s.calmGroups :=
    (State.devWrite_calmGroups ..).trans (State.devWriteBytes_calmGroups ..)
  unfold State.ringWrite
  dsimp only
  split
  · split <;> exact hrow
  · exact State.devWrite_calmGroups ..

theorem State.trapFrames_calmGroups (s : State) (g : Group) (w : Workgroup) (r : Region) (d : Delivery) (depth : Nat) (rc : Rec) :
    (s.trapFrames g w r d depth rc).calmGroups = s.calmGroups := by
  refine State.logged_calmGroups (fun s => ?_) s
  exact State.calmGroups_foldl (fun s _ => State.storeBytes_calmGroups s ..) ..

/-- The group in a slot where the groups stand as they did but for their demotions. -/
theorem State.group?_of_calmGroups {core slot : Nat} {g : Group} (h : t.calmGroups = s.calmGroups) (hg : s.group? core slot = some g) :
    ∃ g', t.group? core slot = some g' ∧ g'.calm = g.calm := by
  have hfind (s : State) : s.calmGroups.find? (fun g => g.core == core && g.slot == slot) = (s.group? core slot).map Group.calm :=
    List.find?_map
  have hmap := hfind t
  rw [h, hfind s, hg] at hmap
  exact Option.map_eq_some_iff.1 hmap.symm

/-- The group of a slot after a change of the groups there that keeps them there. -/
theorem State.group?_updGroup_self {core slot : Nat} {F : Group → Group} {g : Group} (hg : s.group? core slot = some g)
    (hF : ∀ g, g.core = core → g.slot = slot → (F g).core = core ∧ (F g).slot = slot) :
    (s.updGroup core slot F).group? core slot = some (F g) := by
  have hin : (fun g : Group => g.core == core && g.slot == slot) ∘ Group.inSlot core slot F = fun g => g.core == core && g.slot == slot :=
    funext fun g => by
      simp only [Function.comp, Group.inSlot]
      split
      · next hc => obtain ⟨rfl, rfl⟩ := hc; simp [hF g rfl rfl]
      · rfl
  show (s.groups.map (Group.inSlot core slot F)).find? _ = _
  rw [List.find?_map, hin]
  exact (congrArg _ hg).trans (congrArg some (if_pos (s.group?_place hg)))

end

/-! ## The checks before an operation's effect (R150) -/

/-- An operation that fails a check of R150 is one operation of the group in issue: `qpop` takes no fault of its access slice before its checks. -/
theorem exec_eq_runOp {i : Instr} {s : State} {is : Issue} {h : Hit} (hop : i.isOp) (hi : s.issue? = some is) (hc : issueCheck i s is = some h) :
    ∃ body, exec i s = runOp i s body := by
  cases i <;> cases hop
  case qpop f =>
    show ∃ body, execQpop f s = runOp (.qpop f) s body
    simp only [execQpop, hi]
    split
    · next hnone _ => cases hc.symm.trans hnone
    · exact ⟨_, rfl⟩
  all_goals exact ⟨_, rfl⟩

theorem exec_of_issueCheck {i : Instr} {s : State} {is : Issue} {h : Hit} (hop : i.isOp) (hi : s.issue? = some is)
    (hc : issueCheck i s is = some h) : exec i s = .next (s.takeHit is h) := by
  obtain ⟨body, hbody⟩ := exec_eq_runOp hop hi hc
  exact hbody.trans (runOp_check hi hc)

/-! ## The policies of a fault's domain (R385, R386) -/

/-- A fault of lanes of a group that is in no episode. -/
structure State.Takes (s : State) (core slot : Nat) (d : Delivery) (g : Group) (w : Workgroup) (r : Region) : Prop where
  group : s.group? core slot = some g
  wg : s.wg? g.wg = some w
  region : s.region? w.vf w.rcb = some r
  mask : d.mask ≠ 0
  cls : d.cls ≠ .halt
  lanes : d.lanes ≠ 0
  episode : g.episode = none

section Policies

variable {s : State} {core slot : Nat} {d : Delivery} {g : Group} {w : Workgroup} {r : Region} {e : Domain}

/-- The state in which the record of a fault is written: the nodes around its position are read, and the fault is counted (R282, R439). -/
def State.beforeRecord (s : State) (core : Nat) (d : Delivery) (w : Workgroup) (r : Region) : State :=
  (s.awaitChain w r d.func (d.pos.toNat % 2 ^ 24)).count core w.vf w.ctx 0x0E 1

theorem State.beforeRecord_calmGroups (s : State) (core : Nat) (d : Delivery) (w : Workgroup) (r : Region) :
    (s.beforeRecord core d w r).calmGroups = s.calmGroups :=
  (State.count_calmGroups ..).trans (State.awaitChain_calmGroups ..)

/-- Policy 0 parks the group. -/
theorem State.deliver_parks (h : s.Takes core slot d g w r) (he : s.domainFor w.vf w.ctx r.eff.domain = some (e, 0)) :
    s.deliver core slot d = ((s.beforeRecord core d w r).writeRecord w.vf w.ctx r.eff.domain (deliveryRec s g w r d false)).updGroup core slot
      (Group.parkFor .fault) := by
  obtain ⟨hg, hw, hr, hmask, hcls, hlanes, hep⟩ := h
  simp only [State.deliver, State.beforeRecord, hg, hw, hr, hmask, hcls, hlanes, hep, he, if_false, Option.isSome_none, Bool.false_eq_true]

/-- Policy 2 ends the region. -/
theorem State.deliver_terminates (h : s.Takes core slot d g w r) (he : s.domainFor w.vf w.ctx r.eff.domain = some (e, 2)) :
    s.deliver core slot d =
      ((s.beforeRecord core d w r).writeRecord w.vf w.ctx r.eff.domain (deliveryRec s g w r d false)).terminate r := by
  obtain ⟨hg, hw, hr, hmask, hcls, hlanes, hep⟩ := h
  simp only [State.deliver, State.beforeRecord, hg, hw, hr, hmask, hcls, hlanes, hep, he, if_false, Option.isSome_none, Bool.false_eq_true]

/-- Policy 1 starts an episode, where the handler can take the lanes. -/
theorem State.deliver_handles (h : s.Takes core slot d g w r) (he : s.domainFor w.vf w.ctx r.eff.domain = some (e, 1))
    (hcan : canHandle (s.groupTrees w r) g r e.handler (g.maxDepth d.lanes)) :
    s.deliver core slot d = (((s.beforeRecord core d w r).startEpisode g w r d e.handler (deliveryRec s g w r d false)).ringWrite w.vf w.ctx e
      (deliveryRec s g w r d false)).visit w.vf w.ctx (s.fnEntryVa w r e.handler) := by
  obtain ⟨hg, hw, hr, hmask, hcls, hlanes, hep⟩ := h
  simp only [State.deliver, State.beforeRecord, hg, hw, hr, hmask, hcls, hlanes, hep, he, hcan, if_true, if_false, Option.isSome_none,
    Bool.false_eq_true]

end Policies

/-! ## Lanes of a mask, and c.trap (R388) -/

theorem getLsbD_maskOf (P : Nat → Bool) {L : Nat} (hL : L < 32) : (maskOf P).getLsbD L = P L := by
  have hbit (n : Nat) (m : Mask) (hn : n < 32) : (if P n then m ||| (1#32 <<< n) else m).getLsbD L =
      (m.getLsbD L || (decide (n = L) && P n)) := by
    have hone : (1#32 <<< n).getLsbD L = decide (n = L) := by
      rw [← BitVec.twoPow_eq, BitVec.getLsbD_twoPow, decide_eq_true hn, Bool.true_and]
    cases P n
    · simp
    · rw [if_pos rfl, BitVec.getLsbD_or, hone, Bool.and_true]
  have hrange : ∀ n ≤ 32, ((List.range n).foldl (fun (m : Mask) i => if P i then m ||| (1#32 <<< i) else m) 0#32).getLsbD L =
      (decide (L < n) && P L) := by
    intro n hn
    induction n with
    | zero => simp
    | succ n ih =>
      rw [List.range_succ, List.foldl_append, List.foldl_cons, List.foldl_nil, hbit n _ hn, ih (by omega)]
      rcases lt_trichotomy L n with h | rfl | h
      · simp [h, h.ne', Nat.lt_succ_of_lt h]
      · simp
      · simp [h.ne, Nat.not_lt.2 h.le, Nat.not_lt.2 (Nat.succ_le_of_lt h)]
  exact (hrange 32 le_rfl).trans (by rw [decide_eq_true hL, Bool.true_and])

theorem Group.lane_mapLanes {F : Nat → Lane → Lane} {m : Mask} {g g' : Group} {L : Nat} (h32 : g.lanes.length = 32) (hL : L < 32)
    (h : g'.lanes = mapLanes F m g.lanes) : g'.lane L = if m.getLsbD L then F L (g.lane L) else g.lane L := by
  simp [Group.lane, h, mapLanes, h32, hL]

theorem toNat_setTrap (c : Dword) (at0 : Nat) (inh : Bool) (act : Nat) :
    (setTrap c at0 inh act).toNat = c.toNat % 2 ^ 5 + (at0 % 65536 * 2 ^ 32 + (if inh then 2 ^ 15 else 0) + act % 4 * 2 ^ 10) := by
  have hfields : at0 % 65536 * 2 ^ 32 + (if inh then 2 ^ 15 else 0) + act % 4 * 2 ^ 10 =
      2 ^ 5 * (at0 % 65536 * 2 ^ 27 + (if inh then 2 ^ 10 else 0) + act % 4 * 2 ^ 5) := by split <;> omega
  have hlt : 2 ^ 5 * (at0 % 65536 * 2 ^ 27 + (if inh then 2 ^ 10 else 0) + act % 4 * 2 ^ 5) < 2 ^ 64 := by split <;> omega
  rw [setTrap, hfields, BitVec.toNat_or, BitVec.toNat_and, BitVec.toNat_ofNat (2 ^ 5 * _), Nat.mod_eq_of_lt hlt, Nat.lor_comm,
    show (0x1F#64).toNat = 2 ^ 5 - 1 from rfl, Nat.and_two_pow_sub_one_eq_mod,
    ← Nat.two_pow_add_eq_or_of_lt (Nat.mod_lt _ (by decide)), Nat.add_comm]

theorem bitsOf_setTrap_act (c : Dword) (at0 : Nat) (inh : Bool) (act : Nat) : bitsOf (setTrap c at0 inh act).toNat 11 10 = act % 4 := by
  rw [toNat_setTrap, bitsOf]
  split <;> omega

theorem getLsbD_setTrap_inh (c : Dword) (at0 : Nat) (inh : Bool) (act : Nat) : (setTrap c at0 inh act).getLsbD 15 = inh := by
  rw [← BitVec.testBit_toNat, toNat_setTrap, Nat.testBit_eq_decide_div_mod_eq]
  cases inh <;> simp <;> omega

/-! ## The start of an episode (R386) -/

/-- A lane at a handler's first position, above the frames of depth `depth`. -/
def Lane.handled (t : Option Trees) (depth h : Nat) (l : Lane) : Lane :=
  { l with pos := posWord 0 ((startParcel t h).getD 0), func := BitVec.ofNat 16 h, frameBase := 8 * depth + 72,
           atStart := (startParcel t h).isNone }

/-- The episode of a delivery's lanes. -/
def Group.episodeOf (g : Group) (d : Delivery) (depth h : Nat) : Episode :=
  { mask := d.lanes, depth := depth, handler := h, starting := maskOf (fun L => d.lanes.getLsbD L && (g.lane L).atStart),
    isFault := decide (d.cls ≠ .softwareTrap ∧ d.cls ≠ .halt) }

/-- A group in an episode of a delivery's lanes, which have entered the loops `xs` of its detector. -/
def Group.handling (t : Option Trees) (d : Delivery) (depth h : Nat) (xs : List Iteration) (g : Group) : Group :=
  { g with
    iters := xs, lanes := mapLanes (fun _ => Lane.handled t depth h) d.lanes g.lanes, episode := some (g.episodeOf d depth h),
    trapCtl := setTrap g.trapCtl (8 * depth + 8) true 0, run := 0, wait := none }

/-- A group enters loops in its detector alone. -/
theorem Group.enterLoops_eq (m : Mask) (ls : List LoopId) (g : Group) : ∃ xs, g.enterLoops m ls = { g with iters := xs } := by
  induction ls generalizing g with
  | nil => exact ⟨g.iters, rfl⟩
  | cons l ls ih => exact ih (g.enterLoop m l)

/-- Groups that stand alike but for their demotions do so when a handler has taken their lanes. -/
theorem Group.calm_handling {t : Option Trees} {d : Delivery} {depth h : Nat} {xs : List Iteration} {x g : Group} (hx : x.calm = g.calm) :
    (x.handling t d depth h xs).calm = (g.handling t d depth h xs).calm := by
  have hcalm := congrArg (fun y : Group => (y.handling t d depth h xs).calm) hx
  exact hcalm

/-- The group of a slot whose lanes a handler has taken, as the group stood but for its demotions. -/
theorem State.group?_startEpisode {s : State} {h : Nat} {g y : Group} {w : Workgroup} {r : Region} {d : Delivery} {rc : Rec}
    (hy : s.group? g.core g.slot = some y) (hcalm : y.calm = g.calm) : ∃ g' xs, (s.startEpisode g w r d h rc).group? g.core g.slot = some g' ∧
      g'.calm = (g.handling (s.groupTrees w r) d (g.maxDepth d.lanes) h xs).calm := by
  obtain ⟨x, hx, hxy⟩ := State.group?_of_calmGroups (State.trapFrames_calmGroups s g w r d (g.maxDepth d.lanes) rc) hy
  have hloops (x : Group) := x.enterLoops_eq d.lanes (startLoops (s.groupTrees w r) h (startParcel (s.groupTrees w r) h))
  obtain ⟨xs, hxs⟩ := hloops x
  refine ⟨x.handling (s.groupTrees w r) d (g.maxDepth d.lanes) h xs, xs, ?_, Group.calm_handling (hxy.trans hcalm)⟩
  unfold State.startEpisode
  rw [State.group?_updGroup_self hx]
  · rw [hxs]; rfl
  · intro y hc hk
    obtain ⟨ys, hys⟩ := hloops y
    rw [hys]
    exact ⟨hc, hk⟩

/-- The group of a fault that a handler takes stands in the episode. -/
theorem State.group?_deliver_handles {s : State} {core slot : Nat} {d : Delivery} {g : Group} {w : Workgroup} {r : Region} {e : Domain}
    (h : s.Takes core slot d g w r) (he : s.domainFor w.vf w.ctx r.eff.domain = some (e, 1))
    (hcan : canHandle (s.groupTrees w r) g r e.handler (g.maxDepth d.lanes)) :
    ∃ g' xs, (s.deliver core slot d).group? core slot = some g' ∧
      g'.calm = (g.handling ((s.beforeRecord core d w r).groupTrees w r) d (g.maxDepth d.lanes) e.handler xs).calm := by
  rw [State.deliver_handles h he hcan]
  have hg := h.group
  obtain ⟨rfl, rfl⟩ := State.group?_place s hg
  obtain ⟨y, hy, hcalm⟩ := State.group?_of_calmGroups (State.beforeRecord_calmGroups s g.core d w r) hg
  obtain ⟨x, xs, hx, hxcalm⟩ := State.group?_startEpisode (h := e.handler) (w := w) (r := r) (d := d) (rc := deliveryRec s g w r d false) hy hcalm
  obtain ⟨g', hg', hg'calm⟩ := State.group?_of_calmGroups ((State.visit_calmGroups ..).trans (State.ringWrite_calmGroups ..)) hx
  exact ⟨g', xs, hg', hg'calm.trans hxcalm⟩

/-! ## The end of an episode (R389) -/

theorem State.endEpisode_eq {s : State} {core slot : Nat} {is : Issue} {ep : Episode}
    (hi : ({ s with cur := { s.cur with core := core, slot := slot, acc := false } }).issue? = some is) (hep : is.g.episode = some ep)
    (hback : ∀ L, L < 32 → ep.mask.getLsbD L → (is.g.lane L).life ≠ .live) (hact : bitsOf is.g.trapCtl.toNat 11 10 = 0) :
    s.endEpisode core slot = s.updGroup core slot (fun _ => is.resumedGroup s ep) := by
  have hnone : (lanesOf ep.mask).any (fun L => (is.g.lane L).life == .live) = false := by
    simpa [mem_lanesOf] using hback
  simp only [State.endEpisode, hi, hep, hnone, hact, Bool.false_eq_true, if_false]
  rfl

/-- A lane that had returned, at the end of its group's episode. -/
theorem Issue.lane_resumedGroup {is : Issue} {s : State} {ep : Episode} {L : Nat} (h32 : is.g.lanes.length = 32) (hL : L < 32)
    (hlife : (is.g.lane L).life = .returned) : (is.resumedGroup s ep).lane L = is.resumedLane s ep L (is.g.lane L) := by
  rw [Group.lane_mapLanes h32 hL rfl, if_pos (by rw [Group.lifeMask, getLsbD_maskOf _ hL, hlife]; rfl)]

/-- Settles O60: what `runOp` does where a check fails, what `State.deliver` does by the policy of the domain, and what `State.endEpisode` does with
act 0; what is written to memory on the way changes no more of a group than its demotions. -/
theorem faultsAndHandlers : Obligations.FaultsAndHandlers := by
  refine ⟨fun i s is h => exec_of_issueCheck, ?_, ?_⟩
  · intro s core slot d g w r hg hw hr hmask hcls hlanes hep s1 rc
    have h : s.Takes core slot d g w r := ⟨hg, hw, hr, hmask, hcls, hlanes, hep⟩
    refine ⟨fun e => State.deliver_parks h, fun e => State.deliver_terminates h, fun e he hcan =>
      ⟨State.deliver_handles h he hcan, fun h32 => ?_⟩⟩
    obtain ⟨g', xs, hg', hcalm⟩ := State.group?_deliver_handles h he hcan
    have hfield {α : Type} (u : Group → α) := congrArg u hcalm
    have htrap : g'.trapCtl = setTrap g.trapCtl (8 * g.maxDepth d.lanes + 8) true 0 := hfield Group.trapCtl
    refine ⟨g', hg', hfield Group.run, hfield Group.park, ?_, ?_, hfield Group.episode, fun L hL =>
      Group.lane_mapLanes h32 hL (hfield Group.lanes)⟩
    · rw [htrap, bitsOf_setTrap_act]
    · rw [htrap, getLsbD_setTrap_inh]
  · intro s core slot is ep hi hep hback hact h32
    have hg : s.group? core slot = some is.g := State.group?_of_issue? hi
    rw [State.endEpisode_eq hi hep hback hact]
    have hplace := s.group?_place hg
    refine ⟨is.resumedGroup s ep, State.group?_updGroup_self hg fun _ _ _ => hplace, rfl, rfl, rfl, fun L hL hlife => ?_⟩
    rw [Issue.lane_resumedGroup h32 hL hlife]
    exact ⟨rfl, rfl, rfl, rfl, rfl, rfl⟩

end Sys2Proof.Machine
end

section
/-! The integer and logic operations in the words of the spec: an operation on elements, on bits, on a count or on a field is its function of
bit vectors (R171 to R178). -/

namespace Sys2Proof.Machine

/-! ## The number of an element, and the element of a number (R10, R158) -/

/-- A bit vector is that of the number it stands for, signed or not. -/
theorem ofInt_number {w : Nat} (signed : Bool) (x : BitVec w) : BitVec.ofInt w (if signed then x.toInt else (x.toNat : Int)) = x := by
  split
  · exact BitVec.ofInt_toInt
  · rw [BitVec.ofInt_natCast, BitVec.ofNat_toNat, BitVec.setWidth_eq]

section Elements

variable {ty : Ty} {x y : BitVec ty.bits}

theorem elemInt_eq_elemVal (ty : Ty) (v : Dword) (k : Nat) : elemInt ty v k = elemVal ty (elemBits ty v k) := elemInt_eq ty v k

theorem ofInt_elemVal (x : BitVec ty.bits) : BitVec.ofInt ty.bits (elemVal ty x) = x := ofInt_number ty.signed x

theorem elemVal_injective : Function.Injective (elemVal ty) := fun x y h => by
  rw [← ofInt_elemVal x, h, ofInt_elemVal]

theorem elemVal_zero : elemVal ty 0 = 0 := by simp [elemVal]

theorem elemVal_eq_zero : elemVal ty x = 0 ↔ x = 0 := by rw [← elemVal_injective.eq_iff, elemVal_zero]

theorem elemVal_of_signed (h : ty.signed = true) (x : BitVec ty.bits) : elemVal ty x = x.toInt := if_pos h

theorem elemVal_of_unsigned (h : ty.signed = false) (x : BitVec ty.bits) : elemVal ty x = x.toNat := by simp [elemVal, h]

theorem elemVal_range (x : BitVec ty.bits) : -2 ^ ty.bits ≤ elemVal ty x ∧ elemVal ty x < 2 ^ ty.bits := by
  have hlt : (x.toNat : Int) < 2 ^ ty.bits := by exact_mod_cast x.isLt
  unfold elemVal
  rw [BitVec.toInt_eq_toNat_cond]
  push_cast
  split
  · split <;> omega
  · omega

theorem ofInt_sub (w : Nat) (m n : Int) : BitVec.ofInt w (m - n) = BitVec.ofInt w m - BitVec.ofInt w n := by
  rw [Int.sub_eq_add_neg, BitVec.ofInt_add, BitVec.ofInt_neg, BitVec.sub_eq_add_neg]

theorem elemLess_iff : elemLess ty x y = true ↔ elemVal ty x < elemVal ty y := by
  unfold elemLess elemVal
  split
  · exact BitVec.slt_iff_toInt_lt
  · rw [BitVec.ult_iff_toNat_lt, Int.ofNat_lt]

/-- The least of two elements by their numbers is the least by their order. -/
theorem ofInt_min_elemVal : BitVec.ofInt ty.bits (min (elemVal ty x) (elemVal ty y)) = if elemLess ty y x then y else x := by
  rw [min_comm, min_def_lt]
  simp only [← elemLess_iff (ty := ty)]
  split <;> exact ofInt_elemVal _

theorem ofInt_max_elemVal : BitVec.ofInt ty.bits (max (elemVal ty x) (elemVal ty y)) = if elemLess ty x y then y else x := by
  rw [max_def_lt]
  simp only [← elemLess_iff (ty := ty)]
  split <;> exact ofInt_elemVal _

theorem ofInt_natAbs_elemVal : BitVec.ofInt ty.bits ((elemVal ty x).natAbs : Int) = if ty.signed && x.msb then -x else x := by
  cases hs : ty.signed
  · rw [elemVal_of_unsigned hs, Int.natAbs_natCast, ← elemVal_of_unsigned hs]
    exact ofInt_elemVal x
  · rw [elemVal_of_signed hs, Bool.true_and, BitVec.msb_eq_toInt]
    by_cases hneg : x.toInt < 0
    · rw [decide_eq_true hneg, if_pos rfl, Int.ofNat_natAbs_of_nonpos hneg.le, BitVec.ofInt_neg, BitVec.ofInt_toInt]
    · rw [decide_eq_false hneg, if_neg Bool.false_ne_true, Int.natAbs_of_nonneg (not_lt.1 hneg), BitVec.ofInt_toInt]

/-- The clamp of the model is that of R171. -/
theorem ofInt_clamp (ty : Ty) (v : Int) : BitVec.ofInt ty.bits (Ty.clamp ty v) = saturate ty v := by
  unfold Ty.clamp Ty.least Ty.greatest saturate
  cases ty.signed <;> rfl

/-! ## Quotients and remainders (R172) -/

/-- The one signed quotient that the range does not hold wraps to the dividend. -/
theorem ofInt_neg_least (hs : ty.signed = true) : BitVec.ofInt ty.bits (-Ty.least ty) = BitVec.ofInt ty.bits (Ty.least ty) := by
  cases ty <;> cases hs <;> rfl

theorem ofInt_divQuot : BitVec.ofInt ty.bits (divQuot ty (elemVal ty x) (elemVal ty y)) =
    if y = 0 then BitVec.allOnes ty.bits else if ty.signed then x.sdiv y else x / y := by
  unfold divQuot
  simp only [elemVal_eq_zero]
  split
  · exact BitVec.ofInt_neg.trans BitVec.neg_one_eq_allOnes
  cases hs : ty.signed
  · rw [if_neg (by simp), if_neg Bool.false_ne_true, elemVal_of_unsigned hs, elemVal_of_unsigned hs, ← Int.ofNat_tdiv, BitVec.ofInt_natCast,
      ← BitVec.toNat_udiv, BitVec.ofNat_toNat, BitVec.setWidth_eq]
  · have hquot : BitVec.ofInt ty.bits (x.toInt.tdiv y.toInt) = x.sdiv y :=
      BitVec.eq_of_toInt_eq ((BitVec.toInt_ofInt ..).trans (BitVec.toInt_sdiv ..).symm)
    rw [if_pos rfl, ← hquot, ← elemVal_of_signed hs, ← elemVal_of_signed hs]
    split
    · next hcorner =>
      obtain ⟨-, hx, hy⟩ := hcorner
      rw [hx, hy, Int.tdiv_neg, Int.tdiv_one, ofInt_neg_least hs]
    · rfl

theorem ofInt_divRem : BitVec.ofInt ty.bits (divRem ty (elemVal ty x) (elemVal ty y)) =
    if y = 0 then x else if ty.signed then x.srem y else x % y := by
  have hmod (m n : Int) : m - m.tdiv n * n = m.tmod n := by rw [Int.tmod_def, mul_comm]
  unfold divRem
  simp only [elemVal_eq_zero, hmod]
  split
  · exact ofInt_elemVal x
  cases hs : ty.signed
  · rw [if_neg (by simp), if_neg Bool.false_ne_true, elemVal_of_unsigned hs, elemVal_of_unsigned hs, ← Int.ofNat_tmod, BitVec.ofInt_natCast,
      ← BitVec.toNat_umod, BitVec.ofNat_toNat, BitVec.setWidth_eq]
  · rw [if_pos rfl, ← BitVec.ofInt_toInt (x := x.srem y), BitVec.toInt_srem, ← elemVal_of_signed hs, ← elemVal_of_signed hs]
    split
    · next hcorner =>
      obtain ⟨-, -, hy⟩ := hcorner
      rw [hy, Int.tmod_neg, Int.tmod_one]
    · rfl

/-! ## Shifts (R174) -/

theorem ofInt_shiftLeft (n : Nat) : BitVec.ofInt ty.bits (shiftLeft ty.bits n (elemVal ty x)) = x <<< n := by
  unfold shiftLeft
  split
  · next hn => rw [BitVec.shiftLeft_eq_zero hn]; rfl
  · rw [BitVec.ofInt_mul, ofInt_elemVal, BitVec.shiftLeft_eq_mul_twoPow]
    have hpow : BitVec.ofInt ty.bits ((2 ^ n : Nat) : Int) = BitVec.twoPow ty.bits n := by
      rw [BitVec.ofInt_natCast]
      exact BitVec.eq_of_toNat_eq (BitVec.toNat_twoPow ..).symm
    rw [← hpow, Nat.cast_pow, Nat.cast_ofNat]

theorem ofInt_shiftRight (n : Nat) : BitVec.ofInt ty.bits (shiftRight ty.bits n (elemVal ty x)) =
    if ty.signed then x.sshiftRight n else x >>> n := by
  have hdiv : shiftRight ty.bits n (elemVal ty x) = elemVal ty x / 2 ^ n := by
    unfold shiftRight
    split
    · next hn =>
      have hpow : (2 : Int) ^ ty.bits ≤ 2 ^ n := pow_le_pow_right₀ (by norm_num) hn
      have hrange : -2 ^ ty.bits ≤ elemVal ty x ∧ elemVal ty x < 2 ^ ty.bits := elemVal_range x
      split
      · next hneg =>
        have hshift : (elemVal ty x + 1 * 2 ^ n) / 2 ^ n = 0 := Int.ediv_eq_zero_of_lt (by omega) (by omega)
        rw [Int.add_mul_ediv_right _ _ (by positivity)] at hshift
        omega
      · exact (Int.ediv_eq_zero_of_lt (by omega) (by omega)).symm
    · rfl
  rw [hdiv]
  cases hs : ty.signed
  · rw [if_neg Bool.false_ne_true, elemVal_of_unsigned hs]
    have hnat : ((x >>> n).toNat : Int) = x.toNat / 2 ^ n := by
      rw [BitVec.toNat_ushiftRight, Nat.shiftRight_eq_div_pow]
      norm_cast
    rw [← hnat, BitVec.ofInt_natCast, BitVec.ofNat_toNat, BitVec.setWidth_eq]
  · rw [if_pos rfl, elemVal_of_signed hs, ← BitVec.ofInt_toInt (x := x.sshiftRight n), BitVec.toInt_sshiftRight, Int.shiftRight_eq_div_pow]
    norm_cast

end Elements

theorem elemBits_ofElemInts {ty : Ty} {k : Nat} (n : Nat → Int) (hk : k < ty.elems) :
    elemBits ty (ofElemInts ty n) k = BitVec.ofInt ty.bits (n k) :=
  elem_ofElemInts ty n k hk

/-! ## Operations that write a value, or a word, and do nothing else -/

section Completion

variable {i : Instr} {f : Fields} {s : State} {is : Issue} {body : Issue → Effect}

theorem Writes.of_body {v : Nat → Dword} (h : Ready i s is) (he : exec i s = runOp i s body) (hb : body is = is.writes s f.ty f.dest.toNat v) :
    Writes i f s is v :=
  he.trans (runOp_done h.1 h.2 hb)

theorem WritesReg.of_body {v : Nat → Word} (h : Ready i s is) (he : exec i s = runOp i s body) (hb : body is = is.writesWord s f.dest.toNat v) :
    WritesReg i f s is v :=
  he.trans (runOp_done h.1 h.2 hb)

theorem Writes.value {v : Nat → Dword} {P : Nat → Dword → Prop} (h : Writes i f s is v) (hv : ∀ L, P L (v L)) : WritesValue i f s is P :=
  ⟨v, hv, h⟩

theorem WritesReg.word {v : Nat → Word} {P : Nat → Word → Prop} (h : WritesReg i f s is v) (hv : ∀ L, P L (v L)) : WritesWord i f s is P :=
  ⟨v, hv, h⟩

end Completion

/-- An operation of the model on the numbers of the elements is one on the elements. -/
theorem ElementOp.of_numbers {ctor : Fields → Instr} {n : Fields → Int → Int → Int → Int}
    {r : (ty : Ty) → BitVec ty.bits → BitVec ty.bits → BitVec ty.bits → BitVec ty.bits}
    (he : ∀ f s, exec (ctor f) s = runOp (ctor f) s (intElems f (n f) s))
    (hr : ∀ f x y z, BitVec.ofInt f.ty.bits (n f (elemVal f.ty x) (elemVal f.ty y) (elemVal f.ty z)) = r f.ty x y z) : ElementOp ctor r :=
  fun f s is h => (Writes.of_body h (he f s) rfl).value fun L k hk => by
    rw [elemBits_ofElemInts _ hk, elemInt_eq_elemVal, elemInt_eq_elemVal, elemInt_eq_elemVal, hr]

theorem floor_div_two_pow_32 (m n : Int) : ⌊(m * n : Rat) / 2 ^ 32⌋ = m * n / 2 ^ 32 := by
  exact_mod_cast Rat.floor_intCast_div_natCast (m * n) (2 ^ 32)

/-- Settles O1: each result, a number of the model, is the element that the spec names. -/
theorem elementArithmetic : Obligations.ElementArithmetic := by
  refine ⟨.of_numbers (fun _ _ => rfl) ?add, .of_numbers (fun _ _ => rfl) ?sub, .of_numbers (fun _ _ => rfl) ?mul,
    .of_numbers (fun _ _ => rfl) ?mad, .of_numbers (fun _ _ => rfl) ?neg, .of_numbers (fun _ _ => rfl) ?abs, .of_numbers (fun _ _ => rfl) ?min,
    .of_numbers (fun _ _ => rfl) ?max, .of_numbers (fun _ _ => rfl) ?adds, .of_numbers (fun _ _ => rfl) ?subs,
    .of_numbers (fun _ _ => rfl) ?mulhi⟩ <;> intro f x y z
  case add => rw [BitVec.ofInt_add, ofInt_elemVal, ofInt_elemVal]
  case sub => rw [ofInt_sub, ofInt_elemVal, ofInt_elemVal]
  case mul => rw [BitVec.ofInt_mul, ofInt_elemVal, ofInt_elemVal]
  case mad => rw [BitVec.ofInt_add, BitVec.ofInt_mul, ofInt_elemVal, ofInt_elemVal, ofInt_elemVal]
  case neg => rw [BitVec.ofInt_neg, ofInt_elemVal]
  case abs => exact ofInt_natAbs_elemVal
  case min => exact ofInt_min_elemVal
  case max => exact ofInt_max_elemVal
  case adds => exact ofInt_clamp ..
  case subs => exact ofInt_clamp ..
  case mulhi => rw [floor_div_two_pow_32]

/-- Settles O2: the quotient and the remainder of the numbers, with both corners. -/
theorem divideAndRemainder : Obligations.DivideAndRemainder :=
  ⟨.of_numbers (fun _ _ => rfl) fun _ _ _ _ => ofInt_divQuot, .of_numbers (fun _ _ => rfl) fun _ _ _ _ => ofInt_divRem⟩

/-! ## Bitwise operations (R173, R178) -/

/-- An operation of the model on the operands acts bit by bit where it does so on the bits of a value. -/
theorem BitOp.of_bits {ctor : Fields → Instr} {w : Dword → Dword → Dword} {r : Bool → Bool → Bool}
    (he : ∀ f s, exec (ctor f) s = runOp (ctor f) s (bitOp f w s))
    (hr : ∀ x y i, i < 64 → (w x y).getLsbD i = r (x.getLsbD i) (y.getLsbD i)) : BitOp ctor r :=
  fun f s is h => (Writes.of_body h (he f s) rfl).value fun L i hi => hr _ _ i (by
    unfold valueBits at hi
    split at hi <;> omega)

/-- Settles O3: the operations on 64 bits act on each of them. -/
theorem bitwiseOperations : Obligations.BitwiseOperations := by
  refine ⟨.of_bits (fun _ _ => rfl) ?and, .of_bits (fun _ _ => rfl) ?or, .of_bits (fun _ _ => rfl) ?xor, .of_bits (fun _ _ => rfl) ?not,
    .of_bits (fun _ _ => rfl) ?andn, .of_bits (fun _ _ => rfl) ?mov⟩ <;> intro x y i hi
  case and => exact BitVec.getLsbD_and
  case or => exact BitVec.getLsbD_or
  case xor => exact BitVec.getLsbD_xor
  case not => rw [BitVec.getLsbD_not, decide_eq_true hi, Bool.true_and]
  case andn => rw [BitVec.getLsbD_and, BitVec.getLsbD_not, decide_eq_true hi, Bool.true_and]
  case mov => rfl

theorem toNat_rotateLeft_word (u : Word) {t : Nat} (ht : t < 32) :
    (u.rotateLeft t).toNat = (u.toNat * 2 ^ t + u.toNat / 2 ^ (32 - t)) % 2 ^ 32 := by
  have hhigh : u.toNat / 2 ^ (32 - t) < 2 ^ t := by
    rw [Nat.div_lt_iff_lt_mul (by positivity), ← Nat.pow_add, Nat.add_sub_cancel' ht.le]
    exact u.isLt
  have hlow : u.toNat * 2 ^ t % 2 ^ 32 = 2 ^ t * (u.toNat % 2 ^ (32 - t)) := by
    rw [← Nat.mul_mod_mul_left, ← Nat.pow_add, Nat.add_sub_cancel' ht.le, Nat.mul_comm]
  have hrot : (u.rotateLeft t).toNat = 2 ^ t * (u.toNat % 2 ^ (32 - t)) + u.toNat / 2 ^ (32 - t) := by
    rw [BitVec.toNat_rotateLeft, Nat.mod_eq_of_lt ht, Nat.shiftLeft_eq, Nat.shiftRight_eq_div_pow, hlow, Nat.two_pow_add_eq_or_of_lt hhigh]
  rw [← Nat.mod_add_mod, hlow, ← hrot, Nat.mod_eq_of_lt (u.rotateLeft t).isLt]

/-- Settles O4: by the shifts of an element's number, and the two parts of a rotated word. -/
theorem shiftsAndRotate : Obligations.ShiftsAndRotate := by
  refine ⟨fun f s is h => ?shl, fun f s is h => ?shr, fun f s is h => ?rotl⟩
  case shl =>
    exact (Writes.of_body h rfl rfl).value fun L k hk => by
      rw [elemBits_ofElemInts _ hk, elemInt_eq_elemVal, ofInt_shiftLeft]
  case shr =>
    exact (Writes.of_body h rfl rfl).value fun L k hk => by
      rw [elemBits_ofElemInts _ hk, elemInt_eq_elemVal, ofInt_shiftRight]
  case rotl => exact (WritesReg.of_body h rfl rfl).word fun L => toNat_rotateLeft_word _ (Nat.mod_lt _ (by decide))

/-! ## Counts and reversal of bits (R175) -/

/-- A count of the bits of an operand is at most their number, which a word holds. -/
theorem toNat_bitCount {ty : Ty} {n : Nat} (hn : n ≤ ty.bits) : (BitVec.ofNat 32 n).toNat = n :=
  Nat.mod_eq_of_lt (by have := hn.trans (show ty.bits ≤ 64 by cases ty <;> decide); omega)

theorem count_true_map (z : Nat → Bool) (l : List Nat) : (l.map z).count true = (l.filter z).length := by
  rw [List.count_eq_countP, List.countP_map, ← List.countP_eq_length_filter]
  congr 1
  exact funext fun i => beq_true (z i)

/-- The clear bits at the head of a list are those before its first set one. -/
theorem isFirstSet_takeWhile (z : Nat → Bool) (w : Nat) : IsFirstSet w z (((List.range w).map z).takeWhile (fun b => !b)).length := by
  have hlen : (((List.range w).map z).takeWhile (fun b => !b)).length = ((List.range w).map z).findIdx (fun b => b) := by
    rw [List.takeWhile_eq_take_findIdx_not, List.length_take, Nat.min_eq_left List.findIdx_le_length]
    simp only [Bool.not_not]
  rw [hlen]
  refine ⟨by simpa using List.findIdx_le_length (xs := (List.range w).map z), fun i hi => ?_, fun hlt => ?_⟩
  · simpa using List.not_of_lt_findIdx hi
  · simpa using List.findIdx_getElem (xs := (List.range w).map z) (w := by simpa using hlt)

theorem isFirstSet_takeWhile_reverse (z : Nat → Bool) (w : Nat) :
    IsFirstSet w (fun i => z (w - 1 - i)) (((List.range w).map z).reverse.takeWhile (fun b => !b)).length := by
  have hrev : ((List.range w).map z).reverse = (List.range w).map (fun i => z (w - 1 - i)) :=
    List.ext_getElem (by simp) fun i _ _ => by simp
  rw [hrev]
  exact isFirstSet_takeWhile ..

/-- An operation that gives a count of an operand's bits, which is at most their number. -/
theorem writesWord_bitCount {i : Instr} {f : Fields} {s : State} {is : Issue} {n : List Bool → Nat} {P : Nat → Nat → Prop} (h : Ready i s is)
    (he : exec i s = runOp i s (bitCount f n s)) (hn : ∀ l, n l ≤ l.length)
    (hP : ∀ L, P L (n ((List.range f.ty.bits).map (fun i => (is.val f.ty f.a L).getLsbD i)))) :
    WritesWord i f s is (fun L v => P L v.toNat) :=
  (WritesReg.of_body h he rfl).word fun L => by
    rw [toNat_bitCount (by simpa using hn ((List.range f.ty.bits).map _))]
    exact hP L

theorem getLsbD_reverse_sub {w : Nat} (x : BitVec w) {i : Nat} (hi : i < w) : x.reverse.getLsbD (w - 1 - i) = x.getLsbD i := by
  rw [← BitVec.getMsbD_reverse (x := x), BitVec.getMsbD_eq_getLsbD, decide_eq_true hi, Bool.true_and]

/-- `brev` reverses the pair of a 64-bit type, and else the register. -/
theorem getLsbD_reverseValue {ty : Ty} (x : Dword) {i : Nat} (hi : i < valueBits ty) :
    (if ty.wide then x.reverse else ((x.extractLsb' 0 32).reverse).setWidth 64).getLsbD (valueBits ty - 1 - i) = x.getLsbD i := by
  unfold valueBits at hi ⊢
  split
  · next hw =>
    rw [if_pos hw] at hi
    exact getLsbD_reverse_sub x hi
  · next hw =>
    rw [if_neg hw] at hi
    rw [BitVec.getLsbD_setWidth, decide_eq_true (by omega), Bool.true_and, getLsbD_reverse_sub _ hi, BitVec.getLsbD_extractLsb',
      decide_eq_true hi, Bool.true_and, Nat.zero_add]

/-- Settles O5: the counts of a list of bits, and a reversed word. -/
theorem bitCounts : Obligations.BitCounts := by
  refine ⟨fun f s is h => ?popc, fun f s is h => ?clz, fun f s is h => ?ctz, fun f s is h => ?brev⟩
  case popc => exact writesWord_bitCount (P := fun _ n => n = _) h rfl (fun _ => List.count_le_length) fun L => count_true_map ..
  case clz =>
    refine writesWord_bitCount h rfl (fun l => ?_) fun L => isFirstSet_takeWhile_reverse ..
    exact List.length_reverse (as := l) ▸ (List.takeWhile_sublist _).length_le
  case ctz => exact writesWord_bitCount h rfl (fun _ => (List.takeWhile_sublist _).length_le) fun L => isFirstSet_takeWhile ..
  case brev => exact (Writes.of_body h rfl rfl).value fun L i hi => getLsbD_reverseValue _ hi

/-! ## Bit fields (R176) -/

/-- A field extended with its sign: one of no bits has no sign. -/
theorem signExtend_eq_ite {n : Nat} (u : BitVec n) (w : Nat) :
    u.signExtend w = if n ≠ 0 ∧ 2 ^ (n - 1) ≤ u.toNat then BitVec.ofInt w ((u.toNat : Int) - 2 ^ n) else BitVec.ofNat w u.toNat := by
  have hmsb : u.msb = true ↔ n ≠ 0 ∧ 2 ^ (n - 1) ≤ u.toNat := by
    cases n with
    | zero => simp [BitVec.of_length_zero]
    | succ n => simp [BitVec.msb_eq_decide]
  rw [BitVec.signExtend, BitVec.toInt_eq_msb_cond]
  simp only [hmsb]
  split
  · norm_cast
  · exact BitVec.ofInt_natCast ..

/-- The field that `bfx` extracts, of its own width. -/
def fieldBits (a : Word) (b c : Nat) : BitVec (min c (32 - min b 32)) := a.extractLsb' (min b 32) _

/-- `bfx` extends the field, with its sign for a signed type. -/
theorem bitField_eq (signed : Bool) (a : Word) (b c : Nat) :
    bitField signed a b c = if signed then (fieldBits a b c).signExtend 32 else (fieldBits a b c).setWidth 32 := by
  have hfield : (fieldBits a b c).toNat = a.toNat / 2 ^ min b 32 % 2 ^ min c (32 - min b 32) := by
    rw [fieldBits, BitVec.extractLsb'_toNat, Nat.shiftRight_eq_div_pow]
  have hzero : BitVec.ofNat 32 (fieldBits a b c).toNat = (fieldBits a b c).setWidth 32 := BitVec.ofNat_toNat ..
  unfold bitField
  simp only [← hfield]
  cases signed
  · exact (if_neg (by simp)).trans hzero
  rw [if_pos rfl, signExtend_eq_ite]
  simp only [true_and]

theorem getLsbD_bitField (signed : Bool) (a : Word) (b c : Nat) {i : Nat} (hi : i < 32) :
    let p := min b 32
    let n := min c (32 - p)
    (bitField signed a b c).getLsbD i =
      if i < n then a.getLsbD (p + i) else signed && decide (n ≠ 0) && a.getLsbD (p + n - 1) := by
  intro p n
  have hlow (hin : i < n) : (fieldBits a b c).getLsbD i = a.getLsbD (p + i) := by
    rw [fieldBits, BitVec.getLsbD_extractLsb', decide_eq_true hin, Bool.true_and]
  have hmsb : (fieldBits a b c).msb = (decide (n ≠ 0) && a.getLsbD (p + n - 1)) := by
    rw [BitVec.msb_eq_getLsbD_last, fieldBits, BitVec.getLsbD_extractLsb']
    by_cases hn : n = 0
    · rw [decide_eq_false (by omega), decide_eq_false (not_not.2 hn)]
      simp
    · rw [decide_eq_true (by omega), decide_eq_true hn, show p + n - 1 = p + (n - 1) by omega]
  rw [bitField_eq]
  cases signed
  · rw [if_neg Bool.false_ne_true, BitVec.getLsbD_setWidth, decide_eq_true hi, Bool.true_and]
    split
    · next hin => exact hlow hin
    · next hout => exact BitVec.getLsbD_of_ge _ _ (not_lt.1 hout)
  · rw [if_pos rfl, BitVec.getLsbD_signExtend, decide_eq_true hi, Bool.true_and, Bool.true_and, hmsb]
    split
    · next hin => exact hlow hin
    · rfl

theorem getLsbD_bitInsert (a b c : Word) {i : Nat} (hi : i < 32) :
    let p := c.toNat % 32
    let n := min (c.toNat / 256 % 64) (32 - p)
    (bitInsert a b c).getLsbD i = if p ≤ i ∧ i < p + n then b.getLsbD (i - p) else a.getLsbD i := by
  intro p n
  have hmask : (BitVec.ofNat 32 ((2 ^ n - 1) * 2 ^ p)).getLsbD i = decide (p ≤ i ∧ i < p + n) := by
    rw [BitVec.getLsbD_ofNat, decide_eq_true hi, Bool.true_and, Nat.testBit_mul_two_pow, Nat.testBit_two_pow_sub_one,
      ← Bool.decide_and (p ≤ i) (i - p < n)]
    exact decide_eq_decide.2 (by omega)
  show (a &&& ~~~(BitVec.ofNat 32 ((2 ^ n - 1) * 2 ^ p)) ||| b <<< p &&& BitVec.ofNat 32 ((2 ^ n - 1) * 2 ^ p)).getLsbD i = _
  rw [BitVec.getLsbD_or, BitVec.getLsbD_and, BitVec.getLsbD_and, BitVec.getLsbD_not, hmask, BitVec.getLsbD_shiftLeft]
  split
  · next hin => simp [hin, hi]
  · next hout => simp [hout, hi]

/-- Settles O6: the bits of an extended field, and those of a field under its mask. -/
theorem bitFields : Obligations.BitFields :=
  ⟨fun _ _ _ h => (WritesReg.of_body h rfl rfl).word fun _ _ hi => getLsbD_bitField _ _ _ _ hi,
    fun _ _ _ h => (WritesReg.of_body h rfl rfl).word fun _ _ hi => getLsbD_bitInsert _ _ _ hi⟩

/-! ## Compares and picks (R177, R178) -/

theorem intCond_iff (cond : Nat) (x y : Int) : intCond cond x y = true ↔ condHolds cond x y := by
  unfold intCond condHolds
  split <;> simp

/-- An element begins in the low word of its value. -/
theorem bits_mul_lt {ty : Ty} {k : Nat} (hk : k < ty.elems) : ty.bits * k < 32 := by
  cases ty <;> simp [Ty.bits, Ty.elems] at hk ⊢ <;> omega

/-- Elements that are 0 or 1 stand in the low word of their value, also where it is a pair. -/
theorem elemBits_lowWord {ty : Ty} {n : Nat → Int} {k : Nat} (hn : n k = 0 ∨ n k = 1) (hk : k < ty.elems) :
    elemBits ty (((ofElemInts ty n).extractLsb' 0 32).setWidth 64) k = BitVec.ofInt ty.bits (n k) := by
  rw [← elemBits_ofElemInts n hk]
  refine BitVec.eq_of_getLsbD_eq fun i hi => ?_
  by_cases hlow : ty.bits * k + i < 32
  · simp [elemBits, hi, hlow, show ty.bits * k + i < 64 by omega]
  · have hstart := bits_mul_lt hk
    have hclear : (elemBits ty (ofElemInts ty n) k).getLsbD i = false := by
      rw [elemBits_ofElemInts n hk]
      rcases hn with h0 | h1
      · rw [h0]; simp
      · rw [h1]; simp; omega
    rw [hclear]
    simp [elemBits, hi, hlow]

/-- Settles O7: each element of a `cmp` is a 0 or a 1, and the condition of a `pick` is bit 0 of its word. -/
theorem compareAndPick : Obligations.CompareAndPick := by
  refine ⟨fun f s is h => ?cmp, fun f s is h => ?pick⟩
  case cmp =>
    refine (WritesReg.of_body h rfl rfl).word fun L k hk => ?_
    rw [elemBits_lowWord (ite_eq_or_eq _ _ _).symm hk, elemInt_eq_elemVal, elemInt_eq_elemVal]
    simp only [← intCond_iff]
    exact ⟨fun hc => by rw [if_pos hc]; rfl, fun hc => by rw [if_neg hc]; rfl⟩
  case pick => exact Writes.of_body h rfl rfl

end Sys2Proof.Machine
end

section
/-! The lane operations: exchanges, votes and reductions over the lanes of ACTIVE (R181 to R183). -/

namespace Sys2Proof.Machine

/-! ## Exchanges (R181) -/

/-- An exchange of the model is one from the source lanes that it computes. -/
theorem Exchanges.of_source {ctor : Fields → Instr} {src : Nat → Nat → Nat}
    (he : ∀ f s, exec (ctor f) s = runOp (ctor f) s (exchange f (fun is L => src L (is.word f.b L).toNat) s)) : Exchanges ctor src := by
  refine fun f s is h => Writes.of_body h (he f s) ?_
  unfold exchange
  congr 1
  funext L
  simp only [Bool.and_eq_true, decide_eq_true_iff]
  split <;> rfl

theorem rotSource_eq (L i : Nat) : rotSource L i = (((L : Int) - i) % 32).toNat := by
  unfold rotSource
  omega

/-- Settles O8: the source lanes of the model are those of R181. -/
theorem laneExchanges : Obligations.LaneExchanges := by
  refine ⟨.of_source fun f s => rfl, ?rot, .of_source fun f s => rfl, .of_source fun f s => rfl⟩
  case rot => exact .of_source fun f s => by simp only [← rotSource_eq]; rfl

/-! ## Votes and election (R182) -/

theorem boolWord_eq_ite {b : Bool} {P : Prop} [Decidable P] (h : b = true ↔ P) : boolWord b = if P then 1 else 0 :=
  if_congr h rfl rfl

/-- Settles O9: a vote asks all or any of the lanes of ACTIVE, and a ballot is the mask of those whose condition holds. -/
theorem votesAndElection : Obligations.VotesAndElection := by
  intro f s is
  refine ⟨fun h => ?all, fun h => ?any, fun h => ?uni, fun h => ?ballot, fun h => ?elect, fun h => ?first⟩
  case all => exact (WritesReg.of_body h rfl rfl).word fun _ => boolWord_eq_ite List.all_eq_true
  case any => exact (WritesReg.of_body h rfl rfl).word fun _ => boolWord_eq_ite List.any_eq_true
  case uni =>
    refine (WritesReg.of_body h rfl rfl).word fun _ => boolWord_eq_ite ?_
    simp only [List.all_eq_true, beq_iff_eq]
  case ballot => exact (WritesReg.of_body h rfl rfl).word fun _ K hK => getLsbD_maskOf _ hK
  case elect => exact (WritesReg.of_body h rfl rfl).word fun _ => boolWord_eq_ite beq_iff_eq
  case first => exact Writes.of_body h rfl rfl

/-! ## Operations that raise flags (R202, R203) -/

section Numeric

variable {i : Instr} {s : State} {is : Issue} {ty : Ty} {dest : Nat} {res : Nat → LaneRes} {fl : Nat → BitVec 5}

theorem Issue.getLsbD_trapLanes {L : Nat} (hL : L < 32) (hm : is.mask.getLsbD L = true) :
    (is.trapLanes fl).getLsbD L = (fl L &&& is.g.enables != 0) := by
  rw [Issue.trapLanes, getLsbD_maskOf _ hL, hm, Bool.true_and]

/-- No enabled flag is raised, and no lane traps. -/
theorem Issue.numericTrap_eq_none (h : ∀ L, is.mask.getLsbD L → L < 32 → fl L &&& is.g.enables = 0) : is.numericTrap fl = none := by
  refine if_pos (maskOf_eq_zero fun L => Bool.and_eq_false_imp.2 fun hm => ?_)
  exact bne_eq_false_iff_eq.2 (h L hm (BitVec.lt_of_getLsbD hm))

/-- A lane that raises an enabled flag traps. -/
theorem Issue.numericTrap_eq_some {L : Nat} (hL : L < 32) (hm : is.mask.getLsbD L = true) (hf : fl L &&& is.g.enables ≠ 0) :
    ∃ h : Hit, is.numericTrap fl = some h ∧ h.cls = .numericTrap ∧ h.mask.getLsbD L = true := by
  have hlane : (is.trapLanes fl).getLsbD L = true := (Issue.getLsbD_trapLanes hL hm).trans (bne_iff_ne.2 hf)
  have hne : is.trapLanes fl ≠ 0 := fun h0 => by simp [h0] at hlane
  exact ⟨_, if_neg hne, rfl, hlane⟩

theorem runOp_numeric {body : Issue → Effect} (h : Ready i s is) (he : exec i s = runOp i s body) (hb : body is = is.numeric s ty dest res) :
    RaisesOrTraps i ty dest s is res := by
  refine ⟨fun hquiet => ?_, fun L hm hL hf => ?_⟩
  · refine he.trans (runOp_done h.1 h.2 (hb.trans ?_))
    rw [Issue.numeric, Issue.numericTrap_eq_none hquiet]
  · obtain ⟨t, ht, hcls, hlane⟩ := Issue.numericTrap_eq_some (fl := fun L => (res L).flags) hL hm hf
    refine ⟨t, hcls, hlane, he.trans (runOp_hit h.1 h.2 (hb.trans ?_))⟩
    rw [Issue.numeric, ht]

theorem unionFlags_zero (m : Mask) : unionFlags m (fun _ => 0) = 0 := by
  unfold unionFlags
  induction lanesOf m with
  | nil => rfl
  | cons L ls ih => exact (congrArg (fun a => ls.foldl _ a) BitVec.or_zero).trans ih

theorem State.raise_zero (s : State) (is : Issue) : s.raise is 0 = s := by
  simp [State.raise, State.updGroup]

/-- An operation that raises no flag writes its words. -/
theorem Issue.numeric_word (v : Nat → Word) :
    is.numeric s .b32 dest (fun L => LaneRes.ofWord (v L) 0) = is.writesWord s dest v := by
  have hnone : is.numericTrap (fun _ => 0) = none := Issue.numericTrap_eq_none fun _ _ _ => BitVec.zero_and
  have hword : ∀ (l : Lane) w, l.setVal .b32 dest (w.setWidth 64) = l.setReg dest w := fun l w => by
    show l.setReg dest ((w.setWidth 64).extractLsb' 0 32) = _
    rw [BitVec.extractLsb'_setWidth_of_le (by decide), BitVec.extractLsb'_eq_self]
  simp only [Issue.numeric, LaneRes.ofWord, hnone, unionFlags_zero, State.raise_zero, hword, Issue.writesWord]

end Numeric

/-! ## Reductions (R183) -/

/-- The number that a word of type `i32` or `n32` stands for. -/
def wordVal (ty : Ty) (x : Word) : Int := if ty.signed then x.toInt else x.toNat

theorem ofInt_wordVal (ty : Ty) (x : Word) : BitVec.ofInt 32 (wordVal ty x) = x := ofInt_number ty.signed x

/-- One step of a reduction of words. -/
def wordStep (ty : Ty) (n : Int → Int → Int) (a b : Word) : Word := BitVec.ofInt 32 (n (wordVal ty a) (wordVal ty b))

/-- The steps of a reduction of words raise no flag, and one word alone gives itself. -/
theorem laneFold_words {step : Nat → Nat → FRes} {one : Nat → FRes} {op : Word → Word → Word}
    (hs : ∀ a b : Word, step a.toNat b.toNat = { bits := (op a b).toNat, flags := 0 })
    (ho : ∀ a : Word, one a.toNat = { bits := a.toNat, flags := 0 }) (x : Word) (xs : List Word) :
    laneFold step one ((x :: xs).map BitVec.toNat) = { bits := (xs.foldl op x).toNat, flags := 0 } := by
  have hfold : ∀ (ys : List Word) (a : Word), (ys.map BitVec.toNat).foldl (fun (a : FRes) y =>
      let r := step a.bits y; { bits := r.bits, flags := a.flags ||| r.flags }) { bits := a.toNat, flags := 0 } =
      { bits := (ys.foldl op a).toNat, flags := 0 } := by
    intro ys
    induction ys with
    | nil => exact fun _ => rfl
    | cons y ys ih =>
      intro a
      simp only [List.map_cons, List.foldl_cons, hs]
      exact ih (op a y)
  rw [← hfold, List.map_cons, laneFold]
  split
  · rw [ho]
  · rfl

theorem laneFold_singleton (step : Nat → Nat → FRes) (one : Nat → FRes) (x : Word) :
    laneFold step one ([x].map BitVec.toNat) = one x.toNat :=
  rfl

/-- Two words or more are folded from the first. -/
theorem laneFold_cons_cons (step : Nat → Nat → FRes) (one : Nat → FRes) (x y : Word) (ys : List Word) :
    laneFold step one ((x :: y :: ys).map BitVec.toNat) = (y :: ys).foldl (fun (a : FRes) (z : Word) =>
      { bits := (step a.bits z.toNat).bits, flags := a.flags ||| (step a.bits z.toNat).flags }) { bits := x.toNat, flags := 0 } := by
  rw [List.map_cons, laneFold, List.foldl_map, if_neg (by simp)]

section Reductions

variable {i : Instr} {f : Fields} {s : State} {is : Issue} {n : Int → Int → Int} {fl : Bool → Nat → Nat → FRes} {x : Word} {xs : List Word}

theorem laneReduce_words (hty : f.ty ≠ .f32) (hx : is.active.map (fun K => is.val32 f.ty f.a K) = x :: xs) :
    laneReduce f n fl s is = is.writesWord s f.dest.toNat (fun _ => xs.foldl (wordStep f.ty n) x) := by
  have hmap : is.active.map (fun K => (is.val32 f.ty f.a K).toNat) = (x :: xs).map BitVec.toNat := by rw [← hx, List.map_map]; rfl
  unfold laneReduce
  simp only [hmap, if_neg hty]
  rw [laneFold_words (op := wordStep f.ty n), ← Issue.numeric_word]
  · simp
  · exact fun a b => by simp [wordStep, wordVal]
  · exact fun a => rfl

/-- A value of `f32` alone, after the input rules (R183, R200). -/
def loneFloat (flush : Bool) (x : Nat) : FRes :=
  match fmtF32.decode x with
  | .nan sig => fmtF32.nanRes sig
  | _ => { bits := fmtF32.flushIn flush x, flags := 0 }

theorem laneReduce_floats (hty : f.ty = .f32) (hx : is.active.map (fun K => is.val32 f.ty f.a K) = xs) :
    laneReduce f n fl s is = is.numeric s .b32 f.dest.toNat (fun _ =>
      let r := laneFold (fl is.ftz) (loneFloat is.ftz) (xs.map BitVec.toNat)
      LaneRes.ofWord (BitVec.ofNat 32 r.bits) r.flags) := by
  have hmap : is.active.map (fun K => (is.val32 f.ty f.a K).toNat) = xs.map BitVec.toNat := by rw [← hx, List.map_map]; rfl
  unfold laneReduce
  simp only [hmap, if_pos hty]
  rfl

end Reductions

theorem foldl_add_eq_sum (x : Word) (xs : List Word) : xs.foldl (· + ·) x = (x :: xs).sum := by
  rw [List.sum_eq_foldl, List.foldl_cons]
  exact congrArg (fun y => xs.foldl _ y) (BitVec.zero_add x).symm

/-- Steps that give one of their words, and neither a greater, end at a least of all words. -/
theorem foldl_least {β : Type} [Preorder β] {op : Word → Word → Word} {num : Word → β}
    (hop : ∀ a b, (op a b = a ∨ op a b = b) ∧ num (op a b) ≤ num a ∧ num (op a b) ≤ num b) (x : Word) (xs : List Word) :
    xs.foldl op x ∈ x :: xs ∧ ∀ y ∈ x :: xs, num (xs.foldl op x) ≤ num y := by
  induction xs generalizing x with
  | nil => simp
  | cons z zs ih =>
    obtain ⟨hmem, hle⟩ := ih (op x z)
    obtain ⟨hone, hx, hz⟩ := hop x z
    have hleast := hle (op x z) List.mem_cons_self
    refine ⟨?_, fun y hy => ?_⟩
    · rcases List.mem_cons.1 hmem with h | h
      · rw [List.foldl_cons, h]
        rcases hone with h1 | h1 <;> simp [h1]
      · exact List.mem_cons_of_mem _ (List.mem_cons_of_mem _ h)
    · rcases List.mem_cons.1 hy with rfl | hy
      · exact hleast.trans hx
      · rcases List.mem_cons.1 hy with rfl | hy
        · exact hleast.trans hz
        · exact hle y (List.mem_cons_of_mem _ hy)

theorem wordStep_add (ty : Ty) : wordStep ty (fun x y => x + y) = (· + ·) := by
  funext a b
  rw [wordStep, BitVec.ofInt_add, ofInt_wordVal, ofInt_wordVal]

/-- A step that chooses one of two numbers gives the word of that number. -/
theorem wordStep_choice {ty : Ty} {n : Int → Int → Int} {a b : Word}
    (hn : n (wordVal ty a) (wordVal ty b) = wordVal ty a ∨ n (wordVal ty a) (wordVal ty b) = wordVal ty b) :
    (wordStep ty n a b = a ∨ wordStep ty n a b = b) ∧ wordVal ty (wordStep ty n a b) = n (wordVal ty a) (wordVal ty b) := by
  unfold wordStep
  rcases hn with h | h <;> rw [h, ofInt_wordVal]
  exacts [⟨.inl rfl, rfl⟩, ⟨.inr rfl, rfl⟩]

theorem wordStep_min (ty : Ty) (a b : Word) : (wordStep ty min a b = a ∨ wordStep ty min a b = b) ∧
    wordVal ty (wordStep ty min a b) ≤ wordVal ty a ∧ wordVal ty (wordStep ty min a b) ≤ wordVal ty b := by
  obtain ⟨hone, hval⟩ := wordStep_choice (min_choice (wordVal ty a) (wordVal ty b))
  exact ⟨hone, hval ▸ min_le_left .., hval ▸ min_le_right ..⟩

theorem wordStep_max (ty : Ty) (a b : Word) : (wordStep ty max a b = a ∨ wordStep ty max a b = b) ∧
    wordVal ty a ≤ wordVal ty (wordStep ty max a b) ∧ wordVal ty b ≤ wordVal ty (wordStep ty max a b) := by
  obtain ⟨hone, hval⟩ := wordStep_choice (max_choice (wordVal ty a) (wordVal ty b))
  exact ⟨hone, hval ▸ le_max_left .., hval ▸ le_max_right ..⟩

/-! ### One value alone -/

section Lone

variable {x m : Nat} {neg : Bool} {e : Int}

theorem exponent_of_inf {t : Fmt} (h : t.decode x = .inf neg) : x / 2 ^ t.mb % 2 ^ t.eb = 2 ^ t.eb - 1 := by
  unfold Fmt.decode at h
  dsimp only at h
  split at h
  · next hexp => exact beq_iff_eq.1 (Bool.and_eq_true_iff.1 hexp).2
  · split at h
    · cases h
    · split at h <;> cases h

theorem sign_of_fin {t : Fmt} (h : t.decode x = .fin neg m e) : neg = (x / t.signBit % 2 == 1) := by
  unfold Fmt.decode at h
  dsimp only at h
  split at h
  · split at h <;> cases h
  · split at h
    · cases h
    · split at h <;> cases h <;> rfl

theorem loneFloat_nan {sig : Bool} (h : fmtF32.decode x = .nan sig) (flush : Bool) :
    loneFloat flush x = { bits := 0x7FC00000, flags := if sig then 0x10 else 0 } := by
  simp only [loneFloat, h]
  rfl

theorem loneFloat_inf (h : fmtF32.decode x = .inf neg) (flush : Bool) : loneFloat flush x = { bits := x, flags := 0 } := by
  have hexp : x / 2 ^ 23 % 2 ^ 8 = 255 := exponent_of_inf h
  have hflush : fmtF32.flushIn flush x = x := if_neg (by rw [show x / 2 ^ fmtF32.mb % 2 ^ fmtF32.eb = 255 from hexp]; simp)
  simp only [loneFloat, h, hflush]

theorem loneFloat_fin (h : fmtF32.decode x = .fin neg m e) (flush : Bool) : loneFloat flush x =
    { bits := if flush ∧ x / 2 ^ 23 % 2 ^ 8 = 0 then (if neg then 2 ^ 31 else 0) else x, flags := 0 } := by
  have hsign : neg = (x / 2 ^ 31 % 2 == 1) := sign_of_fin h
  have hflush : fmtF32.flushIn flush x = if flush ∧ x / 2 ^ 23 % 2 ^ 8 = 0 then (if neg then 2 ^ 31 else 0) else x := by
    rw [hsign]
    refine if_congr (by simp [fmtF32]) ?_ rfl
    show x / 2 ^ 31 % 2 * 2 ^ 31 = _
    rcases Nat.mod_two_eq_zero_or_one (x / 2 ^ 31) with h0 | h0 <;> rw [h0] <;> rfl
  simp only [loneFloat, h, hflush]

end Lone

/-- Settles O10: the words are folded by steps that choose or add, and the floats by the steps of their format; one float alone passes the input
rules. -/
theorem laneReductions : Obligations.LaneReductions := by
  intro f s is hact xs num
  obtain ⟨x, ys, hxs⟩ : ∃ x ys, xs = x :: ys := List.exists_cons_of_ne_nil (by simpa [xs] using hact)
  refine ⟨fun hty => ?words, fun hty => ?floats⟩
  case words =>
    have hnf : f.ty ≠ .f32 := by
      rintro h
      simp [h] at hty
    have hnum : num = wordVal f.ty := by
      funext w
      rcases hty with h | h <;> simp [num, wordVal, h, Ty.signed]
    rw [hnum, hxs]
    refine ⟨fun h => ?add, fun h => ?min, fun h => ?max⟩
    case add =>
      refine (WritesReg.of_body h rfl (laneReduce_words hnf hxs)).word fun _ => ?_
      rw [wordStep_add, foldl_add_eq_sum]
    case min => exact (WritesReg.of_body h rfl (laneReduce_words hnf hxs)).word fun _ => foldl_least (wordStep_min f.ty) x ys
    case max =>
      exact (WritesReg.of_body h rfl (laneReduce_words hnf hxs)).word fun _ =>
        foldl_least (num := OrderDual.toDual ∘ wordVal f.ty) (wordStep_max f.ty) x ys
  case floats =>
    intro one folds
    have hone : ∀ x, one x = loneFloat is.ftz x.toNat := by
      intro x
      cases hd : fmtF32.decode x.toNat with
      | nan sig => simp only [one, hd, loneFloat_nan hd]
      | inf neg => simp only [one, hd, loneFloat_inf hd]
      | fin neg m e => simp only [one, hd, loneFloat_fin hd]
    have hfolds {i : Instr} {n : Int → Int → Int} {fl : Bool → Nat → Nat → FRes} (he : exec i s = runOp i s (laneReduce f n fl s)) :
        folds i (fl is.ftz) := by
      refine fun h => ⟨fun x hx => ?_, fun x y zs hx => ?_⟩
      · have hnumeric := laneReduce_floats (n := n) (fl := fl) (s := s) (is := is) hty hx
        rw [laneFold_singleton, ← hone] at hnumeric
        exact runOp_numeric h he hnumeric
      · have hnumeric := laneReduce_floats (n := n) (fl := fl) (s := s) (is := is) hty hx
        rw [laneFold_cons_cons] at hnumeric
        exact runOp_numeric h he hnumeric
    exact ⟨hfolds (i := .lredAdd f) (fl := fun fl x y => fmtF32.add x y f.rnd fl) rfl,
      hfolds (i := .lredMin f) (fl := fun fl x y => fmtF32.minMax false x y fl) rfl,
      hfolds (i := .lredMax f) (fl := fun fl x y => fmtF32.minMax true x y fl) rfl⟩

end Sys2Proof.Machine
end

section
/-! Reads of control registers, and the operations that do nothing, probe, mark or trap (R186, R188 to R192, R433). -/

namespace Sys2Proof.Machine

theorem isPair_ctl (f : Fields) : Role.ctl.isPair f = true ↔ ctlWide? f.spec.toNat = some true := beq_iff_eq

/-- Settles O29: a control register is read into a pair where it is 64 bits wide, and `prof` asks for a row or does nothing. -/
theorem controlReads : Obligations.ControlReads := by
  intro f s is
  refine ⟨fun h => ?ctlGet, fun h => runOp_done h.1 h.2 rfl, fun h => WritesReg.of_body h rfl rfl, fun h => ?prof⟩
  case ctlGet =>
    refine runOp_done h.1 h.2 ?_
    simp only [isPair_ctl]
  case prof =>
    refine runOp_done h.1 h.2 ?_
    split <;> rfl

/-- Settles O31: each ends as a trap of its class. -/
theorem trapHaltAndBreak : Obligations.TrapHaltAndBreak := fun _ _ _ =>
  ⟨fun h => runOp_trap h.1 h.2 rfl, fun h => runOp_trap h.1 h.2 rfl, fun h => runOp_trap h.1 h.2 rfl⟩

end Sys2Proof.Machine
end

section
/-! Registers of elements: an element of a packed register, and an element-wise operation that raises no flag (R121, R122). -/

namespace Sys2Proof.Machine

/-! ## An element of a register -/

theorem elemOf_eq_toNat (w : Nat) (x : Word) (k : Nat) : elemOf w x k = (x.extractLsb' (w * k) w).toNat := by
  rw [elemOf, BitVec.extractLsb'_toNat, Nat.shiftRight_eq_div_pow]

/-- Element `k` of packed elements keeps its low bits; past the last one there is 0. -/
theorem packed_div_mod (w : Nat) (es : List Nat) (k : Nat) :
    es.foldr (fun e acc => e % 2 ^ w + 2 ^ w * acc) 0 / 2 ^ (w * k) % 2 ^ w = es[k]?.getD 0 % 2 ^ w := by
  have hpos : 0 < 2 ^ w := by positivity
  induction es generalizing k with
  | nil => simp
  | cons e es ih =>
    cases k with
    | zero => simp
    | succ k =>
      rw [List.foldr_cons, Nat.mul_succ, Nat.add_comm (w * k), Nat.pow_add, ← Nat.div_div_eq_div_mul, Nat.add_mul_div_left _ _ hpos,
        Nat.div_eq_of_lt (Nat.mod_lt _ hpos), Nat.zero_add, ih, List.getElem?_cons_succ]

theorem toNat_extract_ofElems {w k : Nat} (es : List Nat) (h : w * k + w ≤ 32) :
    ((ofElems w es).extractLsb' (w * k) w).toNat = es[k]?.getD 0 % 2 ^ w := by
  have hsplit : 2 ^ 32 = 2 ^ (w * k) * 2 ^ (32 - w * k) := by rw [← Nat.pow_add]; congr 1; omega
  rw [← elemOf_eq_toNat, elemOf, ofElems, BitVec.toNat_ofNat, hsplit, Nat.mod_mul_right_div_self,
    Nat.mod_mod_of_dvd _ (Nat.pow_dvd_pow 2 (by omega)), packed_div_mod]

section OneRegister

variable {ty : Ty} (hty : ty.wide = false)
include hty

/-- The elements of a type that one register carries fill it at most. -/
theorem Ty.element_le_word {k : Nat} (hk : k < ty.elems) : ty.bits * k + ty.bits ≤ 32 := by
  have hall : ty.bits * ty.elems ≤ 32 := by revert hty; cases ty <;> decide
  exact le_trans (Nat.mul_le_mul_left ty.bits hk) hall

theorem toNat_elemBits_ofElems (es : List Nat) {k : Nat} (hk : k < ty.elems) :
    (elemBits ty ((ofElems ty.bits es).setWidth 64) k).toNat = es[k]?.getD 0 % 2 ^ ty.bits := by
  have hle := Ty.element_le_word hty hk
  rw [elemBits, BitVec.extractLsb'_setWidth_of_le (by omega), toNat_extract_ofElems es hle]

theorem elemOf_val32 (is : Issue) (o : Operand) (L k : Nat) :
    elemOf ty.bits (is.val32 ty o L) k = (elemBits ty (is.val ty o L) k).toNat := by
  rw [Issue.val, if_neg (by simp [hty]), elemBits, BitVec.extractLsb'_toNat, BitVec.toNat_setWidth_of_le (by decide), elemOf,
    Nat.shiftRight_eq_div_pow]

end OneRegister

/-! ## Operations that raise no flag -/

theorem perElem_quiet (ty : Ty) (r : Nat → Nat) :
    perElem ty (fun k => { bits := r k, flags := 0 }) = (ofElems ty.bits ((List.range ty.elems).map r), 0) := by
  have hflags : ∀ l : List FRes, (∀ x ∈ l, x.flags = 0) → l.foldl (fun a x => a ||| x.flags) (0 : BitVec 5) = 0 := fun l => by
    induction l with
    | nil => exact fun _ => rfl
    | cons x xs ih =>
      intro h
      obtain ⟨hx, hxs⟩ := List.forall_mem_cons.1 h
      rw [List.foldl_cons, hx]
      exact ih hxs
  have hquiet := hflags ((List.range ty.elems).map fun k => { bits := r k, flags := 0 }) fun x hx => by
    obtain ⟨k, -, rfl⟩ := List.mem_map.1 hx
    rfl
  simp only [perElem, hquiet, List.map_map]
  rfl

theorem Issue.numeric_quiet (is : Issue) (s : State) (ty : Ty) (dest : Nat) (v : Nat → Word) :
    is.numeric s ty dest (fun L => LaneRes.ofWord (v L) 0) = is.writes s ty dest (fun L => (v L).setWidth 64) := by
  have hnone : is.numericTrap (fun _ => 0) = none := Issue.numericTrap_eq_none fun _ _ _ => BitVec.zero_and
  simp only [Issue.numeric, LaneRes.ofWord, hnone, unionFlags_zero, State.raise_zero, Issue.writes]

theorem WritesValue.mono {i : Instr} {f : Fields} {s : State} {is : Issue} {P Q : Nat → Dword → Prop} (h : WritesValue i f s is P)
    (hPQ : ∀ L v, P L v → Q L v) : WritesValue i f s is Q := by
  obtain ⟨v, hv, he⟩ := h
  exact ⟨v, fun L => hPQ L _ (hv L), he⟩

/-- An operation on the elements of a that raises no flag writes the low bits of each element's result. -/
theorem writesValue_of_quiet {i : Instr} {f : Fields} {s : State} {is : Issue} {r : Nat → Nat} (hty : f.ty.wide = false) (h : Ready i s is)
    (he : exec i s = runOp i s (fun is => floatElems f (fun x _ _ => { bits := r x, flags := 0 }) s is)) :
    WritesValue i f s is (fun L v => ∀ k, k < f.ty.elems →
      (elemBits f.ty v k).toNat = r (elemBits f.ty (is.val f.ty f.a L) k).toNat % 2 ^ f.ty.bits) := by
  have hbody : floatElems f (fun x _ _ => { bits := r x, flags := 0 }) s is = is.writes s f.ty f.dest.toNat (fun L =>
      (ofElems f.ty.bits ((List.range f.ty.elems).map fun k => r (elemOf f.ty.bits (is.val32 f.ty f.a L) k))).setWidth 64) := by
    simp only [floatElems, perElem_quiet, Issue.numeric_quiet]
  refine (Writes.of_body h he hbody).value fun L k hk => ?_
  rw [toNat_elemBits_ofElems hty _ hk, ← elemOf_val32 hty]
  simp [hk]

end Sys2Proof.Machine
end

section
/-! Float operations by element: the arithmetic, the compares and the approximations with their flags, and those that only look at an encoding (R205
to R212). -/

namespace Sys2Proof.Machine

/-- An operation of the model on each element of a, b and c is a float operation of class 0x2. -/
theorem FloatOp.of_elems {ctor : Fields → Instr} {r : Fields → Bool → Nat → Nat → Nat → FRes}
    (he : ∀ f s, exec (ctor f) s = runOp (ctor f) s (fun is => floatElems f (r f is.ftz) s is)) : FloatOp ctor r :=
  fun f s _ h => runOp_numeric h (he f s) rfl

/-- Settles O11: each is one function of the format on the elements. -/
theorem floatArithmetic : Obligations.FloatArithmetic :=
  ⟨.of_elems fun _ _ => rfl, .of_elems fun _ _ => rfl, .of_elems fun _ _ => rfl, .of_elems fun _ _ => rfl, .of_elems fun _ _ => rfl,
    .of_elems fun _ _ => rfl, .of_elems fun _ _ => rfl, .of_elems fun _ _ => rfl⟩

/-- Settles O12: each is one function of the format on the elements. -/
theorem floatComparesAndApproximations : Obligations.FloatComparesAndApproximations :=
  ⟨.of_elems fun _ _ => rfl, .of_elems fun _ _ => rfl, .of_elems fun _ _ => rfl, .of_elems fun _ _ => rfl, .of_elems fun _ _ => rfl,
    .of_elems fun _ _ => rfl, .of_elems fun _ _ => rfl, .of_elems fun _ _ => rfl⟩

/-! ## Signs and classes (R209, R211) -/

theorem fmtOf_of_mem {ty : Ty} (h : ty ∈ floatTys) :
    (fmtOf ty).ieee = true ∧ (fmtOf ty).signBit = 2 ^ (ty.bits - 1) ∧ ty.wide = false ∧ 16 ≤ ty.bits := by
  revert ty
  decide

section Encodings

variable {w i : Nat} {x y : BitVec w}

theorem getLsbD_of_toNat_mod (h : y.toNat = x.toNat % 2 ^ (w - 1) % 2 ^ w) (hi : i < w) :
    y.getLsbD i = (decide (i ≠ w - 1) && x.getLsbD i) := by
  have hlow : decide (i < w - 1) = decide (i ≠ w - 1) := decide_eq_decide.2 (by omega)
  rw [← BitVec.testBit_toNat, h, Nat.testBit_mod_two_pow, Nat.testBit_mod_two_pow, decide_eq_true hi, Bool.true_and, hlow, BitVec.testBit_toNat]

theorem getLsbD_of_toNat_add (h : y.toNat = (x.toNat + 2 ^ (w - 1)) % 2 ^ w) (hi : i < w) :
    y.getLsbD i = (decide (i = w - 1) ^^ x.getLsbD i) := by
  rw [← BitVec.testBit_toNat, h, Nat.testBit_mod_two_pow, decide_eq_true hi, Bool.true_and, Nat.add_comm]
  by_cases htop : i = w - 1
  · rw [htop, Nat.testBit_two_pow_add_eq, BitVec.testBit_toNat, decide_eq_true rfl, Bool.true_xor]
  · rw [Nat.testBit_two_pow_add_gt (by omega), BitVec.testBit_toNat, decide_eq_false htop, Bool.false_xor]

end Encodings

/-! ### The value of an encoding by its fields (R195) -/

section Values

variable {t : Fmt} {neg : Bool} {e m : Nat}

/-- The value of the encoding with the sign `neg`, the exponent field `e` and the mantissa field `m`. -/
def Fmt.ofFields (t : Fmt) (neg : Bool) (e m : Nat) : FVal :=
  if t.ieee && e == 2 ^ t.eb - 1 then
    if m = 0 then .inf neg else .nan (m < 2 ^ (t.mb - 1))
  else if !t.ieee && e == 2 ^ t.eb - 1 && m == 2 ^ t.mb - 1 then .nan false
  else if e = 0 then .fin neg m t.minLsb
  else .fin neg (2 ^ t.mb + m) ((e : Int) - t.bias - t.mb)

theorem Fmt.decode_eq_ofFields (t : Fmt) (x : Nat) :
    t.decode x = t.ofFields (x / t.signBit % 2 == 1) (x / 2 ^ t.mb % 2 ^ t.eb) (x % 2 ^ t.mb) := rfl

/-- The fields are not those of an infinity or a NaN. -/
def Fmt.FiniteFields (t : Fmt) (e m : Nat) : Prop := e < 2 ^ t.eb - 1 ∨ t.ieee = false ∧ m < 2 ^ t.mb - 1

theorem Fmt.ofFields_inf (ht : t.ieee = true) : t.ofFields neg (2 ^ t.eb - 1) 0 = .inf neg := by simp [Fmt.ofFields, ht]

theorem Fmt.ofFields_nan (ht : t.ieee = true) (hm : m ≠ 0) : t.ofFields neg (2 ^ t.eb - 1) m = .nan (m < 2 ^ (t.mb - 1)) := by
  simp [Fmt.ofFields, ht, hm]

theorem Fmt.ofFields_of_finite (h : t.FiniteFields e m) : t.ofFields neg e m =
    if e = 0 then .fin neg m t.minLsb else .fin neg (2 ^ t.mb + m) ((e : Int) - t.bias - t.mb) := by
  rcases h with h | ⟨ht, h⟩
  · simp [Fmt.ofFields, h.ne]
  · simp [Fmt.ofFields, ht, h.ne]

theorem Fmt.ofFields_subnormal (h : t.FiniteFields 0 m) : t.ofFields neg 0 m = .fin neg m t.minLsb :=
  (Fmt.ofFields_of_finite h).trans (if_pos rfl)

theorem Fmt.ofFields_normal (h : t.FiniteFields e m) (he : e ≠ 0) :
    t.ofFields neg e m = .fin neg (2 ^ t.mb + m) ((e : Int) - t.bias - t.mb) :=
  (Fmt.ofFields_of_finite h).trans (if_neg he)

end Values

/-! ### Classes -/

/-- The number of the class of an encoding (R211) by its fields. -/
def classNumber (neg : Prop) [Decidable neg] (top : Nat) (half e m : Nat) : Nat :=
  if e = top then
    if m = 0 then if neg then 0 else 7
    else if half ≤ m then 9 else 8
  else if e = 0 then
    if m = 0 then if neg then 3 else 4
    else if neg then 2 else 5
  else if neg then 1 else 6

theorem classBits_eq_two_pow {t : Fmt} (ht : t.ieee = true) {x : Nat} (hx : x < 2 * t.signBit) :
    t.classBits x = 2 ^ classNumber (x / t.signBit = 1) (2 ^ t.eb - 1) (2 ^ (t.mb - 1)) (x / 2 ^ t.mb % 2 ^ t.eb) (x % 2 ^ t.mb) := by
  have hsign : x / t.signBit = 0 ∨ x / t.signBit = 1 :=
    Nat.le_one_iff_eq_zero_or_eq_one.1 (Nat.le_of_lt_succ (Nat.div_lt_of_lt_mul (by rwa [Nat.mul_comm] at hx)))
  have htop : x / 2 ^ t.mb % 2 ^ t.eb < 2 ^ t.eb := Nat.mod_lt _ (by positivity)
  unfold Fmt.classBits classNumber
  rw [Fmt.decode_eq_ofFields]
  generalize x / 2 ^ t.mb % 2 ^ t.eb = e, x / t.signBit = n, x % 2 ^ t.mb = m at *
  by_cases he : e = 2 ^ t.eb - 1
  · rw [he, if_pos rfl]
    by_cases hm : m = 0
    · rw [hm, Fmt.ofFields_inf ht, if_pos rfl]
      rcases hsign with rfl | rfl <;> rfl
    · rw [Fmt.ofFields_nan ht hm, if_neg hm]
      by_cases hhalf : 2 ^ (t.mb - 1) ≤ m
      · rw [decide_eq_false (Nat.not_lt.2 hhalf), if_pos hhalf]
      · rw [decide_eq_true (Nat.not_le.1 hhalf), if_neg hhalf]
  · have hfin : t.FiniteFields e m := .inl (by omega)
    rw [if_neg he]
    by_cases h0 : e = 0
    · subst h0
      rw [Fmt.ofFields_subnormal hfin, if_pos rfl]
      by_cases hm : m = 0 <;> rcases hsign with rfl | rfl <;> simp [hm]
    · rw [Fmt.ofFields_normal hfin h0]
      rcases hsign with rfl | rfl <;> simp [h0]

theorem classNumber_lt (neg : Prop) [Decidable neg] (top half e m : Nat) : classNumber neg top half e m < 16 := by
  unfold classNumber
  repeat' split
  all_goals decide

/-- Settles O13: the model's function of each encoding changes its sign bit, or gives the bit of its class. -/
theorem floatSignsAndClasses : Obligations.FloatSignsAndClasses := by
  intro f s is hf
  obtain ⟨hieee, hsign, hty, hbits⟩ := fmtOf_of_mem hf
  refine ⟨fun h => ?abs, fun h => ?neg, fun h => ?cls⟩
  case abs =>
    refine (writesValue_of_quiet hty h rfl).mono fun L v hv k hk i hi => getLsbD_of_toNat_mod ?_ hi
    rw [hv k hk, hsign]
  case neg =>
    refine (writesValue_of_quiet hty h rfl).mono fun L v hv k hk i hi => getLsbD_of_toNat_add ?_ hi
    rw [hv k hk, hsign]
  case cls =>
    refine (writesValue_of_quiet hty h rfl).mono fun L v hv k hk => ?_
    have hlt : (elemBits f.ty (is.val f.ty f.a L) k).toNat < 2 * (fmtOf f.ty).signBit := by
      rw [hsign, ← Nat.pow_succ', Nat.succ_eq_add_one, Nat.sub_add_cancel (by omega)]
      exact BitVec.isLt _
    rw [hv k hk, classBits_eq_two_pow hieee hlt, hsign]
    exact Nat.mod_eq_of_lt (Nat.pow_lt_pow_right (by decide) (lt_of_lt_of_le (classNumber_lt ..) hbits))

end Sys2Proof.Machine
end

section
/-! Conversions (R218 to R224): between registers, and `bpick`. -/

namespace Sys2Proof.Machine

/-! ## `bpick` (R224) -/

theorem pickByte_eq_toNat (src : Dword) (c : Nat) : pickByte src c =
    (let b := src.extractLsb' (8 * (c % 8)) 8
     if c / 8 % 4 = 0 then b else if c / 8 % 4 = 1 then 0 else if c / 8 % 4 = 2 then 0xFF else if b.msb then 0xFF else 0).toNat := by
  have hbyte (b : BitVec 8) : elemOf 8 (b.setWidth 32) 0 = b.toNat := by
    rw [elemOf_eq_toNat, BitVec.extractLsb'_setWidth_of_le (by decide), Nat.mul_zero, BitVec.extractLsb'_eq_self]
  unfold pickByte
  rw [hbyte]
  generalize src.extractLsb' (8 * (c % 8)) 8 = b
  have hmsb : b.msb = decide (128 ≤ b.toNat) := BitVec.msb_eq_decide b
  match c / 8 % 4 with
  | 0 => rfl
  | 1 => rfl
  | 2 => rfl
  | n + 3 =>
    show (if 128 ≤ b.toNat then 0xFF else 0) = (if b.msb then 0xFF else 0 : BitVec 8).toNat
    rw [hmsb]
    by_cases hb : 128 ≤ b.toNat <;> simp [hb]

/-- Settles O15: both conversions raise the flags of `Convert`, and a result byte of `bpick` is one of the packed elements. -/
theorem conversions : Obligations.Conversions := by
  refine ⟨fun f s is h => runOp_numeric h rfl rfl, fun f s is h => runOp_numeric h rfl rfl, fun f s is h => ?bpick⟩
  case bpick =>
    refine (WritesReg.of_body h rfl rfl).word fun L k hk => BitVec.eq_of_toNat_eq ?_
    rw [toNat_extract_ofElems _ (by omega)]
    simp only [List.getElem?_map, List.getElem?_range hk, Option.map_some, Option.getD_some, pickByte_eq_toNat, elemOf_eq_toNat]
    exact Nat.mod_eq_of_lt (BitVec.isLt _)

/-! ## Integers to integers (R220) -/

section Integers

variable {dst src : Ty}

theorem intBits_eq_toNat (ty : Ty) (v : Int) : intBits ty v = (BitVec.ofInt ty.bits v).toNat := by
  rw [intBits, BitVec.toNat_ofInt, Nat.cast_pow, Nat.cast_ofNat]

/-- The clamp of `.sat`, or the low bits. -/
theorem convertElem_integers (hs : src.isInt = true) (hd : dst.isInt = true) (x : Nat) (c : CvtMode) : convertElem dst src x c =
    { bits := (if c.sat then saturate dst (elemInt src (BitVec.ofNat 64 x) 0) else BitVec.ofInt dst.bits (elemInt src (BitVec.ofNat 64 x) 0)).toNat,
      flags := 0 } := by
  simp only [convertElem, if_pos hs, if_pos hd, intBits_eq_toNat]
  split
  · rw [ofInt_clamp]
  · rfl

/-- An element taken out of its register is element 0 of a value. -/
theorem elemInt_ofNat_toNat (x : BitVec src.bits) : elemInt src (BitVec.ofNat 64 x.toNat) 0 = elemVal src x := by
  have hbits : src.bits ≤ 64 := by cases src <;> decide
  have hx : elemBits src (BitVec.ofNat 64 x.toNat) 0 = x := by
    rw [elemBits, Nat.mul_zero, BitVec.ofNat_toNat, BitVec.extractLsb'_setWidth_of_le (by omega), BitVec.extractLsb'_eq_self]
  rw [elemInt_eq_elemVal, hx]

theorem toNat_ofNat_word (hty : dst.wide = false) (x : BitVec dst.bits) : (BitVec.ofNat 32 x.toNat).toNat = x.toNat := by
  have hbits : dst.bits ≤ 32 := by revert hty; cases dst <;> decide
  exact Nat.mod_eq_of_lt (lt_of_lt_of_le x.isLt (Nat.pow_le_pow_right (by decide) hbits))

end Integers

/-- An integer conversion raises no flag, and its element stands alone in its register. -/
theorem cvt_integers {f : Fields} {s : State} {is : Issue} (hd : f.ty.isInt = true) (hs : f.srcTy.isInt = true) (hsw : f.srcTy.wide = false)
    (hdw : f.ty.wide = false) (h : Ready (.cvt f) s is) : WritesWord (.cvt f) f s is (fun L v =>
      let x := elemVal f.srcTy (elemBits f.srcTy (is.val f.srcTy f.a L) (f.spec.toNat / 16 % 8))
      v.toNat = (if f.mod.getLsbD 0 then saturate f.ty x else BitVec.ofInt f.ty.bits x).toNat) := by
  refine (WritesReg.of_body (v := fun L =>
    let x := elemVal f.srcTy (elemBits f.srcTy (is.val f.srcTy f.a L) (f.spec.toNat / 16 % 8))
    BitVec.ofNat 32 (if f.mod.getLsbD 0 then saturate f.ty x else BitVec.ofInt f.ty.bits x).toNat) h rfl ?_).word fun L => toNat_ofNat_word hdw _
  simp only [convertElem_integers hs hd, Issue.cvtSource, elemOf_val32 hsw, elemInt_ofNat_toNat, fieldsSat]
  exact Issue.numeric_word _

end Sys2Proof.Machine
end

section
/-! NaN, infinite and zero operands (R205 to R207): each operation is its row for NaNs, or else its rule for values that are no NaN. -/

namespace Sys2Proof.Machine

/-! ## The rows for NaNs, and the rule for the rest -/

/-- Two conditions that give the same may be asked in either order. -/
theorem ite_swap_same {α : Type} (p q : Prop) [Decidable p] [Decidable q] (u v : α) :
    (if p then u else if q then u else v) = if q then u else if p then u else v := by
  split <;> simp

section Rows

variable (t : Fmt) (x y z : Nat) (mode : Rnd) (flush : Bool)

/-- The product of two values that are no NaN and no zero times infinity, as a result. -/
def Fmt.productRes (v : FVal) : FRes :=
  match v with
  | .fin s m e => t.round { neg := s, m := m, e := e, sticky := false } s mode false flush false
  | .inf s => { bits := t.signed s t.inf, flags := 0 }
  | .nan _ => t.nanRes false

/-- The quotient of two values that are no NaN. -/
def Fmt.quotientRes (a b : FVal) : FRes :=
  let s := a.isNeg != b.isNeg
  match a, b with
  | .inf _, .inf _ => t.nanRes true
  | .inf _, _ => { bits := t.signed s t.inf, flags := 0 }
  | _, .inf _ => { bits := t.signed s 0, flags := 0 }
  | .fin _ m e, .fin _ n k =>
    if n = 0 then if m = 0 then t.nanRes true else { bits := t.signed s t.inf, flags := flagDz }
    else if m = 0 then { bits := t.signed s 0, flags := 0 }
    else t.round (divExact s m e n k) s mode false flush false
  | _, _ => t.nanRes false

/-- The square root of a value. -/
def Fmt.rootRes (v : FVal) : FRes :=
  match v with
  | .nan s => t.nanRes s
  | .inf true => t.nanRes true
  | .inf false => { bits := t.inf, flags := 0 }
  | .fin s m e =>
    if m = 0 then { bits := t.signed s 0, flags := 0 }
    else if s then t.nanRes true
    else t.round (sqrtExact m e) false mode false flush false

theorem Fmt.sqrt_eq : t.sqrt x mode flush = t.rootRes mode flush (t.decode (t.flushIn flush x)) := rfl

theorem FVal.isZero_iff {v : FVal} : v.isZero = true ↔ ∃ s e, v = .fin s 0 e := by
  cases v <;> simp [FVal.isZero]

theorem zeroTimesInf_iff {a b : FVal} :
    zeroTimesInf a b = true ↔ (∃ i, a = .inf i) ∧ b.isZero = true ∨ a.isZero = true ∧ ∃ i, b = .inf i := by
  cases a <;> cases b <;> simp [zeroTimesInf, FVal.isZero]

theorem FVal.isSnan_of_isNan {a : FVal} (h : a.isNan = false) : a.isSnan = false := by
  cases a with
  | nan s => cases h
  | inf i => rfl
  | fin i m e => rfl

theorem specialNan_pair (a b : FVal) (r : FRes) : (specialNan t [a, b]).getD r =
    if a.isSnan || b.isSnan then t.nanRes true else if a.isNan || b.isNan then t.nanRes false else r := by
  simp only [specialNan, List.any_cons, List.any_nil, Bool.or_false]
  repeat' split
  all_goals rfl

theorem specialNan_triple (a b c : FVal) (r : FRes) : (specialNan t [a, b, c]).getD r =
    if a.isSnan || b.isSnan || c.isSnan then t.nanRes true else if a.isNan || b.isNan || c.isNan then t.nanRes false else r := by
  simp only [specialNan, List.any_cons, List.any_nil, Bool.or_false, ← Bool.or_assoc]
  repeat' split
  all_goals rfl

theorem Fmt.add_eq : t.add x y mode flush =
    let a := t.decode (t.flushIn flush x)
    let b := t.decode (t.flushIn flush y)
    (specialNan t [a, b]).getD (t.addVal a b mode flush) :=
  (specialNan_pair ..).symm

theorem Fmt.sub_eq : t.sub x y mode flush =
    let a := t.decode (t.flushIn flush x)
    let b := t.decode (t.flushIn flush y)
    (specialNan t [a, b]).getD (t.addVal a b.neg mode flush) :=
  (specialNan_pair ..).symm

theorem Fmt.div_eq : t.div x y mode flush =
    let a := t.decode (t.flushIn flush x)
    let b := t.decode (t.flushIn flush y)
    (specialNan t [a, b]).getD (t.quotientRes mode flush a b) :=
  (specialNan_pair ..).symm

theorem Fmt.mul_eq : t.mul x y mode flush =
    let a := t.decode (t.flushIn flush x)
    let b := t.decode (t.flushIn flush y)
    if zeroTimesInf a b then t.nanRes true else (specialNan t [a, b]).getD (t.productRes mode flush (mulVal a b)) := by
  dsimp only
  rw [specialNan_pair]
  exact ite_swap_same ..

theorem Fmt.fma_eq : t.fma x y z mode flush =
    let a := t.decode (t.flushIn flush x)
    let b := t.decode (t.flushIn flush y)
    let c := t.decode (t.flushIn flush z)
    if zeroTimesInf a b then t.nanRes true else (specialNan t [a, b, c]).getD (t.addVal (mulVal a b) c mode flush) := by
  dsimp only
  rw [specialNan_triple]
  exact ite_swap_same ..

end Rows

/-! ## Values that are no NaN -/

section Values

variable {t : Fmt} {a b c : FVal} {mode : Rnd} {flush : Bool}

theorem specialNan_eq_none {vs : List FVal} : specialNan t vs = none ↔ ∀ v ∈ vs, v.isNan = false := by
  constructor
  · intro h v hv
    by_contra hn
    have hany : vs.any FVal.isNan = true := List.any_eq_true.2 ⟨v, hv, by simpa using hn⟩
    rw [specialNan, hany] at h
    split at h <;> cases h
  · intro h
    have hsnan : vs.any FVal.isSnan = false := List.any_eq_false.2 fun v hv => by simp [FVal.isSnan_of_isNan (h v hv)]
    have hnan : vs.any FVal.isNan = false := List.any_eq_false.2 fun v hv => by simp [h v hv]
    rw [specialNan, hsnan, hnan]
    rfl

theorem addVal_of_specialSum {r : FRes} (h : specialSum t a b = some r) : t.addVal a b mode flush = r := by
  cases a with
  | nan s => cases h
  | inf i =>
    cases b with
    | nan s => cases h
    | inf j =>
      simp only [specialSum, Fmt.addVal] at h ⊢
      split at h <;> next hij => rw [← Option.some.inj h]; simp [hij, Fmt.nanRes, flagNv]
    | fin j n k => exact Option.some.inj h
  | fin i m e =>
    cases b with
    | nan s => cases h
    | inf j => exact Option.some.inj h
    | fin j n k => cases h

/-- Where one summand is finite, the row for infinities asks the other only. -/
theorem specialSum_fin (t : Fmt) (i : Bool) (m n : Nat) (e k : Int) (c : FVal) : specialSum t (.fin i m e) c = specialSum t (.fin i n k) c := by
  cases c <;> rfl

theorem zeroTimesInf_of_specialNan {r : FRes} (h : specialNan t [a, b] = some r) : zeroTimesInf a b = false := by
  rw [Bool.eq_false_iff, Ne, zeroTimesInf_iff]
  rintro (⟨⟨i, rfl⟩, hz⟩ | ⟨hz, ⟨i, rfl⟩⟩) <;> obtain ⟨s, e, rfl⟩ := FVal.isZero_iff.1 hz <;> cases h

theorem rootRes_of_specialNan {r : FRes} (h : specialNan t [a] = some r) : t.rootRes mode flush a = r := by
  cases a with
  | nan s => cases s <;> exact Option.some.inj h
  | inf i => cases h
  | fin i m e => cases h

/-- A product with an infinity is one. -/
theorem mulVal_of_inf (h : (∃ i, a = .inf i) ∨ ∃ i, b = .inf i) :
    mulVal a b = .inf (a.isNeg != b.isNeg) := by
  rcases h with ⟨i, rfl⟩ | ⟨i, rfl⟩
  · rfl
  · cases a <;> rfl

end Values

theorem zeroTimesInf_inf_left (i : Bool) (b : FVal) : zeroTimesInf (.inf i) b = b.isZero := by cases b <;> rfl

theorem zeroTimesInf_inf_right (i : Bool) (a : FVal) : zeroTimesInf a (.inf i) = a.isZero := by cases a <;> rfl

/-- Settles O14: the row for NaNs comes first, then zero by infinity, and each other row is a case of the two operands. -/
theorem specialOperands : Obligations.SpecialOperands := by
  intro t x y mode flush a b neg
  have hadd : t.add x y mode flush = (specialNan t [a, b]).getD (t.addVal a b mode flush) := t.add_eq x y mode flush
  have hsub : t.sub x y mode flush = (specialNan t [a, b]).getD (t.addVal a b.neg mode flush) := t.sub_eq x y mode flush
  have hmul : t.mul x y mode flush = if zeroTimesInf a b then t.nanRes true else (specialNan t [a, b]).getD (t.productRes mode flush (mulVal a b)) :=
    t.mul_eq x y mode flush
  have hdiv : t.div x y mode flush = (specialNan t [a, b]).getD (t.quotientRes mode flush a b) := t.div_eq x y mode flush
  have hsqrt : t.sqrt x mode flush = t.rootRes mode flush a := t.sqrt_eq x mode flush
  have hfma (z : Nat) : t.fma x y z mode flush = if zeroTimesInf a b then t.nanRes true else
      (specialNan t [a, b, t.decode (t.flushIn flush z)]).getD (t.addVal (mulVal a b) (t.decode (t.flushIn flush z)) mode flush) :=
    t.fma_eq x y z mode flush
  clear_value a b
  refine ⟨fun r hr => ?nan, fun r hr => ?rootNan, fun hn r hr => ?sumInf, fun hn r hr => ?differenceInf, fun hz => ?zeroTimesInf,
    fun hn h => ?timesInf, ?zeroByZero, ?infByInf, ?infByFinite, ?finiteByInf, ?zeroByFinite, ?rootZero, ?finiteByZero, ?rootNegInf, ?rootNegative,
    ?rootInf, fun z => ?fma⟩
  case nan =>
    have hmul' : t.mul x y mode flush = r := by rw [hmul, if_neg (by simp [zeroTimesInf_of_specialNan hr]), hr]; rfl
    exact ⟨by rw [hadd, hr]; rfl, by rw [hsub, hr]; rfl, hmul', by rw [hdiv, hr]; rfl⟩
  case rootNan => rw [hsqrt, rootRes_of_specialNan hr]
  case sumInf => rw [hadd, hn]; exact addVal_of_specialSum hr
  case differenceInf => rw [hsub, hn]; exact addVal_of_specialSum hr
  case zeroTimesInf => rw [hmul, if_pos (zeroTimesInf_iff.2 hz)]; rfl
  case timesInf =>
    have hz : zeroTimesInf a b = false := by
      rcases h with ⟨⟨i, rfl⟩, h0⟩ | ⟨h0, ⟨i, rfl⟩⟩
      · rw [zeroTimesInf_inf_left]; simpa using h0
      · rw [zeroTimesInf_inf_right]; simpa using h0
    rw [hmul, if_neg (by simp [hz]), hn, mulVal_of_inf (h.imp And.left And.right)]
    rfl
  case zeroByZero =>
    rintro ⟨ha, hb⟩
    obtain ⟨i, e, rfl⟩ := FVal.isZero_iff.1 ha
    obtain ⟨j, k, rfl⟩ := FVal.isZero_iff.1 hb
    exact hdiv
  case infByInf =>
    rintro i j rfl rfl
    exact hdiv
  case infByFinite =>
    rintro i j n e rfl rfl
    exact hdiv
  case finiteByInf =>
    rintro i n e j rfl rfl
    exact hdiv
  case zeroByFinite =>
    rintro j n e ha rfl hn
    obtain ⟨i, k, rfl⟩ := FVal.isZero_iff.1 ha
    exact hdiv.trans (if_neg hn)
  case rootZero =>
    rintro i e rfl
    exact hsqrt
  case finiteByZero =>
    rintro i n e rfl hn hb
    obtain ⟨j, k, rfl⟩ := FVal.isZero_iff.1 hb
    exact hdiv.trans (if_neg hn)
  case rootNegInf =>
    rintro rfl
    exact hsqrt
  case rootNegative =>
    rintro n e rfl hn
    exact hsqrt.trans (if_neg hn)
  case rootInf =>
    rintro rfl
    exact hsqrt
  case fma =>
    refine ⟨fun hz => ?_, fun hz r hr => ?_, fun hz hn r hr => ?_⟩
    · rw [hfma, if_pos (zeroTimesInf_iff.2 hz)]; rfl
    · rw [hfma, if_neg (mt zeroTimesInf_iff.1 hz), hr]; rfl
    · rw [hfma, if_neg (mt zeroTimesInf_iff.1 hz), hn]
      refine addVal_of_specialSum (Eq.trans ?_ hr)
      have ha : a.isNan = false := specialNan_eq_none.1 hn a (by simp)
      have hb : b.isNan = false := specialNan_eq_none.1 hn b (by simp)
      cases a with
      | nan s => cases ha
      | inf i => rfl
      | fin i m e =>
        cases b with
        | nan s => cases hb
        | inf j => rfl
        | fin j n k => exact specialSum_fin ..

end Sys2Proof.Machine
end

section
/-! The decision of a rounding mode, in the words of R197: the magnitude that lies on a grid, what is left of it below one unit, and how far the
rounded magnitude stands from it. -/

namespace Sys2Proof.Machine

variable {K : Type} [Field K] [LinearOrder K] [IsStrictOrderedRing K]

/-- A mode rounds a magnitude away from zero, where `q` units of `u` and less than one more, `r`, make it up (R197). -/
def RoundsUp (mode : Rnd) (neg away : Bool) (q : Nat) (r u : K) : Prop :=
  match mode with
  | .rne => u < 2 * r ∨ 2 * r = u ∧ q % 2 = 1
  | .rna => u ≤ 2 * r
  | .rtz => False
  | .rdn => neg = true ∧ 0 < r
  | .rup => neg = false ∧ 0 < r
  | .sr => away = true

/-- The grid leaves `r` of a magnitude, in units of `u`: its rest, and what of the rest only `sticky` knows. -/
def OnGrid.Leaves (g : OnGrid) (sticky : Bool) (r u : K) : Prop :=
  ∃ d : K, 0 ≤ d ∧ d < 1 ∧ (sticky = true ↔ 0 < d) ∧ (sticky = true → g.shift ≠ 0) ∧ g.rest < 2 ^ g.shift ∧
    r * 2 ^ g.shift = (g.rest + d) * u

namespace OnGrid.Leaves

variable {g : OnGrid} {sticky : Bool} {r u : K}

theorem nonneg (h : g.Leaves sticky r u) (hu : 0 < u) : 0 ≤ r := by
  obtain ⟨d, hd0, -, -, -, -, hr⟩ := h
  have hpow : (0 : K) < 2 ^ g.shift := by positivity
  exact nonneg_of_mul_nonneg_left (hr ▸ by positivity) hpow

theorem lt_unit (h : g.Leaves sticky r u) (hu : 0 < u) : r < u := by
  obtain ⟨d, -, hd1, -, -, hrest, hr⟩ := h
  have hpow : (0 : K) < 2 ^ g.shift := by positivity
  have hlt : (g.rest : K) + d < 2 ^ g.shift := by
    have : (g.rest : K) + 1 ≤ 2 ^ g.shift := by exact_mod_cast hrest
    linarith
  refine lt_of_mul_lt_mul_right ?_ hpow.le
  rw [hr, mul_comm u]
  exact mul_lt_mul_of_pos_right hlt hu

/-- The magnitude is no number of units where there is a rest, or `sticky` stands for one. -/
theorem inexact_iff (h : g.Leaves sticky r u) (hu : 0 < u) : (g.rest != 0 || sticky) = true ↔ 0 < r := by
  obtain ⟨d, hd0, -, hd, -, -, hr⟩ := h
  have hpow : (0 : K) < 2 ^ g.shift := by positivity
  have hpos : 0 < r ↔ 0 < (g.rest : K) + d := by
    rw [← mul_pos_iff_of_pos_right hpow, hr, mul_pos_iff_of_pos_right hu]
  rw [hpos, Bool.or_eq_true, bne_iff_ne, hd]
  constructor
  · rintro (h0 | h0)
    · have : (0 : K) < g.rest := by exact_mod_cast Nat.pos_of_ne_zero h0
      linarith
    · positivity
  · intro hsum
    by_contra! hc
    have : (g.rest : K) = 0 := by exact_mod_cast hc.1
    linarith [hc.2]

/-- The rest against half a unit. -/
theorem half_cases (h : g.Leaves sticky r u) (hu : 0 < u) :
    (2 * g.rest < 2 ^ g.shift ∧ 2 * r < u) ∨
    (2 * g.rest = 2 ^ g.shift ∧ g.shift ≠ 0 ∧ sticky = false ∧ 2 * r = u) ∨
    (2 * g.rest = 2 ^ g.shift ∧ g.shift ≠ 0 ∧ sticky = true ∧ u < 2 * r) ∨
    (2 ^ g.shift < 2 * g.rest ∧ g.shift ≠ 0 ∧ u < 2 * r) := by
  obtain ⟨d, hd0, hd1, hd, hshift, hrest, hr⟩ := h
  have hpow : (0 : K) < 2 ^ g.shift := by positivity
  have htwice : 2 * r * 2 ^ g.shift = (2 * g.rest + 2 * d) * u := by linear_combination 2 * hr
  have hlt : (2 * g.rest + 2 * d : K) < 2 ^ g.shift → 2 * r < u := fun hc => by
    refine lt_of_mul_lt_mul_right ?_ hpow.le
    rw [htwice, mul_comm u]
    exact mul_lt_mul_of_pos_right hc hu
  have hgt : (2 ^ g.shift : K) < 2 * g.rest + 2 * d → u < 2 * r := fun hc => by
    refine lt_of_mul_lt_mul_right ?_ hpow.le
    rw [htwice, mul_comm u]
    exact mul_lt_mul_of_pos_right hc hu
  by_cases hs : g.shift = 0
  · have hk : ¬ sticky = true := fun hk => hshift hk hs
    have hrest0 : g.rest = 0 := by rw [hs] at hrest; omega
    have hd' : d = 0 := le_antisymm (not_lt.1 (mt hd.2 hk)) hd0
    exact .inl ⟨by simp [hrest0], hlt (by simp [hrest0, hd', hpow])⟩
  · obtain ⟨n, hn⟩ := Nat.exists_eq_succ_of_ne_zero hs
    rcases lt_trichotomy (2 * g.rest) (2 ^ g.shift) with hc | hc | hc
    · have hstep : (2 * g.rest + 2 : K) ≤ 2 ^ g.shift := by
        have : 2 * g.rest + 2 ≤ 2 ^ g.shift := by rw [hn, Nat.pow_succ] at hc ⊢; omega
        exact_mod_cast this
      exact .inl ⟨hc, hlt (by linarith)⟩
    · have hcK : (2 * g.rest : K) = 2 ^ g.shift := by exact_mod_cast hc
      cases hk : sticky with
      | false =>
        have hd' : d = 0 := le_antisymm (not_lt.1 (mt hd.2 (by simp [hk]))) hd0
        exact .inr (.inl ⟨hc, hs, rfl, mul_right_cancel₀ hpow.ne' (by rw [htwice, hd', hcK]; ring)⟩)
      | true => exact .inr (.inr (.inl ⟨hc, hs, rfl, hgt (by linarith [hd.1 hk])⟩))
    · have hcK : (2 ^ g.shift : K) < 2 * g.rest := by exact_mod_cast hc
      exact .inr (.inr (.inr ⟨hc, hs, hgt (by linarith)⟩))

theorem roundUp_iff (h : g.Leaves sticky r u) (hu : 0 < u) (mode : Rnd) (neg away : Bool) :
    roundUp mode neg away g sticky = true ↔ RoundsUp mode neg away g.q r u := by
  cases mode with
  | rne =>
    rcases h.half_cases hu with ⟨hrest, hr⟩ | ⟨hrest, hs, hk, hr⟩ | ⟨hrest, hs, hk, hr⟩ | ⟨hrest, hs, hr⟩
    · simp [roundUp, RoundsUp, hrest.not_gt, hrest.ne, hr.not_gt, hr.ne]
    · simp [roundUp, RoundsUp, hrest, hs, hk, hr]
    · simp [roundUp, RoundsUp, hrest, hs, hk, hr]
    · simp [roundUp, RoundsUp, hrest, hr]
  | rna =>
    rcases h.half_cases hu with ⟨hrest, hr⟩ | ⟨hrest, hs, hk, hr⟩ | ⟨hrest, hs, hk, hr⟩ | ⟨hrest, hs, hr⟩
    · simp [roundUp, RoundsUp, hrest.not_ge, hr.not_ge]
    · simp [roundUp, RoundsUp, hrest, hs, hr]
    · simp [roundUp, RoundsUp, hrest, hs, hr.le]
    · simp [roundUp, RoundsUp, hrest.le, hs, hr.le]
  | rtz => simp [roundUp, RoundsUp]
  | rdn => rw [roundUp, Bool.and_eq_true, h.inexact_iff hu]; rfl
  | rup => rw [roundUp, Bool.and_eq_true, h.inexact_iff hu, Bool.not_eq_true']; rfl
  | sr => rfl

end OnGrid.Leaves

/-! ## How far the rounded magnitude stands from the exact one -/

/-- The rounded magnitude less the exact one. -/
def roundingError (up : Bool) (r u : K) : K := if up then u - r else -r

section Errors

variable {mode : Rnd} {neg away up : Bool} {q : Nat} {r u : K}

/-- A mode other than SR moves an exact magnitude nowhere. -/
theorem RoundsUp.pos (h : RoundsUp mode neg away q r u) (hsr : mode ≠ .sr) (hu : 0 < u) : 0 < r := by
  cases mode with
  | rne => rcases h with h | ⟨h, -⟩ <;> linarith
  | rna => linarith [show u ≤ 2 * r from h]
  | rtz => exact h.elim
  | rdn => exact h.2
  | rup => exact h.2
  | sr => exact absurd rfl hsr

theorem roundingError_nonpos (hr0 : 0 ≤ r) (hup : up = true ↔ RoundsUp mode neg away q r u) (h : ¬ RoundsUp mode neg away q r u) :
    roundingError up r u ≤ 0 := by
  rw [roundingError, if_neg (mt hup.1 h)]
  exact neg_nonpos.2 hr0

section Decided

variable (hr0 : 0 ≤ r) (hru : r < u) (hup : up = true ↔ RoundsUp mode neg away q r u)
include hr0 hru

theorem abs_roundingError : |roundingError up r u| = if up then u - r else r := by
  cases up
  · exact (abs_neg r).trans (abs_of_nonneg hr0)
  · exact abs_of_pos (sub_pos.2 hru)

theorem abs_roundingError_lt (hpos : up = true → 0 < r) : |roundingError up r u| < u := by
  rw [abs_roundingError hr0 hru]
  split
  · next h => linarith [hpos h]
  · exact hru

theorem roundingError_eq_zero (hpos : up = true → 0 < r) : roundingError up r u = 0 ↔ r = 0 := by
  rw [← abs_eq_zero, abs_roundingError hr0 hru]
  split
  · next h => exact ⟨fun h0 => absurd h0 (sub_pos.2 hru).ne', fun h0 => absurd h0 (hpos h).ne'⟩
  · rfl

include hup

/-- To nearest, the error is at most half a unit. -/
theorem abs_roundingError_le_half (hnear : mode = .rne ∨ mode = .rna) : 2 * |roundingError up r u| ≤ u := by
  have hhigh (h : up = true) : u ≤ 2 * r := by
    rcases hnear with rfl | rfl
    · rcases hup.1 h with hr | ⟨hr, -⟩ <;> linarith
    · exact hup.1 h
  have hlow (h : ¬ up = true) : 2 * r ≤ u := by
    rcases hnear with rfl | rfl
    · exact not_lt.1 fun hr => h (hup.2 (.inl hr))
    · exact (not_le.1 fun hr => h (hup.2 hr)).le
  rw [abs_roundingError hr0 hru]
  split
  · next h => linarith [hhigh h]
  · next h => exact hlow h

/-- At a tie RNE takes the even one of the two neighbours. -/
theorem even_of_tie (hmode : mode = .rne) (htie : 2 * |roundingError up r u| = u) : (if up then q + 1 else q) % 2 = 0 := by
  subst hmode
  rw [abs_roundingError hr0 hru] at htie
  have hhalf : 2 * r = u := by split at htie <;> linarith
  have hodd : up = true ↔ q % 2 = 1 := by simpa [RoundsUp, hhalf] using hup
  split
  · next h => have := hodd.1 h; omega
  · next h => have := mt hodd.2 h; omega

theorem up_of_tie (hmode : mode = .rna) (htie : 2 * |roundingError up r u| = u) : up = true := by
  subst hmode
  rw [hup, RoundsUp]
  rw [abs_roundingError hr0 hru] at htie
  split at htie <;> linarith

theorem roundingError_nonneg (h : 0 < r → RoundsUp mode neg away q r u) : 0 ≤ roundingError up r u := by
  rcases hr0.eq_or_lt with h0 | h0
  · subst h0
    unfold roundingError
    split <;> simp [hru.le]
  · rw [roundingError, if_pos (hup.2 (h h0))]
    exact (sub_pos.2 hru).le

end Decided

/-- The magnitude that the decision gives is the exact one and the error. -/
theorem rounded_eq_add_roundingError {F : Type} [Field F] (up : Bool) (q : Nat) (r u : F) :
    ((if up then q + 1 else q : Nat) : F) * u = q * u + r + roundingError up r u := by
  unfold roundingError
  split <;> push_cast <;> ring

end Errors

/-! ## A magnitude on a grid -/

/-- The magnitude `m * 2^e` on the grid of `2^lsb`. -/
def gridAt (lsb : Int) (m : Nat) (e : Int) : OnGrid :=
  let sh := lsb - e
  if sh ≤ 0 then { lsb := lsb, q := m * 2 ^ (-sh).toNat, rest := 0, shift := 0 }
  else { lsb := lsb, q := m / 2 ^ sh.toNat, rest := m % 2 ^ sh.toNat, shift := sh.toNat }

/-- What a grid leaves of a magnitude; where only its first bits are known, the grid must lie above the last of them. -/
theorem gridAt_leaves (lsb : Int) (m : Nat) (e : Int) {sticky : Bool} {d : K} (hd0 : 0 ≤ d) (hd1 : d < 1) (hd : sticky = true ↔ 0 < d)
    (hs : sticky = true → e < lsb) :
    ∃ r : K, (gridAt lsb m e).Leaves sticky r (2 ^ lsb) ∧ (m + d) * (2 : K) ^ e = (gridAt lsb m e).q * (2 : K) ^ lsb + r := by
  have h2 : (2 : K) ≠ 0 := two_ne_zero
  by_cases hle : lsb ≤ e
  · obtain ⟨n, rfl⟩ : ∃ n : Nat, e = lsb + n := ⟨(e - lsb).toNat, by omega⟩
    have hk : ¬ sticky = true := fun hk => by have := hs hk; omega
    have hd' : d = 0 := le_antisymm (not_lt.1 (mt hd.2 hk)) hd0
    have hg : gridAt lsb m (lsb + n) = { lsb := lsb, q := m * 2 ^ n, rest := 0, shift := 0 } := by simp [gridAt]
    rw [hg]
    refine ⟨0, ⟨0, le_rfl, zero_lt_one, by simpa using hk, fun h => absurd h hk, by simp, by simp⟩, ?_⟩
    rw [hd', zpow_add₀ h2, zpow_natCast]
    push_cast
    ring
  · obtain ⟨n, rfl⟩ : ∃ n : Nat, lsb = e + n := ⟨(lsb - e).toNat, by omega⟩
    have hn : n ≠ 0 := by omega
    have hg : gridAt (e + n) m e = { lsb := e + n, q := m / 2 ^ n, rest := m % 2 ^ n, shift := n } := by simp [gridAt, hn]
    have hm : (m : K) = 2 ^ n * (m / 2 ^ n : Nat) + (m % 2 ^ n : Nat) := by exact_mod_cast (Nat.div_add_mod m (2 ^ n)).symm
    rw [hg]
    refine ⟨((m % 2 ^ n : Nat) + d) * 2 ^ e, ⟨d, hd0, hd1, hd, fun _ => hn, Nat.mod_lt _ (by positivity), ?_⟩, ?_⟩
    · rw [zpow_add₀ h2, zpow_natCast]
      ring
    · rw [zpow_add₀ h2, zpow_natCast]
      linear_combination (2 : K) ^ e * hm

end Sys2Proof.Machine
end

section
/-! Floats to integers (R219). -/

namespace Sys2Proof.Machine

theorem gridAt_zero (m : Nat) (e : Int) : gridAt 0 m e =
    { lsb := 0, q := if 0 ≤ e then m * 2 ^ e.toNat else m / 2 ^ (-e).toNat, rest := if 0 ≤ e then 0 else m % 2 ^ (-e).toNat,
      shift := (-e).toNat } := by
  by_cases he : 0 ≤ e
  · have hshift : (-e).toNat = 0 := Int.toNat_of_nonpos (by omega)
    simp [gridAt, he, hshift]
  · simp [gridAt, he]

theorem roundToInt_eq (neg : Bool) (m : Nat) (e : Int) (rnd : Rnd) : roundToInt neg m e rnd =
    let g := gridAt 0 m e
    (sigInt neg (if roundUp rnd neg false g false then g.q + 1 else g.q), g.rest != 0) := by
  rw [gridAt_zero]
  rfl

theorem sigInt_cast (K : Type) [Ring K] (neg : Bool) (n : Nat) : (sigInt neg n : K) = (if neg then -1 else 1) * n := by
  cases neg <;> simp [sigInt]

theorem sigInt_even {neg : Bool} {n : Nat} (h : n % 2 = 0) : sigInt neg n % 2 = 0 := by
  unfold sigInt
  split <;> omega

/-- A finite value on the grid of the integers: the integer that the mode's decision gives, and whether there is a rest. -/
theorem roundToInt_decided (neg : Bool) (m : Nat) (e : Int) (rnd : Rnd) : ∃ (q : Nat) (r : ℚ) (up : Bool), 0 ≤ r ∧ r < 1 ∧
    (up = true ↔ RoundsUp rnd neg false q r 1) ∧ m * (2 : ℚ) ^ e = q + r ∧
    (roundToInt neg m e rnd).1 = sigInt neg (if up then q + 1 else q) ∧ ((roundToInt neg m e rnd).2 = true ↔ 0 < r) := by
  obtain ⟨r, hl, hx⟩ := gridAt_leaves (K := ℚ) 0 m e (sticky := false) le_rfl zero_lt_one (by simp) (by simp)
  rw [zpow_zero] at hl hx
  rw [add_zero, mul_one] at hx
  have hinexact := hl.inexact_iff one_pos
  rw [Bool.or_false] at hinexact
  exact ⟨_, r, _, hl.nonneg one_pos, hl.lt_unit one_pos, hl.roundUp_iff one_pos rnd neg false, hx, by rw [roundToInt_eq], by rwa [roundToInt_eq]⟩

/-- A finite value is converted to the integer next to it that the mode chooses, where the type holds that. -/
theorem cvtFloatInt_finite (dst : Ty) {rnd : Rnd} (hsr : rnd ≠ .sr) (neg : Bool) (m : Nat) (e : Int) :
    let x : Rat := (if neg then -1 else 1) * m * (2 : Rat) ^ e
    ∃ v : Int, |(v : Rat) - x| < 1 ∧
      (rnd = .rdn → (v : Rat) ≤ x) ∧ (rnd = .rup → x ≤ v) ∧ (rnd = .rtz → |(v : Rat)| ≤ |x|) ∧
      (rnd = .rne ∨ rnd = .rna → |(v : Rat) - x| ≤ 1 / 2) ∧
      (rnd = .rne → |(v : Rat) - x| = 1 / 2 → v % 2 = 0) ∧ (rnd = .rna → |(v : Rat) - x| = 1 / 2 → |x| ≤ |(v : Rat)|) ∧
      cvtFloatInt dst (.fin neg m e) rnd =
        if v < Ty.least dst then { bits := intBits dst (Ty.least dst), flags := 0x10 }
        else if Ty.greatest dst < v then { bits := intBits dst (Ty.greatest dst), flags := 0x10 }
        else { bits := intBits dst v, flags := if (v : Rat) = x then 0 else 0x01 } := by
  intro x
  obtain ⟨q, r, up, hr0, hr1, hup, hx, hint, hrest⟩ := roundToInt_decided neg m e rnd
  have hpos : up = true → 0 < r := fun h => (hup.1 h).pos hsr one_pos
  have hy : ((if up then q + 1 else q : Nat) : ℚ) = q + r + roundingError up r 1 := by
    simpa using rounded_eq_add_roundingError up q r (1 : ℚ)
  have hx' : x = (if neg then -1 else 1) * (q + r) := by rw [← hx]; ring
  have heven := even_of_tie hr0 hr1 hup
  generalize (if up then q + 1 else q) = y at *
  have hv : (sigInt neg y : ℚ) = (if neg then -1 else 1) * (q + r + roundingError up r 1) := by rw [sigInt_cast, hy]
  have hsign (z : ℚ) : |(if neg then -1 else 1) * z| = |z| := by cases neg <;> simp
  have hdist : (sigInt neg y : ℚ) - x = (if neg then -1 else 1) * roundingError up r 1 := by rw [hv, hx']; ring
  have habs : |(sigInt neg y : ℚ) - x| = |roundingError up r 1| := by rw [hdist, hsign]
  have hxabs : |x| = q + r := by rw [hx', hsign, abs_of_nonneg (by positivity)]
  have hvabs : |(sigInt neg y : ℚ)| = q + r + roundingError up r 1 := by rw [hv, hsign, ← hy, abs_of_nonneg (by positivity)]
  have hflag : (roundToInt neg m e rnd).2 = true ↔ (sigInt neg y : ℚ) ≠ x := by
    rw [← sub_ne_zero, ← abs_ne_zero, habs, abs_ne_zero, Ne, roundingError_eq_zero hr0 hr1 hpos, hrest, hr0.lt_iff_ne']
  have hdown (h : roundingError up r 1 ≤ 0) : if neg then x ≤ sigInt neg y else (sigInt neg y : ℚ) ≤ x := by
    cases neg <;> simp at hdist ⊢ <;> linarith
  have hfar (h : 0 ≤ roundingError up r 1) : if neg then (sigInt neg y : ℚ) ≤ x else x ≤ sigInt neg y := by
    cases neg <;> simp at hdist ⊢ <;> linarith
  clear_value x
  refine ⟨sigInt neg y, ?lt, ?rdn, ?rup, ?rtz, ?near, ?rne, ?rna, ?result⟩
  case lt => rw [habs]; exact abs_roundingError_lt hr0 hr1 hpos
  case rdn =>
    rintro rfl
    cases neg with
    | false => exact hdown (roundingError_nonpos hr0 hup (by simp [RoundsUp]))
    | true => exact hfar (roundingError_nonneg hr0 hr1 hup fun h => ⟨rfl, h⟩)
  case rup =>
    rintro rfl
    cases neg with
    | false => exact hfar (roundingError_nonneg hr0 hr1 hup fun h => ⟨rfl, h⟩)
    | true => exact hdown (roundingError_nonpos hr0 hup (by simp [RoundsUp]))
  case rtz =>
    rintro rfl
    rw [hvabs, hxabs]
    linarith [roundingError_nonpos hr0 hup id]
  case near =>
    intro h
    rw [habs]
    linarith [abs_roundingError_le_half hr0 hr1 hup h]
  case rne =>
    intro h htie
    exact sigInt_even (heven h (by rw [← habs, htie]; norm_num))
  case rna =>
    intro h htie
    have hu : up = true := up_of_tie hr0 hr1 hup h (by rw [← habs, htie]; norm_num)
    rw [hvabs, hxabs, hu, roundingError, if_pos rfl]
    linarith
  case result =>
    simp only [cvtFloatInt, hint, hflag, ite_not, ne_eq]
    rfl

/-- Settles O16: integers by their numbers, and finite floats by what the grid of the integers leaves of them. -/
theorem conversionsToIntegers : Obligations.ConversionsToIntegers :=
  ⟨fun _ _ _ hd hs hsw hdw h => cvt_integers hd hs hsw hdw h,
    fun dst _ _ hsr => ⟨fun _ => rfl, fun _ => rfl, cvtFloatInt_finite dst hsr⟩⟩

end Sys2Proof.Machine
end

section
/-! `Round` on the scale of a format (R197): the grid of an exact real, the values of the scale beside it, and the one that a mode chooses. -/

namespace Sys2Proof.Machine

/-! ## The grid of an exact real -/

section Grid

variable {t : Fmt} {x : Exact} {v : ℝ}

/-- A magnitude `a` is `q` units of the last bit of a grid and a rest `r`; the grid is that of the format's precision, or of its subnormals. -/
structure Fmt.Grids (t : Fmt) (g : OnGrid) (sticky : Bool) (a r : ℝ) : Prop where
  leaves : g.Leaves sticky r ((2 : ℝ) ^ g.lsb)
  sum : a = g.q * (2 : ℝ) ^ g.lsb + r
  lsb_ge : t.minLsb ≤ g.lsb
  q_lt : g.q < 2 ^ (t.mb + 1)
  q_ge : t.minLsb < g.lsb → 2 ^ t.mb ≤ g.q

/-- What an exact real stands for, by its significand and a part of its last bit. -/
theorem Exact.Stands.magnitude (h : x.Stands t v) :
    ∃ d : ℝ, 0 ≤ d ∧ d < 1 ∧ (x.sticky = true ↔ 0 < d) ∧ |v| = (x.m + d) * (2 : ℝ) ^ x.e := by
  obtain ⟨-, -, h⟩ := h
  have hpow : (0 : ℝ) < 2 ^ x.e := by positivity
  cases hs : x.sticky
  · rw [hs, if_neg Bool.false_ne_true] at h
    exact ⟨0, le_rfl, zero_lt_one, by simp, by rw [h, add_zero]⟩
  · rw [hs, if_pos rfl] at h
    obtain ⟨-, hlo, hhi⟩ := h
    refine ⟨|v| / 2 ^ x.e - x.m, ?_, ?_, ?_, ?_⟩
    · rw [sub_nonneg, le_div_iff₀ hpow]; exact hlo.le
    · rw [sub_lt_iff_lt_add', div_lt_iff₀ hpow, add_comm]; linarith
    · rw [sub_pos, lt_div_iff₀ hpow]; simpa using hlo
    · field_simp; ring

theorem Exact.Stands.le_log2 (h : x.Stands t v) (hs : x.sticky = true) : t.mb + 1 ≤ Nat.log2 x.m := by
  obtain ⟨-, -, h⟩ := h
  rw [if_pos hs] at h
  have hm : x.m ≠ 0 := by
    have := h.1
    have : 0 < 2 ^ (t.mb + 1) := by positivity
    omega
  exact (Nat.le_log2 hm).2 h.1

@[simp] theorem gridAt_lsb (lsb : Int) (m : Nat) (e : Int) : (gridAt lsb m e).lsb = lsb := by
  unfold gridAt
  dsimp only
  split <;> rfl

theorem two_zpow_mul_le {a b : Int} (n : Nat) (h : n + a ≤ b) : (2 : ℝ) ^ n * 2 ^ a ≤ 2 ^ b := by
  rw [← zpow_natCast, ← zpow_add₀ two_ne_zero]
  exact zpow_le_zpow_right₀ one_le_two h

theorem le_two_zpow_mul {a b : Int} (n : Nat) (h : b ≤ n + a) : (2 : ℝ) ^ b ≤ 2 ^ n * 2 ^ a := by
  rw [← zpow_natCast, ← zpow_add₀ two_ne_zero]
  exact zpow_le_zpow_right₀ one_le_two h

theorem Fmt.grids_of_stands (hm : x.m ≠ 0) (h : x.Stands t v) : ∃ r, t.Grids (t.grid x) x.sticky |v| r := by
  obtain ⟨d, hd0, hd1, hd, hv⟩ := h.magnitude
  have hgrid : t.grid x = gridAt (max ((Nat.log2 x.m : Int) + x.e - t.mb) t.minLsb) x.m x.e := rfl
  have hs : x.sticky = true → x.e < max ((Nat.log2 x.m : Int) + x.e - t.mb) t.minLsb := fun hk => by
    have := h.le_log2 hk
    omega
  obtain ⟨r, hl, hsum⟩ := gridAt_leaves _ x.m x.e hd0 hd1 hd hs
  rw [← hv] at hsum
  have hlsb := gridAt_lsb (max ((Nat.log2 x.m : Int) + x.e - t.mb) t.minLsb) x.m x.e
  rw [← hgrid] at hl hsum hlsb
  rw [← hlsb] at hl hsum
  have hu : (0 : ℝ) < 2 ^ (t.grid x).lsb := by positivity
  have hr0 := hl.nonneg hu
  have hru := hl.lt_unit hu
  have hlow : (2 : ℝ) ^ (Nat.log2 x.m + x.e) ≤ |v| := by
    have hlog : ((2 : ℝ) ^ Nat.log2 x.m) ≤ x.m := by exact_mod_cast Nat.log2_self_le hm
    rw [hv, zpow_add₀ two_ne_zero, zpow_natCast]
    gcongr
    linarith
  have hhigh : |v| < (2 : ℝ) ^ (Nat.log2 x.m + 1 + x.e) := by
    have hlog : (x.m : ℝ) + 1 ≤ 2 ^ (Nat.log2 x.m + 1) := by exact_mod_cast Nat.lt_log2_self
    rw [hv, zpow_add₀ two_ne_zero, ← Nat.cast_succ, zpow_natCast, Nat.succ_eq_add_one]
    gcongr
    linarith
  refine ⟨r, hl, hsum, by omega, ?_, fun hmin => ?_⟩
  · have hpow := le_two_zpow_mul (t.mb + 1) (show (Nat.log2 x.m + 1 + x.e : Int) ≤ (t.mb + 1 : Nat) + (t.grid x).lsb by omega)
    have hlt : ((t.grid x).q : ℝ) < 2 ^ (t.mb + 1) := lt_of_mul_lt_mul_right (by linarith) hu.le
    exact_mod_cast hlt
  · have hpow := two_zpow_mul_le t.mb (show (t.mb : Int) + (t.grid x).lsb ≤ Nat.log2 x.m + x.e by omega)
    have hlt : (2 : ℝ) ^ t.mb < ((t.grid x).q + 1 : ℝ) := lt_of_mul_lt_mul_right (by linarith) hu.le
    have : 2 ^ t.mb < (t.grid x).q + 1 := by exact_mod_cast hlt
    omega

end Grid

/-! ## The scale of a format -/

section Scale

variable {t : Fmt} {q : Nat} {k : Int} {z : ℝ}

theorem Fmt.Scaled.neg {n : Int} (h : t.Scaled z n k) : t.Scaled (-z) (-n) k := by
  obtain ⟨hz, hn, hk⟩ := h
  exact ⟨by rw [hz]; push_cast; ring, by rwa [abs_neg], hk⟩

theorem Fmt.OnScale.neg (h : t.OnScale z) : t.OnScale (-z) := by
  obtain ⟨n, k, h⟩ := h
  exact ⟨-n, k, h.neg⟩

theorem Fmt.scaled_of_le (hq : q ≤ 2 ^ (t.mb + 1)) (hk : t.minLsb ≤ k) : t.Scaled (q * (2 : ℝ) ^ k) q k :=
  ⟨by push_cast; rfl, by rw [Nat.abs_cast]; exact_mod_cast hq, hk⟩

/-- Nothing on the scale lies between two neighbours of a grid. -/
theorem Fmt.OnScale.gap (hz : t.OnScale z) (hq : t.minLsb < k → 2 ^ t.mb ≤ q) :
    |z| ≤ q * (2 : ℝ) ^ k ∨ (q + 1) * (2 : ℝ) ^ k ≤ |z| := by
  obtain ⟨n, j, hz, hn, hj⟩ := hz
  have habs : |z| = n.natAbs * (2 : ℝ) ^ j := by
    rw [hz, abs_mul, abs_of_pos (show (0 : ℝ) < 2 ^ j by positivity), Nat.cast_natAbs, Int.cast_abs]
  rw [habs]
  by_cases hkj : k ≤ j
  · obtain ⟨i, rfl⟩ : ∃ i : Nat, j = k + i := ⟨(j - k).toNat, by omega⟩
    have hmul : (n.natAbs : ℝ) * 2 ^ (k + i : Int) = (n.natAbs * 2 ^ i : Nat) * (2 : ℝ) ^ k := by
      rw [zpow_add₀ two_ne_zero, zpow_natCast]; push_cast; ring
    rw [hmul]
    rcases Nat.lt_or_ge q (n.natAbs * 2 ^ i) with h | h
    · right; gcongr; exact_mod_cast h
    · left; gcongr
  · left
    have hmin : t.minLsb < k := lt_of_le_of_lt hj (by omega)
    have hnat : (n.natAbs : ℝ) ≤ 2 ^ (t.mb + 1) := by
      have : (n.natAbs : Int) ≤ 2 ^ (t.mb + 1) := by rwa [Int.natCast_natAbs]
      exact_mod_cast this
    have hqR : (2 : ℝ) ^ t.mb ≤ q := by exact_mod_cast hq hmin
    calc (n.natAbs : ℝ) * 2 ^ j ≤ 2 ^ (t.mb + 1) * 2 ^ j := by gcongr
      _ = 2 ^ t.mb * (2 ^ (1 : ℕ) * 2 ^ j) := by ring
      _ ≤ 2 ^ t.mb * 2 ^ k := by gcongr; exact two_zpow_mul_le 1 (by omega)
      _ ≤ q * 2 ^ k := by gcongr

end Scale

end Sys2Proof.Machine
end

section
/-! The value of the scale that a mode chooses (R197). -/

namespace Sys2Proof.Machine

/-! ## A positive real -/

section Positive

variable {t : Fmt} {mode : Rnd} {away up : Bool} {q : Nat} {r u v y z : ℝ}

/-- A positive real `v`, the neighbours of a grid beside it, with nothing of the scale between them, and the decision for one of them. -/
structure Fmt.Decides (t : Fmt) (mode : Rnd) (away up : Bool) (q : Nat) (r u v : ℝ) : Prop where
  rest_nonneg : 0 ≤ r
  rest_lt : r < u
  decision : up = true ↔ RoundsUp mode false away q r u
  away_rest : mode = .sr → away = true → 0 < r
  sum : v = q * u + r
  gap : ∀ z, t.OnScale z → |z| ≤ q * u ∨ (q + 1) * u ≤ |z|

namespace Fmt.Decides

theorem unit_pos (h : t.Decides mode away up q r u v) : 0 < u := h.rest_nonneg.trans_lt h.rest_lt

theorem low_nonneg (h : t.Decides mode away up q r u v) : 0 ≤ q * u := mul_nonneg (Nat.cast_nonneg q) h.unit_pos.le

theorem nonneg (h : t.Decides mode away up q r u v) : 0 ≤ v := by linarith [h.sum, h.low_nonneg, h.rest_nonneg]

theorem pos_of_up (h : t.Decides mode away up q r u v) (hu : up = true) : 0 < r := by
  by_cases hsr : mode = .sr
  · subst hsr
    exact h.away_rest rfl (h.decision.1 hu)
  · exact (h.decision.1 hu).pos hsr h.unit_pos

theorem gap_signed (h : t.Decides mode away up q r u v) (hz : t.OnScale z) : z ≤ q * u ∨ (q + 1) * u ≤ z := by
  have hq := h.low_nonneg
  rcases le_total 0 z with h0 | h0
  · simpa only [abs_of_nonneg h0] using h.gap z hz
  · exact .inl (h0.trans hq)

/-- To nearest, the error is no greater than the distance to either neighbour. -/
theorem abs_error_le (h : t.Decides mode away up q r u v) (hnear : mode = .rne ∨ mode = .rna) :
    |roundingError up r u| ≤ r ∧ |roundingError up r u| ≤ u - r := by
  have hhalf := abs_roundingError_le_half h.rest_nonneg h.rest_lt h.decision hnear
  rw [abs_roundingError h.rest_nonneg h.rest_lt] at hhalf ⊢
  split
  · next hu => rw [if_pos hu] at hhalf; exact ⟨by linarith, le_rfl⟩
  · next hu => rw [if_neg hu] at hhalf; exact ⟨le_rfl, by linarith⟩

theorem nearest (h : t.Decides mode away up q r u v) (hnear : mode = .rne ∨ mode = .rna) (hz : t.OnScale z) :
    |roundingError up r u| ≤ |z - v| := by
  obtain ⟨hlow, hhigh⟩ := h.abs_error_le hnear
  have hsum := h.sum
  rw [le_abs]
  rcases h.gap_signed hz with hg | hg
  · right; linarith
  · left; linarith

/-- Where another value of the scale is as near, it is the other neighbour, and the real lies halfway. -/
theorem tie (h : t.Decides mode away up q r u v) (hnear : mode = .rne ∨ mode = .rna) (hz : t.OnScale z)
    (heq : |z - v| = |roundingError up r u|) (hne : z ≠ v + roundingError up r u) :
    2 * |roundingError up r u| = u ∧ |z| ≤ (q + 1) * u := by
  obtain ⟨hlow, hhigh⟩ := h.abs_error_le hnear
  have hsum := h.sum
  have hq := h.low_nonneg
  have hu := h.unit_pos
  have herr := abs_roundingError (up := up) h.rest_nonneg h.rest_lt
  unfold roundingError at hne
  rcases h.gap_signed hz with hg | hg
  · have hdist : |z - v| = v - z := by rw [abs_of_nonpos] <;> linarith [h.rest_nonneg]
    cases up with
    | false => exact absurd (by simp at herr ⊢; linarith) hne
    | true =>
      simp only [if_true] at herr
      exact ⟨by linarith, abs_le.2 ⟨by linarith, by linarith⟩⟩
  · have hdist : |z - v| = z - v := by rw [abs_of_nonneg]; linarith [h.rest_lt]
    cases up with
    | true => exact absurd (by simp at herr ⊢; linarith) hne
    | false =>
      simp only [Bool.false_eq_true, if_false] at herr
      exact ⟨by linarith, abs_le.2 ⟨by linarith, by linarith⟩⟩

/-- A value of the scale beyond the real is beyond its upper neighbour, where the real is not its lower one. -/
theorem high_le (h : t.Decides mode away up q r u v) (hr : 0 < r) (hz : t.OnScale z) (hvz : v ≤ z) : (q + 1) * u ≤ z :=
  (h.gap_signed hz).resolve_left (by linarith [h.sum])

theorem le_low (h : t.Decides mode away up q r u v) (hz : t.OnScale z) (hzv : z ≤ v) : z ≤ q * u :=
  (h.gap_signed hz).resolve_right (by linarith [h.sum, h.rest_lt])

theorem abs_le_low (h : t.Decides mode away up q r u v) (hz : t.OnScale z) (hzv : |z| ≤ |v|) : |z| ≤ q * u := by
  rw [abs_of_nonneg h.nonneg] at hzv
  exact (h.gap z hz).resolve_right (by linarith [h.sum, h.rest_lt])

theorem high_le_abs (h : t.Decides mode away up q r u v) (hr : 0 < r) (hz : t.OnScale z) (hvz : |v| ≤ |z|) : (q + 1) * u ≤ |z| := by
  rw [abs_of_nonneg h.nonneg] at hvz
  exact (h.gap z hz).resolve_left (by linarith [h.sum])

/-- The value that the decision gives is the one that R197 names. -/
theorem roundsTo {k : Int} (h : t.Decides mode away up q r u v) (hy : y = ((if up then q + 1 else q : Nat) : ℝ) * u)
    (hscale : t.Scaled y (if up then q + 1 else q : Nat) k) : t.RoundsTo mode away v y := by
  have herr : y = v + roundingError up r u := by rw [hy, h.sum, rounded_eq_add_roundingError]
  have hv := h.nonneg
  have hlow : up = false → y = q * u := fun hu => by rw [hy, hu]; simp
  have hhigh : up = true → y = (q + 1) * u := fun hu => by rw [hy, hu]; simp
  have hy0 : 0 ≤ y := by rw [hy]; exact mul_nonneg (Nat.cast_nonneg _) h.unit_pos.le
  have hdist : |y - v| = |roundingError up r u| := by rw [herr, add_sub_cancel_left]
  have hdown (hn : ¬ RoundsUp mode false away q r u) : up = false := Bool.eq_false_iff.2 (mt h.decision.1 hn)
  refine ⟨⟨_, k, hscale⟩, mul_nonneg hv hy0, fun z hz => ?_⟩
  have toward (hu : up = false) : |y| ≤ |v| ∧ (|z| ≤ |v| → |z| ≤ |y|) := by
    rw [abs_of_nonneg hy0, hlow hu]
    exact ⟨by rw [abs_of_nonneg hv]; linarith [h.sum, h.rest_nonneg], h.abs_le_low hz⟩
  cases mode with
  | rne =>
    dsimp only
    rw [hdist]
    refine ⟨h.nearest (.inl rfl) hz, fun heq hne => ⟨_, k, hscale, ?_⟩⟩
    exact_mod_cast even_of_tie h.rest_nonneg h.rest_lt h.decision rfl (h.tie (.inl rfl) hz heq (herr ▸ hne)).1
  | rna =>
    dsimp only
    rw [hdist]
    refine ⟨h.nearest (.inr rfl) hz, fun heq => ?_⟩
    by_cases hne : z = y
    · rw [hne]
    · obtain ⟨htie, hzle⟩ := h.tie (.inr rfl) hz heq (herr ▸ hne)
      rw [abs_of_nonneg hy0, hhigh (up_of_tie h.rest_nonneg h.rest_lt h.decision rfl htie)]
      exact hzle
  | rtz => exact toward (hdown id)
  | rdn =>
    have hu : up = false := hdown (by simp [RoundsUp])
    rw [hlow hu]
    exact ⟨by linarith [h.sum, h.rest_nonneg], h.le_low hz⟩
  | rup =>
    cases hup : up with
    | true =>
      rw [hhigh hup]
      exact ⟨by linarith [h.sum, h.rest_lt], h.high_le (h.pos_of_up hup) hz⟩
    | false =>
      have hr : r = 0 := le_antisymm (not_lt.1 fun hr => by simpa [hup] using h.decision.2 ⟨rfl, hr⟩) h.rest_nonneg
      rw [hlow hup, h.sum, hr, add_zero]
      exact ⟨le_rfl, id⟩
  | sr =>
    have haway : up = away := Bool.eq_iff_iff.2 h.decision
    cases hup : away with
    | true =>
      have hr := h.pos_of_up (haway.trans hup)
      dsimp only
      rw [if_pos rfl, abs_of_nonneg hy0, hhigh (haway.trans hup)]
      exact ⟨by rw [abs_of_nonneg hv]; linarith [h.sum, h.rest_lt], h.high_le_abs hr hz⟩
    | false => exact toward (haway.trans hup)

end Fmt.Decides

end Positive

/-! ## A negative real -/

/-- The mode that does to the magnitude of a negative real what `mode` does to the real. -/
def mirrored : Rnd → Rnd
  | .rdn => .rup
  | .rup => .rdn
  | m => m

theorem mirrored_eq_sr {mode : Rnd} : mirrored mode = .sr ↔ mode = .sr := by
  cases mode <;> simp [mirrored]

theorem roundsUp_mirrored {K : Type} [Field K] [LinearOrder K] (mode : Rnd) (away : Bool) (q : Nat) (r u : K) :
    RoundsUp mode true away q r u ↔ RoundsUp (mirrored mode) false away q r u := by
  cases mode <;> simp [RoundsUp, mirrored]

theorem Fmt.RoundsTo.neg {t : Fmt} {mode : Rnd} {away : Bool} {v y : ℝ} (h : t.RoundsTo (mirrored mode) away v y) :
    t.RoundsTo mode away (-v) (-y) := by
  obtain ⟨hy, hsign, hz⟩ := h
  refine ⟨hy.neg, by simpa using hsign, fun z hzs => ?_⟩
  have hdist : |-y - -v| = |y - v| := by rw [← abs_neg]; congr 1; ring
  have hdistz : |z - -v| = |-z - v| := by rw [← abs_neg]; congr 1; ring
  have hz := hz (-z) hzs.neg
  cases mode with
  | rne =>
    dsimp only [mirrored] at hz ⊢
    rw [hdist, hdistz]
    refine ⟨hz.1, fun heq hne => ?_⟩
    obtain ⟨n, k, hnk, hn⟩ := hz.2 heq fun h => hne (neg_eq_iff_eq_neg.1 h)
    exact ⟨-n, k, hnk.neg, by omega⟩
  | rna =>
    dsimp only [mirrored] at hz ⊢
    rw [hdist, hdistz]
    simpa using hz
  | rtz => simpa [mirrored] using hz
  | rdn =>
    dsimp only [mirrored] at hz ⊢
    exact ⟨neg_le_neg hz.1, fun h => le_neg.1 (hz.2 (le_neg.1 h))⟩
  | rup =>
    dsimp only [mirrored] at hz ⊢
    exact ⟨neg_le_neg hz.1, fun h => neg_le.1 (hz.2 (neg_le.1 h))⟩
  | sr => simpa [mirrored] using hz

end Sys2Proof.Machine
end

section
/-! The encoding that `Round` gives (R194, R195, R198 to R200): its fields, its value, and what the limits of a format say of a rounded magnitude. -/

namespace Sys2Proof.Machine

/-! ## Encodings of given fields -/

section Encodings

variable {t : Fmt} {neg : Bool} {e m : Nat}

/-- The fields of an encoding are read back. -/
theorem Fmt.decode_signed (he : e < 2 ^ t.eb) (hm : m < 2 ^ t.mb) : t.decode (t.signed neg (e * 2 ^ t.mb + m)) = t.ofFields neg e m := by
  have hmpos : 0 < 2 ^ t.mb := by positivity
  have hlt : e * 2 ^ t.mb + m < t.signBit := by
    calc e * 2 ^ t.mb + m < (e + 1) * 2 ^ t.mb := by rw [Nat.add_mul]; omega
      _ ≤ 2 ^ t.eb * 2 ^ t.mb := Nat.mul_le_mul_right _ he
      _ = t.signBit := (Nat.pow_add ..).symm
  have hbits : t.signed neg (e * 2 ^ t.mb + m) = (neg.toNat * 2 ^ t.eb + e) * 2 ^ t.mb + m := by
    cases neg
    · simp [Fmt.signed]
    · simp only [Fmt.signed, Fmt.signBit, if_true, Bool.toNat_true, Nat.pow_add]; ring
  have hsign : t.signed neg (e * 2 ^ t.mb + m) / t.signBit = neg.toNat := by
    cases neg
    · exact Nat.div_eq_of_lt hlt
    · rw [Fmt.signed, if_pos rfl, Nat.add_div_left _ (by unfold Fmt.signBit; positivity), Nat.div_eq_of_lt hlt]; rfl
  have hexp : t.signed neg (e * 2 ^ t.mb + m) / 2 ^ t.mb % 2 ^ t.eb = e := by
    rw [hbits, Nat.add_comm, Nat.add_mul_div_right _ _ hmpos, Nat.div_eq_of_lt hm, Nat.zero_add, Nat.mul_add_mod', Nat.mod_eq_of_lt he]
  have hman : t.signed neg (e * 2 ^ t.mb + m) % 2 ^ t.mb = m := by
    rw [hbits, Nat.mul_add_mod', Nat.mod_eq_of_lt hm]
  rw [Fmt.decode_eq_ofFields, hsign, hexp, hman]
  cases neg <;> rfl

end Encodings

/-! ## The formats (R194) -/

/-- What the formats of R194 have in common. -/
structure Fmt.Regular (t : Fmt) : Prop where
  mb_le : t.mb ≤ 23
  lsb_lt : t.minLsb < t.maxLsb
  /-- the exponent field of the greatest finite value -/
  top_field : t.maxLsb + t.mb + t.bias + (if t.ieee then 1 else 0) = 2 ^ t.eb - 1
  maxSig_ge : 2 ^ t.mb ≤ t.maxSig
  maxSig_lt : t.maxSig + (if t.ieee then 0 else 1) < 2 ^ (t.mb + 1)
  decode_maxFinite : ∀ neg, t.decode (t.signed neg t.maxFinite) = .fin neg t.maxSig t.maxLsb
  decode_inf : t.ieee = true → ∀ neg, t.decode (t.signed neg t.inf) = .inf neg
  nan_eq : t.ieee = false → t.nan = 0x7F
  greatest_eq : t.greatest = t.maxSig * (2 : ℝ) ^ t.maxLsb

theorem Fmt.regular_of_mem {t : Fmt} (h : t ∈ [fmtF32, fmtF16, fmtBf16, fmtE4m3, fmtE5m2]) : t.Regular := by
  simp only [List.mem_cons, List.not_mem_nil, or_false] at h
  rcases h with rfl | rfl | rfl | rfl | rfl
  all_goals
    exact ⟨by decide, by decide, by decide, by decide, by decide, by decide, by decide, by decide,
      by norm_num [Fmt.greatest, Fmt.maxSig, Fmt.maxLsb, fmtF32, fmtF16, fmtBf16, fmtE4m3, fmtE5m2]⟩

/-! ## The encoding of a rounded magnitude -/

/-- A rounded magnitude of `y` units of `2^lsb` lies on the scale, with no bound above. -/
structure Fmt.Rounded (t : Fmt) (lsb : Int) (y : Nat) : Prop where
  lsb_ge : t.minLsb ≤ lsb
  le : y ≤ 2 ^ (t.mb + 1)
  ge : t.minLsb < lsb → 2 ^ t.mb ≤ y

section Rounded

variable {t : Fmt} {lsb : Int} {y : Nat}

theorem Fmt.Grids.rounded {g : OnGrid} {sticky : Bool} {a r : ℝ} (h : t.Grids g sticky a r) (up : Bool) :
    t.Rounded g.lsb (if up then g.q + 1 else g.q) := by
  have hlt := h.q_lt
  refine ⟨h.lsb_ge, ?_, fun hmin => ?_⟩
  · split <;> omega
  · have := h.q_ge hmin
    split <;> omega

theorem Fmt.Rounded.tiny_iff (h : t.Rounded lsb y) : y * (2 : ℝ) ^ lsb < 2 ^ (1 - (t.bias : Int)) ↔ lsb = t.minLsb ∧ y < 2 ^ t.mb := by
  have hnormal : (2 : ℝ) ^ (1 - (t.bias : Int)) = 2 ^ t.mb * 2 ^ t.minLsb := by
    rw [← zpow_natCast, ← zpow_add₀ two_ne_zero]
    congr 1
    unfold Fmt.minLsb
    ring
  have hpow : (0 : ℝ) < 2 ^ lsb := by positivity
  rcases h.lsb_ge.eq_or_lt with rfl | hmin
  · rw [hnormal, mul_lt_mul_iff_left₀ hpow]
    norm_cast
    simp
  · have hge : (2 : ℝ) ^ t.mb ≤ y := by exact_mod_cast h.ge hmin
    have hle : (2 : ℝ) ^ t.mb * 2 ^ t.minLsb ≤ y * 2 ^ lsb := by
      gcongr
      exact one_le_two
    rw [hnormal]
    exact ⟨fun hc => absurd hc hle.not_gt, fun hc => absurd hc.1 hmin.ne'⟩

variable (ht : t.Regular)
include ht

/-- Beyond the greatest finite value, by the last bit's exponent and the significand. -/
theorem Fmt.Regular.overflow_iff (h : t.Rounded lsb y) :
    t.greatest < y * (2 : ℝ) ^ lsb ↔ t.maxLsb < lsb ∨ lsb = t.maxLsb ∧ t.maxSig < y := by
  have hsig : (t.maxSig : ℝ) < 2 * 2 ^ t.mb := by
    have := ht.maxSig_lt
    rw [← pow_succ']
    exact_mod_cast (by omega : t.maxSig < 2 ^ (t.mb + 1))
  rw [ht.greatest_eq]
  rcases lt_trichotomy lsb t.maxLsb with hlt | rfl | hgt
  · have hy : (y : ℝ) ≤ 2 * 2 ^ t.mb := by
      rw [← pow_succ']
      exact_mod_cast h.le
    have hmax : (2 : ℝ) ^ t.mb ≤ t.maxSig := by exact_mod_cast ht.maxSig_ge
    have hle : y * (2 : ℝ) ^ lsb ≤ t.maxSig * 2 ^ t.maxLsb := by
      calc y * (2 : ℝ) ^ lsb ≤ 2 * 2 ^ t.mb * 2 ^ lsb := by gcongr
        _ = 2 ^ t.mb * (2 ^ 1 * 2 ^ lsb) := by ring
        _ ≤ 2 ^ t.mb * 2 ^ t.maxLsb := by gcongr; exact two_zpow_mul_le 1 (by omega)
        _ ≤ t.maxSig * 2 ^ t.maxLsb := by gcongr
    exact ⟨fun hc => absurd hc hle.not_gt, fun hc => by omega⟩
  · rw [mul_lt_mul_iff_left₀ (by positivity)]
    norm_cast
    simp
  · have hge : (2 : ℝ) ^ t.mb ≤ y := by exact_mod_cast h.ge (ht.lsb_lt.trans hgt)
    have hlt : t.maxSig * (2 : ℝ) ^ t.maxLsb < y * 2 ^ lsb := by
      calc t.maxSig * (2 : ℝ) ^ t.maxLsb < 2 * 2 ^ t.mb * 2 ^ t.maxLsb := by gcongr
        _ = 2 ^ t.mb * (2 ^ 1 * 2 ^ t.maxLsb) := by ring
        _ ≤ 2 ^ t.mb * 2 ^ lsb := by gcongr; exact two_zpow_mul_le 1 (by omega)
        _ ≤ y * 2 ^ lsb := by gcongr
    exact ⟨fun _ => .inl hgt, fun _ => hlt⟩

theorem Fmt.Regular.field_bound {e : Nat} (he : e ≤ t.maxLsb + t.mb + t.bias) :
    e < 2 ^ t.eb ∧ (e < 2 ^ t.eb - 1 ∨ t.ieee = false ∧ e = t.maxLsb + t.mb + t.bias) := by
  have htop := ht.top_field
  have hpow : ((2 ^ t.eb : Nat) : Int) = 2 ^ t.eb := by push_cast; rfl
  cases hi : t.ieee <;> simp [hi] at htop ⊢ <;> omega

theorem Fmt.Regular.decode_subnormal (neg : Bool) (hy : y < 2 ^ t.mb) : t.decode (t.signed neg y) = .fin neg y t.minLsb := by
  have hfin : t.FiniteFields 0 y := .inl (by
    have := ht.lsb_lt
    have := (ht.field_bound (e := 1) (by unfold Fmt.minLsb at this; omega)).1
    omega)
  simpa [Fmt.ofFields_subnormal hfin] using Fmt.decode_signed (t := t) (neg := neg) (e := 0) (by positivity) hy

/-- The value of a normal encoding by its exponent field. -/
theorem Fmt.Regular.decode_field (neg : Bool) {e m : Nat} (h0 : e ≠ 0) (he : e ≤ t.maxLsb + t.mb + t.bias) (hm : m < 2 ^ t.mb)
    (htop : e = t.maxLsb + t.mb + t.bias → 2 ^ t.mb + m ≤ t.maxSig) :
    t.decode (t.signed neg (e * 2 ^ t.mb + m)) = .fin neg (2 ^ t.mb + m) ((e : Int) - t.bias - t.mb) := by
  obtain ⟨hlt, hfin⟩ := ht.field_bound he
  rw [Fmt.decode_signed hlt hm, Fmt.ofFields_normal _ h0]
  refine hfin.imp id fun ⟨hi, hmax⟩ => ⟨hi, ?_⟩
  have hsig := ht.maxSig_lt
  have := htop hmax
  simp [hi, Nat.pow_succ] at hsig
  omega

/-- Within the finite range a normal encoding has its magnitude, also where that is the next power of two. -/
theorem Fmt.Regular.decode_normal (neg : Bool) (h : t.Rounded lsb y) (hle : lsb ≤ t.maxLsb) (htop : lsb = t.maxLsb → y ≤ t.maxSig)
    (hy : 2 ^ t.mb ≤ y) : ∃ m e, t.decode (t.signed neg ((lsb + t.mb + t.bias).toNat * 2 ^ t.mb + (y - 2 ^ t.mb))) = .fin neg m e ∧
      (m : ℝ) * 2 ^ e = y * (2 : ℝ) ^ lsb := by
  have hmin := h.lsb_ge
  unfold Fmt.minLsb at hmin
  obtain ⟨e, he⟩ : ∃ e : Nat, (e : Int) = lsb + t.mb + t.bias := ⟨_, Int.toNat_of_nonneg (by omega)⟩
  rw [← he, Int.toNat_natCast]
  rcases h.le.lt_or_eq with hlt | heq
  · refine ⟨_, _, ht.decode_field neg (e := e) (m := y - 2 ^ t.mb) (by omega) (by omega) (by rw [Nat.pow_succ] at hlt; omega)
      fun hmax => ?_, ?_⟩
    · have := htop (by omega)
      omega
    · rw [Nat.add_sub_cancel' hy, he]
      congr 2
      ring
  · have hbelow : lsb < t.maxLsb := by
      have := ht.maxSig_lt
      refine hle.lt_of_ne fun hmax => ?_
      have := htop hmax
      omega
    have hcarry : e * 2 ^ t.mb + (y - 2 ^ t.mb) = (e + 1) * 2 ^ t.mb + 0 := by
      rw [heq, Nat.pow_succ, Nat.add_mul]
      omega
    rw [hcarry]
    refine ⟨_, _, ht.decode_field neg (e := e + 1) (m := 0) (by omega) (by push_cast; omega) (by positivity) fun _ => ht.maxSig_ge, ?_⟩
    have hlsb : ((e + 1 : Nat) : Int) - t.bias - t.mb = 1 + lsb := by push_cast; omega
    rw [hlsb, heq, zpow_add₀ two_ne_zero]
    push_cast
    ring

end Rounded

/-! ## `Round` by its outcomes -/

/-- A mode overflows to the greatest finite value (R198). -/
def toGreatest (mode : Rnd) (neg : Bool) : Bool :=
  match mode with
  | .rtz => true
  | .rdn => !neg
  | .rup => neg
  | _ => false

theorem toGreatest_iff {mode : Rnd} {neg : Bool} :
    toGreatest mode neg = true ↔ mode = .rtz ∨ mode = .rdn ∧ neg = false ∨ mode = .rup ∧ neg = true := by
  cases mode <;> simp [toGreatest]

theorem Fmt.roundNonzero_eq (t : Fmt) (x : Exact) (mode : Rnd) (sat flush away : Bool) : t.roundNonzero x mode sat flush away =
    let g := t.grid x
    let y := if roundUp mode x.neg away g x.sticky then g.q + 1 else g.q
    let inexact := g.rest != 0 || x.sticky
    if t.maxLsb < g.lsb ∨ g.lsb = t.maxLsb ∧ t.maxSig < y then
      { bits := if sat || toGreatest mode x.neg then t.signed x.neg t.maxFinite else if t.ieee then t.signed x.neg t.inf else t.nan, flags := 0x05 }
    else if g.lsb = t.minLsb ∧ y < 2 ^ t.mb then
      if flush then { bits := t.signed x.neg 0, flags := 0x03 } else { bits := t.signed x.neg y, flags := if inexact then 0x03 else 0 }
    else
      { bits := t.signed x.neg ((g.lsb + t.mb + t.bias).toNat * 2 ^ t.mb + (y - 2 ^ t.mb)), flags := if inexact then 0x01 else 0 } := by
  simp only [Fmt.roundNonzero, Bool.or_eq_true, Bool.and_eq_true, decide_eq_true_eq, beq_iff_eq]
  rfl

end Sys2Proof.Machine
end

section
/-! What `Round` gives for a nonzero real: the value that its mode chooses, and the encoding and the flags of that value (R197 to R200). -/

namespace Sys2Proof.Machine

section Rounding

variable {t : Fmt} {x : Exact} {v r : ℝ} {mode : Rnd} {away : Bool}

/-- The number of units of the last bit to which an exact real is rounded. -/
def Fmt.units (t : Fmt) (x : Exact) (mode : Rnd) (away : Bool) : Nat :=
  let g := t.grid x
  if roundUp mode x.neg away g x.sticky then g.q + 1 else g.q

/-- The rounded value. -/
noncomputable def Fmt.roundedValue (t : Fmt) (x : Exact) (mode : Rnd) (away : Bool) : ℝ :=
  (if x.neg then -1 else 1) * (t.units x mode away * (2 : ℝ) ^ (t.grid x).lsb)

theorem Fmt.abs_roundedValue (t : Fmt) (x : Exact) (mode : Rnd) (away : Bool) :
    |t.roundedValue x mode away| = t.units x mode away * (2 : ℝ) ^ (t.grid x).lsb := by
  have hnonneg : (0 : ℝ) ≤ t.units x mode away * (2 : ℝ) ^ (t.grid x).lsb := by positivity
  unfold Fmt.roundedValue
  cases x.neg <;> simp [abs_of_nonneg hnonneg]

theorem Exact.Stands.eq_signed_abs (hv : x.Stands t v) : v = (if x.neg then -1 else 1) * |v| := by
  obtain ⟨hne, hneg, -⟩ := hv
  cases hx : x.neg
  · have : 0 ≤ v := not_lt.1 fun hlt => by simp [hneg.2 hlt] at hx
    simp [abs_of_nonneg this]
  · simp [abs_of_neg (hneg.1 hx)]

/-- The decision of SR to round away concerns what is not on the scale. -/
theorem Fmt.Grids.rest_pos (hg : t.Grids (t.grid x) x.sticky |v| r) (hv : x.Stands t v) (hoff : ¬ t.OnScale v) : 0 < r := by
  refine (hg.leaves.nonneg (by positivity)).lt_of_ne fun h0 => hoff ?_
  have hlow : t.OnScale (|v|) := ⟨_, _, by
    rw [hg.sum, ← h0, add_zero]
    exact Fmt.scaled_of_le hg.q_lt.le hg.lsb_ge⟩
  rw [hv.eq_signed_abs]
  cases x.neg
  · simpa using hlow
  · simpa using hlow.neg

variable (hg : t.Grids (t.grid x) x.sticky |v| r) (hv : x.Stands t v) (haway : mode = .sr → away = true → ¬ t.OnScale v)
include hg

/-- A grid, and the decision of a mode for a magnitude on it. -/
theorem Fmt.Grids.decides {mode' : Rnd} {up : Bool} (hup : up = true ↔ RoundsUp mode' false away (t.grid x).q r ((2 : ℝ) ^ (t.grid x).lsb))
    (hrest : mode' = .sr → away = true → 0 < r) : t.Decides mode' away up (t.grid x).q r ((2 : ℝ) ^ (t.grid x).lsb) |v| where
  rest_nonneg := hg.leaves.nonneg (by positivity)
  rest_lt := hg.leaves.lt_unit (by positivity)
  decision := hup
  away_rest := hrest
  sum := hg.sum
  gap := fun _ hz => hz.gap hg.q_ge

include hv haway

theorem Fmt.Grids.roundsTo : t.RoundsTo mode away v (t.roundedValue x mode away) := by
  have hdecision := hg.leaves.roundUp_iff (by positivity) mode x.neg away
  have hrounded := hg.rounded (roundUp mode x.neg away (t.grid x) x.sticky)
  have hscale := Fmt.scaled_of_le hrounded.le hrounded.lsb_ge
  have hsigned := hv.eq_signed_abs
  have hrest (hsr : mode = .sr) (ha : away = true) : 0 < r := hg.rest_pos hv (haway hsr ha)
  unfold Fmt.roundedValue Fmt.units
  cases hx : x.neg
  · rw [hx] at hdecision hsigned hscale
    have hd := hg.decides hdecision hrest
    rw [hsigned]
    simpa only [Bool.false_eq_true, if_false, one_mul] using hd.roundsTo rfl hscale
  · rw [hx] at hdecision hsigned hscale
    have hd := hg.decides (hdecision.trans (roundsUp_mirrored ..)) fun hsr => hrest (mirrored_eq_sr.1 hsr)
    rw [hsigned]
    simpa only [if_true, neg_one_mul] using (hd.roundsTo rfl hscale).neg

/-- The flags see whether rounding changed the value. -/
theorem Fmt.Grids.inexact_iff : ((t.grid x).rest != 0 || x.sticky) = true ↔ t.roundedValue x mode away ≠ v := by
  have hu : (0 : ℝ) < 2 ^ (t.grid x).lsb := by positivity
  have hr0 := hg.leaves.nonneg hu
  have hru := hg.leaves.lt_unit hu
  have hpos (hup : roundUp mode x.neg away (t.grid x) x.sticky = true) : 0 < r := by
    have hdecision := (hg.leaves.roundUp_iff hu mode x.neg away).1 hup
    by_cases hsr : mode = .sr
    · subst hsr
      exact hg.rest_pos hv (haway rfl hdecision)
    · exact hdecision.pos hsr hu
  have herr : t.roundedValue x mode away - v =
      (if x.neg then -1 else 1) * roundingError (roundUp mode x.neg away (t.grid x) x.sticky) r ((2 : ℝ) ^ (t.grid x).lsb) := by
    have hsigned := hv.eq_signed_abs
    rw [hg.sum] at hsigned
    rw [Fmt.roundedValue, Fmt.units, rounded_eq_add_roundingError _ _ r]
    linear_combination -hsigned
  have habs : |t.roundedValue x mode away - v| = |roundingError (roundUp mode x.neg away (t.grid x) x.sticky) r ((2 : ℝ) ^ (t.grid x).lsb)| := by
    rw [herr]
    cases x.neg <;> simp
  rw [hg.leaves.inexact_iff hu, ← sub_ne_zero, ← abs_ne_zero, habs, abs_ne_zero, Ne, roundingError_eq_zero hr0 hru hpos, hr0.lt_iff_ne']

end Rounding

/-! ## Encodings and flags -/

/-- What R197 to R199 say of the result `res` of a real `v` of sign `neg` that is rounded to `y`. -/
def Fmt.Outcome (t : Fmt) (mode : Rnd) (sat flush neg : Bool) (v y : ℝ) (res : FRes) : Prop :=
  (t.greatest < |y| → res.flags = 0x05 ∧
    (sat = true ∨ mode = .rtz ∨ (mode = .rdn ∧ neg = false) ∨ (mode = .rup ∧ neg = true) → (t.decode res.bits).Is neg t.greatest) ∧
    (sat = false → mode ≠ .rtz → (mode = .rdn → neg = true) → (mode = .rup → neg = false) →
      if t.ieee then t.decode res.bits = .inf neg else res.bits = 0x7F)) ∧
  (|y| < 2 ^ (1 - (t.bias : Int)) →
    (flush = true → (t.decode res.bits).Is neg 0 ∧ res.flags = 0x03) ∧
    (flush = false → (t.decode res.bits).Is neg y ∧ (y = v → res.flags = 0) ∧ (y ≠ v → res.flags = 0x03))) ∧
  (2 ^ (1 - (t.bias : Int)) ≤ |y| → |y| ≤ t.greatest →
    (t.decode res.bits).Is neg y ∧ (y = v → res.flags = 0) ∧ (y ≠ v → res.flags = 0x01))

theorem Fmt.Regular.outcome {t : Fmt} (ht : t.Regular) {x : Exact} {v r : ℝ} {mode : Rnd} {away : Bool}
    (hg : t.Grids (t.grid x) x.sticky |v| r) (hinexact : ((t.grid x).rest != 0 || x.sticky) = true ↔ t.roundedValue x mode away ≠ v)
    (sat flush : Bool) : t.Outcome mode sat flush x.neg v (t.roundedValue x mode away) (t.roundNonzero x mode sat flush away) := by
  have hrounded : t.Rounded (t.grid x).lsb (t.units x mode away) := hg.rounded _
  have habs := t.abs_roundedValue x mode away
  have hover := ht.overflow_iff hrounded
  have htiny := hrounded.tiny_iff
  have hlsb := ht.lsb_lt
  have heq := t.roundNonzero_eq x mode sat flush away
  dsimp only at heq
  rw [show (if roundUp mode x.neg away (t.grid x) x.sticky then (t.grid x).q + 1 else (t.grid x).q) = t.units x mode away from rfl] at heq
  have hflags (fl : BitVec 5) : (t.roundedValue x mode away = v → (if ((t.grid x).rest != 0 || x.sticky) = true then fl else 0) = 0) ∧
      (t.roundedValue x mode away ≠ v → (if ((t.grid x).rest != 0 || x.sticky) = true then fl else 0) = fl) :=
    ⟨fun h => if_neg (mt hinexact.1 (not_not.2 h)), fun h => if_pos (hinexact.2 h)⟩
  refine ⟨fun h => ?overflow, fun h => ?tiny, fun hmin hmax => ?normal⟩
  case overflow =>
    rw [habs, hover] at h
    rw [if_pos h] at heq
    rw [heq]
    refine ⟨rfl, fun hc => ?_, fun hsat hrtz hrdn hrup => ?_⟩
    · have hmax : (sat || toGreatest mode x.neg) = true := Bool.or_eq_true_iff.2 (hc.imp id toGreatest_iff.2)
      rw [if_pos hmax, ht.greatest_eq]
      exact ⟨t.maxSig, t.maxLsb, ht.decode_maxFinite x.neg, (abs_of_nonneg (by positivity)).symm⟩
    · have hinf : ¬ (sat || toGreatest mode x.neg) = true := by
        rw [Bool.or_eq_true, toGreatest_iff, hsat]
        rintro (h0 | h0 | ⟨h0, h1⟩ | ⟨h0, h1⟩)
        · cases h0
        · exact hrtz h0
        · simp [hrdn h0] at h1
        · simp [hrup h0] at h1
      rw [if_neg hinf]
      split
      · next hi => exact ht.decode_inf hi x.neg
      · next hi => exact ht.nan_eq (by simpa using hi)
  case tiny =>
    rw [habs, htiny] at h
    rw [if_neg (by omega), if_pos h] at heq
    refine ⟨fun hf => ?_, fun hf => ?_⟩
    · rw [if_pos hf] at heq
      rw [heq]
      exact ⟨⟨0, t.minLsb, ht.decode_subnormal x.neg (by positivity), by simp⟩, rfl⟩
    · rw [if_neg (by simp [hf])] at heq
      rw [heq]
      exact ⟨⟨_, t.minLsb, ht.decode_subnormal x.neg h.2, by rw [habs, h.1]⟩, hflags 0x03⟩
  case normal =>
    rw [habs, ← not_lt, htiny] at hmin
    rw [habs, ← not_lt, hover] at hmax
    rw [if_neg hmax, if_neg hmin] at heq
    rw [heq]
    have hge : 2 ^ t.mb ≤ t.units x mode away := by
      by_contra hlt
      have : t.minLsb < (t.grid x).lsb := hrounded.lsb_ge.lt_of_ne fun h => hmin ⟨h.symm, not_le.1 hlt⟩
      exact hlt (hrounded.ge this)
    obtain ⟨m, e, hdecode, hval⟩ := ht.decode_normal x.neg hrounded (by omega) (by omega) hge
    exact ⟨⟨m, e, hdecode, by rw [hval, habs]⟩, hflags 0x01⟩

end Sys2Proof.Machine
end

section
/-! Sums, differences, products, quotients and square roots of finite numbers are `Round` of the exact result, and a zero has the sign of R207 (R205,
R207). -/

namespace Sys2Proof.Machine

/-! ## Exact results -/

section Exactness

variable {t : Fmt} {i j : Bool} {m n : Nat} {e k : Int} {mode : Rnd} {flush : Bool}

/-- `res` is `Round` of the nonzero real `v`. -/
def Fmt.RoundOf (t : Fmt) (mode : Rnd) (flush : Bool) (v : ℝ) (res : FRes) : Prop :=
  ∃ z : Exact, z.m ≠ 0 ∧ z.Stands t v ∧ res = t.round z false mode false flush false

theorem Fmt.round_eq_roundNonzero {z : Exact} (hm : z.m ≠ 0) (zneg sat away : Bool) :
    t.round z zneg mode sat flush away = t.roundNonzero z mode sat flush away := if_neg fun h => hm h.1

theorem Fmt.round_zero {z : Exact} (hm : z.m = 0) (hs : z.sticky = false) (zneg sat away : Bool) :
    t.round z zneg mode sat flush away = { bits := t.signed zneg 0, flags := 0 } := if_pos ⟨hm, by simp [hs]⟩

/-- The sign that a zero would take does not matter to what is not zero. -/
theorem Exact.Stands.roundOf {z : Exact} {v : ℝ} (hz : z.Stands t v) (hm : z.m ≠ 0) (zneg : Bool) :
    t.RoundOf mode flush v (t.round z zneg mode false flush false) :=
  ⟨z, hm, hz, by rw [Fmt.round_eq_roundNonzero hm, Fmt.round_eq_roundNonzero hm]⟩

theorem realOf_eq_sigInt (i : Bool) (m : Nat) (e : Int) : realOf i m e = sigInt i m * (2 : ℝ) ^ e := by
  rw [realOf, sigInt_cast]

theorem realOf_not (i : Bool) (m : Nat) (e : Int) : realOf (!i) m e = -realOf i m e := by
  cases i <;> simp [realOf]

theorem realOf_eq_zero : realOf i m e = 0 ↔ m = 0 := by
  have hpow : (2 : ℝ) ^ e ≠ 0 := by positivity
  cases i <;> simp [realOf, hpow]

theorem realOf_mul (i j : Bool) (m n : Nat) (e k : Int) : realOf (i != j) (m * n) (e + k) = realOf i m e * realOf j n k := by
  unfold realOf
  rw [zpow_add₀ two_ne_zero]
  cases i <;> cases j <;> push_cast <;> simp <;> ring

theorem abs_realOf (i : Bool) (m : Nat) (e : Int) : |realOf i m e| = m * (2 : ℝ) ^ e := by
  have hnonneg : (0 : ℝ) ≤ m * (2 : ℝ) ^ e := by positivity
  rw [realOf, mul_assoc]
  cases i <;> simp [abs_of_nonneg hnonneg]

theorem realOf_neg_iff (hm : m ≠ 0) : realOf i m e < 0 ↔ i = true := by
  have hpos : (0 : ℝ) < m * (2 : ℝ) ^ e := by positivity
  rw [realOf, mul_assoc]
  cases i <;> simp [hpos, hpos.le]

theorem addFin_value (n1 e1 n2 e2 : Int) :
    ((addFin n1 e1 n2 e2).1 : ℝ) * 2 ^ (addFin n1 e1 n2 e2).2 = n1 * (2 : ℝ) ^ e1 + n2 * (2 : ℝ) ^ e2 := by
  have hshift (e : Int) (he : min e1 e2 ≤ e) : (2 : ℝ) ^ (e - min e1 e2).toNat * 2 ^ min e1 e2 = 2 ^ e := by
    rw [← zpow_natCast, ← zpow_add₀ two_ne_zero]
    congr 1
    omega
  unfold addFin
  dsimp only
  push_cast
  rw [add_mul, mul_assoc, mul_assoc, hshift e1 (min_le_left ..), hshift e2 (min_le_right ..)]

theorem Exact.ofInt_stands {n : Int} (hn : n ≠ 0) (e : Int) : (Exact.ofInt n e).Stands t (n * (2 : ℝ) ^ e) := by
  have hpow : (0 : ℝ) < 2 ^ e := by positivity
  refine ⟨mul_ne_zero (by exact_mod_cast hn) hpow.ne', ?_, ?_⟩
  · rw [← not_le, mul_nonneg_iff_of_pos_right hpow]
    simp [Exact.ofInt]
  · rw [if_neg (by simp [Exact.ofInt]), abs_mul, abs_of_pos hpow]
    simp [Exact.ofInt, Nat.cast_natAbs]

theorem Exact.finite_stands (hm : m ≠ 0) : ({ neg := i, m := m, e := e, sticky := false } : Exact).Stands t (realOf i m e) :=
  ⟨mt realOf_eq_zero.1 hm, (realOf_neg_iff hm).symm, by rw [if_neg Bool.false_ne_true, abs_realOf]⟩

/-! ## Sums (R205, R207) -/

theorem addVal_round : realOf i m e + realOf j n k ≠ 0 →
    t.RoundOf mode flush (realOf i m e + realOf j n k) (t.addVal (.fin i m e) (.fin j n k) mode flush) := by
  rw [realOf_eq_sigInt, realOf_eq_sigInt, ← addFin_value]
  intro hne
  have hz : (addFin (sigInt i m) e (sigInt j n) k).1 ≠ 0 := fun h0 => hne (by rw [h0]; simp)
  exact (Exact.ofInt_stands hz _).roundOf (Int.natAbs_ne_zero.2 hz) _

/-- Where a sum is zero, both summands are zeros or neither is. -/
theorem significands_of_sum_zero (h : realOf i m e + realOf j n k = 0) : m = 0 ↔ n = 0 := by
  rw [← realOf_eq_zero (i := i) (e := e), ← realOf_eq_zero (i := j) (e := k)]
  constructor <;> intro h0 <;> linarith

theorem addVal_zero (h : realOf i m e + realOf j n k = 0) : t.addVal (.fin i m e) (.fin j n k) mode flush =
    { bits := t.signed (if n = 0 ∧ i = j then j else decide (mode = .rdn)) 0, flags := 0 } := by
  have hsign : zeroSumSign i j (m == 0 && n == 0) mode = if n = 0 ∧ i = j then j else decide (mode = .rdn) := by
    simp only [zeroSumSign, Bool.and_eq_true, beq_iff_eq, significands_of_sum_zero h, and_self]
    exact ite_congr rfl And.right fun _ => rfl
  have hz : (addFin (sigInt i m) e (sigInt j n) k).1 = 0 := by
    rw [realOf_eq_sigInt, realOf_eq_sigInt, ← addFin_value] at h
    have hpow : (2 : ℝ) ^ (addFin (sigInt i m) e (sigInt j n) k).2 ≠ 0 := by positivity
    exact_mod_cast (mul_eq_zero.1 h).resolve_right hpow
  rw [← hsign]
  exact Fmt.round_zero (congrArg Int.natAbs hz) rfl _ _ _

/-! ## Quotients (R205) -/

theorem Fmt.decode_fin_lt {x : Nat} (h : t.decode x = .fin i m e) : m < 2 ^ (t.mb + 1) := by
  have hlt : x % 2 ^ t.mb < 2 ^ t.mb := Nat.mod_lt _ (by positivity)
  rw [Fmt.decode_eq_ofFields] at h
  rw [Nat.pow_succ]
  unfold Fmt.ofFields at h
  split at h
  · split at h <;> cases h
  · split at h
    · cases h
    · split at h <;> cases h <;> omega

/-- The first bits of a real, more of them than the format holds, and whether they are all. -/
theorem Exact.stands_of_bounds {z : Exact} {v : ℝ} (hne : v ≠ 0) (hneg : z.neg = true ↔ v < 0) (hbits : 2 ^ (t.mb + 1) ≤ z.m)
    (hlo : z.m * (2 : ℝ) ^ z.e ≤ |v|) (hhi : |v| < (z.m + 1) * (2 : ℝ) ^ z.e) (hsticky : z.sticky = true ↔ z.m * (2 : ℝ) ^ z.e ≠ |v|) :
    z.m ≠ 0 ∧ z.Stands t v := by
  have hpos : 0 < 2 ^ (t.mb + 1) := by positivity
  refine ⟨by omega, hne, hneg, ?_⟩
  split
  · next hs => exact ⟨hbits, hlo.lt_of_ne (hsticky.1 hs), hhi⟩
  · next hs => exact (not_ne_iff.1 (mt hsticky.2 hs)).symm

theorem significand_bound (hmb : t.mb ≤ 23) : 2 ^ (t.mb + 1) ≤ 2 ^ 24 := Nat.pow_le_pow_right (by decide) (by omega)

theorem divExact_stands (hmb : t.mb ≤ 23) (hm : m ≠ 0) (hn : n ≠ 0) (hlt : n < 2 ^ (t.mb + 1)) :
    (divExact (i != j) m e n k).m ≠ 0 ∧ (divExact (i != j) m e n k).Stands t (realOf i m e / realOf j n k) := by
  have ha : realOf i m e ≠ 0 := mt realOf_eq_zero.1 hm
  have hb : realOf j n k ≠ 0 := mt realOf_eq_zero.1 hn
  have hnpos : (0 : ℝ) < n := by positivity
  have hpow : (0 : ℝ) < 2 ^ (e - k - 80) := by positivity
  have habs : |realOf i m e / realOf j n k| = (m * 2 ^ 80 : Nat) / n * (2 : ℝ) ^ (e - k - 80) := by
    rw [abs_div, abs_realOf, abs_realOf, zpow_sub₀ two_ne_zero, zpow_sub₀ two_ne_zero, show (2 : ℝ) ^ (80 : Int) = 2 ^ (80 : Nat) from rfl]
    push_cast
    field_simp
    norm_num
  unfold divExact
  refine Exact.stands_of_bounds (div_ne_zero ha hb) ?sign ?bits ?lo ?hi ?sticky
  case sign =>
    rw [div_neg_iff, ← mul_neg_iff, ← realOf_mul, realOf_neg_iff (Nat.mul_ne_zero hm hn)]
  case bits =>
    have h24 := significand_bound hmb
    refine (Nat.le_div_iff_mul_le (by omega)).2 ?_
    calc 2 ^ (t.mb + 1) * n ≤ 2 ^ 24 * 2 ^ 24 := Nat.mul_le_mul h24 (hlt.le.trans h24)
      _ ≤ 1 * 2 ^ 80 := by norm_num
      _ ≤ m * 2 ^ 80 := Nat.mul_le_mul_right _ (Nat.pos_of_ne_zero hm)
  case lo =>
    rw [habs]
    refine mul_le_mul_of_nonneg_right ((le_div_iff₀ hnpos).2 ?_) hpow.le
    exact_mod_cast Nat.div_mul_le_self (m * 2 ^ 80) n
  case hi =>
    rw [habs]
    refine mul_lt_mul_of_pos_right ((div_lt_iff₀ hnpos).2 ?_) hpow
    have hdiv := Nat.lt_mul_div_succ (m * 2 ^ 80) (Nat.pos_of_ne_zero hn)
    rw [Nat.mul_comm n] at hdiv
    exact_mod_cast hdiv
  case sticky =>
    dsimp only
    rw [habs, Ne, mul_left_inj' hpow.ne', eq_div_iff hnpos.ne', bne_iff_ne, Ne, ← Nat.dvd_iff_mod_eq_zero, Nat.dvd_iff_div_mul_eq]
    norm_cast

/-! ## Square roots (R205) -/

/-- Halving keeps the root between its bounds, and ends where they are neighbours. -/
theorem sqrtSearch_spec (n : Nat) (k lo hi : Nat) (hlo : lo * lo ≤ n) (hhi : n < hi * hi) (hk : hi ≤ lo + 2 ^ k) :
    sqrtSearch n k lo hi * sqrtSearch n k lo hi ≤ n ∧ n < (sqrtSearch n k lo hi + 1) * (sqrtSearch n k lo hi + 1) := by
  induction k generalizing lo hi with
  | zero => exact ⟨hlo, hhi.trans_le (Nat.mul_le_mul hk hk)⟩
  | succ k ih =>
    rw [sqrtSearch]
    split
    · next hle => exact ⟨hlo, hhi.trans_le (Nat.mul_le_mul hle hle)⟩
    · rw [Nat.pow_succ] at hk
      dsimp only
      split
      · next hmid => exact ih _ _ hmid hhi (by omega)
      · next hmid => exact ih _ _ hlo (not_le.1 hmid) (by omega)

theorem isqrt_eq_sqrt (n : Nat) : isqrt n = Nat.sqrt n := by
  have hhi : n < 2 ^ (Nat.log2 n / 2 + 1) * 2 ^ (Nat.log2 n / 2 + 1) := by
    rw [← Nat.pow_add]
    exact Nat.lt_log2_self.trans_le (Nat.pow_le_pow_right (by decide) (by omega))
  have hfuel : 2 ^ (Nat.log2 n / 2 + 1) ≤ 0 + 2 ^ (Nat.log2 n + 2) := by
    rw [Nat.zero_add]
    exact Nat.pow_le_pow_right (by decide) (by omega)
  exact Nat.eq_sqrt.2 (sqrtSearch_spec n _ _ _ (Nat.zero_le _) hhi hfuel)

/-- The root is taken of an even exponent. -/
theorem sqrtExact_eq (hm : m ≠ 0) (e : Int) : ∃ (m1 : Nat) (h : Int), m1 ≠ 0 ∧ (m1 : ℝ) * 2 ^ (2 * h) = m * (2 : ℝ) ^ e ∧
    sqrtExact m e = { neg := false, m := Nat.sqrt (m1 * 2 ^ 160), e := h - 80,
                      sticky := Nat.sqrt (m1 * 2 ^ 160) * Nat.sqrt (m1 * 2 ^ 160) != m1 * 2 ^ 160 } := by
  by_cases hodd : e % 2 ≠ 0
  · refine ⟨2 * m, e / 2, by omega, ?_, by simp only [sqrtExact, if_pos hodd, isqrt_eq_sqrt, show (e - 1) / 2 = e / 2 by omega]⟩
    rw [show e = 1 + 2 * (e / 2) by omega, zpow_add₀ two_ne_zero, show (1 + 2 * (e / 2)) / 2 = e / 2 by omega]
    push_cast
    ring
  · refine ⟨m, e / 2, hm, ?_, by simp only [sqrtExact, if_neg hodd, isqrt_eq_sqrt]⟩
    rw [show 2 * (e / 2) = e by omega]

theorem sqrtExact_stands (hmb : t.mb ≤ 23) (hm : m ≠ 0) :
    (sqrtExact m e).m ≠ 0 ∧ (sqrtExact m e).Stands t (Real.sqrt (realOf false m e)) := by
  obtain ⟨m1, h, hm1, hval, heq⟩ := sqrtExact_eq hm e
  rw [heq]
  have hpow : (0 : ℝ) < 2 ^ (h - 80) := by positivity
  have hreal : realOf false m e = (m1 * 2 ^ 160 : Nat) * ((2 : ℝ) ^ (h - 80)) ^ 2 := by
    have hsq : (2 : ℝ) ^ (2 * h) = 2 ^ 160 * ((2 : ℝ) ^ (h - 80)) ^ 2 := by
      rw [← zpow_natCast (_ ^ _), ← zpow_mul, show (2 : ℝ) ^ 160 = 2 ^ (160 : Int) from rfl, ← zpow_add₀ two_ne_zero]
      congr 1
      push_cast
      ring
    rw [realOf_eq_sigInt, sigInt, if_neg Bool.false_ne_true, Int.cast_natCast, ← hval, hsq]
    push_cast
    ring
  have hpos : 0 < realOf false m e := by rw [hreal]; positivity
  have hsqrt := abs_of_pos (Real.sqrt_pos.2 hpos)
  refine Exact.stands_of_bounds (Real.sqrt_pos.2 hpos).ne' ?sign ?bits ?lo ?hi ?sticky
  case sign => exact iff_of_false Bool.false_ne_true (Real.sqrt_nonneg _).not_gt
  case bits =>
    refine (significand_bound hmb).trans (Nat.le_sqrt.2 ?_)
    calc 2 ^ 24 * 2 ^ 24 ≤ 1 * 2 ^ 160 := by norm_num
      _ ≤ m1 * 2 ^ 160 := Nat.mul_le_mul_right _ (Nat.pos_of_ne_zero hm1)
  case lo =>
    rw [hsqrt]
    refine Real.le_sqrt_of_sq_le ?_
    rw [mul_pow, hreal]
    refine mul_le_mul_of_nonneg_right ?_ (by positivity)
    exact_mod_cast Nat.sqrt_le' (m1 * 2 ^ 160)
  case hi =>
    rw [hsqrt, Real.sqrt_lt' (by positivity), mul_pow, hreal]
    refine mul_lt_mul_of_pos_right ?_ (by positivity)
    exact_mod_cast Nat.lt_succ_sqrt' (m1 * 2 ^ 160)
  case sticky =>
    rw [hsqrt, bne_iff_ne, not_iff_not]
    constructor
    · intro hr
      have hroot : (Nat.sqrt (m1 * 2 ^ 160) : ℝ) ^ 2 = (m1 * 2 ^ 160 : Nat) := by
        rw [pow_two]
        exact_mod_cast hr
      rw [hreal, ← hroot, ← mul_pow, Real.sqrt_sq (by positivity)]
    · intro hr
      have hsq : (Nat.sqrt (m1 * 2 ^ 160) * (2 : ℝ) ^ (h - 80)) ^ 2 = realOf false m e := by rw [hr, Real.sq_sqrt hpos.le]
      rw [mul_pow, hreal] at hsq
      have hcancel := mul_right_cancel₀ (by positivity) hsq
      rw [← pow_two]
      exact_mod_cast hcancel

/-! ## Operations on finite operands -/

section Operations

variable {x y z : Nat} {l : Bool} {o : Nat} {h : Int} (hx : t.decode (t.flushIn flush x) = .fin i m e)
  (hy : t.decode (t.flushIn flush y) = .fin j n k)
include hx

theorem Fmt.sqrt_round (hmb : t.mb ≤ 23) (hpos : 0 < realOf i m e) :
    t.RoundOf mode flush (Real.sqrt (realOf i m e)) (t.sqrt x mode flush) := by
  have hm : m ≠ 0 := mt realOf_eq_zero.2 hpos.ne'
  obtain rfl : i = false := by
    rw [← Bool.not_eq_true, ← realOf_neg_iff (e := e) hm]
    exact hpos.not_gt
  obtain ⟨hne, hstands⟩ := sqrtExact_stands (t := t) (e := e) hmb hm
  have heq : t.sqrt x mode flush = t.round (sqrtExact m e) false mode false flush false := by
    rw [Fmt.sqrt_eq, hx, Fmt.rootRes, if_neg hm, if_neg Bool.false_ne_true]
  rw [heq]
  exact hstands.roundOf hne false

include hy

theorem Fmt.add_finite : t.add x y mode flush = t.addVal (.fin i m e) (.fin j n k) mode flush := by
  rw [Fmt.add_eq, hx, hy]
  rfl

theorem Fmt.sub_finite : t.sub x y mode flush = t.addVal (.fin i m e) (.fin (!j) n k) mode flush := by
  rw [Fmt.sub_eq, hx, hy]
  rfl

theorem Fmt.mul_finite : t.mul x y mode flush =
    t.round { neg := i != j, m := m * n, e := e + k, sticky := false } (i != j) mode false flush false := by
  rw [Fmt.mul_eq, hx, hy]
  rfl

theorem Fmt.fma_finite (hz : t.decode (t.flushIn flush z) = .fin l o h) :
    t.fma x y z mode flush = t.addVal (.fin (i != j) (m * n) (e + k)) (.fin l o h) mode flush := by
  rw [Fmt.fma_eq, hx, hy, hz]
  rfl

theorem Fmt.div_finite (hm : m ≠ 0) (hn : n ≠ 0) :
    t.div x y mode flush = t.round (divExact (i != j) m e n k) (i != j) mode false flush false := by
  rw [Fmt.div_eq, hx, hy]
  exact (if_neg hn).trans (if_neg hm)

theorem Fmt.mul_round (hne : realOf i m e * realOf j n k ≠ 0) :
    t.RoundOf mode flush (realOf i m e * realOf j n k) (t.mul x y mode flush) := by
  rw [← realOf_mul] at hne ⊢
  have hmn : m * n ≠ 0 := mt realOf_eq_zero.2 hne
  rw [Fmt.mul_finite hx hy]
  exact (Exact.finite_stands hmn).roundOf hmn _

theorem Fmt.mul_zero_sign (h0 : realOf i m e * realOf j n k = 0) :
    t.mul x y mode flush = { bits := t.signed (i != j) 0, flags := 0 } := by
  rw [← realOf_mul, realOf_eq_zero] at h0
  rw [Fmt.mul_finite hx hy]
  exact Fmt.round_zero h0 rfl _ _ _

theorem Fmt.div_round (hmb : t.mb ≤ 23) (ha : realOf i m e ≠ 0) (hb : realOf j n k ≠ 0) :
    t.RoundOf mode flush (realOf i m e / realOf j n k) (t.div x y mode flush) := by
  have hm : m ≠ 0 := mt realOf_eq_zero.2 ha
  have hn : n ≠ 0 := mt realOf_eq_zero.2 hb
  obtain ⟨hne, hstands⟩ := divExact_stands (i := i) (j := j) (e := e) (k := k) hmb hm hn (Fmt.decode_fin_lt hy)
  rw [Fmt.div_finite hx hy hm hn]
  exact hstands.roundOf hne _

end Operations

end Exactness

/-- Settles O17: the grid of an exact real tells the value that the mode chooses, the limits of the format tell its encoding and its flags, and each
operation rounds a number that stands for its exact result. -/
theorem rounding : Obligations.Rounding := by
  intro t hmem mode flush
  have ht : t.Regular := Fmt.regular_of_mem hmem
  refine ⟨fun x v zneg sat away hm hv haway => ?nonzero, fun x zneg sat away hm hs => Fmt.round_zero hm hs zneg sat away,
    fun x y i j m n e k hx hy => ?operations⟩
  case nonzero =>
    obtain ⟨r, hg⟩ := Fmt.grids_of_stands hm hv
    dsimp only
    rw [Fmt.round_eq_roundNonzero hm]
    exact ⟨t.roundedValue x mode away, hg.roundsTo hv haway, ht.outcome hg (hg.inexact_iff hv haway) sat flush⟩
  case operations =>
    intro a b rounds zero
    refine ⟨fun h => ?add, fun h => ?addZero, fun h => ?sub, Fmt.mul_round hx hy, Fmt.mul_zero_sign hx hy, Fmt.div_round hx hy ht.mb_le,
      Fmt.sqrt_round hx ht.mb_le, fun z l o h hz => ⟨fun hne => ?fma, fun h0 => ?fmaZero⟩⟩
    case add =>
      rw [Fmt.add_finite hx hy]
      exact addVal_round h
    case addZero =>
      have hsign : (if m = 0 ∧ i = j then i else decide (mode = .rdn)) = if n = 0 ∧ i = j then j else decide (mode = .rdn) := by
        simp only [significands_of_sum_zero h]
        exact ite_congr rfl And.right fun _ => rfl
      rw [Fmt.add_finite hx hy, addVal_zero h, hsign]
    case sub =>
      have hsub : a - b = realOf i m e + realOf (!j) n k := by rw [realOf_not, sub_eq_add_neg]
      rw [Fmt.sub_finite hx hy, hsub]
      exact addVal_round (hsub ▸ h)
    case fma =>
      have hprod : a * b = realOf (i != j) (m * n) (e + k) := (realOf_mul ..).symm
      rw [Fmt.fma_finite hx hy hz, hprod]
      exact addVal_round (hprod ▸ hne)
    case fmaZero =>
      have hprod : a * b = realOf (i != j) (m * n) (e + k) := (realOf_mul ..).symm
      rw [Fmt.fma_finite hx hy hz, addVal_zero (hprod ▸ h0)]

end Sys2Proof.Machine
end

section
/-! Loads and stores, and what every operation of one access to memory shares: a failed check is its fault, and where it reaches its places its
body is its effect (R227 to R233, R310, R314). -/

namespace Sys2Proof.Machine

variable {i : Instr} {f : Fields} {s s1 t : State} {is : Issue} {sps : List Spot} {qs : List Req}

/-! ## Operations that access memory -/

section OneAccess

theorem ReachesWith.checked {more : List Touch} {ws : List WatchRange} {release : Bool} {scope : Scope}
    (h : ReachesWith s is more ws qs release scope s1 sps) : s.checkReqs is qs = .go sps := by
  obtain ⟨-, hgo, -⟩ := h
  exact hgo

theorem ReachesWith.released {more : List Touch} {ws : List WatchRange} {release : Bool} {scope : Scope}
    (h : ReachesWith s is more ws qs release scope s1 sps) : is.releaseGate s release scope = none := by
  obtain ⟨-, -, hgate, -⟩ := h
  exact hgate

variable {run : Issue → Effect} {release loud : Bool} {scope : Scope} {body : State → List Spot → Effect}

/-- A failed check of an operation that makes the accesses `qs` is its fault. -/
theorem Ready.faultsOn (hr : Ready i s is) (he : exec i s = runOp i s run)
    (hrun : ∀ h, s.checkReqs is qs = .hit h → run is = is.access s qs release scope body) : FaultsOn i s is qs := by
  intro hacq hturn h hh
  rw [he]
  exact runOp_hit hr.1 hr.2 ((hrun h hh).trans (Issue.accessOn_hit hacq hturn hh))

/-- An operation that makes the accesses `qs` and reaches its places retires as its body says there. -/
theorem Ready.retires_access (hr : Ready i s is) (he : exec i s = runOp i s run) (hrun : run is = is.access s qs release scope body)
    (h : Reaches s is (qs.map (s.watchRange is)) qs release scope s1 sps) (hb : body s1 sps = .done t loud) : exec i s = retires i is t loud := by
  rw [he]
  exact runOp_done hr.1 hr.2 (hrun.trans ((Issue.accessOn_go h (congrArg Effect.performs hb)).trans hb))

end OneAccess

/-! ## Stores (R229, R231, R233) -/

@[simp] theorem State.noteRecent_mem (s : State) (start pa : Nat) (old : List Byte) : (s.noteRecent start pa old).mem = s.mem := by
  unfold State.noteRecent
  split <;> rfl

@[simp] theorem State.post_mem (s : State) (is : Issue) (eff : PostedEffect) (notes : List Note) (performed : Bool) :
    (s.post is eff notes performed).mem = s.mem := by
  unfold State.post
  dsimp only
  split <;> rfl

theorem length_bytesLE (n v : Nat) : (bytesLE n v).length = n := by simp [bytesLE]

theorem Issue.length_quadBytes (is : Issue) (o : Operand) (L : Nat) : (is.quadBytes o L).length = 16 := by
  unfold Issue.quadBytes
  split
  · simp [List.length_flatMap, length_bytesLE]
  · simp

/-- A store to a place on the group's own die writes its bytes there; one to another die, which is posted, writes nothing yet. -/
theorem State.writeOut_store_mem (s : State) (is : Issue) (sp : Spot) (bs : List Byte) :
    (s.writeOut is [sp] (.store sp.pa bs)).mem = if is.remote sp.pa then s.mem else writeBytes s.mem sp.pa bs := by
  simp only [State.writeOut, List.any_cons, List.any_nil, Bool.or_false]
  split
  · exact State.post_mem ..
  · exact State.noteRecent_mem ..

theorem sameOutside_storeLanes {bytes : Nat → List Byte} {n : Nat} (hn : ∀ L, (bytes L).length = n) :
    SameOutside s (s.storeLanes is sps bytes) sps n := by
  intro a ha
  unfold State.storeLanes
  induction sps generalizing s with
  | nil => rfl
  | cons sp sps ih =>
    obtain ⟨hsp, hsps⟩ := List.forall_mem_cons.1 ha
    rw [List.foldl_cons, ih hsps, State.writeOut_store_mem]
    split
    · rfl
    · rw [look_writeBytes, if_neg (by rwa [hn])]

theorem readBytes_storeLanes_last {bytes : Nat → List Byte} {n : Nat} {sp : Spot} (hn : ∀ L, (bytes L).length = n) (hsp : sps.getLast? = some sp)
    (hhome : is.remote sp.pa = false) : readBytes (s.storeLanes is sps bytes).mem sp.pa n = bytes sp.req.lane := by
  obtain ⟨before, rfl⟩ := List.getLast?_eq_some_iff.1 hsp
  rw [State.storeLanes, List.foldl_append, List.foldl_cons, List.foldl_nil, State.writeOut_store_mem, hhome, if_neg Bool.false_ne_true,
    ← hn sp.req.lane]
  exact readBytes_writeBytes ..

/-- What both forms of store do, with `n` bytes in each lane. -/
theorem stores_of_access {run : Issue → Effect} {bytes : Nat → List Byte} {n : Nat} {release : Bool} {scope : Scope} (hr : Ready i s is)
    (he : exec i s = runOp i s run) (hrun : run is = is.access s qs release scope (fun a sps => .done (a.storeLanes is sps bytes) true))
    (hn : ∀ L, (bytes L).length = n) :
    FaultsOn i s is qs ∧ (Reaches s is (qs.map (s.watchRange is)) qs release scope s1 sps →
      exec i s = retires i is (s1.storeLanes is sps bytes) true ∧ SameOutside s1 (s1.storeLanes is sps bytes) sps n ∧
      ∀ sp, sps.getLast? = some sp → is.remote sp.pa = false → readBytes (s1.storeLanes is sps bytes).mem sp.pa n = bytes sp.req.lane) :=
  ⟨hr.faultsOn he fun _ _ => hrun, fun h =>
    ⟨hr.retires_access he hrun h rfl, sameOutside_storeLanes hn, fun _ hsp hhome => readBytes_storeLanes_last hn hsp hhome⟩⟩

/-- Settles O19: each lane's write, in the order of the lanes, changes its own bytes at most. -/
theorem stores : Obligations.Stores := by
  intro f s s1 is sps q out
  constructor
  · intro hr n qs bytes
    exact stores_of_access hr rfl rfl fun L => length_bytesLE n _
  · intro hr qs bytes
    exact stores_of_access hr rfl rfl (is.length_quadBytes f.b)

/-! ## Loads (R228, R233, R310, R314) -/

/-- What another group has overwritten lately and a read may still return stands in a record of it that covers the read bytes. -/
theorem mem_staleReads {start upTo pa n : Nat} {es : List Recent} {p : Nat × Nat} (hp : p ∈ staleReads start upTo pa n es) :
    ∃ e ∈ es, e.start ≠ start ∧ e.pa ≤ pa ∧ pa + n ≤ e.pa + e.old.length ∧ p.1 = ofBytesLE ((e.old.drop (pa - e.pa)).take n) := by
  induction es with
  | nil => cases hp
  | cons e es ih =>
    have later (h : p ∈ staleReads start upTo pa n es) := (ih h).imp fun _ h => h.imp_left (List.mem_cons_of_mem e)
    rw [staleReads] at hp
    split at hp
    · exact later hp
    · split at hp
      · cases hp
      · next hfits =>
        rcases List.mem_cons.1 hp with rfl | hp
        · exact ⟨e, List.mem_cons_self, fun h => hfits (.inl h), by omega, by omega, rfl⟩
        · exact later hp

/-- `b` reads what `a` does: the same memory, the same overwritten bytes, and the group in issue as the same group. -/
def SameReads (is : Issue) (a b : State) : Prop := b.mem = a.mem ∧ b.recent = a.recent ∧ (is.refresh b).g.start = (is.refresh a).g.start

theorem SameReads.trans {a b c : State} (h : SameReads is a b) (h' : SameReads is b c) : SameReads is a c := by
  obtain ⟨hmem, hrecent, hstart⟩ := h
  obtain ⟨hmem', hrecent', hstart'⟩ := h'
  exact ⟨hmem'.trans hmem, hrecent'.trans hrecent, hstart'.trans hstart⟩

theorem LoadsFrom.of_sameReads {a b : State} {pa n v : Nat} (h : SameReads is a b) (hv : LoadsFrom b is pa n v) : LoadsFrom a is pa n v := by
  obtain ⟨hmem, hrecent, hstart⟩ := h
  rwa [LoadsFrom, hmem, hrecent, hstart] at hv

/-- A change of groups that leaves each at its place, and the same group, changes nothing that reads find. -/
theorem sameReads_updGroup (a : State) (core slot : Nat) {F : Group → Group} (hF : ∀ g, (F g).core = g.core ∧ (F g).slot = g.slot)
    (hstart : ∀ g, (F g).start = g.start) : SameReads is a (a.updGroup core slot F) := by
  refine ⟨rfl, rfl, ?_⟩
  unfold Issue.refresh
  rw [State.group?_updGroup a core slot F hF]
  cases a.group? is.g.core is.g.slot with
  | none => rfl
  | some g =>
    show (if g.core = core ∧ g.slot = slot then F g else g).start = g.start
    split
    exacts [hstart g, rfl]

theorem sameReads_loadedAt (a : State) (pa n : Nat) : SameReads is a (a.loadedAt is pa n).2 := by
  unfold State.loadedAt
  dsimp only
  split
  · exact ⟨rfl, rfl, rfl⟩
  · exact sameReads_updGroup a _ _ (fun _ => ⟨rfl, rfl⟩) fun _ => rfl

theorem loadsFrom_loadedAt (a : State) (pa n : Nat) : LoadsFrom a is pa n (a.loadedAt is pa n).1 := by
  have now : LoadsFrom a is pa n (readLE a.mem pa n) := .inl rfl
  have stale {p : Nat × Nat} (hp : p ∈ a.staleFor is (is.refresh a).g pa n) : LoadsFrom a is pa n p.1 := by
    unfold State.staleFor at hp
    split at hp
    · exact .inr (mem_staleReads hp)
    · cases hp
  have chosen (k : Nat) : LoadsFrom a is pa n (((a.staleFor is (is.refresh a).g pa n)[k]?).getD (readLE a.mem pa n, a.fresh)).1 := by
    cases hk : (a.staleFor is (is.refresh a).g pa n)[k]? with
    | none => exact now
    | some p => exact stale (List.mem_of_getElem? hk)
  unfold State.loadedAt
  dsimp only
  split
  · exact now
  · split
    exacts [now, chosen _]

/-- `ws` are `k` words of `n` bytes that loads from `pa` on may return in `a`. -/
def LoadsWords (a : State) (is : Issue) (pa k n : Nat) (ws : List Nat) : Prop :=
  ws.length = k ∧ ∀ i, i < k → ∃ w, ws[i]? = some w ∧ LoadsFrom a is (pa + n * i) n w

/-- The reads of one lane, in the order of their addresses. -/
def State.loadWords (a : State) (is : Issue) (pa k n : Nat) : State × List Nat :=
  (List.range k).foldl (fun b i => let r := b.1.loadedAt is (pa + n * i) n; (r.2, b.2 ++ [r.1])) (a, [])

theorem State.loadWords_spec (a : State) (pa k n : Nat) :
    SameReads is a (a.loadWords is pa k n).1 ∧ LoadsWords a is pa k n (a.loadWords is pa k n).2 := by
  induction k with
  | zero => exact ⟨⟨rfl, rfl, rfl⟩, rfl, fun i h => absurd h i.not_lt_zero⟩
  | succ k ih =>
    obtain ⟨hsame, hlen, hwords⟩ := ih
    have hsucc : a.loadWords is pa (k + 1) n =
        (((a.loadWords is pa k n).1.loadedAt is (pa + n * k) n).2,
          (a.loadWords is pa k n).2 ++ [((a.loadWords is pa k n).1.loadedAt is (pa + n * k) n).1]) := by
      rw [State.loadWords, List.range_succ, List.foldl_append]
      rfl
    rw [hsucc]
    refine ⟨hsame.trans (sameReads_loadedAt ..), by simp [hlen], fun i hi => ?_⟩
    rcases Nat.lt_succ_iff_lt_or_eq.1 hi with hi | rfl
    · rw [List.getElem?_append_left (hi.trans_eq hlen.symm)]
      exact hwords i hi
    · exact ⟨_, by rw [List.getElem?_append_right hlen.le]; simp [hlen], (loadsFrom_loadedAt ..).of_sameReads hsame⟩

/-- The entries that a load has read, one for each of its places: the lane, and `k` words. -/
def LoadsEach (a : State) (is : Issue) (k n : Nat) (sps : List Spot) (vs : List (Nat × List Nat)) : Prop :=
  List.Forall₂ (fun sp p => p.1 = sp.req.lane ∧ LoadsWords a is sp.pa k n p.2) sps vs

theorem LoadsWords.of_sameReads {a b : State} {pa k n : Nat} {ws : List Nat} (h : SameReads is a b) (hw : LoadsWords b is pa k n ws) :
    LoadsWords a is pa k n ws :=
  ⟨hw.1, fun i hi => (hw.2 i hi).imp fun _ hv => hv.imp_right (LoadsFrom.of_sameReads h)⟩

/-- A load reads the words of each place and changes nothing that reads find. -/
theorem State.loadSpots_spec (a : State) (k n : Nat) (sps : List Spot) :
    SameReads is a (a.loadSpots is sps k n).1 ∧ LoadsEach a is k n sps (a.loadSpots is sps k n).2 := by
  induction sps using List.reverseRecOn with
  | nil => exact ⟨⟨rfl, rfl, rfl⟩, .nil⟩
  | append_singleton sps sp ih =>
    obtain ⟨hsame, heach⟩ := ih
    have hlast : a.loadSpots is (sps ++ [sp]) k n =
        (((a.loadSpots is sps k n).1.loadWords is sp.pa k n).1,
          (a.loadSpots is sps k n).2 ++ [(sp.req.lane, ((a.loadSpots is sps k n).1.loadWords is sp.pa k n).2)]) := by
      rw [State.loadSpots, List.foldl_append]
      rfl
    obtain ⟨hsame', hwords⟩ := State.loadWords_spec (is := is) (a.loadSpots is sps k n).1 sp.pa k n
    rw [hlast]
    exact ⟨hsame.trans hsame', List.rel_append heach (.cons ⟨rfl, hwords.of_sameReads hsame⟩ .nil)⟩

/-- What a lane has read are words of its place; a lane without a place has read nothing. -/
theorem LoadsEach.word_of_spot {a : State} {k n : Nat} {vs : List (Nat × List Nat)} (h : LoadsEach a is k n sps vs) (L : Nat) {j : Nat}
    (hj : j < k) :
    match spotOfLane sps L with
    | some sp => ∃ w, loadedWord vs L j = some w ∧ LoadsFrom a is (sp.pa + n * j) n w
    | none => loadedWord vs L j = none := by
  unfold spotOfLane loadedWord
  induction h with
  | nil => rfl
  | @cons sp p sps vs hp _ ih =>
    obtain ⟨hlane, -, hwords⟩ := hp
    rw [List.find?_cons, List.find?_cons, hlane]
    cases sp.req.lane == L
    · exact ih
    · exact hwords j hj

/-- Word `j` that lane `L` has read. -/
def loadedValue (vs : List (Nat × List Nat)) (L j : Nat) : Nat := (loadedWord vs L j).getD 0

theorem LoadsEach.loadsFrom {a : State} {k n : Nat} {vs : List (Nat × List Nat)} (h : LoadsEach a is k n sps vs) {L j : Nat} {sp : Spot}
    (hsp : spotOfLane sps L = some sp) (hj : j < k) : LoadsFrom a is (sp.pa + n * j) n (loadedValue vs L j) := by
  have hw := h.word_of_spot L hj
  rw [hsp] at hw
  obtain ⟨w, hw, hfrom⟩ := hw
  rwa [loadedValue, hw]

theorem LoadsEach.loadedWord_eq {a : State} {k n : Nat} {vs : List (Nat × List Nat)} (h : LoadsEach a is k n sps vs) (L : Nat) {j : Nat}
    (hj : j < k) :
    loadedWord vs L j = (spotOfLane sps L).map (fun _ => loadedValue vs L j) := by
  have hw := h.word_of_spot L hj
  cases hsp : spotOfLane sps L with
  | none => rwa [hsp] at hw
  | some sp =>
    rw [hsp] at hw
    obtain ⟨w, hw, -⟩ := hw
    rw [loadedValue, hw]
    rfl

/-- A value of a narrow signed type is extended with its sign, and any other with zeros (R122). -/
theorem extendLoad_eq (ty : Ty) (v : Nat) :
    extendLoad ty v =
      if ty.signed && !ty.wide then ((BitVec.ofNat ty.bits v).signExtend 32).setWidth 64 else BitVec.ofNat 64 v := by
  unfold extendLoad
  cases ty.wide <;> simp

/-- What `ld` writes to lane `L`, of what has been read. -/
def ldLane (f : Fields) (vs : List (Nat × List Nat)) (L : Nat) (l : Lane) : Lane :=
  match loadedWord vs L 0 with
  | some v => l.setVal f.ty f.dest.toNat (extendLoad f.ty v)
  | none => l

/-- What `ld.x4` writes to lane `L`, of what has been read. -/
def ldX4Lane (f : Fields) (vs : List (Nat × List Nat)) (L : Nat) (l : Lane) : Lane :=
  (List.range 4).foldl (fun l k =>
    match loadedWord vs L k with
    | some v => l.setReg (f.dest.toNat + k) (BitVec.ofNat 32 v)
    | none => l) l

theorem LoadsEach.ldLane_eq {a : State} {n : Nat} {vs : List (Nat × List Nat)} (h : LoadsEach a is 1 n sps vs) (f : Fields) (L : Nat) (l : Lane) :
    ldLane f vs L l = (spotOfLane sps L).elim l (fun _ => l.setVal f.ty f.dest.toNat (extendLoad f.ty (loadedValue vs L 0))) := by
  rw [ldLane, h.loadedWord_eq L Nat.one_pos]
  cases spotOfLane sps L <;> rfl

theorem LoadsEach.ldX4Lane_eq {a : State} {n : Nat} {vs : List (Nat × List Nat)} (h : LoadsEach a is 4 n sps vs) (f : Fields) (L : Nat) (l : Lane) :
    ldX4Lane f vs L l = (spotOfLane sps L).elim l (fun _ =>
      (List.range 4).foldl (fun l k => l.setReg (f.dest.toNat + k) (BitVec.ofNat 32 (loadedValue vs L k))) l) := by
  unfold ldX4Lane
  cases hsp : spotOfLane sps L with
  | none =>
    refine (List.foldl_ext _ (fun l _ => l) l fun l k hk => ?_).trans (List.foldl_fixed ..)
    rw [h.loadedWord_eq L (List.mem_range.1 hk), hsp]
    rfl
  | some sp =>
    refine List.foldl_ext _ (fun l k => l.setReg (f.dest.toNat + k) (BitVec.ofNat 32 (loadedValue vs L k))) l fun l k hk => ?_
    rw [h.loadedWord_eq L (List.mem_range.1 hk), hsp]
    rfl

/-- Settles O18: the words that a load has read stand by the lanes of its places, and it extends them as its type says. -/
theorem loads : Obligations.Loads := by
  intro f s s1 is sps q
  refine ⟨fun hr => ⟨hr.faultsOn rfl fun _ _ => rfl, fun h => ?ld⟩, fun hr => ⟨hr.faultsOn rfl fun _ _ => rfl, fun h => ?ldX4⟩⟩
  case ld =>
    intro n r
    obtain ⟨⟨hmem, -⟩, heach⟩ := State.loadSpots_spec (is := is) s1 1 n sps
    have hexec : exec (.ld f) s = retires (.ld f) is ((r.1.writeLanes is (ldLane f r.2)).noteLoads is sps) false := hr.retires_access rfl rfl h rfl
    refine ⟨hmem, fun L => loadedValue r.2 L 0, fun L sp hsp => heach.loadsFrom hsp Nat.one_pos, hexec.trans ?_⟩
    refine congrArg (fun write => retires (.ld f) is ((r.1.writeLanes is write).noteLoads is sps) false) (funext₂ fun L l => ?_)
    rw [heach.ldLane_eq f L l, extendLoad_eq]
    cases spotOfLane sps L <;> rfl
  case ldX4 =>
    intro r
    obtain ⟨⟨hmem, -⟩, heach⟩ := State.loadSpots_spec (is := is) s1 4 4 sps
    have hexec : exec (.ldX4 f) s = retires (.ldX4 f) is ((r.1.writeLanes is (ldX4Lane f r.2)).noteLoads is sps) false :=
      hr.retires_access rfl rfl h rfl
    refine ⟨hmem, loadedValue r.2, fun L sp k hsp hk => heach.loadsFrom hsp hk, hexec.trans ?_⟩
    refine congrArg (fun write => retires (.ldX4 f) is ((r.1.writeLanes is write).noteLoads is sps) false) (funext₂ fun L l => ?_)
    rw [heach.ldX4Lane_eq f L l]
    cases spotOfLane sps L <;> rfl

end Sys2Proof.Machine
end

section
/-! What the integer atomics do to a location (R266). -/

namespace Sys2Proof.Machine

/-- The order of two locations as numbers is that of their bits. -/
theorem atomInt_lt_iff {ty : Ty} (x y : BitVec ty.bits) : atomInt ty x.toNat < atomInt ty y.toNat ↔ elemLess ty x y = true := by
  unfold atomInt elemLess
  split
  · simp [BitVec.slt_iff_toInt_lt]
  · simp [BitVec.ult_iff_lt, BitVec.lt_def]

/-- Settles O21: each operation on the numbers of two locations is the operation on their bits. -/
theorem atomicArithmetic : Obligations.AtomicArithmetic := by
  intro ty rnd ftz old v cmp hint r
  have hf32 : ty ≠ .f32 := fun e => absurd hint (e ▸ by decide)
  refine ⟨?add, ?and, ?or, ?xor, ?xchg, ?cas, ?min, ?max, ?flags⟩
  case add =>
    apply BitVec.eq_of_toNat_eq
    simp [r, atomStep, hf32]
  case and =>
    apply BitVec.eq_of_toNat_eq
    simp [r, atomStep]
  case or => simp [r, atomStep]
  case xor => simp [r, atomStep]
  case xchg => simp [r, atomStep]
  case cas => simp [r, atomStep, apply_ite (BitVec.ofNat ty.bits), BitVec.toNat_inj]
  case min => simp [r, atomStep, apply_ite (BitVec.ofNat ty.bits), atomInt_lt_iff]
  case max => simp [r, atomStep, apply_ite (BitVec.ofNat ty.bits), atomInt_lt_iff]
  case flags =>
    intro op
    cases op <;> simp [atomStep, hf32]

end Sys2Proof.Machine
end

section
/-! The atomics and the reductions as operations of a group (R266 to R268). -/

namespace Sys2Proof.Machine

variable {f : Fields} {s s1 : State} {is : Issue} {sps : List Spot}

/-! ## Atomics (R266) -/

/-- An operation that is `atomic` changes its places in the order of its lanes, where no enabled flag traps. -/
theorem atomicOp_of_exec {ctor : Fields → Instr} {op : AtomOp} {off : Fields → Issue → Nat → Int} {v cmp : Fields → Issue → Nat → Nat}
    (he : ∀ f s, exec (ctor f) s = runOp (ctor f) s (atomic f op (off f) (v f) (cmp f) s)) : AtomicOp ctor op off v cmp := by
  intro f s s1 is sps hr q qs
  refine ⟨hr.faultsOn (he f s) fun _ _ => rfl, fun h => ?_⟩
  intro a htrap
  refine hr.retires_access (he f s) rfl h ?_
  simp only [a] at htrap
  simp only [htrap]
  rfl

/-- Settles O20: seven of the atomics read an offset and a value, and `cas` a comparand and a value. -/
theorem atomics : Obligations.Atomics :=
  ⟨atomicOp_of_exec fun _ _ => rfl, atomicOp_of_exec fun _ _ => rfl, atomicOp_of_exec fun _ _ => rfl, atomicOp_of_exec fun _ _ => rfl,
    atomicOp_of_exec fun _ _ => rfl, atomicOp_of_exec fun _ _ => rfl, atomicOp_of_exec fun _ _ => rfl, atomicOp_of_exec fun _ _ => rfl⟩

/-! ## Reductions (R267, R268) -/

/-- The state after the lanes of a reduction at its homes: their writes, in the order of the lanes. -/
theorem foldl_redLane_fst (op : AtomOp) (a : State × Bool) :
    (sps.foldl (is.redLane f op) a).1 =
      sps.foldl (fun s sp => s.writeOut is [sp] (.red op f.ty f.rnd is.ftz sp.pa (is.val f.ty f.b sp.req.lane))) a.1 := by
  induction sps generalizing a with
  | nil => rfl
  | cons sp sps ih => exact ih _

/-- The accesses of a reduction on the shadow path check the home, and do not make the access themselves. -/
def shadowReqs (is : Issue) (f : Fields) (q : Quals) : List Req :=
  (laneReqs is (is.destAddr f) (fun L => (is.word f.a L).toInt) (Ty.bytes f.ty) q false true).map (fun q => { q with device := true, kind := 3 })

/-- What the lanes of such a reduction leave of the shadow copies, and whether they have changed one. -/
def shadowBody (is : Issue) (f : Fields) (op : AtomOp) (s : State) (sps : List Spot) : Effect :=
  .done { s with shadows := (s.shadowLanes is f op sps).1 } ((s.shadowLanes is f op sps).1 != s.shadows)

section Shadows

variable {q : Quals} (hspace : q.space = .generic) (hrnd : f.rnd = .rne)
include hspace hrnd

/-- With the rounding and the space that the shadow path allows, what the checks find comes first, and then the lanes that no shadow copy takes. -/
theorem shadowReduce_cases (s : State) (is : Issue) (op : AtomOp) :
    (∀ h, s.checkReqs is (shadowReqs is f q) = .hit h →
      shadowReduce f op q s is = is.access s (shadowReqs is f q) q.releases q.scope (shadowBody is f op)) ∧
    ∀ sps, s.checkReqs is (shadowReqs is f q) = .go sps →
      ((s.shadowLanes is f op sps).2 = [] →
        shadowReduce f op q s is = is.access s (shadowReqs is f q) q.releases q.scope (shadowBody is f op)) ∧
      ∀ L rest, (s.shadowLanes is f op sps).2 = L :: rest →
        shadowReduce f op q s is =
          .hit (Hit.plain .operandExtent (maskOf (fun K => K == L || rest.contains K)) (addrPlus (is.destAddr f L) (is.word f.a L).toInt)) := by
  have hreqs : is.active.map (fun L =>
      { laneReq L (is.destAddr f L) (is.word f.a L).toInt (Ty.bytes f.ty) q false true with device := true, kind := 3 }) = shadowReqs is f q := by
    rw [shadowReqs, laneReqs, List.map_map]
    rfl
  rw [shadowReduce, if_neg (by simp [hspace, hrnd]), hreqs]
  refine ⟨fun h hh => ?hit, fun sps hgo => ⟨fun hlanes => ?fits, fun L rest hlanes => ?refused⟩⟩
  case hit =>
    simp only [hh]
    rfl
  case fits =>
    simp only [hgo, hlanes]
    rfl
  case refused => simp only [hgo, hlanes]

end Shadows

/-- An operation that is `reduce` takes the path of its scope. -/
theorem reductionOp_of_exec {ctor : Fields → Instr} {op : AtomOp} (he : ∀ f s, exec (ctor f) s = runOp (ctor f) s (reduce f op s)) :
    ReductionOp ctor op := by
  intro f s s1 is sps hr q qs
  refine ⟨fun hscope => ?home, fun hscope hbad => ?unfit, fun hscope hspace hrnd => ?shadow⟩
  case home =>
    have hpath : reduce f op s is = is.access s qs q.releases q.scope (fun s' sps =>
        .done (sps.foldl (is.redLane f op) (s', false)).1 (sps.foldl (is.redLane f op) (s', false)).2) := if_neg (Nat.not_le.2 hscope)
    refine ⟨hr.faultsOn (he f s) fun _ _ => hpath, fun h => ⟨(sps.foldl (is.redLane f op) (s1, false)).2, ?_⟩⟩
    exact hr.retires_access (he f s) hpath h (congrArg (Effect.done · _) (foldl_redLane_fst op (s1, false)))
  case unfit =>
    rw [he]
    exact runOp_hit hr.1 hr.2 ((if_pos hscope).trans (if_pos hbad))
  case shadow =>
    have hpath : reduce f op s is = shadowReduce f op q s is := if_pos hscope
    obtain ⟨hhit, hgo⟩ := shadowReduce_cases hspace hrnd s is op
    refine ⟨hr.faultsOn (he f s) fun h hh => hpath.trans (hhit h hh), fun L rest hsps hlanes => ?_, fun h hlanes => ?_⟩
    · rw [he]
      exact runOp_hit hr.1 hr.2 (hpath.trans ((hgo sps hsps).2 L rest hlanes))
    · exact hr.retires_access (he f s) (hpath.trans ((hgo sps h.checked).1 hlanes)) h rfl

/-- Settles O22: each of the six reductions is `reduce` of its operation. -/
theorem reductions : Obligations.Reductions :=
  ⟨reductionOp_of_exec fun _ _ => rfl, reductionOp_of_exec fun _ _ => rfl, reductionOp_of_exec fun _ _ => rfl, reductionOp_of_exec fun _ _ => rfl,
    reductionOp_of_exec fun _ _ => rfl, reductionOp_of_exec fun _ _ => rfl⟩

end Sys2Proof.Machine
end

section
/-! Memory tags (R247, R248). -/

namespace Sys2Proof.Machine

/-- The operands of `stag` are in range in every lane of ACTIVE. -/
theorem find?_stagBad_eq_none {ls : List Nat} {e tag n : Nat → Nat}
    (h : ∀ L ∈ ls, e L % 32 = 0 ∧ tag L ≤ 15 ∧ n L ≠ 0 ∧ n L ≤ 4096) :
    ls.find? (fun L => stagBad (e L) (tag L) (n L)) = none := by
  refine List.find?_eq_none.2 fun L hL => ?_
  obtain ⟨he, htag, h0, hn⟩ := h L hL
  simp [stagBad, he, htag, h0, hn]

/-- What `stag` does at the places of its granules: it notes each, and writes each lane's tag, contiguous granules as one piece. -/
def stagBody (is : Issue) (f : Fields) (s : State) (sps : List Spot) : Effect :=
  .done ((joinSpots sps).foldl (fun s sp => s.writeOut is [sp] (.tag (sp.pa / 32) (sp.req.n / 32) ((is.word f.a sp.req.lane).setWidth 4)))
    (sps.foldl (fun s sp => s.noteSpot is sp) s)) true

/-- Settles O23: both are operations of one access, whose bodies note each place and then write its tag, or read it. -/
theorem memoryTags : Obligations.MemoryTags := by
  intro f s s1 is sps
  constructor
  · intro hr q tag n qs hok
    have hfind : is.active.find? (fun L => stagBad (addrVa (is.destAddr f L)) (is.word f.a L).toNat (is.word f.b L).toNat) = none :=
      find?_stagBad_eq_none hok
    obtain ⟨run, he, hfits⟩ : ∃ run, exec (.stag f) s = runOp (.stag f) s run ∧
        run is = is.access s qs q.releases q.scope (stagBody is f) := by
      refine ⟨_, rfl, ?_⟩
      simp only [hfind]
      rfl
    exact ⟨hr.faultsOn he fun _ _ => hfits, fun h => hr.retires_access he hfits h rfl⟩
  · intro hr q qs
    exact ⟨hr.faultsOn rfl fun _ _ => rfl, fun h => hr.retires_access rfl rfl h rfl⟩

end Sys2Proof.Machine
end

section
/-! Fences, and writes with a signal (R254, R255, R307, R319, R320). -/

namespace Sys2Proof.Machine

variable {s s1 : State} {is : Issue} {f : Fields} {sps : List Spot}

/-! ## Releases (R302, R307, R319) -/

section Releases

variable {sc : Scope}

theorem Issue.releaseGate_relaxed (is : Issue) (s : State) (sc : Scope) : is.releaseGate s false sc = none := rfl

/-- A release wider than a die faults in recovery mode. -/
theorem Issue.releaseGate_recovery (hwide : 4 ≤ scopeRank sc) (hrec : s.recovery = true) :
    is.releaseGate s true sc = some (.hit (Hit.plain .operandExtent is.mask 0)) := by
  simp [Issue.releaseGate, hwide, hrec]

/-- A release has something to wait for: a `tst` that runs, a read still to be made, or, where it is wider than a die, an acknowledgement. -/
def Issue.releaseOwes (is : Issue) (sc : Scope) : Bool :=
  is.w.storing (fun k => k == is.g.start) || is.reading || decide (4 ≤ scopeRank sc) && is.g.acks != 0

theorem Issue.releaseOwes_iff : is.releaseOwes sc = true ↔
    is.w.storing (fun k => k == is.g.start) = true ∨ is.reading = true ∨ 4 ≤ scopeRank sc ∧ is.g.acks ≠ 0 := by
  simp [Issue.releaseOwes, or_assoc]

/-- Where recovery mode does not make it a fault, a release waits for what it owes, and then goes on. -/
theorem Issue.releaseGate_eq (h : scopeRank sc < 4 ∨ s.recovery = false) : is.releaseGate s true sc =
    if is.releaseOwes sc then some (.wait s { kind := .slot, cycles := 0, addr := 0, expired := false }) else none := by
  have hgo : ¬ (decide (4 ≤ scopeRank sc) && s.recovery) = true := by
    simp only [Bool.and_eq_true, decide_eq_true_eq, not_and_or, Nat.not_le, Bool.not_eq_true]
    exact h
  unfold Issue.releaseGate
  dsimp only
  rw [if_neg (by decide), if_neg hgo]
  rfl

end Releases

/-- What `fence` comes to: its release, and then its acquire. -/
def fenceEffect (is : Issue) (f : Fields) (s : State) (release : Bool) (sc : Scope) : Effect :=
  (is.releaseGate s release sc).getD
    (if f.mod.getLsbD 0 && is.reading then .wait s { kind := .slot, cycles := 0, addr := 0, expired := false } else .done s true)

theorem exec_fence (f : Fields) (s : State) : exec (.fence f) s =
    runOp (.fence f) s (fun is => fenceEffect is f s (f.mod.getLsbD 1) (quals is.g f true true [.generic]).scope) := by
  refine congrArg (runOp (.fence f) s) (funext fun is => ?_)
  unfold fenceEffect
  cases is.releaseGate s (f.mod.getLsbD 1) (quals is.g f true true [.generic]).scope <;> rfl

/-! ## `wsig` (R255, R320) -/

/-- What `wsig` does where each lane's payload and flag have one home: the lanes write both in their order. -/
def wsigBody (is : Issue) (f : Fields) (s : State) (sps : List Spot) : Effect :=
  .done (is.active.foldl (fun s L =>
    match signalSpots sps L with
    | some (p, fl) => s.writeOut is [p, fl] (.signal p.pa (is.word f.a L) fl.pa (is.word f.c L))
    | none => s) s) true

/-- Settles O36: a fence is its release, and then its acquire; `wsig` is one access, where the homes do not differ. -/
theorem fencesAndSignals : Obligations.FencesAndSignals := by
  intro f s s1 is sps
  constructor
  · intro hr sc release storing waits
    refine ⟨fun hrel hread => ?goes, fun hrel hacq hread => ?waits, fun hrel hstore hread hgo => ?released, fun hrel hwide hrec => ?faults,
      fun hrel hgo howes => ?owes⟩
    case goes =>
      have hbody : ¬ (f.mod.getLsbD 0 && is.reading) = true := by simpa [or_iff_not_imp_left] using hread
      refine (exec_fence f s).trans (runOp_done hr.1 hr.2 ?_)
      rw [fenceEffect, show f.mod.getLsbD 1 = false from hrel, Issue.releaseGate_relaxed, Option.getD_none, if_neg hbody]
    case waits =>
      refine (exec_fence f s).trans (runOp_wait hr.1 hr.2 ?_)
      rw [fenceEffect, show f.mod.getLsbD 1 = false from hrel, Issue.releaseGate_relaxed, Option.getD_none, if_pos (by simp [hacq, hread])]
    case released =>
      have hfree : is.releaseOwes sc = false := by
        rw [← Bool.not_eq_true, Issue.releaseOwes_iff]
        rintro (h | h | ⟨hwide, hacks⟩)
        · exact absurd h (ne_true_of_eq_false hstore)
        · exact absurd h (ne_true_of_eq_false hread)
        · rcases hgo with hnarrow | ⟨-, h0⟩
          exacts [absurd hwide (Nat.not_le.2 hnarrow), hacks h0]
      refine (exec_fence f s).trans (runOp_done hr.1 hr.2 ?_)
      rw [fenceEffect, show f.mod.getLsbD 1 = true from hrel, Issue.releaseGate_eq (hgo.imp_right And.left),
        if_neg (by simpa using hfree), Option.getD_none, if_neg (by simp [hread])]
    case faults =>
      refine (exec_fence f s).trans (runOp_hit hr.1 hr.2 ?_)
      rw [fenceEffect, show f.mod.getLsbD 1 = true from hrel, Issue.releaseGate_recovery hwide hrec]
      rfl
    case owes =>
      refine (exec_fence f s).trans (runOp_wait hr.1 hr.2 ?_)
      rw [fenceEffect, show f.mod.getLsbD 1 = true from hrel, Issue.releaseGate_eq hgo.symm, if_pos (Issue.releaseOwes_iff.2 howes)]
      rfl
  · intro hr q qs
    obtain ⟨run, he, hhit, hgo⟩ : ∃ run, exec (.wsig f) s = runOp (.wsig f) s run ∧
        (∀ h, s.checkReqs is qs = .hit h → run is = is.access s qs false q.scope (wsigBody is f)) ∧
        ∀ sps, s.checkReqs is qs = .go sps → (∀ L ∈ is.active, homesDiffer sps L = false) →
          run is = is.access s qs false q.scope (wsigBody is f) := by
      refine ⟨_, rfl, fun h hh => ?_, fun sps hsps hhomes => ?_⟩
      · dsimp only [qs, q] at hh
        simp only [hh]
        rfl
      · dsimp only [qs, q] at hsps
        simp only [hsps, show is.active.find? (homesDiffer sps) = none from List.find?_eq_none.2 fun L hL => by simp [hhomes L hL]]
        rfl
    exact ⟨hr.faultsOn he hhit, fun h hhomes => hr.retires_access he (hgo sps h.checked hhomes) h rfl⟩

end Sys2Proof.Machine
end

section
/-! Queues (R236 to R238). -/

namespace Sys2Proof.Machine

variable {f : Fields} {s : State} {is : Issue}

/-- The complete entries from the head up to the first incomplete one. -/
theorem readyCount_eq (es : List QEntry) : readyCount es = (es.takeWhile (fun e => e.complete)).length := by
  induction es with
  | nil => rfl
  | cons e es ih =>
    rw [readyCount, List.takeWhile_cons]
    cases e.complete
    · rfl
    · simp [ih]

/-- A `qpop` that passes its checks goes on from what it finds at its queue; only the fault of the slice comes first. -/
theorem Ready.exec_qpop (hr : Ready (.qpop f) s is) {p : PopState} (hp : is.g.popState (f.spec.toNat % 8) = p) (hslice : ∀ x, p ≠ .slice x) :
    exec (.qpop f) s = runOp (.qpop f) s (fun is => is.pop s f.dest.toNat p) := by
  show execQpop f s = _
  obtain ⟨hissue, hcheck⟩ := hr
  unfold execQpop
  dsimp only
  rw [hissue]
  dsimp only
  rw [hcheck, hp]
  cases p with
  | slice x => exact absurd rfl (hslice x)
  | _ => rfl

/-- Settles O32: the queue has room for the fed entry, or a complete entry at its head, or none that will come. -/
theorem queues : Obligations.Queues := by
  intro f s is q
  refine ⟨fun hr => ?feed, fun hr e hready => ?pop, fun hr hended => ?ended, fun hr => ?state⟩
  case feed =>
    intro n h0 hmax hroom
    have hfit : ¬ (n = 0 ∨ 128 < n ∨ is.r.eff.qdepth = 0) := by omega
    exact runOp_done hr.1 hr.2 ((if_neg hfit).trans (if_neg (Nat.not_le.2 hroom)))
  case pop => exact (hr.exec_qpop hready (by simp)).trans (runOp_done hr.1 hr.2 rfl)
  case ended => exact (hr.exec_qpop hended (by simp)).trans (runOp_hit hr.1 hr.2 rfl)
  case state =>
    refine runOp_done hr.1 hr.2 ?_
    show is.writesWord s f.dest.toNat (fun _ => is.g.qstateWord (f.spec.toNat % 8)) = _
    rw [Group.qstateWord, readyCount_eq]
    rfl

end Sys2Proof.Machine
end

section
/-! Async copies: their start, the source of each byte, and the tag waits (R240, R242, R245). -/

namespace Sys2Proof.Machine

variable {f : Fields} {s : State} {is : Issue}

/-! ## The source of a byte (R242) -/

/-- In a transposing copy with elements of `e` bytes and `m` rows, element `j` of row `i` goes to place `j * m + i` of the destination. -/
theorem Copy.srcOff_transposed {c : Copy} {e i j b : Nat} (hmode : c.mode = e) (he : e = 1 ∨ e = 2) (hi : i < c.bytes / rowLen c.row) (hb : b < e) :
    c.srcOff ((j * (c.bytes / rowLen c.row) + i) * e + b) = i * rowLen c.row + j * e + b := by
  have helem : (if c.mode = 1 then 1 else 2) = e := by rw [hmode]; rcases he with rfl | rfl <;> rfl
  have he0 : 0 < e := by omega
  have hm : ¬ (c.mode = 0 ∨ c.bytes / rowLen c.row = 0) := by omega
  have hm0 : 0 < c.bytes / rowLen c.row := by omega
  unfold Copy.srcOff
  dsimp only
  rw [helem, if_neg hm]
  have hdiv : ((j * (c.bytes / rowLen c.row) + i) * e + b) / e = j * (c.bytes / rowLen c.row) + i := by
    rw [Nat.mul_comm, Nat.mul_add_div he0, Nat.div_eq_of_lt hb, Nat.add_zero]
  have hmod : ((j * (c.bytes / rowLen c.row) + i) * e + b) % e = b := by rw [Nat.mul_comm, Nat.mul_add_mod, Nat.mod_eq_of_lt hb]
  rw [hdiv, hmod, Nat.mul_comm j, Nat.mul_add_mod, Nat.mod_eq_of_lt hi, Nat.mul_add_div hm0, Nat.div_eq_of_lt hi, Nat.add_zero]

/-- A run of source offsets holds byte `i` of a chunk, and reads it at `x`. -/
def RunReads (r : Nat × Nat × Nat) (i x : Nat) : Prop := r.2.2 ≤ i ∧ i < r.2.2 + r.2.1 ∧ r.1 + (i - r.2.2) = x

/-- The runs of the first `n` bytes of a chunk, which starts at `o`, with byte `n` added to them. -/
def Copy.addRun (c : Copy) (o : Nat) (rs : List (Nat × Nat × Nat)) (n : Nat) : List (Nat × Nat × Nat) :=
  match rs.getLast? with
  | some (a, m, p) => if a + m = c.srcOff (o + n) then rs.dropLast ++ [(a, m + 1, p)] else rs ++ [(c.srcOff (o + n), 1, n)]
  | none => [(c.srcOff (o + n), 1, n)]

/-- The runs read each of the first `n` bytes at its source, and the last of them ends there. -/
def Copy.RunsRead (c : Copy) (o n : Nat) (rs : List (Nat × Nat × Nat)) : Prop :=
  (∀ i < n, ∃ r ∈ rs, RunReads r i (c.srcOff (o + i))) ∧ ∀ r, rs.getLast? = some r → r.2.2 + r.2.1 = n

/-- A last run that reads byte `n`, and ends behind it, after runs that read the bytes before it with its help. -/
theorem Copy.RunsRead.of_last {c : Copy} {o n : Nat} {rs : List (Nat × Nat × Nat)} {r : Nat × Nat × Nat}
    (hreads : ∀ i < n, ∃ r' ∈ rs ++ [r], RunReads r' i (c.srcOff (o + i))) (hr : RunReads r n (c.srcOff (o + n)))
    (hend : r.2.2 + r.2.1 = n + 1) :
    c.RunsRead o (n + 1) (rs ++ [r]) := by
  refine ⟨fun i hi => ?_, fun r' hr' => ?_⟩
  · rcases Nat.lt_succ_iff_lt_or_eq.1 hi with hi | rfl
    · exact hreads i hi
    · exact ⟨r, by simp, hr⟩
  · obtain rfl : r = r' := by simpa using hr'
    exact hend

theorem Copy.RunsRead.addRun {c : Copy} {o n : Nat} {rs : List (Nat × Nat × Nat)} (h : c.RunsRead o n rs) :
    c.RunsRead o (n + 1) (c.addRun o rs n) := by
  obtain ⟨hreads, hlast⟩ := h
  have hnew : RunReads (c.srcOff (o + n), 1, n) n (c.srcOff (o + n)) := ⟨le_rfl, Nat.lt_succ_self n, by simp⟩
  unfold Copy.addRun
  split
  · next a m p hend =>
    obtain ⟨before, rfl⟩ := List.getLast?_eq_some_iff.1 hend
    have hpm : p + m = n := hlast _ hend
    split
    · next hx =>
      have hgrown {i x : Nat} (hread : RunReads (a, m, p) i x) : RunReads (a, m + 1, p) i x := by
        unfold RunReads at hread ⊢
        dsimp only at hread ⊢
        omega
      have hnext : RunReads (a, m + 1, p) n (c.srcOff (o + n)) := by
        unfold RunReads
        dsimp only
        omega
      rw [List.dropLast_concat]
      refine .of_last (fun i hi => ?_) hnext (by dsimp only; omega)
      obtain ⟨r, hr, hread⟩ := hreads i hi
      rcases List.mem_append.1 hr with hr | hr
      · exact ⟨r, List.mem_append_left _ hr, hread⟩
      · obtain rfl := List.mem_singleton.1 hr
        exact ⟨_, by simp, hgrown hread⟩
    · exact .of_last (fun i hi => (hreads i hi).imp fun r hr => hr.imp_left (List.mem_append_left _)) hnew rfl
  · next hnone =>
    obtain rfl := List.getLast?_eq_none_iff.1 hnone
    exact .of_last (rs := []) (fun i hi => absurd (hreads i hi) (by simp)) hnew rfl

/-- The runs of a chunk read each of its bytes at its source. -/
theorem Copy.exists_srcRun (c : Copy) (o : Nat) {n i : Nat} (hi : i < n) : ∃ r ∈ c.srcRuns o n, RunReads r i (c.srcOff (o + i)) := by
  by_cases hmode : c.mode = 0
  · refine ⟨(o, n, 0), by simp [Copy.srcRuns, hmode], Nat.zero_le _, by simpa using hi, ?_⟩
    simp [Copy.srcOff, hmode]
  · have hruns : c.srcRuns o n = (List.range n).foldl (c.addRun o) [] := if_neg hmode
    have hall (k : Nat) : c.RunsRead o k ((List.range k).foldl (c.addRun o) []) := by
      induction k with
      | zero => exact ⟨by simp, by simp⟩
      | succ k ih =>
        rw [List.range_succ, List.foldl_append]
        exact ih.addRun
    rw [hruns]
    exact (hall n).1 i hi

/-! ## The tag waits (R245) -/

theorem lowestFaulted_eq_none {cs : List Copy} (h : ∀ c ∈ cs, c.fault = none) : lowestFaulted cs = none := by
  induction cs with
  | nil => rfl
  | cons c cs ih =>
    obtain ⟨hc, hcs⟩ := List.forall_mem_cons.1 h
    simp [lowestFaulted, ih hcs, hc]

/-- A tag wait whose tags are set goes on, where no copy of its mask has a fault. -/
theorem tagWait_done {all : Bool} {done : Issue → State → Dword → State} {w : Workgroup} {m : Dword} (hm : is.addr f.a is.l0 = m)
    (hlt : m.toNat < 2 ^ is.r.eff.ctags) (hw : (s.resumeCopies is.w m).wg? is.w.id = some w) (hfault : ∀ c ∈ w.copiesIn m, c.fault = none)
    (hset : (if all then w.tags &&& m == m else w.tags &&& m != 0) = true) :
    tagWait f all done s is = .done (done is (s.resumeCopies is.w m) (w.tags &&& m)) false := by
  have hok : ¬ (m.toNat / 2 ^ is.r.eff.ctags ≠ 0 ∨ (m = 0 ∧ (!all) = true)) := by
    rintro (hdiv | ⟨h0, hall⟩)
    · exact hdiv (Nat.div_eq_of_lt hlt)
    · rw [Bool.not_eq_true'] at hall
      simp [hall, h0] at hset
  unfold tagWait
  dsimp only
  rw [hm, if_neg hok, hw]
  dsimp only
  rw [lowestFaulted_eq_none hfault]
  dsimp only
  rw [if_pos hset]

/-- The lowest set bit of a mask. -/
theorem lowestTag_eq {m : Dword} {k : Nat} (hk : k < 64) (hset : m.getLsbD k = true) (hlow : ∀ j < k, m.getLsbD j = false) : lowestTag m = k := by
  have hfind : (List.range 64).find? (fun i => m.getLsbD i) = some k := by
    rw [List.find?_range_eq_some]
    exact ⟨hset, by simpa using hk, fun j hj => by simp [hlow j hj]⟩
  rw [lowestTag, hfind]
  rfl

/-- Where replay mode is off and no watch unit is hit, an operation without entries in the replay log does what its body says. -/
theorem Issue.watched_go {rs : List WatchRange} {body : State → Effect} (hplay : s.playing is.w.vf is.w.ctx = false)
    (hwatch : is.watchHit s rs = none) : is.watched s rs [] body = body s := by
  have hgate : s.replayGate is.accessor.key is.w.vf is.w.ctx [] = .go s := by
    rw [State.replayGate, hplay]
    rfl
  unfold Issue.watched
  rw [hgate, hwatch]

/-- Settles O33: a copy starts where it fits, its bytes come from the places of R242, and a tag wait goes on once its tags are set. -/
theorem asyncCopies : Obligations.AsyncCopies := by
  intro f s is
  refine ⟨fun hr => ?starts, fun hr => ?rows, ?source, fun c o n i hi => c.exists_srcRun o hi, ?waits⟩
  case starts =>
    intro d x n t q row h0 hmax htag hrows hd hx hprot hgate hroom hplay hwatch
    have hlen : ¬ (n = 0 ∨ 2 ^ 30 < n) := by omega
    have hcopies : ¬ (is.r.eff.ctags ≤ t ∨ is.r.eff.copies = 0) := by omega
    have hfit : ¬ (f.mod.toNat % 4 ≠ 0 ∧ (n % rowLen f.spec ≠ 0 ∨ 256 < n / rowLen f.spec)) := fun h => by
      obtain ⟨hmod, hdiv⟩ := hrows h.1
      exact h.2.elim (absurd hmod) (Nat.not_lt.2 hdiv)
    have hfree : ¬ is.r.eff.copies ≤ is.w.copies.length := Nat.not_le.2 hroom
    have hprot' : ¬ s.meetsProtected is.w.vf is.w.ctx (addrVa d) n = true := ne_true_of_eq_false hprot
    refine runOp_done hr.1 hr.2 ?_
    rw [if_neg hlen, if_neg hcopies, if_neg hfit, if_neg (not_not.2 hd), if_neg (not_not.2 hx), if_neg hprot', hgate]
    show (if _ then _ else _) = _
    rw [if_neg hfree, Issue.watched_go hplay hwatch]
  case rows =>
    intro n row h0 hmax htag hcopies hmode hrows
    have hlen : ¬ (n = 0 ∨ 2 ^ 30 < n) := by omega
    have hnum : ¬ (is.r.eff.ctags ≤ (is.word f.c is.l0).toNat ∨ is.r.eff.copies = 0) := by omega
    exact runOp_hit hr.1 hr.2 ((if_neg hlen).trans ((if_neg hnum).trans (if_pos ⟨hmode, hrows⟩)))
  case source =>
    intro c e i j b hmode he row m hi _ hb
    exact Copy.srcOff_transposed hmode he hi hb
  case waits =>
    intro m s1 w hlt hw hfault
    refine ⟨fun hr hset => ?any, fun hr hset => ?all, fun hr k hk hset hlow => ?first⟩
    case any =>
      exact runOp_done hr.1 hr.2 (tagWait_done rfl hlt hw hfault (by simpa using hset))
    case all =>
      exact runOp_done hr.1 hr.2 (tagWait_done rfl hlt hw hfault (by simpa using hset))
    case first =>
      have hne : w.tags &&& m ≠ 0 := fun e => by simp [e] at hset
      refine (runOp_done hr.1 hr.2 (tagWait_done rfl hlt hw hfault (by simpa using hne))).trans ?_
      rw [lowestTag_eq hk hset hlow]
      rfl

end Sys2Proof.Machine
end

section
/-! Bindings and latches, with the merges of `unbind` and `rel` (R250 to R252, R269). -/

namespace Sys2Proof.Machine

variable {i : Instr} {f : Fields} {s s1 t : State} {is : Issue} {sp : Spot} {sps : List Spot} {x : Dword} {q : Req} {wr release loud : Bool}
  {scope : Scope} {more : List Touch}

/-! ## An operation on a latch word -/

section LatchWord

variable {body : State → Spot → Effect}

theorem Issue.whole_of_performs {e : Effect} (h : e.performs = true) : is.whole e = e := by
  cases e with
  | hit => cases h
  | _ => rfl

/-- An operation that reaches its latch word, and is performed there, does what its body says. -/
theorem Issue.onLatch_go {e : Effect} (h : ReachesWith s is more [is.latchRange x wr] [q] release scope s1 (sp :: sps))
    (hb : body (s1.noteSpot is sp) sp = e) (he : e.performs = true) : is.onLatch s more x q wr release scope body = e := by
  rw [Issue.onLatch, Issue.accessWith_go h ((congrArg Effect.performs hb).trans he)]
  exact (congrArg is.whole hb).trans (Issue.whole_of_performs he)

end LatchWord

/-! ## Merges (R269, R272, R273) -/

section Merges

variable {rs : List WatchRange} {hs : List Shadow} {xs : List Home} {body : List Home → Effect}

theorem Issue.merging_room (hgate : is.mergeGate s hs = .go xs) (hroom : s.mergeRoom is.w.vf xs = true) : is.merging s rs hs body = body xs := by
  unfold Issue.merging
  rw [hgate]
  exact if_pos hroom

theorem Issue.merging_owes (hgate : is.mergeGate s hs = .go xs) (hroom : s.mergeRoom is.w.vf xs = false) (hwatch : is.watchHit s rs = none) :
    is.merging s rs hs body = .stay (s.oweMerge is xs) := by
  unfold Issue.merging
  rw [hgate]
  exact (if_neg (ne_true_of_eq_false hroom)).trans (by rw [hwatch])

/-- An operation whose merge still owed its homes waits until they are written, and then ends. -/
theorem Ready.endsMerge {run : Issue → Effect} {pa : Nat} {g : State → State} (hr : Ready i s is) (he : exec i s = runOp i s run)
    (hrun : run is = is.endMerge s (some pa) g) : EndsMerge i s is (touchesOf pa 8 1) g := by
  refine ⟨fun howes => he.trans (runOp_stay hr.1 hr.2 (hrun.trans (if_pos (by simp [howes])))), fun hpaid hroom s1 hgate => ?_⟩
  exact he.trans (runOp_done hr.1 hr.2 (hrun.trans (Issue.endMerge_done hpaid hroom hgate)))

end Merges

/-! ## `bind` and `unbind` (R250, R269) -/

/-- The state without a binding. -/
def State.unbound (s : State) (b : Binding) : State := { s with bindings := s.bindings.filter (fun y => y != b) }

/-- `unbind` of a binding: the end of a merge that is under way, or the merge of its shadow copies, and then the operation on its latch word. -/
theorem exec_unbind {b : Binding} (hform : addrFormOk (is.destAddr f is.l0) 0 = true)
    (hfind : s.bindings.find? (fun b => b.vf == is.w.vf && b.ctx == is.w.ctx && b.start == addrVa (is.destAddr f is.l0)) = some b) :
    ∃ run, exec (.unbind f) s = runOp (.unbind f) s run ∧
      (is.merged = true → run is = is.endMerge s ((s.spotOf is (is.latchReq b.latch)).map Spot.pa) (·.unbound b)) ∧
      (is.merged = false → ∀ sps, s.checkReqs is [is.latchReq b.latch] = .go sps →
        run is = is.merging s [is.latchRange b.latch true] (s.shadowsOf [b]) (fun xs =>
          is.onLatch s (xs.flatMap Home.touches) b.latch (is.latchReq b.latch) true false .system (fun s1 _ =>
            .done ((s1.merge is xs).unbound b) true))) := by
  refine ⟨_, rfl, fun hmerged => ?_, fun hmerged sps hsps => ?_⟩
  · simp only [hfind, hform, hmerged]
    rfl
  · simp only [hfind, hform, hmerged, hsps]
    rfl

/-- Settles O34: `bind` is one operation on its latch word; `unbind` is a merge, and one on its latch word. -/
theorem bindings : Obligations.Bindings := by
  intro f s s1 is sp sps x
  refine ⟨fun hr => ?bind, fun hr b xs hform hnew hfind hgate => ?unbind, fun hr b hform hmerged hfind hspot => ?ends, fun hr hfind => ?unbound⟩
  case bind =>
    intro n l hform hx h0 hn hl hfirst hcount h s2
    have hok : ¬ ((!addrFormOk x 0) = true ∨ addrVa x % 32 ≠ 0 ∨ n = 0 ∨ n % 32 ≠ 0 ∨ addrVa l % 8 ≠ 0) := by
      simp [hform, hx, h0, hn, hl]
    refine runOp_done hr.1 hr.2 ((if_neg hok).trans ?_)
    rw [hfirst]
    exact (if_neg (Nat.not_le.2 hcount)).trans (Issue.onLatch_go h rfl rfl)
  case unbind =>
    obtain ⟨run, he, -, hmerge⟩ := exec_unbind hform hfind
    refine ⟨fun hroom h => ?_, fun hroom hsps hwatch => ?_⟩
    · have hgo := (hmerge hnew _ h.checked).trans ((Issue.merging_room hgate hroom).trans (Issue.onLatch_go h rfl rfl))
      exact he.trans (runOp_done hr.1 hr.2 hgo)
    · exact he.trans (runOp_stay hr.1 hr.2 ((hmerge hnew _ hsps).trans (Issue.merging_owes hgate hroom hwatch)))
  case ends =>
    obtain ⟨run, he, hend, -⟩ := exec_unbind hform hfind
    refine hr.endsMerge he ((hend hmerged).trans ?_)
    rw [hspot]
    rfl
  case unbound =>
    have hfind' : s.bindings.find? (fun b => b.vf == is.w.vf && b.ctx == is.w.ctx && b.start == addrVa (is.destAddr f is.l0)) = none := hfind
    refine runOp_hit hr.1 hr.2 ?_
    simp only [hfind']
    rfl

/-! ## Latches (R251, R252) -/

section Acquire

variable {excl : Bool}

theorem Group.acquiring_of_wait {g : Group} {k : WaitKind} (h : ∀ w, g.wait = some w → w.kind ≠ k) : g.acquiring k = false := by
  unfold Group.acquiring
  split
  · next w hw => simpa using h w hw
  · rfl

/-- An acquire that has been granted retires. -/
theorem acquire_granted {h : Hold} (hgrant : is.g.acquiring .granted = true) (hhold : is.g.holdOf (addrVa (is.destAddr f is.l0)) = some h) :
    acquire f excl s is = .done (is.granted s h.pa (addrVa (is.destAddr f is.l0))) true := by
  rw [acquire, if_pos hgrant, hhold]
  rfl

/-- What an acquire of the latch at `x` does at its word: a further shared hold of a latch held shared, or the group joins the queue. -/
def Issue.acquireBody (is : Issue) (x : Dword) (excl : Bool) (s : State) (sp : Spot) : Effect :=
  if (is.g.holdOf (addrVa x)).isSome && !(readLatch s.mem sp.pa).x then
    .done (is.granted ((s.updLatch is.w.vf sp.pa Note.noted (fun l => { l with shared := l.shared + 1 })).updGroup is.g.core is.g.slot
      (Group.hold sp.pa x false sp.note)) sp.pa (addrVa x)) true
  else is.join s sp x excl

/-- The holds of a group let it acquire the latch at `x`: it has room for one more, or a shared one of this latch to share again (R251). -/
def Issue.mayAcquire (is : Issue) (x : Dword) (excl : Bool) : Prop :=
  match is.g.holdOf (addrVa x) with
  | some h => excl = false ∧ h.excl = false
  | none => is.g.holds.length < 8

/-- A new acquire of a well-formed address is an operation on the latch word. -/
theorem acquire_new (hform : addrFormOk (is.destAddr f is.l0) 0 = true) (halign : addrVa (is.destAddr f is.l0) % 8 = 0)
    (hwait : ∀ w, is.g.wait = some w → w.kind ≠ .granted ∧ w.kind ≠ .latch) (hmay : is.mayAcquire (is.destAddr f is.l0) excl) :
    acquire f excl s is = is.onLatch s [] (is.destAddr f is.l0) (is.latchWrite (is.destAddr f is.l0)) false false .system
      (is.acquireBody (is.destAddr f is.l0) excl) := by
  have hok : ¬ ((!addrFormOk (is.destAddr f is.l0) 0) = true ∨ addrVa (is.destAddr f is.l0) % 8 ≠ 0) := by simp [hform, halign]
  rw [acquire, if_neg (by simp [Group.acquiring_of_wait fun w hw => (hwait w hw).1]),
    if_neg (by simp [Group.acquiring_of_wait fun w hw => (hwait w hw).2]), if_neg hok]
  refine if_neg ?_
  unfold Issue.mayAcquire at hmay
  cases hhold : is.g.holdOf (addrVa (is.destAddr f is.l0)) <;> simpa [hhold] using hmay

/-- A group that has joined a latch's queue retires where it is granted at once, and else waits; both perform the acquire. -/
theorem Issue.join_performs (s : State) (sp : Spot) (x : Dword) : (is.join s sp x excl).performs = true := by
  unfold Issue.join
  dsimp only
  split
  · split <;> rfl
  · rfl

/-- The wait of an acquire in its latch's queue. -/
def Issue.latchWait (is : Issue) (sp : Spot) (x : Dword) : Wait :=
  { kind := .latch, cycles := 0, addr := x, expired := false, pos := is.pos, func := (is.lane is.l0).func, mask := is.mask, note := sp.note }

/-- The state in which a group has joined the queue of a latch, and what can be granted has been. -/
def Issue.joined (is : Issue) (s : State) (sp : Spot) (x : Dword) (excl : Bool) : State :=
  ((s.updGroup is.g.core is.g.slot (fun g => { g with wait := some (is.latchWait sp x) })).joinLatch sp.pa
    (.group is.g.core is.g.slot excl) Note.noted).grantAll sp.pa

/-- The group of `is` has been granted the latch that it waited for. -/
def Issue.isGranted (is : Issue) (s : State) : Prop := ∃ g w, s.group? is.g.core is.g.slot = some g ∧ g.wait = some w ∧ w.kind = .granted

theorem Issue.isGranted_iff {g : Group} (hg : s.group? is.g.core is.g.slot = some g) : is.isGranted s ↔ g.acquiring .granted = true := by
  simp only [Issue.isGranted, hg, Option.some.injEq, Group.acquiring]
  constructor
  · rintro ⟨g, w, rfl, hw, hk⟩
    simp [hw, hk]
  · intro h
    split at h
    · next w hw => exact ⟨g, w, rfl, hw, by simpa using h⟩
    · cases h

theorem Issue.join_granted (h : is.isGranted (is.joined s sp x excl)) :
    is.join s sp x excl = .done (is.granted (is.joined s sp x excl) sp.pa (addrVa x)) true := by
  unfold Issue.join
  dsimp only
  split
  · next g hg => exact if_pos ((Issue.isGranted_iff hg).1 h)
  · next hnone =>
    obtain ⟨g, w, hg, -⟩ := h
    exact absurd (hnone.symm.trans hg) (Option.some_ne_none g).symm

theorem Issue.join_queued (h : ¬ is.isGranted (is.joined s sp x excl)) :
    is.join s sp x excl = .queued (is.joined s sp x excl) (is.latchWait sp x) := by
  unfold Issue.join
  dsimp only
  split
  · next g hg => exact if_neg (mt (Issue.isGranted_iff hg).2 h)
  · rfl

end Acquire

/-- The latch that a `rel` releases: the end of a merge that is under way, or the merge of what is bound at its scope, and then the operation on its
latch word. -/
theorem exec_rel {h : Hold} (hform : addrFormOk (is.destAddr f is.l0) 0 = true) (hhold : is.g.holdOf (addrVa (is.destAddr f is.l0)) = some h) :
    ∃ run, exec (.rel f) s = runOp (.rel f) s run ∧
      (is.merged = true → run is = is.endMerge s (some h.pa) (fun a => a.giveUp is h h.pa h.note)) ∧
      (is.merged = false → ∀ sp sps, s.checkReqs is [is.latchWrite (is.destAddr f is.l0)] = .go (sp :: sps) →
        is.releaseGate s true (quals is.g f false true [.generic]).scope = none →
        run is = is.merging s [is.latchRange (is.destAddr f is.l0) false]
          (is.mergedBy s (quals is.g f false true [.generic]).scope (addrVa (is.destAddr f is.l0)) sp.pa) (fun xs =>
            is.onLatch s (xs.flatMap Home.touches) (is.destAddr f is.l0) (is.latchWrite (is.destAddr f is.l0)) false true
              (quals is.g f false true [.generic]).scope (fun s1 sp => .done ((s1.merge is xs).giveUp is h sp.pa Note.noted) true))) := by
  refine ⟨_, rfl, fun hmerged => ?_, fun hmerged sp sps hsps hgate => ?_⟩
  · simp only [hhold, hform, hmerged]
    rfl
  · simp only [hhold, hform, hmerged, hsps, hgate]
    rfl

/-- Settles O35: an acquire is one operation on its latch word, which joins its queue or adds a shared hold; `rel` is a merge, and one on its latch
word. -/
theorem latches : Obligations.Latches := by
  intro f s s1 is sp sps x acq later
  have acquires (i : Instr) (excl : Bool) (he : exec i s = runOp i s (acquire f excl s)) : acq i excl := by
    intro hr hform halign hwait hhold hroom h hold s3 granted
    have hmay : is.mayAcquire x excl := by simpa [Issue.mayAcquire, hhold] using hroom
    have hbody : is.acquireBody x excl (s1.noteSpot is sp) sp = is.join (s1.noteSpot is sp) sp x excl := if_neg (by simp [hhold])
    have hjoin : acquire f excl s is = is.join (s1.noteSpot is sp) sp x excl :=
      (acquire_new hform halign hwait hmay).trans (Issue.onLatch_go h hbody (is.join_performs ..))
    exact ⟨fun hgranted => he.trans (runOp_done hr.1 hr.2 (hjoin.trans (Issue.join_granted hgranted))),
      fun hqueued => he.trans (runOp_queued hr.1 hr.2 (hjoin.trans (Issue.join_queued hqueued)))⟩
  have grantedLater (i : Instr) (excl : Bool) (he : exec i s = runOp i s (acquire f excl s)) : later i := by
    rintro hr ⟨w, hw, hkind⟩ h hhold
    have hgrant : is.g.acquiring .granted = true := by simp [Group.acquiring, hw, hkind]
    exact he.trans (runOp_done hr.1 hr.2 (acquire_granted hgrant hhold))
  refine ⟨acquires _ true rfl, acquires _ false rfl, grantedLater _ true rfl, grantedLater _ false rfl,
    fun hr hform halign hwait hshared h => ?again, fun hr h xs hform hhold hnew => ?rel,
    fun hr h hform hhold hmerged => ?ends, fun a h pa n => rfl, fun hr hhold => ?unheld⟩
  case again =>
    intro s2 hx
    obtain ⟨held, hhold, hexcl⟩ := hshared
    have hmay : is.mayAcquire x false := by simp [Issue.mayAcquire, hhold, hexcl]
    have hshare : ((is.g.holdOf (addrVa x)).isSome && !(readLatch s2.mem sp.pa).x) = true := by simp [hhold, hx]
    exact runOp_done hr.1 hr.2 ((acquire_new hform halign hwait hmay).trans (Issue.onLatch_go h (if_pos hshare) rfl))
  case rel =>
    intro sc hs hgate
    obtain ⟨run, he, -, hmerge⟩ := exec_rel hform hhold
    refine ⟨fun hroom hreach => ?_, fun hroom hsps hrel hwatch => ?_⟩
    · have hgo := (hmerge hnew _ _ hreach.checked hreach.released).trans ((Issue.merging_room hgate hroom).trans (Issue.onLatch_go hreach rfl rfl))
      exact he.trans (runOp_done hr.1 hr.2 hgo)
    · exact he.trans (runOp_stay hr.1 hr.2 ((hmerge hnew _ _ hsps hrel).trans (Issue.merging_owes hgate hroom hwatch)))
  case ends =>
    obtain ⟨run, he, hend, -⟩ := exec_rel hform hhold
    exact hr.endsMerge he (hend hmerged)
  case unheld =>
    have hhold' : is.g.holdOf (addrVa (is.destAddr f is.l0)) = none := hhold
    refine runOp_hit hr.1 hr.2 ?_
    simp only [hhold']
    rfl

end Sys2Proof.Machine
end

section
/-! The phases of barriers (R257, R261, R263). -/

namespace Sys2Proof.Machine

theorem BarFields.complete_iff (b : BarFields) : b.complete = true ↔ b.arrivals = b.expected ∧ b.expected ≠ 0 ∧ b.balance = 0 := by
  simp [BarFields.complete, and_assoc]

/-- The phases that count as completed are the `2 ^ 31` before the present one, modulo `2 ^ 32`. -/
theorem phasePassed_iff (phase p : Nat) :
    phasePassed phase p = true ↔ 1 ≤ ((phase : Int) - p) % 2 ^ 32 ∧ ((phase : Int) - p) % 2 ^ 32 ≤ 2 ^ 31 := by
  simp only [phasePassed, Bool.and_eq_true, decide_eq_true_eq]
  omega

/-- Settles O39: a step of a barrier writes the object back, advanced where its phase is complete, and not at all where it is poisoned. -/
theorem barrierPhases : Obligations.BarrierPhases := by
  intro s pa f b
  refine ⟨fun hp => if_pos hp, fun hp ha he hb => ?completes, fun hp hopen => ?goesOn, phasePassed_iff b.phase⟩
  case completes =>
    rw [State.barStep, if_neg (ne_true_of_eq_false hp)]
    exact if_pos ((BarFields.complete_iff b).2 ⟨ha, he, hb⟩)
  case goesOn =>
    rw [State.barStep, if_neg (ne_true_of_eq_false hp)]
    exact if_neg (mt (BarFields.complete_iff b).1 hopen)

end Sys2Proof.Machine
end

section
/-! The events that end what operations have begun: latch grants, acknowledgements, chunks of copies, and feeds (R231, R236, R241, R251, R308, R319,
R445). -/

namespace Sys2Proof.Machine

variable {s s1 : State} {id k : Nat} {w : Workgroup}

/-! ## Latch grants (R251, R445) -/

theorem exec_latchGrant (s : State) (pa : Nat) : exec (.latchGrant pa) s =
    .next (((s.grantAll pa).rejudgeAll.grantStop pa).elim (s.grantAll pa).rejudgeAll (s.grantAll pa).rejudgeAll.replayStop) := by
  refine congrArg Host.Outcome.next ?_
  cases (s.grantAll pa).rejudgeAll.grantStop pa <;> rfl

/-! ## Acknowledgements (R231, R319) -/

/-- The state in which a write has come to its home, as far as the recorder and replay mode let it. -/
def State.arrived (s : State) (p : Posted) : State :=
  if p.performed then s
  else s.performRun (Posted.before p.eff.ranges (s.posted.filter (fun q => q.by p.core p.slot p.start && !q.performed && q.id < p.id)).reverse ++ [p])

theorem exec_acknowledge {p : Posted} (hp : s.posted.find? (fun p => p.id == id) = some p) : exec (.acknowledge id) s =
    .next (if (s.arrived p).posted.any (fun q => q.id == id && q.performed) then
        if p.counted then
          ({ s.arrived p with posted := (s.arrived p).posted.filter (fun q => q.id != id) } : State).ackToOwner p.core p.slot p.start
        else { s.arrived p with posted := (s.arrived p).posted.filter (fun q => q.id != id) }
      else s.arrived p) := by
  show execAcknowledge id s = _
  rw [execAcknowledge, hp]
  rfl

/-! ## Chunks of copies (R241, R308) -/

/-- What the turn of a chunk comes to: `performed` where it is performed. -/
def ChunkTurn.result (w : Workgroup) (c : Copy) (performed : State → List Placed → State) : ChunkTurn → State
  | .go s pl => performed s pl
  | .fail s x => s.recordCopyFault w c x
  | .absent s => s.updWg w.id (fun y => y.updCopy c.id (fun _ => { c with absent := some (c.absent.getD 0) }))
  | .stay s => s

/-- The copy stands as it goes on, a serviced fault being gone. -/
def State.keepCopy (s : State) (w : Workgroup) (c : Copy) : State := s.updWg w.id (fun y => y.updCopy c.id (fun _ => c))

section Chunks

variable {c c0 : Copy} (hw : s.copyOwner id = some (w, c0)) (hc : c0.serviced s = c) (hopen : c.open? k = true)
  (hacq : w.acquiring c.start c.id = false)
include hw hc hopen hacq

/-- A chunk that has not been read is read in its turn. -/
theorem exec_chunkLand_read (hread : c.read.find? (fun p => p.1 == k) = none) : exec (.chunkLand id k) s =
    .next ((s.chunkTurnOn (c.owner w (2 * k)) (s.blimitOf w) c.absent false c.notag (c.pieces k) (fun p => !p.write)).result w c
      (fun s1 pl => (s1.keepCopy w c).readChunk w c k pl)) := by
  subst hc
  refine congrArg Host.Outcome.next ?_
  simp only [hw, hopen, hacq, hread, Bool.not_false, and_self, if_true]
  cases s.chunkTurnOn .. <;> rfl

/-- A chunk that has been read lands in its turn. -/
theorem exec_chunkLand_land {n : Nat} {m : Sparse 8} (hread : c.read.find? (fun p => p.1 == k) = some (n, m)) : exec (.chunkLand id k) s =
    .next ((s.chunkTurn (c.owner w (2 * k + 1)) (s.blimitOf w) c.absent false c.notag (c.writes k)).result w c
      (fun s1 pl => (s1.keepCopy w c).landRead w c k m s.fresh pl)) := by
  subst hc
  refine congrArg Host.Outcome.next ?_
  simp only [hw, hopen, hacq, hread, Bool.not_false, and_self, if_true]
  cases s.chunkTurn .. <;> rfl

end Chunks

/-- No unit was written between two moments at which every byte was the same. -/
theorem raced_of_same {addr : Nat → Nat} {n i : Nat} {was now : Nat → Byte} (h : ∀ j, was j = now j) : raced addr n was now i = false := by
  simp [raced, h]

/-- A chunk lands with what was read, where no choice is free, or neither its source nor its destination has been written in between. -/
theorem Copy.landed_eq_read {c : Copy} {k fresh i : Nat} {m src dst : Sparse 8} {free : Bool}
    (h : free = false ∨ (c.acquire = true ∨ m.look i = src.look i) ∧ ∀ j, m.look (64 + j) = dst.look j) :
    c.landed k m src dst free fresh i = m.look i := by
  unfold Copy.landed
  dsimp only
  rcases h with rfl | ⟨hsrc, hdst⟩
  · rfl
  · have hval : (free && !c.acquire && m.look i != src.look i) = false := by
      rcases hsrc with h | h <;> simp [h]
    rw [raced_of_same hdst, hval]
    simp

/-! ## Feeds (R236) -/

/-- What the turn of a feed comes to: its entry gets its bytes, or a fault, or still waits. -/
def feedResult (g : Group) (w : Workgroup) (e : QEntry) : ChunkTurn → State
  | .go s pl => (s.count g.core w.vf w.ctx 0x0B 1).endFeed g.core g.slot e (s.readPieces pl)
      (if pl.any (fun x => Config.cxlBase ≤ x.2.1) then 5 else 4) none
  | .fail s x => s.endFeed g.core g.slot e [] 4 (some x)
  | .absent s | .stay s => s

section Feeds

variable {core slot entry : Nat} {g : Group} {e : QEntry} (hg : s.group? core slot = some g)
  (he : g.feeds.find? (fun e => e.id == entry) = some e) (hw : s.wg? g.wg = some w) (hagain : e.complete = false ∨ e.again g = true)
  (hheld : g.feedHeld entry = false)
include hg he hw hagain hheld

/-- The read of a feed that is not complete, or is tried again, is performed. -/
theorem exec_feedComplete : exec (.feedComplete core slot entry) s = .next (s.runFeed g w e) := by
  have hrun : ((e.complete && !e.again g) || g.feedHeld entry) = false := by
    rcases hagain with h | h <;> simp [h, hheld]
  refine congrArg Host.Outcome.next ?_
  simp only [hg, he, hw, hrun, Bool.false_eq_true, if_false]

end Feeds

/-- Settles O45: each event does what the agent that it names has to do next. -/
theorem arrivalsAndGrants : Obligations.ArrivalsAndGrants := by
  refine ⟨fun s pa => ?grants, fun s id p hp => ?acknowledged, fun s id k w c0 hw => ?chunks, fun c k fresh i m src dst free => Copy.landed_eq_read,
    fun s core slot entry g e w hg he hw hagain hheld => ?feeds⟩
  case grants =>
    intro s1
    refine ⟨fun h => ?_, fun ac h => ?_⟩
    · rw [exec_latchGrant, show (s.grantAll pa).rejudgeAll.grantStop pa = none from h]
      rfl
    · rw [exec_latchGrant, show (s.grantAll pa).rejudgeAll.grantStop pa = some ac from h]
      rfl
  case acknowledged =>
    intro older s1 s2
    have hexec := exec_acknowledge hp
    refine ⟨fun ⟨q, hq, hid, hperf⟩ => ?_, fun hnone => ?_⟩
    · have hany : (s.arrived p).posted.any (fun q => q.id == id && q.performed) = true := List.any_eq_true.2 ⟨q, hq, by simp [hid, hperf]⟩
      rw [if_pos hany] at hexec
      exact ⟨fun hcount => hexec.trans (congrArg _ (if_pos hcount)), fun hcount => hexec.trans (congrArg _ (if_neg (ne_true_of_eq_false hcount)))⟩
    · have hany : ¬ (s.arrived p).posted.any (fun q => q.id == id && q.performed) = true := by
        rw [Bool.not_eq_true, List.any_eq_false]
        intro q hq h
        simp only [Bool.and_eq_true, beq_iff_eq] at h
        exact absurd h.2 (ne_true_of_eq_false (hnone q hq h.1))
      rw [if_neg hany] at hexec
      exact hexec
  case chunks =>
    intro c hopen hacq kept
    refine ⟨fun hread => ?read, fun n m hread => ?land⟩
    case read =>
      intro turn
      have hexec := exec_chunkLand_read hw rfl hopen hacq hread
      exact ⟨fun s1 pl ht => hexec.trans (congrArg _ (congrArg _ ht)), fun s1 x ht => hexec.trans (congrArg _ (congrArg _ ht)),
        fun s1 ht => hexec.trans (congrArg _ (congrArg _ ht))⟩
    case land =>
      intro turn
      have hexec := exec_chunkLand_land hw rfl hopen hacq hread
      refine ⟨fun s1 pl ht => ?_, fun s1 x ht => hexec.trans (congrArg _ (congrArg _ ht)), fun s1 ht => hexec.trans (congrArg _ (congrArg _ ht))⟩
      intro s2 bytes s3
      have hland := hexec.trans (congrArg _ (congrArg _ ht))
      exact ⟨fun hend => hland.trans (congrArg _ (if_pos hend)), fun hmore => hland.trans (congrArg _ (if_neg hmore))⟩
  case feeds =>
    have hexec := exec_feedComplete hg he hw hagain hheld
    refine ⟨fun hnone => ?_, fun ps hps => ?_⟩
    · rw [hexec, State.runFeed, hnone]
    · intro turn
      have hturn : s.runFeed g w e = feedResult g w e turn := by rw [State.runFeed, hps]; rfl
      exact ⟨fun s1 pl ht => hexec.trans (congrArg _ (hturn.trans (congrArg _ ht))),
        fun s1 x ht => hexec.trans (congrArg _ (hturn.trans (congrArg _ ht)))⟩

end Sys2Proof.Machine
end

section
/-! The events of the matrix engines: tile entries, chunks of tile transfers, commits, and chunks of epilogue stores (R308, R325, R356, R357, R365,
R367). -/

namespace Sys2Proof.Machine

variable {s : State} {w : Workgroup}

/-- What the turn of a chunk of a matrix engine comes to: `performed` where it is performed, `fails` with the fault of its access, and `waits` for an
absent peer. -/
def ChunkTurn.outcome (performed : State → List Placed → State) (fails : State → FaultInfo → State) (waits : State → State) : ChunkTurn → State
  | .go s pl => performed s pl
  | .fail s f => fails s f
  | .absent s => waits s
  | .stay s => s

/-! ## Tile entries (R325) -/

/-- The engine takes a tile entry without a fault, which fits into the tile that no running transfer fills. -/
theorem exec_tileEntryRemove {core slot queue en : Nat} {g : Group} {e : QEntry} {t : BitVec 4} (hg : s.group? core slot = some g)
    (hhead : g.tileHead queue = some (e, t)) (hw : s.wg? g.wg = some w) (hheld : w.held = some en) (hdesc : (s.engine en).tdesc.look t.toNat ≠ 0)
    (hfree : ∀ x ∈ w.xfers, x.failed ∨ x.loose ∨ x.engine ≠ en ∨ x.buf ≠ (s.engine en).buf t.toNat) (hfault : e.fault = none)
    (hstrict : (g.mdef.getLsbD 30 && w.touched t.toNat) = false)
    (hfits : ((s.engine en).fill.look t.toNat).toNat + e.count ≤ (TDesc.of ((s.engine en).tdesc.look t.toNat)).size) :
    let eng := s.engine en
    let at0 := (eng.fill.look t.toNat).toNat
    let eng1 := (eng.writeBuf (eng.buf t.toNat) at0 (readBytes e.bytes 0 e.count)).markDirty t.toNat
    exec (.tileEntryRemove core slot queue) s =
      .next (((s.updGroup core slot (fun g => g.dropEntry e.id)).updWg w.id (fun y => y.keepTile eng t.toNat)).putEngine
        { eng1 with fill := eng1.fill.put t.toNat (BitVec.ofNat 32 (at0 + e.count)) }) := by
  intro eng at0 eng1
  have hbusy : ¬ (eng.tdesc.look t.toNat = 0 ∨
      w.xfers.any (fun x => !x.failed && !x.loose && x.engine == en && x.buf == eng.buf t.toNat) = true) := by
    rintro (h | h)
    · exact hdesc h
    · obtain ⟨x, hx, hrun⟩ := List.any_eq_true.1 h
      simp only [Bool.and_eq_true, Bool.not_eq_true', beq_iff_eq] at hrun
      obtain ⟨⟨⟨hfailed, hloose⟩, hen⟩, hbuf⟩ := hrun
      rcases hfree x hx with h | h | h | h
      exacts [absurd (h.symm.trans hfailed) (by decide), absurd (h.symm.trans hloose) (by decide), h hen, h hbuf]
  have hover : ¬ ((g.mdef.getLsbD 30 && w.touched t.toNat) = true ∨ (TDesc.of (eng.tdesc.look t.toNat)).size < at0 + e.count) := by
    rintro (h | h)
    exacts [ne_true_of_eq_false hstrict h, Nat.not_lt.2 hfits h]
  refine congrArg Host.Outcome.next ?_
  simp only [hg, hhead, hw, hheld]
  rw [if_neg hbusy, hfault]
  exact if_neg hover

/-! ## Chunks of tile transfers (R308, R356, R357) -/

/-- The chunk of a transfer in its turn: a load reads it first, and what has been met moves. -/
def State.transferChunk (s : State) (w : Workgroup) (x : TileXfer) (c : Nat × Nat × Nat) (s1 : State) (pl : List Placed) : State :=
  match x.seen with
  | none => s1.seeChunk w x (s1.readPieces pl)
  | some m =>
    { s1 with fresh := s1.fresh + 64 }.moveChunk w x c
      (x.movedBytes c m (s1.memoryNow w x c m) (s1.storedByte w x c (s1.memoryNow w x c m)) (s.quietLog w.vf w.ctx) s.fresh) pl

theorem State.transferChunk_reads {x : TileXfer} {c : Nat × Nat × Nat} {s1 : State} {pl : List Placed} (hseen : x.seen = none) :
    s.transferChunk w x c s1 pl = s1.seeChunk w x (s1.readPieces pl) := by
  rw [State.transferChunk, hseen]

theorem State.transferChunk_moves {x : TileXfer} {c : Nat × Nat × Nat} {s1 : State} {pl : List Placed} {m : Sparse 8} (hseen : x.seen = some m) :
    s.transferChunk w x c s1 pl = { s1 with fresh := s1.fresh + 64 }.moveChunk w x c
      (x.movedBytes c m (s1.memoryNow w x c m) (s1.storedByte w x c (s1.memoryNow w x c m)) (s.quietLog w.vf w.ctx) s.fresh) pl := by
  rw [State.transferChunk, hseen]

section Transfers

variable {id : Nat} {x : TileXfer} {c : Nat × Nat × Nat} {ps : List Piece} (hx : s.xferOwner id = some (w, x)) (hfailed : x.failed = false)
  (hacq : w.acquiring x.start x.id = false)
  (hfirst : ∀ y ∈ w.xfers, y.failed = false → y.loose = false → y.id < x.id → y.engine = x.engine → y.buf ≠ x.buf)
  (hc : (xferChunks (TDesc.of x.desc) x.addr x.stride)[x.moved]? = some c) (hps : piecesOf x.addr (c.1 : Int) c.2.2 0 x.store = ps)

include hfailed hacq hfirst in
/-- Nothing comes before the next chunk of a transfer. -/
theorem TileXfer.not_held : ¬ (x.failed = true ∨ w.acquiring x.start x.id = true ∨
    w.xfers.any (fun y => !y.failed && !y.loose && y.id < x.id && y.engine == x.engine && y.buf == x.buf) = true) := by
  rintro (h | h | h)
  · exact ne_true_of_eq_false hfailed h
  · exact ne_true_of_eq_false hacq h
  · obtain ⟨y, hy, holder⟩ := List.any_eq_true.1 h
    simp only [Bool.and_eq_true, Bool.not_eq_true', decide_eq_true_eq, beq_iff_eq] at holder
    obtain ⟨⟨⟨⟨hrun, hloose⟩, hid⟩, hen⟩, hbuf⟩ := holder
    exact hfirst y hy hrun hloose hid hen hbuf

include hx hfailed hacq hfirst hc hps

/-- A store first meets what it is about to overwrite. -/
theorem exec_tileTransferChunk_meets {m : Sparse 8} (hm : s.overwrites w x ps = some m) :
    exec (.tileTransferChunk id) s = .next (s.seeChunk w x m) := by
  subst hps
  refine congrArg Host.Outcome.next ?_
  simp only [hx, TileXfer.not_held hfailed hacq hfirst, hc, hm, if_false]

/-- A transfer that has nothing to meet has its turn. -/
theorem exec_tileTransferChunk_turn (hm : s.overwrites w x ps = none) : exec (.tileTransferChunk id) s =
    .next ((s.xferTurn w x ps).outcome (s.transferChunk w x c)
      (fun s1 f => (s1.recordXfault w f x.slot x.pos x.func (some x.id)).sweepWg w.id)
      (fun s1 => s1.updWg w.id (fun y => y.updXfer x.id (fun z => { z with absent := some (x.absent.getD 0) })))) := by
  subst hps
  refine congrArg Host.Outcome.next ?_
  simp only [hx, TileXfer.not_held hfailed hacq hfirst, hc, hm, if_false]
  cases s.xferTurn .. <;> rfl

end Transfers

/-- A chunk moves what was met, or the tile's own bytes, where no choice is free or memory has not changed in between. -/
theorem TileXfer.movedBytes_of_same {x : TileXfer} {c : Nat × Nat × Nat} {was now : Sparse 8} {mine : Nat → Byte} {free : Bool} {fresh k : Nat}
    (h : free = false ∨ ∀ j, was.look j = now.look j) :
    x.movedBytes c was now mine free fresh k = if x.store then mine k else was.look k := by
  unfold TileXfer.movedBytes
  dsimp only
  rcases h with rfl | h
  · rfl
  · rw [raced_of_same h, Bool.and_false, Bool.false_and]
    rfl

/-! ## Commits (R365, R366) -/

/-- The head of a launch queue commits in its turn, where no spare buffer of its accumulators is kept. -/
theorem exec_matrixCommit {n : Nat} {o : MatOp} (ho : s.queueHead n = some (w, o)) (hfault : o.fault = none)
    (hacq : w.acquiring o.start o.id = false) (hspare : ∀ a ∈ o.blk.accs, s.retainer n a (1 - (s.engine n).committed a) = none) :
    exec (.matrixCommit n) s =
      .next ((s.chunkTurn (o.owner w) (s.blimitOf w) o.absent false false o.biasPieces).outcome
        (fun s1 pl => s1.commitOp w o (if o.blk.bias then biasWords o.blk.n (s1.readPieces pl) else []))
        (fun s1 f => s1.recordOpFault w o f)
        (fun s1 => s1.updWg w.id (fun y => y.updOp o.id (fun z => { z with absent := some (o.absent.getD 0) })))) := by
  have hgoes : ¬ (o.fault.isSome = true ∨ w.acquiring o.start o.id = true ∨
      o.blk.accs.any (fun a => (s.retainer n a (1 - (s.engine n).committed a)).isSome) = true) := by
    rintro (h | h | h)
    · exact ne_true_of_eq_false (congrArg Option.isSome hfault) h
    · exact ne_true_of_eq_false hacq h
    · obtain ⟨a, ha, hkept⟩ := List.any_eq_true.1 h
      exact ne_true_of_eq_false (congrArg Option.isSome (hspare a ha)) hkept
  refine congrArg Host.Outcome.next ?_
  simp only [ho, if_neg hgoes]
  cases s.chunkTurn .. <;> rfl

/-! ## Chunks of epilogue stores (R367) -/

/-- The next chunk of a store lands in its turn. -/
theorem exec_epilogueStoreChunk {id k : Nat} {o : MatOp} (ho : s.opOwner id = some (w, o)) (hphase : o.phase = .storing) (hfault : o.fault = none)
    (hacq : w.acquiring o.start o.id = false) (hk : o.blk.storeBlocks[o.landed]? = some k) :
    exec (.epilogueStoreChunk id) s =
      .next ((s.chunkTurn (o.owner w) (s.blimitOf w) o.absent true false (o.blk.storePieces k)).outcome
        (fun s1 pl => (s1.writePieces (o.owner w) pl (o.storeByte k)).landStore w o)
        (fun s1 f => s1.recordOpFault w o f)
        (fun s1 => s1.updWg w.id (fun y => y.updOp o.id (fun z => { z with absent := some (o.absent.getD 0) })))) := by
  refine congrArg Host.Outcome.next ?_
  simp only [ho, hphase, hfault, hacq, hk, decide_true, Bool.not_false, Bool.and_self]
  cases s.chunkTurn .. <;> rfl

/-- Settles O43: an entry that fits is taken, and each other event does what the turn of its chunk lets it. -/
theorem matrixEvents : Obligations.MatrixEvents := by
  refine ⟨fun s core slot queue en g w e t hg hhead hw hheld => ?entries, fun s id w x c hx hfailed hacq hfirst hc => ?transfers,
    fun x c was now mine free fresh k => TileXfer.movedBytes_of_same, fun s n w o ho hfault hacq hspare => ?commits,
    fun s id w o k ho hphase hfault hacq hk => ?stores⟩
  case entries =>
    intro eng d at0 s1 hdesc hfree hfault hstrict hfits
    exact exec_tileEntryRemove hg hhead hw hheld hdesc hfree hfault hstrict hfits
  case transfers =>
    intro ps turn
    refine ⟨fun m => exec_tileTransferChunk_meets hx hfailed hacq hfirst hc rfl, fun hm => ?_⟩
    have hturn := exec_tileTransferChunk_turn hx hfailed hacq hfirst hc rfl hm
    exact ⟨fun hseen s1 pl ht => hturn.trans (congrArg _ ((congrArg _ ht).trans (State.transferChunk_reads hseen))),
      fun m hseen s1 pl ht => hturn.trans (congrArg _ ((congrArg _ ht).trans (State.transferChunk_moves hseen))),
      fun s1 f ht => hturn.trans (congrArg _ (congrArg _ ht)), fun s1 ht => hturn.trans (congrArg _ (congrArg _ ht))⟩
  case commits =>
    intro turn
    have hturn := exec_matrixCommit ho hfault hacq hspare
    exact ⟨fun s1 pl ht => hturn.trans (congrArg _ (congrArg _ ht)), fun s1 f ht => hturn.trans (congrArg _ (congrArg _ ht)),
      fun s1 ht => hturn.trans (congrArg _ (congrArg _ ht))⟩
  case stores =>
    intro turn
    have hturn := exec_epilogueStoreChunk ho hphase hfault hacq hk
    exact ⟨fun s1 pl ht => hturn.trans (congrArg _ (congrArg _ ht)), fun s1 f ht => hturn.trans (congrArg _ (congrArg _ ht)),
      fun s1 ht => hturn.trans (congrArg _ (congrArg _ ht))⟩

end Sys2Proof.Machine
end

section
/-! SUPPORT. What the tables of a translation lie in, and what a visit of the hub leaves of what a save reads: no entry of a table stands in a local
store slice (R288, R290, R394, R442). -/

namespace Sys2Proof

variable {w : Nat}

/-! ## A slice of a table after a write outside it -/

theorem Sparse.filter_insert {k : Nat} {q : Nat → Bool} (hk : q k = false) (v : BitVec w) (m : Sparse w) :
    (Sparse.insert k v m).filter (fun p => q p.1) = m.filter (fun p => q p.1) := by
  induction m with
  | nil => simp [Sparse.insert, hk]
  | cons p m ih =>
    obtain ⟨a, u⟩ := p
    simp only [Sparse.insert]
    split
    · simp [List.filter_cons, hk]
    · split
      · next ha => simp [ha, hk]
      · simp [List.filter_cons, ih]

theorem Sparse.filter_drop {k : Nat} {q : Nat → Bool} (hk : q k = false) (m : Sparse w) :
    (m.drop k).filter (fun p => q p.1) = m.filter (fun p => q p.1) := by
  rw [Sparse.drop, List.filter_filter]
  refine List.filter_congr fun p _ => ?_
  by_cases h : p.1 = k <;> simp [h, hk]

theorem Sparse.slice_put {m : Sparse w} {k a n : Nat} (hk : k < a) (v : BitVec w) : (m.put k v).slice a n = m.slice a n := by
  have hq : (decide (a ≤ k) && decide (k < a + n)) = false := by simp [Nat.not_le.2 hk]
  unfold Sparse.slice Sparse.put
  split
  · exact congrArg _ (Sparse.filter_drop (q := fun i => decide (a ≤ i) && decide (i < a + n)) hq m)
  · exact congrArg _ (Sparse.filter_insert (q := fun i => decide (a ≤ i) && decide (i < a + n)) hq v m)

namespace Machine

theorem markEntry_slice {m : Memory} {bit pa a n : Nat} (h : pa < a) : (markEntry m bit pa).slice a n = m.slice a n := by
  unfold markEntry
  dsimp only
  split
  · rfl
  · exact Sparse.slice_put h _

theorem markPath_slice {m : Memory} {path : List Nat} {a n : Nat} (h : ∀ pa ∈ path, pa < a) : (markPath m path).slice a n = m.slice a n := by
  unfold markPath
  induction path generalizing m with
  | nil => rfl
  | cons pa path ih =>
    exact (ih fun x hx => h x (List.mem_cons_of_mem _ hx)).trans (markEntry_slice (h pa List.mem_cons_self))

/-! ## The entries of a walk stand below the slices (R288, R289) -/

theorem bitsOf_lt (v hi lo : Nat) : bitsOf v hi lo < 2 ^ (hi + 1 - lo) := Nat.mod_lt _ (by positivity)

/-- A list of physical addresses below every slice. -/
def BelowSlices (path : List Nat) : Prop := ∀ pa ∈ path, pa < Config.sliceBase

theorem belowSlices_nil : BelowSlices [] := fun _ h => absurd h List.not_mem_nil

theorem BelowSlices.append {p q : List Nat} (hp : BelowSlices p) (hq : BelowSlices q) : BelowSlices (p ++ q) :=
  fun pa h => (List.mem_append.1 h).elim (hp pa) (hq pa)

/-- The frame that a walk finds lies in the addresses that an entry can name, and the entries that it passed lie below the slices. -/
structure Walked.Low (x : Walked) : Prop where
  frame : x.frame < 2 ^ 56
  bits : x.bits ≤ 48
  path : BelowSlices x.path

/-- Every address of a page that a walk finds lies below the slices. -/
theorem Walked.Low.offset_lt {x : Walked} (h : x.Low) (a : Nat) : x.frame + a % 2 ^ x.bits < Config.sliceBase := by
  have hoff : a % 2 ^ x.bits < 2 ^ 48 := (Nat.mod_lt a (by positivity)).trans_le (Nat.pow_le_pow_right (by decide) h.bits)
  have hframe := h.frame
  simp only [Config.sliceBase]
  omega

/-- The entries of the tables are found below the slices. -/
def EntriesLow (entryPa : Nat → WalkResult) : Prop :=
  ∀ a x, a < 2 ^ 57 → entryPa a = .ok x → x.frame + a % 2 ^ x.bits < Config.sliceBase ∧ BelowSlices x.path

theorem entriesLow_physical : EntriesLow physical := by
  intro a x ha hx
  cases hx
  refine ⟨?_, belowSlices_nil⟩
  simp only [Config.sliceBase, Nat.pow_zero, Nat.mod_one]
  omega

theorem walkLevels_low {m : Memory} {stage2 : Bool} {entryPa : Nat → WalkResult} (hentry : EntriesLow entryPa) {ls : List Level}
    (hls : ∀ l ∈ ls, l.shift ≤ 48 ∧ l.width ≤ 9) {table va : Nat} {wr : Bool} {path : List Nat} {x : Walked} (ht : table < 2 ^ 56)
    (hp : BelowSlices path) (h : walkLevels m stage2 entryPa ls table va wr path = .ok x) : x.Low := by
  induction ls generalizing table wr path with
  | nil => cases h
  | cons l ls ih =>
    obtain ⟨hshift, hwidth⟩ := hls l List.mem_cons_self
    have hidx : va / 2 ^ l.shift % 2 ^ l.width < 2 ^ 9 :=
      (Nat.mod_lt _ (by positivity)).trans_le (Nat.pow_le_pow_right (by decide) hwidth)
    rw [walkLevels] at h
    dsimp only at h
    split at h
    any_goals cases h
    next x0 h0 =>
    obtain ⟨hpa, hpath0⟩ := hentry _ x0 (by omega) h0
    generalize table + 8 * (va / 2 ^ l.shift % 2 ^ l.width) = at8 at *
    generalize readLE m (x0.frame + at8 % 2 ^ x0.bits) 8 = e at *
    have hframe : bitsOf e 55 8 * 256 < 2 ^ 56 := by have := bitsOf_lt e 55 8; omega
    have hpath : BelowSlices (path ++ x0.path ++ [x0.frame + at8 % 2 ^ x0.bits]) :=
      (hp.append hpath0).append fun pa h => by rwa [List.mem_singleton.1 h]
    split at h
    · cases h
    · split at h
      · split at h
        · cases h
        · cases h
          exact ⟨hframe, hshift, hpath⟩
      · split at h
        · cases h
        · exact ih (fun l hl => hls l (List.mem_cons_of_mem _ hl)) hframe hpath h

theorem walkPlan_narrow : ∀ l ∈ walkPlan, l.shift ≤ 48 ∧ l.width ≤ 9 := by decide

theorem tableBase_lt (v : Nat) : bitsOf v 55 11 * 2048 < 2 ^ 56 := by
  have := bitsOf_lt v 55 11
  omega

variable {s : State} {through : Bool} {vf ctx gpa va : Nat} {write : Bool} {x : Walked}

theorem State.stageTwoAs_low (h : s.stageTwoAs through vf gpa write = .ok x) : x.Low := by
  unfold State.stageTwoAs at h
  split at h
  · next y hy =>
    have hlow := walkLevels_low entriesLow_physical walkPlan_narrow (tableBase_lt _) belowSlices_nil hy
    extract_lets inPart at h
    clear_value inPart
    split at h
    · cases h
    · split at h
      · cases h
      · split at h
        · cases h
        · cases h
          exact hlow
  · next hn => exact absurd h (hn x)

theorem State.entriesLow_tableAt : EntriesLow (s.tableAt through vf ctx) := by
  intro a x _ h
  have hlow : x.Low := by
    unfold State.tableAt at h
    split at h
    · next y hy =>
      split at h
      · cases h
      · cases h
        exact State.stageTwoAs_low hy
    · next hn => exact absurd h (hn x)
  exact ⟨hlow.offset_lt a, hlow.path⟩

theorem State.stageOne_low (h : s.stageOne through vf ctx va = .ok x) : x.Low :=
  walkLevels_low State.entriesLow_tableAt walkPlan_narrow (tableBase_lt _) belowSlices_nil h

variable {pa : Nat} {g : Option Nat} {path leaves : List Nat}

theorem State.placeGpa_path (h : s.placeGpa through vf gpa write = .ok pa g path leaves) : BelowSlices path := by
  unfold State.placeGpa at h
  extract_lets p at h
  have hp : p = .ok pa g path leaves → BelowSlices path := by
    intro hp
    dsimp only [p] at hp
    split at hp
    · next x hx =>
      split at hp
      · cases hp
      · cases hp
        exact (State.stageTwoAs_low hx).path
    all_goals cases hp
  clear_value p
  split at h
  · split at h
    · exact hp h
    · cases h
      exact belowSlices_nil
  · exact hp h

theorem State.placeDeviceAs_path (h : s.placeDeviceAs through vf ctx va write = .ok pa g path leaves) : BelowSlices path := by
  unfold State.placeDeviceAs at h
  split at h
  any_goals cases h
  next x1 h1 =>
  split at h
  · cases h
  · dsimp only at h
    split at h
    any_goals cases h
    next x2 h2 =>
    split at h
    · cases h
    · cases h
      exact (State.stageOne_low h1).path.append (State.stageTwoAs_low h2).path

theorem State.placeShared_path (h : s.placeShared through vf ctx va write = .ok pa g path leaves) : BelowSlices path := by
  unfold State.placeShared State.placeBy at h
  dsimp only at h
  split at h
  · next e _ =>
    split at h
    · exact State.placeDeviceAs_path h
    · unfold TlbEntry.place at h
      split at h
      · cases h
      · cases h
        exact belowSlices_nil
  · exact State.placeDeviceAs_path h

/-! ## What a save reads (R394) -/

/-- What `State.savedForm` reads: the workgroups with their groups and engines, and the slices with their tags and poison; and the time. -/
def State.saveView (s : State) :=
  (s.wgs, s.groups, s.engines, s.tags, s.poison, s.now, fun a n => if Config.sliceBase ≤ a then s.mem.slice a n else [])

theorem State.noteAccess_saveView (s : State) (vf : Nat) (g : Option Nat) {path : List Nat} (hp : BelowSlices path) (leaves : List Nat) :
    (s.noteAccess vf g path leaves false).saveView = s.saveView := by
  have hslices : (fun a n => if Config.sliceBase ≤ a then (markPath s.mem path).slice a n else []) =
      fun a n => if Config.sliceBase ≤ a then s.mem.slice a n else [] := by
    funext a n
    split
    · next ha => exact markPath_slice fun pa hpa => (hp pa hpa).trans_le ha
    · rfl
  cases g <;> exact congrArg (fun f => (s.wgs, s.groups, s.engines, s.tags, s.poison, s.now, f)) hslices

theorem State.fillTlb_saveView (s : State) (vf ctx va : Nat) : (s.fillTlb vf ctx va).saveView = s.saveView := by
  unfold State.fillTlb
  split
  · rfl
  · split <;> rfl

theorem State.visit_saveView (s : State) (vf ctx va : Nat) : (s.visit vf ctx va).saveView = s.saveView := by
  unfold State.visit
  split
  · next h => exact (State.fillTlb_saveView ..).trans (State.noteAccess_saveView _ _ _ (State.placeShared_path h) _)
  all_goals rfl

theorem State.gpaVisit_saveView (s : State) (vf gpa : Nat) : (s.gpaVisit vf gpa).saveView = s.saveView := by
  unfold State.gpaVisit
  split
  · next h => exact State.noteAccess_saveView _ _ _ (State.placeGpa_path h) _
  all_goals rfl

theorem State.visitCapture_saveView (s : State) (vf ctx : Nat) : (s.visitCapture vf ctx).saveView = s.saveView := by
  unfold State.visitCapture
  dsimp only
  generalize List.map _ _ = pages
  have hlist := ((s.visit vf ctx ((s.vfReg vf 0x0D0).toNat % 2 ^ 56)).visit_saveView vf ctx ((s.vfReg vf 0x0D0).toNat % 2 ^ 56 + 240)).trans
    (State.visit_saveView ..)
  refine Eq.trans ?_ hlist
  generalize State.visit _ vf ctx _ = s1
  induction pages generalizing s1 with
  | nil => rfl
  | cons a pages ih => exact (ih _).trans (State.visit_saveView ..)

theorem State.savedForm_of_saveView {t : State} (h : t.saveView = s.saveView) : t.savedForm = s.savedForm := by
  simp only [State.saveView, Prod.mk.injEq] at h
  obtain ⟨-, hgroups, hengines, htags, hpoison, -, hslices⟩ := h
  funext y
  have hslice := congrFun (congrFun hslices y.pa) y.allocSize
  have hpa : Config.sliceBase ≤ y.pa := (Nat.le_add_right ..).trans (Nat.le_add_right ..)
  simp only [hpa, if_true] at hslice
  simp only [State.savedForm, State.wgGroups, State.engine, hgroups, hengines, htags, hpoison, hslice]

theorem State.runningWgs_of_saveView {t : State} (h : t.saveView = s.saveView) : t.runningWgs = s.runningWgs := by
  funext p
  exact congrArg (List.filter _) (congrArg Prod.fst h)

theorem State.now_of_saveView {t : State} (h : t.saveView = s.saveView) : t.now = s.now :=
  congrArg (fun v => v.2.2.2.2.2.1) h

end Machine
end Sys2Proof
end

section
/-! The events of the observation facilities: areas, the debugger's control of groups, samples, checkpoints, and what the host posts (R322, R413,
R428 to R430, R439 to R444). -/

namespace Sys2Proof.Machine

variable {s : State} {vf b : Nat} {a : Area} {f : State → State}

/-! ## Observation areas (R429) -/

section Enabling

variable (hvf : vf < 64) (hoff : s.dbgBit vf b = false)
include hvf hoff

theorem State.enableArea_eq : s.enableArea vf b a f =
    if (s.setDbg vf b true).areaOk vf a then f ((s.setDbg vf b true).checkArea vf a) else (s.setDbg vf b true).checkArea vf a := by
  have hset : ¬ (64 ≤ vf ∨ s.dbgBit vf b = true) := not_or.2 ⟨Nat.not_le.2 hvf, ne_true_of_eq_false hoff⟩
  exact if_neg hset

/-- An area that passes its check starts at its read index. -/
theorem State.enableArea_passes (hok : (s.setDbg vf b true).areaOk vf a = true) : s.enableArea vf b a f =
    f ((s.setDbg vf b true).setVfReg vf a.windex ((s.setDbg vf b true).vfReg vf a.rindex)) := by
  rw [State.enableArea_eq hvf hoff, if_pos hok, State.checkArea, if_pos hok]

/-- Where an area fails its check, every facility that uses it is cleared, and vf.err.dbg set. -/
theorem State.enableArea_fails (hbad : (s.setDbg vf b true).areaOk vf a = false) : s.enableArea vf b a f =
    (a.uses.foldl (fun s b => s.setDbg vf b false) (s.setDbg vf b true)).vfErr vf 6 := by
  have hbad' := ne_true_of_eq_false hbad
  rw [State.enableArea_eq hvf hoff, if_neg hbad', State.checkArea, if_neg hbad']

end Enabling

/-! ## The LFSRs of tagged-instruction sampling (R440) -/

/-- The LFSRs of the sampled core are loaded with a value that is not 0. -/
theorem State.loadLfsrs_ne_zero {x : Lfsr} (hx : x ∈ (s.loadLfsrs vf).lfsrs) (hcore : x.core = bitsOf (s.vfReg vf 0x094).toNat 31 24) :
    x.v ≠ 0 := by
  rcases List.mem_append.1 hx with hx | hx
  · obtain ⟨k, -, rfl⟩ := List.mem_map.1 hx
    dsimp only
    split
    · decide
    · next hseed =>
      have hlt := bitsOf_lt (s.vfReg vf 0x0A0).toNat 31 16
      intro h
      have h0 := congrArg BitVec.toNat h
      rw [BitVec.toNat_ofNat, Nat.mod_eq_of_lt hlt] at h0
      exact hseed h0
  · have hother := (List.mem_filter.1 hx).2
    simp [hcore] at hother

/-- The area of the samplers starts without a change of the sampled core. -/
theorem State.vfReg_startSampler (s : State) (vf b : Nat) (v : Dword) :
    ((s.setDbg vf b true).setVfReg vf samplerArea.windex v).vfReg vf 0x094 = s.vfReg vf 0x094 := by
  rw [State.setVfReg, State.vfReg_setReg, if_neg (by simp [samplerArea]), State.setDbg, State.setBit, State.vfReg_setReg, if_neg (by simp)]

/-- Tagged-instruction sampling starts with LFSRs of the sampled core that are not 0. -/
theorem exec_tagSamplingEnable (hvf : vf < 64) (hoff : s.dbgBit vf 4 = false) (hok : (s.setDbg vf 4 true).areaOk vf samplerArea = true) :
    ∃ t, exec (.tagSamplingEnable vf) s = .next t ∧ ∀ x ∈ t.lfsrs, x.core = bitsOf (s.vfReg vf 0x094).toNat 31 24 → x.v ≠ 0 := by
  refine ⟨_, congrArg Host.Outcome.next (State.enableArea_passes (f := fun s => s.loadLfsrs vf) hvf hoff hok),
    fun x hx hcore => State.loadLfsrs_ne_zero hx ?_⟩
  rw [State.vfReg_startSampler]
  exact hcore

/-! ## Periodic rows (R439) -/

theorem exec_samplePeriodic (hvf : vf < 64) (hon : s.dbgBit vf 3 = true) (hstep : bitsOf (s.vfReg vf 0x094).toNat 15 0 * 1024 ≠ 0)
    (hdue : (s.sampled.look vf).toNat + bitsOf (s.vfReg vf 0x094).toNat 15 0 * 1024 ≤ s.now) :
    exec (.samplePeriodic vf) s =
      .next (({ s with sampled := s.sampled.put vf (BitVec.ofNat 64 ((s.sampled.look vf).toNat + bitsOf (s.vfReg vf 0x094).toNat 15 0 * 1024)) }).sampleRow
        vf (s.curCtx vf) 0 (s.pickedPos vf) ((List.range 8).flatMap (fun k => bytesLE 4 (s.rowCounter vf k)))) := by
  have hgoes : ¬ (64 ≤ vf ∨ (!s.dbgBit vf 3) = true ∨ bitsOf (s.vfReg vf 0x094).toNat 15 0 * 1024 = 0 ∨
      s.now < (s.sampled.look vf).toNat + bitsOf (s.vfReg vf 0x094).toNat 15 0 * 1024) := by
    rw [hon]
    rintro (h | h | h | h)
    exacts [Nat.not_le.2 hvf h, Bool.false_ne_true h, hstep h, Nat.not_lt.2 hdue h]
  exact congrArg Host.Outcome.next (if_neg hgoes)

/-! ## Restores (R444) -/

theorem exec_checkpointRestore {ck : Nat} {c : Checkpoint} (hvf : vf < 64) (hcur : (s.vfReg vf 0x050).toNat % 65536 ≠ s.curCtx vf)
    (hidle : ∀ w ∈ s.wgs, w.vf = vf → w.ctx = (s.vfReg vf 0x050).toNat % 65536 → w.saved = true ∨ w.ended = true)
    (hsaved : ∃ w ∈ s.wgs, w.vf = vf ∧ w.ctx = (s.vfReg vf 0x050).toNat % 65536 ∧ w.saved = true)
    (hc : s.checkpoints.find? (fun (c : Checkpoint) => c.vf == vf && c.ctx == (s.vfReg vf 0x050).toNat % 65536 && c.ck == ck) = some c) :
    exec (.checkpointRestore vf ck) s = .next (s.restoreImage c) := by
  have hok : s.restoreOk vf = true := by
    simp only [State.restoreOk, Bool.and_eq_true, bne_iff_ne, Bool.not_eq_true', List.any_eq_false, List.any_eq_true, beq_iff_eq]
    refine ⟨⟨hcur, fun w hw => ?_⟩, ?_⟩
    · rintro ⟨⟨⟨hv, hx⟩, hs⟩, he⟩
      exact (hidle w hw hv hx).elim (ne_true_of_eq_false hs) (ne_true_of_eq_false he)
    · obtain ⟨w, hw, hv, hx, hs⟩ := hsaved
      exact ⟨w, hw, ⟨hv, hx⟩, hs⟩
  refine congrArg Host.Outcome.next ?_
  dsimp only [State.restoreCheckpoint]
  rw [if_neg (Nat.not_le.2 hvf), hok, if_neg (by decide), hc]

/-! ## Checkpoints (R442) -/

theorem State.logDirty_checkpoints (s : State) (vf gpage : Nat) : (s.logDirty vf gpage).checkpoints = s.checkpoints := by
  unfold State.logDirty
  split
  · rfl
  · split
    · split
      split <;> rfl
    · split <;> rfl

theorem State.noteAccess_checkpoints (s : State) (vf : Nat) (g : Option Nat) (path leaves : List Nat) (write : Bool) :
    (s.noteAccess vf g path leaves write).checkpoints = s.checkpoints := by
  unfold State.noteAccess
  dsimp only
  split
  exacts [State.logDirty_checkpoints .., rfl]

theorem State.gpaWrite_checkpoints (s : State) (vf gpa n v : Nat) : (s.gpaWrite vf gpa n v).checkpoints = s.checkpoints := by
  unfold State.gpaWrite
  split
  exacts [State.noteAccess_checkpoints .., rfl, rfl, rfl]

theorem State.gpaWriteBytes_checkpoints (s : State) (vf gpa : Nat) (bs : List Byte) :
    (s.gpaWriteBytes vf gpa bs).checkpoints = s.checkpoints := by
  unfold State.gpaWriteBytes
  generalize List.range _ = is
  induction is generalizing s with
  | nil => rfl
  | cons i is ih => exact (ih _).trans (State.gpaWrite_checkpoints ..)

theorem State.writeImage_checkpoints (s : State) (c : Checkpoint) : (s.writeImage c).checkpoints = s.checkpoints :=
  State.gpaWriteBytes_checkpoints ..

/-- An error of a VF stands in vf.err once it is noted. -/
theorem State.getLsbD_vfErr (s : State) (vf : Nat) {n : Nat} (hn : n < 64) : ((s.vfErr vf n).vfReg vf 0x004).getLsbD n = true := by
  rw [State.vfErr, State.setVfReg, State.vfReg_setReg, if_pos rfl, BitVec.getLsbD_or, BitVec.getLsbD_ofNat, Nat.testBit_two_pow_self,
    decide_eq_true hn, Bool.and_self, Bool.or_true]

/-- The workgroups of a context. -/
def ofContext (vf ctx : Nat) (w : Workgroup) : Bool := w.vf == vf && w.ctx == ctx

/-- The state of a checkpoint, once the hub has read the capture list and reached the area of the images. -/
def State.atImage (s : State) (vf ctx : Nat) : State := (s.visitCapture vf ctx).gpaVisit vf (s.vfReg vf 0x0C0).toNat

theorem State.atImage_saveView (s : State) (vf ctx : Nat) : (s.atImage vf ctx).saveView = s.saveView :=
  (State.gpaVisit_saveView ..).trans (State.visitCapture_saveView ..)

/-- What an image names, and what it holds first: the context's running workgroups as a save leaves them. -/
structure Checkpoint.ImageOf (c : Checkpoint) (s : State) (vf ctx : Nat) : Prop where
  vf_eq : c.vf = vf
  ctx_eq : c.ctx = ctx
  taken_eq : c.taken = s.now
  live_eq : c.live = true
  wgs_prefix : (s.runningWgs (ofContext vf ctx)).map s.savedForm <+: c.wgs

/-- What the hub reads before it takes an image changes nothing of what the image holds. -/
theorem Checkpoint.ImageOf.of_saveView {c : Checkpoint} {t : State} {ctx : Nat} (h : c.ImageOf t vf ctx) (hview : t.saveView = s.saveView) :
    c.ImageOf s vf ctx where
  vf_eq := h.vf_eq
  ctx_eq := h.ctx_eq
  taken_eq := h.taken_eq.trans (State.now_of_saveView hview)
  live_eq := h.live_eq
  wgs_prefix := State.savedForm_of_saveView hview ▸ State.runningWgs_of_saveView hview ▸ h.wgs_prefix

/-- A checkpoint writes its image where the area takes it, and else stops the recorder. -/
def State.keepImage (s : State) (c : Checkpoint) : State :=
  if s.gpaWritable c.vf (s.imageAt c.vf c.ck) c.bytes then
    ({ s with checkpoints := c :: s.checkpoints.filter (fun (x : Checkpoint) => !(x.vf == c.vf && x.ck == c.ck)) }).writeImage c
  else (s.setDbg c.vf 1 false).vfErr c.vf 6

/-- A checkpoint that is due is taken once nothing of its context has still to retire. -/
theorem exec_checkpoint (hvf : vf < 64) (hdue : s.checkpointDue vf = true)
    (hsettled : ((s.haltAll (ofContext vf (s.curCtx vf))).runningWgs (ofContext vf (s.curCtx vf))).all
      (s.haltAll (ofContext vf (s.curCtx vf))).settledForSave = true) :
    ∃ (t : State) (c : Checkpoint), exec (.checkpoint vf) s = .next (t.keepImage c) ∧
      c.ImageOf (s.haltAll (ofContext vf (s.curCtx vf))) vf (s.curCtx vf) := by
  have hgoes : ¬ (64 ≤ vf ∨ (!s.checkpointDue vf) = true) := by
    rw [hdue]
    exact not_or.2 ⟨Nat.not_le.2 hvf, Bool.false_ne_true⟩
  show ∃ t c, execCheckpoint vf s = _ ∧ _
  unfold execCheckpoint
  extract_lets ctx mine s0 s1 saved c s2
  have hall : ¬ (!(s0.runningWgs mine).all s0.settledForSave) = true := by
    rw [show (s0.runningWgs mine).all s0.settledForSave = true from hsettled]
    exact Bool.false_ne_true
  have himage : c.ImageOf s1 vf ctx := ⟨rfl, rfl, rfl, rfl, List.prefix_append ..⟩
  refine ⟨s2, c, ?_, himage.of_saveView (State.atImage_saveView s0 vf ctx)⟩
  rw [if_neg hgoes]
  exact congrArg Host.Outcome.next (if_neg hall)

/-- An image that has been taken is a checkpoint, or vf.err.dbg is set. -/
theorem State.keepImage_kept (s : State) (c : Checkpoint) :
    c ∈ (s.keepImage c).checkpoints ∨ ((s.keepImage c).vfReg c.vf 0x004).getLsbD 6 = true := by
  unfold State.keepImage
  split
  · rw [State.writeImage_checkpoints]
    exact .inl List.mem_cons_self
  · exact .inr (State.getLsbD_vfErr _ _ (by decide))

/-! ## The debugger's control of groups (R428, R430) -/

/-- The end of every demotion of a group. -/
theorem Group.endDemotions_all (g : Group) : g.endDemotions (fun _ => true) =
    if g.demos = [] then g else { g with demos := [], spinCount := if 64 ≤ g.spinCount then g.spinCount else 0 } := by
  unfold Group.endDemotions
  cases hd : g.demos with
  | nil => rfl
  | cons d ds => simp

theorem exec_debugPark {core slot : Nat} {w : Workgroup} {g : Group} (h : s.groupOf vf core slot = some (w, g)) :
    exec (.debugPark vf core slot) s = .next ((s.squashAt w g).changeGroup w g Group.debugPark) := by
  refine congrArg Host.Outcome.next ?_
  rw [h]

theorem exec_debugPark_none {core slot : Nat} (h : s.groupOf vf core slot = none) :
    exec (.debugPark vf core slot) s = .next (s.vfErr vf 3) := by
  refine congrArg Host.Outcome.next ?_
  rw [h]

theorem exec_debugResume {core slot : Nat} {w : Workgroup} {g : Group} (h : s.groupOf vf core slot = some (w, g)) :
    exec (.debugResume vf core slot) s = .next (s.changeGroup w g Group.unpark) := by
  refine congrArg Host.Outcome.next ?_
  rw [h]

theorem exec_debugEndDemotion {core slot : Nat} {w : Workgroup} {g : Group} (h : s.groupOf vf core slot = some (w, g)) (hd : g.demoted ≠ 0) :
    exec (.debugEndDemotion vf core slot) s = .next (s.changeGroup w g (fun x => x.endDemotions (fun _ => true))) := by
  refine congrArg Host.Outcome.next ?_
  rw [h]
  exact if_neg hd

theorem exec_debugKill {core slot : Nat} {w : Workgroup} {g : Group} (h : s.groupOf vf core slot = some (w, g)) :
    exec (.debugKill vf core slot) s = .next (s.killAt w g) := by
  refine congrArg Host.Outcome.next ?_
  rw [h]

/-- Settles O51: each facility starts as its area's check lets it, a checkpoint's image holds what its workgroups were at their halt, and every other
event answers its own next state. -/
theorem observation : Obligations.Observation := by
  refine ⟨fun s vf hvf => ?facilities, fun s vf core slot => ⟨fun w g hg => ?control, exec_debugPark_none⟩⟩
  case facilities =>
    intro starts
    have hin : ¬ 64 ≤ vf := Nat.not_le.2 hvf
    have area : ∀ {b a f}, s.dbgBit vf b = false → let s1 := s.setDbg vf b true
        (s1.areaOk vf a → s.enableArea vf b a f = f (s1.setVfReg vf a.windex (s1.vfReg vf a.rindex))) ∧
        (s1.areaOk vf a = false → s.enableArea vf b a f = (a.uses.foldl (fun s b => s.setDbg vf b false) s1).vfErr vf 6) :=
      fun hoff => ⟨State.enableArea_passes hvf hoff, State.enableArea_fails hvf hoff⟩
    refine ⟨fun hoff => ?_, fun hoff => ?_, fun hoff => ?_, exec_tagSamplingEnable hvf, fun on => congrArg _ (if_neg hin),
      fun ck c => exec_checkpointRestore hvf, exec_samplePeriodic hvf, fun hdue => ?checkpoints, fun replay v => congrArg _ (if_neg hin),
      fun addr bytes hbytes => congrArg _ (if_neg (not_or.2 ⟨hin, hbytes⟩))⟩
    iterate 3 exact ⟨fun hok => congrArg _ ((area hoff).1 hok), fun hbad => congrArg _ ((area hoff).2 hbad)⟩
    case checkpoints =>
      intro mine s1 hsettled
      obtain ⟨t, c, hexec, hc⟩ := exec_checkpoint hvf hdue hsettled
      refine ⟨_, hexec, (t.keepImage_kept c).imp (fun hkept => ⟨c, hkept, hc.vf_eq, hc.ctx_eq, hc.taken_eq, hc.live_eq, hc.wgs_prefix⟩) fun herr => ?_⟩
      exact hc.vf_eq ▸ herr
  case control =>
    refine ⟨exec_debugPark hg, exec_debugResume hg, fun hd => ?_, exec_debugKill hg⟩
    rw [exec_debugEndDemotion hg hd]
    exact congrArg (fun f => Host.Outcome.next (s.changeGroup w g f)) (funext Group.endDemotions_all)

end Sys2Proof.Machine
end

section
/-! SUPPORT. What the matrix operations share: an operation performed once for the group, and the transfers that one waits for (R229, R358, R359). -/

namespace Sys2Proof.Machine

variable {s s1 : State} {is : Issue} {sps : List Spot}

/-- An operation performed once for the group, whose accesses reach their places, does what its body performs there. -/
theorem Issue.whole_accessOn_go {ws : List WatchRange} {qs : List Req} {release : Bool} {scope : Scope}
    {body : State → List Spot → Effect} {e : Effect} (h : Reaches s is ws qs release scope s1 sps) (hb : body s1 sps = e)
    (he : e.performs = true) : is.whole (is.accessOn s ws qs release scope body) = e := by
  rw [Issue.accessOn_go h ((congrArg Effect.performs hb).trans he), hb]
  exact Issue.whole_of_performs he

/-- An operation goes on past the transfers of its workgroup where it has to wait for none of them, and their faults have been taken (R358, R359). -/
theorem Issue.xferGate_goes {hold : Wait} {wide : Bool} {body : State → Effect} {w : Workgroup} (hw : (is.rerunXfers s).wg? is.w.id = some w)
    (hxfers : ∀ x ∈ w.xfers, x.failed = true ∨ x.rerun ≠ some is.g.start ∧ (wide = true → hold.addr.toNat ≤ x.id))
    (hfaults : ∀ x ∈ w.xfaults, x.delivered ≠ []) : is.xferGate s hold wide body = body (is.rerunXfers s) := by
  have hnowait : ¬ w.xfers.any (is.waitsXfer wide hold.addr.toNat) = true := by
    rw [Bool.not_eq_true, List.any_eq_false]
    intro x hx hwaits
    simp only [Issue.waitsXfer, Bool.and_eq_true, Bool.or_eq_true, Bool.not_eq_true', beq_iff_eq, decide_eq_true_eq] at hwaits
    obtain ⟨hrun, hwaits⟩ := hwaits
    obtain ⟨hfirst, hlater⟩ := (hxfers x hx).resolve_left (ne_true_of_eq_false hrun)
    exact hwaits.elim hfirst fun ⟨hwide, hlt⟩ => Nat.not_lt.2 (hlater hwide) hlt
  have htaken : w.xfaults.find? (fun x => x.delivered == []) = none := List.find?_eq_none.2 fun x hx => by simpa using hfaults x hx
  rw [Issue.xferGate, hw]
  dsimp only
  rw [if_neg hnowait, htaken]

end Sys2Proof.Machine
end

section
/-! Matrix engines and their reservations: `mres`, `mrel`, `obres` and `obrel` (R349, R350, R353, R354). -/

namespace Sys2Proof.Machine

variable {f : Fields} {s s1 : State} {is : Issue}

/-! ## The engine that `mres` grants (R349) -/

/-- Of a rising list of numbers the first that satisfies a condition is the least. -/
theorem find?_eq_some_of_least {l : List Nat} {p : Nat → Bool} {n : Nat} (hl : l.Pairwise (· < ·)) (hn : n ∈ l) (hp : p n = true)
    (hleast : ∀ k ∈ l, p k = true → n ≤ k) : l.find? p = some n := by
  cases hk : l.find? p with
  | none => exact absurd hp (List.find?_eq_none.1 hk n hn)
  | some k =>
    obtain ⟨hpk, before, after, rfl, hbefore⟩ := List.find?_eq_some_iff_append.1 hk
    have hle : n ≤ k := hleast k (by simp) hpk
    have hrise : ∀ x ∈ after, k < x := (List.pairwise_cons.1 (List.pairwise_append.1 hl).2.1).1
    rcases List.mem_append.1 hn with h | h
    · exact absurd hp (by simpa using hbefore n h)
    · rcases List.mem_cons.1 h with rfl | h
      · rfl
      · exact absurd (hrise n h) (Nat.not_lt.2 hle)

theorem clusterEngines_rising (core : Nat) : (clusterEngines core).Pairwise (· < ·) := by
  simp [clusterEngines, List.range_succ]

section Granting

variable {w : Workgroup} {r : Region} {m n : Nat}

/-- Engine `n` is free for a workgroup that asks for those of the mask `m`: no workgroup holds it, and no other one has it set aside. -/
def State.freeFor (s : State) (w : Workgroup) (m n : Nat) : Bool :=
  m.testBit (n % 4) && (s.engine n).holder.isNone && ((s.engine n).aside == some w.id || (s.engine n).aside.isNone)

theorem State.freeFor_iff : s.freeFor w m n = true ↔
    m.testBit (n % 4) = true ∧ (s.engine n).holder = none ∧ ((s.engine n).aside = some w.id ∨ (s.engine n).aside = none) := by
  simp [State.freeFor, and_assoc]

/-- The state in which the workgroup has been given engine `n`. -/
def State.granted (s : State) (w : Workgroup) (n : Nat) : State :=
  (s.putEngine { s.engine n with holder := some w.id }).updWg w.id (fun x => x.takes n)

/-- The grant of an engine that is free stays within the budget of the region, or one had been set aside for the workgroup. -/
def State.grantFits (s : State) (w : Workgroup) (r : Region) (n : Nat) : Prop :=
  (∃ k ∈ clusterEngines w.core, (s.engine k).aside = some w.id) ∨ 0 ≤ ((s.granted w n).unusedBudget r).2

theorem State.grantEngine_held (h : w.held.isSome = true) : s.grantEngine w r m = (s, true) := if_pos h

theorem State.grantEngine_released (hheld : w.held = none) (h : w.released.find? (fun n => m.testBit (n % 4)) = some n) :
    s.grantEngine w r m = (s.updWg w.id (fun x => x.takes n), true) := by
  simp [State.grantEngine, hheld, h]

section New

variable (hheld : w.held = none) (hreleased : ∀ n ∈ w.released, m.testBit (n % 4) = false)
include hheld hreleased

/-- A workgroup that neither holds an engine nor cancels a release looks for the first free one of its cluster. -/
theorem State.grantEngine_new : s.grantEngine w r m =
    ((clusterEngines w.core).find? (s.freeFor w m)).elim (s, false) (fun n =>
      if (clusterEngines w.core).any (fun n => (s.engine n).aside == some w.id) || 0 ≤ ((s.granted w n).unusedBudget r).2 then (s.granted w n, true)
      else (s, false)) := by
  have hnone : w.released.find? (fun n => m.testBit (n % 4)) = none := List.find?_eq_none.2 fun n hn => by simp [hreleased n hn]
  unfold State.grantEngine
  rw [if_neg (by simp [hheld]), hnone]
  dsimp only
  cases h : (clusterEngines w.core).find? (s.freeFor w m) with
  | none =>
    unfold State.freeFor at h
    rw [h]; rfl
  | some n =>
    unfold State.freeFor at h
    rw [h]; rfl

theorem State.grantEngine_none (h : ∀ n ∈ clusterEngines w.core, ¬ s.freeFor w m n = true) : s.grantEngine w r m = (s, false) := by
  rw [State.grantEngine_new hheld hreleased, List.find?_eq_none.2 h, Option.elim_none]

variable (hn : n ∈ clusterEngines w.core) (hfree : s.freeFor w m n = true) (hleast : ∀ k ∈ clusterEngines w.core, s.freeFor w m k = true → n ≤ k)
include hn hfree hleast

theorem State.grantEngine_fits (h : s.grantFits w r n) : s.grantEngine w r m = (s.granted w n, true) := by
  rw [State.grantEngine_new hheld hreleased, find?_eq_some_of_least (clusterEngines_rising _) hn hfree hleast, Option.elim_some]
  exact if_pos (by simpa [State.grantFits] using h)

theorem State.grantEngine_over (h : ¬ s.grantFits w r n) : s.grantEngine w r m = (s, false) := by
  rw [State.grantEngine_new hheld hreleased, find?_eq_some_of_least (clusterEngines_rising _) hn hfree hleast, Option.elim_some]
  exact if_neg (by simpa [State.grantFits] using h)

end New

end Granting

/-- `mres` with a legal mask writes whether its workgroup holds an engine then. -/
theorem exec_mres {g : Bool} {v : Word} (hr : Ready (.mres f) s is) (hm : (is.word f.a is.l0).toNat ≤ 15)
    (hg : s.grantEngine is.w is.r (is.word f.a is.l0).toNat = (s1, g)) (hv : (if g then 1 else 0) = v) :
    exec (.mres f) s = retires (.mres f) is (s1.writeLanes is (fun _ l => l.setReg f.dest.toNat v)) true := by
  refine runOp_done hr.1 hr.2 ((if_neg (Nat.not_lt.2 hm)).trans ?_)
  rw [hg, ← hv]

/-- Settles O40: `mres` answers what the grant of an engine comes to; `mrel` passes its transfers; `obres` makes two accesses, one after the other. -/
theorem engineAndReservations : Obligations.EngineAndReservations := by
  intro f s s1 s2 is sp sp2 sps sps2 bad plain
  refine ⟨fun hr => ?mres, fun hr => ?mrel, fun hr => ?obres, fun hr => ?obrel⟩
  case mres =>
    intro m answers
    refine ⟨fun hm => ?mask, fun hm hheld => ?held, fun hm hheld n hn => ?released, fun hm hheld hreleased => ?new⟩
    case mask => exact runOp_hit hr.1 hr.2 (if_pos hm)
    case held => exact exec_mres hr hm (State.grantEngine_held hheld) rfl
    case released => exact exec_mres hr hm (State.grantEngine_released hheld hn) rfl
    case new =>
      intro mine can
      have hcan (n : Nat) : s.freeFor is.w m n = true ↔ can n := State.freeFor_iff
      refine ⟨fun hnone => ?_, fun n hn hfree hleast => ?_⟩
      · exact exec_mres hr hm (State.grantEngine_none hheld hreleased fun n hn => mt (hcan n).1 (hnone n hn)) rfl
      · have hfree' := (hcan n).2 hfree
        have hleast' : ∀ k ∈ clusterEngines is.w.core, s.freeFor is.w m k = true → n ≤ k := fun k hk h => hleast k hk ((hcan k).1 h)
        refine ⟨fun hfits => ?_, fun haside hover => ?_⟩
        · exact exec_mres hr hm (State.grantEngine_fits hheld hreleased hn hfree' hleast' hfits) rfl
        · refine exec_mres hr hm (State.grantEngine_over hheld hreleased hn hfree' hleast' ?_) rfl
          exact not_or.2 ⟨fun ⟨k, hk, hmine⟩ => haside k hk hmine, Int.not_le.2 hover⟩
  case mrel =>
    refine ⟨fun hheld => runOp_hit hr.1 hr.2 (if_pos (by simp [hheld])), fun hheld w hw hxfers hfaults => ?_⟩
    refine runOp_done hr.1 hr.2 ((if_neg (not_isNone_of_isSome hheld)).trans ?_)
    exact Issue.xferGate_goes hw (fun x hx => (hxfers x hx).imp_right fun h => ⟨h, fun hwide => absurd hwide (by decide)⟩) hfaults
  case obres =>
    intro x base ext n en r hheld hform hx hbase h0 hext hmax hout hnew hapart h1 hrec hread h2
    have hok : ¬ ((!addrFormOk x 0) = true ∨ addrVa x % 16 ≠ 0 ∨ base % 16 ≠ 0 ∨ ext = 0 ∨ ext % 16 ≠ 0 ∨ 262144 < base + ext) := by
      simp [hform, hx, hbase, h0, hext, Nat.not_lt.2 hmax]
    have hfree : ¬ (((s.engine en).resv? n).isSome = true ∨ (s.engine en).resvs.any (fun y => meets base ext y.base y.ext) = true) := by
      simpa [hnew] using hapart
    refine runOp_done hr.1 hr.2 ?_
    rw [hheld]
    refine (if_neg hok).trans ?_
    rw [hout]
    refine (if_neg hfree).trans (Issue.whole_accessOn_go h1 ?_ rfl)
    dsimp only [n, base, ext] at hrec
    simp only [List.head?_cons, hrec]
    exact (if_neg (ne_true_of_eq_false hread)).trans (Issue.whole_accessOn_go h2 rfl rfl)
  case obrel =>
    intro n
    refine ⟨fun hnone => ?_, fun en hen r hresv hread => ?_⟩
    · dsimp only [n] at hnone
      refine runOp_hit hr.1 hr.2 ?_
      simp only [hnone]
      rfl
    · dsimp only [n] at hen hresv
      refine runOp_done hr.1 hr.2 ?_
      simp only [hen, hresv]
      exact if_neg (ne_true_of_eq_false hread)

end Sys2Proof.Machine
end

section
/-! Tile transfers and `tclr` (R356, R357, R360). -/

namespace Sys2Proof.Machine

variable {f : Fields} {s : State} {is : Issue} {e : Engine} {t en : Nat}

/-! ## A tile that is made zero (R357) -/

theorem Engine.clearTile_fill (e : Engine) (t : Nat) (busy : List Nat) : (e.clearTile t busy).fill.look t = 0 := by
  rw [Engine.clearTile, Sparse.look_put, if_pos rfl]

theorem Engine.markDirty_dirty (e : Engine) (ht : t < 16) : (e.markDirty t).dirty.getLsbD t = true := by
  rw [Engine.markDirty, BitVec.getLsbD_or, BitVec.getLsbD_ofNat, Nat.testBit_two_pow_self]
  simp [ht]

/-! ## Transfers (R356, R360) -/

/-- What a transfer of tile `t` by rows `stride` apart asks of its operands: a described tile, whose rows fit the stride, and a good address. -/
def TileFits (e : Engine) (t stride : Nat) (x : Dword) : Prop :=
  e.tdesc.look t ≠ 0 ∧ (TDesc.of (e.tdesc.look t)).rowBytes ≤ stride ∧ stride < 2 ^ 24 ∧ addrFormOk x 0 = true

theorem TileFits.passes {stride : Nat} {x : Dword} (h : TileFits e t stride x) :
    ¬ (e.tdesc.look t = 0 ∨ stride < (TDesc.of (e.tdesc.look t)).rowBytes ∨ 2 ^ 24 ≤ stride ∨ (!addrFormOk x 0) = true) := by
  obtain ⟨hdesc, hrow, hmax, hform⟩ := h
  exact not_or.2 ⟨hdesc, not_or.2 ⟨Nat.not_lt.2 hrow, not_or.2 ⟨Nat.not_le.2 hmax, by simp [hform]⟩⟩⟩

/-- A strict transfer of a tile that an operation in flight names fails. -/
theorem tileTransfer_touches {store : Bool} (hheld : is.w.held = some en)
    (hfits : TileFits (s.engine en) (f.spec.toNat % 16) (is.word f.b is.l0).toNat (is.addr f.a is.l0)) (hstrict : is.strict = true)
    (htouch : is.w.touched (f.spec.toNat % 16) = true) : tileTransfer f store s is = .hit (Hit.plain .operandExtent is.mask 0) := by
  unfold tileTransfer
  rw [hheld]
  exact (if_neg hfits.passes).trans (if_pos (Bool.and_eq_true_iff.2 ⟨hstrict, htouch⟩))

/-- Settles O41: a transfer that passes its checks is appended to those of its workgroup; `tclr` clears and marks its tile; a strict touch of an
operation in flight comes before either. -/
theorem tileOperations : Obligations.TileOperations := by
  intro f s is t x stride starts strictFault touches
  have begins (i : Instr) (store : Bool) (he : exec i s = runOp i s (tileTransfer f store s)) : starts i store := by
    intro hr en hheld e d q hdesc hrow hmax hform hfree hgate hplay range hwatch y s1
    have hfits : TileFits e t stride x := ⟨hdesc, hrow, hmax, hform⟩
    refine he.trans (runOp_done hr.1 hr.2 ?_)
    unfold tileTransfer
    rw [hheld]
    refine (if_neg hfits.passes).trans ((if_neg (ne_true_of_eq_false hfree)).trans ?_)
    rw [hgate]
    exact Issue.watched_go hplay hwatch
  have fails (i : Instr) (store : Bool) (he : exec i s = runOp i s (tileTransfer f store s)) : touches i := by
    intro hr en hheld hdesc hrow hmax hform hstrict htouch
    exact he.trans (runOp_hit hr.1 hr.2 (tileTransfer_touches hheld ⟨hdesc, hrow, hmax, hform⟩ hstrict htouch))
  refine ⟨begins _ false rfl, begins _ true rfl, fails _ false rfl, fails _ true rfl,
    fun hr en hheld => ⟨fun hstrict => ?strict, fun hfree => ?clears⟩⟩
  case strict =>
    refine runOp_hit hr.1 hr.2 ?_
    rw [hheld]
    exact if_pos (Bool.and_eq_true_iff.2 hstrict)
  case clears =>
    intro busy e1
    have ht : t < 16 := Nat.mod_lt _ (by decide)
    refine ⟨runOp_done hr.1 hr.2 ?_, Engine.clearTile_fill .., Engine.markDirty_dirty _ ht⟩
    rw [hheld]
    exact if_neg (ne_true_of_eq_false hfree)

end Sys2Proof.Machine
end

section
/-! `mfence.op`, `mlaunch`, `mwait` and `mstate` (R352, R358, R359, R364, R368). -/

namespace Sys2Proof.Machine

variable {s : State} {is : Issue} {w : Workgroup}

/-- A change of a workgroup that leaves every one as it stands changes nothing. -/
theorem State.updWg_of_same {F : Workgroup → Workgroup} (h : ∀ w, F w = w) (s : State) (id : Nat) : s.updWg id F = s := by
  have hmap : s.wgs.map (fun w => if w.id = id then F w else w) = s.wgs := by simp [h]
  rw [State.updWg, hmap]

/-! ## `mlaunch` (R364, R369) -/

/-- A block that passes its checks, and that nothing holds back, is launched. -/
theorem Issue.launchBlock_done {en v : Nat} {x : Dword} (hok : (s.engine en).blockOk v is.r.eff.ctags = true)
    (hstrict : is.strict = false ∨ (Block.ofNat v).op = 1 ∨ ∀ a ∈ (Block.ofNat v).accs, is.w.record a = [])
    (hstore : is.blockedStore (Block.ofNat v).accs = none) (hroom : (s.launchQueue en).length < 8)
    (hplay : s.playing is.w.vf is.w.ctx = false) (hwatch : is.watchHit s (launchRanges is.l0 (Block.ofNat v)) = none) :
    is.launchBlock s en x v =
      .done ({ s with seq := s.seq + 1 }.updWg is.w.id (fun w => w.launch (is.newOp s (s.engine en) (Block.ofNat v)))) true := by
  have hfirst : ¬ (is.strict && (Block.ofNat v).op != 1 && (Block.ofNat v).accs.any (fun a => is.w.record a != [])) = true := by
    rcases hstrict with h | h | h
    · simp [h]
    · simp [h]
    · simpa using fun _ _ => h
  unfold Issue.launchBlock
  dsimp only
  rw [if_neg (by simp [hok]), if_neg hfirst, hstore]
  exact (if_neg (Nat.not_le.2 hroom)).trans (Issue.watched_go hplay hwatch)

/-! ## `mwait` (R368) -/

/-- The operations of accumulator `a` that an `mwait` waits for: those with an identity below `k`. -/
def Workgroup.waited (w : Workgroup) (a k : Nat) : List MatOp := (w.record a).filter (fun o => o.id < k)

/-- A wait for operations that have all finished passes them. -/
theorem Issue.waitOps_done {a t : Nat} {hold : Wait} (hw : s.wg? is.w.id = some w)
    (hmine : ∀ o ∈ w.waited a hold.addr.toNat, o.fault = none ∧ o.phase = .finished) (htag : w.tags.getLsbD t = true) :
    is.waitOps a t hold s =
      .done ((s.updWg w.id (fun y =>
        { y with ops := y.ops.filter (fun o => !(w.waited a hold.addr.toNat).any (fun z => z.id == o.id)) })).raise is
          ((w.waited a hold.addr.toNat).foldl (fun (fl : BitVec 5) o => fl ||| o.flags) 0)) true := by
  have hfault : (w.waited a hold.addr.toNat).find? (fun o => o.fault.isSome && o.delivered == []) = none :=
    List.find?_eq_none.2 fun o ho => by simp [(hmine o ho).1]
  have hready : (w.waited a hold.addr.toNat).filter (fun o => o.fault.isSome && o.delivered.all s.serviced) = [] :=
    List.filter_eq_nil_iff.2 fun o ho => by simp [(hmine o ho).1]
  have hfinished : ((w.waited a hold.addr.toNat).all (fun o => o.phase == .finished) && w.tags.getLsbD t) = true := by
    simpa [htag] using fun o ho => (hmine o ho).2
  have hsame : s.updWg w.id (fun y => { y with ops := y.ops.map (fun o => if ([] : List MatOp).any (fun z => z.id == o.id) then o.resume else o) }) = s :=
    State.updWg_of_same (fun y => by simp) ..
  unfold Workgroup.waited at *
  unfold Issue.waitOps
  rw [hw]
  dsimp only
  rw [hfault, hready]
  dsimp only
  rw [if_pos hfinished, hsame]

/-- Settles O42: `mfence.op` and `mwait` pass the transfers, `mwait` its operations too; `mlaunch` is one access, and then its launch. -/
theorem matrixOperations : Obligations.MatrixOperations := by
  intro f s s1 is sp sps t1 from_ calm
  refine ⟨fun hr hheld w hw hcalm => ?fence, fun hr en hheld => ?launch, fun hr => ?wait, fun hr => runOp_done hr.1 hr.2 rfl⟩
  case fence =>
    obtain ⟨hxfers, hfaults⟩ := hcalm
    exact runOp_done hr.1 hr.2 ((if_neg (not_isNone_of_isSome hheld)).trans (Issue.xferGate_goes hw hxfers hfaults))
  case launch =>
    intro x hform hx hout h v b e hok hstrict hstore hroom hplay hwatch
    have hgood : ¬ ((!addrFormOk x 0) = true ∨ addrVa x % 64 ≠ 0 ∨ (is.outside s x 64).isSome = true) := by simp [hform, hx, hout]
    refine ⟨runOp_done hr.1 hr.2 ?_, fun w => ⟨List.getLast?_concat, rfl⟩⟩
    rw [hheld]
    refine (if_neg hgood).trans (Issue.whole_accessOn_go h ?_ rfl)
    exact Issue.launchBlock_done hok hstrict hstore hroom hplay hwatch
  case wait =>
    intro a t past t2 ha ht w hw hcalm mine hmine htag
    have hgood : ¬ (3 < a ∨ is.r.eff.ctags ≤ t) := by omega
    refine runOp_done hr.1 hr.2 ((if_neg hgood).trans ?_)
    by_cases hpast : past
    · have ht2 : t2 = s := if_pos hpast
      rw [ht2] at hw ⊢
      exact (if_pos hpast).trans (Issue.waitOps_done hw hmine htag)
    · obtain ⟨hxfers, hfaults⟩ := hcalm hpast
      have ht2 : t2 = t1 := if_neg hpast
      rw [ht2] at hw ⊢
      exact (if_neg hpast).trans ((Issue.xferGate_goes hw hxfers hfaults).trans (Issue.waitOps_done hw hmine htag))

end Sys2Proof.Machine
end

section
/-! The hub's registers after reset (R404, R418, R419). -/

namespace Sys2Proof.Machine

/-- Only m.fab, m.clk and each vf.nctx are listed after reset. -/
theorem key_of_mem_resetRegs {p : Nat × Dword} (hp : p ∈ resetRegs) :
    p.1 = 0x004 ∨ p.1 = 0x00C ∨ ∃ v, v < 64 ∧ p.1 = vfBase v + 0x054 := by
  rcases List.mem_append.1 hp with hp | hp
  · rcases List.mem_cons.1 hp with rfl | hp
    · exact .inl rfl
    · exact .inr (.inl (congrArg Prod.fst (List.mem_singleton.1 hp)))
  · obtain ⟨v, hv, rfl⟩ := List.mem_map.1 hp
    exact .inr (.inr ⟨v, List.mem_range.1 hv, rfl⟩)

/-- A register that is neither m.fab nor m.clk nor a vf.nctx reads 0 after reset. -/
theorem State.reset_reg_eq_zero {off : Nat} (hfab : off ≠ 0x004) (hclk : off ≠ 0x00C) (hnctx : ∀ v, v < 64 → off ≠ vfBase v + 0x054) :
    State.reset.reg off = 0 := by
  refine Sparse.look_of_not_mem fun p hp hoff => ?_
  rcases key_of_mem_resetRegs hp with h | h | ⟨v, hv, h⟩
  · exact hfab (hoff.symm.trans h)
  · exact hclk (hoff.symm.trans h)
  · exact hnctx v hv (hoff.symm.trans h)

theorem State.reset_reg_of_mem {p : Nat × Dword} (hp : p ∈ resetRegs) : State.reset.reg p.1 = p.2 := by
  obtain ⟨-, -, -, hregs, -⟩ := State.canonical_reset
  exact Sparse.look_of_mem hregs hp

theorem State.reset_nctx {v : Nat} (hv : v < 64) : State.reset.vfReg v 0x054 = 1 :=
  State.reset_reg_of_mem (p := (vfBase v + 0x054, 1)) (List.mem_append_right _ (List.mem_map.2 ⟨v, List.mem_range.2 hv, rfl⟩))

theorem State.reset_vfReg {v off : Nat} (hoff : off < 0x1000) (hne : off ≠ 0x054) : State.reset.vfReg v off = 0 := by
  refine State.reset_reg_eq_zero ?_ ?_ fun u _ => ?_
  all_goals
    simp only [vfBase]
    omega

theorem State.reset_partReg {p off : Nat} (hp : p < 32) (hoff : off < 0x1000) : State.reset.partReg p off = 0 := by
  refine State.reset_reg_eq_zero ?_ ?_ fun u _ => ?_
  all_goals
    simp only [partBase, vfBase]
    omega

/-- Settles O59: the registers that are listed after reset read their listed values, and every other one reads 0. -/
theorem resetState : Obligations.ResetState := by
  unfold Obligations.ResetState
  intro s
  have hfab : s.reg 0x004 = 0x80000000#64 := State.reset_reg_of_mem (p := (0x004, _)) List.mem_cons_self
  have hclk : s.reg 0x00C = nominalClk := State.reset_reg_of_mem (p := (0x00C, _)) (List.mem_cons_of_mem _ List.mem_cons_self)
  have hboot : s.reg 0x000 = 0 := State.reset_reg_eq_zero (by decide) (by decide) fun v _ => by simp only [vfBase]; omega
  refine ⟨State.canonical_reset, ?_, hboot, hclk, fun v => State.reset_nctx, fun v off _ => State.reset_vfReg, fun p off => State.reset_partReg,
    fun _ => rfl, fun _ => rfl, fun _ => rfl, rfl, rfl, rfl⟩
  rw [State.recovery, hfab]
  decide

end Sys2Proof.Machine
end

section
/-! The keys of a link (R420 to R422), and the answers of the security processor (R424). -/

namespace Sys2Proof.Machine

/-! ## Links (R420 to R422) -/

section Links

variable {s : State} {n : Nat}

/-- Between two events a link sends flits under its current key, and nothing else of it changes. -/
theorem State.afterSends_link (s : State) (n : Nat) :
    ∃ k, (s.afterSends n).1 = { s.link n with replay := (s.link n).replay ++ List.replicate k (s.link n).cur } :=
  ⟨_, rfl⟩

section Present

variable (hn : linkPresent s.part n = true)
include hn

theorem exec_linkRetrain (hkey : (s.link n).has (s.link n).cur = true) :
    exec (.linkRetrain n) s = .next (s.putLink { s.link n with replay := (s.link n).replay ++ [(s.link n).cur] }) :=
  congrArg Host.Outcome.next (if_pos ⟨hn, hkey⟩)

/-- A rollover of a link that the part has: busy while a retire is pending, else a first key, or a new current key. -/
theorem exec_keyRollover : exec (.keyRollover n) s = .next (
    let l := (s.afterSends n).1
    let s1 := (s.afterSends n).2
    if (s.link n).retirePending then s1.putLink { l with busy := l.busy ++ [true] }
    else if !(s.link n).has (s.link n).cur then s1.putLink { l.setKey l.cur true with busy := l.busy ++ [false] }
    else s1.putLink { l.setKey (!l.cur) true with cur := !l.cur, retirePending := true, retireSent := false, busy := l.busy ++ [false] }) :=
  congrArg Host.Outcome.next (if_neg (by simp [hn]))

theorem exec_retireMessage (hpending : (s.link n).retirePending = true) (hnot : (s.link n).retireSent = false)
    (hflits : (s.link n).replay.contains (!(s.link n).cur) = false) :
    exec (.retireMessage n) s = .next (s.putLink { s.link n with retireSent := true }) :=
  congrArg Host.Outcome.next (if_pos ⟨hn, hpending, by rw [hnot]; rfl, by rw [hflits]; rfl⟩)

theorem exec_retireReceive (hsent : (s.link n).retireSent = true) : exec (.retireReceive n) s =
    .next (s.putLink { (s.link n).setKey (!(s.link n).cur) false with retirePending := false, retireSent := false }) :=
  congrArg Host.Outcome.next (if_pos ⟨hn, hsent⟩)

/-- A flit is delivered, and what it acknowledges leaves the replay buffer; or it fails its integrity check. -/
theorem exec_flitReceive (slot intact : Bool) : exec (.flitReceive n slot intact) s = .next (
    let l := (s.afterSends n).1
    let s1 := (s.afterSends n).2
    if intact ∧ (s.link n).has slot then s1.takeFree.2.putLink { l with replay := l.replay.drop s1.takeFree.1.toNat }
    else (s1.takeFree.2.putLink l).setBit 0x024 n true) :=
  congrArg Host.Outcome.next (if_neg (by simp [hn]))

end Present

/-- The retire message waits for the flits that were first sent under the old key (R421). -/
theorem exec_retireMessage_waits (hflits : (s.link n).replay.contains (!(s.link n).cur) = true) : exec (.retireMessage n) s = .next s := by
  refine congrArg Host.Outcome.next (if_neg ?_)
  rintro ⟨-, -, -, h⟩
  rw [hflits] at h
  exact Bool.false_ne_true h

end Links

/-! ## The answers of the security processor (R424) -/

section Spdm

variable {s : State} {via : Option Nat} {kind : SpdmKind}

/-- The answer to a request, through the mailbox that the request came through. -/
def State.spdmReply (s : State) (kind : SpdmKind) (via : Option Nat) : SpdmReply :=
  { via := via, kind := kind, version := spdmVersion, error := decide (kind = .unsupported),
    signature := if spdmSigned kind then some .falcon1024 else none, hash := if spdmSigned kind then some .shake256 else none,
    measurements := if kind = .getMeasurements then s.measured via else [],
    payload := if decide (kind = .unsupported) then [] else Config.spdmPayload kind s.fresh }

/-- A request through the PF's mailbox or that of one of the 64 VFs adds its answer, and moves its own conversation on. -/
theorem State.answer_eq (hvia : ∀ v, via = some v → v < 64) : s.answer kind via =
    { s with spdm := s.spdm ++ [s.spdmReply kind via], fresh := s.fresh + 1,
             spdmPeers := (s.peer via).after kind :: s.spdmPeers.filter (fun (p : SpdmPeer) => p.via != via) } := by
  cases via with
  | none => rfl
  | some v => exact if_pos (hvia v rfl)

theorem spdmSigned_of_mem (h : kind ∈ [SpdmKind.negotiateAlgorithms, .challenge, .getMeasurements, .keyExchange]) : spdmSigned kind = true := by
  fin_cases h <;> rfl

/-- Every VF is shown the measurements of start-up. -/
theorem State.measured_prefix (s : State) (v : Nat) : s.meas.take 8 <+: s.measured (some v) := List.prefix_append ..

/-- A VF is shown the measurement of its own partition, where that has a register. -/
theorem State.measured_of_partOf {v p : Nat} (hv : s.partOf v = some p) (hp : p < 8) :
    s.measured (some v) = s.meas.take 8 ++ (s.meas.drop (8 + p)).take 1 := by
  rw [State.measured, hv]
  exact congrArg (s.meas.take 8 ++ ·) (if_pos hp)

theorem State.spdmReply_measurements (h : kind = .getMeasurements) : (s.spdmReply kind via).measurements = s.measured via := if_pos h

end Spdm

/-- Settles O50: the events of a link that the part has, by the keys that it holds; those of an absent one, which change nothing; and every SPDM
request, by the one answer of `State.answer`. -/
theorem linksAndAttestation : Obligations.LinksAndAttestation := by
  refine ⟨fun s n hn => ?present, fun s n hn => ?absent, fun s via hvia => ?spdm⟩
  case present =>
    intro l l1 s1
    refine ⟨s.afterSends_link n, exec_linkRetrain hn, fun hp => ?_, fun hp hkey => ?_, fun hp hkey => ?_, exec_retireMessage hn,
      exec_retireMessage_waits, exec_retireReceive hn, fun slot intact => ⟨fun h => ?_, fun h => ?_⟩⟩
    · exact (exec_keyRollover hn).trans (congrArg _ (if_pos hp))
    · exact (exec_keyRollover hn).trans (congrArg _ ((if_neg (ne_true_of_eq_false hp)).trans (if_neg (by simpa using hkey))))
    · exact (exec_keyRollover hn).trans (congrArg _ ((if_neg (ne_true_of_eq_false hp)).trans (if_pos (by simpa using hkey))))
    · exact (exec_flitReceive hn slot intact).trans (congrArg _ (if_pos h))
    · refine (exec_flitReceive hn slot intact).trans (congrArg _ (if_neg ?_))
      rintro ⟨hintact, hkey⟩
      exact h.elim (ne_true_of_eq_false · hintact) (ne_true_of_eq_false · hkey)
  case absent =>
    have habsent : ∀ {P : Prop}, ¬ (linkPresent s.part n = true ∧ P) := fun h => ne_true_of_eq_false hn h.1
    have hout : (!linkPresent s.part n) = true := by rw [hn]; rfl
    exact ⟨congrArg _ (if_neg habsent), congrArg _ (if_pos hout), congrArg _ (if_neg habsent), congrArg _ (if_neg habsent),
      fun slot intact => congrArg _ (if_pos hout)⟩
  case spdm =>
    intro ans
    have hans : ∀ {i : Instr} {k : SpdmKind}, exec i s = .next (s.answer k via) → ans i k := by
      intro i k hi
      refine ⟨_, hi, s.spdmReply k via, State.answer_eq hvia, rfl, rfl, rfl, decide_eq_true_iff, fun h => if_neg h, fun h => ?_, fun h hpf => ?_,
        fun v h hv => ?_⟩
      · exact ⟨if_pos (spdmSigned_of_mem h), if_pos (spdmSigned_of_mem h)⟩
      · rw [State.spdmReply_measurements h, hpf]
        rfl
      · rw [State.spdmReply_measurements h, hv]
        exact ⟨s.measured_prefix v, fun p => State.measured_of_partOf⟩
    exact ⟨hans rfl, hans rfl, hans rfl, hans rfl, hans rfl, hans rfl, hans rfl, hans rfl, hans rfl, hans rfl, hans rfl, hans rfl, hans rfl⟩

end Sys2Proof.Machine
end

section
/-! Partitions, and the stops, switches, groups and dirty logs of VFs (R402, R403, R406, R408, R409, R414). -/

namespace Sys2Proof.Machine

variable {s : State}

/-! ## Partitions (R402, R403) -/

section Partitions

variable {p : Nat} (hp : p < 32)
include hp

section Enabling

variable (hoff : s.partEnabled p = false) (hboot : 7 ≤ s.modField 0x000 3 0)
include hoff hboot

/-- After start-up an enable of a partition that is off makes the checks of R403. -/
theorem exec_partitionEnable : exec (.partitionEnable p) s = .next (
    if s.partReason p ≠ 0 then s.setPartState p 3 (some (s.partReason p))
    else
      let n := (s.enables.look p).toNat
      let s1 := (s.setBit (partBase p) 0 true).setPartState p 1 none
      let s2 := { s1 with enables := s1.enables.put p (BitVec.ofNat 32 (n + 1)) }
      if p < 8 then s2.extendMeas (8 + p) (Config.osImage p n) else s2) := by
  refine congrArg Host.Outcome.next (if_neg ?_)
  rintro (h | h | h)
  exacts [Nat.not_le.2 hp h, ne_true_of_eq_false hoff h, Nat.not_lt.2 hboot h]

end Enabling

section Enabled

variable (hon : s.partEnabled p = true)
include hon

/-- A disable and a stop act on an enabled partition. -/
theorem State.partActs : ¬ (32 ≤ p ∨ (!s.partEnabled p) = true) := by
  rw [hon]
  exact not_or.2 ⟨Nat.not_le.2 hp, Bool.false_ne_true⟩

theorem exec_partitionDisable : exec (.partitionDisable p) s = .next (((s.vfsOf p).foldl
    (fun s v => s.setVfReg v 0x040 (s.vfReg v 0x040 &&& 0xFFFF0000#64))
    (((((s.topRegions (s.vfsOf p)).foldl (fun s x => s.endSubtree x.1 x.2) s).dropVfs p (s.vfsOf p)).zeroPart p).setBit (partBase p) 0 false)
    ).setPartState p 0 none) :=
  congrArg Host.Outcome.next (if_neg (State.partActs hp hon))

theorem exec_partitionStop : exec (.partitionStop p) s =
    .next (((s.setBit (partBase p) 1 true).setPartState p 2 none).haltWgs (fun w => (s.vfsOf p).contains w.vf)) :=
  congrArg Host.Outcome.next (if_neg (State.partActs hp hon))

end Enabled

end Partitions

/-! ## Stops and resumptions of a VF (R409) -/

section Vfs

variable {vf : Nat}

/-- A VF as it is being stopped: its workgroups stop, and what has been granted to them retires. -/
def State.vfHalted (s : State) (vf : Nat) : State :=
  ((s.setBit (vfBase vf) 2 true).stopWgs (fun w => w.vf == vf)).haltWgs (fun w => w.vf == vf)

/-- A VF with its workgroups saved and its save record written. -/
def State.vfRecorded (s : State) (vf : Nat) : State :=
  let s1 := s.saveAll (fun w => w.vf == vf)
  s1.storeBytes (s1.vfReg vf 0x048).toNat (s1.saveRecord vf)

/-- A VF whose halted groups have settled is stopped. -/
theorem exec_vfStop (hvf : vf < 64) (hruns : s.stoppedVfs.contains vf = false)
    (hsettled : ((s.vfHalted vf).runningWgs (fun w => w.vf == vf)).all (s.vfHalted vf).settledForSave = true) :
    exec (.vfStop vf) s =
      .next { (s.vfHalted vf).vfRecorded vf with stoppedVfs := vf :: ((s.vfHalted vf).vfRecorded vf).stoppedVfs } := by
  have hgoes : ¬ (64 ≤ vf ∨ s.stoppedVfs.contains vf = true) := not_or.2 ⟨Nat.not_le.2 hvf, ne_true_of_eq_false hruns⟩
  exact congrArg Host.Outcome.next ((if_neg hgoes).trans (if_pos hsettled))

/-- A VF that is no longer stopped. -/
def State.vfReleased (s : State) (vf : Nat) : State :=
  { s.setBit (vfBase vf) 2 false with stoppedVfs := s.stoppedVfs.filter (fun v => v != vf) }

section Resuming

variable (hvf : vf < 64) (hstopped : s.stoppedVfs.contains vf = true)
include hvf hstopped

/-- A stopped VF is released, and then a request that it held is made, a switch under way goes on, or its current context goes on. -/
theorem exec_vfResume : exec (.vfResume vf) s = .next (
    match (s.vfReleased vf).switches.find? (fun (x : Switch) => x.vf == vf) with
    | some x =>
      if x.step = 0 then
        { s.vfReleased vf with switches := (s.vfReleased vf).switches.filter (fun (y : Switch) => y.vf != vf) }.showSwitch vf x.inc 0 false
          |>.requestSwitch vf x.inc
      else ((s.vfReleased vf).applyCx vf x.inc).setStep vf 3
    | none => (s.vfReleased vf).applyCx vf ((s.vfReleased vf).curCtx vf)) := by
  have hgoes : ¬ (64 ≤ vf ∨ (!s.stoppedVfs.contains vf) = true) := by
    rw [hstopped]
    exact not_or.2 ⟨Nat.not_le.2 hvf, Bool.false_ne_true⟩
  exact congrArg Host.Outcome.next (if_neg hgoes)

theorem exec_vfResume_none (hnone : (s.vfReleased vf).switches.find? (fun x => x.vf == vf) = none) :
    exec (.vfResume vf) s = .next ((s.vfReleased vf).applyCx vf ((s.vfReleased vf).curCtx vf)) := by
  rw [exec_vfResume hvf hstopped, hnone]

theorem exec_vfResume_some {x : Switch} (hx : (s.vfReleased vf).switches.find? (fun x => x.vf == vf) = some x) (hstep : x.step ≠ 0) :
    exec (.vfResume vf) s = .next (((s.vfReleased vf).applyCx vf x.inc).setStep vf 3) := by
  rw [exec_vfResume hvf hstopped, hx]
  exact congrArg Host.Outcome.next (if_neg hstep)

end Resuming

/-! ## Guest switches (R408) -/

/-- Without a switch under way, a running VF starts one towards a context that can come in. -/
theorem State.requestSwitch_starts {inc : Nat} (hnone : s.switches.find? (fun x => x.vf == vf) = none) (hruns : s.vfStopped vf = false)
    (hok : s.switchOk vf inc = true) : s.requestSwitch vf inc =
      { s with switches := s.switches ++ [({ vf := vf, out := s.curCtx vf, inc := inc, step := 1 } : Switch)] }.showSwitch vf inc 1 true := by
  have hidle : ¬ s.switches.any (fun (x : Switch) => x.vf == vf) = true := by
    rw [List.any_eq_true]
    rintro ⟨x, hx, h⟩
    exact List.find?_eq_none.1 hnone x hx h
  unfold State.requestSwitch
  rw [if_neg hidle]
  simp [hruns, hok]

theorem exec_guestSwitch_starts {inc : Nat} (hvf : vf < 64) (hnone : s.switches.find? (fun x => x.vf == vf) = none)
    (hruns : s.vfStopped vf = false) (hok : s.switchOk vf inc = true) : exec (.guestSwitch vf inc) s = .next
      ({ s with switches := s.switches ++ [({ vf := vf, out := s.curCtx vf, inc := inc, step := 1 } : Switch)] }.showSwitch vf inc 1 true) := by
  refine congrArg Host.Outcome.next ((if_neg (Nat.not_le.2 hvf)).trans ?_)
  rw [hnone]
  exact State.requestSwitch_starts hnone hruns hok

theorem exec_guestSwitch_goes {inc : Nat} {x : Switch} (hvf : vf < 64) (hx : s.switches.find? (fun x => x.vf == vf) = some x)
    (hruns : s.vfStopped vf = false) : exec (.guestSwitch vf inc) s = .next (s.moveSwitch x) := by
  refine congrArg Host.Outcome.next ((if_neg (Nat.not_le.2 hvf)).trans ?_)
  rw [hx]
  exact if_neg (ne_true_of_eq_false hruns)

/-! ## The dirty log's control (R414) -/

theorem exec_logProgram_control {value : Dword} (hvf : vf < 64) (hvalue : value.toNat < 2) : exec (.logProgram vf 0x034 value) s =
    .next (if value = 1 then (s.setVfReg vf 0x034 value).checkDirtyLog vf else s.setVfReg vf 0x034 value) :=
  congrArg Host.Outcome.next ((if_neg (Nat.not_le.2 hvf)).trans ((if_pos rfl).trans (if_pos hvalue)))

/-! ## Control of parked groups (R406) -/

section Groups

variable {core slot : Nat} {w : Workgroup} {g : Group}

/-- Both controls act on a parked group, and else set vf.err.grp. -/
theorem exec_groupControl_some (h : s.groupOf vf core slot = some (w, g)) :
    exec (.groupResume vf core slot) s = .next (if g.park.isSome then s.changeGroup w g Group.unpark else s.vfErr vf 3) ∧
      exec (.groupKill vf core slot) s = .next (if g.park.isSome then s.killAt w g else s.vfErr vf 3) := by
  constructor
  all_goals
    refine congrArg Host.Outcome.next ?_
    rw [h]

theorem exec_groupControl_none (h : s.groupOf vf core slot = none) :
    exec (.groupResume vf core slot) s = .next (s.vfErr vf 3) ∧ exec (.groupKill vf core slot) s = .next (s.vfErr vf 3) := by
  constructor
  all_goals
    refine congrArg Host.Outcome.next ?_
    rw [h]

end Groups

end Vfs

/-- Settles O48: each command goes past its guard, and a control of a group acts only on a parked one. -/
theorem partitionsAndVfs : Obligations.PartitionsAndVfs := by
  refine ⟨fun s p hp hoff hboot => ?enable, fun s p hp hon => ⟨exec_partitionDisable hp hon, exec_partitionStop hp hon⟩, fun s vf hvf => ?vfs,
    fun s vf core slot => ?groups⟩
  case enable =>
    have hexec := exec_partitionEnable hp hoff hboot
    refine ⟨fun hbad => hexec.trans (congrArg _ (if_pos hbad)), fun hok => ⟨fun hmeasured => ?_, fun hmore => ?_⟩⟩
    · exact hexec.trans (congrArg _ ((if_neg (not_not.2 hok)).trans (if_pos hmeasured)))
    · exact hexec.trans (congrArg _ ((if_neg (not_not.2 hok)).trans (if_neg (Nat.not_lt.2 hmore))))
  case vfs =>
    exact ⟨exec_vfStop hvf, fun hstopped => ⟨exec_vfResume_none hvf hstopped, fun x => exec_vfResume_some hvf hstopped⟩,
      fun inc => exec_guestSwitch_starts hvf, fun inc x => exec_guestSwitch_goes hvf, fun value => exec_logProgram_control hvf⟩
  case groups =>
    refine ⟨fun w g hg hpark => ?_, ?_⟩
    · obtain ⟨hresume, hkill⟩ := exec_groupControl_some hg
      exact ⟨hresume.trans (congrArg _ (if_pos hpark)), hkill.trans (congrArg _ (if_pos hpark))⟩
    · rintro (hnone | ⟨w, g, hg, hpark⟩)
      · exact exec_groupControl_none hnone
      · obtain ⟨hresume, hkill⟩ := exec_groupControl_some hg
        have hgoes : ¬ g.park.isSome = true := by rw [hpark]; exact Bool.false_ne_true
        exact ⟨hresume.trans (congrArg _ (if_neg hgoes)), hkill.trans (congrArg _ (if_neg hgoes))⟩

end Sys2Proof.Machine
end

section
/-! SUPPORT. A posted write that is performed at its home leaves the invalidations in effect as they are (R231, R407). -/

namespace Sys2Proof.Machine

variable {s t : State}

/-- What each update of a list leaves as it is, all of them leave as it is. -/
theorem State.foldl_view {α β : Type} {view : State → β} {g : State → α → State} (hg : ∀ s x, view (g s x) = view s) (l : List α) (s : State) :
    view (l.foldl g s) = view s := by
  induction l generalizing s with
  | nil => rfl
  | cons x xs ih => exact (ih (g s x)).trans (hg s x)

theorem State.foldl_invals {α : Type} {g : State → α → State} (hg : ∀ s x, (g s x).invals = s.invals) (l : List α) (s : State) :
    (l.foldl g s).invals = s.invals := State.foldl_view (view := State.invals) hg l s

theorem State.logDirty_invals (s : State) (vf gpage : Nat) : (s.logDirty vf gpage).invals = s.invals := by
  unfold State.logDirty
  split
  · rfl
  · split
    · split
      split <;> rfl
    · split <;> rfl

theorem State.noteAccess_invals (s : State) (vf : Nat) (gpage : Option Nat) (path leaves : List Nat) (write : Bool) :
    (s.noteAccess vf gpage path leaves write).invals = s.invals := by
  unfold State.noteAccess
  dsimp only
  split
  exacts [State.logDirty_invals .., rfl]

theorem State.noteWrite_invals (s : State) (vf pa : Nat) (n : Note) : (s.noteWrite vf pa n).invals = s.invals := by
  unfold State.noteWrite
  split
  · rfl
  · split
    exacts [rfl, State.noteAccess_invals ..]

theorem State.gpaWriteBytes_invals (s : State) (vf gpa : Nat) (bs : List Byte) : (s.gpaWriteBytes vf gpa bs).invals = s.invals := by
  refine State.foldl_invals (fun s i => ?_) ..
  unfold State.gpaWrite
  split
  exacts [State.noteAccess_invals .., rfl, rfl, rfl]

theorem State.logReplay_invals (s : State) (vf : Nat) (e : ReplayEntry) : (s.logReplay vf e).invals = s.invals := State.gpaWriteBytes_invals ..

theorem State.recordTouches_invals (s : State) (ac : Accessor) (ts : List Touch) : (s.recordTouches ac ts).invals = s.invals := by
  unfold State.recordTouches
  split
  exacts [State.foldl_invals (fun _ _ => State.logReplay_invals ..) .., rfl]

theorem State.visitReplay_invals (s : State) (vf r k : Nat) : (s.visitReplay vf r k).invals = s.invals := by
  refine State.foldl_invals (fun s i => ?_) ..
  unfold State.gpaVisit
  split
  exacts [State.noteAccess_invals .., rfl, rfl, rfl]

theorem State.replayGate_invals {key vf ctx : Nat} {es : List ReplayEntry} (h : s.replayGate key vf ctx es = .go t) : t.invals = s.invals := by
  unfold State.replayGate at h
  split at h
  · dsimp only at h
    split at h
    · cases h; rfl
    · split at h
      · cases h
      · split at h
        · cases h; exact State.visitReplay_invals ..
        · cases h
  · cases h; rfl

theorem State.noteRecent_invals (s : State) (start pa : Nat) (old : List Byte) : (s.noteRecent start pa old).invals = s.invals := by
  unfold State.noteRecent
  split <;> rfl

theorem State.setTag_invals (s : State) (g : Nat) (t : BitVec 4) : (s.setTag g t).invals = s.invals := rfl

theorem State.applyPosted_invals (s : State) (p : Posted) : (s.applyPosted p).invals = s.invals := by
  unfold State.applyPosted
  split
  · exact State.noteRecent_invals ..
  · exact (State.noteRecent_invals ..).trans (State.noteRecent_invals ..)
  · refine (State.noteRecent_invals ..).trans ?_
    split <;> rfl
  · exact State.foldl_invals (fun _ _ => State.setTag_invals ..) ..
  · exact State.noteRecent_invals ..

theorem State.performNow_invals (s : State) (p : Posted) : (s.performNow p).invals = s.invals :=
  (State.foldl_invals (fun _ _ => State.noteWrite_invals ..) ..).trans (State.applyPosted_invals s p)

theorem State.postedGate_invals {p : Posted} (h : s.postedGate p = .go t) : t.invals = s.invals := by
  unfold State.postedGate at h
  split at h
  · cases h
  · split at h
    · next hg =>
      cases h
      exact (State.recordTouches_invals ..).trans (State.replayGate_invals hg)
    · next hn => exact absurd h (hn t)

theorem State.performPosted_invals (s : State) (p : Posted) : (s.performPosted p).invals = s.invals := by
  unfold State.performPosted
  split
  · rfl
  · split
    · next hg => exact (State.performNow_invals ..).trans (State.postedGate_invals hg)
    · rfl
    · rfl

theorem State.flushWhere_invals (s : State) (P : Posted → Bool) : (s.flushWhere P).invals = s.invals :=
  State.foldl_invals (fun _ _ => State.performPosted_invals ..) ..

end Sys2Proof.Machine
end

section
/-! Invalidations (R405, R407), the states of a die (R415, R416), clocks and error counts (R419), and the stages of start-up (R418). -/

namespace Sys2Proof.Machine

variable {s : State}

/-! ## Invalidations begin (R405, R407) -/

section Invalidations

variable {vf : Nat}

/-- The context whose window the VF has selected (R405). -/
def State.shownCtx (s : State) (vf : Nat) : Nat := (s.vfReg vf 0x050).toNat % 65536

/-- The window shows a context that vf.nctx reaches (R405). -/
def State.ctxShown (s : State) (vf : Nat) : Prop := s.shownCtx vf < (s.vfReg vf 0x054).toNat

theorem State.invalidate_hidden (h : ¬ s.ctxShown vf) (kind page : Nat) : s.invalidate vf kind page = s :=
  if_pos (.inr (Nat.not_lt.1 h))

section Shown

variable (hvf : vf < 64) (hshown : s.ctxShown vf) (kind page : Nat)
include hvf hshown

theorem State.invalidate_shown : s.invalidate vf kind page =
    if s.invals.any (fun (x : Inval) => x.vf == vf && x.ctx == s.shownCtx vf) then s.vfErr vf 5
    else { s with invals := s.invals ++ [({ vf := vf, ctx := s.shownCtx vf, kind := kind, page := page % 2 ^ 40 } : Inval)] }.setCxReg
      vf (s.shownCtx vf) 0x138 1 :=
  if_neg (not_or.2 ⟨Nat.not_le.2 hvf, Nat.not_le.2 hshown⟩)

theorem State.invalidate_busy (hbusy : s.invals.any (fun x => x.vf == vf && x.ctx == s.shownCtx vf) = true) :
    s.invalidate vf kind page = s.vfErr vf 5 :=
  (State.invalidate_shown hvf hshown kind page).trans (if_pos hbusy)

theorem State.invalidate_idle (hidle : s.invals.any (fun x => x.vf == vf && x.ctx == s.shownCtx vf) = false) : s.invalidate vf kind page =
    { s with invals := s.invals ++ [({ vf := vf, ctx := s.shownCtx vf, kind := kind, page := page % 2 ^ 40 } : Inval)] }.setCxReg
      vf (s.shownCtx vf) 0x138 1 :=
  (State.invalidate_shown hvf hshown kind page).trans (if_neg (ne_true_of_eq_false hidle))

end Shown

/-! ## Invalidations complete (R292, R407) -/

/-- One invalidation is complete: the entries that it names are gone, and busy reads 0. -/
def State.endInval (s : State) (x : Inval) : State :=
  { s with tlb := s.tlb.filter (fun (e : TlbEntry) => !x.names e), invals := s.invals.filter (fun y => y != x) }.setCxReg x.vf x.ctx 0x138 0

theorem State.endInvals_posted (l : List Inval) (s : State) : (l.foldl State.endInval s).posted = s.posted :=
  State.foldl_view (view := State.posted) (g := State.endInval) (fun _ _ => rfl) l s

theorem State.endInvals_mem (l : List Inval) (s : State) : (l.foldl State.endInval s).mem = s.mem :=
  State.foldl_view (view := State.mem) (g := State.endInval) (fun _ _ => rfl) l s

theorem State.endInvals_tlb (l : List Inval) (s : State) :
    (l.foldl State.endInval s).tlb = s.tlb.filter (fun e => !l.any (fun x => x.names e)) := by
  induction l generalizing s with
  | nil => exact (List.filter_eq_self.2 fun _ _ => rfl).symm
  | cons x l ih =>
    refine (ih (s.endInval x)).trans ((List.filter_filter ..).trans (List.filter_congr fun e _ => ?_))
    rw [List.any_cons, Bool.not_or, Bool.and_comm]

/-- An invalidation in effect afterwards was in effect before, and is none of those that are complete. -/
theorem State.mem_endInvals_invals {y : Inval} {l : List Inval} (h : y ∈ (l.foldl State.endInval s).invals) : y ∈ s.invals ∧ y ∉ l := by
  induction l generalizing s with
  | nil => exact ⟨h, List.not_mem_nil⟩
  | cons x l ih =>
    obtain ⟨hleft, hl⟩ := ih h
    obtain ⟨hs, hne⟩ := List.mem_filter.1 hleft
    exact ⟨hs, List.not_mem_cons_of_ne_of_not_mem (bne_iff_ne.1 hne) hl⟩

/-- The invalidations of a VF in effect. -/
def State.invalsOf (s : State) (vf : Nat) : List Inval := s.invals.filter (fun (x : Inval) => x.vf == vf)

/-- What the VF's accesses have posted is performed, where an invalidation of the VF is in effect. -/
def State.settledFor (s : State) (vf : Nat) : State := if s.invals.any (fun x => x.vf == vf) then s.flushWhere (fun p => p.vf == vf) else s

theorem State.settledFor_invals (s : State) (vf : Nat) : (s.settledFor vf).invals = s.invals := by
  unfold State.settledFor
  split
  exacts [State.flushWhere_invals .., rfl]

theorem State.invalsOf_eq_nil : s.invalsOf vf = [] ↔ ¬ s.invals.any (fun x => x.vf == vf) = true := by
  rw [State.invalsOf, List.filter_eq_nil_iff, List.any_eq_true, not_exists]
  exact forall_congr' fun x => not_and.symm

theorem exec_invalidationComplete (s : State) (vf : Nat) :
    exec (.invalidationComplete vf) s = .next ((s.invalsOf vf).foldl State.endInval (s.settledFor vf)) := by
  have hsettled : (if s.invalsOf vf = [] then s else s.flushWhere (fun p => p.vf == vf)) = s.settledFor vf := by
    simp only [State.invalsOf_eq_nil, State.settledFor, ite_not]
  exact congrArg (fun t => Host.Outcome.next ((s.invalsOf vf).foldl State.endInval t)) hsettled

/-- No invalidation of the VF is in effect once they are complete. -/
theorem State.endInvals_done {y : Inval} (h : y ∈ ((s.invalsOf vf).foldl State.endInval (s.settledFor vf)).invals) : y.vf ≠ vf := by
  obtain ⟨hs, hmine⟩ := State.mem_endInvals_invals h
  rw [State.settledFor_invals] at hs
  exact fun hvf => hmine (List.mem_filter.2 ⟨hs, beq_iff_eq.2 hvf⟩)

end Invalidations

/-! ## Dies (R415, R416) -/

section Dies

variable {d : Nat}

theorem exec_dieOffline (hok : s.offlineResult d = 0) : exec (.dieOffline d) s = .next (
    let s1 := ((s.setDieState d 1).showDie d true).tellPartitions d
    (s1.moves.foldl (fun s mv => s.redirect d mv) s1).startOff d) :=
  congrArg Host.Outcome.next (if_neg (not_not.2 hok))

theorem exec_dieOffline_refused (hbad : s.offlineResult d ≠ 0) : exec (.dieOffline d) s = .next (s.setDieResult (s.offlineResult d)) :=
  congrArg Host.Outcome.next (if_pos hbad)

/-- A die whose pages have all moved drains. -/
theorem exec_diePagesMoved (hd : d < 4) (hstate : s.dieState d = 1) (hmoves : ∀ mv ∈ s.moves, onDie d mv.src = false ∧ onDie d mv.dst = false)
    (hpages : s.pagesOnDie d = []) : exec (.diePagesMoved d) s = .next (s.setDieState d 2) := by
  refine congrArg Host.Outcome.next ((if_neg ?_).trans (if_pos hpages))
  rintro (h | h | h)
  · exact Nat.not_le.2 hd h
  · exact h hstate
  · obtain ⟨mv, hmv, hon⟩ := List.any_eq_true.1 h
    obtain ⟨hsrc, hdst⟩ := hmoves mv hmv
    rw [hsrc, hdst] at hon
    exact Bool.false_ne_true hon

/-- A draining die is offline once its last workgroup has ended. -/
theorem exec_dieDrained (hd : d < 4) (hstate : s.dieState d = 2) (hended : ∀ w ∈ s.wgs, w.core / 64 = d → w.ended = true) :
    exec (.dieDrained d) s = .next ((s.setDieState d 3).setDieResult 0) := by
  have hnone : s.wgs.any (fun w => w.core / 64 == d && !w.ended) = false := by
    rw [List.any_eq_false]
    intro w hw h
    obtain ⟨hcore, hlive⟩ := Bool.and_eq_true_iff.1 h
    rw [hended w hw (beq_iff_eq.1 hcore)] at hlive
    exact Bool.false_ne_true hlive
  exact congrArg Host.Outcome.next (if_pos ⟨hd, hstate, by rw [hnone]; rfl⟩)

theorem exec_dieOnline (hd : d < 4) (hstate : s.dieState d = 3 ∨ s.dieState d = 4) :
    exec (.dieOnline d) s = .next (((s.setDieState d 0).setDieResult 0).showDie d false) :=
  congrArg Host.Outcome.next (if_pos ⟨hd, hstate⟩)

end Dies

/-! ## Clocks and error counts (R419) -/

theorem exec_clockLower {mhz : Nat} (h : mhz < s.modField 0x00C 27 16) :
    exec (.clockLower mhz) s = .next (s.setReg 0x00C (BitVec.ofNat 64 (2 ^ 31 + mhz * 65536 + Config.hubMHz))) :=
  congrArg Host.Outcome.next (if_pos h)

theorem exec_clockLower_kept {mhz : Nat} (h : s.modField 0x00C 27 16 ≤ mhz) : exec (.clockLower mhz) s = .next s :=
  congrArg Host.Outcome.next (if_neg (Nat.not_lt.2 h))

/-- An error count saturates at 32 bits. -/
theorem State.countError_eq (s : State) (off : Nat) :
    s.countError off = s.setReg off (BitVec.ofNat 64 (min (2 ^ 32 - 1) ((s.reg off).toNat % 2 ^ 32 + 1))) := by
  rw [State.countError, State.modField, bitsOf, Nat.pow_zero, Nat.div_one]

/-! ## Stages of start-up (R418) -/

section Boot

variable {ok : Bool} {bad n : Nat}

/-- Stages 1, 2, 3 and 5 stop with their own number as the failure code. -/
theorem bootFailCode_eq (h : n = 1 ∨ n = 2 ∨ n = 3 ∨ n = 5) : bootFailCode n = n := if_pos h

theorem bootFailCode_eq_zero (h : ¬ (n = 1 ∨ n = 2 ∨ n = 3 ∨ n = 5)) : bootFailCode n = 0 := if_neg h

section Running

variable (hcode : s.modField 0x000 31 16 = 0) (hn : s.modField 0x000 3 0 + 1 = n)
include hcode hn

section Stages

variable (hle : n ≤ 7)
include hle

/-- A stage of start-up: 2 and 3 fence what fails and stop where no partition can be formed, and the others stop where their test fails. -/
theorem exec_reset_stage : exec (.reset ok bad) s = .next (
    if n = 2 ∨ n = 3 then (s.bootStage n bad).setBoot n (if (s.bootStage n bad).canForm then 0 else bootFailCode n)
    else if !ok ∧ bootFailCode n ≠ 0 then s.setBoot n (bootFailCode n)
    else (s.bootStage n bad).setBoot n 0) := by
  subst hn
  refine congrArg Host.Outcome.next ((if_neg fun h => Nat.not_lt.2 hle h.1).trans (if_neg ?_))
  exact not_or.2 ⟨not_not.2 hcode, Nat.not_lt.2 hle⟩

theorem exec_reset_passes (h2 : n ≠ 2) (h3 : n ≠ 3) (hok : ok = true ∨ n ≠ 1 ∧ n ≠ 5) :
    exec (.reset ok bad) s = .next ((s.bootStage n bad).setBoot n 0) := by
  refine (exec_reset_stage hcode hn hle).trans (congrArg _ ((if_neg (not_or.2 ⟨h2, h3⟩)).trans (if_neg ?_)))
  rintro ⟨hfails, hstops⟩
  rcases hok with rfl | ⟨h1, h5⟩
  · exact Bool.false_ne_true hfails
  · exact hstops (bootFailCode_eq_zero (by simp [h1, h2, h3, h5]))

end Stages

theorem exec_reset_fails (h : n = 1 ∨ n = 5) : exec (.reset false bad) s = .next (s.setBoot n n) := by
  have hcodeOf : bootFailCode n = n := bootFailCode_eq (by omega)
  refine (exec_reset_stage hcode hn (by omega)).trans (congrArg _ ((if_neg (by omega)).trans ?_))
  rw [hcodeOf]
  exact if_pos ⟨rfl, by omega⟩

theorem exec_reset_fences (h : n = 2 ∨ n = 3) :
    exec (.reset ok bad) s = .next ((s.bootStage n bad).setBoot n (if (s.bootStage n bad).canForm then 0 else n)) := by
  refine (exec_reset_stage hcode hn (by omega)).trans (congrArg _ ((if_pos h).trans ?_))
  rw [bootFailCode_eq (by omega)]

/-- After start-up, an event that is not `ok` sets recovery mode, or clears it (R319). -/
theorem exec_reset_recovery (hgt : 7 < n) : exec (.reset false bad) s = .next (s.setRecovery (bad != 0)) := by
  subst hn
  exact congrArg Host.Outcome.next (if_pos ⟨hgt, hcode, rfl⟩)

end Running

/-- After a stop, and after the last stage where the event is `ok`, the module is reset again. -/
theorem exec_reset_again (h : s.modField 0x000 31 16 ≠ 0 ∨ 7 < s.modField 0x000 3 0 + 1 ∧ ok = true) :
    exec (.reset ok bad) s = .next { State.resetOf s.part with agenda := s.agenda, fresh := s.fresh } := by
  refine congrArg Host.Outcome.next ((if_neg ?_).trans (if_pos (h.imp_right And.left)))
  rintro ⟨-, hcode, hfails⟩
  rcases h with hstop | ⟨-, rfl⟩
  · exact hstop hcode
  · exact Bool.false_ne_true hfails

end Boot

/-- Settles O49: each event goes past its guard into the one case that its clause names. -/
theorem moduleEvents : Obligations.ModuleEvents := by
  refine ⟨fun s vf page hvf => ?invalidations, fun s d => ?dies, fun s mhz => ?clocks, fun s ok bad => ?boot⟩
  case invalidations =>
    intro ctx shown
    refine ⟨fun hhidden => ?_, fun hshown hidle => ?_, fun hshown hbusy => congrArg _ (State.invalidate_busy hvf hshown 0 page hbusy), ?_⟩
    · have hsame : ∀ k q, (.next (s.invalidate vf k q) : Out) = .next s := fun k q => congrArg _ (State.invalidate_hidden hhidden k q)
      exact ⟨hsame 0 page, hsame 1 0, hsame 2 page, hsame 3 0⟩
    · intro adds
      have hadds : ∀ k q, (.next (s.invalidate vf k q) : Out) = .next (adds k q) :=
        fun k q => congrArg _ (State.invalidate_idle hvf hshown k q hidle)
      exact ⟨hadds 0 page, hadds 1 0, hadds 2 page, hadds 3 0⟩
    · refine ⟨_, exec_invalidationComplete s vf, fun x => State.endInvals_done, State.endInvals_posted .., State.endInvals_mem .., ?_⟩
      refine (State.endInvals_tlb ..).trans (List.filter_congr fun e _ => ?_)
      rw [State.invalsOf, List.any_filter]
  case dies =>
    exact ⟨exec_dieOffline, exec_dieOffline_refused, exec_diePagesMoved, exec_dieDrained, exec_dieOnline⟩
  case clocks =>
    refine ⟨exec_clockLower, exec_clockLower_kept, rfl, congrArg _ (s.countError_eq 0x018), ?_⟩
    intro s1
    have hcount : s.countError 0x01C = s1 := s.countError_eq 0x01C
    refine ⟨fun n => ?_, fun c k l r => ?_, fun c k r => ?_⟩
    all_goals
      rw [← hcount]
      rfl
  case boot =>
    intro n
    refine ⟨fun hcode => exec_reset_passes hcode rfl, fun hcode hfails h => ?_, fun hcode h => ⟨fun hform => ?_, fun hform => ?_⟩,
      fun hcode hgt hfails hbad => ?_, fun hcode hgt hfails hbad => ?_, exec_reset_again⟩
    · rw [hfails]
      exact exec_reset_fails hcode rfl h
    · exact (exec_reset_fences hcode rfl h).trans (congrArg (fun c => Host.Outcome.next ((s.bootStage n bad).setBoot n c)) (if_pos hform))
    · exact (exec_reset_fences hcode rfl h).trans
        (congrArg (fun c => Host.Outcome.next ((s.bootStage n bad).setBoot n c)) (if_neg (ne_true_of_eq_false hform)))
    · rw [hfails, exec_reset_recovery hcode rfl hgt]
      exact congrArg Host.Outcome.next (if_pos (bne_iff_ne.2 hbad))
    · rw [hfails, exec_reset_recovery hcode rfl hgt, hbad]
      rfl

end Sys2Proof.Machine
end
